-- ==== Sys2Proof/Word.lean ====
section
/-! DEFINITION. The words of the OZJ-3604: bytes, link and network addresses, and the counters that wrap.
Quantities the manual counts or measures (lengths, times, allowances, credit) are `Nat` or `Int`; only what it
treats as bits or as a wrapping counter is a bit vector. -/

namespace Sys2Proof

/-- One byte of a frame or of a cell. -/
abbrev Byte := BitVec 8

/-- A 6-byte link address, its first byte most significant (11.1). -/
abbrev LinkAddr := BitVec 48

/-- A 32-bit network address, most significant byte first (R189). -/
abbrev NetAddr := BitVec 32

/-- A frame counter or tally: 32 bits, wrapping (R8, R39, R179). -/
abbrev Count32 := BitVec 32

/-- A byte counter: 48 bits, wrapping (R8, R39). -/
abbrev Count48 := BitVec 48

end Sys2Proof
end

