-- ==== Sys2Proof/Syntax.lean ====
section
/-! DEFINITION. The commands: one constructor of `Instr` for each row of spec/opcode_table.json, in the table's order.

A row is an event at the part (power, a link, a frame received, a timer, a transmission) or the taking of one
management request from the input queue. The fields of a request stand in the bytes of its frame (R169, R190), so a
request row carries no field of its own but the memory faults its reading meets (R27). -/

namespace Sys2Proof

/-- A backbone end. -/
inductive End where
  | ba
  | bb
  deriving DecidableEq, Repr

/-- The other backbone end. -/
def End.other : End → End
  | .ba => .bb
  | .bb => .ba

/-- One of the 38 ports: 32 seat ports, four radio links, two backbone ends. -/
inductive Port where
  | seat (n : Fin 32)
  | radio (w : Fin 4)
  | backbone (x : End)
  deriving DecidableEq, Repr

/-- What a test of a cell's check code finds when it is not good (R27). -/
inductive CellError where
  | single
  | multi
  deriving DecidableEq, Repr

/-- A cell that has gone bad since the last step, and how. -/
structure CellFault where
  cell : Nat
  error : CellError
  deriving DecidableEq, Repr

/-- The commands of the part. -/
inductive Instr where
  /-- POWER_ON (R187). -/
  | powerOn
  /-- LINK_UP (R1): the link partner of a port appears and the link works. -/
  | linkUp (p : Port)
  /-- SEAT_PORT_DOWN (R2). -/
  | seatPortDown (n : Fin 32)
  /-- RADIO_LINK_DOWN (R3). -/
  | radioLinkDown (w : Fin 4)
  /-- BACKBONE_END_DOWN (R4). -/
  | backboneEndDown (x : End)
  /-- TAKE_CELL (R22): a byte arrives on the port that needs a new cell. -/
  | takeCell (p : Port)
  /-- SEAT_FRAME_RECEIVED (R40): the frame's L bytes, and whether its wire check passes. -/
  | seatFrameReceived (n : Fin 32) (frame : List Byte) (wireOk : Bool)
  /-- RADIO_DATA_FRAME_RECEIVED (R63): the radio header's kind and index, the bytes behind the header, and whether the
  wire check passes. Kind 1 is DATA; the receive check of any other kind (R5) is a form of this row too, and so is the
  reading of a NOTICE from its body (R191), which is then taken as by its own row. -/
  | radioDataFrameReceived (w : Fin 4) (kind index : Byte) (frame : List Byte) (wireOk : Bool)
  /-- ASSOCIATED (R65): the index and address in the notice's body, how many bytes stand behind the radio header, and whether the
  wire check passes (R191). -/
  | associated (w : Fin 4) (index : Byte) (a : LinkAddr) (len : Nat) (wireOk : Bool)
  /-- DISASSOCIATED (R70). -/
  | disassociated (w : Fin 4) (index : Byte) (len : Nat) (wireOk : Bool)
  /-- RADIO_START (R71). -/
  | radioStart (w : Fin 4) (len : Nat) (wireOk : Bool)
  /-- BACKBONE_FRAME_RECEIVED (R153). -/
  | backboneFrameReceived (x : End) (frame : List Byte) (wireOk : Bool)
  /-- HOLD_FRAME_RECEIVED (R16). -/
  | holdFrameReceived (x : End) (frame : List Byte) (wireOk : Bool)
  /-- HELD_UNTIL_REACHED (R16). -/
  | heldUntilReached (x : End)
  /-- HOLD_LIMIT_EXPIRY (R17). -/
  | holdLimitExpiry (x : End)
  /-- HOLD_REPEAT_TIMER_EXPIRY (R14). -/
  | holdRepeatTimerExpiry (x : End)
  /-- IDLE_TIMER_EXPIRY (R46) of the record in a slot. -/
  | idleTimerExpiry (slot : Fin 256)
  /-- EPOCH_COUNTER_EXPIRY (R109). -/
  | epochCounterExpiry
  /-- TRANSMISSION_START (R9) on a port, with the cells that have gone bad by this reading. -/
  | transmissionStart (p : Port) (faults : List CellFault)
  /-- TRANSMISSION_COMPLETE (R10) on a port. -/
  | transmissionComplete (p : Port)
  /-- BUILD_WAITING_REPLY (R172). -/
  | buildWaitingReply
  /-- STORE_WRITE_ENDS (R186): whether the store accepted the write. -/
  | storeWriteEnds (accepted : Bool)
  /-- READ_STATION (R60) taken from the input queue; and so for every request below. -/
  | readStation (faults : List CellFault)
  /-- LIST_STATIONS (R61). -/
  | listStations (faults : List CellFault)
  /-- ADMIT (R49). -/
  | admitStation (faults : List CellFault)
  /-- BAR (R50). -/
  | bar (faults : List CellFault)
  /-- UNBAR (R51). -/
  | unbar (faults : List CellFault)
  /-- RELEASE (R57). -/
  | release (faults : List CellFault)
  /-- SET_ALLOWANCE (R104). -/
  | setAllowance (faults : List CellFault)
  /-- RENEW of one address (R106): the request code 0x08 with any selector but 1. -/
  | renew (faults : List CellFault)
  /-- RENEW of all (R107): the request code 0x08 with selector 1. -/
  | renewAll (faults : List CellFault)
  /-- SET_SHAPING (R117). -/
  | setShaping (faults : List CellFault)
  /-- SET_EPOCH (R114). -/
  | setEpoch (faults : List CellFault)
  /-- SCHEDULER START (R111): the request code 0x0B with any action but 2 and 3. -/
  | schedulerStart (faults : List CellFault)
  /-- SCHEDULER STOP (R112): the request code 0x0B with action 2. -/
  | schedulerStop (faults : List CellFault)
  /-- SCHEDULER RESTART (R111): the request code 0x0B with action 3. -/
  | schedulerRestart (faults : List CellFault)
  /-- READ_SCHEDULER (R129). -/
  | readScheduler (faults : List CellFault)
  /-- WRITE_WINDOW (R80). -/
  | writeWindow (faults : List CellFault)
  /-- READ_WINDOW (R82). -/
  | readWindow (faults : List CellFault)
  /-- SET_PORT (R12). -/
  | setPort (faults : List CellFault)
  /-- READ_PORT (R13). -/
  | readPort (faults : List CellFault)
  /-- SET_HOLD (R19). -/
  | setHold (faults : List CellFault)
  /-- SET_MEMORY_LIMITS (R35). -/
  | setMemoryLimits (faults : List CellFault)
  /-- SET_CONSIST (R151). -/
  | setConsist (faults : List CellFault)
  /-- READ_STATUS (R180). -/
  | readStatus (faults : List CellFault)
  /-- CLEAR_STATUS (R181). -/
  | clearStatus (faults : List CellFault)
  /-- SNAPSHOT (R182). -/
  | snapshot (faults : List CellFault)
  /-- READ_SNAPSHOT (R183). -/
  | readSnapshot (faults : List CellFault)
  /-- SAVE_SETTINGS (R185). -/
  | saveSettings (faults : List CellFault)
  /-- RESET (R188). -/
  | reset (faults : List CellFault)
  /-- UNKNOWN_REQUEST_CODE (R170): the taking of a request whose code is none of the part's. -/
  | unknownRequestCode (faults : List CellFault)
  deriving DecidableEq, Repr

end Sys2Proof
end

