-- ==== Sys2Proof/Decode.lean ====
section
/-! DEFINITION. Commands spelt by words. No row of spec/opcode_table.json gives bits ("fields": [] in all 51 rows, and
no "fixed"), so no word spells a command. The byte layouts of management requests are read by
Sys2Proof/Machine/Operands.lean, from the frames that carry them. -/

namespace Sys2Proof

/-- The command that the word `w` of `nbits` bits spells: none, since no row of the table gives bits. -/
def decodeTableWord (_nbits _w : Nat) : Option Instr := none

end Sys2Proof
end

