-- ==== Sys2Proof/Config.lean ====
section
/-! DEFINITION. What the manual leaves open and the model leaves free: constants with no body, so that nothing can be
proved of their values. -/

namespace Sys2Proof.Config

/-- The 4-byte wire check over the bytes before it. The manual says where it stands (11.1) and that it is computed
afresh at transmission (R189); it does not give the function. DESIGN CHOICE (log entry 9): a free function. -/
opaque wireCheck : List Byte → BitVec 32

/-- Whether the store accepts the write whose 40 ms end at the given time (R186): the manual gives both ends of a
write and no rule that chooses. DESIGN CHOICE (log entry 7): a free value, read only when the clock itself ends a
write that no STORE_WRITE_ENDS command has ended. -/
opaque storeAccepts : Nat → Bool

end Sys2Proof.Config
end

