-- ==== Sys2Proof/Machine/State.lean ====
section
/-! DEFINITION. The state of the part, block by block, as plain data; its faults and refusals; and the state after
power-on. Times are counted in units of 10 µs, the unit of the hold exchange (log entry 1). A reference to a stored
frame is the number of the frame's first cell, where its record stands (R24). -/

namespace Sys2Proof.Machine

/-! ## Ports (chapter 1) -/

/-- R1. -/
inductive Link where
  | down
  | up
  deriving DecidableEq, Repr

/-- A frame in reception on a port: none, one that has taken these cells in order, or one already discarded
(NO_CELLS) whose remaining bytes are dropped (R22). -/
inductive Reception where
  | idle
  | taking (chain : List Nat)
  | dropping
  deriving DecidableEq, Repr

/-- R11. -/
inductive Designation where
  | passenger
  | crew
  | crewMaint
  | operations
  | disabled
  deriving DecidableEq, Repr

/-- R72. -/
inductive OrderKind where
  | drop
  | refuse
  deriving DecidableEq, Repr

/-- An order to a radio (R72): its kind and the association index 0..63 it speaks of. -/
structure Order where
  kind : OrderKind
  index : Nat
  deriving DecidableEq, Repr

/-- The transmission in progress on a port (R9): a stored frame, on a radio link behind a DATA header with the
entry's index (R74); a reply out of its slot; a notice to the report address in force at its start (R176); a hold
frame of a duration (R192); an order (R73). -/
inductive Transmission where
  | frame (id : Nat)
  | radioFrame (id : Nat) (index : Nat)
  | reply (id : Nat) (slot : Fin 4)
  | notice (id : Nat) (dest : LinkAddr)
  | hold (duration : Nat)
  | order (o : Order)
  deriving DecidableEq, Repr

/-- The counters every port keeps (R8). -/
structure PortCounters where
  rxFrames : Count32 := 0
  rxBytes : Count48 := 0
  rxDiscards : Count32 := 0
  txFrames : Count32 := 0
  txBytes : Count48 := 0
  txDrops : Count32 := 0
  deriving DecidableEq, Repr

/-- What every port holds: link state, reception, transmission in progress, counters. -/
structure PortUnit where
  link : Link := .down
  rx : Reception := .idle
  tx : Option Transmission := none
  ctr : PortCounters := {}
  deriving DecidableEq, Repr

/-- A seat port (R11, R159). -/
structure SeatPort where
  unit : PortUnit := {}
  designation : Designation := .passenger
  egress : List Nat := []
  deriving DecidableEq, Repr

/-- An entry of a radio's egress queue (R74): a frame reference with an association index, 0..63 or 255. -/
structure RadioEntry where
  id : Nat
  index : Nat
  deriving DecidableEq, Repr

/-- A radio link (chapter 4). -/
structure RadioLink where
  unit : PortUnit := {}
  egress : List RadioEntry := []
  orders : List Order := []
  noticesTaken : Count32 := 0
  noticesIgnored : Count32 := 0
  ordersSent : Count32 := 0
  deriving DecidableEq, Repr

/-- A backbone end: the transit queue toward it (R163), its received hold state (R16), its outgoing hold state
(R14, R15), its arbiter's transit streak and last kind (R146), and its own counters (R8). -/
structure BackboneEnd where
  unit : PortUnit := {}
  transit : List Nat := []
  heldUntil : Option Nat := none
  holdStart : Option Nat := none
  overrun : Bool := false
  outstanding : Bool := false
  repeatAt : Option Nat := none
  pendingHold : Option Nat := none
  streak : Nat := 0
  lastTransit : Bool := false
  holdsSent : Count32 := 0
  releasesSent : Count32 := 0
  holdsReceived : Count32 := 0
  releasesReceived : Count32 := 0
  overruns : Count32 := 0
  deriving DecidableEq, Repr

/-- The 38 ports. -/
structure Ports where
  seats : Vector SeatPort 32
  radios : Vector RadioLink 4
  ba : BackboneEnd
  bb : BackboneEnd
  deriving DecidableEq, Repr

/-! ## Cell Memory (chapter 2) -/

/-- The data bytes of the cells: byte `i` of cell `c` stands at address `256 * c + i`. In canonical form: addresses
strictly rising, no entry that reads as an unlisted address does (0; log entry 4). -/
abbrev Memory := List Host.Cell

/-- The kind of a stored frame (R24). -/
inductive FrameKind where
  | network
  | link
  | management
  | reply
  | notice
  deriving DecidableEq, Repr

/-- A frame record (R24). -/
structure FrameRec where
  length : Nat
  arrival : Option Port
  kind : FrameKind
  metered : Bool
  chain : List Nat
  refs : Nat
  station : Option (Fin 256)
  failed : List Nat
  deriving DecidableEq, Repr

/-- The reference by which queues name a frame: its first cell. -/
def FrameRec.id (f : FrameRec) : Nat := f.chain.headD 0

/-- R33. -/
inductive Pressure where
  | normal
  | pressure
  deriving DecidableEq, Repr

/-- A first-error capture (R32): the cell, the frame's kind and the reading port, `none` standing for MANAGEMENT. -/
structure Capture where
  cell : Nat
  kind : FrameKind
  port : Option Port
  deriving DecidableEq, Repr

/-- Cell Memory. `faults` says which cells have stored contents with a fault, and which (R27): what their check codes
will show at the next reading. -/
structure CellMemory where
  data : Memory
  free : List Nat
  frames : List FrameRec
  retired : List Nat
  faults : List CellFault
  pressure : Pressure
  high : Nat
  low : Nat
  singleCapture : Option Capture
  multiCapture : Option Capture
  deriving DecidableEq, Repr

/-! ## The station table (chapter 3) -/

/-- R38. -/
inductive StationClass where
  | passenger
  | crew
  | operations
  deriving DecidableEq, Repr

/-- The states a record may stand in before a bar (R38). -/
inductive Admission where
  | held
  | admitted
  | spent
  deriving DecidableEq, Repr

/-- The causes of a removal (R52) but for the warm reset, which reports none. -/
inductive Reason where
  | aged
  | link
  | disassociated
  | radioRestart
  | evicted
  | portChanged
  | released
  deriving DecidableEq, Repr

/-- The admission state (R38). The state before bar is present only in BARRED, and the removal reason only in LEAVING
(R53), so each stands in its state. -/
inductive StationState where
  | held
  | admitted
  | spent
  | barred (before : Admission)
  | leaving (why : Reason)
  deriving DecidableEq, Repr

/-- Where a station is attached (R38). -/
inductive Origin where
  | seat (n : Fin 32)
  | radio (w : Fin 4) (index : Nat)
  deriving DecidableEq, Repr

/-- Service mode (R116). -/
inductive Mode where
  | single
  | run
  deriving DecidableEq, Repr

/-- Shaping (R116). -/
structure Shaping where
  weight : Nat := 1
  cap : Option Nat := none
  mode : Mode := .single
  deriving DecidableEq, Repr

/-- A present allowance (R93). -/
structure Allowance where
  base : Nat
  current : Nat
  renew : Bool
  renewals : Nat
  overrun : Count32
  deriving DecidableEq, Repr

/-- The seven counters of a record (R39). -/
structure StationCounters where
  upFrames : Count32 := 0
  upBytes : Count48 := 0
  upMetered : Count48 := 0
  downFrames : Count32 := 0
  downBytes : Count48 := 0
  downMetered : Count48 := 0
  drops : Count32 := 0
  deriving DecidableEq, Repr

/-- A station record (R38); its slot is where it stands in the table. `idleStart` is when its idle timer last
restarted (R46). -/
structure Station where
  addr : LinkAddr
  cls : StationClass
  tier : Nat
  state : StationState
  origin : Origin
  allowance : Option Allowance
  shaping : Shaping
  pendingShaping : Option Shaping
  share : Nat
  credit : Int
  lastGrant : Option Count32
  idle : Nat
  lastFrame : Nat
  idleStart : Nat
  ctr : StationCounters
  upq : List Nat
  deriving DecidableEq, Repr

/-- The station table (R37) and the held order (R41). -/
structure StationTable where
  slots : Vector (Option Station) 256
  held : List (Fin 256)
  deriving DecidableEq, Repr

/-! ## The window table (chapter 5) -/

/-- R77. -/
inductive Permission where
  | none
  | up
  | down
  | both
  deriving DecidableEq, Repr

/-- The eight settings of a window (R77). -/
structure WindowSettings where
  enabled : Bool
  base : NetAddr
  k : Nat
  metered : Bool
  opened : Bool
  passenger : Permission
  crew : Permission
  operations : Permission
  deriving DecidableEq, Repr

/-- A window record (R77). -/
structure Window where
  set : WindowSettings
  up : Count32 := 0
  down : Count32 := 0
  refused : Count32 := 0
  deriving DecidableEq, Repr

/-! ## The Epoch Scheduler (chapter 7) -/

/-- The epoch parameters (R113). -/
structure Params where
  budget : Nat
  te : Nat
  t0 : Nat
  t1 : Nat
  t2 : Nat
  t3 : Nat
  n : Nat
  m : Nat
  deriving DecidableEq, Repr

/-- The Epoch Scheduler. `phase` counts the 10 µs units of the millisecond in progress (log entry 1). -/
structure Scheduler where
  running : Bool
  counter : Nat
  phase : Nat
  number : Count32
  params : Params
  pendingParams : Option Params
  surplus : Int
  active : Nat
  weight : Nat
  shares : Nat
  deriving DecidableEq, Repr

/-! ## Upward Service (chapter 8) -/

/-- A run of credit grants (R142). -/
structure Run where
  holder : Fin 256
  granted : Nat
  deriving DecidableEq, Repr

/-- The onboard queue and the local arbiter's state. -/
structure UpwardService where
  onboard : List Nat := []
  opsPtr : Fin 256 := 255
  crewPtr : Fin 256 := 255
  creditPtr : Fin 256 := 255
  surplusPtr : Fin 256 := 255
  run : Option Run := none
  guarantee : Nat := 0
  deriving DecidableEq, Repr

/-- The consist record (R150). -/
structure Consist where
  carriage : Nat := 0
  lead : Option End := none
  deriving DecidableEq, Repr

/-- R19. -/
inductive HoldAction where
  | wait
  | shed
  deriving DecidableEq, Repr

/-- The hold limit in ms and the hold action, shared by both ends (R19). -/
structure HoldSettings where
  limit : Nat := 50
  action : HoldAction := .wait
  deriving DecidableEq, Repr

/-! ## The Management Unit (chapter 10) -/

/-- The eleven sticky flags (R178), in flag-code order (R193). -/
inductive Flag where
  | memorySingle
  | memoryMulti
  | memoryDegraded
  | holdOverrunBA
  | holdOverrunBB
  | noticesLost
  | storeDefaulted
  | tableFull
  | pressureSeen
  | originConflict
  | mgmtOverflow
  deriving DecidableEq, Repr

/-- A sticky flag with its count 0..65535 (R178). -/
structure StickyFlag where
  isSet : Bool := false
  count : Nat := 0
  deriving DecidableEq, Repr

/-- The eighteen discard reasons (R179), in discard-code order (R193). -/
inductive Discard where
  | wire
  | noCells
  | unassociated
  | origin
  | portCrowded
  | tableFull
  | barred
  | window
  | notAdmitted
  | pressure
  | shed
  | queueFull
  | endDown
  | memory
  | purge
  | aborted
  | mgmtRefused
  | mgmtOverflow
  deriving DecidableEq, Repr

/-- Access level (R168). -/
inductive Level where
  | server
  | crew
  deriving DecidableEq, Repr

/-- An entry of the input queue (R168). -/
structure InputEntry where
  id : Nat
  level : Level
  port : Port
  deriving DecidableEq, Repr

/-- The twelve reply statuses (R170). -/
inductive Status where
  | ok
  | badRequest
  | notPermitted
  | noStation
  | wrongState
  | stationBusy
  | badValue
  | busy
  | stale
  | noSnapshot
  | storeFailed
  | aborted
  deriving DecidableEq, Repr

/-- What a reply will hold: contents already fixed, or those of a read request, whose values are taken at the build
(R172). -/
inductive ReplyContent where
  | fixed (status : Status) (body : List Byte)
  | station (a : LinkAddr)
  | page (p : Nat)
  | scheduler
  | window (i : Fin 9)
  | port (p : Port)
  | status
  | snapshotPage (p : Nat)
  deriving DecidableEq, Repr

/-- What a reply slot records of its request at the take (R169). -/
structure ReqHeader where
  port : Port
  src : LinkAddr
  code : Byte
  tag : BitVec 16
  deriving DecidableEq, Repr

/-- The stored settings (R184). -/
structure StoredSettings where
  designations : Vector Designation 32
  windows : Vector WindowSettings 9
  params : Params
  high : Nat
  low : Nat
  hold : HoldSettings
  defaultIdle : Nat
  reportAddr : Option LinkAddr
  deriving DecidableEq, Repr

/-- A parked long operation and the event it waits for (R174): the freeing of a record, the next boundary, the end of
the write of an image that started at a time. -/
inductive PendingOp where
  | release (slot : Fin 256)
  | snapshot
  | save (image : StoredSettings) (start : Nat)
  deriving DecidableEq, Repr

/-- A reply slot (R171). A RESERVED slot whose contents are fixed and which waits for cells holds them; `blocking`
says that the unit takes no request meanwhile (R172). -/
inductive ReplySlot where
  | free
  | reserved (h : ReqHeader) (waiting : Option ReplyContent) (blocking : Bool)
  | parked (h : ReqHeader) (op : PendingOp)
  | built (h : ReqHeader) (id : Nat)
  | sending (h : ReqHeader) (id : Nat)
  deriving DecidableEq, Repr

/-- One slot's figures in a snapshot (R182): address, state, current allowance or absent, up metered bytes, down
metered bytes, drops. -/
structure SnapshotEntry where
  addr : LinkAddr
  state : StationState
  current : Option Nat
  upMetered : Count48
  downMetered : Count48
  drops : Count32
  deriving DecidableEq, Repr

/-- The snapshot area when one is held (R182). -/
structure Snapshot where
  number : Count32
  entries : Vector (Option SnapshotEntry) 256
  deriving DecidableEq, Repr

/-- The store (R184): one copy of the settings, and whether its check value passes. -/
structure Store where
  settings : StoredSettings
  checkOk : Bool
  deriving DecidableEq, Repr

/-- The Management Unit. `waiting` lists the RESERVED slots whose replies wait for cells, oldest contents first
(R172); `builtOrder` the BUILT slots, the one built first at its head (R145). -/
structure Mgmt where
  input : List InputEntry
  slots : Vector ReplySlot 4
  waiting : List (Fin 4)
  builtOrder : List (Fin 4)
  notices : List Nat
  lost : Nat
  flags : Vector StickyFlag 11
  tally : Vector Count32 18
  snapshot : Option Snapshot
  store : Store
  reportAddr : Option LinkAddr
  defaultIdle : Nat
  deriving DecidableEq, Repr

/-- Cell Memory and the Management Unit together: notices and replies are built by the one into the other, and the
freeing of a frame can raise a notice. -/
structure Hub where
  cells : CellMemory
  mgmt : Mgmt
  deriving DecidableEq, Repr

/-! ## The whole part -/

/-- The state of the part, with the queue of the commands that are waiting, first in first out. `now` is the time in
units of 10 µs. -/
structure State where
  pending : List Instr
  now : Nat
  identity : LinkAddr
  hub : Hub
  ports : Ports
  table : StationTable
  windows : Vector Window 9
  sched : Scheduler
  up : UpwardService
  consist : Consist
  hold : HoldSettings
  deriving DecidableEq, Repr

/-- The part has no faults that stop it: every event and request leaves it running (a discard, a refusal reply and an
error flag are effects on `State`). No meaning raises this type's one constructor; it stands so that the type is
inhabited, and is safe. -/
inductive Fault where
  /-- Raised by nothing. Safe. -/
  | never
  deriving DecidableEq, Repr

/-- Refusals of the model. -/
inductive Refusal where
  /-- Raised by an arm of `exec` whose command has no meaning yet; safe. No arm is left so. -/
  | notModelled (mnemonic : String)
  deriving DecidableEq, Repr

/-! ## Power-on values -/

/-- The default epoch parameters (R113). -/
def Params.defaults : Params :=
  { budget := 125000, te := 100, t0 := 1, t1 := 2, t2 := 3, t3 := 4, n := 2, m := 4 }

/-- A programmable window when the store fails its check (R78). -/
def WindowSettings.closed : WindowSettings :=
  { enabled := false, base := 0, k := 32, metered := true, opened := false,
    passenger := .none, crew := .none, operations := .none }

/-- The default window when the store fails its check (R78). -/
def WindowSettings.everything : WindowSettings :=
  { enabled := true, base := 0, k := 32, metered := true, opened := false,
    passenger := .both, crew := .both, operations := .both }

/-- The settings put in force when the store fails its check (R184). -/
def StoredSettings.defaults : StoredSettings :=
  { designations := Vector.replicate 32 .passenger
    windows := (Vector.replicate 9 WindowSettings.closed).set 8 WindowSettings.everything
    params := Params.defaults
    high := 2560
    low := 2048
    hold := {}
    defaultIdle := 900
    reportAddr := none }

/-- Cell Memory at power-on (R21, R33), with the default marks: every cell free, cell 0 on top. -/
def CellMemory.reset : CellMemory :=
  { data := [], free := List.range 3072, frames := [], retired := [], faults := [], pressure := .normal,
    high := 2560, low := 2048, singleCapture := none, multiCapture := none }

/-- The Management Unit at power-on with a store that fails its check (R184, R187): STORE_DEFAULTED is set with
count 1. -/
def Mgmt.reset : Mgmt :=
  { input := [], slots := Vector.replicate 4 .free, waiting := [], builtOrder := [], notices := [], lost := 0,
    flags := (Vector.replicate 11 {}).set 6 { isSet := true, count := 1 }
    tally := Vector.replicate 18 0, snapshot := none,
    store := { settings := StoredSettings.defaults, checkOk := false },
    reportAddr := none, defaultIdle := 900 }

/-- The Epoch Scheduler at power-on with the default parameters (R109). -/
def Scheduler.reset : Scheduler :=
  { running := false, counter := 0, phase := 0, number := 0, params := Params.defaults, pendingParams := none,
    surplus := 0, active := 0, weight := 0, shares := 0 }

/-- The machine after power-on (R187). DESIGN CHOICE (log entry 3): the store of a new part has never been written, so
it fails its check and the defaults are in force; the identity, a factory value the manual does not give, is zero;
the time counts from zero. -/
def State.reset : State :=
  { pending := []
    now := 0
    identity := 0
    hub := { cells := CellMemory.reset, mgmt := Mgmt.reset }
    ports := { seats := Vector.replicate 32 {}, radios := Vector.replicate 4 {}, ba := {}, bb := {} }
    table := { slots := Vector.replicate 256 none, held := [] }
    windows := StoredSettings.defaults.windows.map (fun w => { set := w })
    sched := Scheduler.reset
    up := {}
    consist := {}
    hold := {} }

end Sys2Proof.Machine
end

