-- ==== Sys2Proof/Machine/Bytes.lean ====
section
/-! DEFINITION. Bytes and byte order (11: numbers wider than one byte most significant byte first), and the fields the
part reads in a frame (R189). -/

namespace Sys2Proof.Machine

/-- The number that bytes spell, most significant first. -/
def beNat (bs : List Byte) : Nat := bs.foldl (fun n b => n * 256 + b.toNat) 0

/-- `n` bytes of a number, most significant first. -/
def beBytes : Nat → Nat → List Byte
  | 0, _ => []
  | n + 1, v => beBytes n (v / 256) ++ [BitVec.ofNat 8 v]

/-- Four bytes of a signed number in two's complement. -/
def beInt32 (i : Int) : List Byte := beBytes 4 (BitVec.ofInt 32 i).toNat

/-- A yes/no or presence code (R190): 1 yes, 0 no. -/
def boolByte (b : Bool) : Byte := if b then 1 else 0

/-- The byte at an offset of a frame or body. -/
def byteAt (f : List Byte) (i : Nat) : Byte := f.getD i 0

/-- The number in `n` bytes from an offset. -/
def fieldAt (f : List Byte) (off n : Nat) : Nat := beNat ((f.drop off).take n)

/-- The link address in six bytes from an offset. -/
def addrAt (f : List Byte) (off : Nat) : LinkAddr := BitVec.ofNat 48 (fieldAt f off 6)

/-- The six bytes of a link address. -/
def addrBytes (a : LinkAddr) : List Byte := beBytes 6 a.toNat

/-- The group bit of a link address: the least significant bit of its first byte (11.1). -/
def isGroup (a : LinkAddr) : Bool := a.getLsbD 40

/-- R189: link destination address. -/
def dstOf (f : List Byte) : LinkAddr := addrAt f 0

/-- R189: link source address. -/
def srcOf (f : List Byte) : LinkAddr := addrAt f 6

/-- R189: the type code. -/
def typeOf (f : List Byte) : Nat := fieldAt f 12 2

/-- R189: source network address. -/
def netSrcOf (f : List Byte) : NetAddr := BitVec.ofNat 32 (fieldAt f 26 4)

/-- R189: destination network address. -/
def netDstOf (f : List Byte) : NetAddr := BitVec.ofNat 32 (fieldAt f 30 4)

/-- The IPv4 type code (R189). -/
def typeIPv4 : Nat := 0x0800

/-- The Falbrec management type code (R189). -/
def typeMgmt : Nat := 0x89F2

/-- The Falbrec hold type code (R189). -/
def typeHold : Nat := 0x89F3

/-- An address with its low `k` bits cleared (R79, R80). -/
def clearLow (a : NetAddr) (k : Nat) : NetAddr := (a >>> k) <<< k

/-- The receive check of a frame or station frame (R5): its wire check passes and L is 64..1536. -/
def frameOk (f : List Byte) (wireOk : Bool) : Bool := wireOk && decide (64 ≤ f.length) && decide (f.length ≤ 1536)

/-- The cells a frame of L bytes occupies (R20). -/
def cellsFor (L : Nat) : Nat := (L + 255) / 256

end Sys2Proof.Machine
end

