-- ==== Sys2Proof/Machine/Flags.lean ====
section
/-! DEFINITION. The sticky flags (R178), the discard tally (R179) and the codes that fix their places (R193). -/

namespace Sys2Proof.Machine

/-- A flag's place in the status record: its flag code less one (R193). -/
def Flag.index : Flag → Fin 11
  | .memorySingle => 0
  | .memoryMulti => 1
  | .memoryDegraded => 2
  | .holdOverrunBA => 3
  | .holdOverrunBB => 4
  | .noticesLost => 5
  | .storeDefaulted => 6
  | .tableFull => 7
  | .pressureSeen => 8
  | .originConflict => 9
  | .mgmtOverflow => 10

/-- The flag of a flag code 1..11 (R190). -/
def flagOfCode : Nat → Option Flag
  | 1 => some .memorySingle
  | 2 => some .memoryMulti
  | 3 => some .memoryDegraded
  | 4 => some .holdOverrunBA
  | 5 => some .holdOverrunBB
  | 6 => some .noticesLost
  | 7 => some .storeDefaulted
  | 8 => some .tableFull
  | 9 => some .pressureSeen
  | 10 => some .originConflict
  | 11 => some .mgmtOverflow
  | _ => none

/-- The overrun flag of a backbone end (R17). -/
def overrunFlag : End → Flag
  | .ba => .holdOverrunBA
  | .bb => .holdOverrunBB

/-- A discard reason's place in the tally: its discard code less one (R193). -/
def Discard.index : Discard → Fin 18
  | .wire => 0
  | .noCells => 1
  | .unassociated => 2
  | .origin => 3
  | .portCrowded => 4
  | .tableFull => 5
  | .barred => 6
  | .window => 7
  | .notAdmitted => 8
  | .pressure => 9
  | .shed => 10
  | .queueFull => 11
  | .endDown => 12
  | .memory => 13
  | .purge => 14
  | .aborted => 15
  | .mgmtRefused => 16
  | .mgmtOverflow => 17

/-- A count of 0..65535 that saturates (R178). -/
def sat16 (n : Nat) : Nat := min n 65535

/-- One occurrence of a flag: it is set and its count incremented, saturating at 65535 (R178). -/
def StickyFlag.occur (f : StickyFlag) : StickyFlag := { isSet := true, count := sat16 (f.count + 1) }

/-- The flag `f` as it stands. -/
def Hub.flagOf (h : Hub) (f : Flag) : StickyFlag := h.mgmt.flags[f.index]

/-- One occurrence of the flag `f` (R178). -/
def Hub.flag (f : Flag) (h : Hub) : Hub :=
  { h with mgmt := { h.mgmt with flags := h.mgmt.flags.set f.index (h.mgmt.flags[f.index]).occur } }

/-- `n` occurrences of the flag `f`. -/
def Hub.flagN (f : Flag) : Nat → Hub → Hub
  | 0, h => h
  | n + 1, h => Hub.flagN f n (h.flag f)

/-- The tally counter of a reason. -/
def Hub.tallyOf (h : Hub) (r : Discard) : Count32 := h.mgmt.tally[r.index]

/-- One discard under the reason `r`: its counter counts one, wrapping (R179, R193). -/
def Hub.tally (r : Discard) (h : Hub) : Hub :=
  { h with mgmt := { h.mgmt with tally := h.mgmt.tally.set r.index (h.mgmt.tally[r.index] + 1) } }

end Sys2Proof.Machine
end

