-- ==== Sys2Proof/Machine/Layout.lean ====
section
/-! DEFINITION. The codes used in bodies and the byte layouts of notices and of the blocks that replies share (R190
and the tables of 11.2). -/

namespace Sys2Proof.Machine

/-- The port code of a port (R190): 0..31 seats, 32..35 radios, 36 BA, 37 BB. -/
def portCode : Port → Nat
  | .seat n => n.val
  | .radio w => 32 + w.val
  | .backbone .ba => 36
  | .backbone .bb => 37

/-- The port of a port code 0..37. -/
def portOfCode (c : Nat) : Option Port :=
  if h : c < 32 then some (.seat ⟨c, h⟩)
  else if h2 : c - 32 < 4 then some (.radio ⟨c - 32, h2⟩)
  else if c = 36 then some (.backbone .ba)
  else if c = 37 then some (.backbone .bb)
  else none

/-- The port code of a reading in a capture (R32, R190): 38 for MANAGEMENT. -/
def readingCode : Option Port → Nat
  | some p => portCode p
  | none => 38

def StationClass.code : StationClass → Byte
  | .passenger => 1
  | .crew => 2
  | .operations => 3

def Admission.code : Admission → Byte
  | .held => 1
  | .admitted => 2
  | .spent => 3

def StationState.code : StationState → Byte
  | .held => 1
  | .admitted => 2
  | .spent => 3
  | .barred _ => 4
  | .leaving _ => 5

/-- The code of the state before bar: 0 when it is absent (R190). -/
def StationState.beforeCode : StationState → Byte
  | .barred b => b.code
  | _ => 0

def Mode.code : Mode → Byte
  | .single => 1
  | .run => 2

def Designation.code : Designation → Byte
  | .passenger => 1
  | .crew => 2
  | .crewMaint => 3
  | .operations => 4
  | .disabled => 5

def Permission.code : Permission → Byte
  | .none => 0
  | .up => 1
  | .down => 2
  | .both => 3

def leadCode : Option End → Byte
  | none => 0
  | some .ba => 1
  | some .bb => 2

def HoldAction.code : HoldAction → Byte
  | .wait => 1
  | .shed => 2

def Reason.code : Reason → Byte
  | .aged => 1
  | .link => 2
  | .disassociated => 3
  | .radioRestart => 4
  | .evicted => 5
  | .portChanged => 6
  | .released => 7

def FrameKind.code : FrameKind → Byte
  | .network => 1
  | .link => 2
  | .management => 3
  | .reply => 4
  | .notice => 5

def OrderKind.code : OrderKind → Byte
  | .drop => 1
  | .refuse => 2

def Link.code : Link → Byte
  | .down => 0
  | .up => 1

def Pressure.code : Pressure → Byte
  | .normal => 0
  | .pressure => 1

/-- The reply status byte (11.6). -/
def Status.code : Status → Byte
  | .ok => 0
  | .badRequest => 1
  | .notPermitted => 2
  | .noStation => 3
  | .wrongState => 4
  | .stationBusy => 5
  | .badValue => 6
  | .busy => 7
  | .stale => 8
  | .noSnapshot => 9
  | .storeFailed => 10
  | .aborted => 11

/-- What brought about an exhaustion (R108). -/
inductive Cause where
  | up
  | down
  | setAllowance
  deriving DecidableEq, Repr

def Cause.code : Cause → Byte
  | .up => 1
  | .down => 2
  | .setAllowance => 3

/-- The two bytes of an origin (R190): port code, then the index on a radio or 255. -/
def Origin.bytes : Origin → List Byte
  | .seat n => [BitVec.ofNat 8 n.val, 255]
  | .radio w i => [BitVec.ofNat 8 (32 + w.val), BitVec.ofNat 8 i]

/-- The counter block: 36 bytes. -/
def StationCounters.block (c : StationCounters) : List Byte :=
  beBytes 4 c.upFrames.toNat ++ beBytes 6 c.upBytes.toNat ++ beBytes 6 c.upMetered.toNat ++
  beBytes 4 c.downFrames.toNat ++ beBytes 6 c.downBytes.toNat ++ beBytes 6 c.downMetered.toNat ++
  beBytes 4 c.drops.toNat

/-- The allowance block: 16 bytes, all 0 when absent. -/
def allowanceBlock : Option Allowance → List Byte
  | none => List.replicate 16 0
  | some a =>
    [1, boolByte a.renew, BitVec.ofNat 8 a.renewals, 0] ++ beBytes 4 a.base ++ beBytes 4 a.current ++
      beBytes 4 a.overrun.toNat

/-- A slot number as a byte. -/
def slotByte (k : Fin 256) : Byte := BitVec.ofNat 8 k.val

/-- The notices (R175), each with what it carries. -/
inductive Notice where
  | stationNew (slot : Fin 256) (cls : StationClass) (state : StationState) (origin : Origin) (a : LinkAddr)
  | stationGone (slot : Fin 256) (cls : StationClass) (origin : Origin) (a : LinkAddr) (why : Reason)
      (ctr : StationCounters) (al : Option Allowance)
  | allowanceSpent (slot : Fin 256) (cls : StationClass) (origin : Origin) (a : LinkAddr) (cause : Cause) (len : Nat)
      (al : Allowance) (after : StationState)
  | allowanceRenewed (slot : Fin 256) (cls : StationClass) (origin : Origin) (a : LinkAddr) (cause : Cause) (len : Nat)
      (al : Allowance)
  | originConflict (slot : Fin 256) (origin attempt : Origin) (a : LinkAddr)
  | tableFull (attempt : Origin) (a : LinkAddr)
  | memoryError (first count : Nat) (kind : FrameKind) (port : Port)
  | holdOverrun (x : End) (action : HoldAction) (limit : Nat)
  | link (p : Port) (l : Link)
  | pressure (entered : Bool) (held high low : Nat)
  | noticesLost (n : Nat)
  deriving DecidableEq, Repr

/-- The notice code (11.2). -/
def Notice.code : Notice → Byte
  | .stationNew .. => 0x41
  | .stationGone .. => 0x42
  | .allowanceSpent .. => 0x43
  | .allowanceRenewed .. => 0x44
  | .originConflict .. => 0x45
  | .tableFull .. => 0x46
  | .memoryError .. => 0x47
  | .holdOverrun .. => 0x48
  | .link .. => 0x49
  | .pressure .. => 0x4A
  | .noticesLost .. => 0x4B

/-- The body of ALLOWANCE_SPENT and ALLOWANCE_RENEWED: 24 bytes. -/
def allowanceNoticeBody (slot : Fin 256) (cls : StationClass) (origin : Origin) (a : LinkAddr) (cause : Cause)
    (len : Nat) (al : Allowance) (after : Byte) : List Byte :=
  [slotByte slot, cls.code] ++ origin.bytes ++ addrBytes a ++ [cause.code, after] ++ beBytes 2 len ++
    beBytes 4 al.base ++ [BitVec.ofNat 8 al.renewals, 0] ++ beBytes 4 al.overrun.toNat

/-- The body of a notice (11.2). -/
def Notice.body : Notice → List Byte
  | .stationNew k c st o a => [slotByte k, c.code, st.code, 0] ++ o.bytes ++ addrBytes a
  | .stationGone k c o a why ctr al =>
    [slotByte k, c.code] ++ o.bytes ++ addrBytes a ++ [why.code, 0] ++ ctr.block ++ allowanceBlock al
  | .allowanceSpent k c o a cause len al after => allowanceNoticeBody k c o a cause len al after.code
  | .allowanceRenewed k c o a cause len al => allowanceNoticeBody k c o a cause len al 0
  | .originConflict k o o' a => [slotByte k, 0] ++ o.bytes ++ o'.bytes ++ addrBytes a
  | .tableFull o a => o.bytes ++ addrBytes a
  | .memoryError first n kind p =>
    beBytes 2 first ++ [BitVec.ofNat 8 n, kind.code, BitVec.ofNat 8 (portCode p), 0]
  | .holdOverrun x act lim => [BitVec.ofNat 8 (portCode (.backbone x)), act.code] ++ beBytes 2 lim
  | .link p l => [BitVec.ofNat 8 (portCode p), l.code]
  | .pressure e held high low => [if e then 1 else 2, 0] ++ beBytes 2 held ++ beBytes 2 high ++ beBytes 2 low
  | .noticesLost n => beBytes 2 n

/-- A management frame the part builds, up to its wire check (11.2, R190): link header, the header of a reply or notice,
the body, and zero pad up to L = 64. -/
def mgmtFrame (dst src : LinkAddr) (code status : Byte) (tag : BitVec 16) (carriage : Nat) (body : List Byte) :
    List Byte :=
  addrBytes dst ++ addrBytes src ++ beBytes 2 typeMgmt ++ [code, status] ++ beBytes 2 tag.toNat ++
    [BitVec.ofNat 8 carriage, 0] ++ beBytes 2 body.length ++ body ++ List.replicate (38 - body.length) 0

end Sys2Proof.Machine
end

