-- ==== Sys2Proof/Machine/Ops.lean ====
section
/-! DEFINITION. The shared operations: the bytes of the cells, taking and returning cells, frame records and
references, notices, the port units, the station table's records, and the discarding of queue entries.

Each operation on the whole state is one record update, so that what it leaves alone is left alone by definition. -/

namespace Sys2Proof.Machine

/-! ## The bytes of the cells -/

/-- The byte at an address; an address that is not listed reads as 0 (log entry 4). -/
def Memory.read : Memory → Nat → Byte
  | [], _ => 0
  | (b, v) :: rest, a => if b = a then v else Memory.read rest a

/-- The entries that bytes make from an address on: a byte that reads as an unlisted address does makes none. -/
def cellEntries : Nat → List Byte → Memory
  | _, [] => []
  | a, b :: bs => if b = 0 then cellEntries (a + 1) bs else (a, b) :: cellEntries (a + 1) bs

/-- Write bytes from an address on. -/
def Memory.writeBlock (base : Nat) (bs : List Byte) (m : Memory) : Memory :=
  m.filter (fun e => decide (e.1 < base)) ++ cellEntries base bs ++
    m.filter (fun e => decide (base + bs.length ≤ e.1))

/-- The canonical form: addresses strictly rising, and no entry equal to what an unlisted address reads as. -/
def Memory.wf : Memory → Bool
  | [] => true
  | (a, v) :: rest => decide (v ≠ 0) && rest.all (fun e => decide (a < e.1)) && Memory.wf rest

/-- The address of a cell's first byte. -/
def cellBase (c : Nat) : Nat := 256 * c

/-- Fill the cells of a chain in order with the bytes of a frame (R20). -/
def Memory.writeChain : List Nat → List Byte → Memory → Memory
  | [], _, m => m
  | c :: cs, bs, m => Memory.writeChain cs (bs.drop 256) (m.writeBlock (cellBase c) (bs.take 256))

/-- Byte `i` of the frame whose cells are `chain` (R20: the frame starts at the first byte of its first cell). -/
def Memory.chainByte (m : Memory) (chain : List Nat) (i : Nat) : Byte :=
  m.read (cellBase (chain.getD (i / 256) 0) + i % 256)

/-- The first `n` bytes of the frame whose cells are `chain`. -/
def Memory.chainBytes (m : Memory) (chain : List Nat) (n : Nat) : List Byte :=
  (List.range n).map (m.chainByte chain)

/-! ## Taking and returning cells -/

/-- Cells held (R33). -/
def CellMemory.held (c : CellMemory) : Nat := 3072 - c.free.length - c.retired.length

/-- R33, at a taking: in NORMAL with cells held at the high mark or above, PRESSURE is entered; the second part is the
cells held at the entry. -/
def CellMemory.testEnter (c : CellMemory) : CellMemory × Option Nat :=
  if c.pressure = .normal ∧ c.high ≤ c.held then ({ c with pressure := .pressure }, some c.held) else (c, none)

/-- R33, at a return: in PRESSURE with cells held at the low mark or below, PRESSURE is left. -/
def CellMemory.testLeave (c : CellMemory) : CellMemory × Option Nat :=
  if c.pressure = .pressure ∧ c.held ≤ c.low then ({ c with pressure := .normal }, some c.held) else (c, none)

/-- Pop the top of the free-cell stack (R21). The cell is taken to be written, which ends any fault of its contents
(R28). -/
def CellMemory.pop (c : CellMemory) : Option (Nat × CellMemory) :=
  match c.free with
  | [] => none
  | x :: rest => some (x, { c with free := rest, faults := c.faults.filter (fun f => decide (f.cell ≠ x)) })

/-- Take `n` cells one after another (as many as there are), testing the pressure at each: the chain, the memory, and
the cells held where PRESSURE was entered. -/
def takeCells : Nat → CellMemory → List Nat × CellMemory × Option Nat
  | 0, c => ([], c, none)
  | n + 1, c =>
    match c.pop with
    | none => ([], c, none)
    | some (x, c1) =>
      let e := c1.testEnter
      let r := takeCells n e.1
      (x :: r.1, r.2.1, e.2.or r.2.2)

/-- Return one cell of a freed frame (R21, R31): a failed cell goes to the retired list while that holds fewer than 64;
any other, and a failed one beyond that, is pushed. The second part says whether the retired list was full. -/
def CellMemory.returnCell (failed : List Nat) (x : Nat) (c : CellMemory) : CellMemory × Bool :=
  if failed.contains x then
    if c.retired.length < 64 then ({ c with retired := c.retired ++ [x] }, false)
    else ({ c with free := x :: c.free }, true)
  else ({ c with free := x :: c.free }, false)

/-- Return the cells of a frame in chain order: the memory, the cells held where PRESSURE was left, and how many failed
cells met a full retired list. -/
def returnCells (failed : List Nat) : List Nat → CellMemory → CellMemory × Option Nat × Nat
  | [], c => (c, none, 0)
  | x :: xs, c =>
    let p := c.returnCell failed x
    let l := p.1.testLeave
    let r := returnCells failed xs l.1
    (r.1, l.2.or r.2.1, (if p.2 then 1 else 0) + r.2.2)

/-- The memory with the cells that have gone bad since the last step. A cell that already has a fault keeps the one it
has: it gives the same result each time it is read (R27). -/
def CellMemory.withFaults (fs : List CellFault) (c : CellMemory) : CellMemory :=
  { c with faults := fs.foldl (fun acc f => if acc.any (fun g => g.cell == f.cell) then acc else acc ++ [f]) c.faults }

/-- What a test of a cell's check code finds (R27): `none` for good. -/
def CellMemory.test (c : CellMemory) (x : Nat) : Option CellError :=
  (c.faults.find? (fun f => f.cell == x)).map (·.error)

/-! ## Frame records and references -/

/-- The record of the stored frame that a reference names. -/
def CellMemory.frame? (c : CellMemory) (id : Nat) : Option FrameRec := c.frames.find? (fun f => f.id == id)

/-- Change the record of one stored frame. -/
def CellMemory.modFrame (id : Nat) (g : FrameRec → FrameRec) (c : CellMemory) : CellMemory :=
  { c with frames := c.frames.map (fun f => if f.id = id then g f else f) }

/-- Byte `i` of a stored frame. -/
def CellMemory.frameByte (c : CellMemory) (f : FrameRec) (i : Nat) : Byte := c.data.chainByte f.chain i

/-- The bytes of a stored frame up to its length. -/
def CellMemory.frameBytes (c : CellMemory) (f : FrameRec) : List Byte := c.data.chainBytes f.chain f.length

/-- A multi-destination frame: one from the backbone with a group destination (R153, R160). -/
def CellMemory.isMulti (c : CellMemory) (f : FrameRec) : Bool :=
  match f.arrival with
  | some (.backbone _) => (c.frameByte f 0).getLsbD 0
  | _ => false

/-- Count one more reference on a frame (R25). -/
def Hub.addRef (id : Nat) (h : Hub) : Hub :=
  { h with cells := h.cells.modFrame id (fun f => { f with refs := f.refs + 1 }) }

/-! ## Notices and built frames (R26, R175 to R177) -/

/-- What the part writes as its own into every frame it builds: its link address and the carriage number in force. -/
structure Sender where
  identity : LinkAddr
  carriage : Nat
  deriving DecidableEq, Repr

/-- Build a frame whole into cells (R26), with one reference; `none` where the stack holds too few cells. `bytes` are
the frame's bytes up to its wire check, which is computed at transmission (R189). The parts: the reference, the hub,
and the cells held where PRESSURE was entered. -/
def Hub.build (kind : FrameKind) (bytes : List Byte) (h : Hub) : Option (Nat × Hub × Option Nat) :=
  let n := cellsFor (bytes.length + 4)
  if h.cells.free.length < n then none
  else
    let r := takeCells n h.cells
    let f : FrameRec :=
      { length := bytes.length + 4, arrival := none, kind := kind, metered := false, chain := r.1, refs := 1,
        station := none, failed := [] }
    let c := { r.2.1 with data := r.2.1.data.writeChain r.1 bytes, frames := r.2.1.frames ++ [f] }
    some (f.id, { h with cells := c }, r.2.2)

/-- Build a notice to the report address and place it at the end of the notice queue: only if the queue holds fewer
than 12 and there are cells enough (R175). -/
def Hub.tryNotice (sd : Sender) (dst : LinkAddr) (n : Notice) (h : Hub) : Option (Hub × Option Nat) :=
  if h.mgmt.notices.length < 12 then
    match h.build .notice (mgmtFrame dst sd.identity n.code 0 0 sd.carriage n.body) with
    | none => none
    | some (id, h1, e) => some ({ h1 with mgmt := { h1.mgmt with notices := h1.mgmt.notices ++ [id] } }, e)
  else none

/-- A notice is lost (R177). -/
def Hub.loseNotice (h : Hub) : Hub :=
  Hub.flag .noticesLost { h with mgmt := { h.mgmt with lost := sat16 (h.mgmt.lost + 1) } }

/-- Try to build NOTICES_LOST while the lost count is above 0 (R177). -/
def Hub.reportLost (sd : Sender) (h : Hub) : Hub × Option Nat :=
  match h.mgmt.reportAddr with
  | none => (h, none)
  | some dst =>
    if h.mgmt.lost = 0 then (h, none)
    else
      match h.tryNotice sd dst (.noticesLost h.mgmt.lost) with
      | none => (h, none)
      | some (h1, e) => ({ h1 with mgmt := { h1.mgmt with lost := 0 } }, e)

/-- Raise a notice (R175, R177): nothing with no report address; NOTICES_LOST first while there is a lost count; then
the notice, which is lost if it cannot be built. The second part says where PRESSURE was entered. -/
def Hub.raiseCore (sd : Sender) (n : Notice) (h : Hub) : Hub × Option Nat :=
  match h.mgmt.reportAddr with
  | none => (h, none)
  | some dst =>
    let r := h.reportLost sd
    if r.1.mgmt.lost ≠ 0 then (r.1.loseNotice, r.2)
    else
      match r.1.tryNotice sd dst n with
      | none => (r.1.loseNotice, r.2)
      | some (h2, e2) => (h2, r.2.or e2)

/-- What an entry into PRESSURE does besides the change of state (R33): the flag PRESSURE_SEEN and a PRESSURE notice
(entered). -/
def Hub.noteEntered (sd : Sender) (e : Option Nat) (h : Hub) : Hub :=
  match e with
  | none => h
  | some held => ((h.flag .pressureSeen).raiseCore sd (.pressure true held h.cells.high h.cells.low)).1

/-- Raise a notice, with the entry into PRESSURE that its own cells may bring. -/
def Hub.raise (sd : Sender) (n : Notice) (h : Hub) : Hub :=
  let r := h.raiseCore sd n
  r.1.noteEntered sd r.2

/-- What leaving PRESSURE does besides the change of state (R33): a PRESSURE notice (left). -/
def Hub.noteLeft (sd : Sender) (l : Option Nat) (h : Hub) : Hub :=
  match l with
  | none => h
  | some held => h.raise sd (.pressure false held h.cells.high h.cells.low)

/-- Return cells in chain order, with the flag of R31 and the notice of R33. -/
def Hub.giveBack (sd : Sender) (failed chain : List Nat) (h : Hub) : Hub :=
  let r := returnCells failed chain h.cells
  ((Hub.flagN .memoryDegraded r.2.2 { h with cells := r.1 })).noteLeft sd r.2.1

/-- Free a stored frame (R25): its record is discarded and its cells go back. -/
def Hub.freeFrame (sd : Sender) (id : Nat) (h : Hub) : Hub :=
  match h.cells.frame? id with
  | none => h
  | some f =>
    Hub.giveBack sd f.failed f.chain
      { h with cells := { h.cells with frames := h.cells.frames.filter (fun g => decide (g.id ≠ id)) } }

/-- Drop one reference of a frame; at 0 the frame is freed (R25). -/
def Hub.dropRef (sd : Sender) (id : Nat) (h : Hub) : Hub :=
  match h.cells.frame? id with
  | none => h
  | some f =>
    if f.refs ≤ 1 then h.freeFrame sd id
    else { h with cells := h.cells.modFrame id (fun g => { g with refs := g.refs - 1 }) }

/-- The reading of a frame's cells (R27 to R29): MEMORY_SINGLE and MEMORY_MULTI for each failing cell, the captures
where empty, and the cells with a multi-bit error added to the frame's failed cells. The first part lists these
cells in chain order. MODEL'S CHOICE, log entry 39: of several cells with a single-bit error in one reading, the first in
chain order fills the empty capture; R29 states that order for the multi-bit one alone. -/
def Hub.readFrame (f : FrameRec) (port : Option Port) (h : Hub) : List Nat × Hub :=
  let singles := f.chain.filter (fun x => decide (h.cells.test x = some .single))
  let multis := f.chain.filter (fun x => decide (h.cells.test x = some .multi))
  let cap (old : Option Capture) (xs : List Nat) : Option Capture :=
    old.or (xs.head?.map (fun x => { cell := x, kind := f.kind, port := port }))
  let c := h.cells.modFrame f.id (fun g =>
    { g with failed := g.failed ++ multis.filter (fun x => !g.failed.contains x) })
  let c := { c with singleCapture := cap c.singleCapture singles, multiCapture := cap c.multiCapture multis }
  (multis, Hub.flagN .memoryMulti multis.length (Hub.flagN .memorySingle singles.length { h with cells := c }))

/-! ## The port units -/

/-- What the part writes as its own. -/
def State.sender (s : State) : Sender := { identity := s.identity, carriage := s.consist.carriage }

/-- Apply a change of Cell Memory and the Management Unit. -/
def onHub (g : Hub → Hub) (s : State) : State := { s with hub := g s.hub }

/-- Raise a notice (R175). -/
def raiseNotice (n : Notice) (s : State) : State := { s with hub := s.hub.raise s.sender n }

/-- A backbone end by its name. -/
def Ports.endOf (ps : Ports) : End → BackboneEnd
  | .ba => ps.ba
  | .bb => ps.bb

/-- Change a backbone end. -/
def Ports.modEnd (x : End) (g : BackboneEnd → BackboneEnd) (ps : Ports) : Ports :=
  match x with
  | .ba => { ps with ba := g ps.ba }
  | .bb => { ps with bb := g ps.bb }

/-- Change a seat port. -/
def Ports.modSeat (n : Fin 32) (g : SeatPort → SeatPort) (ps : Ports) : Ports :=
  { ps with seats := ps.seats.set n (g ps.seats[n]) }

/-- Change a radio link. -/
def Ports.modRadio (w : Fin 4) (g : RadioLink → RadioLink) (ps : Ports) : Ports :=
  { ps with radios := ps.radios.set w (g ps.radios[w]) }

/-- What a port holds as every port does. -/
def Ports.unitOf (ps : Ports) : Port → PortUnit
  | .seat n => (ps.seats[n]).unit
  | .radio w => (ps.radios[w]).unit
  | .backbone x => (ps.endOf x).unit

/-- Change what a port holds as every port does. -/
def Ports.modUnit (p : Port) (g : PortUnit → PortUnit) (ps : Ports) : Ports :=
  match p with
  | .seat n => ps.modSeat n (fun q => { q with unit := g q.unit })
  | .radio w => ps.modRadio w (fun q => { q with unit := g q.unit })
  | .backbone x => ps.modEnd x (fun q => { q with unit := g q.unit })

/-- Change a port's counters. -/
def Ports.count (p : Port) (g : PortCounters → PortCounters) (ps : Ports) : Ports :=
  ps.modUnit p (fun u => { u with ctr := g u.ctr })

/-- One rx discard (R8). -/
def PortCounters.rxDiscard (c : PortCounters) : PortCounters := { c with rxDiscards := c.rxDiscards + 1 }

/-- One tx drop (R8). -/
def PortCounters.txDrop (c : PortCounters) : PortCounters := { c with txDrops := c.txDrops + 1 }

/-- A change of the counters of the port named, if one is. -/
def Ports.count? (p : Option Port) (g : PortCounters → PortCounters) (ps : Ports) : Ports :=
  match p with
  | none => ps
  | some q => ps.count q g

/-- Apply a change of the ports. -/
def onPorts (g : Ports → Ports) (s : State) : State := { s with ports := g s.ports }

/-- One discard under a reason in the tally. -/
def tally (r : Discard) (s : State) : State := onHub (Hub.tally r) s

/-- One tx drop of a port. -/
def txDrop (p : Port) (s : State) : State := onPorts (Ports.count p PortCounters.txDrop) s

/-! ## The records of the station table -/

/-- The record in a slot. -/
def StationTable.station? (t : StationTable) (k : Fin 256) : Option Station := t.slots[k]

/-- Change the record in a slot. -/
def StationTable.modStation (k : Fin 256) (g : Station → Station) (t : StationTable) : StationTable :=
  { t with slots := t.slots.set k ((t.slots[k]).map g) }

/-- Change the record named, if one is. -/
def StationTable.modStation? (k : Option (Fin 256)) (g : Station → Station) (t : StationTable) : StationTable :=
  match k with
  | none => t
  | some j => t.modStation j g

/-- The slots whose record meets a test, in slot order. -/
def StationTable.slotsWhere (t : StationTable) (test : Station → Bool) : List (Fin 256) :=
  (List.finRange 256).filter (fun k => match t.slots[k] with
    | some st => test st
    | none => false)

/-- The slot of the record with an address (R37, R59). -/
def StationTable.byAddr (t : StationTable) (a : LinkAddr) : Option (Fin 256) :=
  (t.slotsWhere (fun st => decide (st.addr = a))).head?

/-- The slot of the record at a radio and index (R63). -/
def StationTable.atRadio (t : StationTable) (w : Fin 4) (i : Nat) : Option (Fin 256) :=
  (t.slotsWhere (fun st => decide (st.origin = .radio w i))).head?

/-- The slots of the records whose origin is a seat port, LEAVING ones included. -/
def StationTable.onSeat (t : StationTable) (n : Fin 32) : List (Fin 256) :=
  t.slotsWhere (fun st => decide (st.origin = .seat n))

/-- Whether an origin is at a radio, at any index. -/
def Origin.isRadio (w : Fin 4) : Origin → Bool
  | .radio v _ => decide (v = w)
  | .seat _ => false

/-- The slots of the records whose origin is a radio. -/
def StationTable.onRadio (t : StationTable) (w : Fin 4) : List (Fin 256) :=
  t.slotsWhere (fun st => st.origin.isRadio w)

/-- The port an origin stands on. -/
def Origin.port : Origin → Port
  | .seat n => .seat n
  | .radio w _ => .radio w

/-- One drop of a record (R39). -/
def Station.drop (st : Station) : Station := { st with ctr := { st.ctr with drops := st.ctr.drops + 1 } }

/-- Whether the record is LEAVING. -/
def Station.isLeaving (st : Station) : Bool :=
  match st.state with
  | .leaving _ => true
  | _ => false

/-- Apply a change of the station table. -/
def onTable (g : StationTable → StationTable) (s : State) : State := { s with table := g s.table }

/-- The record in a slot of the part. -/
def State.station? (s : State) (k : Fin 256) : Option Station := s.table.station? k

/-- Whether a record has an upward frame in transmission on a backbone end (R52). -/
def inFlight (s : State) (k : Fin 256) : Bool :=
  let on (x : End) : Bool :=
    match (s.ports.endOf x).unit.tx with
    | some (.frame id) => decide ((s.hub.cells.frame? id).bind (·.station) = some k)
    | _ => false
  on .ba || on .bb

/-! ## Discards -/

/-- The station a stored frame names. -/
def CellMemory.owner (c : CellMemory) (id : Nat) : Option (Fin 256) := (c.frame? id).bind (·.station)

/-- The port whose rx discards count the discarding of a stored frame (R8): the port it was received on, unless it is a
multi-destination frame, whose copies are counted each by itself (R161; log entry 5). -/
def CellMemory.rxPort (c : CellMemory) (id : Nat) : Option Port :=
  match c.frame? id with
  | none => none
  | some f => if c.isMulti f then none else f.arrival

/-- Discard one queue entry of a frame under a reason (R2, R29, R48, R134, R159, R164): one count in the tally, one tx
drop of the port the entry was bound for, one drop of the station the frame names, one rx discard of the port the
frame was received on, and one reference dropped. -/
def discardEntry (r : Discard) (bound : Option Port) (id : Nat) (s : State) : State :=
  { s with
    hub := Hub.dropRef s.sender id (Hub.tally r s.hub)
    ports := (s.ports.count? bound PortCounters.txDrop).count? (s.hub.cells.rxPort id) PortCounters.rxDiscard
    table := s.table.modStation? (s.hub.cells.owner id) Station.drop }

/-- Discard queue entries one after another. MODEL'S CHOICE, log entry 35: the entries of a queue that is purged or
emptied are let go from its head to its end, which fixes the order in which their cells go back (R21). -/
def discardEntries (r : Discard) (bound : Option Port) (ids : List Nat) (s : State) : State :=
  ids.foldl (fun s id => discardEntry r bound id s) s

/-- Discard a received frame that no queue holds yet (R25, R132): one count in the tally, one rx discard of its port,
one drop of the station named, one tx drop of the port named, and the frame freed. -/
def discardFrame (r : Discard) (p : Port) (bound : Option Port) (owner : Option (Fin 256)) (id : Nat) (s : State) :
    State :=
  { s with
    hub := Hub.freeFrame s.sender id (Hub.tally r s.hub)
    ports := (s.ports.count p PortCounters.rxDiscard).count? bound PortCounters.txDrop
    table := s.table.modStation? owner Station.drop }

end Sys2Proof.Machine
end

