-- ==== Sys2Proof/Machine/Clock.lean ====
section
/-! DEFINITION. The passing of time, in units of 10 µs (log entry 1). Time passes when no command waits, one unit a
step, and when a command says that a timer has expired whose moment has not come yet: it comes then. -/

namespace Sys2Proof.Machine

/-- The units that a RUNNING scheduler's epoch has lasted (R109). -/
def Scheduler.elapsed (c : Scheduler) : Nat := 100 * c.counter + c.phase

/-- The units at which the epoch counter would reach T_e (R109). -/
def Scheduler.epochUnits (c : Scheduler) : Nat := 100 * c.params.te

/-- `d` units pass for the epoch counter (R109): in RUNNING it counts milliseconds, and where it would reach T_e it stays
on its last millisecond until the boundary is taken; in STOPPED it holds. -/
def Scheduler.pass (d : Nat) (c : Scheduler) : Scheduler :=
  if c.running = false then c
  else if c.elapsed + d < c.epochUnits then
    { c with counter := (c.elapsed + d) / 100, phase := (c.elapsed + d) % 100 }
  else { c with counter := c.params.te - 1, phase := 100 }

/-- `d` units pass. -/
def elapse (d : Nat) (s : State) : State := { s with now := s.now + d, sched := s.sched.pass d }

/-- The time comes to `t`, if it has not passed it already. -/
def waitUntil (t : Nat) (s : State) : State := elapse (t - s.now) s

end Sys2Proof.Machine
end

