-- ==== Sys2Proof/Machine/Views.lean ====
section
/-! DEFINITION. The views that replies carry (11.2): the station view, a page of the table, the scheduler view, a
window, a port, the status record, a snapshot page. Each is the OK body of its request at the moment it is taken. -/

namespace Sys2Proof.Machine

/-- Seconds since a time, saturating at 65535 (R60). MODEL'S CHOICE, log entry 38: whole elapsed seconds, rounded
down. -/
def secondsSince (now t : Nat) : Nat := sat16 ((now - t) / 100000)

/-- An optional number: its presence byte. -/
def presence {α : Type} (o : Option α) : Byte := boolByte o.isSome

/-- The position of a slot in the held order (R60). -/
def heldPosition (held : List (Fin 256)) (k : Fin 256) : Option Nat := held.findIdx? (fun j => decide (j = k))

/-- The station view: 100 bytes (R60). -/
def stationView (s : State) (k : Fin 256) (st : Station) : List Byte :=
  let pend := st.pendingShaping
  let pos := heldPosition s.table.held k
  [slotByte k, st.cls.code, BitVec.ofNat 8 st.tier, st.state.code, st.state.beforeCode,
    BitVec.ofNat 8 st.upq.length] ++ st.origin.bytes ++ addrBytes st.addr ++ allowanceBlock st.allowance ++
  [BitVec.ofNat 8 st.shaping.weight, st.shaping.mode.code, presence st.shaping.cap, presence pend] ++
  beBytes 4 (st.shaping.cap.getD 0) ++
  [BitVec.ofNat 8 ((pend.map (·.weight)).getD 0), (pend.map (·.mode.code)).getD 0, presence (pend.bind (·.cap)),
    presence st.lastGrant] ++
  beBytes 4 ((pend.bind (·.cap)).getD 0) ++ beBytes 4 st.share ++ beInt32 st.credit ++
  beBytes 4 ((st.lastGrant.map (·.toNat)).getD 0) ++ beBytes 2 st.idle ++
  beBytes 2 (secondsSince s.now st.lastFrame) ++ [presence pos, BitVec.ofNat 8 (pos.getD 0)] ++ st.ctr.block

/-- One entry of LIST_STATIONS: 12 bytes (R61). -/
def listEntry : Option Station → List Byte
  | none => List.replicate 12 0
  | some st => [1, st.state.code, st.cls.code, 0] ++ st.origin.bytes ++ addrBytes st.addr

/-- One page of the table (R61). -/
def listView (s : State) (p : Nat) : List Byte :=
  [BitVec.ofNat 8 p, 0] ++ (((s.table.slots.toList).drop (16 * p)).take 16).flatMap listEntry

/-- The six parameters as in the SET_EPOCH body: 12 bytes. -/
def Params.bytes (q : Params) : List Byte :=
  beBytes 4 q.budget ++ beBytes 2 q.te ++ [BitVec.ofNat 8 q.t0, BitVec.ofNat 8 q.t1, BitVec.ofNat 8 q.t2,
    BitVec.ofNat 8 q.t3, BitVec.ofNat 8 q.n, BitVec.ofNat 8 q.m]

/-- The scheduler view: 46 bytes (R129). -/
def schedulerView (c : Scheduler) : List Byte :=
  [if c.running then 2 else 1, presence c.pendingParams] ++ beBytes 2 c.counter ++ beBytes 4 c.number.toNat ++
  c.params.bytes ++ (c.pendingParams.map Params.bytes).getD (List.replicate 12 0) ++ beInt32 c.surplus ++
  beBytes 2 c.active ++ beBytes 4 c.weight ++ beBytes 4 c.shares

/-- A window's record: 24 bytes (R80, R82). -/
def windowView (i : Fin 9) (w : Window) : List Byte :=
  [BitVec.ofNat 8 i.val, boolByte w.set.enabled, BitVec.ofNat 8 w.set.k, boolByte w.set.metered,
    boolByte w.set.opened, w.set.passenger.code, w.set.crew.code, w.set.operations.code] ++
  beBytes 4 w.set.base.toNat ++ beBytes 4 w.up.toNat ++ beBytes 4 w.down.toNat ++ beBytes 4 w.refused.toNat

/-- The time left to held-until, in units of 10 µs; 0 when not held (R13). -/
def timeLeft (now : Nat) (e : BackboneEnd) : Nat := (e.heldUntil.getD 0) - now

/-- The port of a request header, for a slot that holds a BUILT reply (R173). -/
def ReplySlot.builtFor : ReplySlot → Option Port
  | .built h _ => some h.port
  | _ => none

/-- The BUILT replies waiting for a port, the one built first at the head (R145). -/
def repliesFor (m : Mgmt) (p : Port) : List (Fin 4) :=
  m.builtOrder.filter (fun k => decide ((m.slots[k]).builtFor = some p))

/-- The counters that every port view begins with. -/
def PortUnit.view (u : PortUnit) : List Byte :=
  [u.link.code] ++ beBytes 4 u.ctr.rxFrames.toNat ++ beBytes 6 u.ctr.rxBytes.toNat ++
  beBytes 4 u.ctr.rxDiscards.toNat ++ beBytes 4 u.ctr.txFrames.toNat ++ beBytes 6 u.ctr.txBytes.toNat ++
  beBytes 4 u.ctr.txDrops.toNat

/-- The view of a port: 34, 46 or 58 bytes (R13). -/
def portView (s : State) (p : Port) : List Byte :=
  [BitVec.ofNat 8 (portCode p)] ++ (s.ports.unitOf p).view ++
  match p with
  | .seat n =>
    let q := s.ports.seats[n]
    [q.designation.code, BitVec.ofNat 8 q.egress.length, BitVec.ofNat 8 (s.table.onSeat n).length,
      BitVec.ofNat 8 (repliesFor s.hub.mgmt p).length]
  | .radio w =>
    let q := s.ports.radios[w]
    [BitVec.ofNat 8 q.egress.length, BitVec.ofNat 8 q.orders.length, BitVec.ofNat 8 (s.table.onRadio w).length, 0] ++
    beBytes 4 q.noticesTaken.toNat ++ beBytes 4 q.noticesIgnored.toNat ++ beBytes 4 q.ordersSent.toNat
  | .backbone x =>
    let q := s.ports.endOf x
    [BitVec.ofNat 8 q.transit.length, boolByte q.heldUntil.isSome, boolByte q.overrun, boolByte q.outstanding,
      boolByte q.pendingHold.isSome, 0] ++ beBytes 2 (timeLeft s.now q) ++
    beBytes 4 q.holdsSent.toNat ++ beBytes 4 q.releasesSent.toNat ++ beBytes 4 q.holdsReceived.toNat ++
    beBytes 4 q.releasesReceived.toNat ++ beBytes 4 q.overruns.toNat

/-- A capture: 6 bytes (11.2). -/
def captureBytes : Option Capture → List Byte
  | none => List.replicate 6 0
  | some c => [1, c.kind.code] ++ beBytes 2 c.cell ++ [BitVec.ofNat 8 (readingCode c.port), 0]

/-- A flag: 4 bytes. -/
def StickyFlag.bytes (f : StickyFlag) : List Byte := [boolByte f.isSet, 0] ++ beBytes 2 f.count

/-- A backbone end in the status record: 8 bytes. -/
def endStatus (now : Nat) (e : BackboneEnd) : List Byte :=
  [e.unit.link.code, boolByte e.heldUntil.isSome, boolByte e.overrun, boolByte e.outstanding] ++
  beBytes 2 (timeLeft now e) ++ [0, 0]

/-- Whether a slot is FREE. -/
def ReplySlot.isFree : ReplySlot → Bool
  | .free => true
  | _ => false

/-- Whether a slot holds a parked SNAPSHOT. -/
def ReplySlot.isSnapshot : ReplySlot → Bool
  | .parked _ .snapshot => true
  | _ => false

/-- Whether a slot holds a parked SAVE_SETTINGS. -/
def ReplySlot.isSave : ReplySlot → Bool
  | .parked _ (.save _ _) => true
  | _ => false

/-- Whether a SNAPSHOT is parked (R174). -/
def snapshotParked (m : Mgmt) : Bool := m.slots.toList.any ReplySlot.isSnapshot

/-- Whether a SAVE_SETTINGS is parked (R174). -/
def saveParked (m : Mgmt) : Bool := m.slots.toList.any ReplySlot.isSave

/-- The status record: 188 bytes (R180). -/
def statusView (s : State) : List Byte :=
  let m := s.hub.mgmt
  let c := s.hub.cells
  addrBytes s.identity ++ m.flags.toList.flatMap StickyFlag.bytes ++ captureBytes c.singleCapture ++
  captureBytes c.multiCapture ++ m.tally.toList.flatMap (fun n => beBytes 4 n.toNat) ++
  beBytes 2 c.free.length ++ beBytes 2 c.held ++ [BitVec.ofNat 8 c.retired.length, c.pressure.code] ++
  beBytes 2 c.high ++ beBytes 2 c.low ++ beBytes 2 (s.table.slotsWhere (fun _ => true)).length ++
  [BitVec.ofNat 8 s.up.onboard.length, 0] ++ endStatus s.now s.ports.ba ++ endStatus s.now s.ports.bb ++
  [BitVec.ofNat 8 s.consist.carriage, leadCode s.consist.lead] ++
  [BitVec.ofNat 8 m.input.length, BitVec.ofNat 8 (m.slots.toList.filter (fun q => !q.isFree)).length,
    BitVec.ofNat 8 m.notices.length, 0] ++ beBytes 2 m.lost ++
  [presence m.reportAddr, 0] ++ addrBytes (m.reportAddr.getD 0) ++
  [boolByte (snapshotParked m), boolByte (saveParked m), presence m.snapshot, 0] ++
  beBytes 4 ((m.snapshot.map (·.number.toNat)).getD 0)

/-- A snapshot entry: 30 bytes, all 0 for an empty slot (11.2). -/
def snapshotEntryBytes : Option SnapshotEntry → List Byte
  | none => List.replicate 30 0
  | some e =>
    [1, e.state.code, presence e.current, 0] ++ addrBytes e.addr ++ beBytes 4 (e.current.getD 0) ++
    beBytes 6 e.upMetered.toNat ++ beBytes 6 e.downMetered.toNat ++ beBytes 4 e.drops.toNat

/-- One page of the snapshot area (R183). -/
def snapshotView (sn : Snapshot) (p : Nat) : List Byte :=
  beBytes 4 sn.number.toNat ++ [BitVec.ofNat 8 p, 0, 0, 0] ++
  ((sn.entries.toList.drop (16 * p)).take 16).flatMap snapshotEntryBytes

/-- The figures of a RELEASE reply: 60 bytes (R57). -/
def releaseBody (k : Fin 256) (st : Station) : List Byte :=
  addrBytes st.addr ++ [slotByte k, Reason.released.code] ++ st.ctr.block ++ allowanceBlock st.allowance

/-- Copy one record for a snapshot (R182). -/
def Station.snapshotEntry (st : Station) : SnapshotEntry :=
  { addr := st.addr, state := st.state, current := st.allowance.map (·.current), upMetered := st.ctr.upMetered,
    downMetered := st.ctr.downMetered, drops := st.ctr.drops }

end Sys2Proof.Machine
end

