-- ==== Sys2Proof/Machine/Replies.lean ====
section
/-! DEFINITION. Reply slots (R171 to R174): fixing the contents of a reply, building it, and the parked operations. -/

namespace Sys2Proof.Machine

/-- The status and body of a reply at the moment of its build (R172). The values of a read request are those of this
moment; a station that has gone while its view waited for cells is answered NO_STATION (log entry 12). -/
def renderReply (s : State) : ReplyContent → Status × List Byte
  | .fixed st body => (st, body)
  | .station a =>
    match s.table.byAddr a with
    | none => (.noStation, [])
    | some k =>
      match s.table.slots[k] with
      | none => (.noStation, [])
      | some st => (.ok, stationView s k st)
  | .page p => (.ok, listView s p)
  | .scheduler => (.ok, schedulerView s.sched)
  | .window i => (.ok, windowView i s.windows[i])
  | .port p => (.ok, portView s p)
  | .status => (.ok, statusView s)
  | .snapshotPage p =>
    match s.hub.mgmt.snapshot with
    | none => (.noSnapshot, [])
    | some sn => (.ok, snapshotView sn p)

/-- The bytes of a reply up to its wire check (R172). -/
def replyBytes (s : State) (h : ReqHeader) (c : ReplyContent) : List Byte :=
  let r := renderReply s c
  mgmtFrame h.src s.identity h.code r.1.code h.tag s.consist.carriage r.2

/-- Put a reply slot in a state. -/
def Hub.setSlot (k : Fin 4) (q : ReplySlot) (h : Hub) : Hub :=
  { h with mgmt := { h.mgmt with slots := h.mgmt.slots.set k q } }

/-- Place a frame just built as the reply of a slot (R171). -/
def Hub.placeBuilt (k : Fin 4) (q : ReqHeader) (id : Nat) (h : Hub) : Hub :=
  { h with mgmt := { h.mgmt with
      slots := h.mgmt.slots.set k (.built q id), builtOrder := h.mgmt.builtOrder ++ [k],
      waiting := h.mgmt.waiting.filter (fun j => decide (j ≠ k)) } }

/-- Free a slot, wherever the lists name it. -/
def Hub.freeSlot (k : Fin 4) (h : Hub) : Hub :=
  { h with mgmt := { h.mgmt with
      slots := h.mgmt.slots.set k .free, builtOrder := h.mgmt.builtOrder.filter (fun j => decide (j ≠ k)),
      waiting := h.mgmt.waiting.filter (fun j => decide (j ≠ k)) } }

/-- Whether a port is a seat port that is DOWN: a reply built for it is discarded at once (R173). -/
def deadSeat (s : State) (p : Port) : Bool :=
  match p with
  | .seat n => decide ((s.ports.seats[n]).unit.link = .down)
  | _ => false

/-- Build the reply of slot `k` with these contents if the stack holds enough cells (R26, R172); `none` if not. -/
def buildReply (k : Fin 4) (h : ReqHeader) (c : ReplyContent) (s : State) : Option State :=
  match s.hub.build .reply (replyBytes s h c) with
  | none => none
  | some (id, h1, e) =>
    if deadSeat s h.port then
      some { s with
        hub := Hub.tally .purge (Hub.dropRef s.sender id (Hub.freeSlot k (h1.noteEntered s.sender e)))
        ports := s.ports.count h.port PortCounters.txDrop }
    else some { s with hub := Hub.placeBuilt k h id (h1.noteEntered s.sender e) }

/-- Build the oldest waiting reply if there is one and the cells suffice (R172). -/
def buildOldest (s : State) : State :=
  match s.hub.mgmt.waiting with
  | [] => s
  | k :: _ =>
    match s.hub.mgmt.slots[k] with
    | .reserved h (some c) _ => (buildReply k h c s).getD s
    | _ => s

/-- The header a slot records, where it holds a request. -/
def ReplySlot.header? : ReplySlot → Option ReqHeader
  | .free => none
  | .reserved h _ _ => some h
  | .parked h _ => some h
  | .built h _ => some h
  | .sending h _ => some h

/-- Fix the contents of the reply of slot `k` (R172, R174): it is built at once unless older replies wait for cells or
the stack holds too few; `blocking` where the unit is not finished with the request until then. -/
def fixReply (k : Fin 4) (c : ReplyContent) (blocking : Bool) (s : State) : State :=
  match (s.hub.mgmt.slots[k]).header? with
  | none => s
  | some h =>
    let s1 := { s with hub := { s.hub with mgmt := { s.hub.mgmt with
      slots := s.hub.mgmt.slots.set k (.reserved h (some c) blocking), waiting := s.hub.mgmt.waiting ++ [k] } } }
    if s.hub.mgmt.waiting = [] then buildOldest s1 else s1

/-- Answer the request in slot `k` with a status and no body: the reply of a refusal (R170). -/
def refuse (k : Fin 4) (st : Status) (s : State) : State := fixReply k (.fixed st []) true s

/-- Answer the request in slot `k` OK with a body fixed now. -/
def answer (k : Fin 4) (body : List Byte) (s : State) : State := fixReply k (.fixed .ok body) true s

/-- Answer the request in slot `k` with a view taken at the build (R172). -/
def answerView (k : Fin 4) (c : ReplyContent) (s : State) : State := fixReply k c true s

/-- Park a long operation in slot `k` (R174). -/
def park (k : Fin 4) (op : PendingOp) (s : State) : State :=
  match (s.hub.mgmt.slots[k]).header? with
  | none => s
  | some h => { s with hub := s.hub.setSlot k (.parked h op) }

/-- The slot with a parked RELEASE of a record (R57). -/
def parkedRelease (m : Mgmt) (j : Fin 256) : Option (Fin 4) :=
  (List.finRange 4).find? (fun k => match m.slots[k] with
    | .parked _ (.release i) => decide (i = j)
    | _ => false)

/-- The slot with a parked SNAPSHOT. -/
def parkedSnapshot (m : Mgmt) : Option (Fin 4) := (List.finRange 4).find? (fun k => (m.slots[k]).isSnapshot)

/-- The slot with a parked SAVE_SETTINGS, its image and the start of its write. -/
def parkedSave (m : Mgmt) : Option (Fin 4 × StoredSettings × Nat) :=
  (List.finRange 4).findSome? (fun k => match m.slots[k] with
    | .parked _ (.save image start) => some (k, image, start)
    | _ => none)

/-- Take the snapshot: the area is replaced whole (R182). -/
def takeSnapshot (s : State) : State :=
  let sn : Snapshot := { number := s.sched.number, entries := s.table.slots.map (fun o => o.map Station.snapshotEntry) }
  { s with hub := { s.hub with mgmt := { s.hub.mgmt with snapshot := some sn } } }

/-- The SNAPSHOT reply: the epoch number and the slots not empty (R182). -/
def snapshotReply (s : State) : List Byte :=
  beBytes 4 s.sched.number.toNat ++ beBytes 2 (s.table.slotsWhere (fun _ => true)).length

/-- Take the snapshot that a parked SNAPSHOT waits for, if one is parked, and answer it (R174, R182). -/
def takeParkedSnapshot (s : State) : State :=
  match parkedSnapshot s.hub.mgmt with
  | none => s
  | some k =>
    let s1 := takeSnapshot s
    fixReply k (.fixed .ok (snapshotReply s1)) false s1

end Sys2Proof.Machine
end

