-- ==== Sys2Proof/Machine/Operands.lean ====
section
/-! DEFINITION. Requests as frames carry them (R169, R170, R190): the request table, the fields of each body at its
offsets, and the taking of a request with the common checks. -/

namespace Sys2Proof.Machine

/-- A request's body length and whether CREW level may use it (R170, the request table of 11.2). -/
def requestInfo : Nat → Option (Nat × Bool)
  | 0x01 => some (6, true)
  | 0x02 => some (1, true)
  | 0x03 => some (28, false)
  | 0x04 => some (6, true)
  | 0x05 => some (6, true)
  | 0x06 => some (6, false)
  | 0x07 => some (16, false)
  | 0x08 => some (8, false)
  | 0x09 => some (14, false)
  | 0x0A => some (12, false)
  | 0x0B => some (1, false)
  | 0x0C => some (0, true)
  | 0x0D => some (12, false)
  | 0x0E => some (1, true)
  | 0x0F => some (2, false)
  | 0x10 => some (1, true)
  | 0x11 => some (3, false)
  | 0x12 => some (4, false)
  | 0x13 => some (2, false)
  | 0x14 => some (0, true)
  | 0x15 => some (3, false)
  | 0x16 => some (0, false)
  | 0x17 => some (1, false)
  | 0x18 => some (10, false)
  | 0x19 => some (0, false)
  | _ => none

/-- A request as the part reads it from its frame (R190), with the level it was taken at. -/
structure Request where
  level : Level
  port : Port
  src : LinkAddr
  code : Nat
  tag : BitVec 16
  bodyLength : Nat
  frameLength : Nat
  body : List Byte
  deriving DecidableEq, Repr

/-- Read a request in the bytes of a frame (R190). The body is what stands from offset 22 to the wire check. -/
def readRequest (level : Level) (port : Port) (f : List Byte) : Request :=
  { level := level, port := port, src := srcOf f, code := fieldAt f 14 1, tag := BitVec.ofNat 16 (fieldAt f 16 2),
    bodyLength := fieldAt f 20 2, frameLength := f.length, body := (f.take (f.length - 4)).drop 22 }

/-- The number in `n` bytes at an offset of the body. -/
def Request.num (r : Request) (off n : Nat) : Nat := fieldAt r.body off n

/-- The link address at an offset of the body. -/
def Request.addr (r : Request) (off : Nat) : LinkAddr := addrAt r.body off

/-- The request at the head of the input queue, as its frame's bytes give it. -/
def headRequest (s : State) : Option Request :=
  match s.hub.mgmt.input with
  | [] => none
  | e :: _ => (s.hub.cells.frame? e.id).map (fun f => readRequest e.level e.port (s.hub.cells.frameBytes f))

/-- The lowest-numbered FREE slot (R169). -/
def freeSlot? (m : Mgmt) : Option (Fin 4) := (List.finRange 4).find? (fun k => (m.slots[k]).isFree)

/-- Whether a slot holds a request the unit has not finished with: its reply waits for cells (R169, R172). -/
def ReplySlot.isBlocking : ReplySlot → Bool
  | .reserved _ _ b => b
  | _ => false

/-- Whether the unit has finished with the request it took before (R169). -/
def unitFree (m : Mgmt) : Bool := !m.slots.toList.any ReplySlot.isBlocking

/-- What a slot records of a request at the take (R169). -/
def Request.header (r : Request) : ReqHeader :=
  { port := r.port, src := r.src, code := BitVec.ofNat 8 r.code, tag := r.tag }

/-- Count one rx discard of the port a request came in on, unless its frame was a multi-destination one (R8). -/
def requestDiscarded (r : Discard) (e : InputEntry) (s : State) : State :=
  { s with
    hub := s.hub.tally r
    ports := s.ports.count? (s.hub.cells.rxPort e.id) PortCounters.rxDiscard }

/-- The take of the entry `e`, whose frame is `f`, into slot `k` (R169): the slot is RESERVED, the cells are read and
tested, the entry leaves the queue and its reference is dropped. With a multi-bit error the request ends (R30):
MEMORY, MEMORY_ERROR with the port the request came in on (log entry 36), and the slot is FREE. With a group source
address it ends with MGMT_REFUSED (R170). The first part says whether the request goes on. -/
def takeInto (k : Fin 4) (e : InputEntry) (f : FrameRec) (rq : Request) (s : State) : Bool × State :=
  let r := s.hub.readFrame f none
  let h1 := Hub.setSlot k (.reserved rq.header none false) r.2
  let s1 := { s with hub := { h1 with mgmt := { h1.mgmt with input := h1.mgmt.input.tail } } }
  let drop (s : State) : State := onHub (Hub.dropRef s.sender e.id) s
  if r.1.isEmpty = false then
    (false, raiseNotice (.memoryError (r.1.headD 0) r.1.length f.kind e.port)
      (drop (onHub (Hub.freeSlot k) (requestDiscarded .memory e s1))))
  else if isGroup rq.src then (false, drop (onHub (Hub.freeSlot k) (requestDiscarded .mgmtRefused e s1)))
  else (true, drop s1)

/-- What a command that takes a request finds: the request at the head, its entry and frame, and the slot it gets;
absent when no request can be taken (R169). `faults` have come about by this reading. -/
def requestReady (s : State) : Option (Fin 4 × InputEntry × FrameRec × Request) :=
  match s.hub.mgmt.input, freeSlot? s.hub.mgmt, headRequest s with
  | e :: _, some k, some rq =>
    if unitFree s.hub.mgmt then (s.hub.cells.frame? e.id).map (fun f => (k, e, f, rq)) else none
  | _, _, _ => none

/-- The common checks 2 to 4 of a request that has been taken (R170): its refusal status, or none. -/
def commonRefusal (rq : Request) : Option Status :=
  match requestInfo rq.code with
  | none => some .badRequest
  | some (len, crewMay) =>
    if rq.bodyLength ≠ len ∨ rq.frameLength - 4 < 22 + rq.bodyLength then some .badRequest
    else if rq.level = .crew ∧ crewMay = false then some .notPermitted
    else none

/-- The state with the cells that have gone bad since the last step. -/
def withFaults (fs : List CellFault) (s : State) : State :=
  onHub (fun h => { h with cells := h.cells.withFaults fs }) s

/-- A command of the request rows (R169, R170): where the request at the head of the input queue is one of this row and
can be taken, it is taken, passes the common checks or is refused, and is carried out by `rule` with its slot.
Otherwise the command is the taking of a request that is not there, and nothing changes (log entry 2). -/
def takeRequest (row : Request → Bool) (faults : List CellFault) (rule : Fin 4 → Request → State → State)
    (s : State) : State :=
  match requestReady s with
  | none => s
  | some (k, e, f, rq) =>
    if row rq then
      let t := takeInto k e f rq (withFaults faults s)
      if t.1 then
        match commonRefusal rq with
        | some st => refuse k st t.2
        | none => rule k rq t.2
      else t.2
    else s

/-- The row test of a request code. -/
def isCode (c : Nat) (rq : Request) : Bool := decide (rq.code = c)

/-! ## Codes and optional fields in bodies (R190) -/

/-- A yes/no or presence code: none for any other value. -/
def yesNo : Nat → Option Bool
  | 0 => some false
  | 1 => some true
  | _ => none

def modeOfCode : Nat → Option Mode
  | 1 => some .single
  | 2 => some .run
  | _ => none

def designationOfCode : Nat → Option Designation
  | 1 => some .passenger
  | 2 => some .crew
  | 3 => some .crewMaint
  | 4 => some .operations
  | 5 => some .disabled
  | _ => none

def permissionOfCode : Nat → Option Permission
  | 0 => some .none
  | 1 => some .up
  | 2 => some .down
  | 3 => some .both
  | _ => none

def leadOfCode : Nat → Option (Option End)
  | 0 => some none
  | 1 => some (some .ba)
  | 2 => some (some .bb)
  | _ => none

def holdActionOfCode : Nat → Option HoldAction
  | 1 => some .wait
  | 2 => some .shed
  | _ => none

/-- A cap (R49, R117): presence code and value. A cap given as 0 is outside its values; one above 16,777,215 is taken as
16,777,215. -/
def readCap (pres value : Nat) : Option (Option Nat) :=
  match yesNo pres with
  | none => none
  | some false => some none
  | some true => if value = 0 then none else some (some (min value 16777215))

/-- A weight (R49, R117): 0 is taken as 1. -/
def readWeight (w : Nat) : Nat := if w = 0 then 1 else w

/-- The shaping of an ADMIT or SET_SHAPING body, or none where a field is outside its codes. -/
def readShaping (weight mode capPres cap : Nat) : Option Shaping :=
  match modeOfCode mode, readCap capPres cap with
  | some m, some c => some { weight := readWeight weight, cap := c, mode := m }
  | _, _ => none

/-- An allowance as a body gives it (R49, R104): absent, or base, current and renew. With presence 0 the value bytes are
not read. -/
structure GivenAllowance where
  base : Nat
  current : Nat
  renew : Bool
  deriving DecidableEq, Repr

/-- The allowance of a body, or none where a code is neither of its two. -/
def readAllowance (pres renew base current : Nat) : Option (Option GivenAllowance) :=
  match yesNo pres with
  | none => none
  | some false => some none
  | some true => (yesNo renew).map (fun b => some { base := base, current := current, renew := b })

/-- The body of ADMIT (0x03), or none for its BAD_VALUE cases (R49, R190). -/
structure AdmitBody where
  tier : Nat
  allowance : Option GivenAllowance
  shaping : Shaping
  idle : Nat
  deriving DecidableEq, Repr

def readAdmit (r : Request) : Option AdmitBody :=
  match readShaping (r.num 7 1) (r.num 8 1) (r.num 9 1) (r.num 10 4),
      readAllowance (r.num 16 1) (r.num 17 1) (r.num 20 4) (r.num 24 4) with
  | some sh, some al =>
    if 3 < r.num 6 1 ∨ (al.map (·.current)) = some 0 then none
    else some { tier := r.num 6 1, allowance := al, shaping := sh, idle := r.num 14 2 }
  | _, _ => none

/-- The allowance of SET_ALLOWANCE (0x07). -/
def readSetAllowance (r : Request) : Option (Option GivenAllowance) :=
  readAllowance (r.num 6 1) (r.num 7 1) (r.num 8 4) (r.num 12 4)

/-- The shaping of SET_SHAPING (0x09). -/
def readSetShaping (r : Request) : Option Shaping :=
  readShaping (r.num 6 1) (r.num 7 1) (r.num 8 1) (r.num 10 4)

/-- Clamp into a range. -/
def clampTo (lo hi n : Nat) : Nat := max lo (min hi n)

/-- The parameters of SET_EPOCH (0x0A), clamped (R114). -/
def readParams (r : Request) : Params :=
  { budget := min (r.num 0 4) 16777215, te := clampTo 1 1000 (r.num 4 2), t0 := clampTo 1 15 (r.num 6 1),
    t1 := clampTo 1 15 (r.num 7 1), t2 := clampTo 1 15 (r.num 8 1), t3 := clampTo 1 15 (r.num 9 1),
    n := min (r.num 10 1) 7, m := min (r.num 11 1) 15 }

/-- The settings that WRITE_WINDOW (0x0D) gives window `i`, as they are stored over `old` (R80), or none for its
BAD_VALUE cases. -/
def readWindowSettings (r : Request) (i : Fin 9) (old : WindowSettings) : Option WindowSettings :=
  match yesNo (r.num 1 1), yesNo (r.num 7 1), yesNo (r.num 8 1), permissionOfCode (r.num 9 1),
      permissionOfCode (r.num 10 1), permissionOfCode (r.num 11 1) with
  | some en, some me, some op, some pp, some pc, some po =>
    let k := clampTo 8 32 (r.num 6 1)
    let base : NetAddr := clearLow (BitVec.ofNat 32 (r.num 2 4)) k
    some
      { enabled := if i = 8 then old.enabled else en
        base := if i = 8 then old.base else base
        k := if i = 8 then old.k else k
        metered := me
        opened := op && !me
        passenger := pp
        crew := pc
        operations := po }
  | _, _, _, _, _, _ => none

/-- The report address of SAVE_SETTINGS (0x18): kept, absent or given. -/
def readReport (r : Request) (old : Option LinkAddr) : Option (Option LinkAddr) :=
  match r.num 0 1 with
  | 0 => some old
  | 1 => some none
  | 2 => some (some (r.addr 2))
  | _ => none

/-- The default idle interval of SAVE_SETTINGS: kept or given. -/
def readIdle (r : Request) (old : Nat) : Option Nat :=
  match r.num 1 1 with
  | 0 => some old
  | 1 => some (r.num 8 2)
  | _ => none

end Sys2Proof.Machine
end

