-- ==== Sys2Proof/Machine/Stations.lean ====
section
/-! DEFINITION. Shared operations on station records (chapters 3, 4 and 6): purges, orders, removal and freeing,
creation with eviction, attribution, and the charging of allowances. -/

namespace Sys2Proof.Machine

/-! ## Orders (R72) -/

/-- Place an order: it takes the place of a pending order for its index, or joins the end (R72). -/
def placeOrder (o : Order) (q : List Order) : List Order :=
  if q.any (fun x => x.index == o.index) then q.map (fun x => if x.index = o.index then o else x) else q ++ [o]

/-- Discard the pending order for an index, if there is one (R72). -/
def discardOrder (i : Nat) (q : List Order) : List Order := q.filter (fun x => decide (x.index ≠ i))

/-- Place an order in a radio's order queue. -/
def sendOrder (w : Fin 4) (o : Order) (s : State) : State :=
  onPorts (Ports.modRadio w (fun q => { q with orders := placeOrder o q.orders })) s

/-- Discard the pending order for an index in a radio's order queue. -/
def cancelOrder (w : Fin 4) (i : Nat) (s : State) : State :=
  onPorts (Ports.modRadio w (fun q => { q with orders := discardOrder i q.orders })) s

/-! ## Purges (R48, R53) -/

/-- Whether a stored frame names a station. -/
def CellMemory.names (c : CellMemory) (k : Fin 256) (id : Nat) : Bool := decide (c.owner id = some k)

/-- A run that the record in slot `k` holds ends (R142). -/
def endRun (k : Fin 256) (r : Option Run) : Option Run := r.filter (fun r => decide (r.holder ≠ k))

/-- A run ends when its holder's upward queue empties (R142): `rest` is what is left in the queue of `k`. -/
def runOnQueue (k : Fin 256) (rest : List Nat) (r : Option Run) : Option Run := if rest.isEmpty then endRun k r else r

/-- Discard a record's upward queue (PURGE). A run that it holds ends: the queue is empty, and the record is leaving
ADMITTED (R142; log entry 14). -/
def purgeUpward (k : Fin 256) (s : State) : State :=
  let ids := match s.station? k with
    | some st => st.upq
    | none => []
  discardEntries .purge none ids
    { s with
      table := s.table.modStation k (fun st => { st with upq := [] })
      up := { s.up with run := endRun k s.up.run } }

/-- Discard a station's unicasts in the egress queue of a seat port (PURGE). -/
def purgeSeatEgress (k : Fin 256) (n : Fin 32) (s : State) : State :=
  let q := (s.ports.seats[n]).egress
  discardEntries .purge (some (.seat n)) (q.filter (s.hub.cells.names k))
    (onPorts (Ports.modSeat n (fun p => { p with egress := q.filter (fun id => !s.hub.cells.names k id) })) s)

/-- Discard a station's unicasts in the egress queue of a radio (PURGE). -/
def purgeRadioEgress (k : Fin 256) (w : Fin 4) (s : State) : State :=
  let q := (s.ports.radios[w]).egress
  discardEntries .purge (some (.radio w)) ((q.map (·.id)).filter (s.hub.cells.names k))
    (onPorts (Ports.modRadio w (fun p => { p with egress := q.filter (fun e => !s.hub.cells.names k e.id) })) s)

/-- Discard a station's unicasts in the egress queue of an origin (PURGE). -/
def purgeEgress (k : Fin 256) (o : Origin) (s : State) : State :=
  match o with
  | .seat n => purgeSeatEgress k n s
  | .radio w _ => purgeRadioEgress k w s

/-! ## The held order (R41) -/

/-- A record joins the end of the held order, leaving its old place if it had one. -/
def toHeldEnd (k : Fin 256) (held : List (Fin 256)) : List (Fin 256) := held.filter (fun j => decide (j ≠ k)) ++ [k]

/-- A record leaves the held order. -/
def fromHeld (k : Fin 256) (held : List (Fin 256)) : List (Fin 256) := held.filter (fun j => decide (j ≠ k))

/-- Put a record in a state (R47). -/
def setStationState (k : Fin 256) (st : StationState) (s : State) : State :=
  onTable (StationTable.modStation k (fun r => { r with state := st })) s

/-! ## Removal (R52 to R56) -/

/-- Whether a cause sends a DROP order to a radio station's radio (R52). -/
def Reason.sendsDrop : Reason → Bool
  | .aged | .evicted | .released => true
  | .link | .disassociated | .radioRestart | .portChanged => false

/-- The start of a removal (R53): the queues are purged, the record leaves the held order, and a DROP order goes to its
radio where the cause calls for one. -/
def beginRemoval (k : Fin 256) (st : Station) (why : Reason) (s : State) : State :=
  let s1 := purgeEgress k st.origin (purgeUpward k s)
  let s2 := onTable (fun t => { t with held := fromHeld k t.held }) s1
  match st.origin with
  | .radio w i => if why.sendsDrop then sendOrder w { kind := .drop, index := i } s2 else s2
  | .seat _ => s2

/-- Make the slot absent in the frame records of the onboard entries that name it (R135). -/
def CellMemory.disown (k : Fin 256) (onboard : List Nat) (c : CellMemory) : CellMemory :=
  { c with frames := c.frames.map (fun f =>
      if f.station = some k ∧ f.id ∈ onboard then { f with station := none } else f) }

/-- Empty a slot (R56): its record and address are gone, and a run it holds ends (R142). -/
def emptySlot (k : Fin 256) (s : State) : State :=
  { s with
    table := { slots := s.table.slots.set k none, held := fromHeld k s.table.held }
    hub := { s.hub with cells := s.hub.cells.disown k s.up.onboard }
    up := { s.up with run := endRun k s.up.run } }

/-- Free a record (R56): STATION_GONE where the reason calls for it, the answer to a RELEASE parked on it, and the slot
emptied. -/
def freeRecord (k : Fin 256) (why : Reason) (s : State) : State :=
  match s.station? k with
  | none => s
  | some st =>
    let s1 :=
      if why = .released then s
      else raiseNotice (.stationGone k st.cls st.origin st.addr why st.ctr st.allowance) s
    let s2 := match parkedRelease s1.hub.mgmt k with
      | none => s1
      | some j => fixReply j (.fixed .ok (releaseBody k st)) false s1
    emptySlot k s2

/-- Remove a record (R52): freed at once, or LEAVING while an upward frame of it is in transmission on a backbone end.
A second cause does nothing to a LEAVING record (R55). -/
def removeRecord (k : Fin 256) (why : Reason) (s : State) : State :=
  match s.station? k with
  | none => s
  | some st =>
    if st.isLeaving then s
    else
      let s1 := beginRemoval k st why s
      if inFlight s k then setStationState k (.leaving why) s1 else freeRecord k why s1

/-- Remove records one after another. -/
def removeRecords (why : Reason) (ks : List (Fin 256)) (s : State) : State :=
  ks.foldl (fun s k => removeRecord k why s) s

/-- Free a LEAVING record whose frame's transmission has ended (R56). -/
def freeIfLeaving (k : Fin 256) (s : State) : State :=
  match s.station? k with
  | some st =>
    match st.state with
    | .leaving why => if inFlight s k then s else freeRecord k why s
    | _ => s
  | none => s

/-! ## Learning, creation and attribution (R40 to R43, R68) -/

/-- The lowest-numbered empty slot (R37). -/
def StationTable.emptySlot? (t : StationTable) : Option (Fin 256) :=
  (List.finRange 256).find? (fun k => (t.slots[k]).isNone)

/-- The record that eviction chooses: the first of the held order with no upward frame in transmission (R43). -/
def evictable (s : State) : Option (Fin 256) := s.table.held.find? (fun k => !inFlight s k)

/-- The class and starting state of the stations learned at a designation (R11, R42). -/
def Designation.learns : Designation → StationClass × StationState
  | .passenger => (.passenger, .held)
  | .crew | .crewMaint => (.crew, .admitted)
  | .operations => (.operations, .admitted)
  | .disabled => (.passenger, .held)

/-- A new record (R38). -/
def newStation (a : LinkAddr) (cls : StationClass) (st : StationState) (o : Origin) (idle now : Nat) : Station :=
  { addr := a, cls := cls, tier := 0, state := st, origin := o, allowance := none, shaping := {},
    pendingShaping := none, share := 0, credit := 0, lastGrant := none, idle := idle, lastFrame := now,
    idleStart := now, ctr := {}, upq := [] }

/-- Put a new record in an empty slot, a HELD one at the end of the held order, and raise STATION_NEW (R42, R68). -/
def fillSlot (k : Fin 256) (a : LinkAddr) (cls : StationClass) (st : StationState) (o : Origin) (s : State) : State :=
  raiseNotice (.stationNew k cls st o a)
    { s with table :=
        { slots := s.table.slots.set k (some (newStation a cls st o s.hub.mgmt.defaultIdle s.now))
          held := if st = .held then toHeldEnd k s.table.held else s.table.held } }

/-- Creation fails (R43): the flag TABLE_FULL and a TABLE_FULL notice. -/
def failCreation (a : LinkAddr) (o : Origin) (s : State) : State :=
  raiseNotice (.tableFull o a) (onHub (Hub.flag .tableFull) s)

/-- Create a record (R43): in the lowest empty slot, or in the slot of an evicted HELD record. The first part is the
slot, absent where creation fails. -/
def createRecord (a : LinkAddr) (cls : StationClass) (st : StationState) (o : Origin) (s : State) :
    Option (Fin 256) × State :=
  match s.table.emptySlot? with
  | some k => (some k, fillSlot k a cls st o s)
  | none =>
    match evictable s with
    | some k => (some k, fillSlot k a cls st o (removeRecord k .evicted s))
    | none => (none, failCreation a o s)

/-- Restart a record's idle timer, with its last frame time (R40, R66). -/
def Station.touch (now : Nat) (st : Station) : Station := { st with lastFrame := now, idleStart := now }

/-- Attribute a frame to a record (R40): its last frame time and idle timer, its place in the held order if it is HELD,
and its slot in the frame's record. -/
def attributeFrame (k : Fin 256) (id : Nat) (s : State) : State :=
  { s with
    table :=
      { s.table.modStation k (Station.touch s.now) with
        held := match s.station? k with
          | some st => if st.state = .held then toHeldEnd k s.table.held else s.table.held
          | none => s.table.held }
    hub := { s.hub with cells := s.hub.cells.modFrame id (fun f => { f with station := some k }) } }

/-! ## Charging (R95 to R103) -/

/-- The allowance after a charge of L bytes (R98). -/
def Allowance.charge (L : Nat) (a : Allowance) : Allowance :=
  if L < a.current then { a with current := a.current - L }
  else { a with current := 0, overrun := a.overrun + BitVec.ofNat 32 (L - a.current) }

/-- Whether a charge of L bytes is an exhaustion (R98, R99). -/
def Allowance.exhaustedBy (L : Nat) (a : Allowance) : Bool := decide (0 < a.current) && decide (a.current ≤ L)

/-- Whether an exhaustion renews the allowance (R99). -/
def Allowance.renews (a : Allowance) : Bool := a.renew && decide (0 < a.base)

/-- A reload of current from base (R101, R106). -/
def Allowance.reload (a : Allowance) : Allowance :=
  { a with current := a.base, renewals := min (a.renewals + 1) 255 }

/-- The state a record is in after an exhaustion that is not renewed (R102). -/
def StationState.spentBy : StationState → StationState
  | .admitted => .spent
  | .barred .admitted => .barred .spent
  | st => st

/-- An exhaustion of a record whose current is now 0 (R99, R101, R102, R105): renewed, or spent with its upward queue
purged, and the notice of either. -/
def exhaust (k : Fin 256) (cause : Cause) (L : Nat) (s : State) : State :=
  match s.station? k with
  | none => s
  | some st =>
    match st.allowance with
    | none => s
    | some al =>
      if al.renews then
        raiseNotice (.allowanceRenewed k st.cls st.origin st.addr cause L al.reload)
          (onTable (StationTable.modStation k (fun r => { r with allowance := some al.reload })) s)
      else
        let s1 := setStationState k st.state.spentBy s
        raiseNotice (.allowanceSpent k st.cls st.origin st.addr cause L al st.state.spentBy)
          (if st.state = .admitted then purgeUpward k s1 else s1)

/-- Charge L bytes to a record's allowance, if it has one, with the exhaustion that this may be (R98, R99). -/
def charge (k : Fin 256) (cause : Cause) (L : Nat) (s : State) : State :=
  match s.station? k with
  | none => s
  | some st =>
    match st.allowance with
    | none => s
    | some al =>
      let s1 := onTable (StationTable.modStation k (fun r => { r with allowance := some (al.charge L) })) s
      if al.exhaustedBy L then exhaust k cause L s1 else s1

end Sys2Proof.Machine
end

