-- ==== Sys2Proof/Machine/Intake.lean ====
section
/-! DEFINITION. The intake decisions: classification by the window table (chapter 5), upward intake (R131 to R133), the
hold exchange at a transit queue (R14), transit (R163), downward delivery (R155, R156), multi-destination delivery
(R160, R161) and the input queue (R168). -/

namespace Sys2Proof.Machine

/-! ## Classification -/

/-- Whether an address lies in a window (R79). -/
def WindowSettings.contains (w : WindowSettings) (a : NetAddr) : Bool := w.enabled && decide (clearLow a w.k = w.base)

/-- The window applied (R86): the lowest-numbered of 0..7 that contains the address, and else the default window 8. -/
def windowFor (ws : Vector Window 9) (a : NetAddr) : Fin 9 :=
  (([0, 1, 2, 3, 4, 5, 6, 7] : List (Fin 9)).find? (fun i => (ws[i]).set.contains a)).getD 8

/-- A window's permission for a class (R77). -/
def WindowSettings.permission (w : WindowSettings) : StationClass → Permission
  | .passenger => w.passenger
  | .crew => w.crew
  | .operations => w.operations

/-- Whether a permission allows a direction (R87). -/
def Permission.allows : Permission → (up : Bool) → Bool
  | .both, _ => true
  | .up, u => u
  | .down, u => !u
  | .none, _ => false

/-- Whether a record is HELD or SPENT. -/
def StationState.unadmitted : StationState → Bool
  | .held | .spent => true
  | _ => false

/-- Whether a window permits a record in a direction (R87, R88): by the permission for its class, and for a HELD or
SPENT passenger at an unmetered window only where the window is open. -/
def WindowSettings.permits (w : WindowSettings) (st : Station) (up : Bool) : Bool :=
  (w.permission st.cls).allows up &&
    (!(decide (st.cls = .passenger) && st.state.unadmitted && !w.metered) || w.opened)

/-- The result of a classification (R90). -/
structure Classified where
  window : Option (Fin 9)
  metered : Bool
  permitted : Bool
  deriving DecidableEq, Repr

/-- Classify a frame of or to a record in a direction (R84 to R90): `addr` is `none` for a link frame, which is
unmetered and permitted with no window. -/
def classify (ws : Vector Window 9) (st : Station) (up : Bool) (addr : Option NetAddr) : Classified :=
  match addr with
  | none => { window := none, metered := false, permitted := true }
  | some a =>
    let i := windowFor ws a
    { window := some i, metered := (ws[i]).set.metered, permitted := (ws[i]).set.permits st up }

/-- The counts of a window at a classification (R90). -/
def Window.countResult (up permitted : Bool) (w : Window) : Window :=
  { w with
    up := if up then w.up + 1 else w.up
    down := if up then w.down else w.down + 1
    refused := if permitted then w.refused else w.refused + 1 }

/-- Count a classification in the window table (R90). -/
def countClassified (up : Bool) (r : Classified) (s : State) : State :=
  { s with windows := match r.window with
      | none => s.windows
      | some i => s.windows.set i ((s.windows[i]).countResult up r.permitted) }

/-! ## Upward intake -/

/-- Whether an end is shedding (R18). -/
def shedding (s : State) (x : End) : Bool := (s.ports.endOf x).overrun && decide (s.hold.action = .shed)

/-- Whether the lead end is shedding. -/
def leadShedding (s : State) : Bool :=
  match s.consist.lead with
  | none => false
  | some x => shedding s x

/-- Whether Cell Memory is in PRESSURE. -/
def inPressure (s : State) : Bool := decide (s.hub.cells.pressure = .pressure)

/-- The counters of a record at the queueing of an upward frame (R39). -/
def StationCounters.countUp (L : Nat) (metered : Bool) (c : StationCounters) : StationCounters :=
  { c with
    upFrames := c.upFrames + 1
    upBytes := c.upBytes + BitVec.ofNat 48 L
    upMetered := if metered then c.upMetered + BitVec.ofNat 48 L else c.upMetered }

/-- The counters of a record at the enqueue of a downward unicast (R39). -/
def StationCounters.countDown (L : Nat) (metered : Bool) (c : StationCounters) : StationCounters :=
  { c with
    downFrames := c.downFrames + 1
    downBytes := c.downBytes + BitVec.ofNat 48 L
    downMetered := if metered then c.downMetered + BitVec.ofNat 48 L else c.downMetered }

/-- Whether a frame goes to its record's upward queue and not the onboard queue (R133). -/
def usesOwnQueue (st : Station) (metered : Bool) : Bool :=
  decide (st.state = .admitted) && (metered || decide (st.cls ≠ .passenger))

/-- Fill in a frame's metered result and station, and count its first reference (R24, R25). -/
def Hub.placeFrame (id : Nat) (k : Option (Fin 256)) (metered : Bool) (h : Hub) : Hub :=
  { h with cells := h.cells.modFrame id (fun f => { f with metered := metered, station := k, refs := f.refs + 1 }) }

/-- Enter an upward frame in its queue (R133). -/
def enterUpward (k : Fin 256) (st : Station) (id L : Nat) (metered : Bool) (s : State) : State :=
  { s with
    hub := s.hub.placeFrame id (some k) metered
    table := s.table.modStation k (fun r =>
      { r with
        ctr := r.ctr.countUp L metered
        upq := if usesOwnQueue st metered then r.upq ++ [id] else r.upq })
    up := if usesOwnQueue st metered then s.up else { s.up with onboard := s.up.onboard ++ [id] } }

/-- The reason for which upward intake discards a frame (R131, checks 1 to 7), or none. -/
def upwardDiscard (s : State) (st : Station) (r : Classified) : Option Discard :=
  if !r.permitted then some .window
  else if r.metered && decide (st.state ≠ .admitted) then some .notAdmitted
  else if decide (st.cls = .passenger) && inPressure s then some .pressure
  else if decide (st.cls = .passenger) && leadShedding s then some .shed
  else if usesOwnQueue st r.metered then (if st.upq.length ≥ 24 then some .queueFull else none)
  else if s.up.onboard.length ≥ 128 then some .queueFull
  else none

/-- Upward intake of an attributed frame (R131 to R133). `p` is its arrival port, `addr` its destination network
address or none for a link frame. A frame discarded SHED counts one tx drop of the lead end (R132). -/
def upwardIntake (k : Fin 256) (p : Port) (id L : Nat) (addr : Option NetAddr) (s : State) : State :=
  match s.station? k with
  | none => s
  | some st =>
    match st.state with
    | .barred _ => discardFrame .barred p none (some k) id s
    | _ =>
      let r := classify s.windows st true addr
      let s1 := countClassified true r s
      match upwardDiscard s1 st r with
      | some why =>
        discardFrame why p (if why = .shed then s.consist.lead.map Port.backbone else none) (some k) id s1
      | none => enterUpward k st id L r.metered s1

/-! ## The outgoing hold state (R14, R15) -/

/-- A transit queue toward `y` has grown: with 96 or more and no hold outstanding, the end that feeds it builds a hold
and starts the repeat timer (R14). -/
def afterEnqueue (y : End) (s : State) : State :=
  { s with ports :=
      if 96 ≤ (s.ports.endOf y).transit.length ∧ (s.ports.endOf y.other).outstanding = false then
        s.ports.modEnd y.other (fun e =>
          { e with pendingHold := some 200, outstanding := true, repeatAt := some (s.now + 100) })
      else s.ports }

/-- A transit queue toward `y` has fallen: below 64 with a hold outstanding, the end that feeds it builds a release and
the timer stops (R14). -/
def afterFall (y : End) (s : State) : State :=
  { s with ports :=
      if (s.ports.endOf y).transit.length < 64 ∧ (s.ports.endOf y.other).outstanding = true then
        s.ports.modEnd y.other (fun e =>
          { e with pendingHold := some 0, outstanding := false, repeatAt := none })
      else s.ports }

/-! ## Transit (R163) -/

/-- The reason for which a frame is not entered in the transit queue toward `y` (R163, checks 1 to 3), or none. -/
def transitRefusal (s : State) (y : End) : Option Discard :=
  if (s.ports.endOf y).unit.link = .down then some .endDown
  else if shedding s y then some .shed
  else if (s.ports.endOf y).transit.length ≥ 128 then some .queueFull
  else none

/-- Enter a frame at the end of the transit queue toward `y`. -/
def enterTransit (y : End) (id : Nat) (s : State) : State :=
  afterEnqueue y
    { s with
      hub := s.hub.addRef id
      ports := s.ports.modEnd y (fun e => { e with transit := e.transit ++ [id] }) }

/-- A copy that could not be made (R161): one count in the tally and one tx drop of its port. -/
def copyNotMade (why : Discard) (p : Port) (s : State) : State := txDrop p (tally why s)

/-- A unicast bound for transit, arriving on `x` (R163). -/
def transitUnicast (x : End) (id : Nat) (s : State) : State :=
  match transitRefusal s x.other with
  | some why => discardFrame why (.backbone x) (some (.backbone x.other)) none id s
  | none => enterTransit x.other id s

/-- A copy bound for transit, arriving on `x` (R161, R163). -/
def transitCopy (x : End) (id : Nat) (s : State) : State :=
  match transitRefusal s x.other with
  | some why => copyNotMade why (.backbone x.other) s
  | none => enterTransit x.other id s

/-- A received frame for which no entry was made is freed, with one rx discard of its port (R161, R163). -/
def freeIfUnplaced (p : Port) (id : Nat) (s : State) : State :=
  { s with
    hub := match s.hub.cells.frame? id with
      | some f => if f.refs = 0 then s.hub.freeFrame s.sender id else s.hub
      | none => s.hub
    ports := match s.hub.cells.frame? id with
      | some f => if f.refs = 0 then s.ports.count p PortCounters.rxDiscard else s.ports
      | none => s.ports }

/-! ## The input queue (R168) -/

/-- Offer a management frame to the input queue: it joins the end while the queue holds fewer than 4. -/
def enterInput (id : Nat) (level : Level) (p : Port) (s : State) : State :=
  { s with hub :=
      let h := s.hub.addRef id
      { h with mgmt := { h.mgmt with input := h.mgmt.input ++ [{ id := id, level := level, port := p }] } } }

/-- A management frame offered to a full input queue (R168): tally and flag. The rx discard and the freeing are its
caller's, as they depend on the transit part. -/
def inputOverflow (s : State) : State := onHub (fun h => Hub.flag .mgmtOverflow (Hub.tally .mgmtOverflow h)) s

/-- Offer a management frame that goes nowhere else (R168). -/
def offerUnicast (id : Nat) (level : Level) (p : Port) (s : State) : State :=
  if s.hub.mgmt.input.length < 4 then enterInput id level p s else freeIfUnplaced p id (inputOverflow s)

/-- A broadcast management frame on `x` (R163): offered to the input queue, and checked for transit; the two parts are
independent. -/
def offerBroadcast (id : Nat) (x : End) (s : State) : State :=
  let s1 :=
    if s.hub.mgmt.input.length < 4 then enterInput id .server (.backbone x) s else inputOverflow s
  freeIfUnplaced (.backbone x) id (transitCopy x id s1)

/-! ## Downward delivery (R155 to R157) -/

/-- The occupancy of the egress queue of an origin's port. -/
def egressLength (s : State) : Origin → Nat
  | .seat n => (s.ports.seats[n]).egress.length
  | .radio w _ => (s.ports.radios[w]).egress.length

/-- Enter a frame at the end of the egress queue of an origin, with the index on a radio (R74, R156). -/
def Ports.enterEgress (o : Origin) (id : Nat) (ps : Ports) : Ports :=
  match o with
  | .seat n => ps.modSeat n (fun q => { q with egress := q.egress ++ [id] })
  | .radio w i => ps.modRadio w (fun q => { q with egress := q.egress ++ [{ id := id, index := i }] })

/-- Enter a downward unicast and count it (R156). -/
def enterDownward (k : Fin 256) (o : Origin) (id L : Nat) (metered : Bool) (s : State) : State :=
  { s with
    hub := s.hub.placeFrame id (some k) metered
    ports := s.ports.enterEgress o id
    table := s.table.modStation k (fun r => { r with ctr := r.ctr.countDown L metered }) }

/-- The reason for which downward delivery discards a frame after its classification (R155, checks 3 to 6), or none. -/
def downwardDiscard (s : State) (st : Station) (r : Classified) : Option Discard :=
  if !r.permitted then some .window
  else if r.metered && decide (st.state ≠ .admitted) then some .notAdmitted
  else if decide (st.cls = .passenger) && inPressure s then some .pressure
  else if egressLength s st.origin ≥ 64 then some .queueFull
  else none

/-- Downward delivery of a unicast to the record in slot `k`, arriving on `x` (R155 to R157). -/
def downward (k : Fin 256) (x : End) (id L : Nat) (addr : Option NetAddr) (s : State) : State :=
  match s.station? k with
  | none => s
  | some st =>
    let bound := some st.origin.port
    match st.state with
    | .barred _ => discardFrame .barred (.backbone x) bound (some k) id s
    | .leaving _ => discardFrame .purge (.backbone x) bound (some k) id s
    | _ =>
      let r := classify s.windows st false addr
      let s1 := countClassified false r s
      match downwardDiscard s1 st r with
      | some why => discardFrame why (.backbone x) bound (some k) id s1
      | none =>
        let s2 := enterDownward k st.origin id L r.metered s1
        if r.metered then charge k .down L s2 else s2

/-! ## Multi-destination delivery (R160, R161) -/

/-- Whether a record makes its port a destination of multi-destination frames (R160). -/
def StationState.isLive : StationState → Bool
  | .held | .admitted | .spent => true
  | .barred _ | .leaving _ => false

/-- Whether a seat port has a live record. -/
def liveSeat (s : State) (n : Fin 32) : Bool :=
  !(s.table.slotsWhere (fun st => decide (st.origin = .seat n) && st.state.isLive)).isEmpty

/-- Whether a radio has a live record. -/
def liveRadio (s : State) (w : Fin 4) : Bool :=
  !(s.table.slotsWhere (fun st => st.origin.isRadio w && st.state.isLive)).isEmpty

/-- One local copy, at a port whose queue holds `n`: entered, or not made with QUEUE_FULL (R161). -/
def localCopy (o : Origin) (id : Nat) (s : State) : State :=
  if egressLength s o ≥ 64 then copyNotMade .queueFull o.port s
  else { s with hub := s.hub.addRef id, ports := s.ports.enterEgress o id }

/-- Multi-destination delivery of a frame arriving on `x` (R160): seats, then radios with index 255, then transit. -/
def multiDeliver (x : End) (id : Nat) (s : State) : State :=
  let s1 := (List.finRange 32).foldl (fun s n => if liveSeat s n then localCopy (.seat n) id s else s) s
  let s2 := (List.finRange 4).foldl (fun s w => if liveRadio s w then localCopy (.radio w 255) id s else s) s1
  freeIfUnplaced (.backbone x) id (transitCopy x id s2)

end Sys2Proof.Machine
end

