-- ==== Sys2Proof/Machine/Reception.lean ====
section
/-! DEFINITION. Reception (R5, R22, R23): taking the cells of a frame as its bytes arrive, losing a reception, and the
end of one; the sorting of received frames by type code (R6, R7). -/

namespace Sys2Proof.Machine

/-- Set a port's reception. -/
def setRx (p : Port) (r : Reception) (s : State) : State := onPorts (Ports.modUnit p (fun u => { u with rx := r })) s

/-- One rx discard of a port. -/
def rxDiscard (p : Port) (s : State) : State := onPorts (Ports.count p PortCounters.rxDiscard) s

/-- Return cells that never became a stored frame (R22, R23). -/
def giveBackCells (chain : List Nat) (s : State) : State := onHub (Hub.giveBack s.sender [] chain) s

/-- A reception on `p` needs one more cell (R22): the top of the stack; or, with the stack empty, the frame is discarded
(NO_CELLS), its cells go back and the rest of it is dropped. -/
def needCell (p : Port) (chain : List Nat) (s : State) : State :=
  match s.hub.cells.pop with
  | none => setRx p .dropping (giveBackCells chain (rxDiscard p (tally .noCells s)))
  | some (x, c) =>
    let e := c.testEnter
    setRx p (.taking (chain ++ [x])) (onHub (Hub.noteEntered s.sender e.2) { s with hub := { s.hub with cells := e.1 } })

/-- The chain a reception has taken. -/
def Reception.chain : Reception → List Nat
  | .taking c => c
  | _ => []

/-- A byte arrives on `p` that needs a new cell (R22). -/
def takeOneCell (p : Port) (s : State) : State :=
  match (s.ports.unitOf p).rx with
  | .idle => needCell p [] s
  | .taking chain => needCell p chain s
  | .dropping => s

/-- Take the cells a reception still needs, up to `n` of them. -/
def takeMissing (p : Port) : Nat → State → State
  | 0, s => s
  | n + 1, s => takeMissing p n (takeOneCell p s)

/-- The end of a reception of `L` bytes on `p`: the cells it still needs are taken. Where it has been discarded
(NO_CELLS) the chain is absent. The reception is over either way. -/
def endReception (p : Port) (L : Nat) (s : State) : Option (List Nat) × State :=
  let s1 := takeMissing p (cellsFor L - ((s.ports.unitOf p).rx.chain).length) s
  match (s1.ports.unitOf p).rx with
  | .dropping => (none, setRx p .idle s1)
  | r => (some r.chain, setRx p .idle s1)

/-- Whether a frame of `L` bytes can end on `p`: the port is UP, and the reception has not taken more cells than L
bytes need. -/
def canEnd (p : Port) (L : Nat) (s : State) : Bool :=
  decide ((s.ports.unitOf p).link = .up) && decide (((s.ports.unitOf p).rx.chain).length ≤ cellsFor L)

/-- A frame that fails its receive checks, or is valid nowhere (R5, R6, R22): discarded (WIRE), its cells returned. -/
def discardWire (p : Port) (chain : List Nat) (s : State) : State :=
  giveBackCells chain (rxDiscard p (tally .wire s))

/-- A frame in reception is lost when its port goes DOWN or at a warm reset (R1, R22): discarded (WIRE), its cells
pushed back. One already discarded (NO_CELLS) is only dropped. -/
def loseReception (p : Port) (s : State) : State :=
  match (s.ports.unitOf p).rx with
  | .idle => s
  | .dropping => setRx p .idle s
  | .taking chain => discardWire p chain (setRx p .idle s)

/-- The kind of a received frame by its type code (R24, R189). -/
def kindOfType (t : Nat) : FrameKind :=
  if t = typeIPv4 then .network else if t = typeMgmt then .management else .link

/-- The network address by which a frame is classified, or none for a link frame (R84, R86). -/
def netAddr (f : List Byte) (up : Bool) : Option NetAddr :=
  if typeOf f = typeIPv4 then some (if up then netDstOf f else netSrcOf f) else none

/-- Store a received frame (R20, R24): its bytes in its cells, its record with no reference yet, and the rx counters of
its port (R8). -/
def storeFrame (p : Port) (chain : List Nat) (f : List Byte) (s : State) : State :=
  let r : FrameRec :=
    { length := f.length, arrival := some p, kind := kindOfType (typeOf f), metered := false, chain := chain,
      refs := 0, station := none, failed := [] }
  { s with
    hub := { s.hub with cells := { s.hub.cells with
      data := s.hub.cells.data.writeChain chain f, frames := s.hub.cells.frames ++ [r] } }
    ports := s.ports.count p (fun c =>
      { c with rxFrames := c.rxFrames + 1, rxBytes := c.rxBytes + BitVec.ofNat 48 f.length }) }

/-- A frame has been received on `p` (R5, R6): what reached its end with its cells, and passed its checks, is handed to
`sort` with its chain. Nothing is received where the port is DOWN. -/
def received (p : Port) (f : List Byte) (wireOk : Bool) (sort : List Nat → State → State) (s : State) : State :=
  if canEnd p f.length s then
    match endReception p f.length s with
    | (none, s1) => s1
    | (some chain, s1) => if frameOk f wireOk then sort chain s1 else discardWire p chain s1
  else s

/-! ## Seat frames (R40 to R45) -/

/-- An origin conflict (R45, R65): the flag and the notice. -/
def originConflict (k : Fin 256) (st : Station) (attempt : Origin) (a : LinkAddr) (s : State) : State :=
  raiseNotice (.originConflict k st.origin attempt a) (onHub (Hub.flag .originConflict) s)

/-- Learning (R42): a frame from an unknown address on seat port `n`. MODEL'S CHOICE, log entry 34: at a failed creation
(R43) the flag and the TABLE_FULL notice come first, and the refused frame's cells go back after them. -/
def learn (n : Fin 32) (id : Nat) (f : List Byte) (s : State) : State :=
  if (s.table.onSeat n).length ≥ 2 then discardFrame .portCrowded (.seat n) none none id s
  else
    let d := (s.ports.seats[n]).designation.learns
    match createRecord (srcOf f) d.1 d.2 (.seat n) s with
    | (none, s1) => discardFrame .tableFull (.seat n) none none id s1
    | (some k, s1) => upwardIntake k (.seat n) id f.length (netAddr f true) (attributeFrame k id s1)

/-- A move to seat port `n` (R44): the origin changes, and the station's entries at the old port are discarded. -/
def moveSeat (k : Fin 256) (st : Station) (n : Fin 32) (s : State) : State :=
  purgeEgress k st.origin (onTable (StationTable.modStation k (fun r => { r with origin := .seat n })) s)

/-- A frame on seat port `n` from the address of the record in slot `k` (R40, R44, R45). MODEL'S CHOICE, log entry 34: at
an origin conflict the flag and the notice come first, and the refused frame's cells go back after them. -/
def seatKnown (k : Fin 256) (n : Fin 32) (id : Nat) (f : List Byte) (s : State) : State :=
  match s.station? k with
  | none => s
  | some st =>
    let intake (s : State) : State :=
      upwardIntake k (.seat n) id f.length (netAddr f true) (attributeFrame k id s)
    let conflict : State :=
      discardFrame .origin (.seat n) none (some k) id (originConflict k st (.seat n) (srcOf f) s)
    if st.isLeaving then discardFrame .purge (.seat n) none (some k) id s
    else
      match st.origin with
      | .radio _ _ => conflict
      | .seat m =>
        if m = n then intake s
        else if ((s.ports.seats[n]).designation.learns).1 ≠ st.cls then conflict
        else if (s.table.onSeat n).length ≥ 2 then discardFrame .portCrowded (.seat n) none (some k) id s
        else intake (moveSeat k st n s)

/-- A seat frame that is no hold frame, stored under `id` (R6, R7, R40). -/
def sortSeat (n : Fin 32) (id : Nat) (f : List Byte) (s : State) : State :=
  if typeOf f = typeMgmt then
    if (s.ports.seats[n]).designation = .crewMaint ∧ dstOf f = s.identity then offerUnicast id .crew (.seat n) s
    else discardFrame .mgmtRefused (.seat n) none none id s
  else if isGroup (srcOf f) then discardFrame .wire (.seat n) none none id s
  else
    match s.table.byAddr (srcOf f) with
    | none => learn n id f s
    | some k => seatKnown k n id f s

/-! ## Radio frames (R62, R63) -/

/-- A radio DATA frame that is no hold frame, stored under `id` (R6, R7, R62, R63). -/
def sortRadio (w : Fin 4) (index : Byte) (id : Nat) (f : List Byte) (s : State) : State :=
  if typeOf f = typeMgmt then discardFrame .mgmtRefused (.radio w) none none id s
  else if index.toNat ≥ 64 then discardFrame .unassociated (.radio w) none none id s
  else
    match s.table.atRadio w index.toNat with
    | none => discardFrame .unassociated (.radio w) none none id s
    | some k =>
      match s.station? k with
      | none => s
      | some st =>
        if st.addr ≠ srcOf f then discardFrame .origin (.radio w) none none id s
        else if st.isLeaving then discardFrame .purge (.radio w) none (some k) id s
        else upwardIntake k (.radio w) id f.length (netAddr f true) (attributeFrame k id s)

/-! ## Backbone frames (R6, R16, R153) -/

/-- A hold ends on an end: held-until and its start become absent, and the overrun ends (R16). -/
def BackboneEnd.endHold (e : BackboneEnd) : BackboneEnd :=
  { e with heldUntil := none, holdStart := none, overrun := false }

/-- A hold frame of duration `d` is taken by an end at a time (R16). -/
def BackboneEnd.takeHold (now d : Nat) (e : BackboneEnd) : BackboneEnd :=
  if d = 0 then { e.endHold with releasesReceived := e.releasesReceived + 1 }
  else
    { e with
      heldUntil := some (now + d)
      holdStart := if e.heldUntil.isSome then e.holdStart else some now
      holdsReceived := e.holdsReceived + 1 }

/-- A received hold frame on `x` (R16, R23, R192): read, its cells returned, and not kept. -/
def takeHoldFrame (x : End) (chain : List Nat) (f : List Byte) (s : State) : State :=
  onPorts (Ports.modEnd x (BackboneEnd.takeHold s.now (fieldAt f 14 2))) (giveBackCells chain s)

/-- A backbone frame that is no hold frame, stored under `id` (R153). -/
def sortBackbone (x : End) (id : Nat) (f : List Byte) (s : State) : State :=
  if typeOf f = typeMgmt then
    if dstOf f = s.identity then offerUnicast id .server (.backbone x) s
    else if isGroup (dstOf f) then offerBroadcast id x s
    else transitUnicast x id s
  else if dstOf f = s.identity then discardFrame .wire (.backbone x) none none id s
  else if isGroup (dstOf f) then multiDeliver x id s
  else
    match s.table.byAddr (dstOf f) with
    | none => transitUnicast x id s
    | some k => downward k x id f.length (netAddr f false) s

/-! ## Radio notices (R62 to R71) -/

/-- The new record of a creation on a radio, or a REFUSE order (R68); a record there discards the pending order for the
index (R65). -/
def radioCreate (w : Fin 4) (i : Nat) (a : LinkAddr) (s : State) : State :=
  match createRecord a .passenger .held (.radio w i) s with
  | (none, s1) => sendOrder w { kind := .refuse, index := i } s1
  | (some _, s1) => cancelOrder w i s1

/-- A roam (R69): the origin moves, the old unicasts are discarded, a pending order for the index goes, and the idle
timer restarts. -/
def roam (k : Fin 256) (st : Station) (w : Fin 4) (i : Nat) (s : State) : State :=
  let s1 := onTable (StationTable.modStation k (fun r => { r.touch s.now with origin := .radio w i })) s
  cancelOrder w i (purgeEgress k st.origin s1)

/-- A confirmation (R66): the idle timer restarts and the last frame time is the notice's arrival. -/
def confirm (k : Fin 256) (w : Fin 4) (i : Nat) (s : State) : State :=
  cancelOrder w i (onTable (StationTable.modStation k (Station.touch s.now)) s)

/-- Refuse an association (R65). -/
def refuseAssociation (w : Fin 4) (i : Nat) (s : State) : State := sendOrder w { kind := .refuse, index := i } s

/-- Creation or roam of `a` at a radio and index where nobody stands (R65, last two rows). -/
def settleAssociation (w : Fin 4) (i : Nat) (a : LinkAddr) (s : State) : State :=
  match s.table.byAddr a with
  | none => radioCreate w i a s
  | some k =>
    match s.station? k with
    | none => s
    | some st => roam k st w i s

/-- ASSOCIATED of `a` at a radio and index, by the occupant that stands there (R65, rows 4 to 7; R67). -/
def associateAt (w : Fin 4) (i : Nat) (a : LinkAddr) (s : State) : State :=
  match s.table.atRadio w i with
  | none => settleAssociation w i a s
  | some j =>
    match s.station? j with
    | none => s
    | some b =>
      if b.isLeaving then refuseAssociation w i s
      else
        let s1 := removeRecord j .disassociated s
        if (s1.station? j).isNone then settleAssociation w i a s1 else refuseAssociation w i s1

/-- ASSOCIATED of a station address at an index 0..63 (R65), by A's own record first. -/
def associate (w : Fin 4) (i : Nat) (a : LinkAddr) (s : State) : State :=
  match s.table.byAddr a with
  | none => associateAt w i a s
  | some k =>
    match s.station? k with
    | none => s
    | some st =>
      if st.isLeaving then refuseAssociation w i s
      else
        match st.origin with
        | .seat _ => refuseAssociation w i (originConflict k st (.radio w i) a s)
        | .radio v j => if v = w ∧ j = i then confirm k w i s else associateAt w i a s

/-- One notice taken on a radio (R8). -/
def noticeTaken (w : Fin 4) (s : State) : State :=
  onPorts (Ports.modRadio w (fun q => { q with noticesTaken := q.noticesTaken + 1 })) s

/-- One notice ignored on a radio (R8). -/
def noticeIgnored (w : Fin 4) (s : State) : State :=
  onPorts (Ports.modRadio w (fun q => { q with noticesIgnored := q.noticesIgnored + 1 })) s

/-- The acting on ASSOCIATED (R64, R65). -/
def takeAssociated (w : Fin 4) (index : Byte) (a : LinkAddr) (s : State) : State :=
  if index.toNat ≥ 64 then noticeIgnored w s
  else if isGroup a then noticeTaken w (refuseAssociation w index.toNat s)
  else noticeTaken w (associate w index.toNat a s)

/-- The acting on DISASSOCIATED (R70). -/
def takeDisassociated (w : Fin 4) (index : Byte) (s : State) : State :=
  if index.toNat ≥ 64 then noticeIgnored w s
  else
    match s.table.atRadio w index.toNat with
    | none => noticeIgnored w (cancelOrder w index.toNat s)
    | some k => noticeTaken w (removeRecord k .disassociated (cancelOrder w index.toNat s))

/-- The acting on RADIO_START (R71). -/
def takeRadioStart (w : Fin 4) (s : State) : State :=
  noticeTaken w (removeRecords .radioRestart (s.table.onRadio w)
    (onPorts (Ports.modRadio w (fun q => { q with orders := [] })) s))

/-- A radio notice, as its body gives it (R191). -/
inductive RadioNotice where
  | associated (index : Byte) (a : LinkAddr)
  | disassociated (index : Byte)
  | radioStart
  deriving DecidableEq, Repr

/-- The notice that the bytes behind a NOTICE header spell (R62, R191): its code is the body's first byte, its index the
second, its address the six after that; none for a code of no notice. The index of the header is not read. -/
def readNotice (f : List Byte) : Option RadioNotice :=
  match (byteAt f 0).toNat with
  | 1 => some (.associated (byteAt f 1) (addrAt f 2))
  | 2 => some (.disassociated (byteAt f 1))
  | 3 => some .radioStart
  | _ => none

/-- The length of a notice's body (R191). -/
def RadioNotice.bodyLength : RadioNotice → Nat
  | .associated _ _ => 8
  | .disassociated _ => 2
  | .radioStart => 1

/-- The acting on a notice that has passed its checks (R64 to R71). -/
def takeNotice (w : Fin 4) (n : RadioNotice) (s : State) : State :=
  match n with
  | .associated i a => takeAssociated w i a s
  | .disassociated i => takeDisassociated w i s
  | .radioStart => takeRadioStart w s

/-- A radio frame of `len` bytes behind its header that is no DATA frame ends its reception (R23, R62): its cells are
taken and returned; it is acted on where it is `good`, and discarded (WIRE) where not. -/
def receivedNotice (w : Fin 4) (len : Nat) (good : Bool) (act : State → State) (s : State) : State :=
  if canEnd (.radio w) len s then
    match endReception (.radio w) len s with
    | (none, s1) => s1
    | (some chain, s1) =>
      if good then act (giveBackCells chain s1) else discardWire (.radio w) chain s1
  else s

/-- The notice `n` has been received in a NOTICE frame of `len` bytes behind its header (R191): it is good where its wire
check passes and `len` is its body's length plus 4. -/
def receiveNotice (w : Fin 4) (n : RadioNotice) (len : Nat) (wireOk : Bool) (s : State) : State :=
  receivedNotice w len (wireOk && decide (len = n.bodyLength + 4)) (takeNotice w n) s

/-- A NOTICE frame with the bytes `f` behind its header has been received (R62, R191): the notice it spells; one of
unknown code is discarded (WIRE). -/
def receiveNoticeFrame (w : Fin 4) (f : List Byte) (wireOk : Bool) (s : State) : State :=
  match readNotice f with
  | some n => receiveNotice w n f.length wireOk s
  | none => receivedNotice w f.length false id s

end Sys2Proof.Machine
end

