-- ==== Sys2Proof/Machine/Arbiter.lean ====
section
/-! DEFINITION. The local arbiter (8.2): eligibility, the rotations, the passenger guarantee, runs, and the grant. -/

namespace Sys2Proof.Machine

/-- A record of a class is eligible in its class group (R137): ADMITTED, its upward queue not empty. -/
def Station.classEligible (c : StationClass) (st : Station) : Bool :=
  decide (st.cls = c) && decide (st.state = .admitted) && !st.upq.isEmpty

/-- R125. -/
def Station.creditEligible (st : Station) : Bool := st.classEligible .passenger && decide (0 < st.credit)

/-- R125, with the surplus pool. -/
def Station.surplusEligible (surplus : Int) (st : Station) : Bool :=
  st.classEligible .passenger && decide (0 < surplus)

/-- Whether the record in a slot meets a test and is not passed over for a frame in transmission (R137). -/
def mayServe (s : State) (test : Station → Bool) (k : Fin 256) : Bool :=
  match s.station? k with
  | some st => test st && !inFlight s k
  | none => false

/-- Rotation by slot (R139): the first slot after the pointer that meets a test, wrapping from 255 to 0, the pointer
itself last. -/
def rotate (ptr : Fin 256) (test : Fin 256 → Bool) : Option (Fin 256) :=
  ((List.finRange 256).map (fun i => ptr + 1 + i)).find? test

/-- Whether some passenger is credit-eligible or surplus-eligible (R140). -/
def passengerEligible (s : State) : Bool :=
  !(s.table.slotsWhere (fun st => st.creditEligible || st.surplusEligible s.sched.surplus)).isEmpty

/-- What the local arbiter grants: a record of the operations or crew group, the onboard head, a record of the credit
group (continuing its run or not), a record of the surplus group. -/
inductive Pick where
  | operations (k : Fin 256)
  | crew (k : Fin 256)
  | onboard
  | credit (k : Fin 256) (inRun : Bool)
  | surplus (k : Fin 256)
  deriving DecidableEq, Repr

/-- The operations group (R139). -/
def pickOperations (s : State) : Option Pick :=
  (rotate s.up.opsPtr (mayServe s (Station.classEligible .operations))).map .operations

/-- The crew group (R139). -/
def pickCrew (s : State) : Option Pick :=
  (rotate s.up.crewPtr (mayServe s (Station.classEligible .crew))).map .crew

/-- The onboard group (R137): its head, unless the record it names has an upward frame in transmission. -/
def pickOnboard (s : State) : Option Pick :=
  match s.up.onboard with
  | [] => none
  | id :: _ =>
    match s.hub.cells.owner id with
    | none => some .onboard
    | some k => if inFlight s k then none else some .onboard

/-- Whether the run in force goes on (R142): its holder is still credit-eligible with mode RUN in force, and fewer than
8 frames have been granted in it. -/
def runHolder (s : State) : Option (Fin 256) :=
  match s.up.run with
  | none => none
  | some r =>
    if r.granted < 8 ∧ mayServe s (fun st => st.creditEligible && decide (st.shaping.mode = .run)) r.holder = true then
      some r.holder
    else none

/-- The credit group (R141, R142). -/
def pickCredit (s : State) : Option Pick :=
  match runHolder s with
  | some k => some (.credit k true)
  | none => (rotate s.up.creditPtr (mayServe s Station.creditEligible)).map (fun k => .credit k false)

/-- The surplus group (R143). -/
def pickSurplus (s : State) : Option Pick :=
  (rotate s.up.surplusPtr (mayServe s (Station.surplusEligible s.sched.surplus))).map .surplus

/-- Whether the passenger guarantee is due (R140). -/
def guaranteeDue (s : State) : Bool :=
  decide (1 ≤ s.sched.params.m) && decide (s.sched.params.m ≤ s.up.guarantee)

/-- Whether groups 4 and 5 are tried first (R138). -/
def passengersFirst (s : State) : Bool := guaranteeDue s && passengerEligible s

/-- The local arbiter's answer (R138), or none when it has no frame. -/
def localPick (s : State) : Option Pick :=
  let service := (pickOperations s).or ((pickCrew s).or (pickOnboard s))
  let passengers := (pickCredit s).or (pickSurplus s)
  if passengersFirst s then passengers.or service else service.or passengers

/-- The guarantee count after a grant from groups 1 to 3 (R140). -/
def guaranteeAfter (s : State) : Nat := if passengerEligible s then min (s.up.guarantee + 1) 15 else 0

/-- The run after a grant from groups 1 to 3: kept, unless the credit group was tried first and had nothing (R142). -/
def runAfterService (s : State) : Option Run := if passengersFirst s then none else s.up.run

/-- The length of a stored frame. -/
def frameLength (s : State) (id : Nat) : Nat := ((s.hub.cells.frame? id).map (·.length)).getD 0

/-- The reference at the head of a record's upward queue. -/
def headOf (s : State) (k : Fin 256) : Option Nat := (s.station? k).bind (·.upq.head?)

/-- The head of a record's upward queue leaves it. -/
def Station.popHead (st : Station) : Station := { st with upq := st.upq.tail }

/-- A credit grant of L bytes (R126). -/
def Station.creditGrant (L : Nat) (epoch : Count32) (st : Station) : Station :=
  { st.popHead with credit := st.credit - L, lastGrant := some epoch }

/-- A surplus grant (R127), as far as it touches the record. -/
def Station.surplusGrant (epoch : Count32) (st : Station) : Station := { st.popHead with lastGrant := some epoch }

/-- The run that a credit grant to `k` leaves (R141, R142): the run in force with one more frame, or the run that the
grant begins; none where the grant takes the last entry of the queue of `k`, which ends it. A credit that the grant brings
to 0 or below ends it when the credit group is tried next (log entry 14). -/
def runAfterCredit (s : State) (k : Fin 256) (inRun : Bool) : Option Run :=
  match s.station? k with
  | some st =>
    runOnQueue k st.upq.tail
      (if inRun then s.up.run.map (fun r => { r with granted := r.granted + 1 })
      else if st.shaping.mode = .run then some { holder := k, granted := 1 } else none)
  | none => none

/-- Take the grant (R139 to R144): the frame granted, and every change of the arbiter's state and of credit, surplus
and last grant epoch, made at the grant. -/
def takeGrant (p : Pick) (s : State) : Option (Nat × State) :=
  match p with
  | .operations k =>
    (headOf s k).map (fun id => (id, { s with
      table := s.table.modStation k Station.popHead
      up := { s.up with opsPtr := k, guarantee := guaranteeAfter s, run := runAfterService s } }))
  | .crew k =>
    (headOf s k).map (fun id => (id, { s with
      table := s.table.modStation k Station.popHead
      up := { s.up with crewPtr := k, guarantee := guaranteeAfter s, run := runAfterService s } }))
  | .onboard =>
    s.up.onboard.head?.map (fun id => (id, { s with
      up := { s.up with onboard := s.up.onboard.tail, guarantee := guaranteeAfter s, run := runAfterService s } }))
  | .credit k inRun =>
    (headOf s k).map (fun id => (id, { s with
      table := s.table.modStation k (Station.creditGrant (frameLength s id) s.sched.number)
      up := { s.up with
        creditPtr := if inRun then s.up.creditPtr else k
        run := runAfterCredit s k inRun
        guarantee := 0 } }))
  | .surplus k =>
    (headOf s k).map (fun id => (id, { s with
      table := s.table.modStation k (Station.surplusGrant s.sched.number)
      sched := { s.sched with surplus := s.sched.surplus - frameLength s id }
      up := { s.up with surplusPtr := k, run := none, guarantee := 0 } }))

/-- Ask the local arbiter (R138): the frame it grants, and the state after the grant. -/
def grantLocal (s : State) : Option (Nat × State) := (localPick s).bind (fun p => takeGrant p s)

end Sys2Proof.Machine
end

