-- ==== Sys2Proof/Machine/Transmit.lean ====
section
/-! DEFINITION. Transmission (R9, R10): starting a frame with its check codes tested, failed starts and withdrawal
(R29), the choice of each kind of port (R9, R145 to R147), completion, and abort. -/

namespace Sys2Proof.Machine

/-- Set a port's transmission in progress. -/
def setTx (p : Port) (t : Option Transmission) (s : State) : State := onPorts (Ports.modUnit p (fun u => { u with tx := t })) s

/-! ## Withdrawal and failed starts (R29) -/

/-- Withdraw a frame from a seat port's egress queue. -/
def withdrawSeat (id : Nat) (n : Fin 32) (s : State) : State :=
  let q := (s.ports.seats[n]).egress
  discardEntries .memory (some (.seat n)) (q.filter (fun j => decide (j = id)))
    (onPorts (Ports.modSeat n (fun p => { p with egress := q.filter (fun j => decide (j ≠ id)) })) s)

/-- Withdraw a frame from a radio's egress queue. -/
def withdrawRadio (id : Nat) (w : Fin 4) (s : State) : State :=
  let q := (s.ports.radios[w]).egress
  discardEntries .memory (some (.radio w)) ((q.map (·.id)).filter (fun j => decide (j = id)))
    (onPorts (Ports.modRadio w (fun p => { p with egress := q.filter (fun e => decide (e.id ≠ id)) })) s)

/-- Withdraw a frame from the transit queue toward an end, whose fall may bring a release (R14). -/
def withdrawTransit (id : Nat) (x : End) (s : State) : State :=
  let q := (s.ports.endOf x).transit
  let mine := q.filter (fun j => decide (j = id))
  let s1 := discardEntries .memory (some (.backbone x)) mine
    (onPorts (Ports.modEnd x (fun e => { e with transit := q.filter (fun j => decide (j ≠ id)) })) s)
  if mine.isEmpty then s1 else afterFall x s1

/-- Withdraw a frame from the onboard queue and from the upward queue of the station it names, whose run ends where this
empties its queue (R142, R144). -/
def withdrawUpward (id : Nat) (s : State) : State :=
  let mineOn := s.up.onboard.filter (fun j => decide (j = id))
  let owner := s.hub.cells.owner id
  let mineUp := match owner.bind (fun k => s.station? k) with
    | some st => st.upq.filter (fun j => decide (j = id))
    | none => []
  discardEntries .memory none (mineOn ++ mineUp)
    { s with
      up := { s.up with
        onboard := s.up.onboard.filter (fun j => decide (j ≠ id))
        run := match owner.bind (fun k => (s.station? k).map (fun st => (k, st))) with
          | some (k, st) => runOnQueue k (st.upq.filter (fun j => decide (j ≠ id))) s.up.run
          | none => s.up.run }
      table := s.table.modStation? owner (fun st => { st with upq := st.upq.filter (fun j => decide (j ≠ id)) }) }

/-- Withdraw a request from the input queue: it gets no reply (R29). -/
def withdrawInput (id : Nat) (s : State) : State :=
  let q := s.hub.mgmt.input
  discardEntries .memory none ((q.map (·.id)).filter (fun j => decide (j = id)))
    { s with hub := { s.hub with mgmt := { s.hub.mgmt with input := q.filter (fun e => decide (e.id ≠ id)) } } }

/-- Withdraw a frame from every queue that still holds it (R29, step 2). -/
def withdraw (id : Nat) (s : State) : State :=
  let s1 := (List.finRange 32).foldl (fun s n => withdrawSeat id n s) s
  let s2 := (List.finRange 4).foldl (fun s w => withdrawRadio id w s) s1
  let s3 := withdrawTransit id .bb (withdrawTransit id .ba s2)
  withdrawInput id (withdrawUpward id s3)

/-- A start of `f` on `p` has failed (R29): its entry is discarded (MEMORY), the frame is withdrawn everywhere, and
MEMORY_ERROR is raised. `bad` are the cells that gave a multi-bit error. -/
def failStart (p : Port) (f : FrameRec) (bad : List Nat) (s : State) : State :=
  raiseNotice (.memoryError (bad.headD 0) bad.length f.kind p)
    (withdraw f.id (discardEntry .memory (some p) f.id s))

/-- Start the frame `id` on `p` as the transmission `t`: its cells are read and tested (R9, R27). The first part says
whether the start stands. The entry has left its queue already. -/
def tryStart (p : Port) (id : Nat) (t : Transmission) (s : State) : Bool × State :=
  match s.hub.cells.frame? id with
  | none => (false, s)
  | some f =>
    let r := s.hub.readFrame f (some p)
    if r.1.isEmpty then (true, setTx p (some t) { s with hub := r.2 })
    else (false, failStart p f r.1 { s with hub := r.2 })

/-- Start the BUILT reply of slot `k` on `p`; a failed start frees the slot with no reply sent (R30, R173). -/
def startReply (p : Port) (k : Fin 4) (s : State) : Bool × State :=
  match s.hub.mgmt.slots[k] with
  | .built h id =>
    let s1 := { s with hub := { s.hub with mgmt := { s.hub.mgmt with
      slots := s.hub.mgmt.slots.set k (.sending h id),
      builtOrder := s.hub.mgmt.builtOrder.filter (fun j => decide (j ≠ k)) } } }
    let r := tryStart p id (.reply id k) s1
    if r.1 then r else (false, onHub (Hub.freeSlot k) r.2)
  | _ => (false, s)

/-- Start the head of the notice queue on `p`, addressed to the report address in force (R176); when it has left the
queue, NOTICES_LOST is tried (R177). -/
def startNotice (p : Port) (id : Nat) (dest : LinkAddr) (s : State) : Bool × State :=
  let s1 := { s with hub := { s.hub with mgmt := { s.hub.mgmt with notices := s.hub.mgmt.notices.tail } } }
  let r := tryStart p id (.notice id dest) s1
  if r.1 then
    (true, onHub (fun h => let q := h.reportLost r.2.sender; q.1.noteEntered r.2.sender q.2) r.2)
  else r

/-! ## What each port starts -/

/-- A seat port (R9): a waiting reply first, then the head of its egress queue; a failed start goes on to the next
candidate. `fuel` bounds the failed starts: each takes one frame out of every queue. -/
def startSeat : Nat → Fin 32 → State → State
  | 0, _, s => s
  | fuel + 1, n, s =>
    match repliesFor s.hub.mgmt (.seat n) with
    | k :: _ =>
      let r := startReply (.seat n) k s
      if r.1 then r.2 else startSeat fuel n r.2
    | [] =>
      match (s.ports.seats[n]).egress with
      | [] => s
      | id :: rest =>
        let r := tryStart (.seat n) id (.frame id) (onPorts (Ports.modSeat n (fun q => { q with egress := rest })) s)
        if r.1 then r.2 else startSeat fuel n r.2

/-- A radio link (R9, R73, R74): its head order first, then the head of its egress queue. -/
def startRadio : Nat → Fin 4 → State → State
  | 0, _, s => s
  | fuel + 1, w, s =>
    match (s.ports.radios[w]).orders with
    | o :: rest => setTx (.radio w) (some (.order o)) (onPorts (Ports.modRadio w (fun q => { q with orders := rest })) s)
    | [] =>
      match (s.ports.radios[w]).egress with
      | [] => s
      | e :: rest =>
        let r := tryStart (.radio w) e.id (.radioFrame e.id e.index)
          (onPorts (Ports.modRadio w (fun q => { q with egress := rest })) s)
        if r.1 then r.2 else startRadio fuel w r.2

/-- The head of the transit queue toward `x` leaves it for a transmission; the fall may bring a release (R146). -/
def takeTransit (x : End) (rest : List Nat) (s : State) : State :=
  afterFall x (onPorts (Ports.modEnd x (fun e => { e with transit := rest })) s)

/-- Whether transit is chosen where transit and local both have something (R146). -/
def transitChosen (n : Nat) (e : BackboneEnd) : Bool := if n = 0 then !e.lastTransit else decide (e.streak < n)

/-- The arbitration state of the lead end after a transit grant (R146). -/
def BackboneEnd.afterTransit (localHad : Bool) (e : BackboneEnd) : BackboneEnd :=
  { e with streak := if localHad then min (e.streak + 1) 7 else 0, lastTransit := true }

/-- The arbitration state of the lead end after a local grant (R146). -/
def BackboneEnd.afterLocal (e : BackboneEnd) : BackboneEnd := { e with streak := 0, lastTransit := false }

/-- Step 4 of the lead end's choice (R146): the frame chosen and the state with its grant made, or none. -/
def chooseShared (x : End) (s : State) : Option (Nat × State) :=
  let e := s.ports.endOf x
  let localHad := (localPick s).isSome
  match e.transit with
  | id :: rest =>
    if localHad && !transitChosen s.sched.params.n e then
      (grantLocal s).map (fun r => (r.1, onPorts (Ports.modEnd x BackboneEnd.afterLocal) r.2))
    else some (id, takeTransit x rest (onPorts (Ports.modEnd x (BackboneEnd.afterTransit localHad)) s))
  | [] => (grantLocal s).map (fun r => (r.1, onPorts (Ports.modEnd x BackboneEnd.afterLocal) r.2))

/-- The notice a lead end may send (R145, R176): the head of the queue, to the report address in force. -/
def noticeFor (x : End) (s : State) : Option (Nat × LinkAddr) :=
  if s.consist.lead = some x then
    match s.hub.mgmt.notices, s.hub.mgmt.reportAddr with
    | id :: _, some dest => some (id, dest)
    | _, _ => none
  else none

/-- The last source of an end (R145 step 4, R147 step 3): shared with local frames on the lead end, transit alone on the
other. -/
def chooseLast (x : End) (s : State) : Option (Nat × State) :=
  if s.consist.lead = some x then chooseShared x s
  else
    match (s.ports.endOf x).transit with
    | [] => none
    | id :: rest => some (id, takeTransit x rest s)

/-- A backbone end that is not held (R145, R147): replies, the head notice on the lead end, then the last source. -/
def startEnd : Nat → End → State → State
  | 0, _, s => s
  | fuel + 1, x, s =>
    match repliesFor s.hub.mgmt (.backbone x) with
    | k :: _ =>
      let r := startReply (.backbone x) k s
      if r.1 then r.2 else startEnd fuel x r.2
    | [] =>
      match noticeFor x s with
      | some (id, dest) =>
        let r := startNotice (.backbone x) id dest s
        if r.1 then r.2 else startEnd fuel x r.2
      | none =>
        match chooseLast x s with
        | none => s
        | some (id, s1) =>
          let r := tryStart (.backbone x) id (.frame id) s1
          if r.1 then r.2 else startEnd fuel x r.2

/-- What a port starts when it is UP and idle (R9): a backbone end sends its pending hold frame first, held or not, and
nothing else while it is held (R16). -/
def startPort (p : Port) (s : State) : State :=
  let fuel := s.hub.cells.frames.length + 1
  match p with
  | .seat n => startSeat fuel n s
  | .radio w => startRadio fuel w s
  | .backbone x =>
    match (s.ports.endOf x).pendingHold with
    | some d =>
      setTx (.backbone x) (some (.hold d)) (onPorts (Ports.modEnd x (fun e => { e with pendingHold := none })) s)
    | none => if (s.ports.endOf x).heldUntil.isSome then s else startEnd fuel x s

/-! ## Completion and abort (R10) -/

/-- Count a completed transmission of L bytes (R8). -/
def PortCounters.sent (L : Nat) (c : PortCounters) : PortCounters :=
  { c with txFrames := c.txFrames + 1, txBytes := c.txBytes + BitVec.ofNat 48 L }

/-- The station that a frame on a backbone end is an upward frame of, if it is one (R52). -/
def upwardOwner (p : Port) (id : Nat) (s : State) : Option (Fin 256) :=
  match p with
  | .backbone _ => s.hub.cells.owner id
  | _ => none

/-- Whether a stored frame is metered. -/
def isMetered (s : State) (id : Nat) : Bool := ((s.hub.cells.frame? id).map (·.metered)).getD false

/-- The allowance charge of a completed frame of L bytes (R96): a metered frame of a record is charged. -/
def chargeCompleted (owner : Option (Fin 256)) (metered : Bool) (L : Nat) (s : State) : State :=
  match owner with
  | some k => if metered then charge k .up L s else s
  | none => s

/-- Free the LEAVING record whose frame has ended (R56). -/
def settleOwner (k : Option (Fin 256)) (s : State) : State :=
  match k with
  | some j => freeIfLeaving j s
  | none => s

/-- The end of a completed transmission on its port (R10): the port is idle, counts the frame, and drops the
transmission's reference. -/
def endSent (p : Port) (id : Nat) (s : State) : State :=
  onHub (Hub.dropRef s.sender id) (onPorts (Ports.count p (PortCounters.sent (frameLength s id))) (setTx p none s))

/-- The transmission of a stored frame on `p` completes (R10, R56, R96, R149): counted, its reference dropped, then
charged, and then a LEAVING record freed. What the charge needs of the frame is read before the frame is freed. -/
def completeFrame (p : Port) (id : Nat) (s : State) : State :=
  let owner := upwardOwner p id s
  settleOwner owner (chargeCompleted owner (isMetered s id) (frameLength s id) (endSent p id s))

/-- The transmission of a reply completes (R10, R173): counted, its reference dropped, and then its slot FREE. -/
def completeReply (p : Port) (id : Nat) (k : Fin 4) (s : State) : State := onHub (Hub.freeSlot k) (endSent p id s)

/-- A hold frame has been sent (R15): counted in holds sent or releases sent. -/
def BackboneEnd.countHold (d : Nat) (e : BackboneEnd) : BackboneEnd :=
  if d = 0 then { e with releasesSent := e.releasesSent + 1 } else { e with holdsSent := e.holdsSent + 1 }

/-- A hold frame's transmission completes on `p`. -/
def completeHold (p : Port) (d : Nat) (s : State) : State :=
  match p with
  | .backbone x => onPorts (Ports.modEnd x (BackboneEnd.countHold d)) (setTx p none s)
  | _ => setTx p none s

/-- An order's transmission completes on `p` (R73). -/
def completeOrder (p : Port) (s : State) : State :=
  match p with
  | .radio w => onPorts (Ports.modRadio w (fun q => { q with ordersSent := q.ordersSent + 1 })) (setTx p none s)
  | _ => setTx p none s

/-- The transmission in progress on `p` completes (R10). -/
def completeTx (p : Port) (t : Transmission) (s : State) : State :=
  match t with
  | .frame id => completeFrame p id s
  | .radioFrame id _ => completeFrame p id s
  | .reply id k => completeReply p id k s
  | .notice id _ => completeFrame p id s
  | .hold d => completeHold p d s
  | .order _ => completeOrder p s

/-- The transmission of the stored frame `id` on `p` is aborted (R8, R10): counted ABORTED in the tally, one tx drop of
`p`, and one rx discard of the port the frame was received on (log entry 5). -/
def countAborted (p : Port) (id : Nat) (s : State) : State :=
  { s with
    hub := s.hub.tally .aborted
    ports := ((s.ports.modUnit p (fun u => { u with tx := none })).count p PortCounters.txDrop).count?
      (s.hub.cells.rxPort id) PortCounters.rxDiscard }

/-- The transmission in progress on `p`, if there is one, is aborted because the port goes DOWN (R2 to R4, R10): a reply
frees its slot, a record that was LEAVING for the frame is freed, an order or hold frame is lost uncounted. -/
def abortTx (p : Port) (s : State) : State :=
  match (s.ports.unitOf p).tx with
  | none => s
  | some (.hold _) => setTx p none s
  | some (.order _) => setTx p none s
  | some (.reply id k) => onHub (fun h => (Hub.dropRef s.sender id h).freeSlot k) (countAborted p id s)
  | some (.notice id _) => onHub (Hub.dropRef s.sender id) (countAborted p id s)
  | some (.radioFrame id _) => onHub (Hub.dropRef s.sender id) (countAborted p id s)
  | some (.frame id) => settleOwner (upwardOwner p id s) (onHub (Hub.dropRef s.sender id) (countAborted p id s))

end Sys2Proof.Machine
end

