-- ==== Sys2Proof/Machine/FrameCommands.lean ====
section
/-! DEFINITION. The commands by which cells are taken and frames and radio notices arrive, and those by which
transmissions start and complete (chapters 1, 2, 4, 9). -/

namespace Sys2Proof.Machine

/-- TAKE_CELL (R22); nothing arrives on a port that is DOWN. -/
def execTakeCell (p : Port) (s : State) : Host.Outcome State Fault Refusal :=
  .next (if (s.ports.unitOf p).link = .up then takeOneCell p s else s)

/-- The reference a frame gets: its first cell (R24). -/
def firstCell (chain : List Nat) : Nat := chain.headD 0

/-- SEAT_FRAME_RECEIVED (R5, R6, R40): a hold type code is not valid from a station. -/
def execSeatFrameReceived (n : Fin 32) (f : List Byte) (ok : Bool) (s : State) : Host.Outcome State Fault Refusal :=
  .next (received (.seat n) f ok
    (fun chain s =>
      if typeOf f = typeHold then discardWire (.seat n) chain s
      else sortSeat n (firstCell chain) f (storeFrame (.seat n) chain f s)) s)

/-- RADIO_DATA_FRAME_RECEIVED (R5, R6, R62, R63): a whole radio frame behind its header. A DATA frame is sorted; the
notice in a NOTICE frame is read from its body and taken as by its own row (R191, log entry 2); a frame of any other kind
is discarded (WIRE). -/
def execRadioDataFrameReceived (w : Fin 4) (kind index : Byte) (f : List Byte) (ok : Bool) (s : State) :
    Host.Outcome State Fault Refusal :=
  .next
    (if kind = 1 then
      received (.radio w) f ok
        (fun chain s =>
          if typeOf f = typeHold then discardWire (.radio w) chain s
          else sortRadio w index (firstCell chain) f (storeFrame (.radio w) chain f s)) s
    else if kind = 2 then receiveNoticeFrame w f ok s
    else receivedNotice w f.length false id s)

/-- ASSOCIATED (R64 to R69, R191), with the index and the address that `readNotice` finds in the body. -/
def execAssociated (w : Fin 4) (index : Byte) (a : LinkAddr) (len : Nat) (ok : Bool) (s : State) :
    Host.Outcome State Fault Refusal :=
  .next (receiveNotice w (.associated index a) len ok s)

/-- DISASSOCIATED (R70, R191), with the index that `readNotice` finds in the body. -/
def execDisassociated (w : Fin 4) (index : Byte) (len : Nat) (ok : Bool) (s : State) :
    Host.Outcome State Fault Refusal :=
  .next (receiveNotice w (.disassociated index) len ok s)

/-- RADIO_START (R71, R191). -/
def execRadioStart (w : Fin 4) (len : Nat) (ok : Bool) (s : State) : Host.Outcome State Fault Refusal :=
  .next (receiveNotice w .radioStart len ok s)

/-- BACKBONE_FRAME_RECEIVED (R6, R153): a frame with the hold type code is taken by the end unit. -/
def execBackboneFrameReceived (x : End) (f : List Byte) (ok : Bool) (s : State) : Host.Outcome State Fault Refusal :=
  .next (received (.backbone x) f ok
    (fun chain s =>
      if typeOf f = typeHold then takeHoldFrame x chain f s
      else sortBackbone x (firstCell chain) f (storeFrame (.backbone x) chain f s)) s)

/-- HOLD_FRAME_RECEIVED (R5, R16, R192). A frame that passes its checks without the hold type code is a command of
another row, and changes nothing here. -/
def execHoldFrameReceived (x : End) (f : List Byte) (ok : Bool) (s : State) : Host.Outcome State Fault Refusal :=
  .next
    (if frameOk f ok = true ∧ typeOf f ≠ typeHold then s
    else received (.backbone x) f ok (fun chain s => takeHoldFrame x chain f s) s)

/-- TRANSMISSION_START (R9): on a port that is UP with nothing in transmission. -/
def execTransmissionStart (p : Port) (fs : List CellFault) (s : State) : Host.Outcome State Fault Refusal :=
  .next
    (if (s.ports.unitOf p).link = .up ∧ (s.ports.unitOf p).tx = none then startPort p (withFaults fs s) else s)

/-- TRANSMISSION_COMPLETE (R10). -/
def execTransmissionComplete (p : Port) (s : State) : Host.Outcome State Fault Refusal :=
  .next (match (s.ports.unitOf p).tx with
    | none => s
    | some t => completeTx p t s)

/-- BUILD_WAITING_REPLY (R172): the oldest waiting reply, once the stack holds enough cells. -/
def execBuildWaitingReply (s : State) : Host.Outcome State Fault Refusal := .next (buildOldest s)

/-- The moment at which a record's idle timer expires (R46): never with an idle interval of 0 or in LEAVING. -/
def Station.expiresAt (st : Station) : Option Nat :=
  if st.idle = 0 ∨ st.isLeaving = true then none else some (st.idleStart + 100000 * st.idle)

/-- IDLE_TIMER_EXPIRY (R46): the moment comes, if it has not yet, and the record is removed with reason AGED; nothing
where no timer runs. -/
def execIdleTimerExpiry (k : Fin 256) (s : State) : Host.Outcome State Fault Refusal :=
  .next (match (s.station? k).bind Station.expiresAt with
    | none => s
    | some t => removeRecord k .aged (waitUntil t s))

end Sys2Proof.Machine
end

