-- ==== Sys2Proof/Machine/ManagementCommands.lean ====
section
/-! DEFINITION. The requests on windows (chapter 5), the memory marks (chapter 2), the consist (chapter 9), the status
record, snapshots and the store (chapter 10), and the taking of a request whose code is none of the part's. -/

namespace Sys2Proof.Machine

/-! ## Windows -/

/-- Write a window's settings; its three counts become 0 (R80). -/
def writeWindow (i : Fin 9) (w : WindowSettings) (s : State) : State :=
  { s with windows := s.windows.set i { set := w } }

/-- The rule of WRITE_WINDOW (R80). -/
def ruleWriteWindow (k : Fin 4) (r : Request) (s : State) : State :=
  if h : r.num 0 1 < 9 then
    let i : Fin 9 := ⟨r.num 0 1, h⟩
    match readWindowSettings r i (s.windows[i]).set with
    | none => refuse k .badValue s
    | some w => answer k (windowView i { set := w }) (writeWindow i w s)
  else refuse k .badValue s

/-- WRITE_WINDOW (R80). -/
def execWriteWindow (fs : List CellFault) (s : State) : Host.Outcome State Fault Refusal :=
  .next (takeRequest (isCode 0x0D) fs ruleWriteWindow s)

/-- The rule of READ_WINDOW (R82). -/
def ruleReadWindow (k : Fin 4) (r : Request) (s : State) : State :=
  if h : r.num 0 1 < 9 then answerView k (.window ⟨r.num 0 1, h⟩) s else refuse k .badValue s

/-- READ_WINDOW (R82). -/
def execReadWindow (fs : List CellFault) (s : State) : Host.Outcome State Fault Refusal :=
  .next (takeRequest (isCode 0x0E) fs ruleReadWindow s)

/-! ## Memory marks -/

/-- The pressure state tested against the marks with cells held as it stands (R35, R36): entered from NORMAL, or left
from PRESSURE, each as R33 says. -/
def Hub.retest (sd : Sender) (h : Hub) : Hub :=
  match h.cells.pressure with
  | .normal => Hub.noteEntered sd h.cells.testEnter.2 { h with cells := h.cells.testEnter.1 }
  | .pressure => Hub.noteLeft sd h.cells.testLeave.2 { h with cells := h.cells.testLeave.1 }

/-- Put marks in force and test the state against them (R35). -/
def setMarks (high low : Nat) (s : State) : State :=
  onHub (fun h => Hub.retest s.sender { h with cells := { h.cells with high := high, low := low } }) s

/-- The rule of SET_MEMORY_LIMITS (R35): the high mark clamped first, then the low one below it. MODEL'S CHOICE, log
entry 33: where the PRESSURE notice (left) of this test takes cells that bring cells held to the high mark again, the
state in the reply is the one after that notice. -/
def ruleSetMemoryLimits (k : Fin 4) (r : Request) (s : State) : State :=
  let high := clampTo 64 3072 (r.num 0 2)
  let low := min (r.num 2 2) (high - 1)
  let s1 := setMarks high low s
  answer k (beBytes 2 high ++ beBytes 2 low ++ [s1.hub.cells.pressure.code]) s1

/-- SET_MEMORY_LIMITS (R35). -/
def execSetMemoryLimits (fs : List CellFault) (s : State) : Host.Outcome State Fault Refusal :=
  .next (takeRequest (isCode 0x12) fs ruleSetMemoryLimits s)

/-! ## The consist -/

/-- The rule of SET_CONSIST (R151). -/
def ruleSetConsist (k : Fin 4) (r : Request) (s : State) : State :=
  match leadOfCode (r.num 1 1) with
  | none => refuse k .badValue s
  | some lead =>
    if 63 < r.num 0 1 then refuse k .badValue s
    else
      answer k [BitVec.ofNat 8 (r.num 0 1), leadCode lead]
        { s with consist := { carriage := r.num 0 1, lead := lead } }

/-- SET_CONSIST (R151). -/
def execSetConsist (fs : List CellFault) (s : State) : Host.Outcome State Fault Refusal :=
  .next (takeRequest (isCode 0x13) fs ruleSetConsist s)

/-! ## The status record -/

/-- The rule of READ_STATUS (R180). -/
def ruleReadStatus (k : Fin 4) (_r : Request) (s : State) : State := answerView k .status s

/-- READ_STATUS (R180). -/
def execReadStatus (fs : List CellFault) (s : State) : Host.Outcome State Fault Refusal :=
  .next (takeRequest (isCode 0x14) fs ruleReadStatus s)

/-- Clear a flag and its count; with MEMORY_SINGLE and MEMORY_MULTI goes the matching capture (R32, R181). -/
def Hub.clearFlag (f : Flag) (h : Hub) : Hub :=
  { h with
    mgmt := { h.mgmt with flags := h.mgmt.flags.set f.index {} }
    cells := { h.cells with
      singleCapture := if f = .memorySingle then none else h.cells.singleCapture
      multiCapture := if f = .memoryMulti then none else h.cells.multiCapture } }

/-- The body of a CLEAR_STATUS reply: flag, pad, count as it stands. -/
def clearBody (code count : Nat) : List Byte := [BitVec.ofNat 8 code, 0] ++ beBytes 2 count

/-- The rule of CLEAR_STATUS (R181). -/
def ruleClearStatus (k : Fin 4) (r : Request) (s : State) : State :=
  match flagOfCode (r.num 0 1) with
  | none => refuse k .badValue s
  | some f =>
    if (s.hub.flagOf f).count = r.num 1 2 then answer k (clearBody (r.num 0 1) 0) (onHub (Hub.clearFlag f) s)
    else fixReply k (.fixed .stale (clearBody (r.num 0 1) (s.hub.flagOf f).count)) true s

/-- CLEAR_STATUS (R181). -/
def execClearStatus (fs : List CellFault) (s : State) : Host.Outcome State Fault Refusal :=
  .next (takeRequest (isCode 0x15) fs ruleClearStatus s)

/-! ## Snapshots -/

/-- The rule of SNAPSHOT (R182): refused while one is parked; taken at once in STOPPED; parked in RUNNING. -/
def ruleSnapshot (k : Fin 4) (_r : Request) (s : State) : State :=
  if snapshotParked s.hub.mgmt then refuse k .busy s
  else if s.sched.running then park k .snapshot s
  else answer k (snapshotReply (takeSnapshot s)) (takeSnapshot s)

/-- SNAPSHOT (R182). -/
def execSnapshot (fs : List CellFault) (s : State) : Host.Outcome State Fault Refusal :=
  .next (takeRequest (isCode 0x16) fs ruleSnapshot s)

/-- The rule of READ_SNAPSHOT (R183). -/
def ruleReadSnapshot (k : Fin 4) (r : Request) (s : State) : State :=
  if 15 < r.num 0 1 then refuse k .badValue s
  else if s.hub.mgmt.snapshot.isNone then refuse k .noSnapshot s
  else answerView k (.snapshotPage (r.num 0 1)) s

/-- READ_SNAPSHOT (R183). -/
def execReadSnapshot (fs : List CellFault) (s : State) : Host.Outcome State Fault Refusal :=
  .next (takeRequest (isCode 0x17) fs ruleReadSnapshot s)

/-! ## The store -/

/-- The settings in force that the store would hold (R184, R185). -/
def storeImage (s : State) : StoredSettings :=
  { designations := s.ports.seats.map (·.designation)
    windows := s.windows.map (·.set)
    params := s.sched.params
    high := s.hub.cells.high
    low := s.hub.cells.low
    hold := s.hold
    defaultIdle := s.hub.mgmt.defaultIdle
    reportAddr := s.hub.mgmt.reportAddr }

/-- Put the report address and the default idle interval in force (R185, step 1). -/
def setReport (report : Option LinkAddr) (idle : Nat) (s : State) : State :=
  { s with hub := { s.hub with mgmt := { s.hub.mgmt with reportAddr := report, defaultIdle := idle } } }

/-- Whether the store's check value passes is set (R186). -/
def setStore (st : Store) (s : State) : State := { s with hub := { s.hub with mgmt := { s.hub.mgmt with store := st } } }

/-- Start the write of an image (R185, R186): the store fails its check from now on, and the request parks. -/
def startSave (k : Fin 4) (s : State) : State :=
  park k (.save (storeImage s) s.now) (setStore { s.hub.mgmt.store with checkOk := false } s)

/-- The rule of SAVE_SETTINGS (R185). -/
def ruleSaveSettings (k : Fin 4) (r : Request) (s : State) : State :=
  if saveParked s.hub.mgmt then refuse k .busy s
  else
    match readReport r s.hub.mgmt.reportAddr, readIdle r s.hub.mgmt.defaultIdle with
    | some report, some idle => startSave k (setReport report idle s)
    | _, _ => refuse k .badValue s

/-- SAVE_SETTINGS (R185). -/
def execSaveSettings (fs : List CellFault) (s : State) : Host.Outcome State Fault Refusal :=
  .next (takeRequest (isCode 0x18) fs ruleSaveSettings s)

/-- The end of the store write of the SAVE_SETTINGS parked in slot `k` (R186). -/
def endSave (k : Fin 4) (image : StoredSettings) (accepted : Bool) (s : State) : State :=
  if accepted then fixReply k (.fixed .ok []) false (setStore { settings := image, checkOk := true } s)
  else fixReply k (.fixed .storeFailed []) false s

/-- STORE_WRITE_ENDS (R186); nothing while no write is under way. -/
def execStoreWriteEnds (accepted : Bool) (s : State) : Host.Outcome State Fault Refusal :=
  .next (match parkedSave s.hub.mgmt with
    | none => s
    | some (k, image, _) => endSave k image accepted s)

/-! ## A request whose code is none of the part's -/

/-- The row test of UNKNOWN_REQUEST_CODE (R170). -/
def isUnknownCode (rq : Request) : Bool := (requestInfo rq.code).isNone

/-- UNKNOWN_REQUEST_CODE (R170): taken into a slot and answered BAD_REQUEST, which is the common checks' own refusal. -/
def execUnknownRequestCode (fs : List CellFault) (s : State) : Host.Outcome State Fault Refusal :=
  .next (takeRequest isUnknownCode fs (fun k _ s => refuse k .badRequest s) s)

end Sys2Proof.Machine
end

