-- ==== Sys2Proof/Machine/PortCommands.lean ====
section
/-! DEFINITION. Chapter 1: links going up and down, the hold timers, SET_PORT, READ_PORT and SET_HOLD. -/

namespace Sys2Proof.Machine

/-- Set a port's link state. -/
def setLink (p : Port) (l : Link) (s : State) : State := onPorts (Ports.modUnit p (fun u => { u with link := l })) s

/-- Whether a port is held DOWN by the designation DISABLED (R1). -/
def heldDown (s : State) (p : Port) : Bool :=
  match p with
  | .seat n => decide ((s.ports.seats[n]).designation = .disabled)
  | _ => false

/-- LINK_UP (R1): a port that is DOWN and not held DOWN goes UP, with its LINK notice. -/
def execLinkUp (p : Port) (s : State) : Host.Outcome State Fault Refusal :=
  .next
    (if (s.ports.unitOf p).link = .down ∧ heldDown s p = false then raiseNotice (.link p .up) (setLink p .up s) else s)

/-- Discard every entry of a seat port's egress queue (PURGE). -/
def clearSeatEgress (n : Fin 32) (s : State) : State :=
  discardEntries .purge (some (.seat n)) (s.ports.seats[n]).egress
    (onPorts (Ports.modSeat n (fun q => { q with egress := [] })) s)

/-- Discard every entry of a radio's egress queue (PURGE). -/
def clearRadioEgress (w : Fin 4) (s : State) : State :=
  discardEntries .purge (some (.radio w)) ((s.ports.radios[w]).egress.map (·.id))
    (onPorts (Ports.modRadio w (fun q => { q with egress := [] })) s)

/-- Discard every entry of the transit queue toward an end (PURGE), with the release that the fall may bring. -/
def clearTransit (x : End) (s : State) : State :=
  afterFall x (discardEntries .purge (some (.backbone x)) (s.ports.endOf x).transit
    (onPorts (Ports.modEnd x (fun e => { e with transit := [] })) s))

/-- Discard a BUILT reply (PURGE) and release its slot (R2). -/
def discardReply (p : Port) (k : Fin 4) (s : State) : State :=
  match s.hub.mgmt.slots[k] with
  | .built _ id => discardEntry .purge (some p) id (onHub (Hub.freeSlot k) s)
  | _ => s

/-- Discard the replies waiting for a seat port (R2). -/
def discardReplies (p : Port) (s : State) : State :=
  (repliesFor s.hub.mgmt p).foldl (fun s k => discardReply p k s) s

/-- What a seat port's going DOWN does to it (R2), its records excepted: the abort, the frame in reception, the egress
queue and the waiting replies. -/
def seatLinkLost (n : Fin 32) (s : State) : State :=
  discardReplies (.seat n) (clearSeatEgress n (loseReception (.seat n) (abortTx (.seat n) (setLink (.seat n) .down s))))

/-- A seat port that is UP goes DOWN (R2). -/
def downSeat (n : Fin 32) (s : State) : State :=
  raiseNotice (.link (.seat n) .down) (removeRecords .link (s.table.onSeat n) (seatLinkLost n s))

/-- SEAT_PORT_DOWN (R2); nothing on a port already DOWN. -/
def execSeatPortDown (n : Fin 32) (s : State) : Host.Outcome State Fault Refusal :=
  .next (if (s.ports.seats[n]).unit.link = .up then downSeat n s else s)

/-- A radio link that is UP goes DOWN (R3). -/
def downRadio (w : Fin 4) (s : State) : State :=
  let s1 := clearRadioEgress w (loseReception (.radio w) (abortTx (.radio w) (setLink (.radio w) .down s)))
  let s2 := onPorts (Ports.modRadio w (fun q => { q with orders := [] })) s1
  raiseNotice (.link (.radio w) .down) (removeRecords .link (s2.table.onRadio w) s2)

/-- RADIO_LINK_DOWN (R3); nothing on a link already DOWN. -/
def execRadioLinkDown (w : Fin 4) (s : State) : Host.Outcome State Fault Refusal :=
  .next (if (s.ports.radios[w]).unit.link = .up then downRadio w s else s)

/-- An end's hold state in both directions is cleared (R4). -/
def BackboneEnd.clearHolds (e : BackboneEnd) : BackboneEnd :=
  { e.endHold with outstanding := false, repeatAt := none, pendingHold := none }

/-- A backbone end that is UP goes DOWN (R4). -/
def downEnd (x : End) (s : State) : State :=
  let s1 := loseReception (.backbone x) (abortTx (.backbone x) (setLink (.backbone x) .down s))
  raiseNotice (.link (.backbone x) .down)
    (onPorts (Ports.modEnd x BackboneEnd.clearHolds) (clearTransit x s1))

/-- BACKBONE_END_DOWN (R4); nothing on an end already DOWN. -/
def execBackboneEndDown (x : End) (s : State) : Host.Outcome State Fault Refusal :=
  .next (if (s.ports.endOf x).unit.link = .up then downEnd x s else s)

/-! ## The hold timers

A timer command says that its moment has come: the time moves to it where it has not passed it yet (log entry 1). -/

/-- HELD_UNTIL_REACHED (R16): the hold ends, and its overrun with it; nothing on an end that is not held. -/
def execHeldUntilReached (x : End) (s : State) : Host.Outcome State Fault Refusal :=
  .next (match (s.ports.endOf x).heldUntil with
    | none => s
    | some t => onPorts (Ports.modEnd x BackboneEnd.endHold) (waitUntil t s))

/-- The moment at which an end's continuous hold has lasted a limit, where no overrun is recorded yet (R17). -/
def BackboneEnd.limitAt (limit : Nat) (e : BackboneEnd) : Option Nat :=
  match e.heldUntil, e.holdStart with
  | some _, some t => if e.overrun then none else some (t + 100 * limit)
  | _, _ => none

/-- An overrun is recorded on an end (R17). -/
def recordOverrun (x : End) (s : State) : State :=
  raiseNotice (.holdOverrun x s.hold.action s.hold.limit)
    (onHub (Hub.flag (overrunFlag x))
      (onPorts (Ports.modEnd x (fun e => { e with overrun := true, overruns := e.overruns + 1 })) s))

/-- HOLD_LIMIT_EXPIRY (R17); nothing where the hold ends before its limit, or has overrun already. -/
def execHoldLimitExpiry (x : End) (s : State) : Host.Outcome State Fault Refusal :=
  .next (match (s.ports.endOf x).limitAt s.hold.limit with
    | none => s
    | some t =>
      if t ≤ max s.now ((s.ports.endOf x).heldUntil.getD 0) then recordOverrun x (waitUntil t s) else s)

/-- Another hold is built and the repeat timer restarts, where a hold is outstanding and the occupancy of the queue that
`x` feeds is 64 or more; else the timer stops (R14). -/
def repeatHold (x : End) (s : State) : State :=
  if (s.ports.endOf x).outstanding = true ∧ 64 ≤ (s.ports.endOf x.other).transit.length then
    onPorts (Ports.modEnd x (fun e => { e with pendingHold := some 200, repeatAt := some (s.now + 100) })) s
  else onPorts (Ports.modEnd x (fun e => { e with repeatAt := none })) s

/-- HOLD_REPEAT_TIMER_EXPIRY (R14); nothing where the timer is stopped. -/
def execHoldRepeatTimerExpiry (x : End) (s : State) : Host.Outcome State Fault Refusal :=
  .next (match (s.ports.endOf x).repeatAt with
    | none => s
    | some t => repeatHold x (waitUntil t s))

/-! ## SET_PORT, READ_PORT, SET_HOLD -/

/-- Change a seat port's designation (R12, steps 1 to 4). -/
def changeDesignation (n : Fin 32) (d : Designation) (s : State) : State :=
  let s1 := clearSeatEgress n (removeRecords .portChanged (s.table.onSeat n) s)
  let s2 := onPorts (Ports.modSeat n (fun q => { q with designation := d })) s1
  if d = .disabled ∧ (s2.ports.seats[n]).unit.link = .up then
    raiseNotice (.link (.seat n) .down) (seatLinkLost n s2)
  else s2

/-- The records that a change of designation removes: those of the port that are not LEAVING already (R12, R55). -/
def removedBySetPort (s : State) (n : Fin 32) : Nat :=
  (s.table.slotsWhere (fun st => decide (st.origin = .seat n) && !st.isLeaving)).length

/-- The rule of SET_PORT (R12). -/
def ruleSetPort (k : Fin 4) (r : Request) (s : State) : State :=
  if h : r.num 0 1 < 32 then
    let n : Fin 32 := ⟨r.num 0 1, h⟩
    match designationOfCode (r.num 1 1) with
    | none => refuse k .badValue s
    | some d =>
      if (s.ports.seats[n]).designation = d then answer k [d.code, 0] s
      else answer k [d.code, BitVec.ofNat 8 (removedBySetPort s n)] (changeDesignation n d s)
  else refuse k .badValue s

/-- SET_PORT (R12). -/
def execSetPort (fs : List CellFault) (s : State) : Host.Outcome State Fault Refusal :=
  .next (takeRequest (isCode 0x0F) fs ruleSetPort s)

/-- The rule of READ_PORT (R13). -/
def ruleReadPort (k : Fin 4) (r : Request) (s : State) : State :=
  match portOfCode (r.num 0 1) with
  | none => refuse k .badValue s
  | some p => answerView k (.port p) s

/-- READ_PORT (R13). -/
def execReadPort (fs : List CellFault) (s : State) : Host.Outcome State Fault Refusal :=
  .next (takeRequest (isCode 0x10) fs ruleReadPort s)

/-- Whether an end's continuous hold has lasted the hold limit in force with no overrun recorded yet (R17). -/
def holdLimitDue (s : State) (x : End) : Bool :=
  match (s.ports.endOf x).limitAt s.hold.limit with
  | some t => decide (t ≤ s.now)
  | none => false

/-- Record the overrun of an end whose continuous hold has already run the limit (R17, R19). -/
def overrunIfDue (x : End) (s : State) : State := if holdLimitDue s x then recordOverrun x s else s

/-- The rule of SET_HOLD (R19). -/
def ruleSetHold (k : Fin 4) (r : Request) (s : State) : State :=
  match holdActionOfCode (r.num 2 1) with
  | none => refuse k .badValue s
  | some act =>
    let lim := clampTo 1 1000 (r.num 0 2)
    answer k (beBytes 2 lim ++ [act.code])
      (overrunIfDue .bb (overrunIfDue .ba { s with hold := { limit := lim, action := act } }))

/-- SET_HOLD (R19). -/
def execSetHold (fs : List CellFault) (s : State) : Host.Outcome State Fault Refusal :=
  .next (takeRequest (isCode 0x11) fs ruleSetHold s)

end Sys2Proof.Machine
end

