-- ==== Sys2Proof/Machine/Epoch.lean ====
section
/-! DEFINITION. The epoch boundary (R118 to R124), as one computation, and the stop of the scheduler (R112). -/

namespace Sys2Proof.Machine

/-- The tier weight of a tier (R113). -/
def Params.tierWeight (q : Params) : Nat → Nat
  | 0 => q.t0
  | 1 => q.t1
  | 2 => q.t2
  | _ => q.t3

/-- Pending shaping comes into force (R118). -/
def Station.shapeNow (st : Station) : Station :=
  { st with shaping := st.pendingShaping.getD st.shaping, pendingShaping := none }

/-- Pending shaping comes into force at a boundary, but not for a LEAVING record (R118). -/
def Station.shapeAtBoundary (st : Station) : Station := if st.isLeaving then st else st.shapeNow

/-- R119: `number` is the epoch number as it stands before the boundary. -/
def Station.isActive (number : Count32) (st : Station) : Bool :=
  decide (st.cls = .passenger) && decide (st.state = .admitted) &&
    (!st.upq.isEmpty || decide (st.lastGrant = some number))

/-- The effective weight e (R120). -/
def Station.effectiveWeight (q : Params) (st : Station) : Nat := st.shaping.weight * q.tierWeight st.tier

/-- Whether a slot's record is active. -/
def slotActive (number : Count32) (o : Option Station) : Bool :=
  match o with
  | some st => st.isActive number
  | none => false

/-- The share of an active record in a boundary of total weight W (R120, R121): floor (B × e / W), cut to its cap. -/
def Station.activeShare (q : Params) (total : Nat) (st : Station) : Nat :=
  let raw := q.budget * st.effectiveWeight q / total
  match st.shaping.cap with
  | none => raw
  | some c => min raw c

/-- A record's share (R121): 0 unless it is active. -/
def Station.shareAt (q : Params) (number : Count32) (total : Nat) (st : Station) : Nat :=
  if st.isActive number then st.activeShare q total else 0

/-- A passenger's credit after a boundary (R122): the share, plus the old credit if that is below 0. -/
def creditAfter (share : Nat) (old : Int) : Int := if old < 0 then share + old else share

/-- A record after a boundary (R121, R122): its share, and the credit of a passenger that is not LEAVING. -/
def Station.atBoundary (q : Params) (number : Count32) (total : Nat) (st : Station) : Station :=
  let share := st.shareAt q number total
  { st with
    share := share
    credit := if st.cls = .passenger ∧ st.isLeaving = false then creditAfter share st.credit else st.credit }

/-- The effective weight that a slot adds to W (R120). -/
def slotWeight (q : Params) (number : Count32) (o : Option Station) : Nat :=
  match o with
  | some st => if st.isActive number then st.effectiveWeight q else 0
  | none => 0

/-- The share that a slot adds to the sum (R121). -/
def slotShare (q : Params) (number : Count32) (total : Nat) (o : Option Station) : Nat :=
  match o with
  | some st => st.shareAt q number total
  | none => 0

/-- The total weight W of the active records of a table (R120). -/
def totalWeight (q : Params) (number : Count32) (slots : Vector (Option Station) 256) : Nat :=
  (slots.toList.map (slotWeight q number)).sum

/-- The sum of the shares a boundary gives (R121). -/
def totalShares (q : Params) (number : Count32) (total : Nat) (slots : Vector (Option Station) 256) : Nat :=
  (slots.toList.map (slotShare q number total)).sum

/-- The number of active records (R119). -/
def activeCount (number : Count32) (slots : Vector (Option Station) 256) : Nat :=
  (slots.toList.filter (slotActive number)).length

/-- The run in force after a boundary's pending shaping has come into force (R142): it ends where its holder's mode is
SINGLE now. -/
def runAtBoundary (shaped : Vector (Option Station) 256) (r : Option Run) : Option Run :=
  r.filter (fun r => match shaped[r.holder] with
    | some st => decide (st.shaping.mode = .run)
    | none => true)

/-- The boundary's computation on the table and the scheduler (R118 to R124), less a parked SNAPSHOT. `advance` is
whether the epoch number is incremented, as at every boundary but that of START (R111). Of Upward Service it changes the
run in force only (R142). -/
def computeBoundary (advance : Bool) (s : State) : State :=
  let q := s.sched.pendingParams.getD s.sched.params
  let number := s.sched.number
  let shaped := s.table.slots.map (fun o => o.map Station.shapeAtBoundary)
  let total := totalWeight q number shaped
  let sum := totalShares q number total shaped
  { s with
    table := { s.table with slots := shaped.map (fun o => o.map (Station.atBoundary q number total)) }
    up := { s.up with run := runAtBoundary shaped s.up.run }
    sched :=
      { s.sched with
        params := q
        pendingParams := none
        surplus := (q.budget : Int) - sum
        active := activeCount number shaped
        weight := total
        shares := sum
        number := if advance then number + 1 else number
        counter := 0
        phase := 0 } }

/-- A boundary, whole (R118 to R124), with the SNAPSHOT that waits for it taken at its end (R182). -/
def boundary (advance : Bool) (s : State) : State := takeParkedSnapshot (computeBoundary advance s)

/-- A record when the scheduler stops (R112): pending shaping in force, share and credit 0. -/
def Station.atStop (st : Station) : Station := { st.shapeNow with share := 0, credit := 0 }

/-- STOP in RUNNING on the table and the scheduler (R112), less a parked SNAPSHOT. -/
def computeStop (s : State) : State :=
  { s with
    table := { s.table with slots := s.table.slots.map (fun o => o.map Station.atStop) }
    sched :=
      { s.sched with
        running := false
        params := s.sched.pendingParams.getD s.sched.params
        pendingParams := none
        surplus := 0
        active := 0
        weight := 0
        shares := 0 } }

/-- STOP in RUNNING (R112), with a parked SNAPSHOT taken at once. -/
def stopScheduler (s : State) : State := takeParkedSnapshot (computeStop s)

/-- START in STOPPED: the state becomes RUNNING and a boundary is taken without incrementing the number (R111). -/
def startScheduler (s : State) : State := boundary false { s with sched := { s.sched with running := true } }

end Sys2Proof.Machine
end

