-- ==== Sys2Proof/Machine/SchedulerCommands.lean ====
section
/-! DEFINITION. The Epoch Scheduler's commands (chapter 7): the expiry of the epoch counter, SET_EPOCH, the three actions
of SCHEDULER, and READ_SCHEDULER. -/

namespace Sys2Proof.Machine

/-- The epoch counter reaches T_e (R109): the moment comes, if it has not yet, and the boundary is taken. -/
def expireEpoch (s : State) : State := boundary true (elapse (s.sched.epochUnits - s.sched.elapsed) s)

/-- EPOCH_COUNTER_EXPIRY (R109); in STOPPED the counter holds and no boundary is taken by time. -/
def execEpochCounterExpiry (s : State) : Host.Outcome State Fault Refusal :=
  .next (if s.sched.running then expireEpoch s else s)

/-- Store parameters (R114): pending in RUNNING, in force in STOPPED. -/
def storeParams (q : Params) (s : State) : State :=
  { s with sched :=
      if s.sched.running then { s.sched with pendingParams := some q } else { s.sched with params := q } }

/-- The rule of SET_EPOCH (R114). -/
def ruleSetEpoch (k : Fin 4) (r : Request) (s : State) : State :=
  let s1 := storeParams (readParams r) s
  answer k ((if s.sched.running then 2 else 1) :: schedulerView s1.sched) s1

/-- SET_EPOCH (R114). -/
def execSetEpoch (fs : List CellFault) (s : State) : Host.Outcome State Fault Refusal :=
  .next (takeRequest (isCode 0x0A) fs ruleSetEpoch s)

/-- Answer OK with the scheduler view as an action left it (R111). -/
def answerScheduler (k : Fin 4) (s : State) : State := answer k (schedulerView s.sched) s

/-- The rule of SCHEDULER START (R111); an action code other than the three is refused. -/
def ruleSchedulerStart (k : Fin 4) (r : Request) (s : State) : State :=
  if r.num 0 1 ≠ 1 then refuse k .badValue s
  else answerScheduler k (if s.sched.running then s else startScheduler s)

/-- SCHEDULER START (R111): the request code 0x0B with any action but 2 and 3. -/
def execSchedulerStart (fs : List CellFault) (s : State) : Host.Outcome State Fault Refusal :=
  .next (takeRequest (fun rq => isCode 0x0B rq && decide (rq.num 0 1 ≠ 2) && decide (rq.num 0 1 ≠ 3)) fs
    ruleSchedulerStart s)

/-- The rule of SCHEDULER STOP (R111, R112). -/
def ruleSchedulerStop (k : Fin 4) (_r : Request) (s : State) : State :=
  answerScheduler k (if s.sched.running then stopScheduler s else s)

/-- SCHEDULER STOP (R112): the request code 0x0B with action 2. -/
def execSchedulerStop (fs : List CellFault) (s : State) : Host.Outcome State Fault Refusal :=
  .next (takeRequest (fun rq => isCode 0x0B rq && decide (rq.num 0 1 = 2)) fs ruleSchedulerStop s)

/-- The rule of SCHEDULER RESTART (R111): in STOPPED as START. -/
def ruleSchedulerRestart (k : Fin 4) (_r : Request) (s : State) : State :=
  answerScheduler k (if s.sched.running then boundary true s else startScheduler s)

/-- SCHEDULER RESTART (R111): the request code 0x0B with action 3. -/
def execSchedulerRestart (fs : List CellFault) (s : State) : Host.Outcome State Fault Refusal :=
  .next (takeRequest (fun rq => isCode 0x0B rq && decide (rq.num 0 1 = 3)) fs ruleSchedulerRestart s)

/-- The rule of READ_SCHEDULER (R129). -/
def ruleReadScheduler (k : Fin 4) (_r : Request) (s : State) : State := answerView k .scheduler s

/-- READ_SCHEDULER (R129). -/
def execReadScheduler (fs : List CellFault) (s : State) : Host.Outcome State Fault Refusal :=
  .next (takeRequest (isCode 0x0C) fs ruleReadScheduler s)

end Sys2Proof.Machine
end

