-- ==== Sys2Proof/Machine/Start.lean ====
section
/-! DEFINITION. POWER_ON (R187 and the power-on values of every chapter) and RESET (R188 and the warm reset of every
chapter). -/

namespace Sys2Proof.Machine

/-! ## Power-on -/

/-- What the store puts in force at power-on (R184): its settings where its check passes, and else the defaults. -/
def Store.load (st : Store) : StoredSettings := if st.checkOk then st.settings else StoredSettings.defaults

/-- The sticky flags at power-on (R178, R184): clear, with STORE_DEFAULTED set where the store failed its check. -/
def powerOnFlags (st : Store) : Vector StickyFlag 11 :=
  if st.checkOk then Vector.replicate 11 {} else (Vector.replicate 11 {}).set 6 { isSet := true, count := 1 }

/-- The Management Unit at power-on (R187). -/
def powerOnMgmt (st : Store) : Mgmt :=
  { Mgmt.reset with
    flags := powerOnFlags st, store := st, reportAddr := st.load.reportAddr, defaultIdle := st.load.defaultIdle }

/-- Cell Memory at power-on (R20, R21, R31 to R33). The cells' contents are undefined then; they read as 0 here, and no
rule reads them before they are written (log entry 4). -/
def powerOnCells (st : Store) : CellMemory := { CellMemory.reset with high := st.load.high, low := st.load.low }

/-- The seat ports at power-on (R11): every link DOWN, the designation from the store. -/
def powerOnSeats (st : Store) : Vector SeatPort 32 := st.load.designations.map (fun d => { designation := d })

/-- The windows at power-on (R78): settings from the store, counts 0. -/
def powerOnWindows (st : Store) : Vector Window 9 := st.load.windows.map (fun w => { set := w })

/-- The part after POWER_ON: every block at its power-on value, with the store, the identity, the time and the queue of
commands as they were. -/
def powerOn (s : State) : State :=
  let st := s.hub.mgmt.store
  { State.reset with
    pending := s.pending
    now := s.now
    identity := s.identity
    hub := { cells := powerOnCells st, mgmt := powerOnMgmt st }
    ports := { State.reset.ports with seats := powerOnSeats st }
    windows := powerOnWindows st
    sched := { Scheduler.reset with params := st.load.params }
    hold := st.load.hold }

/-- POWER_ON (R187). -/
def execPowerOn (s : State) : Host.Outcome State Fault Refusal := .next (powerOn s)

/-! ## Warm reset (R188)

The frames that the reset lets go are freed at the rebuild of Cell Memory (R36), not one by one as their references
drop: their cells come back in number order, and failed cells are retired in number order (log entry 21). -/

/-- All 38 ports. -/
def allPorts : List Port :=
  (List.finRange 32).map Port.seat ++ (List.finRange 4).map Port.radio ++ [.backbone .ba, .backbone .bb]

/-- The stored frame that a transmission sends: an abort of it is counted, one of a hold frame or an order is not (R10,
R15, R73). -/
def Transmission.frame? : Transmission → Option Nat
  | .frame id | .radioFrame id _ | .reply id _ | .notice id _ => some id
  | .hold _ | .order _ => none

/-- Step 1 on one port: its transmission is aborted, and counted where it is of a stored frame (R10). -/
def resetTx (p : Port) (s : State) : State :=
  match (s.ports.unitOf p).tx with
  | none => s
  | some t =>
    match t.frame? with
    | some id => countAborted p id s
    | none => setTx p none s

/-- A reply slot whose reply the abort of step 1 ended (R188). -/
def ReplySlot.afterAbort : ReplySlot → ReplySlot
  | .sending _ _ => .free
  | q => q

/-- Steps 1 to 4 (R188): every transmission aborted, the input queue and the notice queue emptied uncounted, and the
snapshot area absent. -/
def resetTraffic (s : State) : State :=
  let s1 := allPorts.foldl (fun s p => resetTx p s) s
  { s1 with hub := { s1.hub with mgmt := { s1.hub.mgmt with
      input := [], notices := [], snapshot := none, slots := s1.hub.mgmt.slots.map ReplySlot.afterAbort } } }

/-- The body of the ABORTED reply of a parked operation (R188, R190): a RELEASE's figures, and nothing for the others. -/
def abortedBody (s : State) : PendingOp → List Byte
  | .release j =>
    match s.station? j with
    | none => []
    | some st => releaseBody j st
  | .snapshot => []
  | .save _ _ => []

/-- Put a report address in force; while it is absent no notice is built (R175). -/
def withReport (a : Option LinkAddr) (s : State) : State :=
  { s with hub := { s.hub with mgmt := { s.hub.mgmt with reportAddr := a } } }

/-- Step 5 on one slot: a parked operation is answered ABORTED (R188). -/
def abortParked (k : Fin 4) (s : State) : State :=
  match s.hub.mgmt.slots[k] with
  | .parked _ op => fixReply k (.fixed .aborted (abortedBody s op)) false s
  | _ => s

/-- Step 5 (R188): every parked operation is answered. No notice is built meanwhile: the rebuild of step 6 would free it
(R36), and the lost count is kept (R177, R188; log entry 21). -/
def abortAllParked (s : State) : State :=
  withReport s.hub.mgmt.reportAddr ((List.finRange 4).foldl (fun s k => abortParked k s) (withReport none s))

/-- The number of parked operations. -/
def parkedCount (m : Mgmt) : Nat :=
  (m.slots.toList.filter (fun q => match q with
    | .parked _ _ => true
    | _ => false)).length

/-- A reception is lost at the reset (R1, R22, R36): WIRE; its cells come back at the rebuild. MODEL'S CHOICE, log entry
37: the port, which stays UP, is idle after that, so the bytes still to come of a frame lost here, or of one that was
being dropped already, take cells as those of a new frame. -/
def resetRx (p : Port) (s : State) : State :=
  match (s.ports.unitOf p).rx with
  | .idle => s
  | .dropping => setRx p .idle s
  | .taking _ => rxDiscard p (tally .wire (setRx p .idle s))

/-- The indices at which records of a radio stand, ascending (R75). -/
def radioIndices (t : StationTable) (w : Fin 4) : List Nat :=
  (List.range 64).filter (fun i => (t.atRadio w i).isSome)

/-- A radio link's queues at the reset (R58, R75): emptied, then a DROP order for each index that held a record, where
the link is UP. -/
def RadioLink.afterReset (indices : List Nat) (q : RadioLink) : RadioLink :=
  { q with
    egress := []
    orders := if q.unit.link = .up then indices.map (fun i => { kind := .drop, index := i }) else [] }

/-- A backbone end at the reset (R149, R167): its transit queue emptied, its arbiter's state as at power-on; the hold
state in both directions is kept (R14, R16). -/
def BackboneEnd.afterReset (e : BackboneEnd) : BackboneEnd := { e with transit := [], streak := 0, lastTransit := false }

/-- The queues of every port emptied, uncounted (R167), and the orders of R75 placed. -/
def resetQueues (s : State) : State :=
  { s with ports :=
      { seats := s.ports.seats.map (fun q => { q with egress := [] })
        radios := Vector.ofFn (fun w => (s.ports.radios[w]).afterReset (radioIndices s.table w))
        ba := s.ports.ba.afterReset
        bb := s.ports.bb.afterReset } }

/-- The station table, the Epoch Scheduler and Upward Service at the reset (R58, R109, R149). -/
def resetTables (s : State) : State :=
  { s with
    table := { slots := Vector.replicate 256 none, held := [] }
    sched := { Scheduler.reset with number := s.sched.number, params := s.sched.params }
    up := {} }

/-- The stored frames that the reset keeps: the replies that stay in BUILT slots (R36, R188). -/
def keptIds (m : Mgmt) : List Nat :=
  m.slots.toList.filterMap (fun q => match q with
    | .built _ id => some id
    | _ => none)

/-- The failed cells of frames, in ascending number (R36). -/
def failedCells (fs : List FrameRec) : List Nat := (List.range 3072).filter (fun x => fs.any (fun f => f.failed.contains x))

/-- Rebuild Cell Memory around the frames `keep` (R36): the failed cells of the others are retired while the list holds
fewer than 64; the free stack holds every cell that is neither retired nor kept, the lowest on top. The second part is
how many failed cells met a full list. -/
def CellMemory.rebuild (keep : List Nat) (c : CellMemory) : CellMemory × Nat :=
  let kept := c.frames.filter (fun f => keep.contains f.id)
  let bad := failedCells (c.frames.filter (fun f => !keep.contains f.id))
  let retired := c.retired ++ bad.take (64 - c.retired.length)
  let chains := kept.flatMap (·.chain)
  ({ c with
      frames := kept.map (fun f => { f with refs := 1 })
      retired := retired
      free := (List.range 3072).filter (fun x => !retired.contains x && !chains.contains x) },
    bad.length - (64 - c.retired.length))

/-- The rebuild in the part (R36): MEMORY_DEGRADED for each failed cell that met a full list. -/
def rebuildCells (s : State) : State :=
  let r := s.hub.cells.rebuild (keptIds s.hub.mgmt)
  { s with hub := Hub.flagN .memoryDegraded r.2 { s.hub with cells := r.1 } }

/-- Step 6 (R188): the other blocks' warm reset, and the rebuild of Cell Memory; a transit queue's fall to 0 brings its
release (R14, R167). -/
def resetBlocks (s : State) : State :=
  rebuildCells (resetTables (afterFall .bb (afterFall .ba (resetQueues (allPorts.foldl (fun s p => resetRx p s) s)))))

/-- Build the waiting replies in their turn, as far as the cells go (R172, R188). -/
def buildWaiting : Nat → State → State
  | 0, s => s
  | n + 1, s => buildWaiting n (buildOldest s)

/-- Steps 1 to 6 of a warm reset (R188). -/
def warmReset (s : State) : State :=
  resetBlocks (abortAllParked (resetTraffic s))

/-- What follows the rebuild: the pressure state is tested (R36), and the waiting replies are built in their turn
(R188). -/
def settleReset (s : State) : State := buildWaiting 4 (onHub (Hub.retest s.sender) s)

/-- The body of the RESET reply (R188): the cells free after the rebuild, and the operations answered ABORTED. -/
def resetBody (parked : Nat) (s : State) : List Byte := beBytes 2 s.hub.cells.free.length ++ [BitVec.ofNat 8 parked]

/-- The rule of RESET (R188). -/
def ruleReset (k : Fin 4) (_r : Request) (s : State) : State :=
  answer k (resetBody (parkedCount s.hub.mgmt) (warmReset s)) (settleReset (warmReset s))

/-- RESET (R188). -/
def execReset (fs : List CellFault) (s : State) : Host.Outcome State Fault Refusal :=
  .next (takeRequest (isCode 0x19) fs ruleReset s)

end Sys2Proof.Machine
end

