-- ==== Sys2Proof/Machine/StationCommands.lean ====
section
/-! DEFINITION. The requests on station records (chapters 3, 6 and 7): reading and listing, ADMIT, BAR, UNBAR, RELEASE,
the allowance requests and SET_SHAPING. Each has its rule, applied in the slot of a request that has passed the common
checks, and its command. -/

namespace Sys2Proof.Machine

/-- The checks that every station request begins with (R59): the record with the address, or NO_STATION. -/
def onStation (k : Fin 4) (a : LinkAddr) (rule : Fin 256 → Station → State → State) (s : State) : State :=
  match s.table.byAddr a with
  | none => refuse k .noStation s
  | some j =>
    match s.station? j with
    | none => refuse k .noStation s
    | some st => rule j st s

/-- Answer OK with the station view as it stands now, after a change (R49, R60). -/
def answerStation (k : Fin 4) (j : Fin 256) (s : State) : State :=
  match s.station? j with
  | none => refuse k .noStation s
  | some st => answer k (stationView s j st) s

/-! ## READ_STATION and LIST_STATIONS -/

/-- The rule of READ_STATION (R60). -/
def ruleReadStation (k : Fin 4) (r : Request) (s : State) : State :=
  onStation k (r.addr 0) (fun _ _ s => answerView k (.station (r.addr 0)) s) s

/-- READ_STATION (R60). -/
def execReadStation (fs : List CellFault) (s : State) : Host.Outcome State Fault Refusal :=
  .next (takeRequest (isCode 0x01) fs ruleReadStation s)

/-- The rule of LIST_STATIONS (R61). -/
def ruleListStations (k : Fin 4) (r : Request) (s : State) : State :=
  if 15 < r.num 0 1 then refuse k .badValue s else answerView k (.page (r.num 0 1)) s

/-- LIST_STATIONS (R61). -/
def execListStations (fs : List CellFault) (s : State) : Host.Outcome State Fault Refusal :=
  .next (takeRequest (isCode 0x02) fs ruleListStations s)

/-! ## ADMIT -/

/-- An allowance newly created (R49, R104): no renewal counted, no overrun. -/
def GivenAllowance.fresh (g : GivenAllowance) : Allowance :=
  { base := g.base, current := g.current, renew := g.renew, renewals := 0, overrun := 0 }

/-- A record admitted (R49). `pend` is whether its shaping waits for the next boundary: from SPENT in RUNNING. -/
def Station.admitWith (b : AdmitBody) (now : Nat) (pend : Bool) (st : Station) : Station :=
  { st with
    tier := b.tier
    allowance := b.allowance.map GivenAllowance.fresh
    idle := b.idle
    idleStart := now
    state := .admitted
    shaping := if pend then st.shaping else b.shaping
    pendingShaping := if pend then some b.shaping else none }

/-- Admit the record in a slot (R49): it leaves the held order. -/
def admitRecord (j : Fin 256) (b : AdmitBody) (pend : Bool) (s : State) : State :=
  onTable (fun t => { t.modStation j (Station.admitWith b s.now pend) with held := fromHeld j t.held }) s

/-- The rule of ADMIT (R49). -/
def ruleAdmit (k : Fin 4) (r : Request) (s : State) : State :=
  onStation k (r.addr 0)
    (fun j st s =>
      match st.state with
      | .leaving _ => refuse k .stationBusy s
      | .admitted | .barred _ => refuse k .wrongState s
      | .held | .spent =>
        match readAdmit r with
        | none => refuse k .badValue s
        | some b => answerStation k j (admitRecord j b (decide (st.state = .spent) && s.sched.running) s)) s

/-- ADMIT (R49). -/
def execAdmit (fs : List CellFault) (s : State) : Host.Outcome State Fault Refusal :=
  .next (takeRequest (isCode 0x03) fs ruleAdmit s)

/-! ## BAR and UNBAR -/

/-- Bar the record in a slot that stood in `before` (R48, R50): both its queues are purged, and it leaves the held
order. -/
def barRecord (j : Fin 256) (st : Station) (before : Admission) (s : State) : State :=
  onTable (fun t => { t with held := fromHeld j t.held })
    (purgeEgress j st.origin (purgeUpward j (setStationState j (.barred before) s)))

/-- The rule of BAR (R50). -/
def ruleBar (k : Fin 4) (r : Request) (s : State) : State :=
  onStation k (r.addr 0)
    (fun j st s =>
      match st.state with
      | .leaving _ => refuse k .stationBusy s
      | .barred _ => refuse k .wrongState s
      | .held => answerStation k j (barRecord j st .held s)
      | .admitted => answerStation k j (barRecord j st .admitted s)
      | .spent => answerStation k j (barRecord j st .spent s)) s

/-- BAR (R50). -/
def execBar (fs : List CellFault) (s : State) : Host.Outcome State Fault Refusal :=
  .next (takeRequest (isCode 0x04) fs ruleBar s)

/-- The state that a state before bar is (R51). -/
def Admission.state : Admission → StationState
  | .held => .held
  | .admitted => .admitted
  | .spent => .spent

/-- Return the record in a slot to its state before bar (R51): to HELD, at the end of the held order. -/
def unbarRecord (j : Fin 256) (before : Admission) (s : State) : State :=
  onTable (fun t =>
    { t.modStation j (fun st => { st with state := before.state }) with
      held := if before = .held then toHeldEnd j t.held else t.held }) s

/-- The rule of UNBAR (R51). -/
def ruleUnbar (k : Fin 4) (r : Request) (s : State) : State :=
  onStation k (r.addr 0)
    (fun j st s =>
      match st.state with
      | .leaving _ => refuse k .stationBusy s
      | .barred before => answerStation k j (unbarRecord j before s)
      | .held | .admitted | .spent => refuse k .wrongState s) s

/-- UNBAR (R51). -/
def execUnbar (fs : List CellFault) (s : State) : Host.Outcome State Fault Refusal :=
  .next (takeRequest (isCode 0x05) fs ruleUnbar s)

/-! ## RELEASE -/

/-- Answer a RELEASE whose record is freed at once, and empty its slot (R56, R57). -/
def answerRelease (k : Fin 4) (j : Fin 256) (s : State) : State :=
  match s.station? j with
  | none => refuse k .noStation s
  | some st => emptySlot j (answer k (releaseBody j st) s)

/-- Release the record in a slot (R57): freed at once with the reply, or LEAVING with the RELEASE parked. -/
def releaseRecord (k : Fin 4) (j : Fin 256) (st : Station) (s : State) : State :=
  let s1 := beginRemoval j st .released s
  if inFlight s j then park k (.release j) (setStationState j (.leaving .released) s1) else answerRelease k j s1

/-- The rule of RELEASE (R57). -/
def ruleRelease (k : Fin 4) (r : Request) (s : State) : State :=
  onStation k (r.addr 0)
    (fun j st s => if st.isLeaving then refuse k .stationBusy s else releaseRecord k j st s) s

/-- RELEASE (R57). -/
def execRelease (fs : List CellFault) (s : State) : Host.Outcome State Fault Refusal :=
  .next (takeRequest (isCode 0x06) fs ruleRelease s)

/-! ## Allowances -/

/-- The state after an allowance that lets a spent record go on (R105, R106): SPENT becomes ADMITTED, and so does a
state before bar. -/
def StationState.restored : StationState → StationState
  | .spent => .admitted
  | .barred .spent => .barred .admitted
  | st => st

/-- The allowance that SET_ALLOWANCE stores over the old one (R104): renewal count and overrun are kept, or start at 0. -/
def GivenAllowance.over (old : Option Allowance) (g : GivenAllowance) : Allowance :=
  { base := g.base, current := g.current, renew := g.renew, renewals := (old.map (·.renewals)).getD 0,
    overrun := (old.map (·.overrun)).getD 0 }

/-- Whether a state is ADMITTED, or BARRED from ADMITTED. -/
def StationState.active : StationState → Bool
  | .admitted | .barred .admitted => true
  | _ => false

/-- The record after SET_ALLOWANCE, less an exhaustion (R104, R105). -/
def Station.withAllowance (g : Option GivenAllowance) (st : Station) : Station :=
  { st with
    allowance := g.map (GivenAllowance.over st.allowance)
    state := if (g.map (·.current)) = some 0 then st.state else st.state.restored }

/-- Store an allowance (R104, R105): with current 0 an ADMITTED record, or one barred from ADMITTED, is exhausted with
no charge. -/
def storeAllowance (j : Fin 256) (st : Station) (g : Option GivenAllowance) (s : State) : State :=
  let s1 := onTable (StationTable.modStation j (Station.withAllowance g)) s
  if (g.map (·.current)) = some 0 ∧ st.state.active = true then exhaust j .setAllowance 0 s1 else s1

/-- Whether a record was never admitted: HELD, or BARRED from HELD (R104). -/
def StationState.neverAdmitted : StationState → Bool
  | .held | .barred .held => true
  | _ => false

/-- The rule of SET_ALLOWANCE (R104). -/
def ruleSetAllowance (k : Fin 4) (r : Request) (s : State) : State :=
  onStation k (r.addr 0)
    (fun j st s =>
      if st.isLeaving then refuse k .stationBusy s
      else if st.state.neverAdmitted then refuse k .wrongState s
      else
        match readSetAllowance r with
        | none => refuse k .badValue s
        | some g => answerStation k j (storeAllowance j st g s)) s

/-- SET_ALLOWANCE (R104, R105). -/
def execSetAllowance (fs : List CellFault) (s : State) : Host.Outcome State Fault Refusal :=
  .next (takeRequest (isCode 0x07) fs ruleSetAllowance s)

/-- Whether a record has an allowance to reload (R106, R107): present, with base above 0. -/
def Station.reloadable (st : Station) : Bool :=
  match st.allowance with
  | some al => decide (0 < al.base)
  | none => false

/-- A record renewed (R106). -/
def Station.renewed (st : Station) : Station :=
  { st with allowance := st.allowance.map Allowance.reload, state := st.state.restored }

/-- The rule of RENEW (R106, R190): a selector other than 0 is refused before any station check. -/
def ruleRenew (k : Fin 4) (r : Request) (s : State) : State :=
  if r.num 0 1 ≠ 0 then refuse k .badValue s
  else
    onStation k (r.addr 2)
      (fun j st s =>
        if st.isLeaving then refuse k .stationBusy s
        else if st.reloadable then
          answerStation k j (onTable (StationTable.modStation j Station.renewed) s)
        else refuse k .badValue s) s

/-- RENEW {address} (R106): the request code 0x08 with any selector but 1. -/
def execRenew (fs : List CellFault) (s : State) : Host.Outcome State Fault Refusal :=
  .next (takeRequest (fun rq => isCode 0x08 rq && decide (rq.num 0 1 ≠ 1)) fs ruleRenew s)

/-- Whether RENEW {all} reaches a record (R107). -/
def Station.renewedByAll (st : Station) : Bool := !st.isLeaving && st.reloadable

/-- The whole table renewed at one moment (R107). -/
def renewTable (s : State) : State :=
  onTable (fun t =>
    { t with slots := t.slots.map (fun o => o.map (fun st => if st.renewedByAll then st.renewed else st)) }) s

/-- The reply of RENEW {all} (R107): the records reloaded, and of them those that became ADMITTED, or whose state before
bar did. -/
def renewAllReply (t : StationTable) : List Byte :=
  beBytes 2 (t.slotsWhere Station.renewedByAll).length ++
  beBytes 2 (t.slotsWhere (fun st => st.renewedByAll && decide (st.state.restored ≠ st.state))).length

/-- The rule of RENEW {all} (R107). -/
def ruleRenewAll (k : Fin 4) (_r : Request) (s : State) : State := answer k (renewAllReply s.table) (renewTable s)

/-- RENEW {all} (R107): the request code 0x08 with selector 1. -/
def execRenewAll (fs : List CellFault) (s : State) : Host.Outcome State Fault Refusal :=
  .next (takeRequest (fun rq => isCode 0x08 rq && decide (rq.num 0 1 = 1)) fs ruleRenewAll s)

/-! ## SET_SHAPING -/

/-- A record with a shaping set (R117). `pend` is whether it waits for the next boundary: ADMITTED in RUNNING. -/
def Station.withShaping (sh : Shaping) (pend : Bool) (st : Station) : Station :=
  { st with
    shaping := if pend then st.shaping else sh
    pendingShaping := if pend then some sh else none }

/-- The rule of SET_SHAPING (R117). -/
def ruleSetShaping (k : Fin 4) (r : Request) (s : State) : State :=
  onStation k (r.addr 0)
    (fun j st s =>
      if st.isLeaving then refuse k .stationBusy s
      else
        match readSetShaping r with
        | none => refuse k .badValue s
        | some sh =>
          let pend := decide (st.state = .admitted) && s.sched.running
          answerStation k j (onTable (StationTable.modStation j (Station.withShaping sh pend)) s)) s

/-- SET_SHAPING (R117). -/
def execSetShaping (fs : List CellFault) (s : State) : Host.Outcome State Fault Refusal :=
  .next (takeRequest (isCode 0x09) fs ruleSetShaping s)

end Sys2Proof.Machine
end

