-- ==== Sys2Proof/Machine/Dispatch.lean ====
section
/-! DEFINITION. The effect of each command on everything but the queue: one arm per row of the table. -/

namespace Sys2Proof.Machine

def exec (i : Instr) (s : State) : Host.Outcome State Fault Refusal :=
  match i with
  | .powerOn => Sys2Proof.Machine.execPowerOn s
  | .linkUp p => Sys2Proof.Machine.execLinkUp p s
  | .seatPortDown n => Sys2Proof.Machine.execSeatPortDown n s
  | .radioLinkDown w => Sys2Proof.Machine.execRadioLinkDown w s
  | .backboneEndDown x => Sys2Proof.Machine.execBackboneEndDown x s
  | .takeCell p => Sys2Proof.Machine.execTakeCell p s
  | .seatFrameReceived n f ok => Sys2Proof.Machine.execSeatFrameReceived n f ok s
  | .radioDataFrameReceived w kind index f ok => Sys2Proof.Machine.execRadioDataFrameReceived w kind index f ok s
  | .associated w index a len ok => Sys2Proof.Machine.execAssociated w index a len ok s
  | .disassociated w index len ok => Sys2Proof.Machine.execDisassociated w index len ok s
  | .radioStart w len ok => Sys2Proof.Machine.execRadioStart w len ok s
  | .backboneFrameReceived x f ok => Sys2Proof.Machine.execBackboneFrameReceived x f ok s
  | .holdFrameReceived x f ok => Sys2Proof.Machine.execHoldFrameReceived x f ok s
  | .heldUntilReached x => Sys2Proof.Machine.execHeldUntilReached x s
  | .holdLimitExpiry x => Sys2Proof.Machine.execHoldLimitExpiry x s
  | .holdRepeatTimerExpiry x => Sys2Proof.Machine.execHoldRepeatTimerExpiry x s
  | .idleTimerExpiry k => Sys2Proof.Machine.execIdleTimerExpiry k s
  | .epochCounterExpiry => Sys2Proof.Machine.execEpochCounterExpiry s
  | .transmissionStart p fs => Sys2Proof.Machine.execTransmissionStart p fs s
  | .transmissionComplete p => Sys2Proof.Machine.execTransmissionComplete p s
  | .buildWaitingReply => Sys2Proof.Machine.execBuildWaitingReply s
  | .storeWriteEnds b => Sys2Proof.Machine.execStoreWriteEnds b s
  | .readStation fs => Sys2Proof.Machine.execReadStation fs s
  | .listStations fs => Sys2Proof.Machine.execListStations fs s
  | .admitStation fs => Sys2Proof.Machine.execAdmit fs s
  | .bar fs => Sys2Proof.Machine.execBar fs s
  | .unbar fs => Sys2Proof.Machine.execUnbar fs s
  | .release fs => Sys2Proof.Machine.execRelease fs s
  | .setAllowance fs => Sys2Proof.Machine.execSetAllowance fs s
  | .renew fs => Sys2Proof.Machine.execRenew fs s
  | .renewAll fs => Sys2Proof.Machine.execRenewAll fs s
  | .setShaping fs => Sys2Proof.Machine.execSetShaping fs s
  | .setEpoch fs => Sys2Proof.Machine.execSetEpoch fs s
  | .schedulerStart fs => Sys2Proof.Machine.execSchedulerStart fs s
  | .schedulerStop fs => Sys2Proof.Machine.execSchedulerStop fs s
  | .schedulerRestart fs => Sys2Proof.Machine.execSchedulerRestart fs s
  | .readScheduler fs => Sys2Proof.Machine.execReadScheduler fs s
  | .writeWindow fs => Sys2Proof.Machine.execWriteWindow fs s
  | .readWindow fs => Sys2Proof.Machine.execReadWindow fs s
  | .setPort fs => Sys2Proof.Machine.execSetPort fs s
  | .readPort fs => Sys2Proof.Machine.execReadPort fs s
  | .setHold fs => Sys2Proof.Machine.execSetHold fs s
  | .setMemoryLimits fs => Sys2Proof.Machine.execSetMemoryLimits fs s
  | .setConsist fs => Sys2Proof.Machine.execSetConsist fs s
  | .readStatus fs => Sys2Proof.Machine.execReadStatus fs s
  | .clearStatus fs => Sys2Proof.Machine.execClearStatus fs s
  | .snapshot fs => Sys2Proof.Machine.execSnapshot fs s
  | .readSnapshot fs => Sys2Proof.Machine.execReadSnapshot fs s
  | .saveSettings fs => Sys2Proof.Machine.execSaveSettings fs s
  | .reset fs => Sys2Proof.Machine.execReset fs s
  | .unknownRequestCode fs => Sys2Proof.Machine.execUnknownRequestCode fs s

end Sys2Proof.Machine
end

