-- ==== Sys2Proof/Machine/Timers.lean ====
section
/-! DEFINITION. What a step does when no command waits: one unit of time passes, and the commands of the timers that
have expired by then join the queue (log entry 1). Where several expire together their order is the manual's to leave
open (R16, R46, R115); here it is the order of `dueCommands`. -/

namespace Sys2Proof.Machine

/-- Whether a moment, if there is one, has come. -/
def hasCome (now : Nat) (t : Option Nat) : Bool :=
  match t with
  | some t => decide (t ≤ now)
  | none => false

/-- The commands of an end's timers that have expired (R14, R16, R17). -/
def dueAtEnd (s : State) (x : End) : List Instr :=
  let e := s.ports.endOf x
  (if hasCome s.now e.heldUntil then [.heldUntilReached x] else []) ++
  (if hasCome s.now (e.limitAt s.hold.limit) then [.holdLimitExpiry x] else []) ++
  (if hasCome s.now e.repeatAt then [.holdRepeatTimerExpiry x] else [])

/-- The records whose idle timers have expired (R46). -/
def dueRecords (s : State) : List Instr :=
  (s.table.slotsWhere (fun st => hasCome s.now st.expiresAt)).map Instr.idleTimerExpiry

/-- The epoch counter's expiry (R109). -/
def dueEpoch (s : State) : List Instr :=
  if s.sched.running && decide (s.sched.epochUnits ≤ s.sched.elapsed) then [.epochCounterExpiry] else []

/-- A store write whose 40 ms are over (R186): whether the store accepted it is a free value (log entry 7). -/
def dueSave (s : State) : List Instr :=
  match parkedSave s.hub.mgmt with
  | some (_, _, start) => if start + 4000 ≤ s.now then [.storeWriteEnds (Config.storeAccepts s.now)] else []
  | none => []

/-- The commands of the timers that have expired. -/
def dueCommands (s : State) : List Instr :=
  dueAtEnd s .ba ++ dueAtEnd s .bb ++ dueRecords s ++ dueEpoch s ++ dueSave s

/-- One unit of time passes with no command waiting. -/
def tick (s : State) : State := { elapse 1 s with pending := dueCommands (elapse 1 s) }

end Sys2Proof.Machine
end

