-- ==== Sys2Proof/Machine/Wire.lean ====
section
/-! DEFINITION. What a transmission puts on its link: the bytes a receiver sees (R176, R189, R191, R192). The part keeps
the stored frame and the choice of transmission; these bytes follow from them. -/

namespace Sys2Proof.Machine

/-- Bytes with a wire check computed afresh behind them (R189). -/
def withCheck (bs : List Byte) : List Byte := bs ++ beBytes 4 (Config.wireCheck bs).toNat

/-- A stored frame's bytes up to its wire check. -/
def frameBody (s : State) (id : Nat) : List Byte :=
  match s.hub.cells.frame? id with
  | none => []
  | some f => (s.hub.cells.frameBytes f).take (f.length - 4)

/-- A hold frame up to its wire check (R192): broadcast destination, the part as source, the hold type code, the
duration, and zeros. -/
def holdFrame (src : LinkAddr) (duration : Nat) : List Byte :=
  List.replicate 6 0xFF ++ addrBytes src ++ beBytes 2 typeHold ++ beBytes 2 duration ++ List.replicate 44 0

/-- An order's radio frame (R191): the header with kind 3 and the order's index, the order kind, and the wire check. -/
def orderFrame (o : Order) : List Byte := withCheck [3, BitVec.ofNat 8 o.index, o.kind.code]

/-- The bytes that a transmission sends. -/
def wireBytes (s : State) : Transmission → List Byte
  | .frame id => withCheck (frameBody s id)
  | .radioFrame id index => [1, BitVec.ofNat 8 index] ++ withCheck (frameBody s id)
  | .reply id _ => withCheck (frameBody s id)
  | .notice id dest => withCheck (addrBytes dest ++ (frameBody s id).drop 6)
  | .hold d => withCheck (holdFrame s.identity d)
  | .order o => orderFrame o

end Sys2Proof.Machine
end

