-- ==== Sys2Proof/Safety.lean ====
section
/-! DEFINITION. What a sound state of the part is, in the terms that statements use: the ranges, pairings and
conservation that the manual states for every moment, and the blocks of the state apart from Cell Memory, the Management
Unit and the ports. -/

namespace Sys2Proof.Safety

open Sys2Proof.Machine

/-- The canonical form of the bytes of the cells. -/
def MemoryOk (s : State) : Prop := s.hub.cells.data.wf = true

/-- The range of credit and of the surplus pool (R126). -/
def InCreditRange (c : Int) : Prop := -1535 ≤ c ∧ c ≤ 16777215

/-- A budget in the range of B (R113). -/
def BudgetOk (q : Params) : Prop := q.budget ≤ 16777215

/-- What a slot holds keeps to lengths and budgets: a waiting reply with its contents fixed is no longer than a frame
may be, and a parked save's image has a budget in range. -/
def SlotOk : ReplySlot → Prop
  | .reserved _ (some (.fixed _ body)) _ => body.length ≤ 1510
  | .parked _ (.save image _) => BudgetOk image.params
  | _ => True

/-- Credit and surplus stay in their range (R126), with what that rests on: frames of at most 1536 bytes (R24) and
budgets in the range of B (R113), wherever parameters stand. -/
structure CreditOk (s : State) : Prop where
  credit : ∀ k st, s.station? k = some st → InCreditRange st.credit
  surplus : InCreditRange s.sched.surplus
  lengths : ∀ f ∈ s.hub.cells.frames, f.length ≤ 1536
  budget : BudgetOk s.sched.params
  pendingBudget : ∀ q, s.sched.pendingParams = some q → BudgetOk q
  storedBudget : BudgetOk s.hub.mgmt.store.settings.params
  slots : ∀ k : Fin 4, SlotOk s.hub.mgmt.slots[k]

/-- R94 for one record: ADMITTED goes with the allowance absent or current above 0, SPENT with the allowance present and
current 0, and the same for the state before a bar. -/
def Paired (st : Station) : Prop :=
  (st.state = .admitted ∨ st.state = .barred .admitted → ∀ al, st.allowance = some al → 0 < al.current) ∧
  (st.state = .spent ∨ st.state = .barred .spent → ∃ al, st.allowance = some al ∧ al.current = 0)

/-- R94: a HELD record has no allowance (R93), and every record is paired. -/
def AllowancesOk (s : State) : Prop :=
  ∀ k st, s.station? k = some st →
    Paired st ∧ (st.state = .held ∨ st.state = .barred .held → st.allowance = none)

/-- R41: the held order names each HELD record once, and no other slot. -/
def HeldOrderOk (s : State) : Prop :=
  s.table.held.Nodup ∧ ∀ k, k ∈ s.table.held ↔ ∃ st, s.station? k = some st ∧ st.state = .held

/-- The cells of the frames in reception. -/
def receptionCells (ps : Ports) : List Nat :=
  ps.seats.toList.flatMap (fun q => q.unit.rx.chain) ++ ps.radios.toList.flatMap (fun q => q.unit.rx.chain) ++
    ps.ba.unit.rx.chain ++ ps.bb.unit.rx.chain

/-- The cells in the chains of the stored frames. -/
def frameCells (c : CellMemory) : List Nat := c.frames.flatMap (·.chain)

/-- R20: every cell is in exactly one of three places: on the free-cell stack, in the chain of a frame (in reception or
stored), or retired. With it, what it rests on: a stored frame has a cell, and its failed cells are of its chain. -/
structure CellsOk (s : State) : Prop where
  conserved :
    (s.hub.cells.free ++ frameCells s.hub.cells ++ receptionCells s.ports ++ s.hub.cells.retired).Perm (List.range 3072)
  chains : ∀ f ∈ s.hub.cells.frames, f.chain ≠ [] ∧ ∀ x ∈ f.failed, x ∈ f.chain

/-- The capacities of the queues (11.5): upward queues 24, egress queues 64, onboard and transit queues 128, the input
queue 4, the notice queue 12, the retired list 64, and one order for each of the indices 0..63, so at most 64 in an order
queue. With it, what the last rests on: association indices in the records are below 64 (R38). -/
structure CapacitiesOk (s : State) : Prop where
  upward : ∀ k st, s.station? k = some st → st.upq.length ≤ 24
  seats : ∀ n : Fin 32, (s.ports.seats[n]).egress.length ≤ 64
  radios : ∀ w : Fin 4, (s.ports.radios[w]).egress.length ≤ 64
  orders : ∀ w : Fin 4, ((s.ports.radios[w]).orders.map (·.index)).Nodup ∧
    (∀ o ∈ (s.ports.radios[w]).orders, o.index < 64) ∧ (s.ports.radios[w]).orders.length ≤ 64
  indices : ∀ k st w i, s.station? k = some st → st.origin = .radio w i → i < 64
  onboard : s.up.onboard.length ≤ 128
  transit : ∀ x, (s.ports.endOf x).transit.length ≤ 128
  input : s.hub.mgmt.input.length ≤ 4
  notices : s.hub.mgmt.notices.length ≤ 12
  retired : s.hub.cells.retired.length ≤ 64

/-- The blocks of the state apart from the queue of commands, Cell Memory, the Management Unit and the ports. -/
structure Blocks where
  now : Nat
  identity : LinkAddr
  table : StationTable
  windows : Vector Window 9
  sched : Scheduler
  up : UpwardService
  consist : Consist
  hold : HoldSettings

/-- The blocks of a state. -/
def blocks (s : State) : Blocks :=
  { now := s.now, identity := s.identity, table := s.table, windows := s.windows, sched := s.sched, up := s.up,
    consist := s.consist, hold := s.hold }

/-- A record with its drops counter set aside: what a purge of its queues leaves alone. -/
def apartFromDrops (st : Station) : Station := { st with ctr := { st.ctr with drops := 0 } }

/-- A request that the command of its row takes and that passes the common checks (R169, R170): `rq` stands at the head
of the input queue, the unit is free, `k` is the lowest FREE slot, the cells of its frame read without a multi-bit
error, its source is no group address, its code and length agree, and its level is allowed. -/
def Takes (s : State) (fs : List CellFault) (k : Fin 4) (rq : Request) : Prop :=
  ∃ e f, requestReady s = some (k, e, f, rq) ∧ ((withFaults fs s).hub.readFrame f none).1 = [] ∧
    isGroup rq.src = false ∧ commonRefusal rq = none

/-- The state after the take of the request at the head of the input queue (R169), as the request's own rule finds it. -/
def afterTake (s : State) (fs : List CellFault) : State :=
  match requestReady s with
  | some (k, e, f, rq) => (takeInto k e f rq (withFaults fs s)).2
  | none => s

/-- The command that takes a request: the row of its code, and where rows share a code that of its selector or action.
MODEL'S CHOICE, log entry 19: a selector or action of no row goes to RENEW of one address and to START. -/
def rowOf (rq : Request) (fs : List CellFault) : Instr :=
  match rq.code with
  | 0x01 => .readStation fs
  | 0x02 => .listStations fs
  | 0x03 => .admitStation fs
  | 0x04 => .bar fs
  | 0x05 => .unbar fs
  | 0x06 => .release fs
  | 0x07 => .setAllowance fs
  | 0x08 => if rq.num 0 1 = 1 then .renewAll fs else .renew fs
  | 0x09 => .setShaping fs
  | 0x0A => .setEpoch fs
  | 0x0B =>
    if rq.num 0 1 = 2 then .schedulerStop fs else if rq.num 0 1 = 3 then .schedulerRestart fs else .schedulerStart fs
  | 0x0C => .readScheduler fs
  | 0x0D => .writeWindow fs
  | 0x0E => .readWindow fs
  | 0x0F => .setPort fs
  | 0x10 => .readPort fs
  | 0x11 => .setHold fs
  | 0x12 => .setMemoryLimits fs
  | 0x13 => .setConsist fs
  | 0x14 => .readStatus fs
  | 0x15 => .clearStatus fs
  | 0x16 => .snapshot fs
  | 0x17 => .readSnapshot fs
  | 0x18 => .saveSettings fs
  | 0x19 => .reset fs
  | _ => .unknownRequestCode fs

/-- The commands of the request rows. -/
def requestRows (fs : List CellFault) : List Instr :=
  [.readStation fs, .listStations fs, .admitStation fs, .bar fs, .unbar fs, .release fs, .setAllowance fs, .renew fs,
    .renewAll fs, .setShaping fs, .setEpoch fs, .schedulerStart fs, .schedulerStop fs, .schedulerRestart fs,
    .readScheduler fs, .writeWindow fs, .readWindow fs, .setPort fs, .readPort fs, .setHold fs, .setMemoryLimits fs,
    .setConsist fs, .readStatus fs, .clearStatus fs, .snapshot fs, .readSnapshot fs, .saveSettings fs, .reset fs,
    .unknownRequestCode fs]

/-- A port's unit with the counters that every port keeps set aside. -/
def withoutCounters (u : PortUnit) : PortUnit := { u with ctr := {} }

/-- A seat port with the counters of R8 set aside. -/
def quietSeat (q : SeatPort) : SeatPort := { q with unit := withoutCounters q.unit }

/-- A radio link with the counters that every port keeps set aside. -/
def quietRadio (q : RadioLink) : RadioLink := { q with unit := withoutCounters q.unit }

/-- A backbone end with the counters that every port keeps set aside. -/
def quietEnd (q : BackboneEnd) : BackboneEnd := { q with unit := withoutCounters q.unit }

/-- A frame of the bytes `f` ends its reception on `p` with its checks passed (R5, R22): `chain` are the cells it has
taken, and `s1` is the state with the reception over. -/
def Arrives (p : Port) (f : List Byte) (ok : Bool) (s : State) (chain : List Nat) (s1 : State) : Prop :=
  canEnd p f.length s = true ∧ endReception p f.length s = (some chain, s1) ∧ frameOk f ok = true

/-- A frame of the bytes `f` ends its reception on `p` and fails its receive checks (R5): its wire check, or a length
outside 64..1536. -/
def ArrivesBad (p : Port) (f : List Byte) (ok : Bool) (s : State) (chain : List Nat) (s1 : State) : Prop :=
  canEnd p f.length s = true ∧ endReception p f.length s = (some chain, s1) ∧
    (ok = false ∨ f.length < 64 ∨ 1536 < f.length)

/-- A radio NOTICE frame of `len` bytes behind its header ends its reception on `w`. -/
def NoticeArrives (w : Fin 4) (len : Nat) (s : State) (chain : List Nat) (s1 : State) : Prop :=
  canEnd (.radio w) len s = true ∧ endReception (.radio w) len s = (some chain, s1)

/-- A port is free to start a transmission (R9). -/
def CanStart (p : Port) (s : State) : Prop := (s.ports.unitOf p).link = .up ∧ (s.ports.unitOf p).tx = none

/-- A backbone end that reaches its last source (R145 step 4, R147 step 3): free to start, not held, and with no pending
hold frame, no reply and no notice to send. -/
def ReachesLast (x : End) (s : State) : Prop :=
  CanStart (.backbone x) s ∧ (s.ports.endOf x).pendingHold = none ∧ (s.ports.endOf x).heldUntil = none ∧
    repliesFor s.hub.mgmt (.backbone x) = [] ∧ noticeFor x s = none

/-- The reading of the stored frame `id` by a port gives no multi-bit error (R27). -/
def Reads (s : State) (id : Nat) (p : Port) : Prop :=
  ∃ f, s.hub.cells.frame? id = some f ∧ (s.hub.readFrame f (some p)).1 = []

/-- The hub after that reading (R28). -/
def afterReading (s : State) (id : Nat) (p : Port) : Hub :=
  match s.hub.cells.frame? id with
  | some f => (s.hub.readFrame f (some p)).2
  | none => s.hub

/-- What a port does next when a start on it has failed (R9, R29): it goes on to its next candidate. -/
def goOn (p : Port) (fuel : Nat) (s : State) : State :=
  match p with
  | .seat n => startSeat fuel n s
  | .radio w => startRadio fuel w s
  | .backbone x => startEnd fuel x s

/-- TRANSMISSION_START on `p` takes the frame `id` as the transmission `tx` (R9, R29): `t` is the state with the entry
out of its queue and the grant made. Where the cells read well the transmission is in progress; where some give a
multi-bit error the start has failed on that state, whose grant stands, and the port goes on. -/
def Starts (p : Port) (fs : List CellFault) (s : State) (id : Nat) (tx : Transmission) (t : State) : Prop :=
  (Reads (withFaults fs s) id p → exec (.transmissionStart p fs) s = .next { t with
    hub := afterReading (withFaults fs s) id p, ports := t.ports.modUnit p (fun u => { u with tx := some tx }) }) ∧
  (∀ f bad, s.hub.cells.frame? id = some f → ((withFaults fs s).hub.readFrame f (some p)).1 = bad → bad ≠ [] →
    exec (.transmissionStart p fs) s = .next (goOn p s.hub.cells.frames.length
      (failStart p f bad { t with hub := afterReading (withFaults fs s) id p })))

/-- A record that the arbiter may serve (R137): ADMITTED, its upward queue not empty, no upward frame of it in
transmission, and of a class, credit or mode that meets a test. -/
def Waits (s : State) (test : Station → Prop) (k : Fin 256) : Prop :=
  ∃ st, s.station? k = some st ∧ st.state = .admitted ∧ st.upq ≠ [] ∧ inFlight s k = false ∧ test st

/-- The slot `k` is the first after the pointer that meets a test, wrapping from 255 to 0, the pointer itself last
(R139). -/
def FirstAfter (ptr k : Fin 256) (may : Fin 256 → Prop) : Prop :=
  may k ∧ ∀ i : Fin 256, i < k - ptr - 1 → ¬ may (ptr + 1 + i)

/-- The onboard group has something (R137): a frame at the head that names no record with a frame in transmission. -/
def OnboardWaits (s : State) : Prop :=
  ∃ id rest, s.up.onboard = id :: rest ∧ ∀ k, s.hub.cells.owner id = some k → inFlight s k = false

/-- The run in force goes on with its holder `k` (R142): credit-eligible, of mode RUN, and below 8 frames. -/
def RunGoesOn (s : State) (k : Fin 256) : Prop :=
  ∃ r, s.up.run = some r ∧ r.holder = k ∧ r.granted < 8 ∧
    Waits s (fun st => st.cls = .passenger ∧ 0 < st.credit ∧ st.shaping.mode = .run) k

/-- Some passenger is credit-eligible or surplus-eligible (R125, R140). -/
def PassengerWaits (s : State) : Prop :=
  ∃ k st, s.station? k = some st ∧ st.cls = .passenger ∧ st.state = .admitted ∧ st.upq ≠ [] ∧
    (0 < st.credit ∨ 0 < s.sched.surplus)

/-- The passenger guarantee is due and a passenger is eligible (R138, R140). -/
def GuaranteeFirst (s : State) : Prop :=
  1 ≤ s.sched.params.m ∧ s.sched.params.m ≤ s.up.guarantee ∧ PassengerWaits s

/-- How many entries bound for a port hold the frame `id`. -/
def entriesAt (s : State) (id : Nat) : Port → Nat
  | .seat n => (s.ports.seats[n]).egress.count id
  | .radio w => ((s.ports.radios[w]).egress.map (·.id)).count id
  | .backbone x => (s.ports.endOf x).transit.count id

/-- How many queue entries hold the frame `id`, the upward queues of the stations aside. -/
def entriesOf (s : State) (id : Nat) : Nat :=
  (allPorts.map (entriesAt s id)).sum + s.up.onboard.count id + (s.hub.mgmt.input.map (·.id)).count id

/-- A state `t` in which a frame arriving on `x` has been entered in the transit queue toward the other end (R14, R163),
or has not: as to that queue, and to the hold that an entry may bring about. -/
def TransitPart (x : End) (id : Nat) (entered : Bool) (s t : State) : Prop :=
  (t.ports.endOf x.other).transit = (s.ports.endOf x.other).transit ++ (if entered then [id] else []) ∧
    (t.ports.endOf x).transit = (s.ports.endOf x).transit ∧
    (if entered = true ∧ 95 ≤ (s.ports.endOf x.other).transit.length ∧ (s.ports.endOf x).outstanding = false then
      (t.ports.endOf x).pendingHold = some 200 ∧ (t.ports.endOf x).outstanding = true ∧
        (t.ports.endOf x).repeatAt = some (s.now + 100)
    else
      (t.ports.endOf x).pendingHold = (s.ports.endOf x).pendingHold ∧
        (t.ports.endOf x).outstanding = (s.ports.endOf x).outstanding ∧
        (t.ports.endOf x).repeatAt = (s.ports.endOf x).repeatAt)

/-- The discard that the transit checks make (R163): END_DOWN, SHED or QUEUE_FULL, in that order, or none. -/
def TransitCheck (s : State) (y : End) (why : Option Discard) : Prop :=
  ((s.ports.endOf y).unit.link = .down ∧ why = some .endDown) ∨
  ((s.ports.endOf y).unit.link = .up ∧ (s.ports.endOf y).overrun = true ∧ s.hold.action = .shed ∧ why = some .shed) ∨
  ((s.ports.endOf y).unit.link = .up ∧ ((s.ports.endOf y).overrun = false ∨ s.hold.action = .wait) ∧
    128 ≤ (s.ports.endOf y).transit.length ∧ why = some .queueFull) ∨
  ((s.ports.endOf y).unit.link = .up ∧ ((s.ports.endOf y).overrun = false ∨ s.hold.action = .wait) ∧
    (s.ports.endOf y).transit.length < 128 ∧ why = none)

/-- The frame in transmission that keeps a record in flight (R52) stands nowhere else: in no queue, as no reply, and in no
transmission of a seat port or radio link. -/
def OnlyOnAir (s : State) (k : Fin 256) : Prop :=
  ∃ x id f, (s.ports.endOf x).unit.tx = some (.frame id) ∧ s.hub.cells.frame? id = some f ∧ f.station = some k ∧
    entriesOf s id = 0 ∧ (∀ j st, s.station? j = some st → id ∉ st.upq) ∧
    (∀ (j : Fin 4) h, s.hub.mgmt.slots[j] ≠ .built h id) ∧
    (∀ n : Fin 32, (s.ports.seats[n]).unit.tx.bind Transmission.frame? ≠ some id) ∧
    (∀ w : Fin 4, (s.ports.radios[w]).unit.tx.bind Transmission.frame? ≠ some id)

/-- The bytes `v` are `n`, and hold each of `fields` at its offset. -/
def Holds (v : List Byte) (n : Nat) (fields : List (Nat × List Byte)) : Prop :=
  v.length = n ∧ ∀ p ∈ fields, (v.drop p.1).take p.2.length = p.2

/-- The counter block from the offset `o` (11.2). -/
def counterFields (o : Nat) (r : StationCounters) : List (Nat × List Byte) :=
  [(o, beBytes 4 r.upFrames.toNat), (o + 4, beBytes 6 r.upBytes.toNat), (o + 10, beBytes 6 r.upMetered.toNat),
    (o + 16, beBytes 4 r.downFrames.toNat), (o + 20, beBytes 6 r.downBytes.toNat),
    (o + 26, beBytes 6 r.downMetered.toNat), (o + 32, beBytes 4 r.drops.toNat)]

/-- The allowance block from the offset `o` (11.2): absent, all 0. -/
def allowanceFields (o : Nat) : Option Allowance → List (Nat × List Byte)
  | none => [(o, List.replicate 16 0)]
  | some a =>
    [(o, [1, boolByte a.renew, BitVec.ofNat 8 a.renewals, 0]), (o + 4, beBytes 4 a.base), (o + 8, beBytes 4 a.current),
      (o + 12, beBytes 4 a.overrun.toNat)]

/-- The body of ALLOWANCE_SPENT and ALLOWANCE_RENEWED (11.2), with the code of the state after. -/
def allowanceNoticeFields (k : Fin 256) (cls : StationClass) (o : Origin) (a : LinkAddr) (cause : Cause) (len : Nat)
    (al : Allowance) (after : Byte) : List (Nat × List Byte) :=
  [(0, [BitVec.ofNat 8 k.val, cls.code]), (2, o.bytes), (4, addrBytes a), (10, [cause.code, after]), (12, beBytes 2 len),
    (14, beBytes 4 al.base), (18, [BitVec.ofNat 8 al.renewals, 0]), (20, beBytes 4 al.overrun.toNat)]

/-- The body of a notice by the table of 11.2: its code, its length, and what stands at each offset of it. -/
def noticeLayout : Notice → Byte × Nat × List (Nat × List Byte)
  | .stationNew k cls st o a =>
    (0x41, 12, [(0, [BitVec.ofNat 8 k.val, cls.code, st.code, 0]), (4, o.bytes), (6, addrBytes a)])
  | .stationGone k cls o a why r al =>
    (0x42, 64, [(0, [BitVec.ofNat 8 k.val, cls.code]), (2, o.bytes), (4, addrBytes a), (10, [why.code, 0])] ++
      counterFields 12 r ++ allowanceFields 48 al)
  | .allowanceSpent k cls o a cause len al after =>
    (0x43, 24, allowanceNoticeFields k cls o a cause len al after.code)
  | .allowanceRenewed k cls o a cause len al => (0x44, 24, allowanceNoticeFields k cls o a cause len al 0)
  | .originConflict k o attempt a =>
    (0x45, 12, [(0, [BitVec.ofNat 8 k.val, 0]), (2, o.bytes), (4, attempt.bytes), (6, addrBytes a)])
  | .tableFull attempt a => (0x46, 8, [(0, attempt.bytes), (2, addrBytes a)])
  | .memoryError first n kind p =>
    (0x47, 6, [(0, beBytes 2 first), (2, [BitVec.ofNat 8 n, kind.code, BitVec.ofNat 8 (portCode p), 0])])
  | .holdOverrun x act limit =>
    (0x48, 4, [(0, [BitVec.ofNat 8 (portCode (.backbone x)), act.code]), (2, beBytes 2 limit)])
  | .link p l => (0x49, 2, [(0, [BitVec.ofNat 8 (portCode p), l.code])])
  | .pressure entered held high low =>
    (0x4A, 8, [(0, [if entered then 1 else 2, 0]), (2, beBytes 2 held), (4, beBytes 2 high), (6, beBytes 2 low)])
  | .noticesLost n => (0x4B, 2, [(0, beBytes 2 n)])

/-- A frame `f` of the record `st` in slot `k`, received on `p`, is in its queue (R133): `t` on the state `s` before its
reception and the state `s1` with the reception over. -/
def Placed (p : Port) (chain : List Nat) (f : List Byte) (k : Fin 256) (st : Station) (s s1 t : State) : Prop :=
  let r := classify s.windows st true (netAddr f true)
  let own := usesOwnQueue st r.metered
  t.station? k = some { st with
    lastFrame := s.now, idleStart := s.now, ctr := st.ctr.countUp f.length r.metered
    upq := if own then st.upq ++ [chain.headD 0] else st.upq } ∧
  t.up = { s.up with onboard := if own then s.up.onboard else s.up.onboard ++ [chain.headD 0] } ∧
  t.hub.cells.frame? (chain.headD 0) = some
    { length := f.length, arrival := some p, kind := kindOfType (typeOf f), metered := r.metered,
      chain := chain, refs := 1, station := some k, failed := [] } ∧
  t.hub.cells.data = s1.hub.cells.data.writeChain chain f ∧ t.hub.cells.free = s1.hub.cells.free ∧
  t.hub.mgmt = s1.hub.mgmt ∧ (∀ j, j ≠ k → t.station? j = s.station? j) ∧
  t.table.held =
    (if st.state = .held then s.table.held.filter (fun j => decide (j ≠ k)) ++ [k] else s.table.held) ∧
  (t.ports.unitOf p).ctr.rxFrames = (s1.ports.unitOf p).ctr.rxFrames + 1 ∧
  (t.ports.unitOf p).ctr.rxBytes = (s1.ports.unitOf p).ctr.rxBytes + BitVec.ofNat 48 f.length ∧
  (∀ i, r.window = some i → t.windows[i] = { s.windows[i] with up := (s.windows[i]).up + 1 }) ∧
  (∀ i : Fin 9, r.window ≠ some i → t.windows[i] = s.windows[i]) ∧ t.sched = s.sched

/-- A window permits a record in a direction: the permission for its class (R87), and for a HELD or SPENT passenger at an
unmetered window its open (R88). -/
def WindowPermits (w : WindowSettings) (st : Station) (up : Bool) : Prop :=
  let permission := match st.cls with
    | .passenger => w.passenger
    | .crew => w.crew
    | .operations => w.operations
  (permission = .both ∨ permission = .up ∧ up = true ∨ permission = .down ∧ up = false) ∧
    (st.cls = .passenger → st.state = .held ∨ st.state = .spent → w.metered = false → w.opened = true)

/-- The window `i` applies to the address `a` (R79, R86): the lowest-numbered of 0..7 that is enabled and whose base is `a`
with its low k bits cleared, and else the default window. -/
def WindowApplies (ws : Vector Window 9) (a : Nat) (i : Fin 9) : Prop :=
  let inside := fun (j : Fin 9) =>
    (ws[j]).set.enabled = true ∧ (ws[j]).set.base.toNat = a / 2 ^ (ws[j]).set.k * 2 ^ (ws[j]).set.k
  (i = 8 ∨ inside i) ∧ ∀ j, j < i → ¬ inside j

/-- Every record of the table has a station address: its group bit is clear (R38). -/
def AddressesOk (s : State) : Prop := ∀ k st, s.station? k = some st → isGroup st.addr = false

/-- The free-cell stack names no cell twice, and no cell in which a stored frame's record stands (R20, R21). -/
def StackOk (s : State) : Prop :=
  s.hub.cells.free.Nodup ∧ ∀ f ∈ s.hub.cells.frames, f.id ∉ s.hub.cells.free

/-! ## What discards count, and what a removal does -/

/-- `n` at `a`, and 0 anywhere else. -/
def countAt {α : Type} [DecidableEq α] (a : α) (n : Nat) : α → Nat := fun b => if b = a then n else 0

/-- What has been counted from `s` to `t`: `n r` in the tally under each reason `r` (R179), and `d q` tx drops of each
port `q` (R8). -/
structure Counts (s t : State) (n : Discard → Nat) (d : Port → Nat) : Prop where
  tally : ∀ r, t.hub.tallyOf r = s.hub.tallyOf r + BitVec.ofNat 32 (n r)
  txDrops : ∀ q, (t.ports.unitOf q).ctr.txDrops = (s.ports.unitOf q).ctr.txDrops + BitVec.ofNat 32 (d q)

/-- A record with `n` drops more (R39). -/
def moreDrops (n : Nat) (st : Station) : Station :=
  { st with ctr := { st.ctr with drops := st.ctr.drops + BitVec.ofNat 32 n } }

/-- A stored frame's entry or transmission counts, where it is discarded, one rx discard of `q` (R8, log entry 5): the
frame was received on `q`, and is no multi-destination frame. -/
def CountsRx (s : State) (id : Nat) (q : Port) : Prop :=
  ∃ f, s.hub.cells.frame? id = some f ∧ f.arrival = some q ∧ s.hub.cells.isMulti f = false

/-- One reference of the stored frame `id` has been dropped from `s` to `t` (R25): with others left its count is one
less, and no cell goes back; with none left its record is gone, and every cell of it is on the stack, or retired where
it has failed and the list has room (R31). What Cell Memory holds besides is at most the notices that the return of the
cells brings about. -/
def RefDropped (id : Nat) (s t : State) : Prop :=
  (s.hub.cells.frame? id = none → t.hub.cells = s.hub.cells) ∧
  ∀ f, s.hub.cells.frame? id = some f →
    (1 < f.refs → t.hub.cells.frame? id = some { f with refs := f.refs - 1 } ∧ t.hub.cells.free = s.hub.cells.free ∧
      t.hub.cells.retired = s.hub.cells.retired) ∧
    (f.refs ≤ 1 →
      (∃ new : List FrameRec,
        t.hub.cells.frames = s.hub.cells.frames.filter (fun g => decide (g.id ≠ id)) ++ new ∧
        (∀ g ∈ new, g.kind = .notice ∧ g.refs = 1) ∧ (s.hub.mgmt.reportAddr = none → new = [])) ∧
      t.hub.cells.retired = s.hub.cells.retired ++
        (f.chain.filter (fun x => f.failed.contains x)).take (64 - s.hub.cells.retired.length) ∧
      (f.failed = [] → s.hub.mgmt.reportAddr = none → t.hub.cells.free = f.chain.reverse ++ s.hub.cells.free))

/-- The unicasts of the record in slot `k` in the egress queue of an origin's port (R159), by their frames. -/
def unicastsAt (s : State) (k : Fin 256) : Origin → List Nat
  | .seat n => ((s.ports.seats[n]).egress).filter (fun id => decide (s.hub.cells.owner id = some k))
  | .radio w _ => ((s.ports.radios[w]).egress.map (·.id)).filter (fun id => decide (s.hub.cells.owner id = some k))

/-- What a purge of the record in slot `k` counts from `s` to `u` (R44, R48, R53, R69, R134, R159): the entries `upq` of
its upward queue, and those that have left the egress queue of the origin `o`. Each counts one PURGE, and one in the
egress queue one tx drop of its port; and where the entries are the record's own, each a frame of its own, they are all
its unicasts there, each counts one drop of the record, and no other record changes. -/
def PurgeCounts (k : Fin 256) (upq : List Nat) (o : Origin) (s u : State) : Prop :=
  let left := egressLength s o - egressLength u o
  Counts s u (countAt .purge (upq.length + left)) (countAt o.port left) ∧
  ((upq ++ unicastsAt s k o).Nodup → (∀ id ∈ upq, s.hub.cells.owner id = some k) →
    left = (unicastsAt s k o).length ∧
    (∀ st st', s.station? k = some st → u.station? k = some st' → st'.ctr = (moreDrops (upq.length + left) st).ctr) ∧
    ∀ j, j ≠ k → u.station? j = s.station? j)

/-- The freeing (R56) of the record `st` in slot `k`, removed for `why`: first its STATION_GONE, which carries its figures
as they stand, but for RELEASED; then the answer to a RELEASE parked on it; then its slot is empty, it is in no held
order and holds no run, and the onboard entries that name the slot name none (R135). -/
def Freed (k : Fin 256) (st : Station) (why : Reason) (s t : State) : Prop :=
  let told := if why = .released then s
    else raiseNotice (.stationGone k st.cls st.origin st.addr why st.ctr st.allowance) s
  ∃ u, (parkedRelease s.hub.mgmt k = none → u = told) ∧
    (∀ j, parkedRelease s.hub.mgmt k = some j → u = fixReply j (.fixed .ok (releaseBody k st)) false told) ∧
    t = { u with
      table := { slots := u.table.slots.set k none, held := u.table.held.filter (fun j => decide (j ≠ k)) }
      up := { u.up with run := u.up.run.filter (fun r => decide (r.holder ≠ k)) }
      hub := { u.hub with cells := { u.hub.cells with frames := u.hub.cells.frames.map (fun f =>
        if f.station = some k ∧ f.id ∈ u.up.onboard then { f with station := none } else f) } } }

/-- The removal (R52, R53) of the record `st` in slot `k` for `why`, from `s` to `t`. Its queues are purged and counted,
it leaves the held order, and a radio gets a DROP order for AGED, EVICTED and RELEASED: that is `u`. Then it is freed, or
LEAVING with its reason while an upward frame of it is in transmission. -/
def Removed (k : Fin 256) (st : Station) (why : Reason) (s t : State) : Prop :=
  ∃ u st', u.station? k = some st' ∧ apartFromDrops st' = apartFromDrops { st with upq := [] } ∧
    (∀ j r, j ≠ k → s.station? j = some r →
      ∃ r', u.station? j = some r' ∧ apartFromDrops r' = apartFromDrops r) ∧
    PurgeCounts k st.upq st.origin s u ∧
    u.table.held = s.table.held.filter (fun j => decide (j ≠ k)) ∧
    (∀ w : Fin 4, (u.ports.radios[w]).orders =
      match st.origin with
      | .radio v i => if v = w ∧ (why = .aged ∨ why = .evicted ∨ why = .released) then
          placeOrder { kind := .drop, index := i } (s.ports.radios[w]).orders
        else (s.ports.radios[w]).orders
      | .seat _ => (s.ports.radios[w]).orders) ∧
    u.up.onboard = s.up.onboard ∧ u.hub.mgmt.slots = s.hub.mgmt.slots ∧ u.windows = s.windows ∧ u.sched = s.sched ∧
    u.consist = s.consist ∧ u.hold = s.hold ∧ u.now = s.now ∧
    (inFlight s k = true →
      t = { u with table := { u.table with slots := u.table.slots.set k (some { st' with state := .leaving why }) } }) ∧
    (inFlight s k = false → Freed k st' why u t)

/-- The removal for `why` of the records in the slots of a list, one after another; one that is LEAVING already is passed
over (R55). -/
def RemovedAll (why : Reason) : List (Fin 256) → State → State → Prop
  | [], s, t => t = s
  | k :: ks, s, t => ∃ u,
    (∀ st, s.station? k = some st → st.isLeaving = false → Removed k st why s u) ∧
    ((∀ st, s.station? k = some st → st.isLeaving = true) → u = s) ∧ RemovedAll why ks u t

/-- The slot of a reply in transmission. -/
def replySlot? : Transmission → Option (Fin 4)
  | .reply _ k => some k
  | _ => none

/-- How many stored frames `p` has in transmission: one, or none. -/
def inTransmission (s : State) (p : Port) : Nat :=
  if ((s.ports.unitOf p).tx.bind Transmission.frame?).isSome then 1 else 0

/-- How many frames `p` has in reception that still take cells: one, or none. -/
def inReception (s : State) (p : Port) : Nat :=
  match (s.ports.unitOf p).rx with
  | .taking _ => 1
  | _ => 0

/-- How many replies wait for `p` (R173), one in transmission there not among them. -/
def waitingReplies (s : State) (p : Port) : Nat :=
  (List.finRange 4).countP (fun k =>
    decide (k ∈ repliesFor s.hub.mgmt p) && !decide (((s.ports.unitOf p).tx.bind replySlot?) = some k))

/-- What is lost with the link of `p`, from `s` to `a`, its queue and its waiting replies aside (R2, R3, R4, R10, R22): a
stored frame in transmission counts one ABORTED and one tx drop of `p`, and a frame in reception one WIRE. No record
changes, and every other stored frame names the record that it named. -/
def LostWithLink (p : Port) (s a : State) : Prop :=
  Counts s a (fun r => countAt .aborted (inTransmission s p) r + countAt .wire (inReception s p) r)
    (countAt p (inTransmission s p)) ∧ a.table = s.table ∧
    ∀ id, (s.ports.unitOf p).tx.bind Transmission.frame? ≠ some id → a.hub.cells.owner id = s.hub.cells.owner id

/-- The waiting replies of `p` are discarded, from `b` to `u`: each counts one PURGE and one tx drop of `p` (R2), `m` of
them in all, and a record changes only where one of them names it. -/
def RepliesLost (p : Port) (m : Nat) (b u : State) : Prop :=
  Counts b u (countAt .purge m) (countAt p m) ∧
    ∀ k, (∀ (j : Fin 4) h id, b.hub.mgmt.slots[j] = .built h id → b.hub.cells.owner id ≠ some k) →
      u.station? k = b.station? k

/-! ## The pressure state, and the order of the timers -/

/-- The taking of `n` cells more, one after another, enters PRESSURE (R33): the state is NORMAL, and cells held come to the
high mark. -/
def Enters (h : Hub) (n : Nat) : Prop :=
  h.cells.pressure = .normal ∧ h.cells.high ≤ 3072 - (h.cells.free.length - n) - h.cells.retired.length

/-- What the part does after it has built something into `n` cells of `h` (R26, R33): `u` is the hub with it built, and `t`
the hub after that. Where these cells enter PRESSURE, PRESSURE_SEEN counts one, and a PRESSURE notice (entered) is raised
with the cells held at the taking that came to the high mark, and the marks; else nothing more. MODEL'S INFERENCE, log
entry 8: the flag and the notice come when the whole taking is over. -/
def EntersAfter (sd : Sender) (n : Nat) (h u t : Hub) : Prop :=
  (¬ Enters h n → u.cells.pressure = h.cells.pressure ∧ t = u) ∧
  (Enters h n → u.cells.pressure = .pressure ∧ t = (u.flag .pressureSeen).raise sd
    (.pressure true (max h.cells.high (3072 - (h.cells.free.length - 1) - h.cells.retired.length)) h.cells.high
      h.cells.low))

/-- The pressure state of `h` is tested against its marks with cells held as it stands (R35, R36), and `t` is the hub
after: entered from NORMAL at the high mark or above, with flag and notice; left from PRESSURE at the low mark or below,
with its notice; and else kept. -/
def PressureTested (sd : Sender) (h t : Hub) : Prop :=
  (h.cells.pressure = .normal → h.cells.high ≤ h.cells.held →
    t = (({ h with cells := { h.cells with pressure := .pressure } } : Hub).flag .pressureSeen).raise sd
      (.pressure true h.cells.held h.cells.high h.cells.low)) ∧
  (h.cells.pressure = .pressure → h.cells.held ≤ h.cells.low →
    t = ({ h with cells := { h.cells with pressure := .normal } } : Hub).raise sd
      (.pressure false h.cells.held h.cells.high h.cells.low)) ∧
  (h.cells.pressure = .normal ∧ h.cells.held < h.cells.high ∨
    h.cells.pressure = .pressure ∧ h.cells.low < h.cells.held → t = h)

/-- The place of a timer's command among those that one unit of time brings: of BA and then of BB held-until, hold limit
and hold repeat; the idle timers in slot order; the epoch counter; the store write. MODEL'S CHOICE, log entry 20. -/
def timerPlace : Instr → Nat
  | .heldUntilReached .ba => 0
  | .holdLimitExpiry .ba => 1
  | .holdRepeatTimerExpiry .ba => 2
  | .heldUntilReached .bb => 3
  | .holdLimitExpiry .bb => 4
  | .holdRepeatTimerExpiry .bb => 5
  | .idleTimerExpiry k => 6 + k.val
  | .epochCounterExpiry => 262
  | .storeWriteEnds _ => 263
  | _ => 264

end Sys2Proof.Safety
end

