-- ==== Sys2Proof/Certificates/Slice0/Obligations.lean ====
section
/-! DEFINITION. The statements about the part. Each docstring names the rules of spec/ that it rests on; the sections, and
the quotations of the rules that a statement states whole, stand in OBLIGATIONS.json.

A statement about a command of a request row has the hypothesis `Takes s fs k rq`: the request at the head of the input
queue can be taken, reads without a multi-bit error and passes the common checks. Its conclusion gives the state in full,
on the state after the take: what does not stand in it is unchanged. -/

open Sys2Proof Sys2Proof.Machine Sys2Proof.Safety

/-! ## The step -/

/-- A step takes the command at the front of the queue and runs it on the state with the queue's rest. -/
def Obligations.StepRunsTheFront : Prop :=
  ∀ (c : Instr) (rest : List Instr) (s : State), s.pending = c :: rest → step s = exec c { s with pending := rest }

/-- On an empty queue one unit of 10 µs passes, and nothing changes but the time, the epoch counter and the queue of
commands. In RUNNING the epoch counter counts milliseconds up to T_e − 1, and in STOPPED it holds (R109). The commands of
the timers whose moments have come by the end of the unit join the queue, each once, and no others: the held-until time of
an end that is held (R16); the hold limit of a continuous hold with no overrun recorded (R17); the repeat timer of an end,
where it runs (R14); the idle timer of a record that is not LEAVING, with an idle interval above 0 (R46); the epoch counter
of a RUNNING scheduler, where T_e is reached (R109); the store write of a parked SAVE_SETTINGS whose 40 ms are over
(R186). MODEL'S CHOICES: the unit of time, and that the timers' commands join the queue when a unit has passed with none
waiting (log entry 1); whether the store accepts a write that the clock ends, a free value (log entry 7); the order of
the commands (log entry 20, `timerPlace`). -/
def Obligations.IdleStepPassesOneUnit : Prop :=
  ∀ s : State, s.pending = [] →
    let now := s.now + 1
    -- what the epoch has lasted with this unit, and what it lasts, in units
    let ran := 100 * s.sched.counter + s.sched.phase + 1
    let epoch := 100 * s.sched.params.te
    ∃ t, step s = .next t ∧ t = { s with now := now, sched := t.sched, pending := t.pending } ∧
      (s.sched.running = false → t.sched = s.sched) ∧
      (s.sched.running = true → ran < epoch →
        t.sched = { s.sched with counter := ran / 100, phase := ran % 100 }) ∧
      (s.sched.running = true → epoch ≤ ran →
        t.sched = { s.sched with counter := s.sched.params.te - 1, phase := 100 }) ∧
      (∀ c : Instr, c ∈ t.pending ↔ match c with
        | .heldUntilReached x => ∃ m, (s.ports.endOf x).heldUntil = some m ∧ m ≤ now
        | .holdLimitExpiry x => ∃ u m, (s.ports.endOf x).heldUntil = some u ∧ (s.ports.endOf x).holdStart = some m ∧
            (s.ports.endOf x).overrun = false ∧ m + 100 * s.hold.limit ≤ now
        | .holdRepeatTimerExpiry x => ∃ m, (s.ports.endOf x).repeatAt = some m ∧ m ≤ now
        | .idleTimerExpiry k => ∃ st, s.station? k = some st ∧ st.isLeaving = false ∧ 0 < st.idle ∧
            st.idleStart + 100000 * st.idle ≤ now
        | .epochCounterExpiry => s.sched.running = true ∧ epoch ≤ ran
        | .storeWriteEnds accepted => accepted = Config.storeAccepts now ∧ ∃ (k : Fin 4) (h : ReqHeader)
            (image : StoredSettings) (start : Nat), s.hub.mgmt.slots[k] = .parked h (.save image start) ∧
            (∀ (j : Fin 4) h' image' start', j < k → s.hub.mgmt.slots[j] ≠ .parked h' (.save image' start')) ∧
            start + 4000 ≤ now
        | _ => False) ∧
      t.pending.Pairwise (fun a b => timerPlace a < timerPlace b)

/-- Every command completes: it answers a next state, and leaves the queue of commands and the identity alone. No
command ends the run. MODEL'S CHOICES: a command whose event cannot happen in the state it finds completes and changes
nothing (log entry 2); the queue of the commands that wait is the model's own, and no command changes it (log entry 22),
POWER_ON included, which keeps the identity too (log entry 32). -/
def Obligations.EveryCommandCompletes : Prop :=
  ∀ (i : Instr) (s : State), ∃ t, exec i s = .next t ∧ t.pending = s.pending ∧ t.identity = s.identity

/-! ## Invariants -/

/-- The state after reset is sound. -/
def Obligations.ResetIsSound : Prop :=
  MemoryOk State.reset ∧ CreditOk State.reset ∧ AllowancesOk State.reset ∧ HeldOrderOk State.reset ∧
    CellsOk State.reset ∧ CapacitiesOk State.reset ∧ AddressesOk State.reset

/-- Every step keeps the canonical form of the bytes of the cells. -/
def Obligations.MemoryFormKept : Prop := ∀ s t : State, MemoryOk s → step s = .next t → MemoryOk t

/-- R126: every step keeps the credit of every record and the surplus pool within −1535..16,777,215. -/
def Obligations.CreditRangeKept : Prop := ∀ s t : State, CreditOk s → step s = .next t → CreditOk t

/-- R94: every step keeps the pairing of admission state and allowance, the state before bar included. -/
def Obligations.AllowancePairingKept : Prop := ∀ s t : State, AllowancesOk s → step s = .next t → AllowancesOk t

/-- R41: every step keeps the held order the list of the HELD records, each once. -/
def Obligations.HeldOrderKept : Prop := ∀ s t : State, HeldOrderOk s → step s = .next t → HeldOrderOk t

/-- R20: every step keeps every cell in exactly one place: the free stack, the chain of one frame, or the retired
list. -/
def Obligations.CellsConserved : Prop := ∀ s t : State, CellsOk s → step s = .next t → CellsOk t

/-- 11.5: every step keeps every queue within its capacity: upward queues 24, egress queues 64, the onboard queue and
the transit queues 128, the input queue 4, the notice queue 12, the retired list 64; and the order queue of a radio at
one order for each index 0..63 (R72), so at most 64, which rests on the association indices of the records (R38). -/
def Obligations.CapacitiesKept : Prop := ∀ s t : State, CapacitiesOk s → step s = .next t → CapacitiesOk t

/-- R38: every step keeps the addresses of the station records free of the group bit. -/
def Obligations.AddressesKept : Prop := ∀ s t : State, AddressesOk s → step s = .next t → AddressesOk t

/-! ## Power-on and links (chapter 1) -/

/-- POWER_ON (R184, R187 and the power-on values of each chapter): the settings of the store are in force, or the
defaults with STORE_DEFAULTED where its check fails; and every other piece of state is at its power-on value, field by
field. MODEL'S CHOICES: the queue of commands, the identity and the time stand as they were (log entry 32), and the
contents of the cells, undefined at power-on, read as 0 with no fault (log entries 4 and 30). -/
def Obligations.PowerOnLoadsTheStore : Prop :=
  ∀ s : State,
    let store := s.hub.mgmt.store
    let q := if store.checkOk then store.settings else StoredSettings.defaults
    let counters : PortCounters := { rxFrames := 0, rxBytes := 0, rxDiscards := 0, txFrames := 0, txBytes := 0, txDrops := 0 }
    let unit : PortUnit := { link := .down, rx := .idle, tx := none, ctr := counters }
    let radio : RadioLink :=
      { unit := unit, egress := [], orders := [], noticesTaken := 0, noticesIgnored := 0, ordersSent := 0 }
    let backbone : BackboneEnd :=
      { unit := unit, transit := [], heldUntil := none, holdStart := none, overrun := false, outstanding := false,
        repeatAt := none, pendingHold := none, streak := 0, lastTransit := false, holdsSent := 0, releasesSent := 0,
        holdsReceived := 0, releasesReceived := 0, overruns := 0 }
    let clear : Vector StickyFlag 11 := Vector.replicate 11 { isSet := false, count := 0 }
    exec .powerOn s = .next
      { pending := s.pending
        now := s.now
        identity := s.identity
        hub :=
          { cells :=
              { data := [], free := List.range 3072, frames := [], retired := [], faults := [], pressure := .normal,
                high := q.high, low := q.low, singleCapture := none, multiCapture := none }
            mgmt :=
              { input := [], slots := Vector.replicate 4 .free, waiting := [], builtOrder := [], notices := [], lost := 0
                flags :=
                  if store.checkOk then clear else clear.set Flag.storeDefaulted.index { isSet := true, count := 1 }
                tally := Vector.replicate 18 0, snapshot := none, store := store, reportAddr := q.reportAddr,
                defaultIdle := q.defaultIdle } }
        ports :=
          { seats := q.designations.map (fun d => { unit := unit, designation := d, egress := [] })
            radios := Vector.replicate 4 radio, ba := backbone, bb := backbone }
        table := { slots := Vector.replicate 256 none, held := [] }
        windows := q.windows.map (fun w => { set := w, up := 0, down := 0, refused := 0 })
        sched :=
          { running := false, counter := 0, phase := 0, number := 0, params := q.params, pendingParams := none,
            surplus := 0, active := 0, weight := 0, shares := 0 }
        up :=
          { onboard := [], opsPtr := 255, crewPtr := 255, creditPtr := 255, surplusPtr := 255, run := none,
            guarantee := 0 }
        consist := { carriage := 0, lead := none }
        hold := q.hold }

/-- LINK_UP (R1): a DOWN port that is not held DOWN goes UP with its LINK notice and nothing else; on a port that is
UP, or on a seat port designated DISABLED, nothing happens. MODEL'S CHOICE, log entry 2: a link that is UP already
changes nothing. -/
def Obligations.LinkComesUp : Prop :=
  ∀ (p : Port) (s : State),
    ((s.ports.unitOf p).link = .down → (∀ n : Fin 32, p = .seat n → (s.ports.seats[n]).designation ≠ .disabled) →
      exec (.linkUp p) s = .next { s with
        ports := s.ports.modUnit p (fun u => { u with link := .up })
        hub := s.hub.raise s.sender (.link p .up) }) ∧
    ((s.ports.unitOf p).link = .up → exec (.linkUp p) s = .next s) ∧
    (∀ n : Fin 32, p = .seat n → (s.ports.seats[n]).designation = .disabled → exec (.linkUp p) s = .next s)

/-- SEAT_PORT_DOWN and RADIO_LINK_DOWN (R2, R3): the port's transmission, reception, queue, waiting replies or orders
are gone; a record of the port with no upward frame in transmission is freed (R52, R56), one with such a frame is
LEAVING with reason LINK and no upward queue (in a state that keeps R20), and one that was LEAVING already stays as it
is but for its drops (R55); for a record alone on a port with nothing queued the whole outcome is given, with its
STATION_GONE of reason LINK before the LINK notice. Records of other origins keep everything but their drops, and other
ports everything but their counters; the onboard queue, the windows, the scheduler, the consist, the hold settings and
the time stay as they are.
What is counted (R2, R3, R8, R10, R52, R53): the transmission ABORTED, the reception WIRE, every entry of the queue and
every waiting reply PURGE, each with its tx drop of the port where it has one (an entry with the drop of the record it
names, DiscardCountsOnce); then each record of the port is removed in slot order, with its own purges, its STATION_GONE
of reason LINK and the answer to a RELEASE parked on it (`RemovedAll`). MODEL'S CHOICES: the records are removed in slot order, and
the LINK notice comes last (log entry 10); the entries of the queue go head first (log entry 35). No DROP order is placed. The
statement says nothing of the arbiter's pointers, guarantee count and run (a run held by a removed station ends, log
entry 14), nor of the store and the snapshot. -/
def Obligations.AttachmentLinkGoesDown : Prop :=
  (∀ (n : Fin 32) (s : State), (s.ports.seats[n]).unit.link = .up → ∃ t, exec (.seatPortDown n) s = .next t ∧
    (t.ports.seats[n]).unit.link = .down ∧ (t.ports.seats[n]).unit.tx = none ∧ (t.ports.seats[n]).unit.rx = .idle ∧
    (t.ports.seats[n]).egress = [] ∧ (t.ports.seats[n]).designation = (s.ports.seats[n]).designation ∧
    repliesFor t.hub.mgmt (.seat n) = [] ∧
    (∀ k st, t.station? k = some st → st.origin = .seat n → st.isLeaving = true) ∧
    (∀ k st, s.station? k = some st → st.origin = .seat n →
      (st.isLeaving = true →
        ∃ st', t.station? k = some st' ∧ apartFromDrops st' = apartFromDrops st) ∧
      (st.isLeaving = false → inFlight s k = false → t.station? k = none) ∧
      (CellsOk s → st.isLeaving = false → OnlyOnAir s k → ∃ st', t.station? k = some st' ∧
        apartFromDrops st' = apartFromDrops { st with state := .leaving .link, upq := [] }) ∧
      (s.table.onSeat n = [k] → st.isLeaving = false → inFlight s k = false → st.upq = [] → (s.ports.seats[n]).egress = [] →
        (s.ports.seats[n]).unit.tx = none → (s.ports.seats[n]).unit.rx = .idle → repliesFor s.hub.mgmt (.seat n) = [] →
        parkedRelease s.hub.mgmt k = none → exec (.seatPortDown n) s = .next (raiseNotice (.link (.seat n) .down) (emptySlot k
          (raiseNotice (.stationGone k st.cls st.origin st.addr .link st.ctr st.allowance) { s with
            ports := s.ports.modSeat n (fun q => { q with unit := { q.unit with link := .down } })
            table := { s.table with held := s.table.held.filter (fun j => decide (j ≠ k)) } }))))) ∧
    (∀ k st, s.station? k = some st → st.origin ≠ .seat n →
      ∃ st', t.station? k = some st' ∧ apartFromDrops st' = apartFromDrops st) ∧
    (∀ m : Fin 32, m ≠ n → quietSeat t.ports.seats[m] = quietSeat s.ports.seats[m]) ∧
    (∀ w : Fin 4, quietRadio t.ports.radios[w] = quietRadio s.ports.radios[w]) ∧
    (∀ x, quietEnd (t.ports.endOf x) = quietEnd (s.ports.endOf x)) ∧
    t.up.onboard = s.up.onboard ∧ t.windows = s.windows ∧ t.sched = s.sched ∧ t.consist = s.consist ∧
    t.hold = s.hold ∧ t.now = s.now ∧
    -- what is counted, and the removals
    (∃ a u t', LostWithLink (.seat n) s a ∧ (a.ports.seats[n]).egress = [] ∧
      RepliesLost (.seat n) (waitingReplies s (.seat n))
        (discardEntries .purge (some (.seat n)) (s.ports.seats[n]).egress a) u ∧
      RemovedAll .link (s.table.onSeat n) u t' ∧ t = raiseNotice (.link (.seat n) .down) t')) ∧
  (∀ (w : Fin 4) (s : State), (s.ports.radios[w]).unit.link = .up → ∃ t, exec (.radioLinkDown w) s = .next t ∧
    (t.ports.radios[w]).unit.link = .down ∧ (t.ports.radios[w]).unit.tx = none ∧
    (t.ports.radios[w]).unit.rx = .idle ∧ (t.ports.radios[w]).egress = [] ∧ (t.ports.radios[w]).orders = [] ∧
    (∀ k st, t.station? k = some st → st.origin.isRadio w = true → st.isLeaving = true) ∧
    (∀ k st, s.station? k = some st → st.origin.isRadio w = true →
      (st.isLeaving = true →
        ∃ st', t.station? k = some st' ∧ apartFromDrops st' = apartFromDrops st) ∧
      (st.isLeaving = false → inFlight s k = false → t.station? k = none) ∧
      (CellsOk s → st.isLeaving = false → OnlyOnAir s k → ∃ st', t.station? k = some st' ∧
        apartFromDrops st' = apartFromDrops { st with state := .leaving .link, upq := [] }) ∧
      (s.table.onRadio w = [k] → st.isLeaving = false → inFlight s k = false → st.upq = [] → (s.ports.radios[w]).egress = [] →
        (s.ports.radios[w]).unit.tx = none → (s.ports.radios[w]).unit.rx = .idle →
        parkedRelease s.hub.mgmt k = none → exec (.radioLinkDown w) s = .next (raiseNotice (.link (.radio w) .down) (emptySlot k
          (raiseNotice (.stationGone k st.cls st.origin st.addr .link st.ctr st.allowance) { s with
            ports := s.ports.modRadio w (fun q => { q with unit := { q.unit with link := .down }, orders := [] })
            table := { s.table with held := s.table.held.filter (fun j => decide (j ≠ k)) } }))))) ∧
    (∀ k st, s.station? k = some st → st.origin.isRadio w = false →
      ∃ st', t.station? k = some st' ∧ apartFromDrops st' = apartFromDrops st) ∧
    (∀ m : Fin 32, quietSeat t.ports.seats[m] = quietSeat s.ports.seats[m]) ∧
    (∀ v : Fin 4, v ≠ w → quietRadio t.ports.radios[v] = quietRadio s.ports.radios[v]) ∧
    (∀ x, quietEnd (t.ports.endOf x) = quietEnd (s.ports.endOf x)) ∧
    t.up.onboard = s.up.onboard ∧ t.windows = s.windows ∧ t.sched = s.sched ∧ t.consist = s.consist ∧
    t.hold = s.hold ∧ t.now = s.now ∧
    -- what is counted, and the removals
    (∃ a t', LostWithLink (.radio w) s a ∧ (a.ports.radios[w]).egress = [] ∧
      let u := discardEntries .purge (some (.radio w)) ((s.ports.radios[w]).egress.map (·.id)) a
      RemovedAll .link (s.table.onRadio w)
        { u with ports := u.ports.modRadio w (fun q => { q with orders := [] }) } t' ∧
      t = raiseNotice (.link (.radio w) .down) t'))

/-- BACKBONE_END_DOWN (R4, R14): the end's transmission, reception, transit queue and hold state in both directions are
gone; the other end sends a release where a hold was outstanding out of it; the consist is unchanged, and so is every
record that is not LEAVING, but for its drops. What is counted (R8, R10): the transmission ABORTED with its tx drop; then
a LEAVING record whose upward frame it was is freed (R56), with its STATION_GONE and the answer to a RELEASE parked on
it; then the reception WIRE, and every entry of the transit queue PURGE with its tx drop of the end. MODEL'S CHOICES: the
LINK notice comes last (log entry 10); the entries go head first (log entry 35). -/
def Obligations.BackboneEndGoesDown : Prop :=
  ∀ (x : End) (s : State), (s.ports.endOf x).unit.link = .up → ∃ t, exec (.backboneEndDown x) s = .next t ∧
    (t.ports.endOf x).unit.link = .down ∧ (t.ports.endOf x).unit.tx = none ∧ (t.ports.endOf x).unit.rx = .idle ∧
    (t.ports.endOf x).transit = [] ∧ (t.ports.endOf x).heldUntil = none ∧ (t.ports.endOf x).holdStart = none ∧
    (t.ports.endOf x).overrun = false ∧ (t.ports.endOf x).outstanding = false ∧
    (t.ports.endOf x).repeatAt = none ∧ (t.ports.endOf x).pendingHold = none ∧
    quietEnd (t.ports.endOf x.other) =
      (if (s.ports.endOf x.other).outstanding = true then
        { quietEnd (s.ports.endOf x.other) with pendingHold := some 0, outstanding := false, repeatAt := none }
      else quietEnd (s.ports.endOf x.other)) ∧
    (∀ m : Fin 32, quietSeat t.ports.seats[m] = quietSeat s.ports.seats[m]) ∧
    (∀ w : Fin 4, quietRadio t.ports.radios[w] = quietRadio s.ports.radios[w]) ∧
    (∀ k st, s.station? k = some st → st.isLeaving = false →
      ∃ st', t.station? k = some st' ∧ apartFromDrops st' = apartFromDrops st) ∧
    t.up.onboard = s.up.onboard ∧ t.windows = s.windows ∧ t.sched = s.sched ∧ t.consist = s.consist ∧
    t.hold = s.hold ∧ t.now = s.now ∧
    -- what is counted: `a` after the abort, `b` after the freeing, `c` after the loss of the reception
    (∃ a b c ps,
      let aborted := inTransmission s (.backbone x)
      let ended := fun (k : Fin 256) (st : Station) (why : Reason) => ∃ id,
        (s.ports.endOf x).unit.tx = some (.frame id) ∧ s.hub.cells.owner id = some k ∧ s.station? k = some st ∧
          st.state = .leaving why ∧ inFlight a k = false
      let u := discardEntries .purge (some (.backbone x)) (s.ports.endOf x).transit c
      Counts s a (countAt .aborted aborted) (countAt (.backbone x) aborted) ∧ a.table = s.table ∧
      (a.ports.endOf x).unit.tx = none ∧
      (∀ k st why, ended k st why → Freed k st why a b) ∧ ((∀ k st why, ¬ ended k st why) → b = a) ∧
      Counts b c (countAt .wire (inReception s (.backbone x))) (fun _ => 0) ∧ c.table = b.table ∧
      (c.ports.endOf x).transit = [] ∧ (∀ q, (ps.unitOf q).ctr = (u.ports.unitOf q).ctr) ∧
      t = raiseNotice (.link (.backbone x) .down) { u with ports := ps })

/-! ## Cell Memory and discards (chapter 2) -/

/-- TAKE_CELL (R22, R33): the top of the stack joins the reception, with an entry into PRESSURE where the high mark is
reached: PRESSURE_SEEN counts one, and the PRESSURE notice (entered) is raised with the cells held and the marks; with
the stack empty the frame is discarded (NO_CELLS), its cells go back and the rest of it is dropped: no later byte of
it changes anything. The end of a reception of L bytes: cells still missing are taken as by TAKE_CELL; with all of
them the reception is over and has its chain; one that was discarded is over with none, and its frame is nothing more
to any row of a reception: the frames of seats, radios and backbone ends, hold frames, and the three radio notices.
MODEL'S INFERENCE, log entry 17: the end of a reception takes the cells still missing, as by TAKE_CELL (the clauses on
`endReception`). MODEL'S CHOICES: a cell taken off the stack counts as written, so its fault is gone (log entry 30); a
good frame without the hold type code is no event of the row of hold frames, which changes nothing then (log entry 2).
-/
def Obligations.ReceptionTakesCells : Prop :=
  (∀ (p : Port) (s : State) (chain : List Nat), (s.ports.unitOf p).link = .up →
    (s.ports.unitOf p).rx = .taking chain ∨ ((s.ports.unitOf p).rx = .idle ∧ chain = []) →
    (∀ x rest, s.hub.cells.free = x :: rest → ∃ t, exec (.takeCell p) s = .next t ∧
      t.ports = s.ports.modUnit p (fun u => { u with rx := .taking (chain ++ [x]) }) ∧ blocks t = blocks s ∧
      (s.hub.cells.pressure = .pressure ∨ 3072 - rest.length - s.hub.cells.retired.length < s.hub.cells.high →
        t.hub = { s.hub with cells := { s.hub.cells with
          free := rest, faults := s.hub.cells.faults.filter (fun f => decide (f.cell ≠ x)) } }) ∧
      (s.hub.cells.pressure = .normal → s.hub.cells.high ≤ 3072 - rest.length - s.hub.cells.retired.length →
        let held := 3072 - rest.length - s.hub.cells.retired.length
        let entered : Hub := { s.hub with cells := { s.hub.cells with
          free := rest, faults := s.hub.cells.faults.filter (fun f => decide (f.cell ≠ x)), pressure := .pressure } }
        t.hub = (entered.flag .pressureSeen).raise s.sender
          (.pressure true held s.hub.cells.high s.hub.cells.low) ∧
        t.hub.cells.pressure = .pressure ∧
        t.hub.flagOf .pressureSeen =
          { isSet := true, count := min ((s.hub.flagOf .pressureSeen).count + 1) 65535 })) ∧
    (s.hub.cells.free = [] → exec (.takeCell p) s = .next { s with
      ports := (s.ports.count p PortCounters.rxDiscard).modUnit p (fun u => { u with rx := .dropping })
      hub := Hub.giveBack s.sender [] chain (s.hub.tally .noCells) })) ∧
  (∀ (p : Port) (s : State), (s.ports.unitOf p).link = .up → (s.ports.unitOf p).rx = .dropping →
    exec (.takeCell p) s = .next s) ∧
  -- the end of a reception
  (∀ (p : Port) (L : Nat) (s : State),
    let finished := { s with ports := s.ports.modUnit p (fun u => { u with rx := .idle }) }
    (∀ chain, (s.ports.unitOf p).rx = .taking chain → chain.length = cellsFor L →
      endReception p L s = (some chain, finished)) ∧
    ((s.ports.unitOf p).rx = .dropping → endReception p L s = (none, finished)) ∧
    (∀ chain t, (s.ports.unitOf p).link = .up →
      (s.ports.unitOf p).rx = .taking chain ∨ ((s.ports.unitOf p).rx = .idle ∧ chain = []) →
      chain.length < cellsFor L → exec (.takeCell p) s = .next t → endReception p L s = endReception p L t)) ∧
  (∀ (s s1 : State) (f : List Byte) (ok : Bool),
    let lost := fun (p : Port) => canEnd p f.length s = true ∧ endReception p f.length s = (none, s1)
    (∀ n, lost (.seat n) → exec (.seatFrameReceived n f ok) s = .next s1) ∧
    (∀ w kind i, lost (.radio w) → exec (.radioDataFrameReceived w kind i f ok) s = .next s1) ∧
    (∀ x, lost (.backbone x) → exec (.backboneFrameReceived x f ok) s = .next s1 ∧
      (ok = false ∨ f.length < 64 ∨ 1536 < f.length ∨ typeOf f = typeHold →
        exec (.holdFrameReceived x f ok) s = .next s1) ∧
      (ok = true → 64 ≤ f.length → f.length ≤ 1536 → typeOf f ≠ typeHold →
        exec (.holdFrameReceived x f ok) s = .next s))) ∧
  (∀ (w : Fin 4) (index : Byte) (a : LinkAddr) (len : Nat) (ok : Bool) (s s1 : State),
    canEnd (.radio w) len s = true → endReception (.radio w) len s = (none, s1) →
    exec (.associated w index a len ok) s = .next s1 ∧ exec (.disassociated w index len ok) s = .next s1 ∧
      exec (.radioStart w len ok) s = .next s1)

/-- What the discarding of a received frame counts and frees (R25, R31, R132, R157): one in the tally under its reason,
one rx discard of its port, one tx drop of the port named and one drop of the record named; the frame's record leaves
the list of the stored frames, and every cell of it goes back to the stack, or to the retired list where it has failed
and the list has room. What Cell Memory holds besides is at most the notices that the return brings about. The
discarding (WIRE) of what fails its receive checks or is valid nowhere (R5, R6, R22): one in the tally, one rx discard
of its port, its cells back on the stack; no frame, no record and no other figure of a port changes.
The return of cells (R21, R31, R33), which is the freeing of a frame at its last reference too: MEMORY_DEGRADED occurs for
each failed cell that the retired list has no room for; in PRESSURE, where cells held come to the low mark or below, the
state is NORMAL again and a PRESSURE notice (left) is raised, with the cells held at the return that came there and the
marks; else the state is kept and no notice is raised.
The discarding of one queue entry (R2, R29, R48, R134, R159, R164): one in the tally under its reason, one tx drop of the
port it was bound for where it was bound for one, one drop of the record its frame names, and one reference of the frame
dropped (R25, R31). Of several: one each, and for entries with a frame of its own each, one drop of a record for each
that names it.
The aborting of a stored frame's transmission (R8, R10): one ABORTED, one tx drop of its port, and the reference dropped;
a reply frees its slot (R173); no record changes but one that was LEAVING for the frame, which is freed
(BackboneEndGoesDown). MODEL'S INFERENCES: an entry or a transmission counts one rx discard of the port its frame was
received on, unless it is a multi-destination frame (log entry 5); a hold frame or an order in transmission is lost
uncounted (log entry 24); the flag and the notice of a return come when the whole chain is back (log entry 8). -/
def Obligations.DiscardCountsOnce : Prop :=
  (∀ (r : Discard) (p : Port) (b : Option Port) (o : Option (Fin 256)) (id : Nat) (s : State),
    let t := discardFrame r p b o id s
    t.hub.tallyOf r = s.hub.tallyOf r + 1 ∧
    (∀ r', r' ≠ r → t.hub.tallyOf r' = s.hub.tallyOf r') ∧
    (t.ports.unitOf p).ctr.rxDiscards = (s.ports.unitOf p).ctr.rxDiscards + 1 ∧
    (∀ q, b = some q → (t.ports.unitOf q).ctr.txDrops = (s.ports.unitOf q).ctr.txDrops + 1) ∧
    (∀ q, b ≠ some q → (t.ports.unitOf q).ctr.txDrops = (s.ports.unitOf q).ctr.txDrops) ∧
    (∀ k st, o = some k → s.station? k = some st →
      t.station? k = some { st with ctr := { st.ctr with drops := st.ctr.drops + 1 } }) ∧
    (∀ k, o ≠ some k → t.station? k = s.station? k) ∧
    (∀ f, s.hub.cells.frame? id = some f →
      (∃ new : List FrameRec,
        t.hub.cells.frames = s.hub.cells.frames.filter (fun g => decide (g.id ≠ id)) ++ new ∧
        (∀ g ∈ new, g.kind = .notice ∧ g.refs = 1) ∧
        (t.hub.cells.free ++ new.flatMap (·.chain) ++ t.hub.cells.retired).Perm
          (f.chain ++ s.hub.cells.free ++ s.hub.cells.retired) ∧
        (s.hub.mgmt.reportAddr = none → new = [])) ∧
      t.hub.cells.retired = s.hub.cells.retired ++
        (f.chain.filter (fun x => f.failed.contains x)).take (64 - s.hub.cells.retired.length) ∧
      (f.failed = [] → s.hub.mgmt.reportAddr = none → t.hub.cells.free = f.chain.reverse ++ s.hub.cells.free)) ∧
    (s.hub.cells.frame? id = none → t.hub.cells = s.hub.cells) ∧
    t.up = s.up ∧ t.windows = s.windows ∧ t.sched = s.sched ∧ t.table.held = s.table.held) ∧
  (∀ (p : Port) (chain : List Nat) (s : State),
    let t := discardWire p chain s
    t.hub.tallyOf .wire = s.hub.tallyOf .wire + 1 ∧ (∀ r, r ≠ .wire → t.hub.tallyOf r = s.hub.tallyOf r) ∧
    t.ports = s.ports.count p (fun c => { c with rxDiscards := c.rxDiscards + 1 }) ∧
    (∃ new : List FrameRec, t.hub.cells.frames = s.hub.cells.frames ++ new ∧
      (∀ g ∈ new, g.kind = .notice ∧ g.refs = 1) ∧
      (t.hub.cells.free ++ new.flatMap (·.chain)).Perm (chain ++ s.hub.cells.free) ∧
      (s.hub.mgmt.reportAddr = none → new = [] ∧ t.hub.cells.free = chain.reverse ++ s.hub.cells.free)) ∧
    t.hub.cells.retired = s.hub.cells.retired ∧ t.hub.mgmt.input = s.hub.mgmt.input ∧ blocks t = blocks s) ∧
  -- one queue entry
  (∀ (r : Discard) (b : Option Port) (id : Nat) (s : State),
    let t := discardEntry r b id s
    Counts s t (countAt r 1) (fun q => if b = some q then 1 else 0) ∧
    (∀ q, (CountsRx s id q → (t.ports.unitOf q).ctr.rxDiscards = (s.ports.unitOf q).ctr.rxDiscards + 1) ∧
      (¬ CountsRx s id q → (t.ports.unitOf q).ctr.rxDiscards = (s.ports.unitOf q).ctr.rxDiscards)) ∧
    (∀ k st, s.station? k = some st →
      t.station? k = some (moreDrops (if s.hub.cells.owner id = some k then 1 else 0) st)) ∧
    (∀ k, s.station? k = none → t.station? k = none) ∧ RefDropped id s t ∧
    t.up = s.up ∧ t.windows = s.windows ∧ t.sched = s.sched ∧ t.table.held = s.table.held ∧
    t.hub.mgmt.slots = s.hub.mgmt.slots) ∧
  -- the return of cells
  (∀ (sd : Sender) (failed chain : List Nat) (h : Hub),
    let t := h.giveBack sd failed chain
    let bad := chain.filter (fun x => failed.contains x)
    let room := 64 - h.cells.retired.length
    let held := h.cells.held - chain.length
    ∃ u : Hub,
      u.cells = { h.cells with
        free := u.cells.free, retired := h.cells.retired ++ bad.take room, pressure := u.cells.pressure } ∧
      (u.cells.free ++ u.cells.retired).Perm (chain ++ h.cells.free ++ h.cells.retired) ∧
      u.mgmt = { h.mgmt with flags := u.mgmt.flags } ∧
      (bad.length ≤ room → u.flagOf .memoryDegraded = h.flagOf .memoryDegraded) ∧
      (room < bad.length → u.flagOf .memoryDegraded =
        { isSet := true, count := min ((h.flagOf .memoryDegraded).count + (bad.length - room)) 65535 }) ∧
      (∀ f, f ≠ .memoryDegraded → u.flagOf f = h.flagOf f) ∧
      (h.cells.pressure = .pressure → chain ≠ [] → held ≤ h.cells.low → u.cells.pressure = .normal ∧
        t = u.raise sd (.pressure false (min h.cells.low (h.cells.held - 1)) h.cells.high h.cells.low)) ∧
      (h.cells.pressure = .normal ∨ chain = [] ∨ h.cells.low < held →
        u.cells.pressure = h.cells.pressure ∧ t = u)) ∧
  (∀ (sd : Sender) (id : Nat) (f : FrameRec) (h : Hub), h.cells.frame? id = some f →
    h.freeFrame sd id = Hub.giveBack sd f.failed f.chain
      { h with cells := { h.cells with frames := h.cells.frames.filter (fun g => decide (g.id ≠ id)) } } ∧
    (f.refs ≤ 1 → h.dropRef sd id = h.freeFrame sd id)) ∧
  -- queue entries one after another
  (∀ (r : Discard) (b : Option Port) (ids : List Nat) (s : State),
    let t := discardEntries r b ids s
    Counts s t (countAt r ids.length) (fun q => if b = some q then ids.length else 0) ∧
    (ids.Nodup → ∀ k st, s.station? k = some st →
      t.station? k = some (moreDrops (ids.countP (fun id => decide (s.hub.cells.owner id = some k))) st)) ∧
    (∀ k, s.station? k = none → t.station? k = none) ∧
    t.up = s.up ∧ t.windows = s.windows ∧ t.sched = s.sched ∧ t.table.held = s.table.held ∧
    t.hub.mgmt.slots = s.hub.mgmt.slots) ∧
  -- an aborted transmission
  (∀ (p : Port) (id : Nat) (s : State),
    let t := countAborted p id s
    (t.ports.unitOf p).tx = none ∧ Counts s t (countAt .aborted 1) (countAt p 1) ∧
    (∀ q, (CountsRx s id q → (t.ports.unitOf q).ctr.rxDiscards = (s.ports.unitOf q).ctr.rxDiscards + 1) ∧
      (¬ CountsRx s id q → (t.ports.unitOf q).ctr.rxDiscards = (s.ports.unitOf q).ctr.rxDiscards)) ∧
    t.hub.cells = s.hub.cells ∧ t.hub.mgmt.slots = s.hub.mgmt.slots ∧ blocks t = blocks s) ∧
  (∀ (p : Port) (tx : Transmission) (s : State), (s.ports.unitOf p).tx = some tx →
    let t := abortTx p s
    (tx.frame? = none → t = { s with ports := s.ports.modUnit p (fun u => { u with tx := none }) }) ∧
    (∀ id, tx.frame? = some id →
      (∀ x k st why, p = .backbone x → s.hub.cells.owner id = some k → s.station? k = some st →
        st.state ≠ .leaving why) →
      (t.ports.unitOf p).tx = none ∧ Counts s t (countAt .aborted 1) (countAt p 1) ∧
      (∀ q, (CountsRx s id q → (t.ports.unitOf q).ctr.rxDiscards = (s.ports.unitOf q).ctr.rxDiscards + 1) ∧
        (¬ CountsRx s id q → (t.ports.unitOf q).ctr.rxDiscards = (s.ports.unitOf q).ctr.rxDiscards)) ∧
      RefDropped id s t ∧ blocks t = blocks s ∧
      (∀ k, replySlot? tx = some k → t.hub.mgmt.slots = s.hub.mgmt.slots.set k .free) ∧
      (replySlot? tx = none → t.hub.mgmt.slots = s.hub.mgmt.slots)))

/-! ## Stations on seat ports (chapter 3) -/

/-- SEAT_FRAME_RECEIVED from an unknown address (R38, R42, R43): with fewer than two records on the port a record is
made with the values of R38, in the lowest empty slot, or with none in the slot of the first evictable HELD record,
which is removed with reason EVICTED first (its purges, its DROP order, its STATION_GONE: `Removed`); STATION_NEW is
raised (R42), and the frame is attributed to the record and goes to upward intake, which shows only in its counters and
queue. With two records on the port the frame is discarded (PORT_CROWDED); with no slot to be had creation fails,
with its flag and notice, and the frame is discarded (TABLE_FULL). MODEL'S CHOICE, log entry 34: the flag and the notice
come before the discard gives the frame's cells back.
What no record sends (R5, R6, R7, R40): a frame that fails its receive checks and one with the hold type code are
discarded (WIRE) and not stored; a management frame is discarded (MGMT_REFUSED) on a port that is not CREW_MAINT, and on
one that is where it is not addressed to the part; any other frame with a group source address is discarded (WIRE). -/
def Obligations.SeatFrameIsLearned : Prop :=
  (∀ (n : Fin 32) (f : List Byte) (ok : Bool) (s : State) (chain : List Nat) (s1 : State),
    Arrives (.seat n) f ok s chain s1 → typeOf f ≠ typeHold → typeOf f ≠ typeMgmt → isGroup (srcOf f) = false →
    s.table.byAddr (srcOf f) = none →
    let id := chain.headD 0
    let s2 := storeFrame (.seat n) chain f s1
    let command : Instr := .seatFrameReceived n f ok
    let learns := (s.ports.seats[n]).designation.learns
    let new := newStation (srcOf f) learns.1 learns.2 (.seat n) s.hub.mgmt.defaultIdle s.now
    -- the record made in slot `k` of the state `u`, its notice raised, its frame attributed and handed to intake
    let learned := fun (k : Fin 256) (u : State) =>
      upwardIntake k (.seat n) id f.length (netAddr f true) (attributeFrame k id
        (raiseNotice (.stationNew k learns.1 learns.2 (.seat n) (srcOf f)) { u with table :=
          { slots := u.table.slots.set k (some new)
            held := if learns.2 = .held then u.table.held.filter (fun j => decide (j ≠ k)) ++ [k] else u.table.held } }))
    let made := fun (k : Fin 256) (t : State) => ∃ st, t.station? k = some st ∧
      { st with ctr := {}, upq := [] } = new ∧
      st.ctr.downFrames = 0 ∧
      (st.ctr.upFrames = 1 ∧ st.ctr.drops = 0 ∨ st.ctr.upFrames = 0 ∧ st.ctr.drops = 1 ∧ st.upq = []) ∧
      t.table.held = (if learns.2 = .held then s.table.held.filter (fun j => decide (j ≠ k)) ++ [k]
        else if s.table.emptySlot? = none then s.table.held.filter (fun j => decide (j ≠ k)) else s.table.held) ∧
      t.sched = s.sched ∧ t.consist = s.consist ∧ t.hold = s.hold
    (∀ k, (s.table.onSeat n).length < 2 → s.table.emptySlot? = some k → ∃ t, exec command s = .next t ∧ made k t ∧
      t = learned k s2 ∧ ∀ j, j ≠ k → t.station? j = s.station? j) ∧
    (∀ v V, (s.table.onSeat n).length < 2 → s.table.emptySlot? = none → evictable s2 = some v →
      s.station? v = some V → V.isLeaving = false → ∃ t, exec command s = .next t ∧ made v t ∧
        (∃ u, Removed v V .evicted s2 u ∧ t = learned v u) ∧
        (∀ j st, j ≠ v → s.station? j = some st →
          ∃ st', t.station? j = some st' ∧ apartFromDrops st' = apartFromDrops st) ∧
        (∀ w i, V.origin = .radio w i →
          (t.ports.radios[w]).orders = placeOrder { kind := .drop, index := i } (s.ports.radios[w]).orders)) ∧
    ((s.table.onSeat n).length < 2 → s.table.emptySlot? = none → evictable s2 = none → exec command s =
      .next (discardFrame .tableFull (.seat n) none none id { s2 with
        hub := (s2.hub.flag .tableFull).raise s2.sender (.tableFull (.seat n) (srcOf f)) })) ∧
    (2 ≤ (s.table.onSeat n).length →
      exec command s = .next (discardFrame .portCrowded (.seat n) none none id s2))) ∧
  -- what no record sends
  (∀ (n : Fin 32) (f : List Byte) (ok : Bool) (s : State) (chain : List Nat) (s1 : State),
    let s2 := storeFrame (.seat n) chain f s1
    let command : Instr := .seatFrameReceived n f ok
    let out := fun (why : Discard) => exec command s =
      .next (discardFrame why (.seat n) none none (chain.headD 0) s2)
    (ArrivesBad (.seat n) f ok s chain s1 → exec command s = .next (discardWire (.seat n) chain s1)) ∧
    (Arrives (.seat n) f ok s chain s1 →
      (typeOf f = typeHold → exec command s = .next (discardWire (.seat n) chain s1)) ∧
      (typeOf f = typeMgmt → (s.ports.seats[n]).designation ≠ .crewMaint ∨ dstOf f ≠ s.identity → out .mgmtRefused) ∧
      (typeOf f ≠ typeHold → typeOf f ≠ typeMgmt → isGroup (srcOf f) = true → out .wire)))

/-- SEAT_FRAME_RECEIVED from a known station. On its own port, where it passes every intake check (R40, R131, R133), the
frame is attributed, stored, counted, and enters the end of its upward queue or of the onboard queue with one reference.
From a LEAVING record it is discarded (PURGE). From a record of a radio, or of another seat port where this one gives
another class, it is an origin conflict (R45): discarded ORIGIN, with flag and notice. From a record of another seat
port (R44) it is discarded (PORT_CROWDED) where two records have this one; else the record has moved: its origin is this
port, its unicasts have left the old port's queue, each counted PURGE with one tx drop of that port and one drop of the
record (`PurgeCounts`), nothing else of it has changed, and the frame goes to intake.
The intake discards (R131, R132), in their order: BARRED, WINDOW, NOT_ADMITTED, PRESSURE, SHED with one tx drop
of the lead end, QUEUE_FULL of the queue that R133 gives; each counts as DiscardCountsOnce says, after the
classification has counted in its window.
The classification, upward and downward (R79, R84 to R88): by the destination network address upward and the source
network address downward, the window applied is the lowest-numbered of 0..7 that is enabled and holds the address, and
else window 8; it gives its metered, and permits by class and direction, to a HELD or SPENT passenger at an unmetered
window only if it is open. A link frame is unmetered and permitted, with no window. What it counts (R90): one up or
down, and one refused where it does not permit, in the window applied and in no other. MODEL'S CHOICE, log entry 34: at
a conflict the flag and the notice come before the discard. -/
def Obligations.SeatFrameIsQueued : Prop :=
  (∀ (n : Fin 32) (f : List Byte) (ok : Bool) (s : State) (chain : List Nat) (s1 : State) (k : Fin 256) (st : Station),
    Arrives (.seat n) f ok s chain s1 → typeOf f ≠ typeHold → typeOf f ≠ typeMgmt → isGroup (srcOf f) = false →
    s.table.byAddr (srcOf f) = some k → s.station? k = some st → st.origin = .seat n → st.isLeaving = false →
    (∀ b, st.state ≠ .barred b) →
    upwardDiscard s1 st (classify s.windows st true (netAddr f true)) = none →
    (∀ g ∈ s1.hub.cells.frames, g.id ≠ chain.headD 0) →
    ∃ t, exec (.seatFrameReceived n f ok) s = .next t ∧ Placed (.seat n) chain f k st s s1 t) ∧
  -- LEAVING, conflicts, moves
  (∀ (n : Fin 32) (f : List Byte) (ok : Bool) (s : State) (chain : List Nat) (s1 : State) (k : Fin 256) (st : Station),
    Arrives (.seat n) f ok s chain s1 → typeOf f ≠ typeHold → typeOf f ≠ typeMgmt → isGroup (srcOf f) = false →
    s.table.byAddr (srcOf f) = some k → s.station? k = some st →
    let id := chain.headD 0
    let s2 := storeFrame (.seat n) chain f s1
    let command : Instr := .seatFrameReceived n f ok
    let intake := fun (t : State) =>
      upwardIntake k (.seat n) id f.length (netAddr f true) (attributeFrame k id t)
    let conflict := discardFrame .origin (.seat n) none (some k) id { s2 with
      hub := (s2.hub.flag .originConflict).raise s2.sender (.originConflict k st.origin (.seat n) (srcOf f)) }
    let sameClass := (s.ports.seats[n]).designation.learns.1 = st.cls
    (st.isLeaving = true → exec command s = .next (discardFrame .purge (.seat n) none (some k) id s2)) ∧
    (st.isLeaving = false → st.origin = .seat n → exec command s = .next (intake s2)) ∧
    (∀ w i, st.isLeaving = false → st.origin = .radio w i → exec command s = .next conflict) ∧
    (∀ m, st.isLeaving = false → st.origin = .seat m → m ≠ n →
      (¬ sameClass → exec command s = .next conflict) ∧
      (sameClass → 2 ≤ (s.table.onSeat n).length →
        exec command s = .next (discardFrame .portCrowded (.seat n) none (some k) id s2)) ∧
      (sameClass → (s.table.onSeat n).length < 2 → ∃ u st', exec command s = .next (intake u) ∧
        u.station? k = some st' ∧ apartFromDrops st' = apartFromDrops { st with origin := .seat n } ∧
        PurgeCounts k [] (.seat m) s2 u ∧
        ((u.ports.seats[m]).egress).Sublist (s.ports.seats[m]).egress ∧
        (∀ j ∈ (u.ports.seats[m]).egress, u.hub.cells.owner j ≠ some k) ∧
        (∀ j ∈ (s.ports.seats[m]).egress, s2.hub.cells.owner j ≠ some k → j ∈ (u.ports.seats[m]).egress) ∧
        (∀ j st, j ≠ k → s.station? j = some st →
          ∃ st', u.station? j = some st' ∧ apartFromDrops st' = apartFromDrops st) ∧
        u.table.held = s.table.held ∧ u.up = s.up ∧ u.windows = s.windows ∧ u.sched = s.sched ∧
        u.consist = s.consist))) ∧
  -- the intake discards
  (∀ (k : Fin 256) (p : Port) (id L : Nat) (addr : Option NetAddr) (s : State) (st : Station), s.station? k = some st →
    let intake := upwardIntake k p id L addr s
    let r := classify s.windows st true addr
    let s' := countClassified true r s
    let out := fun (why : Discard) (bound : Option Port) => intake = discardFrame why p bound (some k) id s'
    let pressed := st.cls = .passenger ∧ s.hub.cells.pressure = .pressure
    let shed := fun (x : End) => st.cls = .passenger ∧ s.consist.lead = some x ∧ (s.ports.endOf x).overrun = true ∧
      s.hold.action = .shed
    (∀ b, st.state = .barred b → intake = discardFrame .barred p none (some k) id s) ∧
    ((∀ b, st.state ≠ .barred b) →
      (r.permitted = false → out .window none) ∧
      (r.permitted = true → r.metered = true → st.state ≠ .admitted → out .notAdmitted none) ∧
      (r.permitted = true → (r.metered = true → st.state = .admitted) →
        (pressed → out .pressure none) ∧
        (∀ x, ¬ pressed → shed x → out .shed (some (.backbone x))) ∧
        (¬ pressed → (∀ x, ¬ shed x) →
          (st.state = .admitted → r.metered = true ∨ st.cls ≠ .passenger → 24 ≤ st.upq.length → out .queueFull none) ∧
          (st.state ≠ .admitted ∨ r.metered = false ∧ st.cls = .passenger → 128 ≤ s.up.onboard.length →
            out .queueFull none))))) ∧
  -- the classification
  (∀ (ws : Vector Window 9) (st : Station) (up : Bool) (f : List Byte),
    let r := classify ws st up (netAddr f up)
    (typeOf f ≠ 0x0800 → r = { window := none, metered := false, permitted := true }) ∧
    (typeOf f = 0x0800 → ∃ i : Fin 9, r.window = some i ∧
      WindowApplies ws (if up then fieldAt f 30 4 else fieldAt f 26 4) i ∧
      r.metered = (ws[i]).set.metered ∧ (r.permitted = true ↔ WindowPermits (ws[i]).set st up))) ∧
  (∀ (up : Bool) (r : Classified) (s : State),
    let t := countClassified up r s
    t = { s with windows := t.windows } ∧
    (∀ i, r.window = some i → t.windows[i] = { s.windows[i] with
      up := (s.windows[i]).up + (if up then 1 else 0)
      down := (s.windows[i]).down + (if up then 0 else 1)
      refused := (s.windows[i]).refused + (if r.permitted then 0 else 1) }) ∧
    (∀ i : Fin 9, r.window ≠ some i → t.windows[i] = s.windows[i]))

/-- IDLE_TIMER_EXPIRY (R46, R52, R53, R56): a record with an idle interval, not LEAVING, is removed with reason AGED
at its moment: freed, with its STATION_GONE of reason AGED, which carries its figures, or LEAVING while an upward frame
of it is in transmission; its queues are purged and counted; a radio record's radio gets a DROP order (`Removed`).
MODEL'S CHOICE, log entry 1: the time moves to the timer's moment where it has not come yet. -/
def Obligations.IdleRecordIsRemoved : Prop :=
  ∀ (k : Fin 256) (s : State) (st : Station), s.station? k = some st → st.idle ≠ 0 → st.isLeaving = false →
    let due := st.idleStart + 100000 * st.idle
    ∃ t, exec (.idleTimerExpiry k) s = .next t ∧
      Removed k st .aged { s with now := max s.now due, sched := s.sched.pass (due - s.now) } t ∧
      t.now = max s.now due ∧
      (inFlight s k = false → t.station? k = none) ∧
      (inFlight s k = true → ∃ st', t.station? k = some st' ∧ st'.state = .leaving .aged ∧ st'.upq = [] ∧
        st'.origin = st.origin ∧ st'.addr = st.addr ∧ st'.allowance = st.allowance ∧ st'.credit = st.credit) ∧
      (∀ j st', j ≠ k → s.station? j = some st' →
        ∃ st'', t.station? j = some st'' ∧ apartFromDrops st'' = apartFromDrops st') ∧
      t.table.held = s.table.held.filter (fun j => decide (j ≠ k)) ∧
      (∀ w i, st.origin = .radio w i →
        (t.ports.radios[w]).orders = placeOrder { kind := .drop, index := i } (s.ports.radios[w]).orders) ∧
      (∀ w : Fin 4, st.origin.isRadio w = false → quietRadio t.ports.radios[w] = quietRadio s.ports.radios[w]) ∧
      t.up.onboard = s.up.onboard ∧ t.windows = s.windows ∧ t.consist = s.consist ∧ t.hold = s.hold

/-! ## Ceiling radio links (chapter 4) -/

/-- RADIO_DATA_FRAME_RECEIVED, the association checks (R63): an unused index or one with no record (UNASSOCIATED),
another address at the index (ORIGIN), a LEAVING record (PURGE, its drop); else the frame is attributed and goes to
upward intake, and where it passes every check there (R131, R133) it is stored, counted, and enters the end of its
record's upward queue or of the onboard queue with one reference. A frame that fails its receive checks, a hold type
code, and a header kind other than DATA and NOTICE are WIRE and not stored (R5, R6), a management frame MGMT_REFUSED
(R7). A NOTICE frame (R62, R191): its code is the body's first byte, its index the second and its address the six after
that, whatever index the header has; with a code of none of the three, a wire check that fails or a length that is not
its body's with 4 bytes of wire check it is WIRE. MODEL'S CHOICE, log entry 2: the row
RADIO_DATA_FRAME_RECEIVED with header kind 2 takes the notice as the notice's own row does (the clauses on a NOTICE frame
by this row). -/
def Obligations.RadioDataIsChecked : Prop :=
  ∀ (w : Fin 4) (i : Byte) (f : List Byte) (ok : Bool) (s : State) (chain : List Nat) (s1 : State),
    (Arrives (.radio w) f ok s chain s1 → typeOf f ≠ typeHold → typeOf f ≠ typeMgmt →
      let id := chain.headD 0
      let s2 := storeFrame (.radio w) chain f s1
      (64 ≤ i.toNat → exec (.radioDataFrameReceived w 1 i f ok) s =
        .next (discardFrame .unassociated (.radio w) none none id s2)) ∧
      (i.toNat < 64 → s.table.atRadio w i.toNat = none → exec (.radioDataFrameReceived w 1 i f ok) s =
        .next (discardFrame .unassociated (.radio w) none none id s2)) ∧
      (∀ k st, i.toNat < 64 → s.table.atRadio w i.toNat = some k → s.station? k = some st →
        (st.addr ≠ srcOf f → exec (.radioDataFrameReceived w 1 i f ok) s =
          .next (discardFrame .origin (.radio w) none none id s2)) ∧
        (st.addr = srcOf f → st.isLeaving = true → exec (.radioDataFrameReceived w 1 i f ok) s =
          .next (discardFrame .purge (.radio w) none (some k) id s2)) ∧
        (st.addr = srcOf f → st.isLeaving = false → exec (.radioDataFrameReceived w 1 i f ok) s =
          .next (upwardIntake k (.radio w) id f.length (netAddr f true) (attributeFrame k id s2))) ∧
        (st.addr = srcOf f → st.isLeaving = false → (∀ b, st.state ≠ .barred b) →
          upwardDiscard s1 st (classify s.windows st true (netAddr f true)) = none →
          (∀ g ∈ s1.hub.cells.frames, g.id ≠ id) →
          ∃ t, exec (.radioDataFrameReceived w 1 i f ok) s = .next t ∧ Placed (.radio w) chain f k st s s1 t))) ∧
    (Arrives (.radio w) f ok s chain s1 →
      (typeOf f = typeHold →
        exec (.radioDataFrameReceived w 1 i f ok) s = .next (discardWire (.radio w) chain s1)) ∧
      (typeOf f = typeMgmt → exec (.radioDataFrameReceived w 1 i f ok) s = .next
        (discardFrame .mgmtRefused (.radio w) none none (chain.headD 0) (storeFrame (.radio w) chain f s1)))) ∧
    (ArrivesBad (.radio w) f ok s chain s1 →
      exec (.radioDataFrameReceived w 1 i f ok) s = .next (discardWire (.radio w) chain s1)) ∧
    (∀ kind : Byte, kind ≠ 1 → kind ≠ 2 → NoticeArrives w f.length s chain s1 →
      exec (.radioDataFrameReceived w kind i f ok) s = .next (discardWire (.radio w) chain s1)) ∧
    -- notices
    (NoticeArrives w f.length s chain s1 →
      let refused := exec (.radioDataFrameReceived w 2 i f ok) s = .next (discardWire (.radio w) chain s1)
      ((f = [] ∨ ∃ code rest, f = code :: rest ∧ code ≠ 1 ∧ code ≠ 2 ∧ code ≠ 3) → refused) ∧
      (∀ rest, f = 1 :: rest → ok = false ∨ f.length ≠ 12 → refused) ∧
      (∀ rest, f = 2 :: rest → ok = false ∨ f.length ≠ 6 → refused) ∧
      (∀ rest, f = 3 :: rest → ok = false ∨ f.length ≠ 5 → refused)) ∧
    (∀ (index : Byte) (a : LinkAddr) (check : List Byte), check.length = 4 →
      exec (.radioDataFrameReceived w 2 i ([1, index] ++ addrBytes a ++ check) ok) s =
        exec (.associated w index a 12 ok) s ∧
      exec (.radioDataFrameReceived w 2 i ([2, index] ++ check) ok) s = exec (.disassociated w index 6 ok) s ∧
      exec (.radioDataFrameReceived w 2 i (3 :: check) ok) s = exec (.radioStart w 5 ok) s) ∧
    (∀ (index : Byte) (a : LinkAddr) (len : Nat), NoticeArrives w len s chain s1 →
      (ok = false ∨ len ≠ 12 → exec (.associated w index a len ok) s = .next (discardWire (.radio w) chain s1)) ∧
      (ok = false ∨ len ≠ 6 → exec (.disassociated w index len ok) s = .next (discardWire (.radio w) chain s1)) ∧
      (ok = false ∨ len ≠ 5 → exec (.radioStart w len ok) s = .next (discardWire (.radio w) chain s1)))

/-- ASSOCIATED for the address that stands at the radio and index already (R66): its idle timer restarts, its last frame
time is the notice's arrival, a pending order for the index goes, the notice counts as taken, and nothing else
changes. -/
def Obligations.AssociatedConfirms : Prop :=
  ∀ (w : Fin 4) (i : Byte) (a : LinkAddr) (s : State) (chain : List Nat) (s1 : State) (k : Fin 256) (st : Station),
    NoticeArrives w 12 s chain s1 → i.toNat < 64 → isGroup a = false →
    s.table.byAddr a = some k → s.station? k = some st → st.isLeaving = false → st.origin = .radio w i.toNat →
    exec (.associated w i a 12 true) s = .next { giveBackCells chain s1 with
      table := s.table.modStation k (fun r => { r with lastFrame := s.now, idleStart := s.now })
      ports := s1.ports.modRadio w (fun q => { q with
        orders := q.orders.filter (fun o => decide (o.index ≠ i.toNat)), noticesTaken := q.noticesTaken + 1 }) }

/-- ASSOCIATED that is no confirmation (R64, R65). An index of 64 or more is ignored; a group address, a LEAVING record
of the address, a record of it on a seat port (an origin conflict too, R45) and a LEAVING occupant are refused: a REFUSE
order takes the place of a pending order for the index, and nothing changes in the table. Another occupant is removed
with reason DISASSOCIATED (R67): LEAVING behind its frame, with a refusal; or freed, with its STATION_GONE, and then the
address is created or roams. With nobody at the index an unknown address is created (R38, R43, R68): a HELD passenger in
the lowest empty slot at the end of the held order, with its STATION_NEW notice; in the slot of the first evictable HELD
record, which is removed with reason EVICTED and whose radio gets a DROP order; or, with none, TABLE_FULL and a refusal.
What a removal counts and raises stands in `Removed`. A record elsewhere on the radio links roams (R69): its origin
moves, its unicasts leave the old radio's queue, each counted PURGE with one tx drop of that radio and one drop of the
record (`PurgeCounts`), its idle timer restarts, and nothing else of it changes. A record that ends up at
the index discards the pending order for it. -/
def Obligations.AssociatedCreates : Prop :=
  ∀ (w : Fin 4) (i : Byte) (a : LinkAddr) (s : State) (chain : List Nat) (s1 : State),
    NoticeArrives w 12 s chain s1 →
    let s2 := giveBackCells chain s1
    let command : Instr := .associated w i a 12 true
    let new := newStation a .passenger .held (.radio w i.toNat) s2.hub.mgmt.defaultIdle s.now
    let refused := fun (t : State) => { t with ports := t.ports.modRadio w (fun q => { q with
      orders := placeOrder { kind := .refuse, index := i.toNat } q.orders, noticesTaken := q.noticesTaken + 1 }) }
    let pendingGone := fun (q : RadioLink) => q.orders.filter (fun o => decide (o.index ≠ i.toNat))
    -- what stays as it is: the records of other slots apart from their drops, and the blocks
    let others := fun (t : State) (slots : List (Fin 256)) =>
      (∀ j st, j ∉ slots → s.station? j = some st →
        ∃ st', t.station? j = some st' ∧ apartFromDrops st' = apartFromDrops st) ∧
      (t.ports.radios[w]).noticesTaken = (s.ports.radios[w]).noticesTaken + 1 ∧
      t.up.onboard = s.up.onboard ∧ t.sched = s.sched ∧ t.windows = s.windows ∧ t.consist = s.consist ∧ t.hold = s.hold
    -- the record of `a` has been created in slot `k` of the state `u`, with its notice
    let created := fun (k : Fin 256) (u : State) =>
      { raiseNotice (.stationNew k .passenger .held (.radio w i.toNat) a) { u with table :=
          { slots := u.table.slots.set k (some new), held := u.table.held.filter (fun j => decide (j ≠ k)) ++ [k] } } with
        ports := u.ports.modRadio w (fun q => { q with orders := pendingGone q, noticesTaken := q.noticesTaken + 1 }) }
    -- the record of `a` in slot `k` of the state `u` has roamed
    let roamed := fun (t : State) (k : Fin 256) (st : Station) (u : State) => ∃ st', t.station? k = some st' ∧
      apartFromDrops st' = apartFromDrops
        { st with origin := .radio w i.toNat, lastFrame := s.now, idleStart := s.now } ∧
      PurgeCounts k [] st.origin u t ∧
      (t.ports.radios[w]).orders = pendingGone s.ports.radios[w] ∧
      ∀ v j, st.origin = .radio v j →
        ((t.ports.radios[v]).egress).Sublist (s.ports.radios[v]).egress ∧
        (∀ e ∈ (t.ports.radios[v]).egress, t.hub.cells.owner e.id ≠ some k) ∧
        (v ≠ w → (t.ports.radios[v]).orders = (s.ports.radios[v]).orders)
    (64 ≤ i.toNat → exec command s = .next { s2 with
      ports := s2.ports.modRadio w (fun q => { q with noticesIgnored := q.noticesIgnored + 1 }) }) ∧
    (i.toNat < 64 → isGroup a = true → exec command s = .next (refused s2)) ∧
    (i.toNat < 64 → isGroup a = false →
      (∀ k st, s.table.byAddr a = some k → s.station? k = some st →
        (st.isLeaving = true → exec command s = .next (refused s2)) ∧
        (∀ n, st.isLeaving = false → st.origin = .seat n → exec command s = .next (refused { s2 with
          hub := (s2.hub.flag .originConflict).raise s2.sender
            (.originConflict k (.seat n) (.radio w i.toNat) a) }))) ∧
      (s.table.byAddr a = none ∨ (∃ k st v j, s.table.byAddr a = some k ∧ s.station? k = some st ∧
          st.isLeaving = false ∧ st.origin = .radio v j ∧ (v ≠ w ∨ j ≠ i.toNat)) →
        -- an occupant
        (∀ b B, s.table.atRadio w i.toNat = some b → s.station? b = some B →
          (B.isLeaving = true → exec command s = .next (refused s2)) ∧
          (B.isLeaving = false → inFlight s2 b = true → ∃ t B', exec command s = .next t ∧ t.station? b = some B' ∧
            (∃ u, Removed b B .disassociated s2 u ∧ t = refused u) ∧
            apartFromDrops B' = apartFromDrops { B with state := .leaving .disassociated, upq := [] } ∧
            (t.ports.radios[w]).orders =
              placeOrder { kind := .refuse, index := i.toNat } (s.ports.radios[w]).orders ∧
            t.table.held = s.table.held.filter (fun j => decide (j ≠ b)) ∧ others t [b]) ∧
          (B.isLeaving = false → inFlight s2 b = false →
            (∀ k, s.table.byAddr a = none → s.station? k = none ∨ k = b →
              (∀ j, j < k → s.station? j ≠ none ∧ j ≠ b) → ∃ t, exec command s = .next t ∧ t.station? k = some new ∧
                (∃ u, Removed b B .disassociated s2 u ∧ t = created k u) ∧
                (k ≠ b → t.station? b = none) ∧
                t.table.held =
                  (s.table.held.filter (fun j => decide (j ≠ b))).filter (fun j => decide (j ≠ k)) ++ [k] ∧
                (t.ports.radios[w]).orders = pendingGone s.ports.radios[w] ∧ others t [b, k]) ∧
            (∀ k st, s.table.byAddr a = some k → s.station? k = some st → ∃ t, exec command s = .next t ∧
              t.station? b = none ∧ (∃ u, Removed b B .disassociated s2 u ∧ roamed t k st u) ∧
              t.table.held = s.table.held.filter (fun j => decide (j ≠ b)) ∧ others t [b, k]))) ∧
        -- nobody at the index
        (s.table.atRadio w i.toNat = none →
          (∀ k, s.table.byAddr a = none → s.table.emptySlot? = some k → exec command s = .next { s2 with
            hub := s2.hub.raise s2.sender (.stationNew k .passenger .held (.radio w i.toNat) a)
            table := { slots := s.table.slots.set k (some new)
                       held := s.table.held.filter (fun j => decide (j ≠ k)) ++ [k] }
            ports := s1.ports.modRadio w (fun q => { q with
              orders := pendingGone q, noticesTaken := q.noticesTaken + 1 }) }) ∧
          (∀ v V, s.table.byAddr a = none → s.table.emptySlot? = none → evictable s2 = some v →
            s.station? v = some V → V.isLeaving = false → ∃ t, exec command s = .next t ∧ t.station? v = some new ∧
              (∃ u, Removed v V .evicted s2 u ∧ t = created v u) ∧
              t.table.held = s.table.held.filter (fun j => decide (j ≠ v)) ++ [v] ∧ others t [v] ∧
              (∀ u j, V.origin = .radio u j →
                let orders := placeOrder { kind := .drop, index := j } (s.ports.radios[u]).orders
                (t.ports.radios[u]).orders =
                  if u = w then orders.filter (fun o => decide (o.index ≠ i.toNat)) else orders)) ∧
          (s.table.byAddr a = none → s.table.emptySlot? = none → evictable s2 = none →
            exec command s = .next (refused { s2 with
              hub := (s2.hub.flag .tableFull).raise s2.sender (.tableFull (.radio w i.toNat) a) })) ∧
          (∀ k st, s.table.byAddr a = some k → s.station? k = some st → ∃ t, exec command s = .next t ∧
            roamed t k st s2 ∧ t.table.held = s.table.held ∧ others t [k]))))

/-- DISASSOCIATED and RADIO_START (R70, R71): the record at the index, or every record of the radio, is freed, or
LEAVING while an upward frame of it is in transmission; one that is LEAVING already stays so (R55); the pending order
for the index, or every order, goes; no DROP order is placed. What the removals count and raise stands in `Removed`: a
STATION_GONE of reason DISASSOCIATED or RADIO_RESTART at each freeing. MODEL'S CHOICE, log entry 10: at a RADIO_START the
records are removed in slot order. DISASSOCIATED for an index with no record is counted as
ignored; one for an index of 64..255 is too, and does nothing else: no order goes. -/
def Obligations.RadioStationsLeave : Prop :=
  ∀ (w : Fin 4) (i : Byte) (s : State) (chain : List Nat) (s1 : State),
    (NoticeArrives w 6 s chain s1 → i.toNat < 64 → ∃ t, exec (.disassociated w i 6 true) s = .next t ∧
      (t.ports.radios[w]).orders = (s.ports.radios[w]).orders.filter (fun o => decide (o.index ≠ i.toNat)) ∧
      (s.table.atRadio w i.toNat = none → t.table = s.table ∧
        (t.ports.radios[w]).noticesIgnored = (s.ports.radios[w]).noticesIgnored + 1) ∧
      (∀ k st, s.table.atRadio w i.toNat = some k → s.station? k = some st →
        (t.ports.radios[w]).noticesTaken = (s.ports.radios[w]).noticesTaken + 1 ∧
        (st.isLeaving = true → t.table = s.table) ∧
        (st.isLeaving = false → ∃ u, Removed k st .disassociated { giveBackCells chain s1 with
            ports := s1.ports.modRadio w (fun q => { q with
              orders := q.orders.filter (fun o => decide (o.index ≠ i.toNat)) }) } u ∧
          t = { u with ports := u.ports.modRadio w (fun q => { q with noticesTaken := q.noticesTaken + 1 }) }) ∧
        (st.isLeaving = false → inFlight s k = false → t.station? k = none) ∧
        (st.isLeaving = false → inFlight s k = true →
          ∃ st', t.station? k = some st' ∧ st'.state = .leaving .disassociated) ∧
        (∀ j st', j ≠ k → s.station? j = some st' →
          ∃ st'', t.station? j = some st'' ∧ apartFromDrops st'' = apartFromDrops st')) ∧
      t.sched = s.sched ∧ t.windows = s.windows ∧ t.consist = s.consist) ∧
    (NoticeArrives w 6 s chain s1 → 64 ≤ i.toNat → exec (.disassociated w i 6 true) s = .next { giveBackCells chain s1 with
      ports := s1.ports.modRadio w (fun q => { q with noticesIgnored := q.noticesIgnored + 1 }) }) ∧
    (NoticeArrives w 5 s chain s1 → ∃ t, exec (.radioStart w 5 true) s = .next t ∧
      (∃ u, RemovedAll .radioRestart (s.table.onRadio w) { giveBackCells chain s1 with
          ports := s1.ports.modRadio w (fun q => { q with orders := [] }) } u ∧
        t = { u with ports := u.ports.modRadio w (fun q => { q with noticesTaken := q.noticesTaken + 1 }) }) ∧
      (t.ports.radios[w]).orders = [] ∧ (t.ports.radios[w]).unit.link = (s.ports.radios[w]).unit.link ∧
      (t.ports.radios[w]).unit.tx = (s.ports.radios[w]).unit.tx ∧
      (t.ports.radios[w]).noticesTaken = (s.ports.radios[w]).noticesTaken + 1 ∧
      (∀ k st, t.station? k = some st → st.origin.isRadio w = true → st.isLeaving = true) ∧
      (∀ k st, s.station? k = some st → st.origin.isRadio w = true → st.isLeaving = false →
        (inFlight s k = false → t.station? k = none) ∧
        (inFlight t k = true → ∃ st', t.station? k = some st' ∧ st'.state = .leaving .radioRestart ∧ st'.upq = [] ∧
          st'.origin = st.origin ∧ st'.addr = st.addr)) ∧
      (∀ k st, s.station? k = some st → st.origin.isRadio w = false ∨ st.isLeaving = true →
        ∃ st', t.station? k = some st' ∧ apartFromDrops st' = apartFromDrops st) ∧
      t.sched = s.sched ∧ t.windows = s.windows ∧ t.consist = s.consist)

/-! ## Allowances (chapter 6) -/

/-- A charge of L bytes to a present allowance compares L with current (R98): below, current falls by L; equal, and
above with the excess added to overrun, current becomes 0 and the charge is an exhaustion; with current 0 already, all
of L is added to overrun and it is none. The record's counters are not touched, and no notice but the exhaustion's is
raised. -/
def Obligations.ChargeComparesWithCurrent : Prop :=
  ∀ (k : Fin 256) (cause : Cause) (L : Nat) (s : State) (st : Station) (al : Allowance),
    s.station? k = some st → st.allowance = some al →
    let stored (a : Allowance) : State :=
      { s with table := s.table.modStation k (fun r => { r with allowance := some a }) }
    (L < al.current → charge k cause L s = stored { al with current := al.current - L }) ∧
    (L = al.current → 0 < al.current → charge k cause L s = exhaust k cause L (stored { al with current := 0 })) ∧
    (al.current < L → 0 < al.current → charge k cause L s =
      exhaust k cause L (stored { al with
        current := 0, overrun := al.overrun + BitVec.ofNat 32 (L - al.current) })) ∧
    (al.current = 0 → 0 < L →
      charge k cause L s = stored { al with current := 0, overrun := al.overrun + BitVec.ofNat 32 L })

/-- An exhaustion (R99, R101, R102): renewed from base where renew is yes and base above 0, the state and queue kept;
else an ADMITTED record is SPENT with its upward queue empty, each entry of it counted PURGE with one drop of the record
(R102, R134), and its ALLOWANCE_SPENT raised after; a state before bar of ADMITTED becomes SPENT, with its ALLOWANCE_SPENT;
and a LEAVING record stays as it is, with current 0: its ALLOWANCE_SPENT is raised, with the state after LEAVING, and
nothing else changes (R102, R108). -/
def Obligations.ExhaustionRenewsOrSpends : Prop :=
  ∀ (k : Fin 256) (cause : Cause) (L : Nat) (s : State) (st : Station) (al : Allowance),
    s.station? k = some st → st.allowance = some al → al.current = 0 →
    let t := exhaust k cause L s
    (al.renew = true → 0 < al.base → t = { s with
      table := s.table.modStation k (fun r => { r with
        allowance := some { al with current := al.base, renewals := min (al.renewals + 1) 255 } })
      hub := s.hub.raise s.sender (.allowanceRenewed k st.cls st.origin st.addr cause L
        { al with current := al.base, renewals := min (al.renewals + 1) 255 }) }) ∧
    (al.renew = false ∨ al.base = 0 →
      (st.state = .admitted → ∃ u st', t.station? k = some st' ∧
        apartFromDrops st' = apartFromDrops { st with state := .spent, upq := [] } ∧
        t = raiseNotice (.allowanceSpent k st.cls st.origin st.addr cause L al .spent) u ∧
        Counts s u (countAt .purge st.upq.length) (fun _ => 0) ∧
        (st.upq.Nodup → (∀ id ∈ st.upq, s.hub.cells.owner id = some k) →
          st'.ctr = (moreDrops st.upq.length st).ctr ∧ ∀ j, j ≠ k → t.station? j = s.station? j)) ∧
      (st.state = .barred .admitted → t = { s with
        table := s.table.modStation k (fun r => { r with state := .barred .spent })
        hub := s.hub.raise s.sender
          (.allowanceSpent k st.cls st.origin st.addr cause L al (.barred .spent)) }) ∧
      (∀ why, st.state = .leaving why → t = { s with
        hub := s.hub.raise s.sender
          (.allowanceSpent k st.cls st.origin st.addr cause L al (.leaving why)) })) ∧
    t.sched = s.sched ∧ t.windows = s.windows ∧ t.table.held = s.table.held ∧
    (∀ j st', j ≠ k → s.station? j = some st' →
      ∃ st'', t.station? j = some st'' ∧ apartFromDrops st'' = apartFromDrops st')

/-! ## Epochs and shares (chapter 7) -/

/-- EPOCH_COUNTER_EXPIRY in RUNNING. The shares (R119, R120, R121): the share of every active record is floor (B × e /
W), cut to its cap; every other record's share is 0; the shares sum to at most B. The credit (R122): share plus the
old credit if that was below 0, for every passenger that is not LEAVING; the credit of any other record is untouched.
All are read in the state after the boundary, in which the values put in force stand; the activity test is against the
epoch number before it. MODEL'S INFERENCE, log entry 13: a LEAVING record's share is 0 too. -/
def Obligations.BoundaryGivesSharesAndCredit : Prop :=
  (∀ s : State, s.sched.running = true → ∃ t, exec .epochCounterExpiry s = .next t ∧
    t.sched.params = s.sched.pendingParams.getD s.sched.params ∧
    (∀ k st, t.station? k = some st →
      (st.isActive s.sched.number = true →
        st.share = match st.shaping.cap with
          | none => t.sched.params.budget * st.effectiveWeight t.sched.params / t.sched.weight
          | some c => min (t.sched.params.budget * st.effectiveWeight t.sched.params / t.sched.weight) c) ∧
      (st.isActive s.sched.number = false → st.share = 0)) ∧
    t.sched.weight = (t.table.slots.toList.map (slotWeight t.sched.params s.sched.number)).sum ∧
    t.sched.shares = (t.table.slots.toList.map (fun o => (o.map (·.share)).getD 0)).sum ∧
    t.sched.shares ≤ t.sched.params.budget ∧
    t.sched.active = (t.table.slots.toList.filter (slotActive s.sched.number)).length ∧
    t.sched.number = s.sched.number + 1 ∧ t.sched.counter = 0 ∧ t.sched.pendingParams = none) ∧
  (∀ s : State, s.sched.running = true → ∃ t, exec .epochCounterExpiry s = .next t ∧
    ∀ k st, s.station? k = some st → ∃ st', t.station? k = some st' ∧
      (st.cls = .passenger → st.isLeaving = false → st.credit < 0 → st'.credit = st'.share + st.credit) ∧
      (st.cls = .passenger → st.isLeaving = false → 0 ≤ st.credit → st'.credit = st'.share) ∧
      (st.cls ≠ .passenger ∨ st.isLeaving = true → st'.credit = st.credit))

/-- EPOCH_COUNTER_EXPIRY in RUNNING. The surplus (R123): B less the shares, whatever it was before, and never below 0;
with no active weight it is B, with B = 0 it is 0, and with one active record it is B less that record's share. The
arithmetic as it can be checked from outside (R130). -/
def Obligations.BoundarySetsSurplus : Prop :=
  (∀ s : State, s.sched.running = true → ∃ t, exec .epochCounterExpiry s = .next t ∧
    t.sched.surplus = (t.sched.params.budget : Int) - t.sched.shares ∧ 0 ≤ t.sched.surplus ∧
    (t.sched.weight = 0 → t.sched.surplus = t.sched.params.budget) ∧
    (t.sched.params.budget = 0 → t.sched.surplus = 0) ∧
    (∀ k st, t.station? k = some st → st.isActive s.sched.number = true →
      0 < st.effectiveWeight t.sched.params → t.sched.weight = st.effectiveWeight t.sched.params →
      (st.shaping.cap = none → st.share = t.sched.params.budget ∧ t.sched.surplus = 0) ∧
      (∀ c, st.shaping.cap = some c → c ≤ t.sched.params.budget →
        st.share = c ∧ t.sched.surplus = (t.sched.params.budget : Int) - c))) ∧
  (∀ s : State, s.sched.running = true → ∃ t, exec .epochCounterExpiry s = .next t ∧
    (∀ k st, t.station? k = some st → st.isActive s.sched.number = true → 0 < st.effectiveWeight t.sched.params →
      st.share * t.sched.weight ≤ t.sched.params.budget * st.effectiveWeight t.sched.params ∧
      (st.shaping.cap ≠ some st.share →
        t.sched.params.budget * st.effectiveWeight t.sched.params < (st.share + 1) * t.sched.weight) ∧
      (st.share = 0 → st.shaping.cap ≠ some 0 →
        t.sched.params.budget * st.effectiveWeight t.sched.params < t.sched.weight)) ∧
    (t.table.slots.toList.map (fun o => (o.map (·.share)).getD 0)).sum = t.sched.shares ∧
    (t.sched.params.budget : Int) - t.sched.shares = t.sched.surplus)

/-- What a boundary leaves alone (R124): no state, allowance, queue, counter, class, tier or origin of any record, no
port, no window, no consist; and where no SNAPSHOT is parked, nothing of the Management Unit or Cell Memory. With a
SNAPSHOT parked the ports stay as they are too, but for the counters of a seat port (what the snapshot then is stands in
SnapshotIsTakenOrParks). Of Upward Service only a run in force whose holder's mode is SINGLE after it changes: it ends
(R142). In STOPPED nothing happens (R109). MODEL'S INFERENCES: a run whose holder's credit this boundary leaves at 0 or
below stands until the credit group is asked next (log entry 14, the clauses on `up`); a reply discarded because its
seat port is DOWN counts one tx drop there (log entry 15, the clauses on the ports). MODEL'S CHOICE, log entry 2: an
expiry in STOPPED, which cannot come, changes nothing. -/
def Obligations.BoundaryFrame : Prop :=
  (∀ s : State, s.sched.running = true → ∃ t, exec .epochCounterExpiry s = .next t ∧
    (∀ k, (t.station? k).map (fun st => (st.addr, st.cls, st.tier, st.state, st.origin, st.allowance, st.ctr, st.upq,
        st.lastGrant, st.idle, st.lastFrame, st.idleStart)) =
      (s.station? k).map (fun st => (st.addr, st.cls, st.tier, st.state, st.origin, st.allowance, st.ctr, st.upq,
        st.lastGrant, st.idle, st.lastFrame, st.idleStart))) ∧
    (∀ k st, s.station? k = some st → ∃ st', t.station? k = some st' ∧
      (st.isLeaving = false → st'.shaping = st.pendingShaping.getD st.shaping ∧ st'.pendingShaping = none) ∧
      (st.isLeaving = true → st'.shaping = st.shaping ∧ st'.pendingShaping = st.pendingShaping)) ∧
    t.table.held = s.table.held ∧ t.windows = s.windows ∧ t.consist = s.consist ∧ t.hold = s.hold ∧
    t.up = { s.up with run := t.up.run } ∧ (s.up.run = none → t.up.run = none) ∧
    (∀ r st, s.up.run = some r → t.station? r.holder = some st →
      (st.shaping.mode = .single → t.up.run = none) ∧ (st.shaping.mode = .run → t.up.run = some r)) ∧
    (snapshotParked s.hub.mgmt = false → t.hub = s.hub ∧ t.ports = s.ports) ∧
    ((∀ (k : Fin 4) h, s.hub.mgmt.slots[k] = .parked h .snapshot → deadSeat s h.port = false) → t.ports = s.ports) ∧
    (∀ n : Fin 32, quietSeat t.ports.seats[n] = quietSeat s.ports.seats[n]) ∧
    t.ports.radios = s.ports.radios ∧ t.ports.ba = s.ports.ba ∧ t.ports.bb = s.ports.bb) ∧
  (∀ s : State, s.sched.running = false → exec .epochCounterExpiry s = .next s)

/-! ## Upward Service (chapter 8) and transmissions (R9, R10) -/

/-- TRANSMISSION_START on a backbone end that reaches its last source. On the lead end with local chosen (R146: no
transit frame waits, or the alternation or the streak is at local), what each grant of the local arbiter changes (R139
to R144): a credit grant of a frame of L bytes lowers the record's credit by L, moves the credit pointer where it
continues no run, and begins or counts a run, which ends where the grant takes the last entry of the holder's queue; a
surplus grant lowers the pool; both set the last grant epoch and the guarantee count to 0; a grant of the operations,
crew or onboard group debits nothing, moves its pointer and counts toward the guarantee while a passenger is eligible.
Then which record the arbiter grants (R137 to R143): the groups in their order, the passenger groups first where the
guarantee is due, each by rotation, a run before it. Then transit: the choice, the streak and the last kind, and the
release that a fall below 64 brings (R14, R146); on an end that is not the lead, transit alone and no change of streak
or kind (R147). Nothing to send changes nothing. In each case a start that stands is in transmission, and one that fails
on a multi-bit error leaves the grant as made and goes on (R30, R144). MODEL'S INFERENCES: a run whose holder's credit
has fallen to 0 or below, or that has 8 grants, ends at the next ask of the credit group that becomes a grant, and
stands through the grants of the groups before it (log entry 14); the guarantee asks whether some passenger is eligible
by R125, one with a frame in transmission included, which R137 would pass over (log entry 23, in `PassengerWaits`: the
clauses on the guarantee count and on the passenger groups first). -/
def Obligations.PassengerGrantDebits : Prop :=
  -- local
  (∀ (x : End) (fs : List CellFault) (s : State) (id : Nat), ReachesLast x s → s.consist.lead = some x →
    ((s.ports.endOf x).transit = [] ∨ s.sched.params.n = 0 ∧ (s.ports.endOf x).lastTransit = true ∨
      0 < s.sched.params.n ∧ s.sched.params.n ≤ (s.ports.endOf x).streak) →
    let s0 := withFaults fs s
    let granted := fun (t : State) => Starts (.backbone x) fs s id (.frame id)
      { t with ports := s.ports.modEnd x (fun e => { e with streak := 0, lastTransit := false }) }
    let popped := fun (st : Station) => { st with upq := st.upq.tail }
    (∀ k st rest inRun, localPick s0 = some (.credit k inRun) → s.station? k = some st → st.upq = id :: rest →
      granted { s with
        table := s.table.modStation k (fun r =>
          { popped r with credit := r.credit - frameLength s id, lastGrant := some s.sched.number })
        up := { s.up with
          guarantee := 0
          creditPtr := if inRun then s.up.creditPtr else k
          run := if rest = [] then none
            else if inRun then s.up.run.map (fun r => { r with granted := r.granted + 1 })
            else if st.shaping.mode = .run then some { holder := k, granted := 1 } else none } }) ∧
    (∀ k st rest, localPick s0 = some (.surplus k) → s.station? k = some st → st.upq = id :: rest →
      granted { s with
        table := s.table.modStation k (fun r => { popped r with lastGrant := some s.sched.number })
        sched := { s.sched with surplus := s.sched.surplus - frameLength s id }
        up := { s.up with surplusPtr := k, guarantee := 0, run := none } }) ∧
    (∀ (g : Nat) (r : Option Run),
      (PassengerWaits s ∧ g = min (s.up.guarantee + 1) 15 ∨ ¬ PassengerWaits s ∧ g = 0) →
      (GuaranteeFirst s ∧ r = none ∨ ¬ GuaranteeFirst s ∧ r = s.up.run) →
      (∀ k st rest, localPick s0 = some (.operations k) → s.station? k = some st → st.upq = id :: rest →
        granted { s with
          table := s.table.modStation k popped, up := { s.up with opsPtr := k, guarantee := g, run := r } }) ∧
      (∀ k st rest, localPick s0 = some (.crew k) → s.station? k = some st → st.upq = id :: rest →
        granted { s with
          table := s.table.modStation k popped, up := { s.up with crewPtr := k, guarantee := g, run := r } }) ∧
      (∀ rest, localPick s0 = some .onboard → s.up.onboard = id :: rest →
        granted { s with up := { s.up with onboard := rest, guarantee := g, run := r } }))) ∧
  -- the local arbiter's choice
  (∀ s : State,
    let operations := Waits s (fun st => st.cls = .operations)
    let crew := Waits s (fun st => st.cls = .crew)
    let credit := Waits s (fun st => st.cls = .passenger ∧ 0 < st.credit)
    let surplus := Waits s (fun st => st.cls = .passenger ∧ 0 < s.sched.surplus)
    let noPassenger := ∀ j, ¬ credit j ∧ ¬ surplus j
    let noService := (∀ j, ¬ operations j ∧ ¬ crew j) ∧ ¬ OnboardWaits s
    (GuaranteeFirst s → noPassenger) →
      (∀ k, FirstAfter s.up.opsPtr k operations → localPick s = some (.operations k)) ∧
      (∀ k, (∀ j, ¬ operations j) → FirstAfter s.up.crewPtr k crew → localPick s = some (.crew k)) ∧
      ((∀ j, ¬ operations j ∧ ¬ crew j) → OnboardWaits s → localPick s = some .onboard) ∧
      (noService → noPassenger → localPick s = none)) ∧
  (∀ s : State,
    let credit := Waits s (fun st => st.cls = .passenger ∧ 0 < st.credit)
    let surplus := Waits s (fun st => st.cls = .passenger ∧ 0 < s.sched.surplus)
    GuaranteeFirst s ∨ (∀ j, ¬ Waits s (fun st => st.cls = .operations ∨ st.cls = .crew) j) ∧ ¬ OnboardWaits s →
      (∀ k, RunGoesOn s k → localPick s = some (.credit k true)) ∧
      (∀ k, (∀ j, ¬ RunGoesOn s j) → FirstAfter s.up.creditPtr k credit → localPick s = some (.credit k false)) ∧
      (∀ k, (∀ j, ¬ credit j) → FirstAfter s.up.surplusPtr k surplus → localPick s = some (.surplus k))) ∧
  -- transit
  (∀ (x : End) (fs : List CellFault) (s : State) (id : Nat) (rest : List Nat), ReachesLast x s →
    (s.ports.endOf x).transit = id :: rest →
    let s0 := withFaults fs s
    let left := fun (streak : Nat) (kind : Bool) =>
      s.ports.modEnd x (fun e => { e with transit := rest, streak := streak, lastTransit := kind })
    let release := fun (ps : Ports) =>
      if rest.length < 64 ∧ (s.ports.endOf x.other).outstanding = true then
        ps.modEnd x.other (fun e => { e with pendingHold := some 0, outstanding := false, repeatAt := none })
      else ps
    let granted := fun (streak : Nat) (kind : Bool) =>
      Starts (.backbone x) fs s id (.frame id) { s with ports := release (left streak kind) }
    (s.consist.lead = some x → localPick s0 = none → granted 0 true) ∧
    (s.consist.lead = some x → localPick s0 ≠ none →
      s.sched.params.n = 0 ∧ (s.ports.endOf x).lastTransit = false ∨ (s.ports.endOf x).streak < s.sched.params.n →
      granted (min ((s.ports.endOf x).streak + 1) 7) true) ∧
    (s.consist.lead ≠ some x → granted (s.ports.endOf x).streak (s.ports.endOf x).lastTransit)) ∧
  (∀ (x : End) (fs : List CellFault) (s : State), ReachesLast x s → (s.ports.endOf x).transit = [] →
    (s.consist.lead = some x → localPick (withFaults fs s) = none) →
    exec (.transmissionStart (.backbone x) fs) s = .next (withFaults fs s))

/-- TRANSMISSION_START, what a port takes first (R9, R16, R73, R74, R145, R173, R176): a seat port a reply waiting for
it, then the head of its egress queue; a radio link an order before any frame, then the head of its egress queue behind
its entry's index; a backbone end its pending hold frame, held or not, and while it is held nothing else, then the reply
for it that was built first, then on the lead end the head notice, to the report address in force, after which
NOTICES_LOST is tried (R177), with the entry into PRESSURE that its cells may bring (R33; `EntersAfter`). A reply whose
start fails frees its slot (R30).
What the reading of a frame's cells finds (R27, R28, R29, R32): the flags, the captures where empty, and the failed
cells. A start that fails on a multi-bit error (R29, R30): the entry and every other entry of the frame leave their
queues, each counted MEMORY and one tx drop of the port it was bound for, an entry of the input queue no tx drop; what
else stands in the queues stays; transmissions in progress go on, the frame's count is then their number and it is freed
at 0; a fall of a transit queue below 64 brings its release (R14); a run whose holder's queue it empties ends (R142); no
credit, state or other figure of a record changes but drops; and MEMORY_ERROR is raised with the first failing cell,
their number, the frame's kind and the port. MODEL'S INFERENCES: the entry whose start fails counts one drop of the
record that its frame names (log entry 16, within `apartFromDrops` here); NOTICES_LOST is tried at a start that stands
(log entry 27); an entry into PRESSURE has its flag and notice when the whole notice is built (log entry 8). MODEL'S CHOICE, log entry 39: of several cells with a single-bit error in one reading, the first in chain
order fills the empty single-bit capture. -/
def Obligations.EgressHeadStarts : Prop :=
  -- seat ports and radio links
  (∀ (n : Fin 32) (fs : List CellFault) (s : State) (id : Nat) (rest : List Nat), CanStart (.seat n) s →
    repliesFor s.hub.mgmt (.seat n) = [] → (s.ports.seats[n]).egress = id :: rest →
    Starts (.seat n) fs s id (.frame id) { s with ports := s.ports.modSeat n (fun q => { q with egress := rest }) }) ∧
  (∀ (w : Fin 4) (fs : List CellFault) (s : State) (e : RadioEntry) (rest : List RadioEntry), CanStart (.radio w) s →
    (s.ports.radios[w]).orders = [] → (s.ports.radios[w]).egress = e :: rest →
    Starts (.radio w) fs s e.id (.radioFrame e.id e.index)
      { s with ports := s.ports.modRadio w (fun q => { q with egress := rest }) }) ∧
  (∀ (w : Fin 4) (fs : List CellFault) (s : State) (o : Order) (rest : List Order), CanStart (.radio w) s →
    (s.ports.radios[w]).orders = o :: rest →
    exec (.transmissionStart (.radio w) fs) s = .next { withFaults fs s with
      ports := s.ports.modRadio w (fun q => { q with
        unit := { q.unit with tx := some (.order o) }, orders := rest }) }) ∧
  -- hold frames
  (∀ (x : End) (fs : List CellFault) (s : State), CanStart (.backbone x) s →
    (∀ d, (s.ports.endOf x).pendingHold = some d →
      exec (.transmissionStart (.backbone x) fs) s = .next { withFaults fs s with
        ports := s.ports.modEnd x (fun e => { e with
          unit := { e.unit with tx := some (.hold d) }, pendingHold := none }) }) ∧
    ((s.ports.endOf x).pendingHold = none → (s.ports.endOf x).heldUntil ≠ none →
      exec (.transmissionStart (.backbone x) fs) s = .next (withFaults fs s))) ∧
  -- replies
  (∀ (p : Port) (fs : List CellFault) (s : State) (k : Fin 4) (ks : List (Fin 4)) (h : ReqHeader) (id : Nat),
    CanStart p s → (∀ w, p ≠ .radio w) →
    (∀ x, p = .backbone x → (s.ports.endOf x).pendingHold = none ∧ (s.ports.endOf x).heldUntil = none) →
    repliesFor s.hub.mgmt p = k :: ks → s.hub.mgmt.slots[k] = .built h id →
    let s0 := withFaults fs s
    let a := afterReading s0 id p
    let sending := { s with hub := { a with mgmt := { a.mgmt with
      slots := s.hub.mgmt.slots.set k (.sending h id)
      builtOrder := s.hub.mgmt.builtOrder.filter (fun j => decide (j ≠ k)) } } }
    (Reads s0 id p → exec (.transmissionStart p fs) s =
      .next { sending with ports := s.ports.modUnit p (fun u => { u with tx := some (.reply id k) }) }) ∧
    (∀ f bad, s.hub.cells.frame? id = some f → (s0.hub.readFrame f (some p)).1 = bad → bad ≠ [] →
      ∃ u, exec (.transmissionStart p fs) s = .next (goOn p s.hub.cells.frames.length u) ∧
        u.hub.mgmt.slots[k] = .free ∧ (∀ j : Fin 4, j ≠ k → u.hub.mgmt.slots[j] = s.hub.mgmt.slots[j]) ∧
        u.hub.cells = (failStart p f bad sending).hub.cells ∧ u.hub.mgmt.tally = (failStart p f bad sending).hub.mgmt.tally ∧
        u.ports = (failStart p f bad sending).ports ∧ blocks u = blocks (failStart p f bad sending))) ∧
  -- notices
  (∀ (x : End) (fs : List CellFault) (s : State) (id : Nat) (rest : List Nat) (dest : LinkAddr),
    CanStart (.backbone x) s → s.consist.lead = some x → (s.ports.endOf x).pendingHold = none →
    (s.ports.endOf x).heldUntil = none → repliesFor s.hub.mgmt (.backbone x) = [] →
    s.hub.mgmt.notices = id :: rest → s.hub.mgmt.reportAddr = some dest →
    let s0 := withFaults fs s
    let a := afterReading s0 id (.backbone x)
    let left := { s with hub := { a with mgmt := { a.mgmt with notices := rest } } }
    (Reads s0 id (.backbone x) → ∃ t, exec (.transmissionStart (.backbone x) fs) s = .next t ∧
      t.ports = s.ports.modEnd x (fun e => { e with unit := { e.unit with tx := some (.notice id dest) } }) ∧
      blocks t = blocks s ∧ (s.hub.mgmt.lost = 0 → t.hub = left.hub) ∧
      (0 < s.hub.mgmt.lost → 12 ≤ rest.length → t.hub = left.hub) ∧
      (0 < s.hub.mgmt.lost → rest.length < 12 →
        let n := cellsFor ((mgmtFrame dest s.identity 0x4B 0 0 s.consist.carriage
          (Notice.noticesLost s.hub.mgmt.lost).body).length + 4)
        (a.cells.free.length < n → t.hub = left.hub) ∧
        (n ≤ a.cells.free.length →
          ∃ u new, EntersAfter s.sender n a u t.hub ∧ u.mgmt = { a.mgmt with notices := rest ++ [new], lost := 0 } ∧
            u.cells.free = a.cells.free.drop n))) ∧
    (∀ f bad, s.hub.cells.frame? id = some f → (s0.hub.readFrame f (some (.backbone x))).1 = bad → bad ≠ [] →
      exec (.transmissionStart (.backbone x) fs) s =
        .next (goOn (.backbone x) s.hub.cells.frames.length (failStart (.backbone x) f bad left)))) ∧
  -- the reading of a frame's cells
  (∀ (f : FrameRec) (port : Option Port) (h : Hub),
    let singles := f.chain.filter (fun x => decide (h.cells.test x = some .single))
    let multis := f.chain.filter (fun x => decide (h.cells.test x = some .multi))
    let u := (h.readFrame f port).2
    let capture := fun (old : Option Capture) (xs : List Nat) =>
      if old = none then xs.head?.map (fun x => { cell := x, kind := f.kind, port := port }) else old
    (h.readFrame f port).1 = multis ∧
    u.flagOf .memorySingle = (if singles = [] then h.flagOf .memorySingle
      else { isSet := true, count := min ((h.flagOf .memorySingle).count + singles.length) 65535 }) ∧
    u.flagOf .memoryMulti = (if multis = [] then h.flagOf .memoryMulti
      else { isSet := true, count := min ((h.flagOf .memoryMulti).count + multis.length) 65535 }) ∧
    u.mgmt = { h.mgmt with flags := u.mgmt.flags } ∧
    (∀ fl, fl ≠ .memorySingle → fl ≠ .memoryMulti → u.flagOf fl = h.flagOf fl) ∧
    u.cells = { h.cells with
      singleCapture := capture h.cells.singleCapture singles, multiCapture := capture h.cells.multiCapture multis
      frames := h.cells.frames.map (fun g => if g.id = f.id then
        { g with failed := g.failed ++ multis.filter (fun x => !g.failed.contains x) } else g) }) ∧
  -- a failed start
  (∀ (p : Port) (f : FrameRec) (bad : List Nat) (s : State),
    let id := f.id
    ∃ u, failStart p f bad s = raiseNotice (.memoryError (bad.headD 0) bad.length f.kind p) u ∧
      (∀ n : Fin 32, (u.ports.seats[n]).egress = (s.ports.seats[n]).egress.filter (fun j => decide (j ≠ id))) ∧
      (∀ w : Fin 4, (u.ports.radios[w]).egress = (s.ports.radios[w]).egress.filter (fun e => decide (e.id ≠ id)) ∧
        (u.ports.radios[w]).orders = (s.ports.radios[w]).orders) ∧
      (∀ x, (u.ports.endOf x).transit = (s.ports.endOf x).transit.filter (fun j => decide (j ≠ id))) ∧
      u.up = { s.up with onboard := s.up.onboard.filter (fun j => decide (j ≠ id)), run := u.up.run } ∧
      (s.up.run = none → u.up.run = none) ∧
      (∀ r st st', s.up.run = some r → s.station? r.holder = some st → u.station? r.holder = some st' →
        (st'.upq = [] → st.upq ≠ [] → u.up.run = none) ∧ (st'.upq ≠ [] → u.up.run = some r)) ∧
      u.hub.mgmt.input = s.hub.mgmt.input.filter (fun e => decide (e.id ≠ id)) ∧
      (∀ q, (u.ports.unitOf q).tx = (s.ports.unitOf q).tx ∧ (u.ports.unitOf q).rx = (s.ports.unitOf q).rx ∧
        (u.ports.unitOf q).link = (s.ports.unitOf q).link) ∧
      (∀ x, (if id ∈ (s.ports.endOf x.other).transit ∧ (s.ports.endOf x).outstanding = true ∧
          ((s.ports.endOf x.other).transit.filter (fun j => decide (j ≠ id))).length < 64 then
        (u.ports.endOf x).pendingHold = some 0 ∧ (u.ports.endOf x).outstanding = false ∧
          (u.ports.endOf x).repeatAt = none
      else
        (u.ports.endOf x).pendingHold = (s.ports.endOf x).pendingHold ∧
          (u.ports.endOf x).outstanding = (s.ports.endOf x).outstanding ∧
          (u.ports.endOf x).repeatAt = (s.ports.endOf x).repeatAt)) ∧
      u.sched = s.sched ∧ u.windows = s.windows ∧ u.consist = s.consist ∧ u.hold = s.hold ∧
      u.table.held = s.table.held ∧
      (∀ j, s.station? j = none → u.station? j = none) ∧
      (∀ j st, s.station? j = some st → ∃ st', u.station? j = some st' ∧
        apartFromDrops { st' with upq := st.upq } = apartFromDrops st ∧
        (st'.upq = st.upq ∨ st'.upq = st.upq.filter (fun i => decide (i ≠ id)))) ∧
      -- the counts, for a frame that stands in no upward queue any more
      ((∀ j st, s.station? j = some st → id ∉ st.upq) →
        u.hub.tallyOf .memory = s.hub.tallyOf .memory + BitVec.ofNat 32 (1 + entriesOf s id) ∧
        (∀ r, r ≠ .memory → u.hub.tallyOf r = s.hub.tallyOf r) ∧
        (∀ q, (u.ports.unitOf q).ctr.txDrops = (s.ports.unitOf q).ctr.txDrops +
          BitVec.ofNat 32 (entriesAt s id q + if q = p then 1 else 0)) ∧
        (∀ g, s.hub.cells.frame? id = some g →
          (∀ m, g.refs = 1 + entriesOf s id + m → 0 < m → ∃ g', u.hub.cells.frame? id = some g' ∧ g'.refs = m) ∧
          (g.refs = 1 + entriesOf s id → s.hub.mgmt.reportAddr = none → u.hub.cells.frame? id = none))))

/-- TRANSMISSION_COMPLETE (R8, R10, R15, R56, R73, R96, R149, R173): a stored frame, on a radio behind its header or a
notice among them, is counted and its reference dropped; then an upward metered frame is charged to its record, and an
unmetered one is charged nothing; then a LEAVING record whose frame it was is freed. A reply frees its slot; an order
and a hold frame count in their own counters alone. -/
def Obligations.CompletionCounts : Prop :=
  (∀ (p : Port) (s : State) (id : Nat),
    (s.ports.unitOf p).tx = some (.frame id) ∨ (∃ i, (s.ports.unitOf p).tx = some (.radioFrame id i)) ∨
      (∃ dst, (s.ports.unitOf p).tx = some (.notice id dst)) →
    (∀ x, p = .backbone x → s.hub.cells.owner id = none) →
    exec (.transmissionComplete p) s = .next { s with
      ports := s.ports.modUnit p (fun u => { u with tx := none, ctr := u.ctr.sent (frameLength s id) })
      hub := s.hub.dropRef s.sender id }) ∧
  (∀ (x : End) (s : State) (id : Nat) (k : Fin 256), (s.ports.endOf x).unit.tx = some (.frame id) →
    s.hub.cells.owner id = some k →
    let s1 := { s with
      ports := s.ports.modEnd x (fun e => { e with
        unit := { e.unit with tx := none, ctr := e.unit.ctr.sent (frameLength s id) } })
      hub := s.hub.dropRef s.sender id }
    let s2 := if isMetered s id then charge k .up (frameLength s id) s1 else s1
    ((∀ st, s.station? k = some st → st.isLeaving = false) →
      exec (.transmissionComplete (.backbone x)) s = .next s2) ∧
    (∀ st why, s.station? k = some st → st.state = .leaving why →
      (inFlight s2 k = false → exec (.transmissionComplete (.backbone x)) s = .next (freeRecord k why s2) ∧
        (freeRecord k why s2).station? k = none) ∧
      (inFlight s2 k = true → exec (.transmissionComplete (.backbone x)) s = .next s2))) ∧
  (∀ (w : Fin 4) (s : State) (o : Order), (s.ports.radios[w]).unit.tx = some (.order o) →
    exec (.transmissionComplete (.radio w)) s = .next { s with
      ports := s.ports.modRadio w (fun q => { q with
        unit := { q.unit with tx := none }, ordersSent := q.ordersSent + 1 }) }) ∧
  (∀ (x : End) (s : State) (d : Nat), (s.ports.endOf x).unit.tx = some (.hold d) →
    exec (.transmissionComplete (.backbone x)) s = .next { s with
      ports := s.ports.modEnd x (fun e =>
        { e with
          unit := { e.unit with tx := none }
          holdsSent := if d = 0 then e.holdsSent else e.holdsSent + 1
          releasesSent := if d = 0 then e.releasesSent + 1 else e.releasesSent }) }) ∧
  (∀ (p : Port) (s : State) (id : Nat) (k : Fin 4), (s.ports.unitOf p).tx = some (.reply id k) →
    ∃ t, exec (.transmissionComplete p) s = .next t ∧ t.hub.mgmt.slots[k] = .free ∧
      (∀ j : Fin 4, j ≠ k → t.hub.mgmt.slots[j] = s.hub.mgmt.slots[j]) ∧
      t.ports = s.ports.modUnit p (fun u => { u with tx := none, ctr := u.ctr.sent (frameLength s id) }) ∧
      RefDropped id s t ∧ blocks t = blocks s)

/-! ## Backbone frames (chapter 9) and the hold exchange (1.5) -/

/-- BACKBONE_FRAME_RECEIVED of what is no unicast to a station. A unicast with no station record and not for the part
(R14, R163): it enters the transit queue toward the other end, or is discarded END_DOWN, SHED or QUEUE_FULL, in that
order of checks; an entry that leaves the queue at 96 or more with no hold outstanding builds a hold.
A multi-destination frame (R160, R161): an entry at every seat port and, with index 255, at every radio that has a HELD,
ADMITTED or SPENT record, and one in transit; its count is the number of entries; each copy that finds a queue of 64
counts one QUEUE_FULL and one tx drop of its port, and the transit copy not made one of its reason and one tx drop of
the other end; with no entry at all the frame is freed and counts one rx discard.
A management frame for the part (R168), and one of level CREW on a CREW_MAINT seat port (R7): it joins the input queue
while that holds fewer than 4, with its level and port; else it is discarded, counted MGMT_OVERFLOW in tally and flag,
and one rx discard. A broadcast one (R163): offered to the input queue and checked for transit, each by itself, and
freed with an rx discard only where neither was made.
A frame that fails its receive checks is discarded (WIRE) and not stored (R5), by the row of hold frames too; a frame to
the part's own address that is no management frame is discarded (WIRE, R153). -/
def Obligations.TransitIsChecked : Prop :=
  (∀ (x : End) (f : List Byte) (ok : Bool) (s : State) (chain : List Nat) (s1 : State),
    Arrives (.backbone x) f ok s chain s1 → typeOf f ≠ typeHold → isGroup (dstOf f) = false → dstOf f ≠ s.identity →
    typeOf f = typeMgmt ∨ s.table.byAddr (dstOf f) = none →
    let id := chain.headD 0
    let s2 := storeFrame (.backbone x) chain f s1
    let y := x.other
    let out := fun why => exec (.backboneFrameReceived x f ok) s =
      .next (discardFrame why (.backbone x) (some (.backbone y)) none id s2)
    ((s.ports.endOf y).unit.link = .down → out .endDown) ∧
    ((s.ports.endOf y).unit.link = .up → (s.ports.endOf y).overrun = true → s.hold.action = .shed → out .shed) ∧
    ((s.ports.endOf y).unit.link = .up → ((s.ports.endOf y).overrun = false ∨ s.hold.action = .wait) →
      128 ≤ (s.ports.endOf y).transit.length → out .queueFull) ∧
    ((s.ports.endOf y).unit.link = .up → ((s.ports.endOf y).overrun = false ∨ s.hold.action = .wait) →
      (s.ports.endOf y).transit.length < 128 → (∀ g ∈ s1.hub.cells.frames, g.id ≠ id) →
      ∃ t, exec (.backboneFrameReceived x f ok) s = .next t ∧
        (t.ports.endOf y) = { s1.ports.endOf y with transit := (s.ports.endOf y).transit ++ [id] } ∧
        (if 95 ≤ (s.ports.endOf y).transit.length ∧ (s.ports.endOf x).outstanding = false then
          (t.ports.endOf x).pendingHold = some 200 ∧ (t.ports.endOf x).outstanding = true ∧
            (t.ports.endOf x).repeatAt = some (s.now + 100)
        else
          (t.ports.endOf x).pendingHold = (s.ports.endOf x).pendingHold ∧
            (t.ports.endOf x).outstanding = (s.ports.endOf x).outstanding ∧
            (t.ports.endOf x).repeatAt = (s.ports.endOf x).repeatAt) ∧
        t.hub.cells.frame? id = some
          { length := f.length, arrival := some (.backbone x), kind := kindOfType (typeOf f), metered := false,
            chain := chain, refs := 1, station := none, failed := [] } ∧
        t.hub.mgmt = s1.hub.mgmt ∧ blocks t = blocks s)) ∧
  -- multi-destination frames
  (∀ (x : End) (f : List Byte) (ok : Bool) (s : State) (chain : List Nat) (s1 : State) (why : Option Discard),
    Arrives (.backbone x) f ok s chain s1 → typeOf f ≠ typeHold → typeOf f ≠ typeMgmt → dstOf f ≠ s.identity →
    isGroup (dstOf f) = true → TransitCheck s x.other why → (∀ g ∈ s1.hub.cells.frames, g.id ≠ chain.headD 0) →
    let id := chain.headD 0
    let s2 := storeFrame (.backbone x) chain f s1
    let live := fun (test : Origin → Prop) => ∃ k st, s.station? k = some st ∧ test st.origin ∧
      (st.state = .held ∨ st.state = .admitted ∨ st.state = .spent)
    let liveAt := fun (n : Fin 32) => live (fun o => o = .seat n)
    let liveOn := fun (w : Fin 4) => live (fun o => ∃ i, o = .radio w i)
    ∀ (seats full : List (Fin 32)) (radios stuck : List (Fin 4)),
      seats.Nodup → full.Nodup → radios.Nodup → stuck.Nodup →
      (∀ n, n ∈ seats ↔ liveAt n ∧ (s.ports.seats[n]).egress.length < 64) →
      (∀ n, n ∈ full ↔ liveAt n ∧ 64 ≤ (s.ports.seats[n]).egress.length) →
      (∀ w, w ∈ radios ↔ liveOn w ∧ (s.ports.radios[w]).egress.length < 64) →
      (∀ w, w ∈ stuck ↔ liveOn w ∧ 64 ≤ (s.ports.radios[w]).egress.length) →
      let entries := seats.length + radios.length + if why = none then 1 else 0
      let failed := full.length + stuck.length
      ∃ t, exec (.backboneFrameReceived x f ok) s = .next t ∧
        (∀ n : Fin 32, (t.ports.seats[n]).egress =
          (s.ports.seats[n]).egress ++ if n ∈ seats then [id] else []) ∧
        (∀ w : Fin 4, (t.ports.radios[w]).egress =
          (s.ports.radios[w]).egress ++ if w ∈ radios then [{ id := id, index := 255 }] else []) ∧
        TransitPart x id (decide (why = none)) s2 t ∧
        (∀ r, t.hub.tallyOf r = s2.hub.tallyOf r +
          BitVec.ofNat 32 ((if r = .queueFull then failed else 0) + if why = some r then 1 else 0)) ∧
        (∀ n : Fin 32, (t.ports.seats[n]).unit.ctr.txDrops = (s2.ports.seats[n]).unit.ctr.txDrops +
          if n ∈ full then 1 else 0) ∧
        (∀ w : Fin 4, (t.ports.radios[w]).unit.ctr.txDrops = (s2.ports.radios[w]).unit.ctr.txDrops +
          if w ∈ stuck then 1 else 0) ∧
        (t.ports.endOf x.other).unit.ctr.txDrops = (s2.ports.endOf x.other).unit.ctr.txDrops +
          (if why = none then 0 else 1) ∧
        (t.ports.endOf x).unit.ctr.rxDiscards = (s2.ports.endOf x).unit.ctr.rxDiscards +
          (if entries = 0 then 1 else 0) ∧
        (0 < entries → t.hub.cells.frame? id = some
          { length := f.length, arrival := some (.backbone x), kind := kindOfType (typeOf f), metered := false,
            chain := chain, refs := entries, station := none, failed := [] } ∧
          t.hub.cells.free = s1.hub.cells.free) ∧
        (entries = 0 → s.hub.mgmt.reportAddr = none → t.hub.cells.frame? id = none ∧
          t.hub.cells.free = chain.reverse ++ s1.hub.cells.free) ∧
        blocks t = blocks s) ∧
  -- requests
  (∀ (p : Port) (command : Instr) (level : Level) (f : List Byte) (ok : Bool) (s : State) (chain : List Nat) (s1 : State),
    ((∃ x, p = .backbone x ∧ command = .backboneFrameReceived x f ok ∧ level = .server) ∨
      (∃ n : Fin 32, p = .seat n ∧ command = .seatFrameReceived n f ok ∧ level = .crew ∧
        (s.ports.seats[n]).designation = .crewMaint)) →
    Arrives p f ok s chain s1 → typeOf f = typeMgmt → dstOf f = s.identity →
    (∀ g ∈ s1.hub.cells.frames, g.id ≠ chain.headD 0) →
    let id := chain.headD 0
    let s2 := storeFrame p chain f s1
    (s1.hub.mgmt.input.length < 4 → ∃ t, exec command s = .next t ∧
      t.hub.mgmt = { s1.hub.mgmt with input := s1.hub.mgmt.input ++ [{ id := id, level := level, port := p }] } ∧
      t.hub.cells.frame? id = some
        { length := f.length, arrival := some p, kind := .management, metered := false, chain := chain, refs := 1,
          station := none, failed := [] } ∧
      t.ports = s2.ports ∧ blocks t = blocks s) ∧
    (4 ≤ s1.hub.mgmt.input.length → exec command s = .next { s2 with
      hub := ((s2.hub.tally .mgmtOverflow).flag .mgmtOverflow).freeFrame s2.sender id
      ports := s2.ports.count p PortCounters.rxDiscard })) ∧
  (∀ (x : End) (f : List Byte) (ok : Bool) (s : State) (chain : List Nat) (s1 : State) (why : Option Discard),
    Arrives (.backbone x) f ok s chain s1 → typeOf f = typeMgmt → dstOf f ≠ s.identity → isGroup (dstOf f) = true →
    TransitCheck s x.other why → (∀ g ∈ s1.hub.cells.frames, g.id ≠ chain.headD 0) →
    let id := chain.headD 0
    let s2 := storeFrame (.backbone x) chain f s1
    let room := decide (s1.hub.mgmt.input.length < 4)
    let entries := (if room then 1 else 0) + if why = none then 1 else 0
    ∃ t, exec (.backboneFrameReceived x f ok) s = .next t ∧
      t.hub.mgmt.input = s1.hub.mgmt.input ++
        (if room then [{ id := id, level := .server, port := .backbone x }] else []) ∧
      TransitPart x id (decide (why = none)) s2 t ∧
      (∀ r, t.hub.tallyOf r = s2.hub.tallyOf r +
        BitVec.ofNat 32 ((if r = .mgmtOverflow ∧ room = false then 1 else 0) + if why = some r then 1 else 0)) ∧
      (room = false → t.hub.flagOf .mgmtOverflow =
        { isSet := true, count := min ((s2.hub.flagOf .mgmtOverflow).count + 1) 65535 }) ∧
      (room = true → t.hub.flagOf .mgmtOverflow = s2.hub.flagOf .mgmtOverflow) ∧
      (t.ports.endOf x.other).unit.ctr.txDrops = (s2.ports.endOf x.other).unit.ctr.txDrops +
        (if why = none then 0 else 1) ∧
      (t.ports.endOf x).unit.ctr.rxDiscards = (s2.ports.endOf x).unit.ctr.rxDiscards +
        (if entries = 0 then 1 else 0) ∧
      (0 < entries → t.hub.cells.frame? id = some
        { length := f.length, arrival := some (.backbone x), kind := .management, metered := false, chain := chain,
          refs := entries, station := none, failed := [] }) ∧
      (entries = 0 → s.hub.mgmt.reportAddr = none → t.hub.cells.frame? id = none) ∧
      blocks t = blocks s) ∧
  -- discards
  (∀ (x : End) (f : List Byte) (ok : Bool) (s : State) (chain : List Nat) (s1 : State),
    (ArrivesBad (.backbone x) f ok s chain s1 →
      exec (.backboneFrameReceived x f ok) s = .next (discardWire (.backbone x) chain s1) ∧
      exec (.holdFrameReceived x f ok) s = .next (discardWire (.backbone x) chain s1)) ∧
    (Arrives (.backbone x) f ok s chain s1 → typeOf f ≠ typeHold → typeOf f ≠ typeMgmt → dstOf f = s.identity →
      exec (.backboneFrameReceived x f ok) s = .next
        (discardFrame .wire (.backbone x) none none (chain.headD 0) (storeFrame (.backbone x) chain f s1))))

/-- BACKBONE_FRAME_RECEIVED, a unicast to a station. Where it passes every downward check (R97, R155, R156) it enters
the egress queue of the record's origin with one reference and is counted, and a metered one is charged; with a charge
that exhausts the allowance (R98, R99) the exhaustion follows on the state so reached: renewed, or SPENT with the upward
queue purged (ExhaustionRenewsOrSpends), and the frame stays in its egress queue (R97, R102). Where a check fails (R155,
R157) the frame is discarded, in this order: PURGE for a LEAVING record and BARRED for a barred one, unclassified; then,
counted in its window, WINDOW, NOT_ADMITTED, PRESSURE, QUEUE_FULL; each counts one tx drop of the port it was bound for
and one drop of the record (DiscardCountsOnce), and charges nothing. What `classify` gives and `countClassified` counts
stands in SeatFrameIsQueued, both ways. -/
def Obligations.DownwardIsEnteredAndCharged : Prop :=
  ∀ (x : End) (f : List Byte) (ok : Bool) (s : State) (chain : List Nat) (s1 : State) (k : Fin 256) (st : Station),
    Arrives (.backbone x) f ok s chain s1 → typeOf f ≠ typeHold → typeOf f ≠ typeMgmt → dstOf f ≠ s.identity →
    isGroup (dstOf f) = false → s.table.byAddr (dstOf f) = some k → s.station? k = some st →
    let id := chain.headD 0
    let s2 := storeFrame (.backbone x) chain f s1
    let command : Instr := .backboneFrameReceived x f ok
    let r := classify s.windows st false (netAddr f false)
    let exhausts := r.metered = true ∧ ∃ al, st.allowance = some al ∧ 0 < al.current ∧ al.current ≤ f.length
    let out := fun (why : Discard) (t : State) => exec command s =
      .next (discardFrame why (.backbone x) (some st.origin.port) (some k) id t)
    let pressed := st.cls = .passenger ∧ s1.hub.cells.pressure = .pressure
    let queued := match st.origin with
      | .seat n => (s.ports.seats[n]).egress.length
      | .radio w _ => (s.ports.radios[w]).egress.length
    let placed := fun (t : State) =>
      (∀ n, st.origin = .seat n → (t.ports.seats[n]).egress = (s.ports.seats[n]).egress ++ [id]) ∧
      (∀ w i, st.origin = .radio w i →
        (t.ports.radios[w]).egress = (s.ports.radios[w]).egress ++ [{ id := id, index := i }]) ∧
      (∀ y, (t.ports.endOf y).transit = (s.ports.endOf y).transit) ∧ t.table.held = s.table.held ∧
      (∀ i, r.window = some i → t.windows[i] = { s.windows[i] with down := (s.windows[i]).down + 1 }) ∧
      (∀ i : Fin 9, r.window ≠ some i → t.windows[i] = s.windows[i]) ∧ t.sched = s.sched
    -- entered
    (st.isLeaving = false → (∀ b, st.state ≠ .barred b) → downwardDiscard s1 st r = none →
      (∀ g ∈ s1.hub.cells.frames, g.id ≠ id) →
      ∃ u, placed u ∧
        u.station? k = some { st with
          ctr := st.ctr.countDown f.length r.metered
          allowance := if r.metered then st.allowance.map (Allowance.charge f.length) else st.allowance } ∧
        (∀ j, j ≠ k → u.station? j = s.station? j) ∧
        u.hub.cells.frame? id = some
          { length := f.length, arrival := some (.backbone x), kind := kindOfType (typeOf f), metered := r.metered,
            chain := chain, refs := 1, station := some k, failed := [] } ∧
        u.hub.mgmt = s1.hub.mgmt ∧ u.up = s.up ∧
        (¬ exhausts → exec command s = .next u) ∧
        (exhausts → ∃ t, exec command s = .next t ∧ t = exhaust k .down f.length u ∧ placed t)) ∧
    -- discarded
    (st.isLeaving = true → out .purge s2) ∧
    (∀ b, st.state = .barred b → out .barred s2) ∧
    (st.isLeaving = false → (∀ b, st.state ≠ .barred b) →
      let s3 := countClassified false r s2
      (r.permitted = false → out .window s3) ∧
      (r.permitted = true → r.metered = true → st.state ≠ .admitted → out .notAdmitted s3) ∧
      (r.permitted = true → (r.metered = true → st.state = .admitted) →
        (pressed → out .pressure s3) ∧ (¬ pressed → 64 ≤ queued → out .queueFull s3)))

/-- HOLD_FRAME_RECEIVED, and a hold frame by the row of other backbone frames (R16, R23): the received hold state is
replaced or ended, the frame's cells go back, and nothing else changes. MODEL'S CHOICE, log entry 2: the row
BACKBONE_FRAME_RECEIVED takes a hold frame too. -/
def Obligations.HoldFrameIsTaken : Prop :=
  ∀ (x : End) (f : List Byte) (ok : Bool) (s : State) (chain : List Nat) (s1 : State),
    Arrives (.backbone x) f ok s chain s1 → typeOf f = typeHold →
    let d := fieldAt f 14 2
    let t := { giveBackCells chain s1 with
      ports := s1.ports.modEnd x (fun e =>
        if d = 0 then
          { e with heldUntil := none, holdStart := none, overrun := false, releasesReceived := e.releasesReceived + 1 }
        else
          { e with
            heldUntil := some (s.now + d)
            holdStart := if e.heldUntil.isSome then e.holdStart else some s.now
            holdsReceived := e.holdsReceived + 1 }) }
    exec (.holdFrameReceived x f ok) s = .next t ∧ exec (.backboneFrameReceived x f ok) s = .next t

/-- HELD_UNTIL_REACHED and HOLD_REPEAT_TIMER_EXPIRY (R14, R16): the hold ends with its overrun; another hold is built
and the timer restarts while the queue holds 64 or more and a hold is outstanding, and else the timer stops.
HOLD_LIMIT_EXPIRY (R17): an end still held when its continuous hold has lasted the limit records one overrun: overrun
yes, its flag and counter, and the HOLD_OVERRUN notice; a hold that has overrun already, or ends before, does nothing.
MODEL'S CHOICE, log entry 1: the time moves to the timer's moment where it has not come yet. -/
def Obligations.HoldTimersExpire : Prop :=
  (∀ (x : End) (s : State) (m : Nat), let later := { s with now := max s.now m, sched := s.sched.pass (m - s.now) }
    ((s.ports.endOf x).heldUntil = some m → exec (.heldUntilReached x) s = .next { later with
      ports := s.ports.modEnd x (fun e => { e with heldUntil := none, holdStart := none, overrun := false }) }) ∧
    ((s.ports.endOf x).repeatAt = some m → (s.ports.endOf x).outstanding = true →
      64 ≤ (s.ports.endOf x.other).transit.length → exec (.holdRepeatTimerExpiry x) s = .next { later with
        ports := s.ports.modEnd x (fun e => { e with
          pendingHold := some 200, repeatAt := some (max s.now m + 100) }) }) ∧
    ((s.ports.endOf x).repeatAt = some m →
      (s.ports.endOf x).outstanding = false ∨ (s.ports.endOf x.other).transit.length < 64 →
      exec (.holdRepeatTimerExpiry x) s = .next { later with
        ports := s.ports.modEnd x (fun e => { e with repeatAt := none }) })) ∧
  (∀ (x : End) (s : State) (u m : Nat),
    (s.ports.endOf x).heldUntil = some u → (s.ports.endOf x).holdStart = some m →
    let due := m + 100 * s.hold.limit
    ((s.ports.endOf x).overrun = false → due ≤ max s.now u → exec (.holdLimitExpiry x) s = .next { s with
      now := max s.now due, sched := s.sched.pass (due - s.now)
      ports := s.ports.modEnd x (fun e => { e with overrun := true, overruns := e.overruns + 1 })
      hub := (s.hub.flag (overrunFlag x)).raise s.sender (.holdOverrun x s.hold.action s.hold.limit) }) ∧
    ((s.ports.endOf x).overrun = false → max s.now u < due → exec (.holdLimitExpiry x) s = .next s) ∧
    ((s.ports.endOf x).overrun = true → exec (.holdLimitExpiry x) s = .next s))

/-! ## The Management Unit (chapter 10): taking, building, notices -/

/-- The take of a request that passes the common checks (R169): the lowest FREE slot is RESERVED and records port,
source, code and tag; the entry leaves the input queue, and its reference is dropped; no other slot, no port, no tally
counter and no other block changes. A take is made where a slot is FREE and the unit has finished with the request
before it, a parked operation's reply that waits for cells being no hindrance (R172). None is made with the input
queue empty, with no FREE slot (R171), or while the reply of an earlier request waits for cells (R169, R172): no row
of a request then changes anything, the row of the request at the head among them, and that request stays at the head.
A take that ends with no reply: where cells of the frame give a multi-bit error (R27, R30) it counts MEMORY in the
tally, and MEMORY_ERROR is raised with the first failing cell, their number, the frame's kind and the port; where the
source is a group address (R170) it counts MGMT_REFUSED. Either way it counts one rx discard of the port the frame
came in on (none for a broadcast one, log entry 5), the entry has left the queue with its reference, the failed cells
are retired where that was the last, every slot is as it was, the lowest FREE one FREE again, and no block changes.
MODEL'S INFERENCES: MEMORY_ERROR carries the port the request came in on (log entry 36); a request that ends at its
take is a received frame that is discarded, which R8 counts as an rx discard (log entry 25); a broadcast request whose
cells do not read loses the reference of the input queue alone, and its transit copy stays (log entry 26). MODEL'S
CHOICES: MEMORY_ERROR comes after the notices that the freeing of the frame brings about (log entry 10); the command
of a row for which no take can be made changes nothing (log entry 2). -/
def Obligations.TakeReservesASlot : Prop :=
  (∀ (s : State) (fs : List CellFault) (k : Fin 4) (rq : Request), Takes s fs k rq →
    let t := afterTake s fs
    t.hub.mgmt.input = s.hub.mgmt.input.tail ∧
    s.hub.mgmt.slots[k] = .free ∧ (∀ j : Fin 4, j < k → s.hub.mgmt.slots[j] ≠ .free) ∧
    t.hub.mgmt.slots[k] = .reserved
      { port := rq.port, src := rq.src, code := BitVec.ofNat 8 rq.code, tag := rq.tag } none false ∧
    (∀ j : Fin 4, j ≠ k → t.hub.mgmt.slots[j] = s.hub.mgmt.slots[j]) ∧
    t.hub.mgmt.waiting = s.hub.mgmt.waiting ∧ t.hub.mgmt.builtOrder = s.hub.mgmt.builtOrder ∧
    t.hub.mgmt.tally = s.hub.mgmt.tally ∧ t.ports = s.ports ∧ blocks t = blocks s ∧ t.pending = s.pending ∧
    (∀ e f, s.hub.mgmt.input.head? = some e → s.hub.cells.frame? e.id = some f →
      RefDropped e.id { s with hub := ((withFaults fs s).hub.readFrame f none).2 } t)) ∧
  -- when a take is made, and when none is
  (∀ (s : State) (k : Fin 4) (e : InputEntry) (f : FrameRec),
    s.hub.mgmt.input.head? = some e → s.hub.cells.frame? e.id = some f →
    s.hub.mgmt.slots[k] = .free → (∀ j : Fin 4, j < k → s.hub.mgmt.slots[j] ≠ .free) →
    (∀ (j : Fin 4) h c, s.hub.mgmt.slots[j] ≠ .reserved h c true) →
    requestReady s = some (k, e, f, readRequest e.level e.port (s.hub.cells.frameBytes f))) ∧
  (∀ (s : State) (fs : List CellFault),
    s.hub.mgmt.input = [] ∨ (∀ j : Fin 4, s.hub.mgmt.slots[j] ≠ .free) ∨
      (∃ (j : Fin 4) (h : ReqHeader) (c : Option ReplyContent), s.hub.mgmt.slots[j] = .reserved h c true) →
    ∀ i ∈ requestRows fs, exec i s = .next s) ∧
  -- a take that ends with no reply
  (∀ (s : State) (fs : List CellFault) (k : Fin 4) (e : InputEntry) (f : FrameRec) (rq : Request),
    requestReady s = some (k, e, f, rq) →
    let bad := ((withFaults fs s).hub.readFrame f none).1
    let ended := fun (why : Discard) (t : State) =>
      t.hub.mgmt.input = s.hub.mgmt.input.tail ∧ t.hub.mgmt.slots = s.hub.mgmt.slots ∧ t.hub.mgmt.slots[k] = .free ∧
      t.hub.tallyOf why = s.hub.tallyOf why + 1 ∧ (∀ r, r ≠ why → t.hub.tallyOf r = s.hub.tallyOf r) ∧
      (s.hub.cells.isMulti f = true → t.ports = s.ports) ∧
      (∀ p, s.hub.cells.isMulti f = false → f.arrival = some p →
        t.ports = s.ports.count p (fun c => { c with rxDiscards := c.rxDiscards + 1 })) ∧
      (1 < f.refs → ∃ g, t.hub.cells.frame? e.id = some g ∧ g.refs = f.refs - 1 ∧ ∀ x ∈ bad, x ∈ g.failed) ∧
      (f.refs ≤ 1 → t.hub.cells.retired = s.hub.cells.retired ++
          (f.chain.filter (fun x => f.failed.contains x || bad.contains x)).take (64 - s.hub.cells.retired.length) ∧
        (s.hub.mgmt.reportAddr = none → t.hub.cells.frame? e.id = none)) ∧
      blocks t = blocks s
    (bad ≠ [] → ∃ t, exec (rowOf rq fs) s =
        .next (raiseNotice (.memoryError (bad.headD 0) bad.length f.kind e.port) t) ∧ ended .memory t ∧
      t.hub.flagOf .memoryMulti =
        { isSet := true, count := min ((s.hub.flagOf .memoryMulti).count + bad.length) 65535 }) ∧
    (bad = [] → isGroup rq.src = true → ∃ t, exec (rowOf rq fs) s = .next t ∧ ended .mgmtRefused t))

/-- A reply fixed with no older reply waiting (R26, R170, R172, R174): with cells enough its slot is BUILT, last in the
order of the built replies, with a frame of kind REPLY that holds the reply's bytes of 11.2 up to the wire check: its
header with the request's source, code and tag, the part's identity and carriage, and the status and body that
`renderReply` gives at this moment. So for contents fixed already, a refusal (`refuse`: its status and no body) and an
answer (`answer`: OK and its body) among them, and for a view (`answerView`) in the slot of a request taken, whose bytes
ReadsAnswerTheirView gives. Where its cells bring cells held to the high mark, PRESSURE is entered, with flag and notice
(R26, R33; `EntersAfter`). With too few cells it waits in its slot. Nothing but Cell Memory and the Management Unit
changes. BUILD_WAITING_REPLY (R172): the oldest waiting reply is built, with the same bytes, once the stack holds cells
enough for it, and no later one passes it. The twelve status codes (R190). A reply for a seat port that is DOWN is
discarded as it is built (R2, R173): one PURGE, one tx drop, and its slot is free. MODEL'S CHOICE, log entry 2: with too
few cells the command changes nothing. MODEL'S INFERENCES: the tx drop of a reply discarded at its build (log entry 15);
flag and notice of an entry into PRESSURE come when all the reply's cells are taken (log entry 8). -/
def Obligations.ReplyIsBuilt : Prop :=
  (∀ (k : Fin 4) (c : ReplyContent) (b : Bool) (s : State) (h : ReqHeader),
    (s.hub.mgmt.slots[k]).header? = some h → s.hub.mgmt.waiting = [] →
    (∃ st body, c = .fixed st body) ∨ (∃ w b', s.hub.mgmt.slots[k] = .reserved h w b') →
    let r := renderReply s c
    let bytes := mgmtFrame h.src s.identity h.code r.1.code h.tag s.consist.carriage r.2
    let t := fixReply k c b s
    (deadSeat s h.port = false → StackOk s → cellsFor (bytes.length + 4) ≤ s.hub.cells.free.length →
      (∃ id g, t.hub.mgmt.slots[k] = .built h id ∧ t.hub.cells.frame? id = some g ∧ g.kind = .reply ∧
        g.length = bytes.length + 4 ∧ g.refs = 1 ∧ g.station = none ∧ g.arrival = none ∧
        g.chain = s.hub.cells.free.take (cellsFor (bytes.length + 4)) ∧
        (t.hub.cells.frameBytes g).take bytes.length = bytes ∧
        -- the hub with the reply in its cells, and what follows where they enter PRESSURE
        ∃ u e, EntersAfter s.sender (cellsFor (bytes.length + 4)) s.hub u e ∧
          u.mgmt = { s.hub.mgmt with slots := s.hub.mgmt.slots.set k (.reserved h (some c) b), waiting := [k] } ∧
          u.cells.free = s.hub.cells.free.drop (cellsFor (bytes.length + 4)) ∧
          t.hub = { e with mgmt := { e.mgmt with
            slots := e.mgmt.slots.set k (.built h id), builtOrder := e.mgmt.builtOrder ++ [k], waiting := [] } }) ∧
      t.hub.mgmt.builtOrder = s.hub.mgmt.builtOrder ++ [k] ∧ t.hub.mgmt.waiting = []) ∧
    (deadSeat s h.port = true → cellsFor (bytes.length + 4) ≤ s.hub.cells.free.length →
      t.hub.mgmt.slots[k] = .free ∧ t.hub.mgmt.waiting = [] ∧ Counts s t (countAt .purge 1) (countAt h.port 1)) ∧
    (s.hub.cells.free.length < cellsFor (bytes.length + 4) →
      t.hub.mgmt.slots[k] = .reserved h (some c) b ∧ t.hub.mgmt.waiting = [k] ∧ t.hub.cells = s.hub.cells) ∧
    (∀ st, c = .fixed st [] → b = true → refuse k st s = t) ∧
    (∀ body, c = .fixed .ok body → b = true → answer k body s = t) ∧ (b = true → answerView k c s = t)) ∧
  (∀ (st : Status) (body : List Byte) (s : State), renderReply s (.fixed st body) = (st, body)) ∧
  ([Status.ok, .badRequest, .notPermitted, .noStation, .wrongState, .stationBusy, .badValue, .busy, .stale, .noSnapshot,
    .storeFailed, .aborted].map (·.code) = [0, 1, 2, 3, 4, 5, 6, 7, 8, 9, 10, 11]) ∧
  (∀ (k : Fin 4) (c : ReplyContent) (b : Bool) (s : State) (h : ReqHeader),
    (s.hub.mgmt.slots[k]).header? = some h → s.hub.mgmt.waiting = [] →
    let u := fixReply k c b s
    (∀ j : Fin 4, j ≠ k → u.hub.mgmt.slots[j] = s.hub.mgmt.slots[j]) ∧
    u.hub.mgmt.input = s.hub.mgmt.input ∧ u.hub.mgmt.store = s.hub.mgmt.store ∧
    u.hub.mgmt.snapshot = s.hub.mgmt.snapshot ∧ blocks u = blocks s ∧
    (deadSeat s h.port = false → u.hub.mgmt.tally = s.hub.mgmt.tally ∧ u.ports = s.ports)) ∧
  -- the oldest waiting reply
  (∀ (s : State) (k : Fin 4) (ks : List (Fin 4)) (h : ReqHeader) (c : ReplyContent) (b : Bool),
    s.hub.mgmt.waiting = k :: ks → s.hub.mgmt.slots[k] = .reserved h (some c) b →
    let r := renderReply s c
    let bytes := mgmtFrame h.src s.identity h.code r.1.code h.tag s.consist.carriage r.2
    (deadSeat s h.port = false → cellsFor (bytes.length + 4) ≤ s.hub.cells.free.length →
      ∃ t id, exec .buildWaitingReply s = .next t ∧ t.hub.mgmt.slots[k] = .built h id ∧
        (StackOk s → ∃ g, t.hub.cells.frame? id = some g ∧ g.kind = .reply ∧ g.length = bytes.length + 4 ∧ g.refs = 1 ∧
          g.chain = s.hub.cells.free.take (cellsFor (bytes.length + 4)) ∧
          (t.hub.cells.frameBytes g).take bytes.length = bytes) ∧
        (∃ u e, EntersAfter s.sender (cellsFor (bytes.length + 4)) s.hub u e ∧ u.mgmt = s.hub.mgmt ∧
          u.cells.free = s.hub.cells.free.drop (cellsFor (bytes.length + 4)) ∧
          t.hub = { e with mgmt := { e.mgmt with
            slots := e.mgmt.slots.set k (.built h id), builtOrder := e.mgmt.builtOrder ++ [k]
            waiting := e.mgmt.waiting.filter (fun j => decide (j ≠ k)) } }) ∧
        t.hub.mgmt.builtOrder = s.hub.mgmt.builtOrder ++ [k] ∧
        t.hub.mgmt.waiting = ks.filter (fun j => decide (j ≠ k)) ∧
        (∀ j : Fin 4, j ≠ k → t.hub.mgmt.slots[j] = s.hub.mgmt.slots[j]) ∧
        t.ports = s.ports ∧ blocks t = blocks s) ∧
    (deadSeat s h.port = true → cellsFor (bytes.length + 4) ≤ s.hub.cells.free.length →
      ∃ t, exec .buildWaitingReply s = .next t ∧ t.hub.mgmt.slots[k] = .free ∧
        (∀ j : Fin 4, j ≠ k → t.hub.mgmt.slots[j] = s.hub.mgmt.slots[j]) ∧
        t.hub.mgmt.waiting = ks.filter (fun j => decide (j ≠ k)) ∧
        Counts s t (countAt .purge 1) (countAt h.port 1) ∧ blocks t = blocks s) ∧
    (s.hub.cells.free.length < cellsFor (bytes.length + 4) → exec .buildWaitingReply s = .next s))

/-- Raising a notice (R175, R177): not built and not lost with no report address. With one and no lost count it joins
the end of the queue with its bytes of 11.2 where the queue holds fewer than 12 and there are cells enough; else it is
lost, counted, and NOTICES_LOST occurs. With a lost count above 0 NOTICES_LOST is tried first: where it can be built it
joins the queue with the count, which becomes 0, and the notice raised follows it where room and cells remain and is
lost in its turn where not; where it cannot be built, the notice raised is lost as well and adds to the count. Where the
cells of what has been built bring cells held to the high mark, PRESSURE is entered (R33): PRESSURE_SEEN counts one, and a
PRESSURE notice (entered) is raised after them (`EntersAfter`). MODEL'S INFERENCE, log entry 8: that place of the notice.
The bytes by 11.2: the code, the length and every field of the eleven notice bodies, with the codes of R190 for reason,
cause and hold action, and the frame that a notice or reply goes out in, up to its wire check: its header, the body, and
pad up to 64 bytes. -/
def Obligations.NoticeIsQueuedOrLost : Prop :=
  (∀ (sd : Sender) (n : Notice) (h : Hub),
    let t := h.raise sd n
    let bytesOf := fun (dst : LinkAddr) (m : Notice) => mgmtFrame dst sd.identity m.code 0 0 sd.carriage m.body
    let cellsOf := fun (dst : LinkAddr) (m : Notice) => cellsFor ((bytesOf dst m).length + 4)
    let holds := fun (u : Hub) (dst : LinkAddr) (m : Notice) (id : Nat) => ∃ g, u.cells.frame? id = some g ∧
      g.kind = .notice ∧ g.refs = 1 ∧ g.length = (bytesOf dst m).length + 4 ∧
      (u.cells.frameBytes g).take (bytesOf dst m).length = bytesOf dst m
    let lostOne := { isSet := true, count := min ((h.flagOf .noticesLost).count + 1) 65535 }
    (h.mgmt.reportAddr = none → t = h) ∧
    (∀ dst, h.mgmt.reportAddr = some dst → h.mgmt.lost = 0 →
      (h.mgmt.notices.length < 12 → cellsOf dst n ≤ h.cells.free.length → StackOk { State.reset with hub := h } →
        ∃ u id, EntersAfter sd (cellsOf dst n) h u t ∧ u.mgmt = { h.mgmt with notices := h.mgmt.notices ++ [id] } ∧
          holds u dst n id ∧ u.cells.free = h.cells.free.drop (cellsOf dst n)) ∧
      (12 ≤ h.mgmt.notices.length ∨ h.cells.free.length < cellsOf dst n →
        t.mgmt.lost = 1 ∧ t.mgmt.notices = h.mgmt.notices ∧ t.cells = h.cells ∧ t.flagOf .noticesLost = lostOne)) ∧
    (∀ dst, h.mgmt.reportAddr = some dst → 0 < h.mgmt.lost →
      let loss := Notice.noticesLost h.mgmt.lost
      (12 ≤ h.mgmt.notices.length ∨ h.cells.free.length < cellsOf dst loss →
        t.mgmt.lost = min (h.mgmt.lost + 1) 65535 ∧ t.mgmt.notices = h.mgmt.notices ∧ t.cells = h.cells ∧
          t.flagOf .noticesLost = lostOne) ∧
      (h.mgmt.notices.length < 11 → cellsOf dst loss + cellsOf dst n ≤ h.cells.free.length →
        StackOk { State.reset with hub := h } →
        ∃ u id id', EntersAfter sd (cellsOf dst loss + cellsOf dst n) h u t ∧
          u.mgmt = { h.mgmt with notices := h.mgmt.notices ++ [id, id'], lost := 0 } ∧ holds u dst loss id ∧
          holds u dst n id' ∧ u.cells.free = h.cells.free.drop (cellsOf dst loss + cellsOf dst n)) ∧
      (h.mgmt.notices.length < 12 → cellsOf dst loss ≤ h.cells.free.length → StackOk { State.reset with hub := h } →
        h.mgmt.notices.length = 11 ∨ h.cells.free.length < cellsOf dst loss + cellsOf dst n →
        ∃ u id, EntersAfter sd (cellsOf dst loss) h u t ∧ u.mgmt.notices = h.mgmt.notices ++ [id] ∧ u.mgmt.lost = 1 ∧
          u.flagOf .noticesLost = lostOne ∧ holds u dst loss id ∧
          u.cells.free = h.cells.free.drop (cellsOf dst loss)))) ∧
  -- the bytes
  (∀ n : Notice, n.code = (noticeLayout n).1 ∧ Holds n.body (noticeLayout n).2.1 (noticeLayout n).2.2) ∧
  ([Reason.aged, .link, .disassociated, .radioRestart, .evicted, .portChanged, .released].map (·.code) =
      [1, 2, 3, 4, 5, 6, 7] ∧
    [Cause.up, .down, .setAllowance].map (·.code) = [1, 2, 3] ∧ [HoldAction.wait, .shed].map (·.code) = [1, 2]) ∧
  (∀ (dst src : LinkAddr) (code status : Byte) (tag : BitVec 16) (carriage : Nat) (body : List Byte),
    Holds (mgmtFrame dst src code status tag carriage body) (max 60 (22 + body.length))
      [(0, addrBytes dst), (6, addrBytes src), (12, [0x89, 0xF2, code, status]), (16, beBytes 2 tag.toNat),
        (18, [BitVec.ofNat 8 carriage, 0]), (20, beBytes 2 body.length), (22, body),
        (22 + body.length, List.replicate (38 - body.length) 0)])

/-- The common checks of every request row (R170, and the request table of 11.2, R190): a request that is taken is
refused, by the row of its code, with BAD_REQUEST where its code is none of the twenty-five of the table or its body
length is not the one the table gives it or its frame is too short for it, and else with NOT_PERMITTED where it is of CREW
level and the table does not open its code to CREW; the refusal is all it does. One that the table gives passes, of either
level, and its row takes it. One whose code is none of the part's is taken by its own row. MODEL'S CHOICES: which of the rows that share a code takes a request (log entry 19); and
every other row of a request changes nothing, whatever request stands at the head (log entry 2). -/
def Obligations.CommonChecksRefuse : Prop :=
  ∀ (s : State) (fs : List CellFault) (k : Fin 4) (e : InputEntry) (f : FrameRec) (rq : Request),
    requestReady s = some (k, e, f, rq) →
    -- code, body length, and whether it is open to CREW, by the table of 11.2
    let table : List (Nat × Nat × Bool) :=
      [(0x01, 6, true), (0x02, 1, true), (0x03, 28, false), (0x04, 6, true), (0x05, 6, true), (0x06, 6, false),
        (0x07, 16, false), (0x08, 8, false), (0x09, 14, false), (0x0A, 12, false), (0x0B, 1, false), (0x0C, 0, true),
        (0x0D, 12, false), (0x0E, 1, true), (0x0F, 2, false), (0x10, 1, true), (0x11, 3, false), (0x12, 4, false),
        (0x13, 2, false), (0x14, 0, true), (0x15, 3, false), (0x16, 0, false), (0x17, 1, false), (0x18, 10, false),
        (0x19, 0, false)]
    (((withFaults fs s).hub.readFrame f none).1 = [] → isGroup rq.src = false →
      ((∀ row ∈ table, row.1 ≠ rq.code) →
        exec (.unknownRequestCode fs) s = .next (refuse k .badRequest (afterTake s fs)) ∧
        exec (rowOf rq fs) s = .next (refuse k .badRequest (afterTake s fs))) ∧
      (∀ len crewMay, (rq.code, len, crewMay) ∈ table →
        (rq.bodyLength ≠ len ∨ rq.frameLength - 4 < 22 + rq.bodyLength →
          exec (rowOf rq fs) s = .next (refuse k .badRequest (afterTake s fs))) ∧
        (rq.bodyLength = len → 22 + rq.bodyLength ≤ rq.frameLength - 4 →
          (rq.level = .crew → crewMay = false →
            exec (rowOf rq fs) s = .next (refuse k .notPermitted (afterTake s fs))) ∧
          (rq.level = .server ∨ crewMay = true → Takes s fs k rq)))) ∧
    (∀ i ∈ requestRows fs, i ≠ rowOf rq fs → exec i s = .next s)

/-- The read requests (R13, R60, R61, R82, R129, R180, R183): each is answered with its view, taken at the build, and
changes nothing; an index outside its range is BAD_VALUE, and a page of no snapshot NO_SNAPSHOT. The bytes of every view
are given, field by field by the tables of 11.2: the station view (100), a page of the table (194), the scheduler view
(46), a window (24), a port (34, 46 or 58), the status record (188) and a page of the snapshot (488), with the codes of
R190 and the order of flags and tally counters of R193. The frame that the view goes out in stands in ReplyIsBuilt.
MODEL'S CHOICE, log entry 38: the seconds since the last frame time are whole ones, rounded down. MODEL'S INFERENCE, log
entry 12: a view whose record, or snapshot, is gone when its reply is built is answered NO_STATION, or NO_SNAPSHOT, then
(the two clauses of `renderReply` with no body). -/
def Obligations.ReadsAnswerTheirView : Prop :=
  (∀ (s : State) (fs : List CellFault) (k : Fin 4) (rq : Request), Takes s fs k rq →
    let t := afterTake s fs
    (rq.code = 0x01 → ∀ j st, s.table.byAddr (rq.addr 0) = some j → s.station? j = some st →
      exec (.readStation fs) s = .next (answerView k (.station (rq.addr 0)) t)) ∧
    (rq.code = 0x02 → exec (.listStations fs) s = .next
      (if rq.num 0 1 ≤ 15 then answerView k (.page (rq.num 0 1)) t else refuse k .badValue t)) ∧
    (rq.code = 0x0C → exec (.readScheduler fs) s = .next (answerView k .scheduler t)) ∧
    (rq.code = 0x0E → (∀ i : Fin 9, rq.num 0 1 = i.val → exec (.readWindow fs) s = .next (answerView k (.window i) t)) ∧
      (8 < rq.num 0 1 → exec (.readWindow fs) s = .next (refuse k .badValue t))) ∧
    (rq.code = 0x10 → (∀ p, rq.num 0 1 = portCode p → exec (.readPort fs) s = .next (answerView k (.port p) t)) ∧
      (37 < rq.num 0 1 → exec (.readPort fs) s = .next (refuse k .badValue t))) ∧
    (rq.code = 0x14 → exec (.readStatus fs) s = .next (answerView k .status t)) ∧
    (rq.code = 0x17 → exec (.readSnapshot fs) s = .next
      (if 15 < rq.num 0 1 then refuse k .badValue t
      else if s.hub.mgmt.snapshot = none then refuse k .noSnapshot t
      else answerView k (.snapshotPage (rq.num 0 1)) t))) ∧
  -- the codes
  ([StationClass.passenger, .crew, .operations].map (·.code) = [1, 2, 3] ∧
    [StationState.held, .admitted, .spent].map (·.code) = [1, 2, 3] ∧
    (∀ b, (StationState.barred b).code = 4) ∧ (∀ why, (StationState.leaving why).code = 5) ∧
    [Admission.held, .admitted, .spent].map (fun b => (StationState.barred b).beforeCode) = [1, 2, 3] ∧
    (∀ st : StationState, (∀ b, st ≠ .barred b) → st.beforeCode = 0) ∧
    [Mode.single, .run].map (·.code) = [1, 2] ∧
    [Designation.passenger, .crew, .crewMaint, .operations, .disabled].map (·.code) = [1, 2, 3, 4, 5] ∧
    [Permission.none, .up, .down, .both].map (·.code) = [0, 1, 2, 3] ∧
    [FrameKind.network, .link, .management, .reply, .notice].map (·.code) = [1, 2, 3, 4, 5] ∧
    [Link.down, .up].map (·.code) = [0, 1] ∧ [Pressure.normal, .pressure].map (·.code) = [0, 1] ∧
    [none, some End.ba, some .bb].map leadCode = [0, 1, 2] ∧
    (∀ n : Fin 32, portCode (.seat n) = n.val ∧ (Origin.seat n).bytes = [BitVec.ofNat 8 n.val, 255]) ∧
    (∀ (w : Fin 4) (i : Nat), portCode (.radio w) = 32 + w.val ∧
      (Origin.radio w i).bytes = [BitVec.ofNat 8 (32 + w.val), BitVec.ofNat 8 i]) ∧
    portCode (.backbone .ba) = 36 ∧ portCode (.backbone .bb) = 37 ∧ readingCode none = 38 ∧
    ∀ q, readingCode (some q) = portCode q) ∧
  -- the bytes of the views
  (∀ s : State,
    let m := s.hub.mgmt
    let c := s.hub.cells
    let view := fun (what : ReplyContent) (n : Nat) (fields : List (Nat × List Byte)) =>
      ∃ v, renderReply s what = (.ok, v) ∧ Holds v n fields
    let num := fun (n : Nat) => BitVec.ofNat 8 n
    let signed := fun (i : Int) => beBytes 4 (i % 4294967296).toNat
    let params := fun (o : Nat) (q : Params) =>
      [(o, beBytes 4 q.budget), (o + 4, beBytes 2 q.te), (o + 6, [num q.t0, num q.t1, num q.t2, num q.t3, num q.n, num q.m])]
    let unit := fun (p : Port) (u : PortUnit) =>
      [(0, [num (portCode p), u.link.code]), (2, beBytes 4 u.ctr.rxFrames.toNat), (6, beBytes 6 u.ctr.rxBytes.toNat),
        (12, beBytes 4 u.ctr.rxDiscards.toNat), (16, beBytes 4 u.ctr.txFrames.toNat), (20, beBytes 6 u.ctr.txBytes.toNat),
        (26, beBytes 4 u.ctr.txDrops.toNat)]
    let left := fun (q : BackboneEnd) => beBytes 2 (q.heldUntil.getD 0 - s.now)
    (∀ a k st, s.table.byAddr a = some k → s.station? k = some st →
      let place := s.table.held.idxOf k
      view (.station a) 100 (
        [(0, [num k.val, st.cls.code, num st.tier, st.state.code, st.state.beforeCode, num st.upq.length]),
          (6, st.origin.bytes), (8, addrBytes st.addr)] ++ allowanceFields 14 st.allowance ++
        [(30, [num st.shaping.weight, st.shaping.mode.code, boolByte st.shaping.cap.isSome,
            boolByte st.pendingShaping.isSome]),
          (34, beBytes 4 (st.shaping.cap.getD 0)), (41, [boolByte st.lastGrant.isSome])] ++
        (match st.pendingShaping with
          | none => [(38, [0, 0, 0]), (42, [0, 0, 0, 0])]
          | some sh => [(38, [num sh.weight, sh.mode.code, boolByte sh.cap.isSome]), (42, beBytes 4 (sh.cap.getD 0))]) ++
        [(46, beBytes 4 st.share), (50, signed st.credit),
          (54, match st.lastGrant with | none => [0, 0, 0, 0] | some e => beBytes 4 e.toNat),
          (58, beBytes 2 st.idle), (60, beBytes 2 (min 65535 ((s.now - st.lastFrame) / 100000))),
          (62, if k ∈ s.table.held then [1, num place] else [0, 0])] ++ counterFields 64 st.ctr)) ∧
    (∀ a, s.table.byAddr a = none → renderReply s (.station a) = (.noStation, [])) ∧
    (∀ p, p ≤ 15 → view (.page p) 194 [(0, [num p, 0])] ∧ ∀ (i : Fin 16) (k : Fin 256), k.val = 16 * p + i.val →
      (s.station? k = none → view (.page p) 194 [(2 + 12 * i.val, List.replicate 12 0)]) ∧
      (∀ st, s.station? k = some st → view (.page p) 194 [(2 + 12 * i.val, [1, st.state.code, st.cls.code, 0]),
        (6 + 12 * i.val, st.origin.bytes), (8 + 12 * i.val, addrBytes st.addr)])) ∧
    view .scheduler 46 (
      [(0, [if s.sched.running then 2 else 1, boolByte s.sched.pendingParams.isSome]), (2, beBytes 2 s.sched.counter),
        (4, beBytes 4 s.sched.number.toNat)] ++ params 8 s.sched.params ++
      (match s.sched.pendingParams with | none => [(20, List.replicate 12 (0 : Byte))] | some q => params 20 q) ++
      [(32, signed s.sched.surplus), (36, beBytes 2 s.sched.active), (38, beBytes 4 s.sched.weight),
        (42, beBytes 4 s.sched.shares)]) ∧
    (∀ i : Fin 9, let w := s.windows[i]
      view (.window i) 24 [(0, [num i.val, boolByte w.set.enabled, num w.set.k, boolByte w.set.metered,
          boolByte w.set.opened, w.set.passenger.code, w.set.crew.code, w.set.operations.code]),
        (8, beBytes 4 w.set.base.toNat), (12, beBytes 4 w.up.toNat), (16, beBytes 4 w.down.toNat),
        (20, beBytes 4 w.refused.toNat)]) ∧
    (∀ n : Fin 32, let q := s.ports.seats[n]
      view (.port (.seat n)) 34 (unit (.seat n) q.unit ++ [(30, [q.designation.code, num q.egress.length,
        num (s.table.onSeat n).length, num (repliesFor m (.seat n)).length])])) ∧
    (∀ w : Fin 4, let q := s.ports.radios[w]
      view (.port (.radio w)) 46 (unit (.radio w) q.unit ++ [(30, [num q.egress.length, num q.orders.length,
          num (s.table.onRadio w).length, 0]), (34, beBytes 4 q.noticesTaken.toNat),
        (38, beBytes 4 q.noticesIgnored.toNat), (42, beBytes 4 q.ordersSent.toNat)])) ∧
    (∀ x : End, let q := s.ports.endOf x
      view (.port (.backbone x)) 58 (unit (.backbone x) q.unit ++ [(30, [num q.transit.length, boolByte q.heldUntil.isSome,
          boolByte q.overrun, boolByte q.outstanding, boolByte q.pendingHold.isSome, 0]), (36, left q),
        (38, beBytes 4 q.holdsSent.toNat), (42, beBytes 4 q.releasesSent.toNat), (46, beBytes 4 q.holdsReceived.toNat),
        (50, beBytes 4 q.releasesReceived.toNat), (54, beBytes 4 q.overruns.toNat)])) ∧
    (let capture := fun (r : Option Capture) => match r with
        | none => List.replicate 6 0
        | some g => [1, g.kind.code] ++ beBytes 2 g.cell ++ [num (readingCode g.port), 0]
      let ofEnd := fun (q : BackboneEnd) =>
        [q.unit.link.code, boolByte q.heldUntil.isSome, boolByte q.overrun, boolByte q.outstanding] ++ left q ++ [0, 0]
      view .status 188 [(0, addrBytes s.identity), (50, capture c.singleCapture), (56, capture c.multiCapture),
        (134, beBytes 2 c.free.length), (136, beBytes 2 c.held), (138, [num c.retired.length, c.pressure.code]),
        (140, beBytes 2 c.high), (142, beBytes 2 c.low), (144, beBytes 2 (s.table.slots.toList.countP (·.isSome))),
        (146, [num s.up.onboard.length, 0]), (148, ofEnd s.ports.ba), (156, ofEnd s.ports.bb),
        (164, [num s.consist.carriage, leadCode s.consist.lead]),
        (166, [num m.input.length, num (m.slots.toList.countP (fun q => decide (q ≠ .free))), num m.notices.length, 0]),
        (170, beBytes 2 m.lost), (172, [boolByte m.reportAddr.isSome, 0]), (174, addrBytes (m.reportAddr.getD 0)),
        (180, [boolByte (snapshotParked m), boolByte (saveParked m), boolByte m.snapshot.isSome, 0]),
        (184, match m.snapshot with | none => [0, 0, 0, 0] | some sn => beBytes 4 sn.number.toNat)] ∧
      (∀ i f, [Flag.memorySingle, .memoryMulti, .memoryDegraded, .holdOverrunBA, .holdOverrunBB, .noticesLost,
          .storeDefaulted, .tableFull, .pressureSeen, .originConflict, .mgmtOverflow][i]? = some f →
        view .status 188 [(6 + 4 * i, [boolByte (s.hub.flagOf f).isSet, 0] ++ beBytes 2 (s.hub.flagOf f).count)]) ∧
      (∀ i r, [Discard.wire, .noCells, .unassociated, .origin, .portCrowded, .tableFull, .barred, .window, .notAdmitted,
          .pressure, .shed, .queueFull, .endDown, .memory, .purge, .aborted, .mgmtRefused, .mgmtOverflow][i]? = some r →
        view .status 188 [(62 + 4 * i, beBytes 4 (s.hub.tallyOf r).toNat)])) ∧
    (snapshotParked m = true ↔ ∃ (k : Fin 4) (h : ReqHeader), m.slots[k] = .parked h .snapshot) ∧
    (saveParked m = true ↔ ∃ (k : Fin 4) (h : ReqHeader) (image : StoredSettings) (start : Nat),
      m.slots[k] = .parked h (.save image start)) ∧
    (∀ p, m.snapshot = none → renderReply s (.snapshotPage p) = (.noSnapshot, [])) ∧
    (∀ p sn, m.snapshot = some sn → p ≤ 15 →
      view (.snapshotPage p) 488 [(0, beBytes 4 sn.number.toNat), (4, [num p, 0, 0, 0])] ∧
      ∀ (i : Fin 16) (k : Fin 256), k.val = 16 * p + i.val →
        let o := 8 + 30 * i.val
        (sn.entries[k] = none → view (.snapshotPage p) 488 [(o, List.replicate 30 0)]) ∧
        (∀ e, sn.entries[k] = some e → view (.snapshotPage p) 488 [
          (o, [1, e.state.code, boolByte e.current.isSome, 0]), (o + 4, addrBytes e.addr),
          (o + 10, beBytes 4 (e.current.getD 0)), (o + 14, beBytes 6 e.upMetered.toNat),
          (o + 20, beBytes 6 e.downMetered.toNat), (o + 26, beBytes 4 e.drops.toNat)])))

/-- Requests that name a station (R59): no record with the address gives NO_STATION, and nothing changes; RENEW for all
names no address, and is answered OK; an address with the group bit set never names a record, where the records'
addresses are station addresses. -/
def Obligations.UnknownStationIsAnswered : Prop :=
  (∀ (s : State) (fs : List CellFault) (k : Fin 4) (rq : Request), Takes s fs k rq →
    let t := refuse k .noStation (afterTake s fs)
    (s.table.byAddr (rq.addr 0) = none →
      (rq.code = 0x01 → exec (.readStation fs) s = .next t) ∧
      (rq.code = 0x03 → exec (.admitStation fs) s = .next t) ∧
      (rq.code = 0x04 → exec (.bar fs) s = .next t) ∧
      (rq.code = 0x05 → exec (.unbar fs) s = .next t) ∧
      (rq.code = 0x06 → exec (.release fs) s = .next t) ∧
      (rq.code = 0x07 → exec (.setAllowance fs) s = .next t) ∧
      (rq.code = 0x09 → exec (.setShaping fs) s = .next t)) ∧
    (s.table.byAddr (rq.addr 2) = none → rq.code = 0x08 → rq.num 0 1 = 0 → exec (.renew fs) s = .next t) ∧
    (rq.code = 0x08 → rq.num 0 1 = 1 → ∃ body u, exec (.renewAll fs) s = .next (answer k body u))) ∧
  (∀ (s : State) (a : LinkAddr), AddressesOk s → isGroup a = true → s.table.byAddr a = none)

/-! ## The requests on stations (chapters 3, 6 and 7) -/

/-- ADMIT (R49): STATION_BUSY for a LEAVING record, WRONG_STATE for one that is ADMITTED or BARRED, BAD_VALUE for a
tier above 3, a mode of neither code, a presence or renew code of neither, a cap given as 0 and an allowance given with
current 0; else a HELD or SPENT record is ADMITTED with the tier, idle interval, allowance and shaping given (a
SPENT one's shaping pending in RUNNING), leaves the held order, and its view is answered. MODEL'S INFERENCE, log entry
28: with the allowance absent its renew code is not read. -/
def Obligations.AdmitAdmits : Prop :=
  ∀ (s : State) (fs : List CellFault) (k : Fin 4) (rq : Request) (j : Fin 256) (st : Station), Takes s fs k rq →
    rq.code = 0x03 → s.table.byAddr (rq.addr 0) = some j → s.station? j = some st →
    let t := afterTake s fs
    (st.isLeaving = true → exec (.admitStation fs) s = .next (refuse k .stationBusy t)) ∧
    (st.state = .admitted ∨ (∃ b, st.state = .barred b) →
      exec (.admitStation fs) s = .next (refuse k .wrongState t)) ∧
    (st.state = .held ∨ st.state = .spent →
      (3 < rq.num 6 1 ∨ (rq.num 8 1 = 0 ∨ 2 < rq.num 8 1) ∨ 1 < rq.num 9 1 ∨ rq.num 9 1 = 1 ∧ rq.num 10 4 = 0 ∨
          1 < rq.num 16 1 ∨ rq.num 16 1 = 1 ∧ (1 < rq.num 17 1 ∨ rq.num 24 4 = 0) →
        exec (.admitStation fs) s = .next (refuse k .badValue t)) ∧
      (∀ (m : Mode) (cap : Option Nat) (al : Option Allowance), rq.num 6 1 ≤ 3 → modeOfCode (rq.num 8 1) = some m →
        (rq.num 9 1 = 0 ∧ cap = none ∨
          rq.num 9 1 = 1 ∧ 0 < rq.num 10 4 ∧ cap = some (min (rq.num 10 4) 16777215)) →
        (rq.num 16 1 = 0 ∧ al = none ∨ rq.num 16 1 = 1 ∧ rq.num 17 1 ≤ 1 ∧ 0 < rq.num 24 4 ∧
          al = some { base := rq.num 20 4, current := rq.num 24 4, renew := decide (rq.num 17 1 = 1),
                      renewals := 0, overrun := 0 }) →
        let sh : Shaping := { weight := if rq.num 7 1 = 0 then 1 else rq.num 7 1, cap := cap, mode := m }
        let waits := decide (st.state = .spent) && s.sched.running
        let st' := { st with
          tier := rq.num 6 1, state := .admitted, allowance := al, idle := rq.num 14 2, idleStart := s.now
          shaping := if waits then st.shaping else sh, pendingShaping := if waits then some sh else none }
        let t' := { t with table :=
          { slots := s.table.slots.set j (some st'), held := s.table.held.filter (fun i => decide (i ≠ j)) } }
        exec (.admitStation fs) s = .next (answer k (stationView t' j st') t')))

/-- BAR (R48, R50): the record is BARRED from its state, its upward queue and its unicasts in the egress queue of its
origin, seat or radio, are purged and no other entry of that queue, it leaves the held order, and no order is sent. Each
entry purged counts one PURGE and one drop of the record, and one in the egress queue one tx drop of its port
(`PurgeCounts`; R134, R159). -/
def Obligations.BarBars : Prop :=
  ∀ (s : State) (fs : List CellFault) (k : Fin 4) (rq : Request) (j : Fin 256) (st : Station), Takes s fs k rq →
    rq.code = 0x04 → s.table.byAddr (rq.addr 0) = some j → s.station? j = some st →
    let t := afterTake s fs
    (st.isLeaving = true → exec (.bar fs) s = .next (refuse k .stationBusy t)) ∧
    (∀ b, st.state = .barred b → exec (.bar fs) s = .next (refuse k .wrongState t)) ∧
    (∀ b : Admission, st.state = b.state → ∃ t' st', exec (.bar fs) s = .next (answer k (stationView t' j st') t') ∧
      t'.station? j = some st' ∧
      apartFromDrops st' = apartFromDrops { st with state := .barred b, upq := [] } ∧
      PurgeCounts j st.upq st.origin t t' ∧
      t'.table.held = s.table.held.filter (fun i => decide (i ≠ j)) ∧
      (∀ n, st.origin = .seat n →
        ((t'.ports.seats[n]).egress).Sublist (s.ports.seats[n]).egress ∧
        (∀ id ∈ (t'.ports.seats[n]).egress, t'.hub.cells.owner id ≠ some j) ∧
        ∀ id ∈ (s.ports.seats[n]).egress, t.hub.cells.owner id ≠ some j → id ∈ (t'.ports.seats[n]).egress) ∧
      (∀ w i, st.origin = .radio w i →
        ((t'.ports.radios[w]).egress).Sublist (s.ports.radios[w]).egress ∧
        (∀ e ∈ (t'.ports.radios[w]).egress, t'.hub.cells.owner e.id ≠ some j) ∧
        ∀ e ∈ (s.ports.radios[w]).egress, t.hub.cells.owner e.id ≠ some j → e ∈ (t'.ports.radios[w]).egress) ∧
      (∀ w : Fin 4, (t'.ports.radios[w]).orders = (s.ports.radios[w]).orders) ∧
      (∀ i u, i ≠ j → s.station? i = some u → ∃ v, t'.station? i = some v ∧ apartFromDrops v = apartFromDrops u) ∧
      t'.up.onboard = s.up.onboard ∧ t'.sched = s.sched ∧ t'.windows = s.windows ∧ t'.consist = s.consist ∧
      t'.hold = s.hold)

/-- UNBAR (R51): STATION_BUSY for a LEAVING record, WRONG_STATE for one that is not BARRED; a BARRED one takes its
state before the bar, a HELD one at the end of the held order, and its view is answered. -/
def Obligations.UnbarRestores : Prop :=
  ∀ (s : State) (fs : List CellFault) (k : Fin 4) (rq : Request) (j : Fin 256) (st : Station), Takes s fs k rq →
    rq.code = 0x05 → s.table.byAddr (rq.addr 0) = some j → s.station? j = some st →
    let t := afterTake s fs
    (st.isLeaving = true → exec (.unbar fs) s = .next (refuse k .stationBusy t)) ∧
    (∀ b : Admission, st.state = b.state → exec (.unbar fs) s = .next (refuse k .wrongState t)) ∧
    (∀ b : Admission, st.state = .barred b →
      let st' := { st with state := b.state }
      let t' := { t with table :=
        { slots := s.table.slots.set j (some st')
          held := if b = .held then s.table.held.filter (fun i => decide (i ≠ j)) ++ [j] else s.table.held } }
      exec (.unbar fs) s = .next (answer k (stationView t' j st') t'))

/-- RELEASE (R52, R53, R57): STATION_BUSY for a LEAVING record; with an upward frame in transmission the record goes
LEAVING and the request parks; else the record is freed and its figures are the reply. Its unicasts in the egress queue
of its origin, seat or radio, are purged, and no other entry of that queue; each entry purged counts one PURGE and one
drop of the record, which the figures show, and one in the egress queue one tx drop of its port (`PurgeCounts`). The
figures are 60 bytes (11.2): address, slot, reason RELEASED, counter block and allowance block. -/
def Obligations.ReleaseRemovesOrParks : Prop :=
  (∀ (s : State) (fs : List CellFault) (k : Fin 4) (rq : Request) (j : Fin 256) (st : Station), Takes s fs k rq →
    rq.code = 0x06 → s.table.byAddr (rq.addr 0) = some j → s.station? j = some st →
    (st.isLeaving = true → exec (.release fs) s = .next (refuse k .stationBusy (afterTake s fs))) ∧
    (st.isLeaving = false → ∃ t, exec (.release fs) s = .next t ∧
      (inFlight (afterTake s fs) j = false → t.station? j = none ∧ ∃ st', st'.addr = st.addr ∧
        st'.allowance = st.allowance ∧ (apartFromDrops st').ctr = (apartFromDrops st).ctr ∧
        ∃ t', t = emptySlot j (answer k (releaseBody j st') t') ∧ t'.station? j = some st' ∧
          PurgeCounts j st.upq st.origin (afterTake s fs) t') ∧
      (inFlight (afterTake s fs) j = true → (∃ st', t.station? j = some st' ∧
        apartFromDrops st' = apartFromDrops { st with state := .leaving .released, upq := [] }) ∧
        PurgeCounts j st.upq st.origin (afterTake s fs) t ∧
        t.hub.mgmt.slots[k] = .parked rq.header (.release j)) ∧
      t.table.held = s.table.held.filter (fun i => decide (i ≠ j)) ∧
      (∀ n, st.origin = .seat n →
        ((t.ports.seats[n]).egress).Sublist (s.ports.seats[n]).egress ∧
        (∀ id ∈ (t.ports.seats[n]).egress, t.hub.cells.owner id ≠ some j) ∧
        ∀ id ∈ (s.ports.seats[n]).egress, (afterTake s fs).hub.cells.owner id ≠ some j →
          id ∈ (t.ports.seats[n]).egress) ∧
      (∀ w i, st.origin = .radio w i →
        (t.ports.radios[w]).orders = placeOrder { kind := .drop, index := i } (s.ports.radios[w]).orders ∧
        ((t.ports.radios[w]).egress).Sublist (s.ports.radios[w]).egress ∧
        (∀ e ∈ (t.ports.radios[w]).egress, t.hub.cells.owner e.id ≠ some j) ∧
        ∀ e ∈ (s.ports.radios[w]).egress, (afterTake s fs).hub.cells.owner e.id ≠ some j →
          e ∈ (t.ports.radios[w]).egress) ∧
      (∀ i u, i ≠ j → s.station? i = some u → ∃ v, t.station? i = some v ∧ apartFromDrops v = apartFromDrops u) ∧
      t.up.onboard = s.up.onboard ∧ t.sched = s.sched ∧ t.windows = s.windows ∧ t.consist = s.consist ∧
      t.hold = s.hold)) ∧
  (∀ (j : Fin 256) (st : Station), Holds (releaseBody j st) 60
    ([(0, addrBytes st.addr), (6, [BitVec.ofNat 8 j.val, 7])] ++ counterFields 8 st.ctr ++ allowanceFields 44 st.allowance))

/-- SET_ALLOWANCE (R104, R105): STATION_BUSY for a LEAVING record, WRONG_STATE for one never admitted, BAD_VALUE for a
presence code of neither and, with the allowance present, a renew code of neither; else the allowance is stored as
given, with the renewal count and overrun kept, and the state follows current: above 0 or absent makes SPENT ADMITTED, 0
leaves SPENT and is an exhaustion of ADMITTED.
MODEL'S INFERENCE, log entry 28: with the allowance absent its renew code is not read. -/
def Obligations.SetAllowanceStores : Prop :=
  ∀ (s : State) (fs : List CellFault) (k : Fin 4) (rq : Request) (j : Fin 256) (st : Station), Takes s fs k rq →
    rq.code = 0x07 → s.table.byAddr (rq.addr 0) = some j → s.station? j = some st →
    let t := afterTake s fs
    let stored (al : Option Allowance) (x : StationState) : State :=
      { t with table := s.table.modStation j (fun r => { r with allowance := al, state := x }) }
    let given : Allowance :=
      { base := rq.num 8 4, current := rq.num 12 4, renew := decide (rq.num 7 1 = 1),
        renewals := (st.allowance.map (·.renewals)).getD 0, overrun := (st.allowance.map (·.overrun)).getD 0 }
    let after : StationState → StationState := fun x => match x with
      | .spent => .admitted
      | .barred .spent => .barred .admitted
      | y => y
    (st.isLeaving = true → exec (.setAllowance fs) s = .next (refuse k .stationBusy t)) ∧
    (st.state = .held ∨ st.state = .barred .held → exec (.setAllowance fs) s = .next (refuse k .wrongState t)) ∧
    (st.state = .admitted ∨ st.state = .spent ∨ st.state = .barred .admitted ∨ st.state = .barred .spent →
      (1 < rq.num 6 1 ∨ rq.num 6 1 = 1 ∧ 1 < rq.num 7 1 → exec (.setAllowance fs) s = .next (refuse k .badValue t)) ∧
      (rq.num 6 1 = 0 → exec (.setAllowance fs) s =
        .next (answerStation k j (stored none (after st.state)))) ∧
      (rq.num 6 1 = 1 → rq.num 7 1 ≤ 1 → 0 < rq.num 12 4 → exec (.setAllowance fs) s =
        .next (answerStation k j (stored (some given) (after st.state)))) ∧
      (rq.num 6 1 = 1 → rq.num 7 1 ≤ 1 → rq.num 12 4 = 0 →
        (st.state = .spent ∨ st.state = .barred .spent → exec (.setAllowance fs) s =
          .next (answerStation k j (stored (some given) st.state))) ∧
        (st.state = .admitted ∨ st.state = .barred .admitted → exec (.setAllowance fs) s =
          .next (answerStation k j (exhaust j .setAllowance 0 (stored (some given) st.state))))))

/-- RENEW of one address and of all (R106, R107): current is reloaded from base, the renewal count grows to at most
255, and SPENT becomes ADMITTED, before a bar too; STATION_BUSY for a LEAVING record, BAD_VALUE for one without an
allowance whose base is above 0; the request for all passes those over and answers two counts. MODEL'S CHOICE, log
entry 19: a selector of neither is taken by the row of one address. -/
def Obligations.RenewReloads : Prop :=
  ∀ (s : State) (fs : List CellFault) (k : Fin 4) (rq : Request), Takes s fs k rq → rq.code = 0x08 →
    let t := afterTake s fs
    let reload : Station → Station := fun st => { st with
      allowance := st.allowance.map (fun al =>
        { al with current := al.base, renewals := min (al.renewals + 1) 255 })
      state := match st.state with
        | .spent => .admitted
        | .barred .spent => .barred .admitted
        | x => x }
    let has : Station → Prop := fun st => ∃ al, st.allowance = some al ∧ 0 < al.base
    (1 < rq.num 0 1 → exec (.renew fs) s = .next (refuse k .badValue t)) ∧
    (∀ j st, rq.num 0 1 = 0 → s.table.byAddr (rq.addr 2) = some j → s.station? j = some st →
      (st.isLeaving = true → exec (.renew fs) s = .next (refuse k .stationBusy t)) ∧
      (st.isLeaving = false → ¬ has st → exec (.renew fs) s = .next (refuse k .badValue t)) ∧
      (st.isLeaving = false → has st →
        let t' := { t with table := s.table.modStation j reload }
        exec (.renew fs) s = .next (answer k (stationView t' j (reload st)) t'))) ∧
    (rq.num 0 1 = 1 → ∃ t' n m, exec (.renewAll fs) s = .next (answer k (beBytes 2 n ++ beBytes 2 m) t') ∧
      (∀ j st, s.station? j = some st → st.isLeaving = false → has st → t'.station? j = some (reload st)) ∧
      (∀ j st, s.station? j = some st → (st.isLeaving = true ∨ ¬ has st) → t'.station? j = some st) ∧
      (∀ j, s.station? j = none → t'.station? j = none) ∧
      n = (s.table.slotsWhere (fun st => !st.isLeaving && st.reloadable)).length ∧
      m = (s.table.slotsWhere (fun st => !st.isLeaving && st.reloadable &&
        (decide (st.state = .spent) || decide (st.state = .barred .spent)))).length ∧
      t'.table.held = s.table.held ∧ t'.hub = t.hub ∧ t'.ports = s.ports ∧ t'.sched = s.sched ∧
      t'.up = s.up ∧ t'.windows = s.windows)

/-- SET_SHAPING (R117): STATION_BUSY for a LEAVING record, BAD_VALUE for a mode or cap code of none and for a cap of
0; else the weight (0 taken as 1), the cap (at most 16,777,215) and the mode go into shaping pending for an ADMITTED
record in RUNNING, and into shaping in force otherwise with pending made absent; the view is answered. -/
def Obligations.SetShapingStores : Prop :=
  ∀ (s : State) (fs : List CellFault) (k : Fin 4) (rq : Request) (j : Fin 256) (st : Station), Takes s fs k rq →
    rq.code = 0x09 → s.table.byAddr (rq.addr 0) = some j → s.station? j = some st →
    let t := afterTake s fs
    (st.isLeaving = true → exec (.setShaping fs) s = .next (refuse k .stationBusy t)) ∧
    (st.isLeaving = false → (rq.num 7 1 = 0 ∨ 2 < rq.num 7 1 ∨ 1 < rq.num 8 1 ∨ rq.num 8 1 = 1 ∧ rq.num 10 4 = 0) →
      exec (.setShaping fs) s = .next (refuse k .badValue t)) ∧
    (∀ (m : Mode) (cap : Option Nat), st.isLeaving = false → modeOfCode (rq.num 7 1) = some m →
      (rq.num 8 1 = 0 ∧ cap = none ∨ rq.num 8 1 = 1 ∧ 0 < rq.num 10 4 ∧ cap = some (min (rq.num 10 4) 16777215)) →
      let sh : Shaping := { weight := if rq.num 6 1 = 0 then 1 else rq.num 6 1, cap := cap, mode := m }
      let waits := decide (st.state = .admitted) && s.sched.running
      let st' := { st with
        shaping := if waits then st.shaping else sh, pendingShaping := if waits then some sh else none }
      let t' := { t with table := { s.table with slots := s.table.slots.set j (some st') } }
      exec (.setShaping fs) s = .next (answer k (stationView t' j st') t'))

/-! ## The scheduler's requests (chapter 7) -/

/-- SET_EPOCH (R114): every value is clamped into its range; in STOPPED they are in force at once, in RUNNING they are
pending. The reply says which, with the scheduler view. -/
def Obligations.SetEpochClampsAndStores : Prop :=
  ∀ (s : State) (fs : List CellFault) (k : Fin 4) (rq : Request), Takes s fs k rq → rq.code = 0x0A →
    let t := afterTake s fs
    let weight := fun n => if n = 0 then 1 else if 15 < n then 15 else n
    let q : Params :=
      { budget := if 16777215 < rq.num 0 4 then 16777215 else rq.num 0 4
        te := if rq.num 4 2 = 0 then 1 else if 1000 < rq.num 4 2 then 1000 else rq.num 4 2
        t0 := weight (rq.num 6 1), t1 := weight (rq.num 7 1), t2 := weight (rq.num 8 1), t3 := weight (rq.num 9 1)
        n := if 7 < rq.num 10 1 then 7 else rq.num 10 1, m := if 15 < rq.num 11 1 then 15 else rq.num 11 1 }
    (s.sched.running = false → exec (.setEpoch fs) s =
      .next (answer k (1 :: schedulerView { s.sched with params := q }) { t with sched := { s.sched with params := q } })) ∧
    (s.sched.running = true → exec (.setEpoch fs) s =
      .next (answer k (2 :: schedulerView { s.sched with pendingParams := some q })
        { t with sched := { s.sched with pendingParams := some q } }))

/-- SCHEDULER START, STOP and RESTART (R111, R112): START in STOPPED runs a boundary without the epoch number's
increment, RESTART in RUNNING one with it; STOP in RUNNING brings pending values into force and wipes shares, credit
and surplus, the counter and number kept; START in RUNNING and STOP in STOPPED change nothing; another action is
BAD_VALUE. MODEL'S INFERENCE, log entry 14: the run in force stands at a STOP, though every credit is 0 then (R142), and
ends when the credit group is asked next (the clause on `up`). MODEL'S CHOICE, log entry 19: another action is taken by
the row of START. -/
def Obligations.SchedulerActions : Prop :=
  ∀ (s : State) (fs : List CellFault) (k : Fin 4) (rq : Request), Takes s fs k rq → rq.code = 0x0B →
    let t := afterTake s fs
    (rq.num 0 1 = 0 ∨ 3 < rq.num 0 1 → exec (.schedulerStart fs) s = .next (refuse k .badValue t)) ∧
    (rq.num 0 1 = 1 → s.sched.running = true →
      exec (.schedulerStart fs) s = .next (answer k (schedulerView s.sched) t)) ∧
    (rq.num 0 1 = 1 → s.sched.running = false → ∃ u, exec (.schedulerStart fs) s =
      .next (answer k (schedulerView u.sched) u) ∧ u = boundary false { t with sched := { s.sched with running := true } } ∧
      u.sched.running = true ∧ u.sched.number = s.sched.number ∧ u.sched.counter = 0) ∧
    (rq.num 0 1 = 2 → s.sched.running = false →
      exec (.schedulerStop fs) s = .next (answer k (schedulerView s.sched) t)) ∧
    (rq.num 0 1 = 2 → s.sched.running = true → ∃ u, exec (.schedulerStop fs) s =
      .next (answer k (schedulerView u.sched) u) ∧
      u.sched = { s.sched with
        running := false, params := s.sched.pendingParams.getD s.sched.params, pendingParams := none
        surplus := 0, active := 0, weight := 0, shares := 0 } ∧
      (∀ j, u.station? j = (s.station? j).map (fun st => { st with
        shaping := st.pendingShaping.getD st.shaping, pendingShaping := none, share := 0, credit := 0 })) ∧
      u.table.held = s.table.held ∧ u.up = s.up ∧ u.windows = s.windows ∧ u.consist = s.consist ∧ u.hold = s.hold) ∧
    (rq.num 0 1 = 3 → s.sched.running = true → ∃ u, exec (.schedulerRestart fs) s =
      .next (answer k (schedulerView u.sched) u) ∧ u = boundary true t ∧
      u.sched.running = true ∧ u.sched.number = s.sched.number + 1 ∧ u.sched.counter = 0) ∧
    (rq.num 0 1 = 3 → s.sched.running = false → ∃ u, exec (.schedulerRestart fs) s =
      .next (answer k (schedulerView u.sched) u) ∧ u = boundary false { t with sched := { s.sched with running := true } } ∧
      u.sched.running = true ∧ u.sched.number = s.sched.number ∧ u.sched.counter = 0)

/-! ## Windows, ports, marks, consist, status, store (chapters 1, 2, 5, 9, 10) -/

/-- WRITE_WINDOW (R80): k is clamped into 8..32, the base has its low k bits cleared, open is no in a metered window,
the counts become 0, and window 8 keeps enabled, base and k. -/
def Obligations.WriteWindowStores : Prop :=
  ∀ (s : State) (fs : List CellFault) (k : Fin 4) (rq : Request), Takes s fs k rq → rq.code = 0x0D →
    let t := afterTake s fs
    (8 < rq.num 0 1 → exec (.writeWindow fs) s = .next (refuse k .badValue t)) ∧
    (∀ i : Fin 9, rq.num 0 1 = i.val →
      (1 < rq.num 1 1 ∨ 1 < rq.num 7 1 ∨ 1 < rq.num 8 1 ∨ 3 < rq.num 9 1 ∨ 3 < rq.num 10 1 ∨ 3 < rq.num 11 1 →
        exec (.writeWindow fs) s = .next (refuse k .badValue t)) ∧
      (∀ pp pc po : Permission, rq.num 1 1 ≤ 1 → rq.num 7 1 ≤ 1 → rq.num 8 1 ≤ 1 →
        permissionOfCode (rq.num 9 1) = some pp → permissionOfCode (rq.num 10 1) = some pc →
        permissionOfCode (rq.num 11 1) = some po →
        let old := (s.windows[i]).set
        let e := if rq.num 6 1 < 8 then 8 else if 32 < rq.num 6 1 then 32 else rq.num 6 1
        let w : WindowSettings :=
          { enabled := if i = 8 then old.enabled else decide (rq.num 1 1 = 1)
            base := if i = 8 then old.base else BitVec.ofNat 32 (rq.num 2 4 / 2 ^ e * 2 ^ e)
            k := if i = 8 then old.k else e
            metered := decide (rq.num 7 1 = 1)
            opened := decide (rq.num 8 1 = 1) && !decide (rq.num 7 1 = 1)
            passenger := pp, crew := pc, operations := po }
        exec (.writeWindow fs) s = .next (answer k (windowView i { set := w, up := 0, down := 0, refused := 0 })
          { t with windows := s.windows.set i { set := w, up := 0, down := 0, refused := 0 } })))

/-- SET_PORT (R12): a bad port or designation is BAD_VALUE; the designation in force is answered and changes nothing;
another is put in force with the port's records removed and its queue emptied, and DISABLED holds the link DOWN. A record
of the port with no upward frame in transmission is freed, with its STATION_GONE of reason PORT_CHANGED (R52, R56); one
with such a frame is LEAVING with that reason and no upward queue; one that was LEAVING already stays as it is but for
its drops (R55). What is counted: the purges of each record as it is removed (`RemovedAll`), then PURGE and a tx drop of
the port for every entry left in the queue; and with DISABLED on a port that is UP what R2 counts there: ABORTED, WIRE and
the waiting replies, and the LINK notice. MODEL'S CHOICES: a port that was DISABLED stays DOWN at the change and comes up
at a later LINK_UP (log entry 6); the records are removed in slot order and the LINK notice of a port held DOWN comes last
(log entry 10); the entries left in the queue are let go head first (log entry 35). -/
def Obligations.SetPortDesignates : Prop :=
  ∀ (s : State) (fs : List CellFault) (k : Fin 4) (rq : Request), Takes s fs k rq → rq.code = 0x0F →
    let t := afterTake s fs
    (31 < rq.num 0 1 ∨ rq.num 1 1 = 0 ∨ 5 < rq.num 1 1 → exec (.setPort fs) s = .next (refuse k .badValue t)) ∧
    (∀ (n : Fin 32) (d : Designation), rq.num 0 1 = n.val → designationOfCode (rq.num 1 1) = some d →
      ((s.ports.seats[n]).designation = d → exec (.setPort fs) s = .next (answer k [d.code, 0] t)) ∧
      ((s.ports.seats[n]).designation ≠ d → ∃ u, exec (.setPort fs) s = .next (answer k
          [d.code, BitVec.ofNat 8 (s.table.slotsWhere
            (fun st => decide (st.origin = .seat n) && !st.isLeaving)).length] u) ∧
        (u.ports.seats[n]).designation = d ∧ (u.ports.seats[n]).egress = [] ∧
        (∀ j st, u.station? j = some st → st.origin = .seat n → st.isLeaving = true) ∧
        (∀ j st, s.station? j = some st → st.origin = .seat n →
          (st.isLeaving = true → ∃ st', u.station? j = some st' ∧ apartFromDrops st' = apartFromDrops st) ∧
          (st.isLeaving = false → inFlight s j = false → u.station? j = none) ∧
          (CellsOk s → st.isLeaving = false → OnlyOnAir s j → ∃ st', u.station? j = some st' ∧
            apartFromDrops st' = apartFromDrops { st with state := .leaving .portChanged, upq := [] })) ∧
        -- the removals, and what is counted
        (∃ v, RemovedAll .portChanged (s.table.onSeat n) t v ∧
          let e := discardEntries .purge (some (.seat n)) (v.ports.seats[n]).egress
            { v with ports := v.ports.modSeat n (fun q => { q with egress := [] }) }
          let c := { e with ports := e.ports.modSeat n (fun q => { q with designation := d }) }
          (d ≠ .disabled ∨ (s.ports.seats[n]).unit.link = .down → u = c) ∧
          (d = .disabled → (s.ports.seats[n]).unit.link = .up → ∃ a u', LostWithLink (.seat n) c a ∧
            RepliesLost (.seat n) (waitingReplies c (.seat n)) a u' ∧ u = raiseNotice (.link (.seat n) .down) u')) ∧
        (∀ j st, s.station? j = some st → st.origin ≠ .seat n →
          ∃ st', u.station? j = some st' ∧ apartFromDrops st' = apartFromDrops st) ∧
        (d = .disabled → (u.ports.seats[n]).unit.link = .down ∧
          ((s.ports.seats[n]).unit.link = .up → (u.ports.seats[n]).unit.tx = none)) ∧
        (d ≠ .disabled → (u.ports.seats[n]).unit.link = (s.ports.seats[n]).unit.link ∧
          (u.ports.seats[n]).unit.tx = (s.ports.seats[n]).unit.tx) ∧
        (∀ m : Fin 32, m ≠ n → quietSeat u.ports.seats[m] = quietSeat s.ports.seats[m]) ∧
        u.windows = s.windows ∧ u.sched = s.sched ∧ u.consist = s.consist ∧ u.hold = s.hold))

/-- SET_HOLD (R17, R19): the limit is clamped into 1..1000; both values are in force at once; an overrun is recorded
at once on an end whose continuous hold has already lasted the limit, and on no other: overrun yes, one more in the
overruns counter, HOLD_OVERRUN_BA or HOLD_OVERRUN_BB set with its count one higher (at most 65535), and the HOLD_OVERRUN
notice with the end, the limit and the action now in force. MODEL'S INFERENCE, log entry 18: a hold that has lasted
exactly the limit has lasted it. MODEL'S CHOICE, log entry 18: where both ends are late, BA comes before BB. -/
def Obligations.SetHoldStores : Prop :=
  ∀ (s : State) (fs : List CellFault) (k : Fin 4) (rq : Request), Takes s fs k rq → rq.code = 0x11 →
    let t := afterTake s fs
    (rq.num 2 1 = 0 ∨ 2 < rq.num 2 1 → exec (.setHold fs) s = .next (refuse k .badValue t)) ∧
    (∀ act, holdActionOfCode (rq.num 2 1) = some act →
      let lim := if rq.num 0 2 < 1 then 1 else if 1000 < rq.num 0 2 then 1000 else rq.num 0 2
      let late := fun (x : End) => ∃ u m, (s.ports.endOf x).heldUntil = some u ∧ (s.ports.endOf x).holdStart = some m ∧
        (s.ports.endOf x).overrun = false ∧ m + 100 * lim ≤ s.now
      let flag : End → Flag := fun x => match x with
        | .ba => .holdOverrunBA
        | .bb => .holdOverrunBB
      let told := fun (x : End) (h : Hub) => (h.flag (flag x)).raise s.sender (.holdOverrun x act lim)
      ∃ u, exec (.setHold fs) s = .next (answer k (beBytes 2 lim ++ [act.code]) u) ∧
        u.hold = { limit := lim, action := act } ∧
        (∀ x, late x → u.ports.endOf x =
          { s.ports.endOf x with overrun := true, overruns := (s.ports.endOf x).overruns + 1 }) ∧
        (∀ x, ¬ late x → u.ports.endOf x = s.ports.endOf x) ∧
        -- the flags and the notices
        ((∀ x, ¬ late x) → u.hub = t.hub) ∧
        (∀ x, late x → ¬ late x.other → u.hub = told x t.hub) ∧
        (late .ba → late .bb → u.hub = told .bb (told .ba t.hub)) ∧
        (∀ x, late x → u.hub.flagOf (flag x) =
          { isSet := true, count := min ((s.hub.flagOf (flag x)).count + 1) 65535 }) ∧
        (∀ x, ¬ late x → u.hub.flagOf (flag x) = s.hub.flagOf (flag x)) ∧
        u.ports.seats = s.ports.seats ∧ u.ports.radios = s.ports.radios ∧
        blocks u = { blocks s with hold := { limit := lim, action := act } })

/-- SET_MEMORY_LIMITS (R33, R35): the high mark is clamped first, then the low mark below it; the state is tested
against them with cells held as it stands, and kept where neither test is met. PRESSURE entered counts PRESSURE_SEEN and
raises the PRESSURE notice (entered), PRESSURE left gives NORMAL and raises the notice (left), each with the cells held and
the marks; where the cells of that notice bring cells held to the high mark, PRESSURE is entered again, with its flag and
count. MODEL'S CHOICE, log entry 33: the state in the reply is the one after the notice of the test has taken its
cells. -/
def Obligations.SetMemoryLimitsTests : Prop :=
  ∀ (s : State) (fs : List CellFault) (k : Fin 4) (rq : Request), Takes s fs k rq → rq.code = 0x12 →
    let t := afterTake s fs
    let high := if rq.num 0 2 < 64 then 64 else if 3072 < rq.num 0 2 then 3072 else rq.num 0 2
    let low := if high - 1 < rq.num 2 2 then high - 1 else rq.num 2 2
    ∃ u, exec (.setMemoryLimits fs) s =
        .next (answer k (beBytes 2 high ++ beBytes 2 low ++ [u.hub.cells.pressure.code]) u) ∧
      u.hub.cells.high = high ∧ u.hub.cells.low = low ∧
      (t.hub.cells.pressure = .normal → high ≤ t.hub.cells.held →
        let entered : Hub :=
          { t.hub with cells := { t.hub.cells with high := high, low := low, pressure := .pressure } }
        u.hub = (entered.flag .pressureSeen).raise t.sender (.pressure true t.hub.cells.held high low) ∧
        u.hub.cells.pressure = .pressure ∧ u.hub.flagOf .pressureSeen =
          { isSet := true, count := min ((t.hub.flagOf .pressureSeen).count + 1) 65535 }) ∧
      (t.hub.cells.pressure = .pressure → t.hub.cells.held ≤ low →
        let left := { t.hub with cells := { t.hub.cells with high := high, low := low, pressure := .normal } }
        u.hub = left.raise t.sender (.pressure false t.hub.cells.held high low) ∧
        (t.hub.mgmt.reportAddr = none → u.hub = left) ∧
        (u.hub.cells.held < high → u.hub.cells.pressure = .normal ∧ u.hub.flagOf .pressureSeen = t.hub.flagOf .pressureSeen) ∧
        (high ≤ u.hub.cells.held → u.hub.cells.pressure = .pressure ∧ u.hub.flagOf .pressureSeen =
          { isSet := true, count := min ((t.hub.flagOf .pressureSeen).count + 1) 65535 })) ∧
      (t.hub.cells.pressure = .normal → t.hub.cells.held < high →
        u.hub = { t.hub with cells := { t.hub.cells with high := high, low := low } }) ∧
      (t.hub.cells.pressure = .pressure → low < t.hub.cells.held →
        u.hub = { t.hub with cells := { t.hub.cells with high := high, low := low } }) ∧
      u.ports = s.ports ∧ blocks u = blocks s

/-- SET_CONSIST (R151): a carriage number above 63 or a lead code of no meaning is BAD_VALUE and changes neither field;
else both are stored and answered, whatever the link of the lead end. Of CREW level it is not permitted. -/
def Obligations.SetConsistStores : Prop :=
  (∀ (s : State) (fs : List CellFault) (k : Fin 4) (rq : Request), Takes s fs k rq → rq.code = 0x13 →
    let t := afterTake s fs
    (63 < rq.num 0 1 ∨ 2 < rq.num 1 1 → exec (.setConsist fs) s = .next (refuse k .badValue t)) ∧
    (∀ lead, rq.num 0 1 ≤ 63 →
      (rq.num 1 1 = 0 ∧ lead = none ∨ rq.num 1 1 = 1 ∧ lead = some .ba ∨ rq.num 1 1 = 2 ∧ lead = some .bb) →
      exec (.setConsist fs) s = .next (answer k [BitVec.ofNat 8 (rq.num 0 1), leadCode lead]
        { t with consist := { carriage := rq.num 0 1, lead := lead } }))) ∧
  (∀ (s : State) (fs : List CellFault) (k : Fin 4) (e : InputEntry) (f : FrameRec) (rq : Request),
    requestReady s = some (k, e, f, rq) → ((withFaults fs s).hub.readFrame f none).1 = [] → isGroup rq.src = false →
    rq.code = 0x13 → rq.bodyLength = 2 → 24 ≤ rq.frameLength - 4 → rq.level = .crew →
    exec (.setConsist fs) s = .next (refuse k .notPermitted (afterTake s fs)))

/-- CLEAR_STATUS (R181): a flag whose count is the count seen is cleared, with its count and its capture, and nothing
else changes; with another count nothing changes and the reply is STALE with the count; a flag code of none of the
eleven is BAD_VALUE. Of CREW level it is not permitted. -/
def Obligations.ClearStatusClears : Prop :=
  (∀ (s : State) (fs : List CellFault) (k : Fin 4) (rq : Request), Takes s fs k rq → rq.code = 0x15 →
    let t := afterTake s fs
    (rq.num 0 1 = 0 ∨ 11 < rq.num 0 1 → exec (.clearStatus fs) s = .next (refuse k .badValue t)) ∧
    (∀ f : Flag, rq.num 0 1 = f.index.val + 1 →
      ((t.hub.flagOf f).count ≠ rq.num 1 2 → exec (.clearStatus fs) s = .next
        (fixReply k (.fixed .stale ([BitVec.ofNat 8 (rq.num 0 1), 0] ++ beBytes 2 (t.hub.flagOf f).count)) true t)) ∧
      ((t.hub.flagOf f).count = rq.num 1 2 → exec (.clearStatus fs) s = .next
        (answer k ([BitVec.ofNat 8 (rq.num 0 1), 0] ++ beBytes 2 0) { t with hub :=
          { cells := { t.hub.cells with
              singleCapture := if f = .memorySingle then none else t.hub.cells.singleCapture
              multiCapture := if f = .memoryMulti then none else t.hub.cells.multiCapture }
            mgmt := { t.hub.mgmt with
              flags := t.hub.mgmt.flags.set f.index { isSet := false, count := 0 } } } })))) ∧
  (∀ (s : State) (fs : List CellFault) (k : Fin 4) (e : InputEntry) (f : FrameRec) (rq : Request),
    requestReady s = some (k, e, f, rq) → ((withFaults fs s).hub.readFrame f none).1 = [] → isGroup rq.src = false →
    rq.code = 0x15 → rq.bodyLength = 3 → 25 ≤ rq.frameLength - 4 → rq.level = .crew →
    exec (.clearStatus fs) s = .next (refuse k .notPermitted (afterTake s fs)))

/-- SNAPSHOT (R174, R182): refused while one is parked; parked in RUNNING; in STOPPED taken at once, whole. A parked one
is taken at the end of the next boundary, whatever causes it, and at a STOP: the area is replaced whole by the epoch
number and the figures of every record as they then are, and its slot gets the reply OK with that number and the count
of slots not empty. MODEL'S CHOICE, log entry 1: at an expiry of the epoch counter the time moves to its moment where it
has not come yet. -/
def Obligations.SnapshotIsTakenOrParks : Prop :=
  (∀ (s : State) (fs : List CellFault) (k : Fin 4) (rq : Request), Takes s fs k rq → rq.code = 0x16 →
    let t := afterTake s fs
    (snapshotParked s.hub.mgmt = true → exec (.snapshot fs) s = .next (refuse k .busy t)) ∧
    (snapshotParked s.hub.mgmt = false → s.sched.running = true → exec (.snapshot fs) s =
      .next { t with hub := { t.hub with mgmt := { t.hub.mgmt with
        slots := t.hub.mgmt.slots.set k (.parked rq.header .snapshot) } } }) ∧
    (snapshotParked s.hub.mgmt = false → s.sched.running = false → ∃ sn, exec (.snapshot fs) s =
      .next (answer k (beBytes 4 s.sched.number.toNat ++ beBytes 2 (s.table.slotsWhere (fun _ => true)).length)
        { t with hub := { t.hub with mgmt := { t.hub.mgmt with snapshot := some sn } } }) ∧
      sn.number = s.sched.number ∧
      ∀ j : Fin 256, sn.entries[j] = (s.station? j).map (fun st =>
        { addr := st.addr, state := st.state, current := st.allowance.map (·.current), upMetered := st.ctr.upMetered,
          downMetered := st.ctr.downMetered, drops := st.ctr.drops }))) ∧
  -- a parked SNAPSHOT, in slot `p`: `u` is the state after the boundary or the stop, `v` the one after the snapshot
  (∀ (s : State) (p : Fin 4) (h : ReqHeader), s.hub.mgmt.slots[p] = .parked h .snapshot →
    (∀ j : Fin 4, j < p → (s.hub.mgmt.slots[j]).isSnapshot = false) →
    let taken := fun (number : Count32) (t u v : State) => ∃ sn : Snapshot,
      v = fixReply p (.fixed .ok
          (beBytes 4 number.toNat ++ beBytes 2 (s.table.slotsWhere (fun _ => true)).length)) false
        { u with hub := { t.hub with mgmt := { t.hub.mgmt with snapshot := some sn } } } ∧
      sn.number = number ∧
      ∀ j : Fin 256, sn.entries[j] = (s.station? j).map (fun st =>
        { addr := st.addr, state := st.state, current := st.allowance.map (·.current), upMetered := st.ctr.upMetered,
          downMetered := st.ctr.downMetered, drops := st.ctr.drops })
    (s.sched.running = true → ∃ v, exec .epochCounterExpiry s = .next v ∧
      taken (s.sched.number + 1) s
        { computeBoundary true s with now := s.now + (s.sched.epochUnits - s.sched.elapsed) } v) ∧
    (∀ (fs : List CellFault) (k : Fin 4) (rq : Request), Takes s fs k rq → rq.code = 0x0B →
      let t := afterTake s fs
      (rq.num 0 1 = 3 → s.sched.running = true → ∃ v, exec (.schedulerRestart fs) s =
        .next (answer k (schedulerView v.sched) v) ∧ taken (s.sched.number + 1) t (computeBoundary true t) v) ∧
      (rq.num 0 1 = 1 → s.sched.running = false → ∃ v, exec (.schedulerStart fs) s =
        .next (answer k (schedulerView v.sched) v) ∧
        taken s.sched.number t (computeBoundary false { t with sched := { s.sched with running := true } }) v) ∧
      (rq.num 0 1 = 3 → s.sched.running = false → ∃ v, exec (.schedulerRestart fs) s =
        .next (answer k (schedulerView v.sched) v) ∧
        taken s.sched.number t (computeBoundary false { t with sched := { s.sched with running := true } }) v) ∧
      (rq.num 0 1 = 2 → s.sched.running = true → ∃ v, exec (.schedulerStop fs) s =
        .next (answer k (schedulerView v.sched) v) ∧ taken s.sched.number t (computeStop t) v)))

/-- SAVE_SETTINGS (R185): refused while one is parked or for a bad code; else the report address and the idle interval
are in force, the write starts, of the image of the settings in force: the designations, the settings of the windows (not
their counts), the scheduler's parameters in force (not the pending ones), the marks, the hold settings, the report
address and the default idle interval (R184); and the request parks. STORE_WRITE_ENDS (R186): an accepted
write is in the store, whose check passes; one that is not leaves the store as it is. MODEL'S CHOICE, log entry 7:
whether the store accepts the write is the command's argument. -/
def Obligations.SaveWritesTheStore : Prop :=
  (∀ (s : State) (fs : List CellFault) (k : Fin 4) (rq : Request), Takes s fs k rq → rq.code = 0x18 →
    let t := afterTake s fs
    (saveParked s.hub.mgmt = true → exec (.saveSettings fs) s = .next (refuse k .busy t)) ∧
    (saveParked s.hub.mgmt = false → 2 < rq.num 0 1 ∨ 1 < rq.num 1 1 →
      exec (.saveSettings fs) s = .next (refuse k .badValue t)) ∧
    (∀ (report : Option LinkAddr) (idle : Nat), saveParked s.hub.mgmt = false →
      (rq.num 0 1 = 0 ∧ report = s.hub.mgmt.reportAddr ∨ rq.num 0 1 = 1 ∧ report = none ∨
        rq.num 0 1 = 2 ∧ report = some (rq.addr 2)) →
      (rq.num 1 1 = 0 ∧ idle = s.hub.mgmt.defaultIdle ∨ rq.num 1 1 = 1 ∧ idle = rq.num 8 2) →
      let image : StoredSettings :=
        { designations := s.ports.seats.map (fun q => q.designation), windows := s.windows.map (fun w => w.set)
          params := s.sched.params, high := s.hub.cells.high, low := s.hub.cells.low, hold := s.hold
          defaultIdle := idle, reportAddr := report }
      exec (.saveSettings fs) s = .next { t with hub := { t.hub with mgmt := { t.hub.mgmt with
        reportAddr := report, defaultIdle := idle, store := { s.hub.mgmt.store with checkOk := false }
        slots := t.hub.mgmt.slots.set k (.parked rq.header (.save image s.now)) } } })) ∧
  (∀ (s : State) (k : Fin 4) (image : StoredSettings) (m : Nat), parkedSave s.hub.mgmt = some (k, image, m) →
    exec (.storeWriteEnds true) s = .next (fixReply k (.fixed .ok []) false
      { s with hub := { s.hub with mgmt := { s.hub.mgmt with store := { settings := image, checkOk := true } } } }) ∧
    exec (.storeWriteEnds false) s = .next (fixReply k (.fixed .storeFailed []) false s))

/-- RESET (R36, R58, R75, R109, R149, R167, R177, R188): what a warm reset empties, what it keeps, and its reply. `w`
is the part after the reset's six steps: every frame is freed but those of the BUILT replies, which stay and keep one
reference each; the failed cells of the others are retired in ascending number; the free stack holds every other cell,
the lowest on top; the notice queue is empty, and the lost count, the flags and the tally are kept but for what the
reset itself counts: an abort for each stored frame in transmission and a WIRE for each frame in reception. Every
parked operation has its ABORTED reply. `u` is what follows: the test of the pressure state, with flag and notice as
SET_MEMORY_LIMITS tests it (R36; `PressureTested`), and the replies that waited, four at most, built as by
BUILD_WAITING_REPLY. The reply carries the cells free in `w`. MODEL'S INFERENCES: the order of the steps inside the
reset, and that no notice is built in them (log entry 21); that the abort of a hold frame or an order is not counted
(log entry 24). MODEL'S CHOICE, log entry 37: the reception of a port that was in the middle of a frame is idle after
the reset. -/
def Obligations.ResetEmptiesAndKeeps : Prop :=
  ∀ (s : State) (fs : List CellFault) (k : Fin 4) (rq : Request), Takes s fs k rq → rq.code = 0x19 →
    let t := afterTake s fs
    let w := warmReset t
    let u := settleReset w
    exec (.reset fs) s =
      .next (answer k (beBytes 2 w.hub.cells.free.length ++ [BitVec.ofNat 8 (parkedCount t.hub.mgmt)]) u) ∧
    -- the test of the pressure state, and the replies that waited, in their turn
    (∃ h a b c, PressureTested t.sender w.hub h ∧ exec .buildWaitingReply { w with hub := h } = .next a ∧
      exec .buildWaitingReply a = .next b ∧ exec .buildWaitingReply b = .next c ∧
      exec .buildWaitingReply c = .next u) ∧
    -- Cell Memory rebuilt
    w.hub.cells.free = (List.range 3072).filter (fun x =>
      !w.hub.cells.retired.contains x && !(w.hub.cells.frames.flatMap (·.chain)).contains x) ∧
    (∀ g ∈ w.hub.cells.frames, g.refs = 1 ∧ ∃ (j : Fin 4) (h : ReqHeader), w.hub.mgmt.slots[j] = .built h g.id) ∧
    (StackOk t →
      (∀ (j : Fin 4) h id f, t.hub.mgmt.slots[j] = .built h id → t.hub.cells.frame? id = some f →
        { f with refs := 1 } ∈ w.hub.cells.frames) ∧
      w.hub.cells.retired = t.hub.cells.retired ++
        ((List.range 3072).filter (fun x => t.hub.cells.frames.any (fun f =>
          f.failed.contains x && !(keptIds w.hub.mgmt).contains f.id))).take (64 - t.hub.cells.retired.length)) ∧
    u.hub.cells.high = s.hub.cells.high ∧ u.hub.cells.low = s.hub.cells.low ∧
    u.hub.cells.singleCapture = t.hub.cells.singleCapture ∧ u.hub.cells.multiCapture = t.hub.cells.multiCapture ∧
    -- the Management Unit
    (∀ (j : Fin 4) h id, t.hub.mgmt.slots[j] = .built h id → u.hub.mgmt.slots[j] = .built h id) ∧
    (∀ (j : Fin 4) h id, t.hub.mgmt.slots[j] = .sending h id → u.hub.mgmt.slots[j] = .free) ∧
    (∀ (j : Fin 4) h op, t.hub.mgmt.slots[j] = .parked h op →
      w.hub.mgmt.slots[j] = .reserved h (some (.fixed .aborted (abortedBody s op))) false ∨
      (∃ id, w.hub.mgmt.slots[j] = .built h id) ∨ (deadSeat s h.port = true ∧ w.hub.mgmt.slots[j] = .free)) ∧
    (∀ (j : Fin 4) h op, u.hub.mgmt.slots[j] ≠ .parked h op) ∧
    u.hub.mgmt.input = [] ∧ w.hub.mgmt.notices = [] ∧ w.hub.mgmt.lost = t.hub.mgmt.lost ∧
    u.hub.mgmt.snapshot = none ∧ u.hub.mgmt.store = t.hub.mgmt.store ∧
    u.hub.mgmt.reportAddr = s.hub.mgmt.reportAddr ∧ u.hub.mgmt.defaultIdle = s.hub.mgmt.defaultIdle ∧
    (∀ f, f ≠ .memoryDegraded → f ≠ .pressureSeen → w.hub.flagOf f = t.hub.flagOf f) ∧
    (∀ r, r ≠ .aborted → r ≠ .wire → r ≠ .purge → w.hub.tallyOf r = t.hub.tallyOf r) ∧
    w.hub.tallyOf .aborted = t.hub.tallyOf .aborted + BitVec.ofNat 32
      (allPorts.filter (fun p => ((s.ports.unitOf p).tx.bind Transmission.frame?).isSome)).length ∧
    w.hub.tallyOf .wire = t.hub.tallyOf .wire + BitVec.ofNat 32
      (allPorts.filter (fun p => match (s.ports.unitOf p).rx with
        | .taking _ => true
        | _ => false)).length ∧
    -- the other blocks
    (∀ j, u.station? j = none) ∧ u.table.held = [] ∧ u.up = {} ∧
    u.sched = { s.sched with
      running := false, counter := 0, phase := 0, pendingParams := none, surplus := 0, active := 0, weight := 0,
      shares := 0 } ∧
    (∀ p, (u.ports.unitOf p).tx = none ∧ (u.ports.unitOf p).rx = .idle ∧
      (u.ports.unitOf p).link = (s.ports.unitOf p).link ∧
      (u.ports.unitOf p).ctr.rxFrames = (s.ports.unitOf p).ctr.rxFrames ∧
      (u.ports.unitOf p).ctr.rxBytes = (s.ports.unitOf p).ctr.rxBytes ∧
      (u.ports.unitOf p).ctr.txFrames = (s.ports.unitOf p).ctr.txFrames ∧
      (u.ports.unitOf p).ctr.txBytes = (s.ports.unitOf p).ctr.txBytes) ∧
    (∀ n : Fin 32, (u.ports.seats[n]).egress = [] ∧
      (u.ports.seats[n]).designation = (s.ports.seats[n]).designation) ∧
    (∀ w : Fin 4, (u.ports.radios[w]).egress = [] ∧ (u.ports.radios[w]).orders =
      (if (s.ports.radios[w]).unit.link = .up then
        ((List.range 64).filter (fun i => (s.table.atRadio w i).isSome)).map (fun i => { kind := .drop, index := i })
      else [])) ∧
    (∀ x, (u.ports.endOf x).transit = [] ∧ (u.ports.endOf x).heldUntil = (s.ports.endOf x).heldUntil ∧
      (u.ports.endOf x).holdStart = (s.ports.endOf x).holdStart ∧
      (u.ports.endOf x).overrun = (s.ports.endOf x).overrun ∧ (u.ports.endOf x).streak = 0 ∧
      (u.ports.endOf x).lastTransit = false ∧
      ((s.ports.endOf x).outstanding = true → (u.ports.endOf x).pendingHold = some 0 ∧
        (u.ports.endOf x).outstanding = false) ∧
      ((s.ports.endOf x).outstanding = false → (u.ports.endOf x).pendingHold = (s.ports.endOf x).pendingHold)) ∧
    u.windows = s.windows ∧ u.consist = s.consist ∧ u.hold = s.hold ∧ u.now = s.now ∧ u.identity = s.identity
end

