-- ==== Sys2Proof/Laws/Memory.lean ====
section
/-! SUPPORT. The laws of the bytes of the cells: a write keeps the canonical form, a byte written reads back, and every
other byte reads as before. -/

namespace Sys2Proof.Laws

open Sys2Proof Sys2Proof.Machine

theorem memory_wf_iff (m : Memory) :
    m.wf = true ↔ m.Pairwise (fun a b => a.1 < b.1) ∧ ∀ e ∈ m, e.2 ≠ 0 := by
  induction m with
  | nil => simp [Memory.wf]
  | cons e rest ih =>
    obtain ⟨a, v⟩ := e
    simp only [Memory.wf, Bool.and_eq_true, decide_eq_true_eq, List.all_eq_true, ih, List.pairwise_cons,
      List.mem_cons, forall_eq_or_imp]
    tauto

theorem cellEntries_mem {base : Nat} {bs : List Byte} {e : Nat × Byte} (h : e ∈ cellEntries base bs) :
    base ≤ e.1 ∧ e.1 < base + bs.length ∧ e.2 ≠ 0 := by
  induction bs generalizing base with
  | nil => simp [cellEntries] at h
  | cons b bs ih =>
    simp only [cellEntries] at h
    split at h
    · have := ih h
      simp only [List.length_cons]
      exact ⟨by omega, by omega, this.2.2⟩
    · rename_i hb
      rcases List.mem_cons.1 h with rfl | h
      · exact ⟨Nat.le_refl _, by simp only [List.length_cons]; omega, hb⟩
      · have := ih h
        simp only [List.length_cons]
        exact ⟨by omega, by omega, this.2.2⟩

theorem cellEntries_sorted (base : Nat) (bs : List Byte) :
    (cellEntries base bs).Pairwise (fun a b => a.1 < b.1) := by
  induction bs generalizing base with
  | nil => simp [cellEntries]
  | cons b bs ih =>
    simp only [cellEntries]
    split
    · exact ih _
    · exact List.pairwise_cons.2 ⟨fun e he => by have := (cellEntries_mem he).1; simp only; omega, ih _⟩

/-- A write of a block keeps the canonical form. -/
theorem writeBlock_wf {m : Memory} (h : m.wf = true) (base : Nat) (bs : List Byte) :
    (m.writeBlock base bs).wf = true := by
  rw [memory_wf_iff] at h ⊢
  obtain ⟨hs, hz⟩ := h
  refine ⟨?_, ?_⟩
  · simp only [Memory.writeBlock, List.pairwise_append, List.mem_append, List.mem_filter, decide_eq_true_eq]
    refine ⟨⟨hs.filter _, cellEntries_sorted _ _, ?_⟩, hs.filter _, ?_⟩
    · intro a ha b hb
      have := (cellEntries_mem hb).1
      omega
    · rintro a (ha | ha) b hb
      · omega
      · have := (cellEntries_mem ha).2.1
        omega
  · intro e he
    simp only [Memory.writeBlock, List.mem_append, List.mem_filter] at he
    rcases he with (he | he) | he
    · exact hz e he.1
    · exact (cellEntries_mem he).2.2
    · exact hz e he.1

/-- Filling a chain of cells keeps the canonical form. -/
theorem writeChain_wf {m : Memory} (h : m.wf = true) (chain : List Nat) (bs : List Byte) :
    (m.writeChain chain bs).wf = true := by
  induction chain generalizing m bs with
  | nil => exact h
  | cons c cs ih => exact ih (writeBlock_wf h _ _) _

theorem read_append_left (m n : Memory) (a : Nat) (h : a ∈ m.map (·.1)) :
    Memory.read (m ++ n) a = Memory.read m a := by
  induction m with
  | nil => simp at h
  | cons e m ih =>
    obtain ⟨b, v⟩ := e
    simp only [List.map_cons, List.mem_cons] at h
    simp only [List.cons_append, Memory.read]
    split
    · rfl
    · rename_i hb
      exact ih (h.resolve_left (fun h => hb h.symm))

theorem read_append_right (m n : Memory) (a : Nat) (h : a ∉ m.map (·.1)) :
    Memory.read (m ++ n) a = Memory.read n a := by
  induction m with
  | nil => rfl
  | cons e m ih =>
    obtain ⟨b, v⟩ := e
    simp only [List.map_cons, List.mem_cons, not_or] at h
    simp only [List.cons_append, Memory.read, if_neg (Ne.symm h.1), ih h.2]

theorem read_filter (m : Memory) (p : Nat → Bool) (a : Nat) (ha : p a = true) :
    Memory.read (m.filter (fun e => p e.1)) a = Memory.read m a := by
  induction m with
  | nil => rfl
  | cons e m ih =>
    obtain ⟨b, v⟩ := e
    by_cases hp : p b = true
    · simp only [List.filter_cons, hp, if_true, Memory.read, ih]
    · have hb : b ≠ a := fun h => hp (h ▸ ha)
      simp only [List.filter_cons, hp, Memory.read, hb, if_false]
      exact ih

theorem read_not_mem (m : Memory) (a : Nat) (ha : a ∉ m.map (·.1)) : Memory.read m a = 0 := by
  induction m with
  | nil => rfl
  | cons e m ih =>
    obtain ⟨b, v⟩ := e
    simp only [List.map_cons, List.mem_cons, not_or] at ha
    simp only [Memory.read, if_neg (Ne.symm ha.1), ih ha.2]

theorem read_cellEntries (base : Nat) (bs : List Byte) (i : Nat) :
    Memory.read (cellEntries base bs) (base + i) = bs.getD i 0 := by
  induction bs generalizing base i with
  | nil => simp [cellEntries, Memory.read]
  | cons b bs ih =>
    cases i with
    | zero =>
      simp only [cellEntries, Nat.add_zero, List.getD_cons_zero]
      split
      · rename_i hb
        rw [read_not_mem]
        · exact hb.symm
        · intro h
          obtain ⟨e, he, h⟩ := List.mem_map.1 h
          have := (cellEntries_mem he).1
          omega
      · simp [Memory.read]
    | succ i =>
      have e1 : base + (i + 1) = (base + 1) + i := by omega
      simp only [cellEntries, List.getD_cons_succ]
      split
      · rw [e1]; exact ih _ _
      · rw [e1]
        simp only [Memory.read]
        rw [if_neg (by omega)]
        exact ih _ _

theorem keys_below (m : Memory) (base a : Nat) (h : base ≤ a) :
    a ∉ (m.filter (fun e => decide (e.1 < base))).map (·.1) := by
  simp only [List.mem_map, List.mem_filter, decide_eq_true_eq, not_exists, not_and]
  intro e he h
  omega

theorem keys_above (m : Memory) (top a : Nat) (h : a < top) :
    a ∉ (m.filter (fun e => decide (top ≤ e.1))).map (·.1) := by
  simp only [List.mem_map, List.mem_filter, decide_eq_true_eq, not_exists, not_and]
  intro e he h
  omega

theorem keys_block (base : Nat) (bs : List Byte) (a : Nat) (h : a < base ∨ base + bs.length ≤ a) :
    a ∉ (cellEntries base bs).map (·.1) := by
  intro h'
  obtain ⟨e, he, rfl⟩ := List.mem_map.1 h'
  have := cellEntries_mem he
  omega

/-- A byte of the block reads as written. -/
theorem read_writeBlock_in (m : Memory) (base : Nat) (bs : List Byte) (i : Nat) (hi : i < bs.length) :
    Memory.read (m.writeBlock base bs) (base + i) = bs.getD i 0 := by
  unfold Memory.writeBlock
  rw [List.append_assoc, read_append_right _ _ _ (keys_below m base _ (by omega)), ← read_cellEntries base bs i]
  by_cases h2 : base + i ∈ (cellEntries base bs).map (·.1)
  · exact read_append_left _ _ _ h2
  · rw [read_append_right _ _ _ h2, read_not_mem _ _ h2, read_not_mem _ _ (keys_above m _ _ (by omega))]

/-- A byte outside the block reads as before. -/
theorem read_writeBlock_out (m : Memory) (base : Nat) (bs : List Byte) (a : Nat)
    (ha : a < base ∨ base + bs.length ≤ a) : Memory.read (m.writeBlock base bs) a = Memory.read m a := by
  have e1 := read_filter m (fun x => decide (x < base)) a
  have e3 := read_filter m (fun x => decide (base + bs.length ≤ x)) a
  simp only [decide_eq_true_eq] at e1 e3
  unfold Memory.writeBlock
  rw [List.append_assoc]
  rcases ha with ha | ha
  · by_cases h1 : a ∈ (m.filter (fun e => decide (e.1 < base))).map (·.1)
    · rw [read_append_left _ _ _ h1, e1 ha]
    · rw [read_append_right _ _ _ h1, read_append_right _ _ _ (keys_block _ _ _ (Or.inl ha)),
        read_not_mem _ _ (keys_above m _ _ (by omega)), ← e1 ha, read_not_mem _ _ h1]
  · rw [read_append_right _ _ _ (keys_below m base _ (by omega)),
      read_append_right _ _ _ (keys_block _ _ _ (Or.inr ha)), e3 ha]

/-- A byte in no cell of a chain reads as before the chain is filled. -/
theorem read_writeChain_out (m : Memory) (chain : List Nat) (bs : List Byte) (a : Nat) (ha : a / 256 ∉ chain) :
    Memory.read (m.writeChain chain bs) a = Memory.read m a := by
  induction chain generalizing m bs with
  | nil => rfl
  | cons c cs ih =>
    simp only [List.mem_cons, not_or] at ha
    simp only [Memory.writeChain]
    rw [ih _ _ ha.2]
    apply read_writeBlock_out
    have : (bs.take 256).length ≤ 256 := by simp
    have h1 := ha.1
    unfold cellBase
    omega

/-- The bytes of a frame read back from the distinct cells they were written into (R20). -/
theorem chainByte_writeChain (m : Memory) (chain : List Nat) (bs : List Byte) (hn : chain.Nodup) (i : Nat)
    (hi : i < bs.length) (hc : i / 256 < chain.length) :
    Memory.chainByte (m.writeChain chain bs) chain i = bs.getD i 0 := by
  induction chain generalizing m bs i with
  | nil => simp at hc
  | cons c cs ih =>
    rw [List.nodup_cons] at hn
    simp only [Memory.writeChain]
    by_cases h : i < 256
    · have e0 : i / 256 = 0 := by omega
      have e1 : i % 256 = i := by omega
      simp only [Memory.chainByte, e0, e1, List.getD_cons_zero]
      rw [read_writeChain_out]
      · rw [read_writeBlock_in _ _ _ _ (by simp; omega)]
        simp only [List.getD_eq_getElem?_getD, List.getElem?_take, if_pos h]
      · unfold cellBase
        have : (256 * c + i) / 256 = c := by omega
        rw [this]; exact hn.1
    · have hi' : i - 256 < (bs.drop 256).length := by simp; omega
      have hc' : (i - 256) / 256 < cs.length := by simp only [List.length_cons] at hc; omega
      have := ih (m.writeBlock (cellBase c) (bs.take 256)) (bs.drop 256) hn.2 (i - 256) hi' hc'
      have e1 : (i - 256) % 256 = i % 256 := by omega
      have e2 : i / 256 = (i - 256) / 256 + 1 := by omega
      simp only [Memory.chainByte] at this ⊢
      rw [e1] at this
      rw [e2, List.getD_cons_succ, this]
      have e3 : 256 + (i - 256) = i := by omega
      simp only [List.getD_eq_getElem?_getD, List.getElem?_drop, e3]

/-- All the bytes of a frame read back (R20). -/
theorem chainBytes_writeChain (m : Memory) (chain : List Nat) (bs : List Byte) (hn : chain.Nodup)
    (hc : bs.length ≤ 256 * chain.length) :
    Memory.chainBytes (m.writeChain chain bs) chain bs.length = bs := by
  apply List.ext_getElem
  · simp [Memory.chainBytes]
  · intro i h1 h2
    simp only [Memory.chainBytes, List.getElem_map, List.getElem_range]
    rw [chainByte_writeChain _ _ _ hn i h2 (by omega)]
    simp [List.getD_eq_getElem?_getD, h2]

end Sys2Proof.Laws
end

