-- ==== Sys2Proof/Laws/Hub.lean ====
section
/-! SUPPORT. What the operations of Cell Memory and of the notice queue can do: taking and returning cells, building a
frame, raising a notice, dropping a reference. -/

namespace Sys2Proof.Laws

open Sys2Proof Sys2Proof.Machine

/-! ## Taking cells -/

/-- What the taking of cells leaves alone. -/
structure SameStore (c c' : CellMemory) : Prop where
  data : c'.data = c.data
  frames : c'.frames = c.frames
  retired : c'.retired = c.retired
  high : c'.high = c.high
  low : c'.low = c.low
  single : c'.singleCapture = c.singleCapture
  multi : c'.multiCapture = c.multiCapture

theorem SameStore.refl (c : CellMemory) : SameStore c c := ⟨rfl, rfl, rfl, rfl, rfl, rfl, rfl⟩

theorem SameStore.trans {a b c : CellMemory} (h : SameStore a b) (g : SameStore b c) : SameStore a c :=
  ⟨g.1.trans h.1, g.2.trans h.2, g.3.trans h.3, g.4.trans h.4, g.5.trans h.5, g.6.trans h.6, g.7.trans h.7⟩

theorem testEnter_same (c : CellMemory) : SameStore c c.testEnter.1 ∧ c.testEnter.1.free = c.free := by
  unfold CellMemory.testEnter; split <;> exact ⟨⟨rfl, rfl, rfl, rfl, rfl, rfl, rfl⟩, rfl⟩

theorem testLeave_same (c : CellMemory) : SameStore c c.testLeave.1 ∧ c.testLeave.1.free = c.free := by
  unfold CellMemory.testLeave; split <;> exact ⟨⟨rfl, rfl, rfl, rfl, rfl, rfl, rfl⟩, rfl⟩

/-- R21: cells are popped from the top of the stack, one after another, and nothing else of the store changes. -/
theorem takeCells_spec (n : Nat) (c : CellMemory) :
    (takeCells n c).1 = c.free.take n ∧ (takeCells n c).2.1.free = c.free.drop n ∧
      SameStore c (takeCells n c).2.1 := by
  induction n generalizing c with
  | zero => exact ⟨rfl, rfl, SameStore.refl c⟩
  | succ n ih =>
    unfold takeCells CellMemory.pop
    cases hf : c.free with
    | nil => exact ⟨by simp, by simp [hf], SameStore.refl c⟩
    | cons x rest =>
      simp only
      generalize hc : ({ c with free := rest, faults := _ } : CellMemory) = c1
      have h1 : SameStore c c1 := by subst hc; exact ⟨rfl, rfl, rfl, rfl, rfl, rfl, rfl⟩
      have h2 : c1.free = rest := by subst hc; rfl
      obtain ⟨i1, i2, i3⟩ := ih c1.testEnter.1
      have ht := testEnter_same c1
      rw [ht.2, h2] at i1 i2
      exact ⟨by simp [i1], by simp [i2], h1.trans (ht.1.trans i3)⟩

/-! ## Returning cells -/

/-- What the return of cells leaves alone. -/
structure SameFrames (c c' : CellMemory) : Prop where
  data : c'.data = c.data
  frames : c'.frames = c.frames
  faults : c'.faults = c.faults
  high : c'.high = c.high
  low : c'.low = c.low
  single : c'.singleCapture = c.singleCapture
  multi : c'.multiCapture = c.multiCapture

theorem SameFrames.refl (c : CellMemory) : SameFrames c c := ⟨rfl, rfl, rfl, rfl, rfl, rfl, rfl⟩

theorem SameFrames.trans {a b c : CellMemory} (h : SameFrames a b) (g : SameFrames b c) : SameFrames a c :=
  ⟨g.1.trans h.1, g.2.trans h.2, g.3.trans h.3, g.4.trans h.4, g.5.trans h.5, g.6.trans h.6, g.7.trans h.7⟩

/-- Every cell returned lands on the stack or on the retired list, and nothing is lost. -/
theorem returnCells_perm (failed chain : List Nat) (c : CellMemory) :
    ((returnCells failed chain c).1.free ++ (returnCells failed chain c).1.retired).Perm
      (chain ++ (c.free ++ c.retired)) ∧ SameFrames c (returnCells failed chain c).1 := by
  induction chain generalizing c with
  | nil => exact ⟨List.Perm.refl _, SameFrames.refl c⟩
  | cons x xs ih =>
    unfold returnCells
    simp only
    have hr : ((c.returnCell failed x).1.free ++ (c.returnCell failed x).1.retired).Perm
        (x :: (c.free ++ c.retired)) ∧ SameFrames c (c.returnCell failed x).1 := by
      unfold CellMemory.returnCell
      split
      · split
        · refine ⟨?_, ⟨rfl, rfl, rfl, rfl, rfl, rfl, rfl⟩⟩
          simp only
          rw [← List.append_assoc]
          exact (List.perm_append_comm).trans (by simp)
        · exact ⟨List.Perm.refl _, ⟨rfl, rfl, rfl, rfl, rfl, rfl, rfl⟩⟩
      · exact ⟨List.Perm.refl _, ⟨rfl, rfl, rfl, rfl, rfl, rfl, rfl⟩⟩
    generalize hc1 : (c.returnCell failed x).1 = c1 at hr
    have ht := testLeave_same c1
    obtain ⟨i1, i2⟩ := ih c1.testLeave.1
    refine ⟨i1.trans ?_, ?_⟩
    · rw [ht.2, ht.1.retired]
      exact (List.Perm.append_left xs hr.1).trans List.perm_middle
    · have hl : SameFrames c1 c1.testLeave.1 := by
        unfold CellMemory.testLeave; split <;> exact ⟨rfl, rfl, rfl, rfl, rfl, rfl, rfl⟩
      exact hr.2.trans (hl.trans i2)

/-- R21: the cells of a frame with no failed cell are pushed in chain order, and none is retired. -/
theorem returnCells_good (chain : List Nat) (c : CellMemory) :
    (returnCells [] chain c).1.free = chain.reverse ++ c.free ∧ (returnCells [] chain c).1.retired = c.retired ∧
      (returnCells [] chain c).2.2 = 0 := by
  induction chain generalizing c with
  | nil => exact ⟨rfl, rfl, rfl⟩
  | cons x xs ih =>
    unfold returnCells
    simp only
    have hr : (c.returnCell [] x) = ({ c with free := x :: c.free }, false) := by
      simp [CellMemory.returnCell]
    rw [hr]
    have ht := testLeave_same { c with free := x :: c.free }
    obtain ⟨i1, i2, i3⟩ := ih (CellMemory.testLeave { c with free := x :: c.free }).1
    rw [ht.2] at i1
    rw [ht.1.retired] at i2
    refine ⟨by simp [i1], i2, by simp [i3]⟩

/-! ## What notices and the return of cells leave alone -/

/-- What the raising of a notice, and the return of a frame's cells, leave alone: the request side of the Management
Unit, the tally, the snapshot, the stored and kept settings, the marks and the captures. -/
structure Quiet (h h' : Hub) : Prop where
  input : h'.mgmt.input = h.mgmt.input
  slots : h'.mgmt.slots = h.mgmt.slots
  waiting : h'.mgmt.waiting = h.mgmt.waiting
  builtOrder : h'.mgmt.builtOrder = h.mgmt.builtOrder
  tally : h'.mgmt.tally = h.mgmt.tally
  snapshot : h'.mgmt.snapshot = h.mgmt.snapshot
  store : h'.mgmt.store = h.mgmt.store
  reportAddr : h'.mgmt.reportAddr = h.mgmt.reportAddr
  defaultIdle : h'.mgmt.defaultIdle = h.mgmt.defaultIdle
  high : h'.cells.high = h.cells.high
  low : h'.cells.low = h.cells.low
  single : h'.cells.singleCapture = h.cells.singleCapture
  multi : h'.cells.multiCapture = h.cells.multiCapture

theorem Quiet.refl (h : Hub) : Quiet h h := by constructor <;> rfl

theorem Quiet.trans {a b c : Hub} (h : Quiet a b) (g : Quiet b c) : Quiet a c :=
  ⟨g.1.trans h.1, g.2.trans h.2, g.3.trans h.3, g.4.trans h.4, g.5.trans h.5, g.6.trans h.6, g.7.trans h.7,
    g.8.trans h.8, g.9.trans h.9, g.10.trans h.10, g.11.trans h.11, g.12.trans h.12, g.13.trans h.13⟩

theorem flag_quiet (f : Flag) (h : Hub) : Quiet h (h.flag f) := by constructor <;> rfl

theorem flagN_quiet (f : Flag) (n : Nat) (h : Hub) : Quiet h (Hub.flagN f n h) := by
  induction n generalizing h with
  | zero => exact Quiet.refl h
  | succ n ih => exact (flag_quiet f h).trans (ih _)

@[simp] theorem flag_cells (f : Flag) (h : Hub) : (h.flag f).cells = h.cells := rfl

@[simp] theorem flagN_cells (f : Flag) (n : Nat) (h : Hub) : (Hub.flagN f n h).cells = h.cells := by
  induction n generalizing h with
  | zero => rfl
  | succ n ih => exact ih _

@[simp] theorem tally_cells (r : Discard) (h : Hub) : (h.tally r).cells = h.cells := rfl

/-- R26: what a build can do. It takes as many cells as the frame needs off the stack, stores the bytes in them, and
adds one frame record with one reference; or the stack holds too few cells, and there is no build. -/
theorem build_spec {kind : FrameKind} {bytes : List Byte} {h h' : Hub} {id : Nat} {e : Option Nat}
    (hb : h.build kind bytes = some (id, h', e)) :
    ∃ chain, chain = h.cells.free.take (cellsFor (bytes.length + 4)) ∧
      cellsFor (bytes.length + 4) ≤ h.cells.free.length ∧ id = chain.headD 0 ∧ h'.mgmt = h.mgmt ∧
      h'.cells.free = h.cells.free.drop (cellsFor (bytes.length + 4)) ∧
      h'.cells.frames = h.cells.frames ++
        [{ length := bytes.length + 4, arrival := none, kind := kind, metered := false, chain := chain, refs := 1,
           station := none, failed := [] }] ∧
      h'.cells.data = h.cells.data.writeChain chain bytes ∧ h'.cells.retired = h.cells.retired ∧
      h'.cells.high = h.cells.high ∧ h'.cells.low = h.cells.low ∧
      h'.cells.singleCapture = h.cells.singleCapture ∧ h'.cells.multiCapture = h.cells.multiCapture := by
  unfold Hub.build at hb
  simp only at hb
  split at hb
  · cases hb
  · rename_i hn
    obtain ⟨t1, t2, t3⟩ := takeCells_spec (cellsFor (bytes.length + 4)) h.cells
    simp only [Option.some.injEq, Prod.mk.injEq] at hb
    obtain ⟨rfl, rfl, rfl⟩ := hb
    exact ⟨_, t1, by omega, rfl, rfl, t2, by simp [t3.frames], by simp [t3.data], t3.retired, t3.high, t3.low,
      t3.single, t3.multi⟩

theorem build_quiet {kind : FrameKind} {bytes : List Byte} {h h' : Hub} {id : Nat} {e : Option Nat}
    (hb : h.build kind bytes = some (id, h', e)) : Quiet h h' := by
  obtain ⟨c, _, _, _, hm, _, _, _, _, h1, h2, h3, h4⟩ := build_spec hb
  exact ⟨by rw [hm], by rw [hm], by rw [hm], by rw [hm], by rw [hm], by rw [hm], by rw [hm], by rw [hm], by rw [hm],
    h1, h2, h3, h4⟩

theorem tryNotice_quiet {sd : Sender} {dst : LinkAddr} {n : Notice} {h h' : Hub} {e : Option Nat}
    (ht : h.tryNotice sd dst n = some (h', e)) : Quiet h h' := by
  unfold Hub.tryNotice at ht
  split at ht
  · split at ht
    · cases ht
    · rename_i id h1 e1 hb
      obtain ⟨rfl, rfl⟩ := by simpa using ht
      have q := build_quiet hb
      exact ⟨q.1, q.2, q.3, q.4, q.5, q.6, q.7, q.8, q.9, q.10, q.11, q.12, q.13⟩
  · cases ht

theorem loseNotice_quiet (h : Hub) : Quiet h h.loseNotice := by constructor <;> rfl

theorem reportLost_quiet (sd : Sender) (h : Hub) : Quiet h (h.reportLost sd).1 := by
  unfold Hub.reportLost
  split
  · exact Quiet.refl h
  · split
    · exact Quiet.refl h
    · split
      · exact Quiet.refl h
      · rename_i h1 e ht
        have q := tryNotice_quiet ht
        exact ⟨q.1, q.2, q.3, q.4, q.5, q.6, q.7, q.8, q.9, q.10, q.11, q.12, q.13⟩

theorem raiseCore_quiet (sd : Sender) (n : Notice) (h : Hub) : Quiet h (h.raiseCore sd n).1 := by
  unfold Hub.raiseCore
  split
  · exact Quiet.refl h
  · have q := reportLost_quiet sd h
    simp only
    split
    · exact q.trans (loseNotice_quiet _)
    · split
      · exact q.trans (loseNotice_quiet _)
      · rename_i h2 e2 ht
        exact q.trans (tryNotice_quiet ht)

theorem noteEntered_quiet (sd : Sender) (e : Option Nat) (h : Hub) : Quiet h (h.noteEntered sd e) := by
  unfold Hub.noteEntered
  split
  · exact Quiet.refl h
  · exact (flag_quiet _ h).trans (raiseCore_quiet sd _ _)

/-- What raising a notice leaves alone. -/
theorem raise_quiet (sd : Sender) (n : Notice) (h : Hub) : Quiet h (h.raise sd n) :=
  (raiseCore_quiet sd n h).trans (noteEntered_quiet sd _ _)

theorem noteLeft_quiet (sd : Sender) (l : Option Nat) (h : Hub) : Quiet h (h.noteLeft sd l) := by
  unfold Hub.noteLeft
  split
  · exact Quiet.refl h
  · exact raise_quiet sd _ h

/-- What the return of cells leaves alone. -/
theorem giveBack_quiet (sd : Sender) (failed chain : List Nat) (h : Hub) : Quiet h (h.giveBack sd failed chain) := by
  unfold Hub.giveBack
  have s := (returnCells_perm failed chain h.cells).2
  have q : Quiet h { h with cells := (returnCells failed chain h.cells).1 } :=
    ⟨rfl, rfl, rfl, rfl, rfl, rfl, rfl, rfl, rfl, s.high, s.low, s.single, s.multi⟩
  exact q.trans ((flagN_quiet _ _ _).trans (noteLeft_quiet sd _ _))

theorem freeFrame_quiet (sd : Sender) (id : Nat) (h : Hub) : Quiet h (h.freeFrame sd id) := by
  unfold Hub.freeFrame
  split
  · exact Quiet.refl h
  · rename_i f hf
    have q : Quiet h { h with cells := { h.cells with
        frames := h.cells.frames.filter (fun g => decide (g.id ≠ id)) } } := by constructor <;> rfl
    exact q.trans (giveBack_quiet sd _ _ _)

/-- What the drop of a reference leaves alone (R25). -/
theorem dropRef_quiet (sd : Sender) (id : Nat) (h : Hub) : Quiet h (h.dropRef sd id) := by
  unfold Hub.dropRef
  split
  · exact Quiet.refl h
  · split
    · exact freeFrame_quiet sd id h
    · constructor <;> rfl

/-! ## The pressure state (R33) -/

/-- What the taking of cells does to the pressure state: cells held does not fall, and `e` says whether PRESSURE was
entered, which is where cells held came to the high mark. -/
structure PressureStep (c c' : CellMemory) (e : Option Nat) : Prop where
  held : c.held ≤ c'.held
  high : c'.high = c.high
  pressed : c.pressure = .pressure → c'.pressure = .pressure ∧ e = none
  below : c.pressure = .normal → c.held < c.high → c'.held < c.high → c'.pressure = .normal ∧ e = none
  above : c.pressure = .normal → c.held < c.high → c.high ≤ c'.held → c'.pressure = .pressure ∧ e.isSome = true

theorem PressureStep.refl (c : CellMemory) : PressureStep c c none :=
  ⟨le_rfl, rfl, fun h => ⟨h, rfl⟩, fun h _ _ => ⟨h, rfl⟩, fun _ h g => by omega⟩

theorem PressureStep.trans {a b c : CellMemory} {e f : Option Nat} (h : PressureStep a b e) (g : PressureStep b c f) :
    PressureStep a c (e.or f) := by
  refine ⟨h.held.trans g.held, g.high.trans h.high, fun p => ?_, fun p l m => ?_, fun p l m => ?_⟩
  · obtain ⟨p1, rfl⟩ := h.pressed p
    exact g.pressed p1
  · have := g.held
    obtain ⟨p1, rfl⟩ := h.below p l (by omega)
    have hh := h.high
    exact g.below p1 (by omega) (by omega)
  · by_cases hb : b.held < a.high
    · obtain ⟨p1, rfl⟩ := h.below p l hb
      have hh := h.high
      simpa using g.above p1 (by omega) (by omega)
    · obtain ⟨p1, he⟩ := h.above p l (by omega)
      obtain ⟨p2, rfl⟩ := g.pressed p1
      exact ⟨p2, by simpa using he⟩

theorem takeCells_pressure (n : Nat) (c : CellMemory) : PressureStep c (takeCells n c).2.1 (takeCells n c).2.2 := by
  induction n generalizing c with
  | zero => exact .refl c
  | succ n ih =>
    unfold takeCells CellMemory.pop
    cases hf : c.free with
    | nil => exact .refl c
    | cons x rest =>
      simp only
      generalize hc : ({ c with free := rest, faults := _ } : CellMemory) = c1
      refine PressureStep.trans ?_ (ih c1.testEnter.1)
      have h1 : c1.pressure = c.pressure ∧ c1.high = c.high ∧ c.held ≤ c1.held := by
        subst hc; simp [CellMemory.held, hf]; omega
      obtain ⟨h1, h2, h3⟩ := h1
      unfold CellMemory.testEnter
      split
      · rename_i hh
        refine ⟨h3, h2, fun p => ?_, fun p _ m => ?_, fun p _ m => ⟨rfl, rfl⟩⟩
        · simp_all
        · have : c1.held < c.high := m
          omega
      · rename_i hh
        refine ⟨h3, h2, fun p => ⟨by rw [h1, p], rfl⟩, fun p _ m => ⟨by rw [h1, p], rfl⟩, fun p _ m => ?_⟩
        have m' : c.high ≤ c1.held := m
        exact absurd ⟨by rw [h1, p], by omega⟩ hh

/-- The same of hubs, with the flag PRESSURE_SEEN kept. -/
def Presses (h h' : Hub) (e : Option Nat) : Prop :=
  PressureStep h.cells h'.cells e ∧ h'.flagOf .pressureSeen = h.flagOf .pressureSeen

theorem Presses.refl (h : Hub) : Presses h h none := ⟨.refl _, rfl⟩

theorem Presses.trans {a b c : Hub} {e f : Option Nat} (h : Presses a b e) (g : Presses b c f) :
    Presses a c (e.or f) :=
  ⟨h.1.trans g.1, g.2.trans h.2⟩

theorem tryNotice_presses {sd : Sender} {dst : LinkAddr} {n : Notice} {h h' : Hub} {e : Option Nat}
    (ht : h.tryNotice sd dst n = some (h', e)) : Presses h h' e := by
  unfold Hub.tryNotice Hub.build at ht
  split at ht
  · simp only at ht
    split at ht
    · cases ht
    · rename_i hb
      split at hb
      · cases hb
      · simp only [Option.some.injEq, Prod.mk.injEq] at hb ht
        obtain ⟨rfl, rfl, rfl⟩ := hb
        obtain ⟨rfl, rfl⟩ := ht
        have k := takeCells_pressure
          (cellsFor ((mgmtFrame dst sd.identity n.code 0 0 sd.carriage n.body).length + 4)) h.cells
        exact ⟨⟨k.held, k.high, k.pressed, k.below, k.above⟩, rfl⟩
  · cases ht

theorem loseNotice_presses (h : Hub) : Presses h h.loseNotice none := by
  refine ⟨.refl _, ?_⟩
  simp [Hub.loseNotice, Hub.flag, Hub.flagOf, Flag.index]

theorem reportLost_presses (sd : Sender) (h : Hub) : Presses h (h.reportLost sd).1 (h.reportLost sd).2 := by
  unfold Hub.reportLost
  split
  · exact .refl h
  · split
    · exact .refl h
    · split
      · exact .refl h
      · rename_i h1 e ht
        have q := tryNotice_presses ht
        exact ⟨q.1, q.2⟩

theorem raiseCore_presses (sd : Sender) (n : Notice) (h : Hub) :
    Presses h (h.raiseCore sd n).1 (h.raiseCore sd n).2 := by
  unfold Hub.raiseCore
  split
  · exact .refl h
  · have q := reportLost_presses sd h
    simp only
    split
    · simpa using q.trans (loseNotice_presses _)
    · split
      · simpa using q.trans (loseNotice_presses _)
      · rename_i h2 e2 ht
        exact q.trans (tryNotice_presses ht)

/-- A notice raised in NORMAL below the high mark (R33): PRESSURE is entered exactly where its cells bring cells held to
that mark, and PRESSURE_SEEN counts one there and nowhere else. -/
theorem raise_pressure (sd : Sender) (n : Notice) (h : Hub) (hn : h.cells.pressure = .normal)
    (hl : h.cells.held < h.cells.high) :
    let u := h.raise sd n
    (u.cells.held < h.cells.high → u.cells.pressure = .normal ∧ u.flagOf .pressureSeen = h.flagOf .pressureSeen) ∧
    (h.cells.high ≤ u.cells.held → u.cells.pressure = .pressure ∧
      u.flagOf .pressureSeen = (h.flagOf .pressureSeen).occur) := by
  simp only
  unfold Hub.raise
  have q := raiseCore_presses sd n h
  generalize h.raiseCore sd n = r at q ⊢
  obtain ⟨g, e⟩ := r
  simp only at q ⊢
  by_cases hg : g.cells.held < h.cells.high
  · obtain ⟨p, he⟩ := q.1.below hn hl hg
    subst he
    exact ⟨fun _ => ⟨p, q.2⟩, fun hh => by simp only [Hub.noteEntered] at hh; omega⟩
  · obtain ⟨p, he⟩ := q.1.above hn hl (by omega)
    obtain ⟨x, rfl⟩ := Option.isSome_iff_exists.mp he
    simp only [Hub.noteEntered]
    have q2 := raiseCore_presses sd (.pressure true x g.cells.high g.cells.low) (g.flag .pressureSeen)
    generalize (g.flag .pressureSeen).raiseCore sd (.pressure true x g.cells.high g.cells.low) = r2 at q2 ⊢
    obtain ⟨pp, _⟩ := q2.1.pressed p
    have := q2.1.held
    refine ⟨fun hh => ?_, fun _ => ⟨pp, ?_⟩⟩
    · simp at this; omega
    · rw [q2.2]
      have := q.2
      simp [Hub.flag, Hub.flagOf, Flag.index] at this ⊢
      rw [this]

/-! ## Notices go nowhere without a report address (R175) -/

/-- With no report address a notice is not built, and is not lost either: nothing changes. -/
theorem raise_none {sd : Sender} {n : Notice} {h : Hub} (hr : h.mgmt.reportAddr = none) : h.raise sd n = h := by
  unfold Hub.raise Hub.raiseCore
  simp [hr, Hub.noteEntered]

/-! ## The canonical form of the bytes is kept -/

theorem build_wf {kind : FrameKind} {bytes : List Byte} {h h' : Hub} {id : Nat} {e : Option Nat}
    (hb : h.build kind bytes = some (id, h', e)) (hw : h.cells.data.wf = true) : h'.cells.data.wf = true := by
  obtain ⟨c, _, _, _, _, _, _, hd, _⟩ := build_spec hb
  rw [hd]
  exact writeChain_wf hw c bytes

theorem tryNotice_wf {sd : Sender} {dst : LinkAddr} {n : Notice} {h h' : Hub} {e : Option Nat}
    (ht : h.tryNotice sd dst n = some (h', e)) (hw : h.cells.data.wf = true) : h'.cells.data.wf = true := by
  unfold Hub.tryNotice at ht
  split at ht
  · split at ht
    · cases ht
    · rename_i id h1 e1 hb
      obtain ⟨rfl, rfl⟩ := by simpa using ht
      have q := build_wf hb hw
      exact q
  · cases ht

theorem reportLost_wf (sd : Sender) {h : Hub} (hw : h.cells.data.wf = true) :
    (h.reportLost sd).1.cells.data.wf = true := by
  unfold Hub.reportLost
  split
  · exact hw
  · split
    · exact hw
    · split
      · exact hw
      · rename_i h1 e ht
        have q := tryNotice_wf ht hw
        exact q

theorem raiseCore_wf (sd : Sender) (n : Notice) {h : Hub} (hw : h.cells.data.wf = true) :
    (h.raiseCore sd n).1.cells.data.wf = true := by
  unfold Hub.raiseCore
  split
  · exact hw
  · have q := reportLost_wf sd hw
    simp only
    split
    · exact q
    · split
      · exact q
      · rename_i h2 e2 ht
        exact tryNotice_wf ht q

theorem noteEntered_wf (sd : Sender) (e : Option Nat) {h : Hub} (hw : h.cells.data.wf = true) :
    (h.noteEntered sd e).cells.data.wf = true := by
  unfold Hub.noteEntered
  split
  · exact hw
  · exact raiseCore_wf sd _ hw

theorem raise_wf (sd : Sender) (n : Notice) {h : Hub} (hw : h.cells.data.wf = true) :
    (h.raise sd n).cells.data.wf = true := noteEntered_wf sd _ (raiseCore_wf sd n hw)

theorem giveBack_wf (sd : Sender) (failed chain : List Nat) {h : Hub} (hw : h.cells.data.wf = true) :
    (h.giveBack sd failed chain).cells.data.wf = true := by
  unfold Hub.giveBack Hub.noteLeft
  have s := (returnCells_perm failed chain h.cells).2
  have q : (Hub.flagN .memoryDegraded (returnCells failed chain h.cells).2.2
      { h with cells := (returnCells failed chain h.cells).1 }).cells.data.wf = true := by
    simp [s.data, hw]
  simp only
  split
  · exact q
  · exact raise_wf sd _ q

theorem freeFrame_wf (sd : Sender) (id : Nat) {h : Hub} (hw : h.cells.data.wf = true) :
    (h.freeFrame sd id).cells.data.wf = true := by
  unfold Hub.freeFrame
  split
  · exact hw
  · exact giveBack_wf sd _ _ hw

/-- Dropping a reference keeps the canonical form of the bytes. -/
theorem dropRef_wf (sd : Sender) (id : Nat) {h : Hub} (hw : h.cells.data.wf = true) :
    (h.dropRef sd id).cells.data.wf = true := by
  unfold Hub.dropRef
  split
  · exact hw
  · split
    · exact freeFrame_wf sd id hw
    · exact hw

end Sys2Proof.Laws
end

