-- ==== Sys2Proof/Laws/State.lean ====
section
/-! SUPPORT. What each update of the state leaves alone: one lemma per field per update, true by `rfl`, so that no later
proof unfolds a record update. -/

namespace Sys2Proof.Laws

open Sys2Proof Sys2Proof.Machine

variable (s : State)

/-! `onHub` -/

@[simp] theorem onHub_pending (g : Hub → Hub) : (onHub g s).pending = s.pending := rfl
@[simp] theorem onHub_now (g : Hub → Hub) : (onHub g s).now = s.now := rfl
@[simp] theorem onHub_identity (g : Hub → Hub) : (onHub g s).identity = s.identity := rfl
@[simp] theorem onHub_ports (g : Hub → Hub) : (onHub g s).ports = s.ports := rfl
@[simp] theorem onHub_table (g : Hub → Hub) : (onHub g s).table = s.table := rfl
@[simp] theorem onHub_windows (g : Hub → Hub) : (onHub g s).windows = s.windows := rfl
@[simp] theorem onHub_sched (g : Hub → Hub) : (onHub g s).sched = s.sched := rfl
@[simp] theorem onHub_up (g : Hub → Hub) : (onHub g s).up = s.up := rfl
@[simp] theorem onHub_consist (g : Hub → Hub) : (onHub g s).consist = s.consist := rfl
@[simp] theorem onHub_hold (g : Hub → Hub) : (onHub g s).hold = s.hold := rfl

/-! `onPorts` -/

@[simp] theorem onPorts_pending (g : Ports → Ports) : (onPorts g s).pending = s.pending := rfl
@[simp] theorem onPorts_now (g : Ports → Ports) : (onPorts g s).now = s.now := rfl
@[simp] theorem onPorts_identity (g : Ports → Ports) : (onPorts g s).identity = s.identity := rfl
@[simp] theorem onPorts_hub (g : Ports → Ports) : (onPorts g s).hub = s.hub := rfl
@[simp] theorem onPorts_table (g : Ports → Ports) : (onPorts g s).table = s.table := rfl
@[simp] theorem onPorts_windows (g : Ports → Ports) : (onPorts g s).windows = s.windows := rfl
@[simp] theorem onPorts_sched (g : Ports → Ports) : (onPorts g s).sched = s.sched := rfl
@[simp] theorem onPorts_up (g : Ports → Ports) : (onPorts g s).up = s.up := rfl
@[simp] theorem onPorts_consist (g : Ports → Ports) : (onPorts g s).consist = s.consist := rfl
@[simp] theorem onPorts_hold (g : Ports → Ports) : (onPorts g s).hold = s.hold := rfl

/-! `onTable` -/

@[simp] theorem onTable_pending (g : StationTable → StationTable) : (onTable g s).pending = s.pending := rfl
@[simp] theorem onTable_now (g : StationTable → StationTable) : (onTable g s).now = s.now := rfl
@[simp] theorem onTable_identity (g : StationTable → StationTable) : (onTable g s).identity = s.identity := rfl
@[simp] theorem onTable_hub (g : StationTable → StationTable) : (onTable g s).hub = s.hub := rfl
@[simp] theorem onTable_ports (g : StationTable → StationTable) : (onTable g s).ports = s.ports := rfl
@[simp] theorem onTable_windows (g : StationTable → StationTable) : (onTable g s).windows = s.windows := rfl
@[simp] theorem onTable_sched (g : StationTable → StationTable) : (onTable g s).sched = s.sched := rfl
@[simp] theorem onTable_up (g : StationTable → StationTable) : (onTable g s).up = s.up := rfl
@[simp] theorem onTable_consist (g : StationTable → StationTable) : (onTable g s).consist = s.consist := rfl
@[simp] theorem onTable_hold (g : StationTable → StationTable) : (onTable g s).hold = s.hold := rfl

/-! `raiseNotice` -/

@[simp] theorem raiseNotice_pending (n : Notice) : (raiseNotice n s).pending = s.pending := rfl
@[simp] theorem raiseNotice_now (n : Notice) : (raiseNotice n s).now = s.now := rfl
@[simp] theorem raiseNotice_identity (n : Notice) : (raiseNotice n s).identity = s.identity := rfl
@[simp] theorem raiseNotice_ports (n : Notice) : (raiseNotice n s).ports = s.ports := rfl
@[simp] theorem raiseNotice_table (n : Notice) : (raiseNotice n s).table = s.table := rfl
@[simp] theorem raiseNotice_windows (n : Notice) : (raiseNotice n s).windows = s.windows := rfl
@[simp] theorem raiseNotice_sched (n : Notice) : (raiseNotice n s).sched = s.sched := rfl
@[simp] theorem raiseNotice_up (n : Notice) : (raiseNotice n s).up = s.up := rfl
@[simp] theorem raiseNotice_consist (n : Notice) : (raiseNotice n s).consist = s.consist := rfl
@[simp] theorem raiseNotice_hold (n : Notice) : (raiseNotice n s).hold = s.hold := rfl

/-! `tally` -/

@[simp] theorem tally_pending (r : Discard) : (tally r s).pending = s.pending := rfl
@[simp] theorem tally_now (r : Discard) : (tally r s).now = s.now := rfl
@[simp] theorem tally_identity (r : Discard) : (tally r s).identity = s.identity := rfl
@[simp] theorem tally_ports (r : Discard) : (tally r s).ports = s.ports := rfl
@[simp] theorem tally_table (r : Discard) : (tally r s).table = s.table := rfl
@[simp] theorem tally_windows (r : Discard) : (tally r s).windows = s.windows := rfl
@[simp] theorem tally_sched (r : Discard) : (tally r s).sched = s.sched := rfl
@[simp] theorem tally_up (r : Discard) : (tally r s).up = s.up := rfl
@[simp] theorem tally_consist (r : Discard) : (tally r s).consist = s.consist := rfl
@[simp] theorem tally_hold (r : Discard) : (tally r s).hold = s.hold := rfl

/-! `txDrop` -/

@[simp] theorem txDrop_pending (p : Port) : (txDrop p s).pending = s.pending := rfl
@[simp] theorem txDrop_now (p : Port) : (txDrop p s).now = s.now := rfl
@[simp] theorem txDrop_identity (p : Port) : (txDrop p s).identity = s.identity := rfl
@[simp] theorem txDrop_hub (p : Port) : (txDrop p s).hub = s.hub := rfl
@[simp] theorem txDrop_table (p : Port) : (txDrop p s).table = s.table := rfl
@[simp] theorem txDrop_windows (p : Port) : (txDrop p s).windows = s.windows := rfl
@[simp] theorem txDrop_sched (p : Port) : (txDrop p s).sched = s.sched := rfl
@[simp] theorem txDrop_up (p : Port) : (txDrop p s).up = s.up := rfl
@[simp] theorem txDrop_consist (p : Port) : (txDrop p s).consist = s.consist := rfl
@[simp] theorem txDrop_hold (p : Port) : (txDrop p s).hold = s.hold := rfl

/-! `rxDiscard` -/

@[simp] theorem rxDiscard_pending (p : Port) : (rxDiscard p s).pending = s.pending := rfl
@[simp] theorem rxDiscard_now (p : Port) : (rxDiscard p s).now = s.now := rfl
@[simp] theorem rxDiscard_identity (p : Port) : (rxDiscard p s).identity = s.identity := rfl
@[simp] theorem rxDiscard_hub (p : Port) : (rxDiscard p s).hub = s.hub := rfl
@[simp] theorem rxDiscard_table (p : Port) : (rxDiscard p s).table = s.table := rfl
@[simp] theorem rxDiscard_windows (p : Port) : (rxDiscard p s).windows = s.windows := rfl
@[simp] theorem rxDiscard_sched (p : Port) : (rxDiscard p s).sched = s.sched := rfl
@[simp] theorem rxDiscard_up (p : Port) : (rxDiscard p s).up = s.up := rfl
@[simp] theorem rxDiscard_consist (p : Port) : (rxDiscard p s).consist = s.consist := rfl
@[simp] theorem rxDiscard_hold (p : Port) : (rxDiscard p s).hold = s.hold := rfl

/-! `discardEntry` -/

@[simp] theorem discardEntry_pending (r : Discard) (b : Option Port) (id : Nat) : (discardEntry r b id s).pending = s.pending := rfl
@[simp] theorem discardEntry_now (r : Discard) (b : Option Port) (id : Nat) : (discardEntry r b id s).now = s.now := rfl
@[simp] theorem discardEntry_identity (r : Discard) (b : Option Port) (id : Nat) : (discardEntry r b id s).identity = s.identity := rfl
@[simp] theorem discardEntry_windows (r : Discard) (b : Option Port) (id : Nat) : (discardEntry r b id s).windows = s.windows := rfl
@[simp] theorem discardEntry_sched (r : Discard) (b : Option Port) (id : Nat) : (discardEntry r b id s).sched = s.sched := rfl
@[simp] theorem discardEntry_up (r : Discard) (b : Option Port) (id : Nat) : (discardEntry r b id s).up = s.up := rfl
@[simp] theorem discardEntry_consist (r : Discard) (b : Option Port) (id : Nat) : (discardEntry r b id s).consist = s.consist := rfl
@[simp] theorem discardEntry_hold (r : Discard) (b : Option Port) (id : Nat) : (discardEntry r b id s).hold = s.hold := rfl

/-! `discardFrame` -/

@[simp] theorem discardFrame_pending (r : Discard) (p : Port) (b : Option Port) (o : Option (Fin 256)) (id : Nat) : (discardFrame r p b o id s).pending = s.pending := rfl
@[simp] theorem discardFrame_now (r : Discard) (p : Port) (b : Option Port) (o : Option (Fin 256)) (id : Nat) : (discardFrame r p b o id s).now = s.now := rfl
@[simp] theorem discardFrame_identity (r : Discard) (p : Port) (b : Option Port) (o : Option (Fin 256)) (id : Nat) : (discardFrame r p b o id s).identity = s.identity := rfl
@[simp] theorem discardFrame_windows (r : Discard) (p : Port) (b : Option Port) (o : Option (Fin 256)) (id : Nat) : (discardFrame r p b o id s).windows = s.windows := rfl
@[simp] theorem discardFrame_sched (r : Discard) (p : Port) (b : Option Port) (o : Option (Fin 256)) (id : Nat) : (discardFrame r p b o id s).sched = s.sched := rfl
@[simp] theorem discardFrame_up (r : Discard) (p : Port) (b : Option Port) (o : Option (Fin 256)) (id : Nat) : (discardFrame r p b o id s).up = s.up := rfl
@[simp] theorem discardFrame_consist (r : Discard) (p : Port) (b : Option Port) (o : Option (Fin 256)) (id : Nat) : (discardFrame r p b o id s).consist = s.consist := rfl
@[simp] theorem discardFrame_hold (r : Discard) (p : Port) (b : Option Port) (o : Option (Fin 256)) (id : Nat) : (discardFrame r p b o id s).hold = s.hold := rfl

/-! `setRx` -/

@[simp] theorem setRx_pending (p : Port) (r : Reception) : (setRx p r s).pending = s.pending := rfl
@[simp] theorem setRx_now (p : Port) (r : Reception) : (setRx p r s).now = s.now := rfl
@[simp] theorem setRx_identity (p : Port) (r : Reception) : (setRx p r s).identity = s.identity := rfl
@[simp] theorem setRx_hub (p : Port) (r : Reception) : (setRx p r s).hub = s.hub := rfl
@[simp] theorem setRx_table (p : Port) (r : Reception) : (setRx p r s).table = s.table := rfl
@[simp] theorem setRx_windows (p : Port) (r : Reception) : (setRx p r s).windows = s.windows := rfl
@[simp] theorem setRx_sched (p : Port) (r : Reception) : (setRx p r s).sched = s.sched := rfl
@[simp] theorem setRx_up (p : Port) (r : Reception) : (setRx p r s).up = s.up := rfl
@[simp] theorem setRx_consist (p : Port) (r : Reception) : (setRx p r s).consist = s.consist := rfl
@[simp] theorem setRx_hold (p : Port) (r : Reception) : (setRx p r s).hold = s.hold := rfl

/-! `setTx` -/

@[simp] theorem setTx_pending (p : Port) (t : Option Transmission) : (setTx p t s).pending = s.pending := rfl
@[simp] theorem setTx_now (p : Port) (t : Option Transmission) : (setTx p t s).now = s.now := rfl
@[simp] theorem setTx_identity (p : Port) (t : Option Transmission) : (setTx p t s).identity = s.identity := rfl
@[simp] theorem setTx_hub (p : Port) (t : Option Transmission) : (setTx p t s).hub = s.hub := rfl
@[simp] theorem setTx_table (p : Port) (t : Option Transmission) : (setTx p t s).table = s.table := rfl
@[simp] theorem setTx_windows (p : Port) (t : Option Transmission) : (setTx p t s).windows = s.windows := rfl
@[simp] theorem setTx_sched (p : Port) (t : Option Transmission) : (setTx p t s).sched = s.sched := rfl
@[simp] theorem setTx_up (p : Port) (t : Option Transmission) : (setTx p t s).up = s.up := rfl
@[simp] theorem setTx_consist (p : Port) (t : Option Transmission) : (setTx p t s).consist = s.consist := rfl
@[simp] theorem setTx_hold (p : Port) (t : Option Transmission) : (setTx p t s).hold = s.hold := rfl

/-! `setLink` -/

@[simp] theorem setLink_pending (p : Port) (l : Link) : (setLink p l s).pending = s.pending := rfl
@[simp] theorem setLink_now (p : Port) (l : Link) : (setLink p l s).now = s.now := rfl
@[simp] theorem setLink_identity (p : Port) (l : Link) : (setLink p l s).identity = s.identity := rfl
@[simp] theorem setLink_hub (p : Port) (l : Link) : (setLink p l s).hub = s.hub := rfl
@[simp] theorem setLink_table (p : Port) (l : Link) : (setLink p l s).table = s.table := rfl
@[simp] theorem setLink_windows (p : Port) (l : Link) : (setLink p l s).windows = s.windows := rfl
@[simp] theorem setLink_sched (p : Port) (l : Link) : (setLink p l s).sched = s.sched := rfl
@[simp] theorem setLink_up (p : Port) (l : Link) : (setLink p l s).up = s.up := rfl
@[simp] theorem setLink_consist (p : Port) (l : Link) : (setLink p l s).consist = s.consist := rfl
@[simp] theorem setLink_hold (p : Port) (l : Link) : (setLink p l s).hold = s.hold := rfl

/-! `giveBackCells` -/

@[simp] theorem giveBackCells_pending (c : List Nat) : (giveBackCells c s).pending = s.pending := rfl
@[simp] theorem giveBackCells_now (c : List Nat) : (giveBackCells c s).now = s.now := rfl
@[simp] theorem giveBackCells_identity (c : List Nat) : (giveBackCells c s).identity = s.identity := rfl
@[simp] theorem giveBackCells_ports (c : List Nat) : (giveBackCells c s).ports = s.ports := rfl
@[simp] theorem giveBackCells_table (c : List Nat) : (giveBackCells c s).table = s.table := rfl
@[simp] theorem giveBackCells_windows (c : List Nat) : (giveBackCells c s).windows = s.windows := rfl
@[simp] theorem giveBackCells_sched (c : List Nat) : (giveBackCells c s).sched = s.sched := rfl
@[simp] theorem giveBackCells_up (c : List Nat) : (giveBackCells c s).up = s.up := rfl
@[simp] theorem giveBackCells_consist (c : List Nat) : (giveBackCells c s).consist = s.consist := rfl
@[simp] theorem giveBackCells_hold (c : List Nat) : (giveBackCells c s).hold = s.hold := rfl

/-! `discardWire` -/

@[simp] theorem discardWire_pending (p : Port) (c : List Nat) : (discardWire p c s).pending = s.pending := rfl
@[simp] theorem discardWire_now (p : Port) (c : List Nat) : (discardWire p c s).now = s.now := rfl
@[simp] theorem discardWire_identity (p : Port) (c : List Nat) : (discardWire p c s).identity = s.identity := rfl
@[simp] theorem discardWire_table (p : Port) (c : List Nat) : (discardWire p c s).table = s.table := rfl
@[simp] theorem discardWire_windows (p : Port) (c : List Nat) : (discardWire p c s).windows = s.windows := rfl
@[simp] theorem discardWire_sched (p : Port) (c : List Nat) : (discardWire p c s).sched = s.sched := rfl
@[simp] theorem discardWire_up (p : Port) (c : List Nat) : (discardWire p c s).up = s.up := rfl
@[simp] theorem discardWire_consist (p : Port) (c : List Nat) : (discardWire p c s).consist = s.consist := rfl
@[simp] theorem discardWire_hold (p : Port) (c : List Nat) : (discardWire p c s).hold = s.hold := rfl

/-! `storeFrame` -/

@[simp] theorem storeFrame_pending (p : Port) (c : List Nat) (f : List Byte) : (storeFrame p c f s).pending = s.pending := rfl
@[simp] theorem storeFrame_now (p : Port) (c : List Nat) (f : List Byte) : (storeFrame p c f s).now = s.now := rfl
@[simp] theorem storeFrame_identity (p : Port) (c : List Nat) (f : List Byte) : (storeFrame p c f s).identity = s.identity := rfl
@[simp] theorem storeFrame_table (p : Port) (c : List Nat) (f : List Byte) : (storeFrame p c f s).table = s.table := rfl
@[simp] theorem storeFrame_windows (p : Port) (c : List Nat) (f : List Byte) : (storeFrame p c f s).windows = s.windows := rfl
@[simp] theorem storeFrame_sched (p : Port) (c : List Nat) (f : List Byte) : (storeFrame p c f s).sched = s.sched := rfl
@[simp] theorem storeFrame_up (p : Port) (c : List Nat) (f : List Byte) : (storeFrame p c f s).up = s.up := rfl
@[simp] theorem storeFrame_consist (p : Port) (c : List Nat) (f : List Byte) : (storeFrame p c f s).consist = s.consist := rfl
@[simp] theorem storeFrame_hold (p : Port) (c : List Nat) (f : List Byte) : (storeFrame p c f s).hold = s.hold := rfl

/-! `countClassified` -/

@[simp] theorem countClassified_pending (u : Bool) (r : Classified) : (countClassified u r s).pending = s.pending := rfl
@[simp] theorem countClassified_now (u : Bool) (r : Classified) : (countClassified u r s).now = s.now := rfl
@[simp] theorem countClassified_identity (u : Bool) (r : Classified) : (countClassified u r s).identity = s.identity := rfl
@[simp] theorem countClassified_hub (u : Bool) (r : Classified) : (countClassified u r s).hub = s.hub := rfl
@[simp] theorem countClassified_ports (u : Bool) (r : Classified) : (countClassified u r s).ports = s.ports := rfl
@[simp] theorem countClassified_table (u : Bool) (r : Classified) : (countClassified u r s).table = s.table := rfl
@[simp] theorem countClassified_sched (u : Bool) (r : Classified) : (countClassified u r s).sched = s.sched := rfl
@[simp] theorem countClassified_up (u : Bool) (r : Classified) : (countClassified u r s).up = s.up := rfl
@[simp] theorem countClassified_consist (u : Bool) (r : Classified) : (countClassified u r s).consist = s.consist := rfl
@[simp] theorem countClassified_hold (u : Bool) (r : Classified) : (countClassified u r s).hold = s.hold := rfl

/-! `enterUpward` -/

@[simp] theorem enterUpward_pending (k : Fin 256) (st : Station) (id L : Nat) (m : Bool) : (enterUpward k st id L m s).pending = s.pending := rfl
@[simp] theorem enterUpward_now (k : Fin 256) (st : Station) (id L : Nat) (m : Bool) : (enterUpward k st id L m s).now = s.now := rfl
@[simp] theorem enterUpward_identity (k : Fin 256) (st : Station) (id L : Nat) (m : Bool) : (enterUpward k st id L m s).identity = s.identity := rfl
@[simp] theorem enterUpward_ports (k : Fin 256) (st : Station) (id L : Nat) (m : Bool) : (enterUpward k st id L m s).ports = s.ports := rfl
@[simp] theorem enterUpward_windows (k : Fin 256) (st : Station) (id L : Nat) (m : Bool) : (enterUpward k st id L m s).windows = s.windows := rfl
@[simp] theorem enterUpward_sched (k : Fin 256) (st : Station) (id L : Nat) (m : Bool) : (enterUpward k st id L m s).sched = s.sched := rfl
@[simp] theorem enterUpward_consist (k : Fin 256) (st : Station) (id L : Nat) (m : Bool) : (enterUpward k st id L m s).consist = s.consist := rfl
@[simp] theorem enterUpward_hold (k : Fin 256) (st : Station) (id L : Nat) (m : Bool) : (enterUpward k st id L m s).hold = s.hold := rfl

/-! `afterEnqueue` -/

@[simp] theorem afterEnqueue_pending (y : End) : (afterEnqueue y s).pending = s.pending := rfl
@[simp] theorem afterEnqueue_now (y : End) : (afterEnqueue y s).now = s.now := rfl
@[simp] theorem afterEnqueue_identity (y : End) : (afterEnqueue y s).identity = s.identity := rfl
@[simp] theorem afterEnqueue_hub (y : End) : (afterEnqueue y s).hub = s.hub := rfl
@[simp] theorem afterEnqueue_table (y : End) : (afterEnqueue y s).table = s.table := rfl
@[simp] theorem afterEnqueue_windows (y : End) : (afterEnqueue y s).windows = s.windows := rfl
@[simp] theorem afterEnqueue_sched (y : End) : (afterEnqueue y s).sched = s.sched := rfl
@[simp] theorem afterEnqueue_up (y : End) : (afterEnqueue y s).up = s.up := rfl
@[simp] theorem afterEnqueue_consist (y : End) : (afterEnqueue y s).consist = s.consist := rfl
@[simp] theorem afterEnqueue_hold (y : End) : (afterEnqueue y s).hold = s.hold := rfl

/-! `afterFall` -/

@[simp] theorem afterFall_pending (y : End) : (afterFall y s).pending = s.pending := rfl
@[simp] theorem afterFall_now (y : End) : (afterFall y s).now = s.now := rfl
@[simp] theorem afterFall_identity (y : End) : (afterFall y s).identity = s.identity := rfl
@[simp] theorem afterFall_hub (y : End) : (afterFall y s).hub = s.hub := rfl
@[simp] theorem afterFall_table (y : End) : (afterFall y s).table = s.table := rfl
@[simp] theorem afterFall_windows (y : End) : (afterFall y s).windows = s.windows := rfl
@[simp] theorem afterFall_sched (y : End) : (afterFall y s).sched = s.sched := rfl
@[simp] theorem afterFall_up (y : End) : (afterFall y s).up = s.up := rfl
@[simp] theorem afterFall_consist (y : End) : (afterFall y s).consist = s.consist := rfl
@[simp] theorem afterFall_hold (y : End) : (afterFall y s).hold = s.hold := rfl

/-! `enterTransit` -/

@[simp] theorem enterTransit_pending (y : End) (id : Nat) : (enterTransit y id s).pending = s.pending := rfl
@[simp] theorem enterTransit_now (y : End) (id : Nat) : (enterTransit y id s).now = s.now := rfl
@[simp] theorem enterTransit_identity (y : End) (id : Nat) : (enterTransit y id s).identity = s.identity := rfl
@[simp] theorem enterTransit_table (y : End) (id : Nat) : (enterTransit y id s).table = s.table := rfl
@[simp] theorem enterTransit_windows (y : End) (id : Nat) : (enterTransit y id s).windows = s.windows := rfl
@[simp] theorem enterTransit_sched (y : End) (id : Nat) : (enterTransit y id s).sched = s.sched := rfl
@[simp] theorem enterTransit_up (y : End) (id : Nat) : (enterTransit y id s).up = s.up := rfl
@[simp] theorem enterTransit_consist (y : End) (id : Nat) : (enterTransit y id s).consist = s.consist := rfl
@[simp] theorem enterTransit_hold (y : End) (id : Nat) : (enterTransit y id s).hold = s.hold := rfl

/-! `copyNotMade` -/

@[simp] theorem copyNotMade_pending (r : Discard) (p : Port) : (copyNotMade r p s).pending = s.pending := rfl
@[simp] theorem copyNotMade_now (r : Discard) (p : Port) : (copyNotMade r p s).now = s.now := rfl
@[simp] theorem copyNotMade_identity (r : Discard) (p : Port) : (copyNotMade r p s).identity = s.identity := rfl
@[simp] theorem copyNotMade_table (r : Discard) (p : Port) : (copyNotMade r p s).table = s.table := rfl
@[simp] theorem copyNotMade_windows (r : Discard) (p : Port) : (copyNotMade r p s).windows = s.windows := rfl
@[simp] theorem copyNotMade_sched (r : Discard) (p : Port) : (copyNotMade r p s).sched = s.sched := rfl
@[simp] theorem copyNotMade_up (r : Discard) (p : Port) : (copyNotMade r p s).up = s.up := rfl
@[simp] theorem copyNotMade_consist (r : Discard) (p : Port) : (copyNotMade r p s).consist = s.consist := rfl
@[simp] theorem copyNotMade_hold (r : Discard) (p : Port) : (copyNotMade r p s).hold = s.hold := rfl

/-! `freeIfUnplaced` -/

@[simp] theorem freeIfUnplaced_pending (p : Port) (id : Nat) : (freeIfUnplaced p id s).pending = s.pending := rfl
@[simp] theorem freeIfUnplaced_now (p : Port) (id : Nat) : (freeIfUnplaced p id s).now = s.now := rfl
@[simp] theorem freeIfUnplaced_identity (p : Port) (id : Nat) : (freeIfUnplaced p id s).identity = s.identity := rfl
@[simp] theorem freeIfUnplaced_table (p : Port) (id : Nat) : (freeIfUnplaced p id s).table = s.table := rfl
@[simp] theorem freeIfUnplaced_windows (p : Port) (id : Nat) : (freeIfUnplaced p id s).windows = s.windows := rfl
@[simp] theorem freeIfUnplaced_sched (p : Port) (id : Nat) : (freeIfUnplaced p id s).sched = s.sched := rfl
@[simp] theorem freeIfUnplaced_up (p : Port) (id : Nat) : (freeIfUnplaced p id s).up = s.up := rfl
@[simp] theorem freeIfUnplaced_consist (p : Port) (id : Nat) : (freeIfUnplaced p id s).consist = s.consist := rfl
@[simp] theorem freeIfUnplaced_hold (p : Port) (id : Nat) : (freeIfUnplaced p id s).hold = s.hold := rfl

/-! `enterInput` -/

@[simp] theorem enterInput_pending (id : Nat) (l : Level) (p : Port) : (enterInput id l p s).pending = s.pending := rfl
@[simp] theorem enterInput_now (id : Nat) (l : Level) (p : Port) : (enterInput id l p s).now = s.now := rfl
@[simp] theorem enterInput_identity (id : Nat) (l : Level) (p : Port) : (enterInput id l p s).identity = s.identity := rfl
@[simp] theorem enterInput_ports (id : Nat) (l : Level) (p : Port) : (enterInput id l p s).ports = s.ports := rfl
@[simp] theorem enterInput_table (id : Nat) (l : Level) (p : Port) : (enterInput id l p s).table = s.table := rfl
@[simp] theorem enterInput_windows (id : Nat) (l : Level) (p : Port) : (enterInput id l p s).windows = s.windows := rfl
@[simp] theorem enterInput_sched (id : Nat) (l : Level) (p : Port) : (enterInput id l p s).sched = s.sched := rfl
@[simp] theorem enterInput_up (id : Nat) (l : Level) (p : Port) : (enterInput id l p s).up = s.up := rfl
@[simp] theorem enterInput_consist (id : Nat) (l : Level) (p : Port) : (enterInput id l p s).consist = s.consist := rfl
@[simp] theorem enterInput_hold (id : Nat) (l : Level) (p : Port) : (enterInput id l p s).hold = s.hold := rfl

/-! `inputOverflow` -/

@[simp] theorem inputOverflow_pending : (inputOverflow s).pending = s.pending := rfl
@[simp] theorem inputOverflow_now : (inputOverflow s).now = s.now := rfl
@[simp] theorem inputOverflow_identity : (inputOverflow s).identity = s.identity := rfl
@[simp] theorem inputOverflow_ports : (inputOverflow s).ports = s.ports := rfl
@[simp] theorem inputOverflow_table : (inputOverflow s).table = s.table := rfl
@[simp] theorem inputOverflow_windows : (inputOverflow s).windows = s.windows := rfl
@[simp] theorem inputOverflow_sched : (inputOverflow s).sched = s.sched := rfl
@[simp] theorem inputOverflow_up : (inputOverflow s).up = s.up := rfl
@[simp] theorem inputOverflow_consist : (inputOverflow s).consist = s.consist := rfl
@[simp] theorem inputOverflow_hold : (inputOverflow s).hold = s.hold := rfl

/-! `enterDownward` -/

@[simp] theorem enterDownward_pending (k : Fin 256) (o : Origin) (id L : Nat) (m : Bool) : (enterDownward k o id L m s).pending = s.pending := rfl
@[simp] theorem enterDownward_now (k : Fin 256) (o : Origin) (id L : Nat) (m : Bool) : (enterDownward k o id L m s).now = s.now := rfl
@[simp] theorem enterDownward_identity (k : Fin 256) (o : Origin) (id L : Nat) (m : Bool) : (enterDownward k o id L m s).identity = s.identity := rfl
@[simp] theorem enterDownward_windows (k : Fin 256) (o : Origin) (id L : Nat) (m : Bool) : (enterDownward k o id L m s).windows = s.windows := rfl
@[simp] theorem enterDownward_sched (k : Fin 256) (o : Origin) (id L : Nat) (m : Bool) : (enterDownward k o id L m s).sched = s.sched := rfl
@[simp] theorem enterDownward_up (k : Fin 256) (o : Origin) (id L : Nat) (m : Bool) : (enterDownward k o id L m s).up = s.up := rfl
@[simp] theorem enterDownward_consist (k : Fin 256) (o : Origin) (id L : Nat) (m : Bool) : (enterDownward k o id L m s).consist = s.consist := rfl
@[simp] theorem enterDownward_hold (k : Fin 256) (o : Origin) (id L : Nat) (m : Bool) : (enterDownward k o id L m s).hold = s.hold := rfl

/-! `sendOrder` -/

@[simp] theorem sendOrder_pending (w : Fin 4) (o : Order) : (sendOrder w o s).pending = s.pending := rfl
@[simp] theorem sendOrder_now (w : Fin 4) (o : Order) : (sendOrder w o s).now = s.now := rfl
@[simp] theorem sendOrder_identity (w : Fin 4) (o : Order) : (sendOrder w o s).identity = s.identity := rfl
@[simp] theorem sendOrder_hub (w : Fin 4) (o : Order) : (sendOrder w o s).hub = s.hub := rfl
@[simp] theorem sendOrder_table (w : Fin 4) (o : Order) : (sendOrder w o s).table = s.table := rfl
@[simp] theorem sendOrder_windows (w : Fin 4) (o : Order) : (sendOrder w o s).windows = s.windows := rfl
@[simp] theorem sendOrder_sched (w : Fin 4) (o : Order) : (sendOrder w o s).sched = s.sched := rfl
@[simp] theorem sendOrder_up (w : Fin 4) (o : Order) : (sendOrder w o s).up = s.up := rfl
@[simp] theorem sendOrder_consist (w : Fin 4) (o : Order) : (sendOrder w o s).consist = s.consist := rfl
@[simp] theorem sendOrder_hold (w : Fin 4) (o : Order) : (sendOrder w o s).hold = s.hold := rfl

/-! `cancelOrder` -/

@[simp] theorem cancelOrder_pending (w : Fin 4) (i : Nat) : (cancelOrder w i s).pending = s.pending := rfl
@[simp] theorem cancelOrder_now (w : Fin 4) (i : Nat) : (cancelOrder w i s).now = s.now := rfl
@[simp] theorem cancelOrder_identity (w : Fin 4) (i : Nat) : (cancelOrder w i s).identity = s.identity := rfl
@[simp] theorem cancelOrder_hub (w : Fin 4) (i : Nat) : (cancelOrder w i s).hub = s.hub := rfl
@[simp] theorem cancelOrder_table (w : Fin 4) (i : Nat) : (cancelOrder w i s).table = s.table := rfl
@[simp] theorem cancelOrder_windows (w : Fin 4) (i : Nat) : (cancelOrder w i s).windows = s.windows := rfl
@[simp] theorem cancelOrder_sched (w : Fin 4) (i : Nat) : (cancelOrder w i s).sched = s.sched := rfl
@[simp] theorem cancelOrder_up (w : Fin 4) (i : Nat) : (cancelOrder w i s).up = s.up := rfl
@[simp] theorem cancelOrder_consist (w : Fin 4) (i : Nat) : (cancelOrder w i s).consist = s.consist := rfl
@[simp] theorem cancelOrder_hold (w : Fin 4) (i : Nat) : (cancelOrder w i s).hold = s.hold := rfl

/-! `noticeTaken` -/

@[simp] theorem noticeTaken_pending (w : Fin 4) : (noticeTaken w s).pending = s.pending := rfl
@[simp] theorem noticeTaken_now (w : Fin 4) : (noticeTaken w s).now = s.now := rfl
@[simp] theorem noticeTaken_identity (w : Fin 4) : (noticeTaken w s).identity = s.identity := rfl
@[simp] theorem noticeTaken_hub (w : Fin 4) : (noticeTaken w s).hub = s.hub := rfl
@[simp] theorem noticeTaken_table (w : Fin 4) : (noticeTaken w s).table = s.table := rfl
@[simp] theorem noticeTaken_windows (w : Fin 4) : (noticeTaken w s).windows = s.windows := rfl
@[simp] theorem noticeTaken_sched (w : Fin 4) : (noticeTaken w s).sched = s.sched := rfl
@[simp] theorem noticeTaken_up (w : Fin 4) : (noticeTaken w s).up = s.up := rfl
@[simp] theorem noticeTaken_consist (w : Fin 4) : (noticeTaken w s).consist = s.consist := rfl
@[simp] theorem noticeTaken_hold (w : Fin 4) : (noticeTaken w s).hold = s.hold := rfl

/-! `noticeIgnored` -/

@[simp] theorem noticeIgnored_pending (w : Fin 4) : (noticeIgnored w s).pending = s.pending := rfl
@[simp] theorem noticeIgnored_now (w : Fin 4) : (noticeIgnored w s).now = s.now := rfl
@[simp] theorem noticeIgnored_identity (w : Fin 4) : (noticeIgnored w s).identity = s.identity := rfl
@[simp] theorem noticeIgnored_hub (w : Fin 4) : (noticeIgnored w s).hub = s.hub := rfl
@[simp] theorem noticeIgnored_table (w : Fin 4) : (noticeIgnored w s).table = s.table := rfl
@[simp] theorem noticeIgnored_windows (w : Fin 4) : (noticeIgnored w s).windows = s.windows := rfl
@[simp] theorem noticeIgnored_sched (w : Fin 4) : (noticeIgnored w s).sched = s.sched := rfl
@[simp] theorem noticeIgnored_up (w : Fin 4) : (noticeIgnored w s).up = s.up := rfl
@[simp] theorem noticeIgnored_consist (w : Fin 4) : (noticeIgnored w s).consist = s.consist := rfl
@[simp] theorem noticeIgnored_hold (w : Fin 4) : (noticeIgnored w s).hold = s.hold := rfl

/-! `setStationState` -/

@[simp] theorem setStationState_pending (k : Fin 256) (x : StationState) : (setStationState k x s).pending = s.pending := rfl
@[simp] theorem setStationState_now (k : Fin 256) (x : StationState) : (setStationState k x s).now = s.now := rfl
@[simp] theorem setStationState_identity (k : Fin 256) (x : StationState) : (setStationState k x s).identity = s.identity := rfl
@[simp] theorem setStationState_hub (k : Fin 256) (x : StationState) : (setStationState k x s).hub = s.hub := rfl
@[simp] theorem setStationState_ports (k : Fin 256) (x : StationState) : (setStationState k x s).ports = s.ports := rfl
@[simp] theorem setStationState_windows (k : Fin 256) (x : StationState) : (setStationState k x s).windows = s.windows := rfl
@[simp] theorem setStationState_sched (k : Fin 256) (x : StationState) : (setStationState k x s).sched = s.sched := rfl
@[simp] theorem setStationState_up (k : Fin 256) (x : StationState) : (setStationState k x s).up = s.up := rfl
@[simp] theorem setStationState_consist (k : Fin 256) (x : StationState) : (setStationState k x s).consist = s.consist := rfl
@[simp] theorem setStationState_hold (k : Fin 256) (x : StationState) : (setStationState k x s).hold = s.hold := rfl

/-! `attributeFrame` -/

@[simp] theorem attributeFrame_pending (k : Fin 256) (id : Nat) : (attributeFrame k id s).pending = s.pending := rfl
@[simp] theorem attributeFrame_now (k : Fin 256) (id : Nat) : (attributeFrame k id s).now = s.now := rfl
@[simp] theorem attributeFrame_identity (k : Fin 256) (id : Nat) : (attributeFrame k id s).identity = s.identity := rfl
@[simp] theorem attributeFrame_ports (k : Fin 256) (id : Nat) : (attributeFrame k id s).ports = s.ports := rfl
@[simp] theorem attributeFrame_windows (k : Fin 256) (id : Nat) : (attributeFrame k id s).windows = s.windows := rfl
@[simp] theorem attributeFrame_sched (k : Fin 256) (id : Nat) : (attributeFrame k id s).sched = s.sched := rfl
@[simp] theorem attributeFrame_up (k : Fin 256) (id : Nat) : (attributeFrame k id s).up = s.up := rfl
@[simp] theorem attributeFrame_consist (k : Fin 256) (id : Nat) : (attributeFrame k id s).consist = s.consist := rfl
@[simp] theorem attributeFrame_hold (k : Fin 256) (id : Nat) : (attributeFrame k id s).hold = s.hold := rfl

/-! `emptySlot` -/

@[simp] theorem emptySlot_pending (k : Fin 256) : (emptySlot k s).pending = s.pending := rfl
@[simp] theorem emptySlot_now (k : Fin 256) : (emptySlot k s).now = s.now := rfl
@[simp] theorem emptySlot_identity (k : Fin 256) : (emptySlot k s).identity = s.identity := rfl
@[simp] theorem emptySlot_ports (k : Fin 256) : (emptySlot k s).ports = s.ports := rfl
@[simp] theorem emptySlot_windows (k : Fin 256) : (emptySlot k s).windows = s.windows := rfl
@[simp] theorem emptySlot_sched (k : Fin 256) : (emptySlot k s).sched = s.sched := rfl
@[simp] theorem emptySlot_consist (k : Fin 256) : (emptySlot k s).consist = s.consist := rfl
@[simp] theorem emptySlot_hold (k : Fin 256) : (emptySlot k s).hold = s.hold := rfl

/-! `fillSlot` -/

@[simp] theorem fillSlot_pending (k : Fin 256) (a : LinkAddr) (c : StationClass) (x : StationState) (o : Origin) : (fillSlot k a c x o s).pending = s.pending := rfl
@[simp] theorem fillSlot_now (k : Fin 256) (a : LinkAddr) (c : StationClass) (x : StationState) (o : Origin) : (fillSlot k a c x o s).now = s.now := rfl
@[simp] theorem fillSlot_identity (k : Fin 256) (a : LinkAddr) (c : StationClass) (x : StationState) (o : Origin) : (fillSlot k a c x o s).identity = s.identity := rfl
@[simp] theorem fillSlot_ports (k : Fin 256) (a : LinkAddr) (c : StationClass) (x : StationState) (o : Origin) : (fillSlot k a c x o s).ports = s.ports := rfl
@[simp] theorem fillSlot_windows (k : Fin 256) (a : LinkAddr) (c : StationClass) (x : StationState) (o : Origin) : (fillSlot k a c x o s).windows = s.windows := rfl
@[simp] theorem fillSlot_sched (k : Fin 256) (a : LinkAddr) (c : StationClass) (x : StationState) (o : Origin) : (fillSlot k a c x o s).sched = s.sched := rfl
@[simp] theorem fillSlot_up (k : Fin 256) (a : LinkAddr) (c : StationClass) (x : StationState) (o : Origin) : (fillSlot k a c x o s).up = s.up := rfl
@[simp] theorem fillSlot_consist (k : Fin 256) (a : LinkAddr) (c : StationClass) (x : StationState) (o : Origin) : (fillSlot k a c x o s).consist = s.consist := rfl
@[simp] theorem fillSlot_hold (k : Fin 256) (a : LinkAddr) (c : StationClass) (x : StationState) (o : Origin) : (fillSlot k a c x o s).hold = s.hold := rfl

/-! `failCreation` -/

@[simp] theorem failCreation_pending (a : LinkAddr) (o : Origin) : (failCreation a o s).pending = s.pending := rfl
@[simp] theorem failCreation_now (a : LinkAddr) (o : Origin) : (failCreation a o s).now = s.now := rfl
@[simp] theorem failCreation_identity (a : LinkAddr) (o : Origin) : (failCreation a o s).identity = s.identity := rfl
@[simp] theorem failCreation_ports (a : LinkAddr) (o : Origin) : (failCreation a o s).ports = s.ports := rfl
@[simp] theorem failCreation_table (a : LinkAddr) (o : Origin) : (failCreation a o s).table = s.table := rfl
@[simp] theorem failCreation_windows (a : LinkAddr) (o : Origin) : (failCreation a o s).windows = s.windows := rfl
@[simp] theorem failCreation_sched (a : LinkAddr) (o : Origin) : (failCreation a o s).sched = s.sched := rfl
@[simp] theorem failCreation_up (a : LinkAddr) (o : Origin) : (failCreation a o s).up = s.up := rfl
@[simp] theorem failCreation_consist (a : LinkAddr) (o : Origin) : (failCreation a o s).consist = s.consist := rfl
@[simp] theorem failCreation_hold (a : LinkAddr) (o : Origin) : (failCreation a o s).hold = s.hold := rfl

/-! `originConflict` -/

@[simp] theorem originConflict_pending (k : Fin 256) (st : Station) (o : Origin) (a : LinkAddr) : (originConflict k st o a s).pending = s.pending := rfl
@[simp] theorem originConflict_now (k : Fin 256) (st : Station) (o : Origin) (a : LinkAddr) : (originConflict k st o a s).now = s.now := rfl
@[simp] theorem originConflict_identity (k : Fin 256) (st : Station) (o : Origin) (a : LinkAddr) : (originConflict k st o a s).identity = s.identity := rfl
@[simp] theorem originConflict_ports (k : Fin 256) (st : Station) (o : Origin) (a : LinkAddr) : (originConflict k st o a s).ports = s.ports := rfl
@[simp] theorem originConflict_table (k : Fin 256) (st : Station) (o : Origin) (a : LinkAddr) : (originConflict k st o a s).table = s.table := rfl
@[simp] theorem originConflict_windows (k : Fin 256) (st : Station) (o : Origin) (a : LinkAddr) : (originConflict k st o a s).windows = s.windows := rfl
@[simp] theorem originConflict_sched (k : Fin 256) (st : Station) (o : Origin) (a : LinkAddr) : (originConflict k st o a s).sched = s.sched := rfl
@[simp] theorem originConflict_up (k : Fin 256) (st : Station) (o : Origin) (a : LinkAddr) : (originConflict k st o a s).up = s.up := rfl
@[simp] theorem originConflict_consist (k : Fin 256) (st : Station) (o : Origin) (a : LinkAddr) : (originConflict k st o a s).consist = s.consist := rfl
@[simp] theorem originConflict_hold (k : Fin 256) (st : Station) (o : Origin) (a : LinkAddr) : (originConflict k st o a s).hold = s.hold := rfl

/-! `elapse` -/

@[simp] theorem elapse_pending (d : Nat) : (elapse d s).pending = s.pending := rfl
@[simp] theorem elapse_identity (d : Nat) : (elapse d s).identity = s.identity := rfl
@[simp] theorem elapse_hub (d : Nat) : (elapse d s).hub = s.hub := rfl
@[simp] theorem elapse_ports (d : Nat) : (elapse d s).ports = s.ports := rfl
@[simp] theorem elapse_table (d : Nat) : (elapse d s).table = s.table := rfl
@[simp] theorem elapse_windows (d : Nat) : (elapse d s).windows = s.windows := rfl
@[simp] theorem elapse_up (d : Nat) : (elapse d s).up = s.up := rfl
@[simp] theorem elapse_consist (d : Nat) : (elapse d s).consist = s.consist := rfl
@[simp] theorem elapse_hold (d : Nat) : (elapse d s).hold = s.hold := rfl

/-! `waitUntil` -/

@[simp] theorem waitUntil_pending (t : Nat) : (waitUntil t s).pending = s.pending := rfl
@[simp] theorem waitUntil_identity (t : Nat) : (waitUntil t s).identity = s.identity := rfl
@[simp] theorem waitUntil_hub (t : Nat) : (waitUntil t s).hub = s.hub := rfl
@[simp] theorem waitUntil_ports (t : Nat) : (waitUntil t s).ports = s.ports := rfl
@[simp] theorem waitUntil_table (t : Nat) : (waitUntil t s).table = s.table := rfl
@[simp] theorem waitUntil_windows (t : Nat) : (waitUntil t s).windows = s.windows := rfl
@[simp] theorem waitUntil_up (t : Nat) : (waitUntil t s).up = s.up := rfl
@[simp] theorem waitUntil_consist (t : Nat) : (waitUntil t s).consist = s.consist := rfl
@[simp] theorem waitUntil_hold (t : Nat) : (waitUntil t s).hold = s.hold := rfl

/-! `withFaults` -/

@[simp] theorem withFaults_pending (fs : List CellFault) : (withFaults fs s).pending = s.pending := rfl
@[simp] theorem withFaults_now (fs : List CellFault) : (withFaults fs s).now = s.now := rfl
@[simp] theorem withFaults_identity (fs : List CellFault) : (withFaults fs s).identity = s.identity := rfl
@[simp] theorem withFaults_ports (fs : List CellFault) : (withFaults fs s).ports = s.ports := rfl
@[simp] theorem withFaults_table (fs : List CellFault) : (withFaults fs s).table = s.table := rfl
@[simp] theorem withFaults_windows (fs : List CellFault) : (withFaults fs s).windows = s.windows := rfl
@[simp] theorem withFaults_sched (fs : List CellFault) : (withFaults fs s).sched = s.sched := rfl
@[simp] theorem withFaults_up (fs : List CellFault) : (withFaults fs s).up = s.up := rfl
@[simp] theorem withFaults_consist (fs : List CellFault) : (withFaults fs s).consist = s.consist := rfl
@[simp] theorem withFaults_hold (fs : List CellFault) : (withFaults fs s).hold = s.hold := rfl

/-! `requestDiscarded` -/

@[simp] theorem requestDiscarded_pending (r : Discard) (e : InputEntry) : (requestDiscarded r e s).pending = s.pending := rfl
@[simp] theorem requestDiscarded_now (r : Discard) (e : InputEntry) : (requestDiscarded r e s).now = s.now := rfl
@[simp] theorem requestDiscarded_identity (r : Discard) (e : InputEntry) : (requestDiscarded r e s).identity = s.identity := rfl
@[simp] theorem requestDiscarded_table (r : Discard) (e : InputEntry) : (requestDiscarded r e s).table = s.table := rfl
@[simp] theorem requestDiscarded_windows (r : Discard) (e : InputEntry) : (requestDiscarded r e s).windows = s.windows := rfl
@[simp] theorem requestDiscarded_sched (r : Discard) (e : InputEntry) : (requestDiscarded r e s).sched = s.sched := rfl
@[simp] theorem requestDiscarded_up (r : Discard) (e : InputEntry) : (requestDiscarded r e s).up = s.up := rfl
@[simp] theorem requestDiscarded_consist (r : Discard) (e : InputEntry) : (requestDiscarded r e s).consist = s.consist := rfl
@[simp] theorem requestDiscarded_hold (r : Discard) (e : InputEntry) : (requestDiscarded r e s).hold = s.hold := rfl

/-! `storeParams` -/

@[simp] theorem storeParams_pending (q : Params) : (storeParams q s).pending = s.pending := rfl
@[simp] theorem storeParams_now (q : Params) : (storeParams q s).now = s.now := rfl
@[simp] theorem storeParams_identity (q : Params) : (storeParams q s).identity = s.identity := rfl
@[simp] theorem storeParams_hub (q : Params) : (storeParams q s).hub = s.hub := rfl
@[simp] theorem storeParams_ports (q : Params) : (storeParams q s).ports = s.ports := rfl
@[simp] theorem storeParams_table (q : Params) : (storeParams q s).table = s.table := rfl
@[simp] theorem storeParams_windows (q : Params) : (storeParams q s).windows = s.windows := rfl
@[simp] theorem storeParams_up (q : Params) : (storeParams q s).up = s.up := rfl
@[simp] theorem storeParams_consist (q : Params) : (storeParams q s).consist = s.consist := rfl
@[simp] theorem storeParams_hold (q : Params) : (storeParams q s).hold = s.hold := rfl

/-! `setReport` -/

@[simp] theorem setReport_pending (r : Option LinkAddr) (i : Nat) : (setReport r i s).pending = s.pending := rfl
@[simp] theorem setReport_now (r : Option LinkAddr) (i : Nat) : (setReport r i s).now = s.now := rfl
@[simp] theorem setReport_identity (r : Option LinkAddr) (i : Nat) : (setReport r i s).identity = s.identity := rfl
@[simp] theorem setReport_ports (r : Option LinkAddr) (i : Nat) : (setReport r i s).ports = s.ports := rfl
@[simp] theorem setReport_table (r : Option LinkAddr) (i : Nat) : (setReport r i s).table = s.table := rfl
@[simp] theorem setReport_windows (r : Option LinkAddr) (i : Nat) : (setReport r i s).windows = s.windows := rfl
@[simp] theorem setReport_sched (r : Option LinkAddr) (i : Nat) : (setReport r i s).sched = s.sched := rfl
@[simp] theorem setReport_up (r : Option LinkAddr) (i : Nat) : (setReport r i s).up = s.up := rfl
@[simp] theorem setReport_consist (r : Option LinkAddr) (i : Nat) : (setReport r i s).consist = s.consist := rfl
@[simp] theorem setReport_hold (r : Option LinkAddr) (i : Nat) : (setReport r i s).hold = s.hold := rfl

/-! `setStore` -/

@[simp] theorem setStore_pending (st : Store) : (setStore st s).pending = s.pending := rfl
@[simp] theorem setStore_now (st : Store) : (setStore st s).now = s.now := rfl
@[simp] theorem setStore_identity (st : Store) : (setStore st s).identity = s.identity := rfl
@[simp] theorem setStore_ports (st : Store) : (setStore st s).ports = s.ports := rfl
@[simp] theorem setStore_table (st : Store) : (setStore st s).table = s.table := rfl
@[simp] theorem setStore_windows (st : Store) : (setStore st s).windows = s.windows := rfl
@[simp] theorem setStore_sched (st : Store) : (setStore st s).sched = s.sched := rfl
@[simp] theorem setStore_up (st : Store) : (setStore st s).up = s.up := rfl
@[simp] theorem setStore_consist (st : Store) : (setStore st s).consist = s.consist := rfl
@[simp] theorem setStore_hold (st : Store) : (setStore st s).hold = s.hold := rfl

/-! `setMarks` -/

@[simp] theorem setMarks_pending (hi lo : Nat) : (setMarks hi lo s).pending = s.pending := rfl
@[simp] theorem setMarks_now (hi lo : Nat) : (setMarks hi lo s).now = s.now := rfl
@[simp] theorem setMarks_identity (hi lo : Nat) : (setMarks hi lo s).identity = s.identity := rfl
@[simp] theorem setMarks_ports (hi lo : Nat) : (setMarks hi lo s).ports = s.ports := rfl
@[simp] theorem setMarks_table (hi lo : Nat) : (setMarks hi lo s).table = s.table := rfl
@[simp] theorem setMarks_windows (hi lo : Nat) : (setMarks hi lo s).windows = s.windows := rfl
@[simp] theorem setMarks_sched (hi lo : Nat) : (setMarks hi lo s).sched = s.sched := rfl
@[simp] theorem setMarks_up (hi lo : Nat) : (setMarks hi lo s).up = s.up := rfl
@[simp] theorem setMarks_consist (hi lo : Nat) : (setMarks hi lo s).consist = s.consist := rfl
@[simp] theorem setMarks_hold (hi lo : Nat) : (setMarks hi lo s).hold = s.hold := rfl

/-! `writeWindow` -/

@[simp] theorem writeWindow_pending (i : Fin 9) (w : WindowSettings) : (writeWindow i w s).pending = s.pending := rfl
@[simp] theorem writeWindow_now (i : Fin 9) (w : WindowSettings) : (writeWindow i w s).now = s.now := rfl
@[simp] theorem writeWindow_identity (i : Fin 9) (w : WindowSettings) : (writeWindow i w s).identity = s.identity := rfl
@[simp] theorem writeWindow_hub (i : Fin 9) (w : WindowSettings) : (writeWindow i w s).hub = s.hub := rfl
@[simp] theorem writeWindow_ports (i : Fin 9) (w : WindowSettings) : (writeWindow i w s).ports = s.ports := rfl
@[simp] theorem writeWindow_table (i : Fin 9) (w : WindowSettings) : (writeWindow i w s).table = s.table := rfl
@[simp] theorem writeWindow_sched (i : Fin 9) (w : WindowSettings) : (writeWindow i w s).sched = s.sched := rfl
@[simp] theorem writeWindow_up (i : Fin 9) (w : WindowSettings) : (writeWindow i w s).up = s.up := rfl
@[simp] theorem writeWindow_consist (i : Fin 9) (w : WindowSettings) : (writeWindow i w s).consist = s.consist := rfl
@[simp] theorem writeWindow_hold (i : Fin 9) (w : WindowSettings) : (writeWindow i w s).hold = s.hold := rfl

/-! `admitRecord` -/

@[simp] theorem admitRecord_pending (k : Fin 256) (b : AdmitBody) (pd : Bool) : (admitRecord k b pd s).pending = s.pending := rfl
@[simp] theorem admitRecord_now (k : Fin 256) (b : AdmitBody) (pd : Bool) : (admitRecord k b pd s).now = s.now := rfl
@[simp] theorem admitRecord_identity (k : Fin 256) (b : AdmitBody) (pd : Bool) : (admitRecord k b pd s).identity = s.identity := rfl
@[simp] theorem admitRecord_hub (k : Fin 256) (b : AdmitBody) (pd : Bool) : (admitRecord k b pd s).hub = s.hub := rfl
@[simp] theorem admitRecord_ports (k : Fin 256) (b : AdmitBody) (pd : Bool) : (admitRecord k b pd s).ports = s.ports := rfl
@[simp] theorem admitRecord_windows (k : Fin 256) (b : AdmitBody) (pd : Bool) : (admitRecord k b pd s).windows = s.windows := rfl
@[simp] theorem admitRecord_sched (k : Fin 256) (b : AdmitBody) (pd : Bool) : (admitRecord k b pd s).sched = s.sched := rfl
@[simp] theorem admitRecord_up (k : Fin 256) (b : AdmitBody) (pd : Bool) : (admitRecord k b pd s).up = s.up := rfl
@[simp] theorem admitRecord_consist (k : Fin 256) (b : AdmitBody) (pd : Bool) : (admitRecord k b pd s).consist = s.consist := rfl
@[simp] theorem admitRecord_hold (k : Fin 256) (b : AdmitBody) (pd : Bool) : (admitRecord k b pd s).hold = s.hold := rfl

/-! `unbarRecord` -/

@[simp] theorem unbarRecord_pending (k : Fin 256) (b : Admission) : (unbarRecord k b s).pending = s.pending := rfl
@[simp] theorem unbarRecord_now (k : Fin 256) (b : Admission) : (unbarRecord k b s).now = s.now := rfl
@[simp] theorem unbarRecord_identity (k : Fin 256) (b : Admission) : (unbarRecord k b s).identity = s.identity := rfl
@[simp] theorem unbarRecord_hub (k : Fin 256) (b : Admission) : (unbarRecord k b s).hub = s.hub := rfl
@[simp] theorem unbarRecord_ports (k : Fin 256) (b : Admission) : (unbarRecord k b s).ports = s.ports := rfl
@[simp] theorem unbarRecord_windows (k : Fin 256) (b : Admission) : (unbarRecord k b s).windows = s.windows := rfl
@[simp] theorem unbarRecord_sched (k : Fin 256) (b : Admission) : (unbarRecord k b s).sched = s.sched := rfl
@[simp] theorem unbarRecord_up (k : Fin 256) (b : Admission) : (unbarRecord k b s).up = s.up := rfl
@[simp] theorem unbarRecord_consist (k : Fin 256) (b : Admission) : (unbarRecord k b s).consist = s.consist := rfl
@[simp] theorem unbarRecord_hold (k : Fin 256) (b : Admission) : (unbarRecord k b s).hold = s.hold := rfl

/-! `renewTable` -/

@[simp] theorem renewTable_pending : (renewTable s).pending = s.pending := rfl
@[simp] theorem renewTable_now : (renewTable s).now = s.now := rfl
@[simp] theorem renewTable_identity : (renewTable s).identity = s.identity := rfl
@[simp] theorem renewTable_hub : (renewTable s).hub = s.hub := rfl
@[simp] theorem renewTable_ports : (renewTable s).ports = s.ports := rfl
@[simp] theorem renewTable_windows : (renewTable s).windows = s.windows := rfl
@[simp] theorem renewTable_sched : (renewTable s).sched = s.sched := rfl
@[simp] theorem renewTable_up : (renewTable s).up = s.up := rfl
@[simp] theorem renewTable_consist : (renewTable s).consist = s.consist := rfl
@[simp] theorem renewTable_hold : (renewTable s).hold = s.hold := rfl

/-! `takeSnapshot` -/

@[simp] theorem takeSnapshot_pending : (takeSnapshot s).pending = s.pending := rfl
@[simp] theorem takeSnapshot_now : (takeSnapshot s).now = s.now := rfl
@[simp] theorem takeSnapshot_identity : (takeSnapshot s).identity = s.identity := rfl
@[simp] theorem takeSnapshot_ports : (takeSnapshot s).ports = s.ports := rfl
@[simp] theorem takeSnapshot_table : (takeSnapshot s).table = s.table := rfl
@[simp] theorem takeSnapshot_windows : (takeSnapshot s).windows = s.windows := rfl
@[simp] theorem takeSnapshot_sched : (takeSnapshot s).sched = s.sched := rfl
@[simp] theorem takeSnapshot_up : (takeSnapshot s).up = s.up := rfl
@[simp] theorem takeSnapshot_consist : (takeSnapshot s).consist = s.consist := rfl
@[simp] theorem takeSnapshot_hold : (takeSnapshot s).hold = s.hold := rfl

/-! `computeBoundary` -/

@[simp] theorem computeBoundary_pending (adv : Bool) : (computeBoundary adv s).pending = s.pending := rfl
@[simp] theorem computeBoundary_now (adv : Bool) : (computeBoundary adv s).now = s.now := rfl
@[simp] theorem computeBoundary_identity (adv : Bool) : (computeBoundary adv s).identity = s.identity := rfl
@[simp] theorem computeBoundary_hub (adv : Bool) : (computeBoundary adv s).hub = s.hub := rfl
@[simp] theorem computeBoundary_ports (adv : Bool) : (computeBoundary adv s).ports = s.ports := rfl
@[simp] theorem computeBoundary_windows (adv : Bool) : (computeBoundary adv s).windows = s.windows := rfl
@[simp] theorem computeBoundary_up (adv : Bool) : (computeBoundary adv s).up = { s.up with
    run := runAtBoundary (s.table.slots.map (fun o => o.map Station.shapeAtBoundary)) s.up.run } := rfl
@[simp] theorem computeBoundary_consist (adv : Bool) : (computeBoundary adv s).consist = s.consist := rfl
@[simp] theorem computeBoundary_hold (adv : Bool) : (computeBoundary adv s).hold = s.hold := rfl

/-! `computeStop` -/

@[simp] theorem computeStop_pending : (computeStop s).pending = s.pending := rfl
@[simp] theorem computeStop_now : (computeStop s).now = s.now := rfl
@[simp] theorem computeStop_identity : (computeStop s).identity = s.identity := rfl
@[simp] theorem computeStop_hub : (computeStop s).hub = s.hub := rfl
@[simp] theorem computeStop_ports : (computeStop s).ports = s.ports := rfl
@[simp] theorem computeStop_windows : (computeStop s).windows = s.windows := rfl
@[simp] theorem computeStop_up : (computeStop s).up = s.up := rfl
@[simp] theorem computeStop_consist : (computeStop s).consist = s.consist := rfl
@[simp] theorem computeStop_hold : (computeStop s).hold = s.hold := rfl

/-! `countAborted` -/

@[simp] theorem countAborted_pending (p : Port) (id : Nat) : (countAborted p id s).pending = s.pending := rfl
@[simp] theorem countAborted_now (p : Port) (id : Nat) : (countAborted p id s).now = s.now := rfl
@[simp] theorem countAborted_identity (p : Port) (id : Nat) : (countAborted p id s).identity = s.identity := rfl
@[simp] theorem countAborted_table (p : Port) (id : Nat) : (countAborted p id s).table = s.table := rfl
@[simp] theorem countAborted_windows (p : Port) (id : Nat) : (countAborted p id s).windows = s.windows := rfl
@[simp] theorem countAborted_sched (p : Port) (id : Nat) : (countAborted p id s).sched = s.sched := rfl
@[simp] theorem countAborted_up (p : Port) (id : Nat) : (countAborted p id s).up = s.up := rfl
@[simp] theorem countAborted_consist (p : Port) (id : Nat) : (countAborted p id s).consist = s.consist := rfl
@[simp] theorem countAborted_hold (p : Port) (id : Nat) : (countAborted p id s).hold = s.hold := rfl

/-! `endSent` -/

@[simp] theorem endSent_pending (p : Port) (id : Nat) : (endSent p id s).pending = s.pending := rfl
@[simp] theorem endSent_now (p : Port) (id : Nat) : (endSent p id s).now = s.now := rfl
@[simp] theorem endSent_identity (p : Port) (id : Nat) : (endSent p id s).identity = s.identity := rfl
@[simp] theorem endSent_table (p : Port) (id : Nat) : (endSent p id s).table = s.table := rfl
@[simp] theorem endSent_windows (p : Port) (id : Nat) : (endSent p id s).windows = s.windows := rfl
@[simp] theorem endSent_sched (p : Port) (id : Nat) : (endSent p id s).sched = s.sched := rfl
@[simp] theorem endSent_up (p : Port) (id : Nat) : (endSent p id s).up = s.up := rfl
@[simp] theorem endSent_consist (p : Port) (id : Nat) : (endSent p id s).consist = s.consist := rfl
@[simp] theorem endSent_hold (p : Port) (id : Nat) : (endSent p id s).hold = s.hold := rfl

/-! `withReport` -/

@[simp] theorem withReport_pending (a : Option LinkAddr) : (withReport a s).pending = s.pending := rfl
@[simp] theorem withReport_now (a : Option LinkAddr) : (withReport a s).now = s.now := rfl
@[simp] theorem withReport_identity (a : Option LinkAddr) : (withReport a s).identity = s.identity := rfl
@[simp] theorem withReport_table (a : Option LinkAddr) : (withReport a s).table = s.table := rfl
@[simp] theorem withReport_windows (a : Option LinkAddr) : (withReport a s).windows = s.windows := rfl
@[simp] theorem withReport_sched (a : Option LinkAddr) : (withReport a s).sched = s.sched := rfl
@[simp] theorem withReport_up (a : Option LinkAddr) : (withReport a s).up = s.up := rfl
@[simp] theorem withReport_consist (a : Option LinkAddr) : (withReport a s).consist = s.consist := rfl
@[simp] theorem withReport_hold (a : Option LinkAddr) : (withReport a s).hold = s.hold := rfl
@[simp] theorem withReport_ports (a : Option LinkAddr) : (withReport a s).ports = s.ports := rfl

/-! `recordOverrun` -/

@[simp] theorem recordOverrun_pending (x : End) : (recordOverrun x s).pending = s.pending := rfl
@[simp] theorem recordOverrun_now (x : End) : (recordOverrun x s).now = s.now := rfl
@[simp] theorem recordOverrun_identity (x : End) : (recordOverrun x s).identity = s.identity := rfl
@[simp] theorem recordOverrun_table (x : End) : (recordOverrun x s).table = s.table := rfl
@[simp] theorem recordOverrun_windows (x : End) : (recordOverrun x s).windows = s.windows := rfl
@[simp] theorem recordOverrun_sched (x : End) : (recordOverrun x s).sched = s.sched := rfl
@[simp] theorem recordOverrun_up (x : End) : (recordOverrun x s).up = s.up := rfl
@[simp] theorem recordOverrun_consist (x : End) : (recordOverrun x s).consist = s.consist := rfl
@[simp] theorem recordOverrun_hold (x : End) : (recordOverrun x s).hold = s.hold := rfl

/-! What the changed field becomes, where one update names it whole. -/

@[simp] theorem onHub_hub (g : Hub → Hub) : (onHub g s).hub = g s.hub := rfl
@[simp] theorem onPorts_ports (g : Ports → Ports) : (onPorts g s).ports = g s.ports := rfl
@[simp] theorem onTable_table (g : StationTable → StationTable) : (onTable g s).table = g s.table := rfl
@[simp] theorem raiseNotice_hub (n : Notice) : (raiseNotice n s).hub = s.hub.raise s.sender n := rfl
@[simp] theorem tally_hub (r : Discard) : (tally r s).hub = s.hub.tally r := rfl
@[simp] theorem giveBackCells_hub (c : List Nat) : (giveBackCells c s).hub = s.hub.giveBack s.sender [] c := rfl
@[simp] theorem elapse_now (d : Nat) : (elapse d s).now = s.now + d := rfl
@[simp] theorem elapse_sched (d : Nat) : (elapse d s).sched = s.sched.pass d := rfl
@[simp] theorem setReport_mgmt (r : Option LinkAddr) (i : Nat) :
    (setReport r i s).hub.mgmt = { s.hub.mgmt with reportAddr := r, defaultIdle := i } := rfl
@[simp] theorem setReport_cells (r : Option LinkAddr) (i : Nat) : (setReport r i s).hub.cells = s.hub.cells := rfl
@[simp] theorem withReport_mgmt (a : Option LinkAddr) :
    (withReport a s).hub.mgmt = { s.hub.mgmt with reportAddr := a } := rfl
@[simp] theorem withReport_cells (a : Option LinkAddr) : (withReport a s).hub.cells = s.hub.cells := rfl
@[simp] theorem countAborted_hub (p : Port) (id : Nat) : (countAborted p id s).hub = s.hub.tally .aborted := rfl
@[simp] theorem setStore_mgmt (st : Store) : (setStore st s).hub.mgmt = { s.hub.mgmt with store := st } := rfl
@[simp] theorem setStore_cells (st : Store) : (setStore st s).hub.cells = s.hub.cells := rfl
@[simp] theorem writeWindow_windows (i : Fin 9) (w : WindowSettings) :
    (writeWindow i w s).windows = s.windows.set i { set := w } := rfl
@[simp] theorem withFaults_mgmt (fs : List CellFault) : (withFaults fs s).hub.mgmt = s.hub.mgmt := rfl
@[simp] theorem withFaults_cells (fs : List CellFault) : (withFaults fs s).hub.cells = s.hub.cells.withFaults fs := rfl
@[simp] theorem takeSnapshot_cells : (takeSnapshot s).hub.cells = s.hub.cells := rfl
@[simp] theorem countClassified_none (u m q : Bool) :
    (countClassified u { window := none, metered := m, permitted := q } s).windows = s.windows := rfl

/-! The ports. -/

@[simp] theorem endOf_modEnd_self (ps : Ports) (x : End) (g : BackboneEnd → BackboneEnd) :
    (ps.modEnd x g).endOf x = g (ps.endOf x) := by cases x <;> rfl

@[simp] theorem endOf_modEnd_other (ps : Ports) (x : End) (g : BackboneEnd → BackboneEnd) :
    (ps.modEnd x.other g).endOf x = ps.endOf x := by cases x <;> rfl

@[simp] theorem modEnd_seats (ps : Ports) (x : End) (g : BackboneEnd → BackboneEnd) :
    (ps.modEnd x g).seats = ps.seats := by cases x <;> rfl

@[simp] theorem modEnd_radios (ps : Ports) (x : End) (g : BackboneEnd → BackboneEnd) :
    (ps.modEnd x g).radios = ps.radios := by cases x <;> rfl

@[simp] theorem modSeat_self (ps : Ports) (n : Fin 32) (g : SeatPort → SeatPort) :
    (ps.modSeat n g).seats[n] = g ps.seats[n] := by simp [Ports.modSeat]

@[simp] theorem modSeat_radios (ps : Ports) (n : Fin 32) (g : SeatPort → SeatPort) :
    (ps.modSeat n g).radios = ps.radios := rfl

@[simp] theorem modSeat_endOf (ps : Ports) (n : Fin 32) (g : SeatPort → SeatPort) (x : End) :
    (ps.modSeat n g).endOf x = ps.endOf x := by cases x <;> rfl

@[simp] theorem modRadio_self (ps : Ports) (w : Fin 4) (g : RadioLink → RadioLink) :
    (ps.modRadio w g).radios[w] = g ps.radios[w] := by simp [Ports.modRadio]

@[simp] theorem modRadio_seats (ps : Ports) (w : Fin 4) (g : RadioLink → RadioLink) :
    (ps.modRadio w g).seats = ps.seats := rfl

@[simp] theorem modRadio_endOf (ps : Ports) (w : Fin 4) (g : RadioLink → RadioLink) (x : End) :
    (ps.modRadio w g).endOf x = ps.endOf x := by cases x <;> rfl

theorem unitOf_modUnit_self (ps : Ports) (p : Port) (g : PortUnit → PortUnit) :
    (ps.modUnit p g).unitOf p = g (ps.unitOf p) := by
  cases p <;> simp [Ports.modUnit, Ports.unitOf, Ports.modSeat, Ports.modRadio]

theorem unitOf_modUnit_ne (ps : Ports) {p q : Port} (g : PortUnit → PortUnit) (h : q ≠ p) :
    (ps.modUnit p g).unitOf q = ps.unitOf q := by
  cases p with
  | seat n =>
    cases q with
    | seat m =>
      have hm : n.val ≠ m.val := fun e => h (by rw [Fin.ext e])
      simp [Ports.modUnit, Ports.unitOf, Ports.modSeat, hm]
    | radio w => rfl
    | backbone x => cases x <;> rfl
  | radio w =>
    cases q with
    | seat m => rfl
    | radio v =>
      have hm : w.val ≠ v.val := fun e => h (by rw [Fin.ext e])
      simp [Ports.modUnit, Ports.unitOf, Ports.modRadio, hm]
    | backbone x => cases x <;> rfl
  | backbone x =>
    cases q with
    | seat m => cases x <;> rfl
    | radio v => cases x <;> rfl
    | backbone y => cases x <;> cases y <;> first | rfl | exact absurd rfl h

/-! The station table. -/

theorem station?_modStation_self (t : StationTable) (k : Fin 256) (g : Station → Station) :
    (t.modStation k g).station? k = (t.station? k).map g := by
  simp [StationTable.modStation, StationTable.station?]

theorem station?_modStation_ne (t : StationTable) {k j : Fin 256} (g : Station → Station) (h : j ≠ k) :
    (t.modStation k g).station? j = t.station? j := by
  have hm : k.val ≠ j.val := fun e => h (Fin.ext e.symm)
  simp [StationTable.modStation, StationTable.station?, hm]

@[simp] theorem modStation_held (t : StationTable) (k : Fin 256) (g : Station → Station) :
    (t.modStation k g).held = t.held := rfl

@[simp] theorem modStation?_held (t : StationTable) (k : Option (Fin 256)) (g : Station → Station) :
    (t.modStation? k g).held = t.held := by cases k <;> rfl

end Sys2Proof.Laws
end

