-- ==== Sys2Proof/Laws/Frames.lean ====
section
/-! SUPPORT. The blocks that the shared operations leave alone. -/

namespace Sys2Proof.Laws

open Sys2Proof Sys2Proof.Machine

/-- The blocks that no discard, removal, charge or reply touches: the queue of commands, the time, the identity, the
windows, the Epoch Scheduler, the consist and the hold settings. -/
structure Kept (s t : State) : Prop where
  pending : t.pending = s.pending
  now : t.now = s.now
  identity : t.identity = s.identity
  windows : t.windows = s.windows
  sched : t.sched = s.sched
  consist : t.consist = s.consist
  hold : t.hold = s.hold

theorem Kept.refl (s : State) : Kept s s := ⟨rfl, rfl, rfl, rfl, rfl, rfl, rfl⟩

theorem Kept.trans {a b c : State} (h : Kept a b) (g : Kept b c) : Kept a c :=
  ⟨g.1.trans h.1, g.2.trans h.2, g.3.trans h.3, g.4.trans h.4, g.5.trans h.5, g.6.trans h.6, g.7.trans h.7⟩

/-- A fold of steps that each keep the blocks keeps them. -/
theorem Kept.foldl {α : Type} {g : State → α → State} (h : ∀ s a, Kept s (g s a)) (l : List α) (s : State) :
    Kept s (l.foldl g s) := by
  induction l generalizing s with
  | nil => exact Kept.refl s
  | cons a l ih => exact (h s a).trans (ih _)

theorem Kept.ofUpdate {s t : State} (h : t = { s with hub := t.hub, ports := t.ports, table := t.table, up := t.up }) :
    Kept s t := by
  rw [h]; exact ⟨rfl, rfl, rfl, rfl, rfl, rfl, rfl⟩

theorem onHub_kept (g : Hub → Hub) (s : State) : Kept s (onHub g s) := ⟨rfl, rfl, rfl, rfl, rfl, rfl, rfl⟩
theorem onPorts_kept (g : Ports → Ports) (s : State) : Kept s (onPorts g s) := ⟨rfl, rfl, rfl, rfl, rfl, rfl, rfl⟩
theorem onTable_kept (g : StationTable → StationTable) (s : State) : Kept s (onTable g s) :=
  ⟨rfl, rfl, rfl, rfl, rfl, rfl, rfl⟩
theorem raiseNotice_kept (n : Notice) (s : State) : Kept s (raiseNotice n s) := ⟨rfl, rfl, rfl, rfl, rfl, rfl, rfl⟩

theorem discardEntry_kept (r : Discard) (b : Option Port) (id : Nat) (s : State) : Kept s (discardEntry r b id s) :=
  ⟨rfl, rfl, rfl, rfl, rfl, rfl, rfl⟩

/-- What the discarding of queue entries leaves alone (R2, R29, R48). -/
theorem discardEntries_kept (r : Discard) (b : Option Port) (ids : List Nat) (s : State) :
    Kept s (discardEntries r b ids s) := Kept.foldl (fun s id => discardEntry_kept r b id s) ids s

theorem discardEntries_up (r : Discard) (b : Option Port) (ids : List Nat) (s : State) :
    (discardEntries r b ids s).up = s.up := by
  unfold discardEntries
  induction ids generalizing s with
  | nil => rfl
  | cons a l ih => exact ih _

theorem purgeUpward_kept (k : Fin 256) (s : State) : Kept s (purgeUpward k s) :=
  Kept.trans (b := { s with
      table := s.table.modStation k (fun st => { st with upq := [] })
      up := { s.up with run := endRun k s.up.run } })
    ⟨rfl, rfl, rfl, rfl, rfl, rfl, rfl⟩ (discardEntries_kept _ _ _ _)

theorem purgeEgress_kept (k : Fin 256) (o : Origin) (s : State) : Kept s (purgeEgress k o s) := by
  cases o with
  | seat n => exact (onPorts_kept _ s).trans (discardEntries_kept _ _ _ _)
  | radio w i => exact (onPorts_kept _ s).trans (discardEntries_kept _ _ _ _)

theorem beginRemoval_kept (k : Fin 256) (st : Station) (why : Reason) (s : State) :
    Kept s (beginRemoval k st why s) := by
  unfold beginRemoval
  have h := ((purgeUpward_kept k s).trans (purgeEgress_kept k st.origin _)).trans
    (onTable_kept (fun t => { t with held := fromHeld k t.held }) _)
  simp only
  split
  · split
    · exact h.trans (onPorts_kept _ _)
    · exact h
  · exact h

/-! ## Replies -/

theorem buildReply_kept {k : Fin 4} {h : ReqHeader} {c : ReplyContent} {s t : State}
    (hb : buildReply k h c s = some t) : Kept s t ∧ t.table = s.table ∧ t.up = s.up := by
  unfold buildReply at hb
  split at hb
  · cases hb
  · split at hb <;> (cases hb; exact ⟨⟨rfl, rfl, rfl, rfl, rfl, rfl, rfl⟩, rfl, rfl⟩)

/-- What building a waiting reply leaves alone (R172). -/
theorem buildOldest_kept (s : State) :
    Kept s (buildOldest s) ∧ (buildOldest s).table = s.table ∧ (buildOldest s).up = s.up := by
  unfold buildOldest
  split
  · exact ⟨Kept.refl s, rfl, rfl⟩
  · split
    · rename_i h c b _
      cases hb : buildReply _ h c s with
      | none => exact ⟨Kept.refl s, rfl, rfl⟩
      | some t => exact buildReply_kept hb
    · exact ⟨Kept.refl s, rfl, rfl⟩

/-- What the fixing of a reply leaves alone (R172, R174): everything but Cell Memory, the Management Unit and the
counters of the port it is for. -/
theorem fixReply_kept (k : Fin 4) (c : ReplyContent) (b : Bool) (s : State) :
    Kept s (fixReply k c b s) ∧ (fixReply k c b s).table = s.table ∧ (fixReply k c b s).up = s.up := by
  unfold fixReply
  split
  · exact ⟨Kept.refl s, rfl, rfl⟩
  · simp only
    generalize hs : ({ s with hub := _ } : State) = s1
    have h0 : Kept s s1 ∧ s1.table = s.table ∧ s1.up = s.up := by
      subst hs; exact ⟨⟨rfl, rfl, rfl, rfl, rfl, rfl, rfl⟩, rfl, rfl⟩
    split
    · obtain ⟨h, h1, h2⟩ := buildOldest_kept s1
      exact ⟨h0.1.trans h, h1.trans h0.2.1, h2.trans h0.2.2⟩
    · exact h0

theorem park_kept (k : Fin 4) (op : PendingOp) (s : State) :
    Kept s (park k op s) ∧ (park k op s).table = s.table ∧ (park k op s).up = s.up ∧ (park k op s).ports = s.ports := by
  unfold park
  split <;> exact ⟨⟨rfl, rfl, rfl, rfl, rfl, rfl, rfl⟩, rfl, rfl, rfl⟩

/-! ## Removal, creation and charging -/

/-- What the freeing of a record leaves alone (R56). -/
theorem freeRecord_kept (k : Fin 256) (why : Reason) (s : State) : Kept s (freeRecord k why s) := by
  unfold freeRecord
  split
  · exact Kept.refl s
  · rename_i st _
    have h1 : Kept s (if why = .released then s
        else raiseNotice (.stationGone k st.cls st.origin st.addr why st.ctr st.allowance) s) := by
      split
      · exact Kept.refl s
      · exact raiseNotice_kept _ s
    simp only
    generalize (if why = .released then s
        else raiseNotice (.stationGone k st.cls st.origin st.addr why st.ctr st.allowance) s) = s1 at h1 ⊢
    refine h1.trans ?_
    have h2 : Kept s1 (match parkedRelease s1.hub.mgmt k with
        | none => s1
        | some j => fixReply j (.fixed .ok (releaseBody k st)) false s1) := by
      split
      · exact Kept.refl s1
      · exact (fixReply_kept _ _ _ s1).1
    exact h2.trans ⟨rfl, rfl, rfl, rfl, rfl, rfl, rfl⟩

/-- What a removal leaves alone (R52, R53). -/
theorem removeRecord_kept (k : Fin 256) (why : Reason) (s : State) : Kept s (removeRecord k why s) := by
  unfold removeRecord
  split
  · exact Kept.refl s
  · split
    · exact Kept.refl s
    · simp only
      split
      · exact (beginRemoval_kept k _ why s).trans (onTable_kept _ _)
      · exact (beginRemoval_kept k _ why s).trans (freeRecord_kept k why _)

theorem removeRecords_kept (why : Reason) (ks : List (Fin 256)) (s : State) : Kept s (removeRecords why ks s) :=
  Kept.foldl (fun s k => removeRecord_kept k why s) ks s

theorem fillSlot_kept (k : Fin 256) (a : LinkAddr) (c : StationClass) (x : StationState) (o : Origin) (s : State) :
    Kept s (fillSlot k a c x o s) := ⟨rfl, rfl, rfl, rfl, rfl, rfl, rfl⟩

/-- What the creation of a record leaves alone (R43). -/
theorem createRecord_kept (a : LinkAddr) (c : StationClass) (x : StationState) (o : Origin) (s : State) :
    Kept s (createRecord a c x o s).2 := by
  unfold createRecord
  split
  · exact fillSlot_kept _ a c x o s
  · split
    · exact (removeRecord_kept _ _ s).trans (fillSlot_kept _ a c x o _)
    · exact ⟨rfl, rfl, rfl, rfl, rfl, rfl, rfl⟩

theorem exhaust_kept (k : Fin 256) (cause : Cause) (L : Nat) (s : State) : Kept s (exhaust k cause L s) := by
  unfold exhaust
  split
  · exact Kept.refl s
  · split
    · exact Kept.refl s
    · split
      · exact (onTable_kept _ s).trans (raiseNotice_kept _ _)
      · simp only
        split
        · exact ((onTable_kept _ s).trans (purgeUpward_kept k _)).trans (raiseNotice_kept _ _)
        · exact (onTable_kept _ s).trans (raiseNotice_kept _ _)

/-- What a charge leaves alone (R95 to R102). -/
theorem charge_kept (k : Fin 256) (cause : Cause) (L : Nat) (s : State) : Kept s (charge k cause L s) := by
  unfold charge
  split
  · exact Kept.refl s
  · split
    · exact Kept.refl s
    · simp only
      split
      · exact (onTable_kept _ s).trans (exhaust_kept k cause L _)
      · exact onTable_kept _ s

theorem freeIfLeaving_kept (k : Fin 256) (s : State) : Kept s (freeIfLeaving k s) := by
  unfold freeIfLeaving
  split
  · split
    · split
      · exact Kept.refl s
      · exact freeRecord_kept k _ s
    · exact Kept.refl s
  · exact Kept.refl s

/-! ## Ends of transmissions -/

theorem endSent_kept (p : Port) (id : Nat) (s : State) : Kept s (endSent p id s) := ⟨rfl, rfl, rfl, rfl, rfl, rfl, rfl⟩

theorem countAborted_kept (p : Port) (id : Nat) (s : State) : Kept s (countAborted p id s) :=
  ⟨rfl, rfl, rfl, rfl, rfl, rfl, rfl⟩

theorem chargeCompleted_kept (o : Option (Fin 256)) (m : Bool) (L : Nat) (s : State) :
    Kept s (chargeCompleted o m L s) := by
  unfold chargeCompleted
  split
  · split
    · exact charge_kept _ .up L s
    · exact Kept.refl s
  · exact Kept.refl s

theorem settleOwner_kept (o : Option (Fin 256)) (s : State) : Kept s (settleOwner o s) := by
  cases o with
  | none => exact Kept.refl s
  | some k => exact freeIfLeaving_kept k s

/-- What the completion of a stored frame leaves alone (R10, R96). -/
theorem completeFrame_kept (p : Port) (id : Nat) (s : State) : Kept s (completeFrame p id s) :=
  ((endSent_kept p id s).trans (chargeCompleted_kept _ _ _ _)).trans (settleOwner_kept _ _)

/-! ## The warm reset -/

theorem abortParked_kept (k : Fin 4) (s : State) :
    Kept s (abortParked k s) ∧ (abortParked k s).table = s.table ∧ (abortParked k s).up = s.up := by
  unfold abortParked
  split
  · exact fixReply_kept _ _ _ s
  · exact ⟨Kept.refl s, rfl, rfl⟩

theorem withReport_kept (a : Option LinkAddr) (s : State) : Kept s (withReport a s) :=
  ⟨rfl, rfl, rfl, rfl, rfl, rfl, rfl⟩

/-- What the answering of the parked operations leaves alone (R188, step 5). -/
theorem abortAllParked_kept (s : State) : Kept s (abortAllParked s) :=
  (withReport_kept none s).trans
    ((Kept.foldl (fun s k => (abortParked_kept k s).1) (List.finRange 4) _).trans (withReport_kept _ _))

/-- The report address is back in force when they have been answered. -/
theorem abortAllParked_report (s : State) : (abortAllParked s).hub.mgmt.reportAddr = s.hub.mgmt.reportAddr := rfl

/-! ## Windows (R79) -/

/-- The low bits cleared, as a number. -/
theorem clearLow_toNat (a : NetAddr) (k : Nat) : (clearLow a k).toNat = a.toNat / 2 ^ k * 2 ^ k := by
  unfold clearLow
  rw [BitVec.toNat_shiftLeft, BitVec.toNat_ushiftRight, Nat.shiftLeft_eq, Nat.shiftRight_eq_div_pow]
  exact Nat.mod_eq_of_lt (lt_of_le_of_lt (Nat.div_mul_le_self _ _) a.isLt)

/-- R79, in numbers. -/
theorem contains_iff (w : WindowSettings) (a : NetAddr) :
    w.contains a = true ↔ w.enabled = true ∧ w.base.toNat = a.toNat / 2 ^ w.k * 2 ^ w.k := by
  rw [← clearLow_toNat]
  unfold WindowSettings.contains
  rw [Bool.and_eq_true, decide_eq_true_iff, BitVec.toNat_eq]
  exact and_congr Iff.rfl eq_comm

/-! ## Epoch boundaries -/

theorem takeParkedSnapshot_kept (s : State) :
    Kept s (takeParkedSnapshot s) ∧ (takeParkedSnapshot s).table = s.table ∧ (takeParkedSnapshot s).up = s.up := by
  unfold takeParkedSnapshot
  split
  · exact ⟨Kept.refl s, rfl, rfl⟩
  · obtain ⟨h, h1, h2⟩ := fixReply_kept ‹_› (.fixed .ok (snapshotReply (takeSnapshot s))) false (takeSnapshot s)
    exact ⟨Kept.trans (b := takeSnapshot s) ⟨rfl, rfl, rfl, rfl, rfl, rfl, rfl⟩ h, h1, h2⟩

/-- A boundary changes the table and the scheduler as computed, whatever snapshot is taken at its end (R118 to R124). -/
theorem boundary_spec (adv : Bool) (s : State) :
    (boundary adv s).table = (computeBoundary adv s).table ∧ (boundary adv s).sched = (computeBoundary adv s).sched ∧
      (boundary adv s).pending = s.pending ∧ (boundary adv s).now = s.now ∧
      (boundary adv s).up = (computeBoundary adv s).up := by
  obtain ⟨h, h1, h2⟩ := takeParkedSnapshot_kept (computeBoundary adv s)
  exact ⟨h1, h.sched, h.pending, h.now, h2⟩

/-! ## Requests -/

/-- What the take of a request leaves alone (R169). -/
theorem takeInto_kept (k : Fin 4) (e : InputEntry) (f : FrameRec) (rq : Request) (s : State) :
    Kept s (takeInto k e f rq s).2 ∧ (takeInto k e f rq s).2.table = s.table ∧ (takeInto k e f rq s).2.up = s.up := by
  unfold takeInto
  simp only
  split
  · exact ⟨⟨rfl, rfl, rfl, rfl, rfl, rfl, rfl⟩, rfl, rfl⟩
  · split <;> exact ⟨⟨rfl, rfl, rfl, rfl, rfl, rfl, rfl⟩, rfl, rfl⟩

/-- A command of a request row changes nothing where no request can be taken, or the one at the head is of another row
(log entry 2). -/
theorem takeRequest_none {row : Request → Bool} {fs : List CellFault} {rule : Fin 4 → Request → State → State}
    {s : State} (h : requestReady s = none ∨ ∃ k e f rq, requestReady s = some (k, e, f, rq) ∧ row rq = false) :
    takeRequest row fs rule s = s := by
  unfold takeRequest
  rcases h with h | ⟨k, e, f, rq, h, hr⟩
  · simp [h]
  · simp [h, hr]

/-- A request that is taken and passes the common checks is carried out by its row's rule, in its slot, on the state
after the take (R169, R170). -/
theorem takeRequest_rule {row : Request → Bool} {fs : List CellFault} {rule : Fin 4 → Request → State → State}
    {s : State} {k : Fin 4} {e : InputEntry} {f : FrameRec} {rq : Request}
    (h : requestReady s = some (k, e, f, rq)) (hrow : row rq = true)
    (hread : ((withFaults fs s).hub.readFrame f none).1 = []) (hsrc : isGroup rq.src = false)
    (hc : commonRefusal rq = none) :
    takeRequest row fs rule s = rule k rq (takeInto k e f rq (withFaults fs s)).2 := by
  have ht : (takeInto k e f rq (withFaults fs s)).1 = true := by
    unfold takeInto
    simp [hread, hsrc]
  unfold takeRequest
  simp [h, hrow, ht, hc]

/-- A request that is taken and fails a common check is answered with its refusal, whatever its row's rule (R170). -/
theorem takeRequest_refused {row : Request → Bool} {fs : List CellFault} {rule : Fin 4 → Request → State → State}
    {s : State} {k : Fin 4} {e : InputEntry} {f : FrameRec} {rq : Request} {st : Status}
    (h : requestReady s = some (k, e, f, rq)) (hrow : row rq = true)
    (hread : ((withFaults fs s).hub.readFrame f none).1 = []) (hsrc : isGroup rq.src = false)
    (hc : commonRefusal rq = some st) :
    takeRequest row fs rule s = refuse k st (takeInto k e f rq (withFaults fs s)).2 := by
  have ht : (takeInto k e f rq (withFaults fs s)).1 = true := by
    unfold takeInto
    simp [hread, hsrc]
  unfold takeRequest
  simp [h, hrow, ht, hc]

/-- When a take is made (R169, R172): with an entry at the head, whose frame stands, a lowest FREE slot, and no reply of
an earlier request that waits for cells. -/
theorem requestReady_some {s : State} {k : Fin 4} {e : InputEntry} {f : FrameRec}
    (he : s.hub.mgmt.input.head? = some e) (hf : s.hub.cells.frame? e.id = some f) (hk : s.hub.mgmt.slots[k] = .free)
    (hlow : ∀ j : Fin 4, j < k → s.hub.mgmt.slots[j] ≠ .free)
    (hw : ∀ (j : Fin 4) h c, s.hub.mgmt.slots[j] ≠ .reserved h c true) :
    requestReady s = some (k, e, f, readRequest e.level e.port (s.hub.cells.frameBytes f)) := by
  have hslot : freeSlot? s.hub.mgmt = some k := by
    unfold freeSlot?
    rw [List.find?_eq_some_iff_append]
    refine ⟨by rw [hk]; rfl, ?_⟩
    obtain ⟨l1, l2, hl⟩ := List.append_of_mem (List.mem_finRange k)
    refine ⟨l1, l2, hl, fun j hj => ?_⟩
    have hp : (l1 ++ k :: l2).Pairwise (· < ·) := by rw [← hl]; exact List.pairwise_lt_finRange 4
    have := hlow j ((List.pairwise_append.mp hp).2.2 j hj k (by simp))
    cases hq : s.hub.mgmt.slots[j] <;> simp_all [ReplySlot.isFree]
  have hu : unitFree s.hub.mgmt = true := by
    unfold unitFree
    simp only [Bool.not_eq_true', List.any_eq_false]
    intro q hq
    obtain ⟨i, hi, rfl⟩ := List.mem_iff_getElem.mp hq
    have := hw ⟨i, by simpa using hi⟩
    simp only [Fin.getElem_fin] at this
    rw [Vector.getElem_toList]
    cases hq : s.hub.mgmt.slots[i]'(by simpa using hi) with
    | reserved h c b => cases b <;> simp_all [ReplySlot.isBlocking]
    | _ => simp [ReplySlot.isBlocking]
  cases hi : s.hub.mgmt.input with
  | nil => simp [hi] at he
  | cons a r =>
    obtain rfl : a = e := by simpa [hi] using he
    unfold requestReady headRequest
    simp [hi, hslot, hf, hu]

/-- When none is made (R169, R171, R172): with the input queue empty, no FREE slot, or the reply of an earlier request
waiting for cells. -/
theorem requestReady_none {s : State} (h : s.hub.mgmt.input = [] ∨ (∀ j : Fin 4, s.hub.mgmt.slots[j] ≠ .free) ∨
    ∃ (j : Fin 4) (h : ReqHeader) (c : Option ReplyContent), s.hub.mgmt.slots[j] = .reserved h c true) :
    requestReady s = none := by
  unfold requestReady
  rcases h with h | h | ⟨j, h, c, hj⟩
  · simp [h]
  · have : freeSlot? s.hub.mgmt = none := by
      unfold freeSlot?
      rw [List.find?_eq_none]
      intro j _
      have := h j
      cases hq : s.hub.mgmt.slots[j] <;> simp_all [ReplySlot.isFree]
    rw [this]; split <;> simp_all
  · have : unitFree s.hub.mgmt = false := by
      unfold unitFree
      simp only [Bool.not_eq_false', List.any_eq_true]
      exact ⟨s.hub.mgmt.slots[j], by simp, by rw [hj]; rfl⟩
    rw [this]; split <;> simp

end Sys2Proof.Laws
end

