-- ==== Sys2Proof/Laws/Arbiter.lean ====
section
/-! SUPPORT. What the local arbiter, a start and the deciding of live ports can do: each of their functions said once in
the terms of the statements (Safety.lean). -/

namespace Sys2Proof.Laws

open Sys2Proof Sys2Proof.Machine Sys2Proof.Safety

/-! ## The local arbiter -/

theorem mayServe_iff (s : State) (test : Station → Bool) (k : Fin 256) :
    mayServe s test k = true ↔ ∃ st, s.station? k = some st ∧ test st = true ∧ inFlight s k = false := by
  unfold mayServe
  cases h : s.station? k <;> simp

theorem rotate_first {ptr k : Fin 256} {test : Fin 256 → Bool} {may : Fin 256 → Prop}
    (hm : ∀ j, test j = true ↔ may j) (h : FirstAfter ptr k may) : rotate ptr test = some k := by
  unfold rotate
  rw [List.find?_eq_some_iff_getElem]
  refine ⟨(hm k).2 h.1, (k - ptr - 1).val, by simp, by simp, ?_⟩
  intro j hj
  have h2 := h.2 ⟨j, lt_trans hj (k - ptr - 1).isLt⟩ (by rw [Fin.lt_def]; exact hj)
  simp only [List.getElem_map, List.getElem_finRange]
  rw [Bool.not_eq_true', ← Bool.not_eq_true]
  intro h3
  apply h2
  rw [← hm]
  exact h3

theorem rotate_none {ptr : Fin 256} {test : Fin 256 → Bool} {may : Fin 256 → Prop}
    (hm : ∀ j, test j = true ↔ may j) (h : ∀ j, ¬ may j) : rotate ptr test = none := by
  unfold rotate
  rw [List.find?_eq_none]
  intro j _ hj
  exact h j ((hm j).1 hj)

theorem mayServe_class (s : State) (c : StationClass) (k : Fin 256) :
    mayServe s (Station.classEligible c) k = true ↔ Waits s (fun st => st.cls = c) k := by
  rw [mayServe_iff]
  unfold Waits
  constructor <;> rintro ⟨st, h⟩ <;> refine ⟨st, ?_⟩ <;> simp [Station.classEligible] at * <;> tauto

theorem mayServe_credit (s : State) (k : Fin 256) :
    mayServe s Station.creditEligible k = true ↔ Waits s (fun st => st.cls = .passenger ∧ 0 < st.credit) k := by
  rw [mayServe_iff]
  unfold Waits
  constructor <;> rintro ⟨st, h⟩ <;> refine ⟨st, ?_⟩ <;>
    simp [Station.creditEligible, Station.classEligible] at * <;> tauto

theorem mayServe_surplus (s : State) (k : Fin 256) :
    mayServe s (Station.surplusEligible s.sched.surplus) k = true ↔
      Waits s (fun st => st.cls = .passenger ∧ 0 < s.sched.surplus) k := by
  rw [mayServe_iff]
  unfold Waits
  constructor <;> rintro ⟨st, h⟩ <;> refine ⟨st, ?_⟩ <;>
    simp [Station.surplusEligible, Station.classEligible] at * <;> tauto

theorem pickOnboard_some (s : State) : pickOnboard s = some .onboard ↔ OnboardWaits s := by
  unfold pickOnboard OnboardWaits
  split
  · rename_i h
    simp [h]
  · rename_i id rest h
    simp only [h]
    split
    · rename_i ho
      simp [ho]
    · rename_i k ho
      cases hf : inFlight s k <;> simp [ho, hf]

theorem pickOnboard_none (s : State) : pickOnboard s = none ↔ ¬ OnboardWaits s := by
  rw [← pickOnboard_some]
  unfold pickOnboard
  split <;> (try split) <;> (try split) <;> simp

theorem runHolder_iff (s : State) (k : Fin 256) : runHolder s = some k ↔ RunGoesOn s k := by
  unfold runHolder RunGoesOn
  split
  · rename_i h
    simp [h]
  · rename_i r h
    simp only [h, mayServe_iff]
    constructor
    · intro hh
      split at hh
      · rename_i h2
        obtain ⟨h3, st, h4, h5, h6⟩ := h2
        simp only [Option.some.injEq] at hh
        subst hh
        refine ⟨r, rfl, rfl, h3, st, h4, ?_⟩
        simp [Station.creditEligible, Station.classEligible] at h5
        tauto
      · cases hh
    · rintro ⟨r', hr, rfl, h3, st, h4, h5⟩
      cases hr
      rw [if_pos]
      refine ⟨h3, st, h4, ?_, h5.2.2.1⟩
      simp [Station.creditEligible, Station.classEligible]
      tauto

theorem passengerEligible_iff (s : State) : passengerEligible s = true ↔ PassengerWaits s := by
  simp only [passengerEligible, PassengerWaits, StationTable.slotsWhere, Bool.not_eq_true',
    List.isEmpty_eq_false_iff_exists_mem, List.mem_filter, List.mem_finRange, true_and]
  constructor
  · rintro ⟨k, hk⟩
    refine ⟨k, ?_⟩
    simp only [State.station?, StationTable.station?]
    split at hk
    · rename_i st hs
      refine ⟨st, hs, ?_⟩
      simp [Station.creditEligible, Station.surplusEligible, Station.classEligible] at hk
      tauto
    · simp at hk
  · rintro ⟨k, st, hs, h⟩
    refine ⟨k, ?_⟩
    simp only [State.station?, StationTable.station?] at hs
    rw [hs]
    simp [Station.creditEligible, Station.surplusEligible, Station.classEligible]
    tauto

theorem passengersFirst_iff (s : State) : passengersFirst s = true ↔ GuaranteeFirst s := by
  simp only [passengersFirst, guaranteeDue, GuaranteeFirst, Bool.and_eq_true, decide_eq_true_eq, passengerEligible_iff]
  tauto

/-! ## The end of a run (R142) -/

/-- A run ends where its holder is the record in `k`, and no other run does. -/
theorem endRun_eq (k : Fin 256) (r : Option Run) : endRun k r = if r.map (·.holder) = some k then none else r := by
  rcases r with _ | r
  · rfl
  · by_cases h : r.holder = k <;> simp [endRun, Option.filter, h]

@[simp] theorem runOnQueue_nil (k : Fin 256) (r : Option Run) : runOnQueue k [] r = endRun k r := rfl

@[simp] theorem runOnQueue_cons (k : Fin 256) (id : Nat) (rest : List Nat) (r : Option Run) :
    runOnQueue k (id :: rest) r = r := rfl

/-- A boundary ends a run, if any, whose holder's mode in force is SINGLE after it. -/
theorem boundary_run (adv : Bool) (s : State) (r : Run) (st : Station) (h : s.up.run = some r)
    (hs : (boundary adv s).station? r.holder = some st) :
    (boundary adv s).up.run = if st.shaping.mode = .run then some r else none := by
  rw [(boundary_spec adv s).2.2.2.2, computeBoundary_up]
  unfold State.station? StationTable.station? at hs
  rw [(boundary_spec adv s).1] at hs
  simp only [computeBoundary] at hs
  simp only [h, runAtBoundary]
  simp only [Fin.getElem_fin, Vector.getElem_map, Option.map_map] at hs ⊢
  rcases ht : s.table.slots[(r.holder : Nat)] with _ | st0
  · simp [ht] at hs
  · simp [ht] at hs ⊢
    subst hs
    by_cases hm : st0.shapeAtBoundary.shaping.mode = .run <;> simp [Station.atBoundary, Option.filter, ht, hm]

/-! ## A start -/

theorem tryStart_stands {p : Port} {id : Nat} {tx : Transmission} {s : State} {f : FrameRec}
    (hf : s.hub.cells.frame? id = some f) (hr : (s.hub.readFrame f (some p)).1 = []) :
    tryStart p id tx s = (true, setTx p (some tx) { s with hub := (s.hub.readFrame f (some p)).2 }) := by
  unfold tryStart
  rw [hf]
  simp only [hr, List.isEmpty_nil, if_true]

theorem tryStart_fails {p : Port} {id : Nat} {tx : Transmission} {s : State} {f : FrameRec} {bad : List Nat}
    (hf : s.hub.cells.frame? id = some f) (hr : (s.hub.readFrame f (some p)).1 = bad) (hne : bad ≠ []) :
    tryStart p id tx s = (false, failStart p f bad { s with hub := (s.hub.readFrame f (some p)).2 }) := by
  have : bad.isEmpty = false := by cases bad <;> simp_all
  unfold tryStart
  rw [hf]
  simp only [hr, this, Bool.false_eq_true, if_false]

/-! ## Live ports -/

theorem isLive_iff (x : StationState) : x.isLive = true ↔ x = .held ∨ x = .admitted ∨ x = .spent := by
  cases x <;> simp [StationState.isLive]

theorem slotsWhere_any (t : StationTable) (test : Station → Bool) :
    (!(t.slotsWhere test).isEmpty) = true ↔ ∃ k st, t.station? k = some st ∧ test st = true := by
  simp only [StationTable.slotsWhere, Bool.not_eq_true', List.isEmpty_eq_false_iff_exists_mem, List.mem_filter,
    List.mem_finRange, true_and, StationTable.station?]
  constructor
  · rintro ⟨k, hk⟩
    split at hk
    · exact ⟨k, _, by assumption, hk⟩
    · simp at hk
  · rintro ⟨k, st, hs, h⟩
    exact ⟨k, by rw [hs]; exact h⟩

theorem liveSeat_iff (s : State) (n : Fin 32) : liveSeat s n = true ↔
    ∃ k st, s.station? k = some st ∧ st.origin = .seat n ∧
      (st.state = .held ∨ st.state = .admitted ∨ st.state = .spent) := by
  unfold liveSeat
  rw [slotsWhere_any]
  simp only [Bool.and_eq_true, decide_eq_true_eq, isLive_iff]
  rfl

theorem isRadio_iff (w : Fin 4) (o : Origin) : o.isRadio w = true ↔ ∃ i, o = .radio w i := by
  cases o <;> simp [Origin.isRadio]

theorem liveRadio_iff (s : State) (w : Fin 4) : liveRadio s w = true ↔
    ∃ k st, s.station? k = some st ∧ (∃ i, st.origin = .radio w i) ∧
      (st.state = .held ∨ st.state = .admitted ∨ st.state = .spent) := by
  unfold liveRadio
  rw [slotsWhere_any]
  simp only [Bool.and_eq_true, isRadio_iff, isLive_iff]
  rfl

theorem transitRefusal_check (s : State) (y : End) : TransitCheck s y (transitRefusal s y) := by
  have ha : s.hold.action ≠ .shed → s.hold.action = .wait := by cases s.hold.action <;> simp
  unfold transitRefusal TransitCheck shedding
  cases hl : (s.ports.endOf y).unit.link <;> cases ho : (s.ports.endOf y).overrun <;>
    by_cases hs : s.hold.action = .shed <;> by_cases hq : 128 ≤ (s.ports.endOf y).transit.length <;>
    simp_all

end Sys2Proof.Laws
end

