-- ==== Sys2Proof/Laws/Counts.lean ====
section
/-! SUPPORT. What discards count: the tally, the port counters, the drops of records, and the reference of the frame. -/

namespace Sys2Proof.Laws

open Sys2Proof Sys2Proof.Machine Sys2Proof.Safety

/-! ## The tally -/

/-- Each discard reason has a counter of its own (R179). -/
theorem discard_index_inj {a b : Discard} (h : a.index = b.index) : a = b := by
  cases a <;> cases b <;> first | rfl | exact absurd h (by decide)

theorem tallyOf_tally (r r' : Discard) (h : Hub) :
    (h.tally r).tallyOf r' = h.tallyOf r' + BitVec.ofNat 32 (countAt r 1 r') := by
  unfold countAt
  split
  · subst r'; simp [Hub.tally, Hub.tallyOf]
  · rename_i hn
    have hi : r.index.val ≠ r'.index.val := fun e => hn (discard_index_inj (Fin.ext e.symm))
    simp [Hub.tally, Hub.tallyOf, hi]

theorem Quiet.tallyOf {h h' : Hub} (q : Quiet h h') (r : Discard) : h'.tallyOf r = h.tallyOf r := by
  unfold Hub.tallyOf; simp only [q.tally]

end Sys2Proof.Laws

namespace Sys2Proof.Safety

open Sys2Proof Sys2Proof.Machine Sys2Proof.Laws

/-! ## Counts -/

theorem Counts.refl (s : State) : Counts s s (fun _ => 0) (fun _ => 0) := ⟨fun _ => by simp, fun _ => by simp⟩

theorem Counts.trans {a b c : State} {n m : Discard → Nat} {d e : Port → Nat} (h : Counts a b n d) (g : Counts b c m e) :
    Counts a c (fun r => n r + m r) (fun q => d q + e q) :=
  ⟨fun r => by rw [g.tally, h.tally, BitVec.add_assoc, ← BitVec.ofNat_add],
   fun q => by rw [g.txDrops, h.txDrops, BitVec.add_assoc, ← BitVec.ofNat_add]⟩

theorem Counts.congr {a b : State} {n m : Discard → Nat} {d e : Port → Nat} (h : Counts a b n d)
    (hn : ∀ r, n r = m r) (hd : ∀ q, d q = e q) : Counts a b m e :=
  ⟨fun r => by rw [← hn]; exact h.tally r, fun q => by rw [← hd]; exact h.txDrops q⟩

/-- A change that keeps the tally and the tx drops counts nothing. -/
theorem Counts.none {a b : State} (h : ∀ r, b.hub.tallyOf r = a.hub.tallyOf r)
    (hd : ∀ q, (b.ports.unitOf q).ctr.txDrops = (a.ports.unitOf q).ctr.txDrops) :
    Counts a b (fun _ => 0) (fun _ => 0) := ⟨fun r => by simp [h r], fun q => by simp [hd q]⟩

/-- A change that leaves the ports alone, and raises or builds at most, counts nothing. -/
theorem Counts.ofQuiet {a b : State} (q : Quiet a.hub b.hub) (hp : b.ports = a.ports) :
    Counts a b (fun _ => 0) (fun _ => 0) := .none (fun r => q.tallyOf r) (fun _ => by rw [hp])

end Sys2Proof.Safety

namespace Sys2Proof.Laws

open Sys2Proof Sys2Proof.Machine Sys2Proof.Safety

theorem countAt_self {α : Type} [DecidableEq α] (a : α) (n : Nat) : countAt a n a = n := if_pos rfl

theorem countAt_ne {α : Type} [DecidableEq α] {a b : α} (n : Nat) (h : b ≠ a) : countAt a n b = 0 := if_neg h

theorem countAt_add {α : Type} [DecidableEq α] (a b : α) (n m : Nat) :
    countAt a n b + countAt a m b = countAt a (n + m) b := by unfold countAt; split <;> simp

theorem countAt_zero {α : Type} [DecidableEq α] (a b : α) : countAt a 0 b = 0 := by unfold countAt; split <;> rfl

/-! ## The counters of a port -/

/-- The counting of a port changes its counters and nothing else. -/
theorem unitOf_count (ps : Ports) (p q : Port) (g : PortCounters → PortCounters) :
    (ps.count p g).unitOf q = if q = p then { ps.unitOf p with ctr := g (ps.unitOf p).ctr } else ps.unitOf q := by
  unfold Ports.count
  split
  · subst q; exact unitOf_modUnit_self ..
  · exact unitOf_modUnit_ne _ _ ‹_›

/-- Two port blocks with the same queues, links and transmissions: all but the counters that every port keeps. -/
structure SameQueues (a b : Ports) : Prop where
  seats : ∀ n : Fin 32, quietSeat b.seats[n] = quietSeat a.seats[n]
  radios : ∀ w : Fin 4, quietRadio b.radios[w] = quietRadio a.radios[w]
  ends : ∀ x, quietEnd (b.endOf x) = quietEnd (a.endOf x)

theorem SameQueues.refl (a : Ports) : SameQueues a a := ⟨fun _ => rfl, fun _ => rfl, fun _ => rfl⟩

theorem SameQueues.trans {a b c : Ports} (h : SameQueues a b) (g : SameQueues b c) : SameQueues a c :=
  ⟨fun n => (g.seats n).trans (h.seats n), fun w => (g.radios w).trans (h.radios w),
    fun x => (g.ends x).trans (h.ends x)⟩

theorem SameQueues.seat {a b : Ports} (h : SameQueues a b) (n : Fin 32) : (b.seats[n]).egress = (a.seats[n]).egress := by
  have := congrArg (fun q => q.egress) (h.seats n); exact this

theorem SameQueues.radio {a b : Ports} (h : SameQueues a b) (w : Fin 4) : (b.radios[w]).egress = (a.radios[w]).egress := by
  have := congrArg (fun q => q.egress) (h.radios w); exact this

theorem SameQueues.orders {a b : Ports} (h : SameQueues a b) (w : Fin 4) : (b.radios[w]).orders = (a.radios[w]).orders := by
  have := congrArg (fun q => q.orders) (h.radios w); exact this

theorem SameQueues.transit {a b : Ports} (h : SameQueues a b) (x : End) : (b.endOf x).transit = (a.endOf x).transit := by
  have := congrArg (fun q => q.transit) (h.ends x); exact this

theorem SameQueues.endTx {a b : Ports} (h : SameQueues a b) (x : End) : (b.endOf x).unit.tx = (a.endOf x).unit.tx := by
  have := congrArg (fun e => e.unit.tx) (h.ends x); exact this

theorem count_sameQueues (ps : Ports) (p : Port) (g : PortCounters → PortCounters) : SameQueues ps (ps.count p g) := by
  unfold Ports.count Ports.modUnit
  cases p with
  | seat n =>
    refine ⟨fun m => ?_, fun _ => rfl, fun x => by simp⟩
    by_cases hm : m = n
    · subst hm; rw [modSeat_self]; rfl
    · have : n.val ≠ m.val := fun e => hm (Fin.ext e.symm)
      simp [Ports.modSeat, this]
  | radio w =>
    refine ⟨fun _ => rfl, fun v => ?_, fun x => by simp⟩
    by_cases hv : v = w
    · subst hv; rw [modRadio_self]; rfl
    · have : w.val ≠ v.val := fun e => hv (Fin.ext e.symm)
      simp [Ports.modRadio, this]
  | backbone y =>
    refine ⟨fun n => by simp, fun w => by simp, fun x => ?_⟩
    cases x <;> cases y <;> rfl

theorem count?_sameQueues (ps : Ports) (p : Option Port) (g : PortCounters → PortCounters) :
    SameQueues ps (ps.count? p g) := by
  cases p with
  | none => exact .refl ps
  | some p => exact count_sameQueues ps p g

/-! ## The reference of a frame -/

/-- The stored frames are those of before, and notices. -/
def AddsNotices (h h' : Hub) : Prop :=
  ∃ new : List FrameRec, h'.cells.frames = h.cells.frames ++ new ∧
    (∀ g ∈ new, g.kind = .notice ∧ g.refs = 1 ∧ g.station = none) ∧ h'.cells.retired = h.cells.retired

theorem AddsNotices.refl (h : Hub) : AddsNotices h h := ⟨[], by simp, by simp, rfl⟩

theorem AddsNotices.trans {a b c : Hub} (h : AddsNotices a b) (g : AddsNotices b c) : AddsNotices a c := by
  obtain ⟨n, h1, h2, h3⟩ := h
  obtain ⟨m, g1, g2, g3⟩ := g
  refine ⟨n ++ m, by rw [g1, h1, List.append_assoc], fun f hf => ?_, g3.trans h3⟩
  rcases List.mem_append.mp hf with hf | hf
  · exact h2 f hf
  · exact g2 f hf

theorem AddsNotices.sameCells {h h' : Hub} (e : h'.cells = h.cells) : AddsNotices h h' := ⟨[], by simp [e], by simp, by rw [e]⟩

theorem tryNotice_adds {sd : Sender} {dst : LinkAddr} {n : Notice} {h h' : Hub} {e : Option Nat}
    (ht : h.tryNotice sd dst n = some (h', e)) : AddsNotices h h' := by
  unfold Hub.tryNotice at ht
  split at ht
  · split at ht
    · cases ht
    · rename_i id h1 e1 hb
      obtain ⟨rfl, rfl⟩ := by simpa using ht
      obtain ⟨c, _, _, _, _, _, hf, _, hr, _⟩ := build_spec hb
      exact ⟨_, hf, by simp, hr⟩
  · cases ht

theorem reportLost_adds (sd : Sender) (h : Hub) : AddsNotices h (h.reportLost sd).1 := by
  unfold Hub.reportLost
  split
  · exact .refl h
  · split
    · exact .refl h
    · split
      · exact .refl h
      · rename_i ht; exact (tryNotice_adds ht).trans (.sameCells rfl)

theorem raiseCore_adds (sd : Sender) (n : Notice) (h : Hub) : AddsNotices h (h.raiseCore sd n).1 := by
  unfold Hub.raiseCore
  split
  · exact .refl h
  · have q := reportLost_adds sd h
    simp only
    split
    · exact q.trans (.sameCells rfl)
    · split
      · exact q.trans (.sameCells rfl)
      · rename_i ht; exact q.trans (tryNotice_adds ht)

theorem raise_adds (sd : Sender) (n : Notice) (h : Hub) : AddsNotices h (h.raise sd n) := by
  refine (raiseCore_adds sd n h).trans ?_
  show AddsNotices _ ((h.raiseCore sd n).1.noteEntered sd (h.raiseCore sd n).2)
  cases (h.raiseCore sd n).2 with
  | none => exact .refl _
  | some held => exact (AddsNotices.sameCells (flag_cells _ _)).trans (raiseCore_adds sd _ _)

theorem noteLeft_adds (sd : Sender) (l : Option Nat) (h : Hub) : AddsNotices h (h.noteLeft sd l) := by
  unfold Hub.noteLeft
  split
  · exact .refl h
  · exact raise_adds sd _ h

/-- R31: the failed cells of a returned chain are retired in its order, while the list has room. -/
theorem returnCells_retired (failed chain : List Nat) (c : CellMemory) :
    (returnCells failed chain c).1.retired =
      c.retired ++ (chain.filter (fun x => failed.contains x)).take (64 - c.retired.length) := by
  induction chain generalizing c with
  | nil => simp [returnCells]
  | cons x xs ih =>
    unfold returnCells
    simp only
    rw [ih, (testLeave_same _).1.retired]
    unfold CellMemory.returnCell
    by_cases hx : failed.contains x = true
    · rw [if_pos hx, List.filter_cons_of_pos hx]
      split
      · rename_i hl
        have : 64 - c.retired.length = (64 - (c.retired.length + 1)) + 1 := by omega
        rw [this, List.take_succ_cons, List.append_assoc]
        simp only [List.length_append, List.length_singleton, List.singleton_append]
      · rename_i hl
        have h0 : 64 - c.retired.length = 0 := by omega
        simp [h0]
    · rw [if_neg hx, List.filter_cons_of_neg hx]

/-- R25, R31: the freeing of a stored frame. -/
theorem freeFrame_spec (sd : Sender) {id : Nat} {h : Hub} {f : FrameRec} (hf : h.cells.frame? id = some f) :
    (∃ new : List FrameRec, (h.freeFrame sd id).cells.frames =
        h.cells.frames.filter (fun g => decide (g.id ≠ id)) ++ new ∧
      (∀ g ∈ new, g.kind = .notice ∧ g.refs = 1 ∧ g.station = none) ∧ (h.mgmt.reportAddr = none → new = [])) ∧
    (h.freeFrame sd id).cells.retired = h.cells.retired ++
      (f.chain.filter (fun x => f.failed.contains x)).take (64 - h.cells.retired.length) ∧
    (f.failed = [] → h.mgmt.reportAddr = none → (h.freeFrame sd id).cells.free = f.chain.reverse ++ h.cells.free) := by
  unfold Hub.freeFrame
  rw [hf]
  simp only
  unfold Hub.giveBack
  simp only
  generalize hc : ({ h.cells with frames := _ } : CellMemory) = c
  have hcf : c.frames = h.cells.frames.filter (fun g => decide (g.id ≠ id)) := by subst hc; rfl
  have hcr : c.retired = h.cells.retired := by subst hc; rfl
  have hce : c.free = h.cells.free := by subst hc; rfl
  have hs := (returnCells_perm f.failed f.chain c).2
  have hr := returnCells_retired f.failed f.chain c
  generalize hh : Hub.flagN .memoryDegraded (returnCells f.failed f.chain c).2.2
    { h with cells := (returnCells f.failed f.chain c).1 } = h1
  have h1c : h1.cells = (returnCells f.failed f.chain c).1 := by subst hh; simp
  have h1r : h1.mgmt.reportAddr = h.mgmt.reportAddr := by subst hh; exact (flagN_quiet _ _ _).reportAddr
  have hq : h.mgmt.reportAddr = none → ∀ l, h1.noteLeft sd l = h1 := fun hn l => by
    unfold Hub.noteLeft
    split
    · rfl
    · exact raise_none (by rw [h1r, hn])
  obtain ⟨new, n1, n2, n3⟩ := noteLeft_adds sd (returnCells f.failed f.chain c).2.1 h1
  refine ⟨⟨new, by rw [n1, h1c, hs.frames, hcf], n2, fun hn => ?_⟩, by rw [n3, h1c, hr, hcr], fun hb hn => ?_⟩
  · rw [hq hn] at n1; simpa using n1
  · rw [hq hn, h1c, hb, (returnCells_good f.chain c).1, hce]

theorem frame?_modFrame_self {c : CellMemory} {id : Nat} {f : FrameRec} {g : FrameRec → FrameRec}
    (hf : c.frame? id = some f) (hg : ∀ x, (g x).id = x.id) : (c.modFrame id g).frame? id = some (g f) := by
  have hid : f.id = id := by simpa using List.find?_some hf
  unfold CellMemory.frame? CellMemory.modFrame at *
  rw [List.find?_map]
  have he : (fun x : FrameRec => (if x.id = id then g x else x).id == id) = fun x => x.id == id := by
    funext x; split <;> simp [*]
  simp only [Function.comp_def, he, hf, Option.map_some, hid, if_true]

theorem frame?_modFrame_ne {c : CellMemory} {id j : Nat} {g : FrameRec → FrameRec} (hg : ∀ x, (g x).id = x.id)
    (hj : j ≠ id) : (c.modFrame id g).frame? j = c.frame? j := by
  unfold CellMemory.frame? CellMemory.modFrame
  rw [List.find?_map]
  have he : (fun x : FrameRec => (if x.id = id then g x else x).id == j) = fun x => x.id == j := by
    funext x; split <;> simp [*]
  simp only [Function.comp_def, he]
  cases h : List.find? (fun x => x.id == j) c.frames with
  | none => rfl
  | some f =>
    have : f.id = j := by simpa using List.find?_some h
    simp [this, hj]

theorem frame?_filter_ne {c c' : CellMemory} {id j : Nat} {new : List FrameRec} (hj : j ≠ id)
    (hf : c'.frames = c.frames.filter (fun g => decide (g.id ≠ id)) ++ new) :
    c'.frame? j = (c.frame? j).or (new.find? (fun g => g.id == j)) := by
  unfold CellMemory.frame?
  rw [hf, List.find?_append, List.find?_filter]
  congr 1
  congr 1
  funext x
  by_cases hx : x.id = j <;> simp [hx, hj]

/-- R25: the drop of a reference. -/
theorem dropRef_dropped (id : Nat) {s t : State} (h : t.hub.cells = (s.hub.dropRef s.sender id).cells) :
    RefDropped id s t := by
  unfold Hub.dropRef at h
  refine ⟨fun hn => by rw [h, hn], fun f hf => ?_⟩
  rw [hf] at h
  simp only at h
  refine ⟨fun hr => ?_, fun hr => ?_⟩
  · rw [if_neg (by omega)] at h
    rw [h]
    exact ⟨frame?_modFrame_self hf (fun _ => rfl), rfl, rfl⟩
  · rw [if_pos hr] at h
    obtain ⟨⟨new, n1, n2, n3⟩, r, g⟩ := freeFrame_spec s.sender hf
    rw [h]
    exact ⟨⟨new, n1, fun g hg => ⟨(n2 g hg).1, (n2 g hg).2.1⟩, n3⟩, r, g⟩

/-- The drop of a frame's reference leaves what other frames name. -/
theorem dropRef_owner_ne (sd : Sender) {id j : Nat} (h : Hub) (hj : j ≠ id) :
    (h.dropRef sd id).cells.owner j = h.cells.owner j := by
  unfold Hub.dropRef
  cases hf : h.cells.frame? id with
  | none => rfl
  | some f =>
    simp only
    split
    · obtain ⟨⟨new, n1, n2, _⟩, _⟩ := freeFrame_spec sd hf
      unfold CellMemory.owner
      rw [frame?_filter_ne hj n1]
      cases h.cells.frame? j with
      | some g => rfl
      | none =>
        simp only [Option.none_or, Option.bind_none]
        cases hn : new.find? (fun g => g.id == j) with
        | none => rfl
        | some g => exact (n2 g (List.mem_of_find?_eq_some hn)).2.2
    · unfold CellMemory.owner
      have := frame?_modFrame_ne (c := h.cells) (g := fun g => { g with refs := g.refs - 1 }) (fun _ => rfl) hj
      exact congrArg (fun f => f.bind FrameRec.station) this

/-! ## Discarding queue entries -/

theorem count?_txDrops (ps : Ports) (b : Option Port) (q : Port) :
    ((ps.count? b PortCounters.txDrop).unitOf q).ctr.txDrops =
      (ps.unitOf q).ctr.txDrops + BitVec.ofNat 32 (if b = some q then 1 else 0) := by
  cases b with
  | none => simp [Ports.count?]
  | some p =>
    by_cases h : q = p
    · subst h; simp [Ports.count?, unitOf_count, PortCounters.txDrop]
    · have h' : p ≠ q := fun e => h e.symm
      simp [Ports.count?, unitOf_count, h, h']

theorem count?_rxDiscard_txDrops (ps : Ports) (b : Option Port) (q : Port) :
    ((ps.count? b PortCounters.rxDiscard).unitOf q).ctr.txDrops = (ps.unitOf q).ctr.txDrops := by
  cases b with
  | none => rfl
  | some p =>
    by_cases h : q = p
    · subst h; simp [Ports.count?, unitOf_count, PortCounters.rxDiscard]
    · simp [Ports.count?, unitOf_count, h]

/-- What the discarding of one queue entry counts (R159, R179). -/
theorem discardEntry_counts (r : Discard) (b : Option Port) (id : Nat) (s : State) :
    Counts s (discardEntry r b id s) (countAt r 1) (fun q => if b = some q then 1 else 0) := by
  refine ⟨fun r' => ?_, fun q => ?_⟩
  · show (Hub.dropRef s.sender id (Hub.tally r s.hub)).tallyOf r' = _
    rw [(dropRef_quiet _ _ _).tallyOf, tallyOf_tally]
  · show (((s.ports.count? b PortCounters.txDrop).count? _ PortCounters.rxDiscard).unitOf q).ctr.txDrops = _
    rw [count?_rxDiscard_txDrops, count?_txDrops]

theorem discardEntry_sameQueues (r : Discard) (b : Option Port) (id : Nat) (s : State) :
    SameQueues s.ports (discardEntry r b id s).ports :=
  (count?_sameQueues _ _ _).trans (count?_sameQueues _ _ _)

theorem discardEntry_quietHub (r : Discard) (b : Option Port) (id : Nat) (s : State) :
    Quiet (s.hub.tally r) (discardEntry r b id s).hub := dropRef_quiet _ _ _

theorem moreDrops_zero : moreDrops 0 = fun st => st := by funext st; simp [moreDrops]

/-- The record that the entry's frame names counts one drop (R39). -/
theorem discardEntry_station (r : Discard) (b : Option Port) (id : Nat) (s : State) (k : Fin 256) :
    (discardEntry r b id s).station? k =
      (s.station? k).map (moreDrops (if s.hub.cells.owner id = some k then 1 else 0)) := by
  show (s.table.modStation? (s.hub.cells.owner id) Station.drop).station? k = _
  have h0 := moreDrops_zero
  cases ho : s.hub.cells.owner id with
  | none => simp [StationTable.modStation?, h0, State.station?]
  | some j =>
    by_cases hk : k = j
    · subst hk
      simp only [StationTable.modStation?, station?_modStation_self, if_true]
      rfl
    · have : ¬ (some j = some k) := fun e => hk (Option.some.inj e).symm
      simp [StationTable.modStation?, station?_modStation_ne _ _ hk, this, h0, State.station?]

theorem discardEntry_owner_ne (r : Discard) (b : Option Port) {id j : Nat} (s : State) (hj : j ≠ id) :
    (discardEntry r b id s).hub.cells.owner j = s.hub.cells.owner j :=
  dropRef_owner_ne s.sender (Hub.tally r s.hub) hj

theorem discardEntries_cons (r : Discard) (b : Option Port) (id : Nat) (ids : List Nat) (s : State) :
    discardEntries r b (id :: ids) s = discardEntries r b ids (discardEntry r b id s) := rfl

/-- What the discarding of queue entries counts: one for each (R159, R179). -/
theorem discardEntries_counts (r : Discard) (b : Option Port) (ids : List Nat) (s : State) :
    Counts s (discardEntries r b ids s) (countAt r ids.length) (fun q => if b = some q then ids.length else 0) := by
  induction ids generalizing s with
  | nil => exact (Counts.refl s).congr (fun r' => (countAt_zero _ _).symm) (fun q => by simp)
  | cons id ids ih =>
    rw [discardEntries_cons]
    refine ((discardEntry_counts r b id s).trans (ih _)).congr (fun r' => ?_) (fun q => ?_)
    · rw [countAt_add, List.length_cons, Nat.add_comm]
    · by_cases h : b = some q <;> simp [h, Nat.add_comm]

theorem discardEntries_sameQueues (r : Discard) (b : Option Port) (ids : List Nat) (s : State) :
    SameQueues s.ports (discardEntries r b ids s).ports := by
  induction ids generalizing s with
  | nil => exact .refl _
  | cons id ids ih => exact (discardEntry_sameQueues r b id s).trans (ih _)

theorem discardEntries_slots (r : Discard) (b : Option Port) (ids : List Nat) (s : State) :
    (discardEntries r b ids s).hub.mgmt.slots = s.hub.mgmt.slots := by
  induction ids generalizing s with
  | nil => rfl
  | cons id ids ih => exact (ih _).trans (discardEntry_quietHub r b id s).slots

theorem discardEntries_builtOrder (r : Discard) (b : Option Port) (ids : List Nat) (s : State) :
    (discardEntries r b ids s).hub.mgmt.builtOrder = s.hub.mgmt.builtOrder := by
  induction ids generalizing s with
  | nil => rfl
  | cons id ids ih => exact (ih _).trans (discardEntry_quietHub r b id s).builtOrder

theorem discardEntries_held (r : Discard) (b : Option Port) (ids : List Nat) (s : State) :
    (discardEntries r b ids s).table.held = s.table.held := by
  induction ids generalizing s with
  | nil => rfl
  | cons id ids ih => exact (ih _).trans (modStation?_held _ _ _)

theorem moreDrops_add (n m : Nat) (st : Station) : moreDrops m (moreDrops n st) = moreDrops (n + m) st := by
  simp [moreDrops, BitVec.add_assoc, ← BitVec.ofNat_add]

theorem discardEntries_owner_ne (r : Discard) (b : Option Port) {ids : List Nat} {j : Nat} (s : State) (hj : j ∉ ids) :
    (discardEntries r b ids s).hub.cells.owner j = s.hub.cells.owner j := by
  induction ids generalizing s with
  | nil => rfl
  | cons id ids ih =>
    rw [List.mem_cons, not_or] at hj
    rw [discardEntries_cons, ih _ hj.2, discardEntry_owner_ne _ _ _ hj.1]

/-- Whatever entries are discarded, a record changes in its drops alone. -/
theorem discardEntries_apart (r : Discard) (b : Option Port) (ids : List Nat) (s : State) (k : Fin 256) :
    ∃ n, (discardEntries r b ids s).station? k = (s.station? k).map (moreDrops n) := by
  induction ids generalizing s with
  | nil =>
    have h0 := moreDrops_zero
    exact ⟨0, by simp [discardEntries, h0]⟩
  | cons id ids ih =>
    obtain ⟨n, hn⟩ := ih (discardEntry r b id s)
    refine ⟨(if s.hub.cells.owner id = some k then 1 else 0) + n, ?_⟩
    rw [discardEntries_cons, hn, discardEntry_station]
    cases s.station? k <;> simp [moreDrops_add]

/-- Where the entries are distinct, each record counts one drop for each entry whose frame names it (R39). -/
theorem discardEntries_drops (r : Discard) (b : Option Port) {ids : List Nat} (s : State) (hn : ids.Nodup) (k : Fin 256) :
    (discardEntries r b ids s).station? k =
      (s.station? k).map (moreDrops (ids.countP (fun id => decide (s.hub.cells.owner id = some k)))) := by
  induction ids generalizing s with
  | nil =>
    have h0 := moreDrops_zero
    simp [discardEntries, h0]
  | cons id ids ih =>
    have hn := List.nodup_cons.mp hn
    rw [discardEntries_cons, ih _ hn.2, discardEntry_station]
    have he : ids.countP (fun j => decide ((discardEntry r b id s).hub.cells.owner j = some k)) =
        ids.countP (fun j => decide (s.hub.cells.owner j = some k)) :=
      List.countP_congr (fun j hj => by rw [discardEntry_owner_ne r b s (fun e : j = id => hn.1 (e ▸ hj))])
    rw [he]
    cases s.station? k with
    | none => rfl
    | some st =>
      simp only [Option.map_some, moreDrops_add]
      congr 2
      by_cases h : s.hub.cells.owner id = some k <;> simp [h, Nat.add_comm]

theorem moreDrops_apart (n : Nat) (st : Station) : apartFromDrops (moreDrops n st) = apartFromDrops st := rfl

end Sys2Proof.Laws
end

