-- ==== Sys2Proof/Laws/Removal.lean ====
section
/-! SUPPORT. What purges, removals and the freeing of a record do, with what they count. -/

namespace Sys2Proof.Laws

open Sys2Proof Sys2Proof.Machine Sys2Proof.Safety

/-- A change of the ports that keeps the counters counts nothing. -/
theorem counts_onPorts (s : State) {g : Ports → Ports} (h : ∀ q, ((g s.ports).unitOf q).ctr = (s.ports.unitOf q).ctr) :
    Counts s (onPorts g s) (fun _ => 0) (fun _ => 0) :=
  .none (fun _ => rfl) (fun q => by show ((g s.ports).unitOf q).ctr.txDrops = _; rw [h])

theorem modSeat_unit (ps : Ports) (n : Fin 32) {g : SeatPort → SeatPort} (h : ∀ q, (g q).unit = q.unit) (p : Port) :
    (ps.modSeat n g).unitOf p = ps.unitOf p := by
  cases p with
  | seat m =>
    by_cases hm : m = n
    · subst hm
      have := modSeat_self ps m g
      show ((ps.modSeat m g).seats[m]).unit = _
      rw [this, h]; rfl
    · have : n.val ≠ m.val := fun e => hm (Fin.ext e.symm)
      simp [Ports.unitOf, Ports.modSeat, this]
  | radio w => rfl
  | backbone x => cases x <;> rfl

theorem modRadio_unit (ps : Ports) (w : Fin 4) {g : RadioLink → RadioLink} (h : ∀ q, (g q).unit = q.unit) (p : Port) :
    (ps.modRadio w g).unitOf p = ps.unitOf p := by
  cases p with
  | seat m => rfl
  | radio v =>
    by_cases hv : v = w
    · subst hv
      have := modRadio_self ps v g
      show ((ps.modRadio v g).radios[v]).unit = _
      rw [this, h]; rfl
    · have : w.val ≠ v.val := fun e => hv (Fin.ext e.symm)
      simp [Ports.unitOf, Ports.modRadio, this]
  | backbone x => cases x <;> rfl

/-- What a purge of a record's unicasts in one egress queue does, from `s` to `u` (R48, R159): `ids` are the entries. -/
structure EgressPurged (k : Fin 256) (o : Origin) (ids : List Nat) (s u : State) : Prop where
  counts : Counts s u (countAt .purge ids.length) (countAt o.port ids.length)
  left : egressLength s o - egressLength u o = ids.length
  orders : ∀ w : Fin 4, (u.ports.radios[w]).orders = (s.ports.radios[w]).orders
  held : u.table.held = s.table.held
  slots : u.hub.mgmt.slots = s.hub.mgmt.slots
  up : u.up = s.up
  records : ∀ j, ∃ n, u.station? j = (s.station? j).map (moreDrops n)
  drops : ids.Nodup → ∀ j, u.station? j = (s.station? j).map (moreDrops (if j = k then ids.length else 0))

theorem countP_names {s : State} {k j : Fin 256} {ids : List Nat} (h : ∀ id ∈ ids, s.hub.cells.owner id = some k) :
    ids.countP (fun id => decide (s.hub.cells.owner id = some j)) = if j = k then ids.length else 0 := by
  split
  · subst j; exact List.countP_eq_length.mpr (fun id hid => by simp [h id hid])
  · rename_i hj
    have hj' : k ≠ j := fun e => hj e.symm
    exact List.countP_eq_zero.mpr (fun id hid => by simp [h id hid, hj'])

theorem filter_length_left {α : Type} (p : α → Bool) (l : List α) :
    l.length - (l.filter (fun x => !p x)).length = (l.filter p).length := by
  have := List.length_eq_length_filter_add (l := l) p
  omega

theorem countAt_port (p : Port) (n : Nat) (q : Port) : (if some p = some q then n else 0) = countAt p n q := by
  unfold countAt; by_cases h : q = p
  · subst h; simp
  · have : p ≠ q := fun e => h e.symm
    simp [h, this]

/-- What a purge of an origin's egress queue does (R48, R53, R159). -/
theorem purgeEgress_purged (k : Fin 256) (o : Origin) (s : State) :
    EgressPurged k o (unicastsAt s k o) s (purgeEgress k o s) := by
  cases o with
  | seat n =>
    generalize hg : (Ports.modSeat n (fun p => { p with
      egress := (s.ports.seats[n]).egress.filter (fun id => !s.hub.cells.names k id) })) = g
    have hu : purgeEgress k (.seat n) s = discardEntries .purge (some (.seat n)) (unicastsAt s k (.seat n)) (onPorts g s) := by
      subst hg; rfl
    rw [hu]
    generalize hi : unicastsAt s k (.seat n) = ids
    have own : ∀ id ∈ ids, s.hub.cells.owner id = some k := fun id hid => by
      subst hi; simpa using (List.mem_filter.mp hid).2
    have sq := discardEntries_sameQueues .purge (some (.seat n)) ids (onPorts g s)
    have c := discardEntries_counts .purge (some (.seat n)) ids (onPorts g s)
    have c0 : Counts s (onPorts g s) (fun _ => 0) (fun _ => 0) :=
      counts_onPorts s (fun q => by subst hg; exact congrArg PortUnit.ctr (modSeat_unit _ _ (by intro _; rfl) _))
    refine ⟨(c0.trans c).congr (fun r => by simp) (fun q => by simp only [Nat.zero_add]; exact countAt_port _ _ _), ?_,
      fun w => ?_, discardEntries_held .., discardEntries_slots .., discardEntries_up .., fun j => ?_, fun hn j => ?_⟩
    · show (s.ports.seats[n]).egress.length - ((discardEntries _ _ ids (onPorts g s)).ports.seats[n]).egress.length = _
      rw [sq.seat n]
      have he : ((onPorts g s).ports.seats[n]).egress =
          (s.ports.seats[n]).egress.filter (fun id => !s.hub.cells.names k id) := by
        subst hg
        show ((Ports.modSeat n _ s.ports).seats[n]).egress = _
        rw [modSeat_self]
      rw [he, filter_length_left, ← hi]; rfl
    · rw [sq.orders w]; subst hg; rfl
    · exact discardEntries_apart ..
    · have := discardEntries_drops .purge (some (.seat n)) (onPorts g s) hn j
      rw [this, ← countP_names (j := j) own]; rfl
  | radio v i =>
    generalize hg : (Ports.modRadio v (fun p => { p with
      egress := (s.ports.radios[v]).egress.filter (fun e => !s.hub.cells.names k e.id) })) = g
    have hu : purgeEgress k (.radio v i) s =
        discardEntries .purge (some (.radio v)) (unicastsAt s k (.radio v i)) (onPorts g s) := by
      subst hg; rfl
    rw [hu]
    generalize hi : unicastsAt s k (.radio v i) = ids
    have own : ∀ id ∈ ids, s.hub.cells.owner id = some k := fun id hid => by
      subst hi; simpa using (List.mem_filter.mp hid).2
    have sq := discardEntries_sameQueues .purge (some (.radio v)) ids (onPorts g s)
    have c := discardEntries_counts .purge (some (.radio v)) ids (onPorts g s)
    have c0 : Counts s (onPorts g s) (fun _ => 0) (fun _ => 0) :=
      counts_onPorts s (fun q => by subst hg; exact congrArg PortUnit.ctr (modRadio_unit _ _ (by intro _; rfl) _))
    refine ⟨(c0.trans c).congr (fun r => by simp) (fun q => by simp only [Nat.zero_add]; exact countAt_port _ _ _), ?_,
      fun w => ?_, discardEntries_held .., discardEntries_slots .., discardEntries_up .., fun j => ?_, fun hn j => ?_⟩
    · show (s.ports.radios[v]).egress.length - ((discardEntries _ _ ids (onPorts g s)).ports.radios[v]).egress.length = _
      rw [sq.radio v]
      have he : ((onPorts g s).ports.radios[v]).egress =
          (s.ports.radios[v]).egress.filter (fun e => !s.hub.cells.names k e.id) := by
        subst hg
        show ((Ports.modRadio v _ s.ports).radios[v]).egress = _
        rw [modRadio_self]
      rw [he, filter_length_left (fun e : RadioEntry => s.hub.cells.names k e.id), ← hi]
      show _ = (((s.ports.radios[v]).egress.map (·.id)).filter _).length
      rw [List.filter_map, List.length_map]; rfl
    · rw [sq.orders w]; subst hg
      by_cases hw : w = v
      · subst hw
        show ((Ports.modRadio w _ s.ports).radios[w]).orders = _
        rw [modRadio_self]
      · have : v.val ≠ w.val := fun e => hw (Fin.ext e.symm)
        simp [onPorts, Ports.modRadio, this]
    · exact discardEntries_apart ..
    · have := discardEntries_drops .purge (some (.radio v)) (onPorts g s) hn j
      rw [this, ← countP_names (j := j) own]; rfl

/-- What a purge of the record's upward queue does, from `s` to `u` (R48, R53, R134). -/
structure UpwardPurged (k : Fin 256) (st : Station) (s u : State) : Prop where
  counts : Counts s u (countAt .purge st.upq.length) (fun _ => 0)
  queues : SameQueues s.ports u.ports
  held : u.table.held = s.table.held
  slots : u.hub.mgmt.slots = s.hub.mgmt.slots
  onboard : u.up.onboard = s.up.onboard
  own : ∃ n, u.station? k = some (moreDrops n { st with upq := [] })
  others : ∀ j, j ≠ k → ∃ n, u.station? j = (s.station? j).map (moreDrops n)
  owners : ∀ id, id ∉ st.upq → u.hub.cells.owner id = s.hub.cells.owner id
  drops : st.upq.Nodup → (∀ id ∈ st.upq, s.hub.cells.owner id = some k) →
    u.station? k = some (moreDrops st.upq.length { st with upq := [] }) ∧ ∀ j, j ≠ k → u.station? j = s.station? j

theorem purgeUpward_purged {k : Fin 256} {st : Station} {s : State} (hs : s.station? k = some st) :
    UpwardPurged k st s (purgeUpward k s) := by
  generalize hb : ({ s with
      table := s.table.modStation k (fun st => { st with upq := [] })
      up := { s.up with run := endRun k s.up.run } } : State) = b
  have hu : purgeUpward k s = discardEntries .purge none st.upq b := by
    subst hb; unfold purgeUpward; rw [hs]
  rw [hu]
  have bk : b.station? k = some { st with upq := [] } := by
    subst hb
    show (s.table.modStation k _).station? k = _
    rw [station?_modStation_self]
    show Option.map _ (s.station? k) = _
    rw [hs]; rfl
  have bj : ∀ j, j ≠ k → b.station? j = s.station? j := fun j hj => by
    subst hb; exact station?_modStation_ne _ _ hj
  have c0 : Counts s b (fun _ => 0) (fun _ => 0) := by subst hb; exact .none (fun _ => rfl) (fun _ => rfl)
  have bh : b.hub = s.hub := by subst hb; rfl
  have bp : b.ports = s.ports := by subst hb; rfl
  refine ⟨(c0.trans (discardEntries_counts .purge none st.upq b)).congr (fun r => by simp) (fun q => by simp),
    bp ▸ discardEntries_sameQueues .purge none st.upq b, (discardEntries_held ..).trans (by subst hb; rfl),
    (discardEntries_slots ..).trans (by rw [bh]), by rw [discardEntries_up]; subst hb; rfl, ?_, fun j hj => ?_,
    fun id hid => (discardEntries_owner_ne _ _ b hid).trans (by rw [bh]), fun hn ho => ⟨?_, fun j hj => ?_⟩⟩
  · obtain ⟨n, hn⟩ := discardEntries_apart .purge none st.upq b k
    exact ⟨n, by rw [hn, bk]; rfl⟩
  · obtain ⟨n, hn⟩ := discardEntries_apart .purge none st.upq b j
    exact ⟨n, by rw [hn, bj j hj]⟩
  · rw [discardEntries_drops .purge none b hn k, bk, countP_names (by rw [bh]; exact ho), if_pos rfl]; rfl
  · rw [discardEntries_drops .purge none b hn j, bj j hj, countP_names (by rw [bh]; exact ho), if_neg hj, moreDrops_zero]
    cases s.station? j <;> rfl

/-- A purge of the upward queue and then of the egress queue of an origin (R53), and what it counts. -/
structure Purged (k : Fin 256) (st : Station) (o : Origin) (s u : State) : Prop where
  counts : PurgeCounts k st.upq o s u
  own : ∃ n, u.station? k = some (moreDrops n { st with upq := [] })
  others : ∀ j r, j ≠ k → s.station? j = some r → ∃ n, u.station? j = some (moreDrops n r)
  orders : ∀ w : Fin 4, (u.ports.radios[w]).orders = (s.ports.radios[w]).orders
  held : u.table.held = s.table.held
  slots : u.hub.mgmt.slots = s.hub.mgmt.slots
  onboard : u.up.onboard = s.up.onboard

theorem sameQueues_egressLength {s u : State} (h : SameQueues s.ports u.ports) (o : Origin) :
    egressLength u o = egressLength s o := by
  cases o with
  | seat n => show (u.ports.seats[n]).egress.length = _; rw [h.seat n]; rfl
  | radio w i => show (u.ports.radios[w]).egress.length = _; rw [h.radio w]; rfl

theorem unicastsAt_congr {k : Fin 256} {st : Station} {s u : State} (h : UpwardPurged k st s u) {o : Origin}
    (hn : (st.upq ++ unicastsAt s k o).Nodup) (ho : ∀ id ∈ st.upq, s.hub.cells.owner id = some k) :
    unicastsAt u k o = unicastsAt s k o := by
  have key : ∀ l : List Nat, (st.upq ++ l.filter (fun id => decide (s.hub.cells.owner id = some k))).Nodup →
      l.filter (fun id => decide (u.hub.cells.owner id = some k)) =
        l.filter (fun id => decide (s.hub.cells.owner id = some k)) := fun l hl =>
    List.filter_congr (fun id hid => by
      by_cases hq : id ∈ st.upq
      · exact absurd rfl ((List.nodup_append.mp hl).2.2 id hq id (List.mem_filter.mpr ⟨hid, by simp [ho id hq]⟩))
      · rw [h.owners id hq])
  cases o with
  | seat n =>
    show ((u.ports.seats[n]).egress).filter _ = _
    rw [h.queues.seat n]; exact key _ hn
  | radio w i =>
    show ((u.ports.radios[w]).egress.map (·.id)).filter _ = _
    rw [h.queues.radio w]; exact key _ hn

theorem purge_purged {k : Fin 256} {st : Station} {s : State} (o : Origin) (hs : s.station? k = some st) :
    Purged k st o s (purgeEgress k o (purgeUpward k s)) := by
  have a := purgeUpward_purged hs
  have b := purgeEgress_purged k o (purgeUpward k s)
  have hl := sameQueues_egressLength a.queues o
  refine ⟨⟨?_, fun hn ho => ?_⟩, ?_, fun j r hj hr => ?_, fun w => (b.orders w).trans (a.queues.orders w),
    b.held.trans a.held, b.slots.trans a.slots, by rw [b.up]; exact a.onboard⟩
  · rw [← hl, b.left]
    exact (a.counts.trans b.counts).congr (fun r => countAt_add ..) (fun q => by simp)
  · have hu := unicastsAt_congr a hn ho
    rw [hu] at b
    have hn' := List.nodup_append.mp hn
    obtain ⟨d1, d2⟩ := a.drops hn'.1 ho
    have e := b.drops hn'.2.1
    rw [← hl, b.left]
    refine ⟨rfl, fun st0 st1 h0 h1 => ?_, fun j hj => ?_⟩
    · rw [hs] at h0
      rw [e k, d1, if_pos rfl] at h1
      obtain rfl := Option.some.inj h0
      obtain rfl := Option.some.inj h1
      rw [moreDrops_add]; rfl
    · rw [e j, if_neg hj, d2 j hj, moreDrops_zero]
      cases s.station? j <;> rfl
  · obtain ⟨n, hn⟩ := a.own
    obtain ⟨m, hm⟩ := b.records k
    exact ⟨n + m, by rw [hm, hn, Option.map_some, moreDrops_add]⟩
  · obtain ⟨n, hn⟩ := a.others j hj
    obtain ⟨m, hm⟩ := b.records j
    exact ⟨n + m, by rw [hm, hn, hr, Option.map_some, Option.map_some, moreDrops_add]⟩

/-- R44, R69, R159: the purge of an origin's egress queue alone. -/
theorem purgeEgress_counts (k : Fin 256) (o : Origin) (s : State) : PurgeCounts k [] o s (purgeEgress k o s) := by
  have b := purgeEgress_purged k o s
  refine ⟨?_, fun hn _ => ?_⟩
  · rw [b.left]; exact b.counts.congr (fun r => by simp) (fun _ => rfl)
  · have e := b.drops hn
    rw [b.left]
    refine ⟨rfl, fun st0 st1 h0 h1 => ?_, fun j hj => ?_⟩
    · rw [e k, h0, if_pos rfl] at h1
      obtain rfl := Option.some.inj h1
      simp
    · rw [e j, if_neg hj, moreDrops_zero]
      cases s.station? j <;> rfl

/-- A state that differs in the held order and the orders alone counts the same. -/
theorem PurgeCounts_congr {k : Fin 256} {upq : List Nat} {o : Origin} {s u v : State} (h : PurgeCounts k upq o s u)
    (hh : v.hub = u.hub) (hu : ∀ q, (v.ports.unitOf q).ctr = (u.ports.unitOf q).ctr)
    (hl : egressLength v o = egressLength u o) (hs : ∀ j, v.station? j = u.station? j) : PurgeCounts k upq o s v := by
  obtain ⟨c, d⟩ := h
  refine ⟨?_, fun hn ho => ?_⟩
  · rw [hl]
    exact ⟨fun r => by rw [hh]; exact c.tally r, fun q => by rw [hu]; exact c.txDrops q⟩
  · rw [hl]
    obtain ⟨d1, d2, d3⟩ := d hn ho
    exact ⟨d1, fun a b ha hb => d2 a b ha (by rw [← hs]; exact hb), fun j hj => by rw [hs]; exact d3 j hj⟩

/-- What the freeing of a record does (R56). -/
theorem freeRecord_freed {k : Fin 256} {st : Station} {s : State} (why : Reason) (hs : s.station? k = some st) :
    Freed k st why s (freeRecord k why s) := by
  unfold freeRecord
  rw [hs]
  simp only
  generalize ht : (if why = .released then s
    else raiseNotice (.stationGone k st.cls st.origin st.addr why st.ctr st.allowance) s) = told
  have hp : parkedRelease told.hub.mgmt k = parkedRelease s.hub.mgmt k := by
    have : told.hub.mgmt.slots = s.hub.mgmt.slots := by
      subst ht
      split
      · rfl
      · exact (raise_quiet _ _ _).slots
    unfold parkedRelease; rw [this]
  rw [hp]
  unfold Freed
  simp only [ht]
  cases h : parkedRelease s.hub.mgmt k with
  | none => exact ⟨told, fun _ => rfl, fun j hj => (nomatch hj), rfl⟩
  | some j => exact ⟨_, fun hn => (nomatch hn), fun i hi => by cases hi; rfl, rfl⟩

/-- What the start of a removal does (R53), with the DROP order of R52. -/
theorem beginRemoval_spec {k : Fin 256} {st : Station} {s u : State} {why : Reason} (hs : s.station? k = some st)
    (hu : beginRemoval k st why s = u) :
    PurgeCounts k st.upq st.origin s u ∧ (∃ n, u.station? k = some (moreDrops n { st with upq := [] })) ∧
      (∀ j r, j ≠ k → s.station? j = some r → ∃ n, u.station? j = some (moreDrops n r)) ∧
      u.table.held = s.table.held.filter (fun j => decide (j ≠ k)) ∧
      (∀ w : Fin 4, (u.ports.radios[w]).orders =
        match st.origin with
        | .radio v i => if v = w ∧ (why = .aged ∨ why = .evicted ∨ why = .released) then
            placeOrder { kind := .drop, index := i } (s.ports.radios[w]).orders
          else (s.ports.radios[w]).orders
        | .seat _ => (s.ports.radios[w]).orders) ∧
      u.up.onboard = s.up.onboard ∧ u.hub.mgmt.slots = s.hub.mgmt.slots := by
  have p := purge_purged st.origin hs
  generalize hp : purgeEgress k st.origin (purgeUpward k s) = p1 at p
  have hd : why.sendsDrop = true ↔ (why = .aged ∨ why = .evicted ∨ why = .released) := by cases why <;> simp [Reason.sendsDrop]
  obtain ⟨q1, q2, q3, q4, q5, q6, q7⟩ := p
  have hh : fromHeld k p1.table.held = s.table.held.filter (fun j => decide (j ≠ k)) := by rw [q5]; rfl
  obtain ⟨addr, cls, tier, state, origin, allowance, shaping, pendingShaping, share, credit, lastGrant, idle, lastFrame,
    idleStart, ctr, upq⟩ := st
  cases origin with
  | seat n =>
    simp only [beginRemoval] at hp hu
    rw [hp] at hu
    subst hu
    exact ⟨PurgeCounts_congr q1 rfl (fun _ => rfl) rfl (fun _ => rfl), q2, q3, hh, q4, q7, q6⟩
  | radio v i =>
    simp only [beginRemoval] at hp hu
    rw [hp] at hu
    by_cases hw : why.sendsDrop = true
    · rw [if_pos hw] at hu
      subst hu
      refine ⟨PurgeCounts_congr q1 rfl (fun q => ?_) ?_ (fun _ => rfl), q2, q3, hh, fun w => ?_, q7, q6⟩
      · show ((Ports.modRadio v _ p1.ports).unitOf q).ctr = _
        exact congrArg PortUnit.ctr (modRadio_unit _ _ (by intro _; rfl) _)
      · show ((Ports.modRadio v _ p1.ports).radios[v]).egress.length = _
        rw [modRadio_self]; rfl
      · have hw' := hd.mp hw
        show _ = if v = w ∧ (why = .aged ∨ why = .evicted ∨ why = .released) then
          placeOrder { kind := .drop, index := i } (s.ports.radios[w]).orders else (s.ports.radios[w]).orders
        by_cases hv : v = w
        · subst hv
          show ((Ports.modRadio v _ p1.ports).radios[v]).orders = _
          rw [modRadio_self, if_pos ⟨rfl, hw'⟩, ← q4 v]
        · rw [if_neg (fun h => hv h.1), ← q4 w]
          have : v.val ≠ w.val := fun e => hv (Fin.ext e)
          simp [sendOrder, onPorts, onTable, Ports.modRadio, this]
    · rw [if_neg hw] at hu
      subst hu
      refine ⟨PurgeCounts_congr q1 rfl (fun _ => rfl) rfl (fun _ => rfl), q2, q3, hh, fun w => ?_, q7, q6⟩
      show _ = if v = w ∧ (why = .aged ∨ why = .evicted ∨ why = .released) then
        placeOrder { kind := .drop, index := i } (s.ports.radios[w]).orders else (s.ports.radios[w]).orders
      rw [if_neg (fun h => hw (hd.mpr h.2))]; exact q4 w

/-- What a removal does (R52, R53). -/
theorem removeRecord_removed {k : Fin 256} {st : Station} {s : State} (why : Reason) (hs : s.station? k = some st)
    (hl : st.isLeaving = false) : Removed k st why s (removeRecord k why s) := by
  have kept := beginRemoval_kept k st why s
  unfold removeRecord
  rw [hs]
  simp only [hl, Bool.false_eq_true, if_false]
  generalize hu : beginRemoval k st why s = u at kept ⊢
  obtain ⟨b1, ⟨n, b2⟩, b3, b4, b5, b6, b7⟩ := beginRemoval_spec hs hu
  refine ⟨u, _, b2, rfl, fun j r hj hr => ?_, b1, b4, b5, b6, b7, kept.windows, kept.sched, kept.consist, kept.hold,
    kept.now, fun hf => ?_, fun hf => ?_⟩
  · obtain ⟨m, hm⟩ := b3 j r hj hr
    exact ⟨_, hm, rfl⟩
  · rw [if_pos hf]
    unfold setStationState onTable StationTable.modStation
    have : u.table.slots[k] = some (moreDrops n { st with upq := [] }) := b2
    simp only [this, Option.map_some]
  · rw [hf]
    exact freeRecord_freed why b2

theorem removeRecord_leaving {k : Fin 256} {s : State} (why : Reason)
    (h : ∀ st, s.station? k = some st → st.isLeaving = true) : removeRecord k why s = s := by
  unfold removeRecord
  split
  · rfl
  · rename_i st hs; rw [if_pos (h st hs)]

/-- What the removal of the records of a list does (R52). -/
theorem removeRecords_removed (why : Reason) (ks : List (Fin 256)) (s : State) :
    RemovedAll why ks s (removeRecords why ks s) := by
  induction ks generalizing s with
  | nil => rfl
  | cons k ks ih =>
    exact ⟨removeRecord k why s, fun st hs hl => removeRecord_removed why hs hl, fun h => removeRecord_leaving why h, ih _⟩

end Sys2Proof.Laws
end

