-- ==== Sys2Proof/Laws/Links.lean ====
section
/-! SUPPORT. What the end of a link and a change of designation do, with what they count. -/

namespace Sys2Proof.Laws

open Sys2Proof Sys2Proof.Machine Sys2Proof.Safety

/-! ## Aborted transmissions -/

theorem modUnit_egress (ps : Ports) (p : Port) (g : PortUnit → PortUnit) (n : Fin 32) :
    ((ps.modUnit p g).seats[n]).egress = (ps.seats[n]).egress := by
  cases p with
  | seat m =>
    by_cases hm : n = m
    · subst hm
      show ((Ports.modSeat n _ ps).seats[n]).egress = _
      rw [modSeat_self]
    · have : m.val ≠ n.val := fun e => hm (Fin.ext e.symm)
      simp [Ports.modUnit, Ports.modSeat, this]
  | radio w => rfl
  | backbone x => cases x <;> rfl

theorem modUnit_radio (ps : Ports) (p : Port) (g : PortUnit → PortUnit) (w : Fin 4) :
    ((ps.modUnit p g).radios[w]).egress = (ps.radios[w]).egress := by
  cases p with
  | seat m => rfl
  | radio v =>
    by_cases hv : w = v
    · subst hv
      show ((Ports.modRadio w _ ps).radios[w]).egress = _
      rw [modRadio_self]
    · have : v.val ≠ w.val := fun e => hv (Fin.ext e.symm)
      simp [Ports.modUnit, Ports.modRadio, this]
  | backbone x => cases x <;> rfl

theorem modUnit_transit (ps : Ports) (p : Port) (g : PortUnit → PortUnit) (x : End) :
    ((ps.modUnit p g).endOf x).transit = (ps.endOf x).transit := by
  cases p with
  | seat m => cases x <;> rfl
  | radio v => cases x <;> rfl
  | backbone y => cases x <;> cases y <;> rfl

/-- A change of a port's unit that keeps its counters counts nothing. -/
theorem modUnit_ctr (ps : Ports) (p q : Port) {g : PortUnit → PortUnit} (h : ∀ u, (g u).ctr = u.ctr) :
    ((ps.modUnit p g).unitOf q).ctr = (ps.unitOf q).ctr := by
  by_cases hq : q = p
  · subst hq; rw [unitOf_modUnit_self]; exact h _
  · rw [unitOf_modUnit_ne _ _ hq]

/-- R8, R10: what the aborting of a stored frame counts. -/
theorem countAborted_counts (p : Port) (id : Nat) (s : State) :
    Counts s (countAborted p id s) (countAt .aborted 1) (countAt p 1) := by
  refine ⟨fun r => tallyOf_tally _ _ _, fun q => ?_⟩
  show ((((s.ports.modUnit p _).count p PortCounters.txDrop).count? _ PortCounters.rxDiscard).unitOf q).ctr.txDrops = _
  rw [count?_rxDiscard_txDrops, unitOf_count]
  split
  · subst q; rw [unitOf_modUnit_self, countAt_self]; rfl
  · rw [countAt_ne 1 ‹_›, unitOf_modUnit_ne _ _ ‹_›]; simp

/-- What an abort keeps: the table, the queues of every port, and the reception of the port. -/
structure Aborts (p : Port) (s a : State) : Prop where
  counts : Counts s a (countAt .aborted (inTransmission s p)) (countAt p (inTransmission s p))
  table : a.table = s.table
  up : a.up = s.up
  seats : ∀ n : Fin 32, (a.ports.seats[n]).egress = (s.ports.seats[n]).egress
  radios : ∀ w : Fin 4, (a.ports.radios[w]).egress = (s.ports.radios[w]).egress
  transit : ∀ x, (a.ports.endOf x).transit = (s.ports.endOf x).transit
  rx : (a.ports.unitOf p).rx = (s.ports.unitOf p).rx
  owners : ∀ id, (s.ports.unitOf p).tx.bind Transmission.frame? ≠ some id →
    a.hub.cells.owner id = s.hub.cells.owner id
  replies : ∀ k, k ∈ repliesFor a.hub.mgmt p ↔
    k ∈ repliesFor s.hub.mgmt p ∧ ((s.ports.unitOf p).tx.bind replySlot?) ≠ some k

theorem abort_dropped (p : Port) (id : Nat) (g : Hub → Hub) (s : State)
    (hg : ∀ h r, (g h).tallyOf r = h.tallyOf r) :
    let a := onHub g (countAborted p id s)
    Counts s a (countAt .aborted 1) (countAt p 1) ∧ a.table = s.table ∧ a.up = s.up ∧
      (∀ n : Fin 32, (a.ports.seats[n]).egress = (s.ports.seats[n]).egress) ∧
      (∀ w : Fin 4, (a.ports.radios[w]).egress = (s.ports.radios[w]).egress) ∧
      (∀ x, (a.ports.endOf x).transit = (s.ports.endOf x).transit) ∧
      (a.ports.unitOf p).rx = (s.ports.unitOf p).rx := by
  have c := countAborted_counts p id s
  have q := (count_sameQueues (s.ports.modUnit p (fun u => { u with tx := none })) p PortCounters.txDrop).trans
    (count?_sameQueues _ (s.hub.cells.rxPort id) PortCounters.rxDiscard)
  refine ⟨⟨fun r => ?_, c.txDrops⟩, rfl, rfl, fun n => (q.seat n).trans (modUnit_egress ..),
    fun w => (q.radio w).trans (modUnit_radio ..), fun x => (q.transit x).trans (modUnit_transit ..), ?_⟩
  · show (g (countAborted p id s).hub).tallyOf r = _
    rw [hg]; exact c.tally r
  · show ((((s.ports.modUnit p _).count p PortCounters.txDrop).count? _ PortCounters.rxDiscard).unitOf p).rx = _
    cases s.hub.cells.rxPort id with
    | none => simp only [Ports.count?]; rw [unitOf_count, if_pos rfl, unitOf_modUnit_self]
    | some r =>
      simp only [Ports.count?]
      rw [unitOf_count]
      split
      · subst p; rw [unitOf_count, if_pos rfl, unitOf_modUnit_self]
      · rw [unitOf_count, if_pos rfl, unitOf_modUnit_self]

theorem mem_repliesFor (m : Mgmt) (p : Port) (k : Fin 4) :
    k ∈ repliesFor m p ↔ k ∈ m.builtOrder ∧ (m.slots[k]).builtFor = some p := by
  simp [repliesFor, List.mem_filter]

theorem repliesFor_quiet {h h' : Hub} (q : Quiet h h') (p : Port) : repliesFor h'.mgmt p = repliesFor h.mgmt p := by
  unfold repliesFor; rw [q.builtOrder, q.slots]

theorem mem_repliesFor_freeSlot (h : Hub) (k j : Fin 4) (p : Port) :
    j ∈ repliesFor (h.freeSlot k).mgmt p ↔ j ∈ repliesFor h.mgmt p ∧ some k ≠ some j := by
  rw [mem_repliesFor, mem_repliesFor]
  by_cases hj : k = j
  · subst hj; simp [Hub.freeSlot]
  · have : k.val ≠ j.val := fun e => hj (Fin.ext e)
    have : j ≠ k := fun e => hj e.symm
    simp [Hub.freeSlot, *]

/-- R2, R3, R4, R10: an abort, the freeing of a LEAVING record on a backbone end aside. -/
theorem abortTx_aborts (p : Port) (s : State) (h : ∀ x, p ≠ .backbone x) : Aborts p s (abortTx p s) := by
  unfold abortTx
  have plain : inTransmission s p = 0 → ∀ hr : (s.ports.unitOf p).tx.bind replySlot? = none,
      Aborts p s (setTx p none s) := fun h0 hr => by
    refine ⟨?_, rfl, rfl, fun n => modUnit_egress .., fun w => modUnit_radio .., fun x => modUnit_transit .., ?_,
      fun id _ => ?_, fun k => ?_⟩
    · rw [h0]
      refine (counts_onPorts s (fun q => modUnit_ctr _ _ _ (by intro _; rfl))).congr (fun r => ?_) (fun q => ?_)
      · rw [countAt_zero]
      · rw [countAt_zero]
    · show ((s.ports.modUnit p _).unitOf p).rx = _
      rw [unitOf_modUnit_self]
    · rfl
    · rw [hr]; simp only [ne_eq, reduceCtorEq, not_false_eq_true, and_true]; rfl
  have stored : ∀ id, (s.ports.unitOf p).tx.bind Transmission.frame? = some id →
      (s.ports.unitOf p).tx.bind replySlot? = none →
      Aborts p s (onHub (Hub.dropRef s.sender id) (countAborted p id s)) := fun id hf hr => by
    have h1 : inTransmission s p = 1 := by unfold inTransmission; rw [hf]; rfl
    obtain ⟨c, t, u, a1, a2, a3, a4⟩ := abort_dropped p id (Hub.dropRef s.sender id) s
      (fun h r => (dropRef_quiet _ _ _).tallyOf r)
    refine ⟨by rw [h1]; exact c, t, u, a1, a2, a3, a4, fun j hj => ?_, fun k => ?_⟩
    · exact dropRef_owner_ne s.sender _ (fun e => hj (by rw [hf, e]))
    rw [hr]
    have : repliesFor (onHub (Hub.dropRef s.sender id) (countAborted p id s)).hub.mgmt p = repliesFor s.hub.mgmt p :=
      (repliesFor_quiet (dropRef_quiet _ _ _) p).trans rfl
    rw [this]; simp
  cases htx : (s.ports.unitOf p).tx with
  | none =>
    refine ⟨?_, rfl, rfl, fun _ => rfl, fun _ => rfl, fun _ => rfl, rfl, fun _ _ => rfl,
      fun k => by simp [htx]⟩
    have h0 : inTransmission s p = 0 := by unfold inTransmission; rw [htx]; rfl
    rw [h0]
    exact (Counts.refl s).congr (fun r => (countAt_zero _ _).symm) (fun q => (countAt_zero _ _).symm)
  | some t =>
    cases t with
    | hold d => exact plain (by unfold inTransmission; rw [htx]; rfl) (by rw [htx]; rfl)
    | order o => exact plain (by unfold inTransmission; rw [htx]; rfl) (by rw [htx]; rfl)
    | radioFrame id i => exact stored id (by rw [htx]; rfl) (by rw [htx]; rfl)
    | notice id d => exact stored id (by rw [htx]; rfl) (by rw [htx]; rfl)
    | frame id =>
      have ho : upwardOwner p id s = none := by
        cases p with
        | backbone x => exact absurd rfl (h x)
        | seat n => rfl
        | radio w => rfl
      simp only [ho, settleOwner]
      exact stored id (by rw [htx]; rfl) (by rw [htx]; rfl)
    | reply id k =>
      have h1 : inTransmission s p = 1 := by unfold inTransmission; rw [htx]; rfl
      obtain ⟨c, t, u, a1, a2, a3, a4⟩ := abort_dropped p id (fun h => (Hub.dropRef s.sender id h).freeSlot k) s
        (fun h r => (dropRef_quiet _ _ _).tallyOf r)
      refine ⟨by rw [h1]; exact c, t, u, a1, a2, a3, a4, fun j hj => ?_, fun j => ?_⟩
      · exact dropRef_owner_ne s.sender _ (fun e => hj (by rw [htx, e]; rfl))
      show j ∈ repliesFor ((Hub.dropRef s.sender id (countAborted p id s).hub).freeSlot k).mgmt p ↔ _
      rw [mem_repliesFor_freeSlot, htx, repliesFor_quiet (dropRef_quiet _ _ _)]
      rfl

/-! ## Lost receptions -/

/-- The return of cells that are of no stored frame leaves what the frames name. -/
theorem giveBack_owner (sd : Sender) (failed chain : List Nat) (h : Hub) (id : Nat) :
    (h.giveBack sd failed chain).cells.owner id = h.cells.owner id := by
  unfold Hub.giveBack
  simp only
  generalize hh : Hub.flagN .memoryDegraded _ _ = h1
  have h1f : h1.cells.frames = h.cells.frames := by
    subst hh; rw [flagN_cells]; exact (returnCells_perm failed chain h.cells).2.frames
  obtain ⟨new, n1, n2, _⟩ := noteLeft_adds sd (returnCells failed chain h.cells).2.1 h1
  unfold CellMemory.owner CellMemory.frame?
  rw [n1, h1f, List.find?_append]
  cases h.cells.frames.find? (fun g => g.id == id) with
  | some g => rfl
  | none =>
    simp only [Option.none_or, Option.bind_none]
    cases hn : new.find? (fun g => g.id == id) with
    | none => rfl
    | some g => exact (n2 g (List.mem_of_find?_eq_some hn)).2.2

/-- R1, R22: a frame in reception is lost with its link: one WIRE, one rx discard of its port. -/
structure Loses (p : Port) (a b : State) : Prop where
  counts : Counts a b (countAt .wire (inReception a p)) (fun _ => 0)
  table : b.table = a.table
  up : b.up = a.up
  owners : ∀ id, b.hub.cells.owner id = a.hub.cells.owner id
  quiet : Quiet (if inReception a p = 0 then a.hub else a.hub.tally .wire) b.hub
  seats : ∀ n : Fin 32, (b.ports.seats[n]).egress = (a.ports.seats[n]).egress
  radios : ∀ w : Fin 4, (b.ports.radios[w]).egress = (a.ports.radios[w]).egress
  transit : ∀ x, (b.ports.endOf x).transit = (a.ports.endOf x).transit

theorem loseReception_loses (p : Port) (a : State) : Loses p a (loseReception p a) := by
  unfold loseReception
  have idle : inReception a p = 0 → Loses p a (setRx p .idle a) := fun h0 => by
    refine ⟨?_, rfl, rfl, fun _ => rfl, by rw [h0]; exact Quiet.refl _, fun n => modUnit_egress .., fun w => modUnit_radio ..,
      fun x => modUnit_transit ..⟩
    rw [h0]
    exact (counts_onPorts a (fun q => modUnit_ctr _ _ _ (by intro _; rfl))).congr (fun r => (countAt_zero _ _).symm)
      (fun _ => rfl)
  cases hrx : (a.ports.unitOf p).rx with
  | idle =>
    have h0 : inReception a p = 0 := by unfold inReception; rw [hrx]
    refine ⟨?_, rfl, rfl, fun _ => rfl, by rw [h0]; exact Quiet.refl _, fun _ => rfl, fun _ => rfl, fun _ => rfl⟩
    rw [h0]
    exact (Counts.refl a).congr (fun r => (countAt_zero _ _).symm) (fun _ => rfl)
  | dropping => exact idle (by unfold inReception; rw [hrx])
  | taking chain =>
    have h1 : inReception a p = 1 := by unfold inReception; rw [hrx]
    have q : Quiet (a.hub.tally .wire) (discardWire p chain (setRx p .idle a)).hub := giveBack_quiet _ _ _ _
    have sq : SameQueues (setRx p .idle a).ports (discardWire p chain (setRx p .idle a)).ports := count_sameQueues _ _ _
    refine ⟨⟨fun r => ?_, fun r => ?_⟩, rfl, rfl, fun id => giveBack_owner .., by rw [h1]; exact q, fun n => (sq.seat n).trans (modUnit_egress ..),
      fun w => (sq.radio w).trans (modUnit_radio ..), fun x => (sq.transit x).trans (modUnit_transit ..)⟩
    · rw [h1, q.tallyOf, tallyOf_tally]
    · show (((a.ports.modUnit p _).count p PortCounters.rxDiscard).unitOf r).ctr.txDrops = _
      rw [unitOf_count]
      split
      · subst r; rw [unitOf_modUnit_self]; simp [PortCounters.rxDiscard]
      · rw [unitOf_modUnit_ne _ _ ‹_›]; simp

/-! ## Waiting replies -/

theorem countP_step {f g : Fin 4 → Bool} {k : Fin 4} (hf : f k = true) (hg : g k = false) (h : ∀ j, j ≠ k → f j = g j) :
    (List.finRange 4).countP f = 1 + (List.finRange 4).countP g := by
  have e : List.finRange 4 = [0, 1, 2, 3] := by decide
  rw [e]
  have h0 := h 0; have h1 := h 1; have h2 := h 2; have h3 := h 3
  fin_cases k <;> simp_all [List.countP_cons] <;> omega

/-- How many slots of a list hold a BUILT reply. -/
def builtIn (L : List (Fin 4)) (s : State) : Nat :=
  (List.finRange 4).countP (fun k => decide (k ∈ L) && (s.hub.mgmt.slots[k]).builtFor.isSome)

theorem discardReply_counts (p : Port) (k : Fin 4) (s : State) :
    (∀ h id, s.hub.mgmt.slots[k] = .built h id →
      Counts s (discardReply p k s) (countAt .purge 1) (countAt p 1) ∧
      (discardReply p k s).hub.mgmt.slots = s.hub.mgmt.slots.set k .free) ∧
    ((∀ h id, s.hub.mgmt.slots[k] ≠ .built h id) → discardReply p k s = s) := by
  refine ⟨fun h id hs => ?_, fun hn => ?_⟩
  · have he : discardReply p k s = discardEntry .purge (some p) id (onHub (Hub.freeSlot k) s) := by
      unfold discardReply; rw [hs]
    rw [he]
    refine ⟨?_, (discardEntry_quietHub _ _ _ _).slots⟩
    have c0 : Counts s (onHub (Hub.freeSlot k) s) (fun _ => 0) (fun _ => 0) := .none (fun _ => rfl) (fun _ => rfl)
    exact (c0.trans (discardEntry_counts .purge (some p) id _)).congr (fun r => by simp)
      (fun q => by rw [Nat.zero_add]; exact countAt_port p 1 q)
  · unfold discardReply
    split
    · exact absurd ‹_› (hn _ _)
    · rfl

theorem discardReplies_fold (p : Port) (L : List (Fin 4)) (s : State) :
    Counts s (L.foldl (fun s k => discardReply p k s) s) (countAt .purge (builtIn L s)) (countAt p (builtIn L s)) := by
  induction L generalizing s with
  | nil =>
    have : builtIn [] s = 0 := by simp [builtIn]
    rw [this]
    exact (Counts.refl s).congr (fun r => (countAt_zero _ _).symm) (fun q => (countAt_zero _ _).symm)
  | cons k L ih =>
    obtain ⟨d1, d2⟩ := discardReply_counts p k s
    show Counts s (L.foldl _ (discardReply p k s)) _ _
    by_cases hb : ∃ h id, s.hub.mgmt.slots[k] = .built h id
    · obtain ⟨h, id, hs⟩ := hb
      obtain ⟨c, e⟩ := d1 h id hs
      have hN : builtIn (k :: L) s = 1 + builtIn L (discardReply p k s) := by
        refine countP_step (k := k) (by simp [hs, ReplySlot.builtFor]) (by rw [e]; simp [ReplySlot.builtFor])
          (fun j hj => ?_)
        have hv : k.val ≠ j.val := fun e => hj (Fin.ext e.symm)
        rw [e]; simp [hj, hv]
      rw [hN]
      exact (c.trans (ih _)).congr (fun r => countAt_add ..) (fun q => countAt_add ..)
    · have hn : ∀ h id, s.hub.mgmt.slots[k] ≠ .built h id := fun h id e => hb ⟨h, id, e⟩
      have hN : builtIn (k :: L) s = builtIn L s := by
        refine List.countP_congr (fun j _ => ?_)
        by_cases hj : j = k
        · subst hj
          have : (s.hub.mgmt.slots[j]).builtFor = none := by
            cases hq : s.hub.mgmt.slots[j] <;> first | rfl | exact absurd hq (hn _ _)
          show (_ && (s.hub.mgmt.slots[j]).builtFor.isSome) = true ↔ (_ && (s.hub.mgmt.slots[j]).builtFor.isSome) = true
          rw [this]; simp
        · simp [hj]
      rw [d2 hn, hN]
      exact ih s

theorem builtIn_repliesFor (p : Port) (s : State) :
    builtIn (repliesFor s.hub.mgmt p) s = (List.finRange 4).countP (fun k => decide (k ∈ repliesFor s.hub.mgmt p)) := by
  refine List.countP_congr (fun k _ => ?_)
  by_cases hk : k ∈ repliesFor s.hub.mgmt p
  · have := ((mem_repliesFor _ _ _).mp hk).2
    show (_ && (s.hub.mgmt.slots[k]).builtFor.isSome) = true ↔ _
    rw [this]; simp
  · simp [hk]

/-- R2: what the discarding of the waiting replies counts. -/
theorem discardReplies_counts (p : Port) (s : State) :
    let n := (List.finRange 4).countP (fun k => decide (k ∈ repliesFor s.hub.mgmt p))
    Counts s (discardReplies p s) (countAt .purge n) (countAt p n) := by
  simp only [← builtIn_repliesFor]
  exact discardReplies_fold p _ s

theorem dropRef_owner_some (sd : Sender) {id j : Nat} {k : Fin 256} (h : Hub)
    (ho : (h.dropRef sd id).cells.owner j = some k) : h.cells.owner j = some k := by
  by_cases hj : j = id
  · subst hj
    unfold Hub.dropRef at ho
    cases hf : h.cells.frame? j with
    | none => rw [hf] at ho; exact ho
    | some f =>
      rw [hf] at ho
      simp only at ho
      split at ho
      · obtain ⟨⟨new, n1, n2, _⟩, _⟩ := freeFrame_spec sd hf
        unfold CellMemory.owner CellMemory.frame? at ho
        rw [n1, List.find?_append] at ho
        have h0 : List.find? (fun g : FrameRec => g.id == j) (h.cells.frames.filter (fun g => decide (g.id ≠ j))) = none := by
          rw [List.find?_eq_none]
          intro g hg
          simpa using (List.mem_filter.mp hg).2
        rw [h0, Option.none_or] at ho
        cases hn : new.find? (fun g => g.id == j) with
        | none => rw [hn] at ho; exact nomatch ho
        | some g =>
          rw [hn] at ho
          have := (n2 g (List.mem_of_find?_eq_some hn)).2.2
          have ho' : g.station = some k := ho
          rw [this] at ho'; exact nomatch ho'
      · have := frame?_modFrame_self (c := h.cells) (g := fun g => { g with refs := g.refs - 1 }) hf (fun _ => rfl)
        unfold CellMemory.owner
        have ho' : ((h.cells.modFrame j (fun g => { g with refs := g.refs - 1 })).frame? j).bind FrameRec.station = some k := ho
        rw [this] at ho'
        rw [hf]; exact ho'
  · rwa [dropRef_owner_ne sd h hj] at ho

/-- The discarding of replies changes a record only where one of them names it. -/
theorem discardReplies_record (p : Port) (k : Fin 256) (s : State)
    (hn : ∀ (j : Fin 4) h id, s.hub.mgmt.slots[j] = .built h id → s.hub.cells.owner id ≠ some k) :
    (discardReplies p s).station? k = s.station? k := by
  unfold discardReplies
  generalize repliesFor s.hub.mgmt p = L
  induction L generalizing s with
  | nil => rfl
  | cons j L ih =>
    obtain ⟨d1, d2⟩ := discardReply_counts p j s
    show State.station? (L.foldl _ (discardReply p j s)) k = _
    by_cases hb : ∃ h id, s.hub.mgmt.slots[j] = .built h id
    · obtain ⟨h, id, hs⟩ := hb
      obtain ⟨_, e⟩ := d1 h id hs
      have he : discardReply p j s = discardEntry .purge (some p) id (onHub (Hub.freeSlot j) s) := by
        unfold discardReply; rw [hs]
      have hst : (discardReply p j s).station? k = s.station? k := by
        have hno : ¬ (onHub (Hub.freeSlot j) s).hub.cells.owner id = some k := hn j h id hs
        rw [he, discardEntry_station, if_neg hno, moreDrops_zero]
        show Option.map _ (s.station? k) = _
        cases s.station? k <;> rfl
      rw [ih _ (fun i h' id' hi => ?_), hst]
      rw [e] at hi
      by_cases hj : i = j
      · subst hj; simp at hi
      · have hv : j.val ≠ i.val := fun e => hj (Fin.ext e.symm)
        have hi' : s.hub.mgmt.slots[i] = .built h' id' := by simpa [hv] using hi
        intro ho
        rw [he] at ho
        exact hn i h' id' hi' (dropRef_owner_some s.sender (Hub.tally .purge (Hub.freeSlot j s.hub)) ho)
    · rw [d2 (fun h id e => hb ⟨h, id, e⟩)]
      exact ih s hn

/-! ## Links -/

/-- R2: what a seat port's going DOWN does to it, its records and its notice aside. -/
theorem seatLinkLost_spec (n : Fin 32) (s : State) : ∃ a,
    LostWithLink (.seat n) s a ∧ (a.ports.seats[n]).egress = [] ∧
      let b := discardEntries .purge (some (.seat n)) (s.ports.seats[n]).egress a
      seatLinkLost n s = discardReplies (.seat n) b ∧
      RepliesLost (.seat n) (waitingReplies s (.seat n)) b (seatLinkLost n s) := by
  have h0 : Counts s (setLink (.seat n) .down s) (fun _ => 0) (fun _ => 0) :=
    counts_onPorts s (fun q => modUnit_ctr _ _ _ (by intro _; rfl))
  have u0 : ((setLink (.seat n) .down s).ports.unitOf (.seat n)) = { s.ports.unitOf (.seat n) with link := .down } := by
    show ((s.ports.modUnit (.seat n) _).unitOf (.seat n)) = _
    rw [unitOf_modUnit_self]
  have hA := abortTx_aborts (.seat n) (setLink (.seat n) .down s) (fun x => nofun)
  generalize ha : abortTx (.seat n) (setLink (.seat n) .down s) = a0 at hA
  have hL := loseReception_loses (.seat n) a0
  generalize hb : loseReception (.seat n) a0 = a1 at hL
  have t0 : inTransmission (setLink (.seat n) .down s) (.seat n) = inTransmission s (.seat n) := by
    unfold inTransmission; rw [u0]
  have r0 : inReception a0 (.seat n) = inReception s (.seat n) := by
    unfold inReception; rw [hA.rx, u0]
  have e1 : (a1.ports.seats[n]).egress = (s.ports.seats[n]).egress :=
    (hL.seats n).trans ((hA.seats n).trans (modUnit_egress ..))
  have c1 : Counts a1 (onPorts (Ports.modSeat n (fun q => { q with egress := [] })) a1) (fun _ => 0) (fun _ => 0) :=
    counts_onPorts a1 (fun q => congrArg PortUnit.ctr (modSeat_unit _ _ (by intro _; rfl) _))
  refine ⟨onPorts (Ports.modSeat n (fun q => { q with egress := [] })) a1, ⟨?_, hL.table.trans hA.table, fun id hid => ?_⟩,
    ?_, ?_, ?_⟩
  · refine (((h0.trans hA.counts).trans hL.counts).trans c1).congr (fun r => ?_) (fun q => ?_)
    · rw [t0, r0]; omega
    · rw [t0]; omega
  · exact (hL.owners id).trans ((hA.owners id (by rw [u0]; exact hid)).trans rfl)
  · show ((Ports.modSeat n _ a1.ports).seats[n]).egress = []
    rw [modSeat_self]
  · unfold seatLinkLost
    rw [ha, hb]
    unfold clearSeatEgress
    rw [e1]
  · have hs : seatLinkLost n s = discardReplies (.seat n) (discardEntries .purge (some (.seat n)) (s.ports.seats[n]).egress
        (onPorts (Ports.modSeat n (fun q => { q with egress := [] })) a1)) := by
      unfold seatLinkLost
      rw [ha, hb]
      unfold clearSeatEgress
      rw [e1]
    rw [hs]
    generalize hg : discardEntries .purge (some (.seat n)) (s.ports.seats[n]).egress
        (onPorts (Ports.modSeat n (fun q => { q with egress := [] })) a1) = b
    have hr : ∀ k, k ∈ repliesFor b.hub.mgmt (.seat n) ↔ k ∈ repliesFor s.hub.mgmt (.seat n) ∧
        ((s.ports.unitOf (.seat n)).tx.bind replySlot?) ≠ some k := fun k => by
      have q1 : b.hub.mgmt.slots = a1.hub.mgmt.slots ∧ b.hub.mgmt.builtOrder = a1.hub.mgmt.builtOrder := by
        subst hg
        exact ⟨discardEntries_slots .., discardEntries_builtOrder ..⟩
      have q2 : a1.hub.mgmt.slots = a0.hub.mgmt.slots ∧ a1.hub.mgmt.builtOrder = a0.hub.mgmt.builtOrder := by
        refine ⟨hL.quiet.slots.trans ?_, hL.quiet.builtOrder.trans ?_⟩ <;> split <;> rfl
      have : repliesFor b.hub.mgmt (.seat n) = repliesFor a0.hub.mgmt (.seat n) := by
        unfold repliesFor; rw [q1.1, q1.2, q2.1, q2.2]
      rw [this, hA.replies, u0]
      rfl
    have := discardReplies_counts (.seat n) b
    have hw : (List.finRange 4).countP (fun k => decide (k ∈ repliesFor b.hub.mgmt (.seat n))) =
        waitingReplies s (.seat n) := by
      unfold waitingReplies
      refine List.countP_congr (fun k _ => ?_)
      rw [decide_eq_true_iff, hr]
      simp
    rw [← hw]
    exact ⟨this, fun k hk => discardReplies_record (.seat n) k b hk⟩

end Sys2Proof.Laws
end

