-- ==== Sys2Proof/Laws/Pressure.lean ====
section
/-! SUPPORT. What the taking and the return of cells say of the pressure state: where an entry comes, with which cells
held, and that the flag and the notice of it are a raising like any other. -/

namespace Sys2Proof.Laws

open Sys2Proof Sys2Proof.Machine Sys2Proof.Safety

/-! ## The taking of cells -/

/-- R33: what one taking after another says of the pressure state. With cells enough, PRESSURE is entered exactly where
cells held come to the high mark, and the cells held reported are those at that taking. -/
theorem takeCells_entry (n : Nat) (c : CellMemory) (hn : n ≤ c.free.length) :
    (¬ (c.pressure = .normal ∧ 0 < n ∧ c.high ≤ 3072 - (c.free.length - n) - c.retired.length) →
      (takeCells n c).2.1.pressure = c.pressure ∧ (takeCells n c).2.2 = none) ∧
    (c.pressure = .normal → 0 < n → c.high ≤ 3072 - (c.free.length - n) - c.retired.length →
      (takeCells n c).2.1.pressure = .pressure ∧
        (takeCells n c).2.2 = some (max c.high (3072 - (c.free.length - 1) - c.retired.length))) := by
  induction n generalizing c with
  | zero => exact ⟨fun _ => ⟨rfl, rfl⟩, fun _ h => absurd h (by omega)⟩
  | succ n ih =>
    unfold takeCells CellMemory.pop
    cases hf : c.free with
    | nil => rw [hf] at hn; simp at hn
    | cons x rest =>
      simp only
      generalize hc : ({ c with free := rest, faults := _ } : CellMemory) = c1
      have h1 : c1.pressure = c.pressure := by subst hc; rfl
      have h2 : c1.high = c.high := by subst hc; rfl
      have h3 : c1.free = rest := by subst hc; rfl
      have h4 : c1.retired = c.retired := by subst hc; rfl
      have hl : n ≤ rest.length := by rw [hf] at hn; simpa using hn
      by_cases hp : c.pressure = .pressure
      · have ht : c1.testEnter = (c1, none) := by unfold CellMemory.testEnter; rw [if_neg (by simp [h1, hp])]
        obtain ⟨i, _⟩ := ih c1 (by rw [h3]; exact hl)
        obtain ⟨i1, i2⟩ := i (by rw [h1, hp]; simp)
        rw [ht]
        exact ⟨fun _ => ⟨by simp [i1, h1], by simp [i2]⟩, fun h => absurd (hp.symm.trans h) (by decide)⟩
      · have hp : c.pressure = .normal := by cases h : c.pressure <;> simp_all
        by_cases hh : c.high ≤ 3072 - rest.length - c.retired.length
        · have ht : c1.testEnter = ({ c1 with pressure := .pressure }, some c1.held) := by
            unfold CellMemory.testEnter
            rw [if_pos ⟨by rw [h1, hp], by simpa [CellMemory.held, h2, h3, h4] using hh⟩]
          obtain ⟨i, _⟩ := ih { c1 with pressure := .pressure } (by simp [h3, hl])
          obtain ⟨i1, i2⟩ := i (by simp)
          rw [ht]
          simp only [List.length_cons]
          refine ⟨fun h => absurd ⟨hp, by omega, by omega⟩ h, fun _ _ _ => ⟨i1, ?_⟩⟩
          rw [i2, Option.or_none, Nat.add_sub_cancel, max_eq_right hh]
          simp only [CellMemory.held, h3, h4]
        · have ht : c1.testEnter = (c1, none) := by
            unfold CellMemory.testEnter
            rw [if_neg (by simp only [CellMemory.held, h2, h3, h4]; omega)]
          obtain ⟨i, j⟩ := ih c1 (by rw [h3]; exact hl)
          rw [h1, h2, h3, h4] at i j
          rw [ht]
          simp only [Option.none_or, List.length_cons] at i j ⊢
          have e : rest.length + 1 - (n + 1) = rest.length - n := by omega
          rw [e]
          refine ⟨fun h => i fun g => h ⟨g.1, by omega, g.2.2⟩, fun _ _ g => ?_⟩
          have hn : 0 < n := by rcases Nat.eq_zero_or_pos n with rfl | h <;> [(simp at g; omega); exact h]
          obtain ⟨j1, j2⟩ := j hp hn g
          refine ⟨j1, ?_⟩
          rw [j2]
          congr 1
          have : rest.length - 1 + 1 = rest.length := by omega
          omega

/-! ## The flag and the notice of an entry -/

/-- In PRESSURE no notice enters it again: it is raised, and that is all. -/
theorem raise_of_pressure (sd : Sender) (n : Notice) (h : Hub) (hp : h.cells.pressure = .pressure) :
    h.raise sd n = (h.raiseCore sd n).1 := by
  show (h.raiseCore sd n).1.noteEntered sd (h.raiseCore sd n).2 = _
  rw [((raiseCore_presses sd n h).1.pressed hp).2]
  rfl

theorem noteEntered_raise (sd : Sender) (held : Nat) (h : Hub) (hp : h.cells.pressure = .pressure) :
    h.noteEntered sd (some held) =
      (h.flag .pressureSeen).raise sd (.pressure true held h.cells.high h.cells.low) :=
  (raise_of_pressure sd _ (h.flag .pressureSeen) hp).symm

/-- What may follow the building of something into `n` cells, from what the building found of the pressure state. -/
theorem entersAfter_note {sd : Sender} {n : Nat} {h u : Hub} {e : Option Nat} (hi : u.cells.high = h.cells.high)
    (lo : u.cells.low = h.cells.low)
    (no : ¬ Enters h n → u.cells.pressure = h.cells.pressure ∧ e = none)
    (yes : Enters h n → u.cells.pressure = .pressure ∧
      e = some (max h.cells.high (3072 - (h.cells.free.length - 1) - h.cells.retired.length))) :
    EntersAfter sd n h u (u.noteEntered sd e) := by
  refine ⟨fun g => ?_, fun g => ?_⟩
  · obtain ⟨p, rfl⟩ := no g
    exact ⟨p, rfl⟩
  · obtain ⟨p, rfl⟩ := yes g
    rw [noteEntered_raise sd _ u p, hi, lo]
    exact ⟨p, rfl⟩

theorem cellsFor_pos {L : Nat} : 0 < cellsFor (L + 4) := by unfold cellsFor; omega

/-- R26, R33: what a build finds of the pressure state. -/
theorem build_entry {kind : FrameKind} {bytes : List Byte} {h h' : Hub} {id : Nat} {e : Option Nat}
    (hb : h.build kind bytes = some (id, h', e)) :
    (¬ Enters h (cellsFor (bytes.length + 4)) → h'.cells.pressure = h.cells.pressure ∧ e = none) ∧
    (Enters h (cellsFor (bytes.length + 4)) → h'.cells.pressure = .pressure ∧
      e = some (max h.cells.high (3072 - (h.cells.free.length - 1) - h.cells.retired.length))) := by
  unfold Hub.build at hb
  simp only at hb
  split at hb
  · cases hb
  · rename_i hn
    obtain ⟨no, yes⟩ := takeCells_entry (cellsFor (bytes.length + 4)) h.cells (by omega)
    simp only [Option.some.injEq, Prod.mk.injEq] at hb
    obtain ⟨rfl, rfl, rfl⟩ := hb
    exact ⟨fun g => no fun q => g ⟨q.1, q.2.2⟩, fun g => yes g.1 cellsFor_pos g.2⟩

theorem build_entersAfter {sd : Sender} {kind : FrameKind} {bytes : List Byte} {h h' : Hub} {id : Nat} {e : Option Nat}
    (hb : h.build kind bytes = some (id, h', e)) :
    EntersAfter sd (cellsFor (bytes.length + 4)) h h' (h'.noteEntered sd e) := by
  obtain ⟨_, _, _, _, _, _, _, _, _, hi, lo, _⟩ := build_spec hb
  exact entersAfter_note hi lo (build_entry hb).1 (build_entry hb).2

/-! ## One taking after another -/

/-- From `h` to `u` the cells on top of the stack have been taken, `n` in all, and `e` says where PRESSURE was entered. -/
structure Taken (n : Nat) (h u : Hub) (e : Option Nat) : Prop where
  enough : n ≤ h.cells.free.length
  free : u.cells.free = h.cells.free.drop n
  retired : u.cells.retired = h.cells.retired
  high : u.cells.high = h.cells.high
  low : u.cells.low = h.cells.low
  kept : ¬ (0 < n ∧ Enters h n) → u.cells.pressure = h.cells.pressure ∧ e = none
  entered : 0 < n → Enters h n → u.cells.pressure = .pressure ∧
    e = some (max h.cells.high (3072 - (h.cells.free.length - 1) - h.cells.retired.length))

theorem Taken.refl (h : Hub) : Taken 0 h h none :=
  ⟨Nat.zero_le _, rfl, rfl, rfl, rfl, fun _ => ⟨rfl, rfl⟩, fun g => absurd g (Nat.lt_irrefl 0)⟩

theorem Taken.trans {n m : Nat} {a b c : Hub} {e f : Option Nat} (h : Taken n a b e) (g : Taken m b c f) :
    Taken (n + m) a c (e.or f) := by
  have hl : b.cells.free.length = a.cells.free.length - n := by rw [h.free, List.length_drop]
  have h1 := h.enough
  have h2 := g.enough
  have drop : b.cells.free.length - m = a.cells.free.length - (n + m) := by omega
  by_cases he : 0 < n ∧ Enters a n
  · obtain ⟨p1, rfl⟩ := h.entered he.1 he.2
    obtain ⟨p2, rfl⟩ := g.kept (fun q => by have := q.2.1; rw [p1] at this; cases this)
    refine ⟨by omega, by rw [g.free, h.free, List.drop_drop], g.retired.trans h.retired, g.high.trans h.high,
      g.low.trans h.low, fun q => absurd ⟨by omega, he.2.1, ?_⟩ q, fun _ _ => ⟨p2.trans p1, rfl⟩⟩
    have := he.2.2
    omega
  · obtain ⟨p1, rfl⟩ := h.kept he
    have same : (0 < m ∧ Enters b m) ↔ (0 < n + m ∧ Enters a (n + m)) := by
      unfold Enters
      rw [p1, h.high, h.retired, drop]
      constructor
      · exact fun ⟨q1, q2⟩ => ⟨by omega, q2⟩
      · intro ⟨q1, q2⟩
        refine ⟨?_, q2⟩
        rcases Nat.eq_zero_or_pos m with rfl | q
        · exact absurd ⟨by omega, by simpa [Enters] using q2⟩ he
        · exact q
    refine ⟨by omega, by rw [g.free, h.free, List.drop_drop], g.retired.trans h.retired, g.high.trans h.high,
      g.low.trans h.low, fun q => ?_, fun q1 q2 => ?_⟩
    · obtain ⟨p2, rfl⟩ := g.kept (fun r => q (same.mp r))
      exact ⟨p2.trans p1, rfl⟩
    · obtain ⟨r1, r2⟩ := same.mpr ⟨q1, q2⟩
      obtain ⟨p2, rfl⟩ := g.entered r1 r2
      refine ⟨p2, ?_⟩
      rw [Option.none_or, h.high, h.retired, hl]
      congr 1
      rcases Nat.eq_zero_or_pos n with rfl | hn
      · rfl
      · have : a.cells.high > 3072 - (a.cells.free.length - n) - a.cells.retired.length := by
          by_contra hc
          exact he ⟨hn, q2.1, by omega⟩
        rw [max_eq_left (by omega), max_eq_left (by omega)]

theorem Taken.mgmt {n : Nat} {h u v : Hub} {e : Option Nat} (t : Taken n h u e) (hv : v.cells = u.cells) :
    Taken n h v e :=
  ⟨t.1, by rw [hv, t.2], by rw [hv, t.3], by rw [hv, t.4], by rw [hv, t.5], by rw [hv]; exact t.6, by rw [hv]; exact t.7⟩

theorem Taken.entersAfter {sd : Sender} {n : Nat} {h u : Hub} {e : Option Nat} (t : Taken n h u e) (hn : 0 < n) :
    EntersAfter sd n h u (u.noteEntered sd e) :=
  entersAfter_note t.high t.low (fun g => t.kept fun q => g q.2) (t.entered hn)

theorem build_taken {kind : FrameKind} {bytes : List Byte} {h h' : Hub} {id : Nat} {e : Option Nat}
    (hb : h.build kind bytes = some (id, h', e)) : Taken (cellsFor (bytes.length + 4)) h h' e := by
  obtain ⟨_, _, hl, _, _, hf, _, _, hr, hi, lo, _⟩ := build_spec hb
  exact ⟨hl, hf, hr, hi, lo, fun g => (build_entry hb).1 fun q => g ⟨cellsFor_pos, q⟩, fun _ => (build_entry hb).2⟩

/-- The cells of a notice's frame. -/
def noticeCells (sd : Sender) (dst : LinkAddr) (n : Notice) : Nat :=
  cellsFor ((mgmtFrame dst sd.identity n.code 0 0 sd.carriage n.body).length + 4)

/-- R26: when a build is made. -/
theorem build_when (kind : FrameKind) (bytes : List Byte) (h : Hub) :
    (h.cells.free.length < cellsFor (bytes.length + 4) → h.build kind bytes = none) ∧
    (cellsFor (bytes.length + 4) ≤ h.cells.free.length → ∃ id b e, h.build kind bytes = some (id, b, e)) := by
  unfold Hub.build
  exact ⟨fun g => if_pos g, fun g => by rw [if_neg (by omega)]; exact ⟨_, _, _, rfl⟩⟩

/-- R175: what the build of a notice can do. -/
theorem tryNotice_cases (sd : Sender) (dst : LinkAddr) (n : Notice) (h : Hub) :
    (12 ≤ h.mgmt.notices.length ∨ h.cells.free.length < noticeCells sd dst n → h.tryNotice sd dst n = none) ∧
    (h.mgmt.notices.length < 12 → noticeCells sd dst n ≤ h.cells.free.length →
      ∃ id b e, h.build .notice (mgmtFrame dst sd.identity n.code 0 0 sd.carriage n.body) = some (id, b, e) ∧
        h.tryNotice sd dst n = some ({ b with mgmt := { h.mgmt with notices := h.mgmt.notices ++ [id] } }, e)) := by
  obtain ⟨no, yes⟩ := build_when .notice (mgmtFrame dst sd.identity n.code 0 0 sd.carriage n.body) h
  unfold Hub.tryNotice
  refine ⟨fun g => ?_, fun g1 g2 => ?_⟩
  · split
    · rw [no (g.resolve_left (by omega))]
    · rfl
  · obtain ⟨id, b, e, hb⟩ := yes g2
    obtain ⟨_, _, _, _, hm, _⟩ := build_spec hb
    refine ⟨id, b, e, hb, ?_⟩
    rw [if_pos g1, hb]
    simp only [hm]

/-! ## The return of cells -/

theorem returnCell_held (failed : List Nat) (x : Nat) (c : CellMemory) :
    (c.returnCell failed x).1.held = c.held - 1 ∧ (c.returnCell failed x).1.pressure = c.pressure ∧
      (c.returnCell failed x).1.low = c.low := by
  unfold CellMemory.returnCell CellMemory.held
  split
  · split
    · simp only [List.length_append, List.length_cons, List.length_nil, and_true]; omega
    · simp only [List.length_cons, and_true]; omega
  · simp only [List.length_cons, and_true]; omega

/-- R33: what one return after another says of the pressure state. PRESSURE is left exactly where cells held come to the
low mark, and the cells held reported are those at that return. -/
theorem returnCells_leave (failed chain : List Nat) (c : CellMemory) :
    (c.pressure = .pressure → chain ≠ [] → c.held - chain.length ≤ c.low →
      (returnCells failed chain c).1.pressure = .normal ∧
        (returnCells failed chain c).2.1 = some (min c.low (c.held - 1))) ∧
    (c.pressure = .normal ∨ chain = [] ∨ c.low < c.held - chain.length →
      (returnCells failed chain c).1.pressure = c.pressure ∧ (returnCells failed chain c).2.1 = none) := by
  induction chain generalizing c with
  | nil => exact ⟨fun _ h => absurd rfl h, fun _ => ⟨rfl, rfl⟩⟩
  | cons x xs ih =>
    unfold returnCells
    simp only
    obtain ⟨h1, h2, h3⟩ := returnCell_held failed x c
    generalize (c.returnCell failed x).1 = c1 at h1 h2 h3
    simp only [List.length_cons, ne_eq, reduceCtorEq, not_false_eq_true, false_or, true_implies]
    by_cases hl : c.pressure = .pressure ∧ c1.held ≤ c.low
    · have ht : c1.testLeave = ({ c1 with pressure := .normal }, some c1.held) := by
        unfold CellMemory.testLeave
        rw [if_pos ⟨h2.trans hl.1, by rw [h3]; exact hl.2⟩]
      obtain ⟨_, i⟩ := ih { c1 with pressure := .normal }
      obtain ⟨i1, i2⟩ := i (.inl rfl)
      rw [ht]
      have := hl.2
      refine ⟨fun _ _ => ⟨i1, ?_⟩, fun h => ?_⟩
      · simp only [Option.some_or, Option.some.injEq]; omega
      · rcases h with h | h
        · rw [hl.1] at h; cases h
        · omega
    · have ht : c1.testLeave = (c1, none) := by
        unfold CellMemory.testLeave
        rw [if_neg (by rw [h2, h3]; exact hl)]
      obtain ⟨i, j⟩ := ih c1
      rw [h1, h2, h3] at i j
      rw [ht]
      simp only [Option.none_or]
      refine ⟨fun hp hh => ?_, fun h => j ?_⟩
      · have hn : ¬ c1.held ≤ c.low := fun g => hl ⟨hp, g⟩
        have hx : xs ≠ [] := by rintro rfl; simp at hh; omega
        obtain ⟨i1, i2⟩ := i hp hx (by omega)
        refine ⟨i1, ?_⟩
        rw [i2]
        congr 1
        omega
      · rcases h with h | h
        · exact .inl h
        · exact .inr (.inr (by omega))

/-- R31: how many failed cells meet a full retired list, each of which is an occurrence of MEMORY_DEGRADED. -/
theorem returnCells_over (failed chain : List Nat) (c : CellMemory) : (returnCells failed chain c).2.2 =
    (chain.filter (fun x => failed.contains x)).length - (64 - c.retired.length) := by
  induction chain generalizing c with
  | nil => simp [returnCells]
  | cons x xs ih =>
    unfold returnCells
    simp only
    rw [ih, (testLeave_same _).1.retired]
    unfold CellMemory.returnCell
    by_cases hf : failed.contains x = true
    · simp only [hf, if_true, List.filter_cons_of_pos, List.length_cons]
      split <;> simp only [if_true, Bool.false_eq_true, if_false, List.length_append, List.length_cons,
        List.length_nil] <;> omega
    · simp only [hf, if_false, Bool.false_eq_true, not_false_eq_true, List.filter_cons_of_neg, Nat.zero_add]

/-! ## The test of the state against its marks -/

/-- What the test of R35 and R36 can do. -/
theorem retest_tested (sd : Sender) (h : Hub) : PressureTested sd h (h.retest sd) := by
  unfold Hub.retest CellMemory.testEnter CellMemory.testLeave
  refine ⟨fun hp hh => ?_, fun hp hh => ?_, ?_⟩
  · rw [hp]
    simp only [hh, and_self, if_true]
    exact noteEntered_raise sd _ { h with cells := { h.cells with pressure := .pressure } } rfl
  · rw [hp]
    simp only [hh, and_self, if_true]
    rfl
  · rintro (⟨hp, hh⟩ | ⟨hp, hh⟩)
    · rw [hp]
      simp only
      rw [if_neg (by omega)]
      rfl
    · rw [hp]
      simp only
      rw [if_neg (by omega)]
      rfl

/-! ## The flags that these bring about -/

/-- Each flag has a bit of its own (R178). -/
theorem flag_index_inj {a b : Flag} (h : a.index = b.index) : a = b := by
  cases a <;> cases b <;> first | rfl | exact absurd h (by decide)

theorem flagOf_flag_self (f : Flag) (h : Hub) : (h.flag f).flagOf f = (h.flagOf f).occur := by
  simp [Hub.flag, Hub.flagOf]

theorem flagOf_flag_ne {f g : Flag} (h : Hub) (hn : f ≠ g) : (h.flag g).flagOf f = h.flagOf f := by
  have hi : g.index.val ≠ f.index.val := fun e => hn (flag_index_inj (Fin.ext e.symm))
  simp [Hub.flag, Hub.flagOf, hi]

theorem flagOf_flagN_ne {f g : Flag} (n : Nat) (h : Hub) (hn : f ≠ g) : (Hub.flagN g n h).flagOf f = h.flagOf f := by
  induction n generalizing h with
  | zero => rfl
  | succ n ih => exact (ih _).trans (flagOf_flag_ne h hn)

/-- `n` occurrences of a flag, at least one: it is set, and its count is `n` higher, at most 65535 (R178). -/
theorem flagOf_flagN_self (f : Flag) (n : Nat) (h : Hub) : (Hub.flagN f (n + 1) h).flagOf f =
    { isSet := true, count := min ((h.flagOf f).count + (n + 1)) 65535 } := by
  induction n generalizing h with
  | zero => exact flagOf_flag_self f h
  | succ n ih =>
    rw [Hub.flagN, ih (h.flag f), flagOf_flag_self]
    simp only [StickyFlag.occur, sat16, StickyFlag.mk.injEq, true_and]
    omega

theorem reportLost_flagOf (sd : Sender) (h : Hub) (f : Flag) : (h.reportLost sd).1.flagOf f = h.flagOf f := by
  unfold Hub.reportLost
  split
  · rfl
  · split
    · rfl
    · split
      · rfl
      · rename_i ht
        unfold Hub.tryNotice at ht
        split at ht
        · split at ht
          · cases ht
          · rename_i hb
            obtain ⟨_, _, _, _, hm, _⟩ := build_spec hb
            simp only [Option.some.injEq, Prod.mk.injEq] at ht
            obtain ⟨rfl, rfl⟩ := ht
            simp only [Hub.flagOf, hm]
        · cases ht

/-- A notice raised counts NOTICES_LOST at most, its cells aside. -/
theorem raiseCore_flagOf (sd : Sender) (n : Notice) (h : Hub) {f : Flag} (hf : f ≠ .noticesLost) :
    (h.raiseCore sd n).1.flagOf f = h.flagOf f := by
  have lose : ∀ g : Hub, g.loseNotice.flagOf f = g.flagOf f := fun g => flagOf_flag_ne _ hf
  unfold Hub.raiseCore
  split
  · rfl
  · have q := reportLost_flagOf sd h f
    simp only
    split
    · rw [lose, q]
    · split
      · rw [lose, q]
      · rename_i ht
        rw [← q]
        unfold Hub.tryNotice at ht
        split at ht
        · split at ht
          · cases ht
          · rename_i hb
            obtain ⟨_, _, _, _, hm, _⟩ := build_spec hb
            simp only [Option.some.injEq, Prod.mk.injEq] at ht
            obtain ⟨rfl, rfl⟩ := ht
            simp only [Hub.flagOf, hm]
        · cases ht

/-- A notice raised counts NOTICES_LOST and PRESSURE_SEEN at most. -/
theorem raise_flagOf (sd : Sender) (n : Notice) (h : Hub) {f : Flag} (hf : f ≠ .noticesLost) (hp : f ≠ .pressureSeen) :
    (h.raise sd n).flagOf f = h.flagOf f := by
  show ((h.raiseCore sd n).1.noteEntered sd (h.raiseCore sd n).2).flagOf f = _
  rw [← raiseCore_flagOf sd n h hf]
  unfold Hub.noteEntered
  split
  · rfl
  · rw [raiseCore_flagOf _ _ _ hf, flagOf_flag_ne _ hp]

/-- The return of cells counts MEMORY_DEGRADED, and what its notice may bring about, at most. -/
theorem giveBack_flagOf (sd : Sender) (failed chain : List Nat) (h : Hub) {f : Flag} (hf : f ≠ .noticesLost)
    (hp : f ≠ .pressureSeen) (hd : f ≠ .memoryDegraded) : (h.giveBack sd failed chain).flagOf f = h.flagOf f := by
  show ((Hub.flagN .memoryDegraded _ { h with cells := _ }).noteLeft sd _).flagOf f = _
  unfold Hub.noteLeft
  split
  · exact flagOf_flagN_ne _ _ hd
  · rw [raise_flagOf _ _ _ hf hp]
    exact flagOf_flagN_ne _ _ hd

/-- The same of the drop of a reference. -/
theorem dropRef_flagOf (sd : Sender) (id : Nat) (h : Hub) {f : Flag} (hf : f ≠ .noticesLost)
    (hp : f ≠ .pressureSeen) (hd : f ≠ .memoryDegraded) : (h.dropRef sd id).flagOf f = h.flagOf f := by
  unfold Hub.dropRef
  split
  · rfl
  · split
    · unfold Hub.freeFrame
      split
      · rfl
      · exact giveBack_flagOf _ _ _ _ hf hp hd
    · rfl

/-- The take of a request (R169) counts no flag but those of its reading and of the return of its cells. -/
theorem afterTake_flagOf {s : State} {fs : List CellFault} {k : Fin 4} {rq : Request} (ht : Takes s fs k rq) {f : Flag}
    (h1 : f ≠ .noticesLost) (h2 : f ≠ .pressureSeen) (h3 : f ≠ .memoryDegraded) (h4 : f ≠ .memorySingle)
    (h5 : f ≠ .memoryMulti) : (afterTake s fs).hub.flagOf f = s.hub.flagOf f := by
  obtain ⟨e, g, hr, hb, hg, _⟩ := ht
  have : ∃ m : State, afterTake s fs = onHub (Hub.dropRef m.sender e.id) m ∧
      m.hub.mgmt.flags = (Hub.readFrame g none (withFaults fs s).hub).2.mgmt.flags := by
    simp only [afterTake, hr, takeInto, hb, hg, List.isEmpty_nil, Bool.true_eq_false, Bool.false_eq_true, if_false]
    exact ⟨_, rfl, rfl⟩
  obtain ⟨m, hm, hfl⟩ := this
  have hread : (Hub.readFrame g none (withFaults fs s).hub).2.flagOf f = s.hub.flagOf f := by
    unfold Hub.readFrame
    simp only
    rw [flagOf_flagN_ne _ _ h5, flagOf_flagN_ne _ _ h4]
    rfl
  rw [hm]
  show (Hub.dropRef m.sender e.id m.hub).flagOf f = _
  rw [dropRef_flagOf _ _ _ h1 h2 h3, ← hread]
  unfold Hub.flagOf
  rw [hfl]

end Sys2Proof.Laws
end

