-- ==== Sys2Proof/Laws/Timers.lean ====
section
/-! SUPPORT. What the passing of one unit of time can do: which timers' commands it brings, in which order, and what it
does to the epoch counter. -/

namespace Sys2Proof.Laws

open Sys2Proof Sys2Proof.Machine Sys2Proof.Safety

/-! ## The moments of the timers -/

theorem hasCome_iff {now : Nat} {t : Option Nat} : hasCome now t = true ↔ ∃ m, t = some m ∧ m ≤ now := by
  cases t <;> simp [hasCome]

/-- R17: the moment of an end's hold limit, where its continuous hold goes on with no overrun recorded. -/
theorem limitAt_iff {limit m : Nat} {e : BackboneEnd} : e.limitAt limit = some m ↔
    ∃ u start, e.heldUntil = some u ∧ e.holdStart = some start ∧ e.overrun = false ∧ start + 100 * limit = m := by
  unfold BackboneEnd.limitAt
  cases e.heldUntil <;> cases e.holdStart <;> cases e.overrun <;> simp

/-- R46: the moment at which a record's idle timer expires, where it runs. -/
theorem expiresAt_iff {st : Station} {m : Nat} : st.expiresAt = some m ↔
    st.isLeaving = false ∧ 0 < st.idle ∧ st.idleStart + 100000 * st.idle = m := by
  unfold Station.expiresAt
  cases st.isLeaving <;> simp [Nat.pos_iff_ne_zero]

/-- The parked SAVE_SETTINGS is the one of the lowest slot that holds one. -/
theorem parkedSave_iff {m : Mgmt} {k : Fin 4} {image : StoredSettings} {start : Nat} :
    parkedSave m = some (k, image, start) ↔ (∃ h, m.slots[k] = .parked h (.save image start)) ∧
      ∀ (j : Fin 4) h' image' start', j < k → m.slots[j] ≠ .parked h' (.save image' start') := by
  unfold parkedSave
  rw [List.findSome?_eq_some_iff]
  constructor
  · rintro ⟨l1, a, l2, hl, ha, hb⟩
    have hp : (l1 ++ a :: l2).Pairwise (· < ·) := by rw [← hl]; exact List.pairwise_lt_finRange 4
    split at ha <;> simp at ha
    rename_i hq
    obtain ⟨rfl, rfl, rfl⟩ := ha
    refine ⟨⟨_, hq⟩, fun j h' i' t' hj hn => ?_⟩
    have hm : j ∈ l1 ++ a :: l2 := by rw [← hl]; exact List.mem_finRange j
    rcases List.mem_append.mp hm with hm | hm
    · have := hb j hm
      rw [hn] at this
      simp at this
    · rcases List.mem_cons.mp hm with rfl | hm
      · omega
      · have := (List.pairwise_cons.mp (List.pairwise_append.mp hp).2.1).1 j hm
        omega
  · rintro ⟨⟨h, hq⟩, hb⟩
    obtain ⟨l1, l2, hl⟩ := List.append_of_mem (List.mem_finRange k)
    have hp : (l1 ++ k :: l2).Pairwise (· < ·) := by rw [← hl]; exact List.pairwise_lt_finRange 4
    refine ⟨l1, k, l2, hl, by rw [hq], fun j hj => ?_⟩
    have hlt := (List.pairwise_append.mp hp).2.2 j hj k (by simp)
    split
    · rename_i hn; exact absurd hn (hb j _ _ _ hlt)
    · rfl

/-! ## The commands that have come -/

theorem mem_dueAtEnd (s : State) (x : End) (c : Instr) : c ∈ dueAtEnd s x ↔
    (c = .heldUntilReached x ∧ ∃ m, (s.ports.endOf x).heldUntil = some m ∧ m ≤ s.now) ∨
    (c = .holdLimitExpiry x ∧ ∃ m, (s.ports.endOf x).limitAt s.hold.limit = some m ∧ m ≤ s.now) ∨
    (c = .holdRepeatTimerExpiry x ∧ ∃ m, (s.ports.endOf x).repeatAt = some m ∧ m ≤ s.now) := by
  simp only [dueAtEnd, List.mem_append, ← hasCome_iff]
  split <;> split <;> split <;> simp_all [or_assoc]

theorem mem_dueRecords (s : State) (c : Instr) : c ∈ dueRecords s ↔
    ∃ k st m, c = .idleTimerExpiry k ∧ s.station? k = some st ∧ st.expiresAt = some m ∧ m ≤ s.now := by
  simp only [dueRecords, StationTable.slotsWhere, List.mem_map, List.mem_filter, List.mem_finRange, true_and]
  constructor
  · rintro ⟨k, hk, rfl⟩
    split at hk
    · rename_i st hst
      obtain ⟨m, hm, hl⟩ := hasCome_iff.mp hk
      exact ⟨k, st, m, rfl, hst, hm, hl⟩
    · cases hk
  · rintro ⟨k, st, m, rfl, hst, hm, hl⟩
    have hst' : s.table.slots[k] = some st := hst
    exact ⟨k, by rw [hst']; exact hasCome_iff.mpr ⟨m, hm, hl⟩, rfl⟩

theorem mem_dueEpoch (s : State) (c : Instr) : c ∈ dueEpoch s ↔
    c = .epochCounterExpiry ∧ s.sched.running = true ∧ s.sched.epochUnits ≤ s.sched.elapsed := by
  unfold dueEpoch
  split <;> simp_all

theorem mem_dueSave (s : State) (c : Instr) : c ∈ dueSave s ↔ ∃ (k : Fin 4) (image : StoredSettings) (start : Nat),
    c = .storeWriteEnds (Config.storeAccepts s.now) ∧ parkedSave s.hub.mgmt = some (k, image, start) ∧
      start + 4000 ≤ s.now := by
  unfold dueSave
  cases h : parkedSave s.hub.mgmt with
  | none => simp
  | some v =>
    obtain ⟨k, image, start⟩ := v
    simp only
    split
    · simp_all
    · simp; intros; omega

/-- The commands of the timers whose moments have come (R14, R16, R17, R46, R109, R186), and no others. -/
theorem mem_dueCommands (s : State) (c : Instr) : c ∈ dueCommands s ↔
    (∃ x m, c = .heldUntilReached x ∧ (s.ports.endOf x).heldUntil = some m ∧ m ≤ s.now) ∨
    (∃ x m, c = .holdLimitExpiry x ∧ (s.ports.endOf x).limitAt s.hold.limit = some m ∧ m ≤ s.now) ∨
    (∃ x m, c = .holdRepeatTimerExpiry x ∧ (s.ports.endOf x).repeatAt = some m ∧ m ≤ s.now) ∨
    (∃ k st m, c = .idleTimerExpiry k ∧ s.station? k = some st ∧ st.expiresAt = some m ∧ m ≤ s.now) ∨
    (c = .epochCounterExpiry ∧ s.sched.running = true ∧ s.sched.epochUnits ≤ s.sched.elapsed) ∨
    (∃ (k : Fin 4) (image : StoredSettings) (start : Nat), c = .storeWriteEnds (Config.storeAccepts s.now) ∧
      parkedSave s.hub.mgmt = some (k, image, start) ∧ start + 4000 ≤ s.now) := by
  simp only [dueCommands, List.mem_append, mem_dueAtEnd, mem_dueRecords, mem_dueEpoch, mem_dueSave, or_assoc]
  constructor
  · rintro (⟨h, m, g⟩ | ⟨h, m, g⟩ | ⟨h, m, g⟩ | ⟨h, m, g⟩ | ⟨h, m, g⟩ | ⟨h, m, g⟩ | h | h | h)
    · exact .inl ⟨_, m, h, g⟩
    · exact .inr (.inl ⟨_, m, h, g⟩)
    · exact .inr (.inr (.inl ⟨_, m, h, g⟩))
    · exact .inl ⟨_, m, h, g⟩
    · exact .inr (.inl ⟨_, m, h, g⟩)
    · exact .inr (.inr (.inl ⟨_, m, h, g⟩))
    · exact .inr (.inr (.inr (.inl h)))
    · exact .inr (.inr (.inr (.inr (.inl h))))
    · exact .inr (.inr (.inr (.inr (.inr h))))
  · rintro (⟨x, m, h, g⟩ | ⟨x, m, h, g⟩ | ⟨x, m, h, g⟩ | h | h | h)
    · cases x
      · exact .inl ⟨h, m, g⟩
      · exact .inr (.inr (.inr (.inl ⟨h, m, g⟩)))
    · cases x
      · exact .inr (.inl ⟨h, m, g⟩)
      · exact .inr (.inr (.inr (.inr (.inl ⟨h, m, g⟩))))
    · cases x
      · exact .inr (.inr (.inl ⟨h, m, g⟩))
      · exact .inr (.inr (.inr (.inr (.inr (.inl ⟨h, m, g⟩)))))
    · exact .inr (.inr (.inr (.inr (.inr (.inr (.inl h))))))
    · exact .inr (.inr (.inr (.inr (.inr (.inr (.inr (.inl h)))))))
    · exact .inr (.inr (.inr (.inr (.inr (.inr (.inr (.inr h)))))))

/-! ## Their order -/

theorem timerPlace_heldUntil (x : End) : timerPlace (.heldUntilReached x) = match x with
    | .ba => 0
    | .bb => 3 := by cases x <;> rfl

theorem timerPlace_limit (x : End) : timerPlace (.holdLimitExpiry x) = match x with
    | .ba => 1
    | .bb => 4 := by cases x <;> rfl

theorem timerPlace_repeat (x : End) : timerPlace (.holdRepeatTimerExpiry x) = match x with
    | .ba => 2
    | .bb => 5 := by cases x <;> rfl

theorem timerPlace_idle (k : Fin 256) : timerPlace (.idleTimerExpiry k) = 6 + k.val := rfl

theorem timerPlace_epoch : timerPlace .epochCounterExpiry = 262 := rfl

theorem timerPlace_store (a : Bool) : timerPlace (.storeWriteEnds a) = 263 := rfl

theorem dueAtEnd_place {s : State} {x : End} {c : Instr} (h : c ∈ dueAtEnd s x) :
    (x = .ba → timerPlace c ≤ 2) ∧ (x = .bb → 3 ≤ timerPlace c ∧ timerPlace c ≤ 5) := by
  rcases (mem_dueAtEnd s x c).mp h with ⟨rfl, _⟩ | ⟨rfl, _⟩ | ⟨rfl, _⟩ <;> cases x <;> decide

theorem dueRecords_place {s : State} {c : Instr} (h : c ∈ dueRecords s) : 6 ≤ timerPlace c ∧ timerPlace c ≤ 261 := by
  obtain ⟨k, _, _, rfl, _⟩ := (mem_dueRecords s c).mp h
  rw [timerPlace_idle]
  omega

theorem dueEpoch_place {s : State} {c : Instr} (h : c ∈ dueEpoch s) : timerPlace c = 262 := by
  rw [((mem_dueEpoch s c).mp h).1, timerPlace_epoch]

theorem dueSave_place {s : State} {c : Instr} (h : c ∈ dueSave s) : timerPlace c = 263 := by
  obtain ⟨_, _, _, rfl, _⟩ := (mem_dueSave s c).mp h
  rw [timerPlace_store]

theorem dueAtEnd_order (s : State) (x : End) : (dueAtEnd s x).Pairwise (fun a b => timerPlace a < timerPlace b) := by
  unfold dueAtEnd
  cases x <;> simp only <;> split <;> split <;> split <;>
    simp [timerPlace_heldUntil, timerPlace_limit, timerPlace_repeat]

theorem dueRecords_order (s : State) : (dueRecords s).Pairwise (fun a b => timerPlace a < timerPlace b) := by
  unfold dueRecords StationTable.slotsWhere
  rw [List.pairwise_map]
  refine ((List.pairwise_lt_finRange 256).imp fun {a b} h => ?_).filter _
  rw [timerPlace_idle, timerPlace_idle]
  omega

/-- The timers' commands stand in the order of `timerPlace` (log entry 20), each once. -/
theorem dueCommands_order (s : State) : (dueCommands s).Pairwise (fun a b => timerPlace a < timerPlace b) := by
  have hE : (dueEpoch s).Pairwise (fun a b => timerPlace a < timerPlace b) := by unfold dueEpoch; split <;> simp
  have hS : (dueSave s).Pairwise (fun a b => timerPlace a < timerPlace b) := by
    unfold dueSave; split <;> [split <;> simp; simp]
  unfold dueCommands
  simp only [List.pairwise_append, List.mem_append]
  refine ⟨⟨⟨⟨dueAtEnd_order s .ba, dueAtEnd_order s .bb, ?_⟩, dueRecords_order s, ?_⟩, hE, ?_⟩, hS, ?_⟩
  · intro a ha b hb
    have := (dueAtEnd_place ha).1 rfl; have := (dueAtEnd_place hb).2 rfl
    omega
  · intro a ha b hb
    have := dueRecords_place hb
    rcases ha with ha | ha
    · have := (dueAtEnd_place ha).1 rfl; omega
    · have := (dueAtEnd_place ha).2 rfl; omega
  · intro a ha b hb
    have := dueEpoch_place hb
    rcases ha with (ha | ha) | ha
    · have := (dueAtEnd_place ha).1 rfl; omega
    · have := (dueAtEnd_place ha).2 rfl; omega
    · have := dueRecords_place ha; omega
  · intro a ha b hb
    have := dueSave_place hb
    rcases ha with ((ha | ha) | ha) | ha
    · have := (dueAtEnd_place ha).1 rfl; omega
    · have := (dueAtEnd_place ha).2 rfl; omega
    · have := dueRecords_place ha; omega
    · have := dueEpoch_place ha; omega

/-! ## The epoch counter -/

/-- What `d` units do to the epoch counter (R109). -/
theorem pass_cases (d : Nat) (c : Scheduler) :
    (c.running = false → c.pass d = c) ∧
    (c.running = true → c.elapsed + d < c.epochUnits →
      c.pass d = { c with counter := (c.elapsed + d) / 100, phase := (c.elapsed + d) % 100 }) ∧
    (c.running = true → c.epochUnits ≤ c.elapsed + d →
      c.pass d = { c with counter := c.params.te - 1, phase := 100 }) := by
  unfold Scheduler.pass
  refine ⟨fun h => by simp [h], fun h l => by simp [h, l], fun h l => ?_⟩
  rw [if_neg (by simp [h]), if_neg (by omega)]

/-- The units run from the epoch's start go on by `d`, and reach its length exactly where they would. -/
theorem pass_due (d : Nat) (c : Scheduler) (h : c.running = true) :
    (c.pass d).running = true ∧ ((c.pass d).epochUnits ≤ (c.pass d).elapsed ↔ c.epochUnits ≤ c.elapsed + d) := by
  obtain ⟨_, h1, h2⟩ := pass_cases d c
  by_cases l : c.elapsed + d < c.epochUnits
  · rw [h1 h l]
    refine ⟨h, ?_⟩
    simp only [Scheduler.elapsed, Scheduler.epochUnits] at l ⊢
    omega
  · rw [h2 h (by omega)]
    refine ⟨h, ?_⟩
    simp only [Scheduler.elapsed, Scheduler.epochUnits] at l ⊢
    omega

end Sys2Proof.Laws
end

