-- ==== Sys2Proof/Laws/Views.lean ====
section
/-! SUPPORT. The fields of the views that replies carry, in the terms of the tables of 11.2, and what the reading of a
NOTICE frame finds. -/

namespace Sys2Proof.Laws

open Sys2Proof Sys2Proof.Machine

theorem beBytes_length (n v : Nat) : (beBytes n v).length = n := by
  induction n generalizing v with
  | zero => rfl
  | succ n ih => simp [beBytes, ih]

theorem beBytes_two (n : Nat) : beBytes 2 n = [BitVec.ofNat 8 (n / 256), BitVec.ofNat 8 n] := rfl

theorem beBytes_four (n : Nat) : beBytes 4 n = [BitVec.ofNat 8 (n / 256 / 256 / 256), BitVec.ofNat 8 (n / 256 / 256),
    BitVec.ofNat 8 (n / 256), BitVec.ofNat 8 n] := rfl

/-- A signed field is its number modulo 2^32. -/
theorem beInt32_mod (i : Int) : beInt32 i = beBytes 4 (i % 4294967296).toNat := by
  simp [beInt32, BitVec.toNat_ofInt]

/-- The held-order position of a slot as the station view gives it (R60). -/
theorem heldPosition_bytes (held : List (Fin 256)) (k : Fin 256) :
    [presence (heldPosition held k), BitVec.ofNat 8 ((heldPosition held k).getD 0)] =
      (if k ∈ held then [1, BitVec.ofNat 8 (held.idxOf k)] else [0, 0] : List Byte) := by
  unfold heldPosition
  split
  · rename_i h
    have : held.findIdx? (fun j => decide (j = k)) = some (held.idxOf k) :=
      List.findIdx?_eq_some_iff_findIdx_eq.mpr ⟨List.idxOf_lt_length_of_mem h, rfl⟩
    rw [this]
    rfl
  · rename_i h
    have : held.findIdx? (fun j => decide (j = k)) = none :=
      List.findIdx?_eq_none_iff.mpr (fun x hx => decide_eq_false (fun he => h (he ▸ hx)))
    rw [this]
    rfl

/-- The rendering of a station view at the build. -/
theorem renderReply_station {s : State} {a : LinkAddr} {k : Fin 256} {st : Station} (hk : s.table.byAddr a = some k)
    (hs : s.station? k = some st) : renderReply s (.station a) = (.ok, stationView s k st) := by
  have : s.table.slots[k] = some st := hs
  simp only [renderReply, hk, this]

/-- A NOTICE frame of one of the three codes is taken as the notice it spells (R191). -/
theorem receiveNoticeFrame_some {f : List Byte} {n : RadioNotice} (h : readNotice f = some n) (w : Fin 4) (ok : Bool)
    (s : State) : receiveNoticeFrame w f ok s = receiveNotice w n f.length ok s := by
  simp only [receiveNoticeFrame, h]

/-- The codes that a NOTICE frame may have (R191). -/
theorem readNotice_none_iff (f : List Byte) :
    readNotice f = none ↔ byteAt f 0 ≠ 1 ∧ byteAt f 0 ≠ 2 ∧ byteAt f 0 ≠ 3 := by
  have h (n : Nat) (hn : n < 256) : (byteAt f 0).toNat = n ↔ byteAt f 0 = BitVec.ofNat 8 n := by
    rw [BitVec.toNat_eq, BitVec.toNat_ofNat, Nat.mod_eq_of_lt hn]
  unfold readNotice
  split
  · rename_i h1; simp [(h 1 (by decide)).mp h1]
  · rename_i h2; simp [(h 2 (by decide)).mp h2]
  · rename_i h3; simp [(h 3 (by decide)).mp h3]
  · rename_i h1 h2 h3
    simp only [true_iff]
    exact ⟨fun e => h1 ((h 1 (by decide)).mpr e), fun e => h2 ((h 2 (by decide)).mpr e),
      fun e => h3 ((h 3 (by decide)).mpr e)⟩

end Sys2Proof.Laws
end

