-- ==== Sys2Proof/WellFormed.lean ====
section
/-! DEFINITION. Well-formed commands: what a sender that keeps to the rows of the table sends. An ill-formed command is
not refused by the machine; it changes nothing, or what it can (log entry 2). -/

namespace Sys2Proof

/-- The memory faults of a reading name cells of the part, each once (R20, R27: a cell gives one result). -/
def faultsOk (fs : List CellFault) : Bool :=
  fs.all (fun f => decide (f.cell < 3072)) && decide (fs.map (·.cell)).Nodup

/-- The type code at offsets 12 and 13 of a frame is the hold type code (R189, R192). -/
def carriesHoldType (f : List Byte) : Bool := (f.drop 12).take 2 == [0x89, 0xF3]

/-- Whether a command is one that its row can bring. -/
def Instr.wellFormed : Instr → Bool
  | .powerOn => true
  | .linkUp _ => true
  | .seatPortDown _ => true
  | .radioLinkDown _ => true
  | .backboneEndDown _ => true
  | .takeCell _ => true
  | .seatFrameReceived _ _ _ => true
  | .radioDataFrameReceived _ _ _ _ _ => true
  | .associated _ _ _ _ _ => true
  | .disassociated _ _ _ _ => true
  | .radioStart _ _ _ => true
  | .backboneFrameReceived _ _ _ => true
  | .holdFrameReceived _ f _ => carriesHoldType f
  | .heldUntilReached _ => true
  | .holdLimitExpiry _ => true
  | .holdRepeatTimerExpiry _ => true
  | .idleTimerExpiry _ => true
  | .epochCounterExpiry => true
  | .transmissionStart _ fs => faultsOk fs
  | .transmissionComplete _ => true
  | .buildWaitingReply => true
  | .storeWriteEnds _ => true
  | .readStation fs => faultsOk fs
  | .listStations fs => faultsOk fs
  | .admitStation fs => faultsOk fs
  | .bar fs => faultsOk fs
  | .unbar fs => faultsOk fs
  | .release fs => faultsOk fs
  | .setAllowance fs => faultsOk fs
  | .renew fs => faultsOk fs
  | .renewAll fs => faultsOk fs
  | .setShaping fs => faultsOk fs
  | .setEpoch fs => faultsOk fs
  | .schedulerStart fs => faultsOk fs
  | .schedulerStop fs => faultsOk fs
  | .schedulerRestart fs => faultsOk fs
  | .readScheduler fs => faultsOk fs
  | .writeWindow fs => faultsOk fs
  | .readWindow fs => faultsOk fs
  | .setPort fs => faultsOk fs
  | .readPort fs => faultsOk fs
  | .setHold fs => faultsOk fs
  | .setMemoryLimits fs => faultsOk fs
  | .setConsist fs => faultsOk fs
  | .readStatus fs => faultsOk fs
  | .clearStatus fs => faultsOk fs
  | .snapshot fs => faultsOk fs
  | .readSnapshot fs => faultsOk fs
  | .saveSettings fs => faultsOk fs
  | .reset fs => faultsOk fs
  | .unknownRequestCode fs => faultsOk fs

end Sys2Proof
end

