-- ==== Sys2Proof/Tests/Slice0.lean ====
section
/-! SUPPORT. Tests of the model on one command each, with results from the manual's tables and worked examples, and the
witnesses: for every statement with hypotheses, a state and operands that meet them, clause by clause. -/

namespace Sys2Proof.Tests

set_option Elab.async false

open Sys2Proof Sys2Proof.Machine Sys2Proof.Safety Sys2Proof.Laws

/-! ## Well-formedness: each check refuses an ill-formed command -/

theorem test_wf_fault_cell_in_part : (Instr.reset [{ cell := 3072, error := .multi }]).wellFormed = false := by decide

theorem test_wf_fault_cell_once :
    (Instr.transmissionStart (.seat 0) [{ cell := 5, error := .single }, { cell := 5, error := .multi }]).wellFormed =
      false := by decide

theorem test_wf_hold_type : (Instr.holdFrameReceived .ba (List.replicate 64 0) true).wellFormed = false := by decide

/-! ## Small states and frames -/

/-- The state after a command. -/
def after (i : Instr) (s : State) : State :=
  match exec i s with
  | .next t => t
  | _ => s

/-- A server's address. -/
def srv : LinkAddr := 0x020000000001

/-- A station's address. -/
def sta : LinkAddr := 0x02000000BEEF

/-- A broadcast address. -/
def everyone : LinkAddr := 0xFFFFFFFFFFFF

/-- A port's link made UP, without its notice. -/
def up (p : Port) (s : State) : State := { s with ports := s.ports.modUnit p (fun u => { u with link := .up }) }

/-- A port's reception, transmission or link set. -/
def unit (p : Port) (g : PortUnit → PortUnit) (s : State) : State := { s with ports := s.ports.modUnit p g }

/-- Reset, with both backbone ends UP. -/
def whole : State := up (.backbone .ba) (up (.backbone .bb) State.reset)

/-- The same with a free stack of 16 cells and a high mark that they do not reach, so that the tests are quick. -/
def s0 : State :=
  { whole with hub := { whole.hub with cells := { whole.hub.cells with free := List.range 16, high := 4000 } } }

/-- A management request on the link: padded to 64 bytes with its wire check. -/
def request (src : LinkAddr) (code : Byte) (body : List Byte) : List Byte :=
  mgmtFrame 0 src code 0 7 0 body ++ [0, 0, 0, 0]

/-- The state with a server's request at the head of the input queue. -/
def ask (code : Byte) (body : List Byte) (s : State) : State :=
  after (.backboneFrameReceived .ba (request srv code body) true) s

/-- A network frame of `len` bytes. -/
def netFrame (dst src : LinkAddr) (from4 to4 : NetAddr) (len : Nat) : List Byte :=
  addrBytes dst ++ addrBytes src ++ [8, 0] ++ List.replicate 12 0 ++ beBytes 4 from4.toNat ++ beBytes 4 to4.toNat ++
    List.replicate (len - 34) 0

/-- A hold frame of a duration, as an end receives it. -/
def holdBytes (d : Nat) : List Byte := holdFrame srv d ++ [0, 0, 0, 0]

/-- A station's record. -/
def seated (cls : StationClass) (st : StationState) (o : Origin) : Station := newStation sta cls st o 900 0

/-- A record put in a slot. -/
def put (k : Fin 256) (st : Station) (s : State) : State :=
  { s with table :=
    { slots := s.table.slots.set k (some st)
      held := if st.state = .held then s.table.held ++ [k] else s.table.held } }

/-- A stored frame of one cell, with one reference, taken off the free stack. -/
def store (cell len : Nat) (owner : Option (Fin 256)) (metered : Bool) (s : State) : State :=
  { s with hub := { s.hub with cells := { s.hub.cells with
      free := s.hub.cells.free.filter (fun x => decide (x ≠ cell))
      frames := s.hub.cells.frames ++
        [{ length := len, arrival := some (.seat 3), kind := .network, metered := metered, chain := [cell], refs := 1,
           station := owner, failed := [] }] } } }

/-- An end set. -/
def atEnd (x : End) (g : BackboneEnd → BackboneEnd) (s : State) : State := { s with ports := s.ports.modEnd x g }

/-- The scheduler RUNNING. -/
def running (s : State) : State := { s with sched := { s.sched with running := true } }

/-- Cell Memory set. -/
def cells (g : CellMemory → CellMemory) (s : State) : State := { s with hub := { s.hub with cells := g s.hub.cells } }

/-- The Management Unit set. -/
def mgmt (g : Mgmt → Mgmt) (s : State) : State := { s with hub := { s.hub with mgmt := g s.hub.mgmt } }

/-- The body of the first reply built, `n` bytes of it. -/
def replyBody (n : Nat) (s : State) : List Byte :=
  match s.hub.mgmt.builtOrder with
  | k :: _ =>
    match s.hub.mgmt.slots[k] with
    | .built _ id =>
      match s.hub.cells.frame? id with
      | some f => ((s.hub.cells.frameBytes f).drop 22).take n
      | none => []
    | _ => []
  | [] => []

/-- The status of the first reply built. -/
def replyStatus (s : State) : List Byte :=
  match s.hub.mgmt.builtOrder with
  | k :: _ =>
    match s.hub.mgmt.slots[k] with
    | .built _ id =>
      match s.hub.cells.frame? id with
      | some f => ((s.hub.cells.frameBytes f).drop 15).take 1
      | none => []
    | _ => []
  | [] => []

/-! ## Checkers, and what they show -/

/-- Whether a frame arrives with the chain given. -/
def arrivesB (p : Port) (f : List Byte) (ok : Bool) (s : State) (chain : List Nat) : Bool :=
  canEnd p f.length s && decide ((endReception p f.length s).1 = some chain) && frameOk f ok

theorem arrives {p : Port} {f : List Byte} {ok : Bool} {s : State} {chain : List Nat}
    (h : arrivesB p f ok s chain = true) : Arrives p f ok s chain (endReception p f.length s).2 := by
  simp only [arrivesB, Bool.and_eq_true, decide_eq_true_eq] at h
  exact ⟨h.1.1, Prod.ext h.1.2 rfl, h.2⟩

/-- Whether a radio notice arrives with the chain given. -/
def noticeB (w : Fin 4) (len : Nat) (s : State) (chain : List Nat) : Bool :=
  canEnd (.radio w) len s && decide ((endReception (.radio w) len s).1 = some chain)

theorem noticeArrives {w : Fin 4} {len : Nat} {s : State} {chain : List Nat} (h : noticeB w len s chain = true) :
    NoticeArrives w len s chain (endReception (.radio w) len s).2 := by
  simp only [noticeB, Bool.and_eq_true, decide_eq_true_eq] at h
  exact ⟨h.1, Prod.ext h.2 rfl⟩

/-- A request with a code and a property can be taken: the hypotheses of a statement about its row. -/
def Meets (s : State) (code : Nat) (P : Request → Prop) : Prop := ∃ k rq, Takes s [] k rq ∧ rq.code = code ∧ P rq

/-- Whether such a request is at the head of the input queue. -/
def meetsB (s : State) (code : Nat) (P : Request → Bool) : Bool :=
  match requestReady s with
  | some (_, _, f, rq) =>
    ((withFaults [] s).hub.readFrame f none).1.isEmpty && !isGroup rq.src && decide (commonRefusal rq = none) &&
      decide (rq.code = code) && P rq
  | none => false

theorem meets {s : State} {code : Nat} {P : Request → Prop} [DecidablePred P]
    (h : meetsB s code (fun rq => decide (P rq)) = true) : Meets s code P := by
  simp only [meetsB] at h
  split at h
  · rename_i k e f rq hr
    simp only [Bool.and_eq_true, decide_eq_true_eq, Bool.not_eq_true', List.isEmpty_iff] at h
    obtain ⟨⟨⟨⟨h1, h2⟩, h3⟩, h4⟩, h5⟩ := h
    exact ⟨k, rq, ⟨e, f, hr, h1, h2, h3⟩, h4, h5⟩
  · exact absurd h (by decide)

/-- Whether a stored frame reads without a multi-bit error by a port. -/
def readsB (s : State) (id : Nat) (p : Port) : Bool :=
  match s.hub.cells.frame? id with
  | some f => (s.hub.readFrame f (some p)).1.isEmpty
  | none => false

theorem reads {s : State} {id : Nat} {p : Port} (h : readsB s id p = true) : Reads s id p := by
  simp only [readsB] at h
  split at h
  · rename_i f hf
    exact ⟨f, hf, List.isEmpty_iff.mp h⟩
  · exact absurd h (by decide)

theorem not_barred {st : Station} (h : st.state.unadmitted = true ∨ st.state = .admitted) (b : Admission) :
    st.state ≠ .barred b := by
  intro hb
  rw [hb] at h
  simp [StationState.unadmitted] at h

/-! ## Outcomes: the manual's tables and examples -/

/-- R187 and the defaults of R33 and R113: a store that fails its check gives the defaults. -/
theorem test_power_on :
    let t := after .powerOn (running s0)
    t.sched = Scheduler.reset ∧ t.hub.cells.high = 2560 ∧ t.hub.cells.low = 2048 ∧ t.ports.ba.unit.link = .down ∧
      t.hub.flagOf .storeDefaulted = { isSet := true, count := 1 } := by decide +kernel

/-- R1: the port goes UP; DISABLED holds it DOWN. -/
theorem test_link_up : ((after (.linkUp (.seat 7)) s0).ports.seats[7]).unit.link = .up := by decide +kernel

/-- The state of the downed ports below: a record on seat 3, one on radio 1 at index 9, a queue toward BB. -/
def busy : State :=
  atEnd .bb (fun e => { e with transit := [41], outstanding := true })
    (store 41 100 none false (put 4 { seated .passenger .held (.radio 1 9) with addr := 0x020000000044 }
      (put 2 (seated .passenger .admitted (.seat 3)) (up (.radio 1) (up (.seat 3) s0)))))

/-- R2: the record of the port is gone, the other stays. -/
theorem test_seat_port_down :
    let t := after (.seatPortDown 3) busy
    (t.ports.seats[3]).unit.link = .down ∧ t.station? 2 = none ∧ (t.station? 4).isSome = true := by decide +kernel

/-- R3: the record of the radio is gone, with no DROP order. -/
theorem test_radio_link_down :
    let t := after (.radioLinkDown 1) busy
    t.station? 4 = none ∧ (t.ports.radios[1]).orders = [] ∧ t.table.held = [] := by decide +kernel

/-- R4: the transit queue is purged, its cell comes back on top, and the drop counts at the end. -/
theorem test_backbone_end_down :
    let t := after (.backboneEndDown .bb) busy
    t.ports.bb.transit = [] ∧ t.hub.cells.free.head? = some 41 ∧ t.ports.bb.unit.ctr.txDrops = 1 ∧
      t.hub.tallyOf .purge = 1 ∧ t.ports.bb.outstanding = false := by decide +kernel

/-- R8, R10: an aborted upward frame counts at the end and at the port it was received on. -/
theorem test_backbone_end_down_aborts :
    let t := after (.backboneEndDown .ba) (unit (.backbone .ba) (fun u => { u with tx := some (.frame 41) }) busy)
    t.hub.tallyOf .aborted = 1 ∧ t.ports.ba.unit.ctr.txDrops = 1 ∧ (t.ports.seats[3]).unit.ctr.rxDiscards = 1 := by
  decide +kernel

/-- R21, R22: cell 0 is on top first. -/
theorem test_take_cell : (after (.takeCell (.backbone .ba)) s0).ports.ba.unit.rx = .taking [0] := by decide +kernel

/-- R22: with the stack empty the frame is discarded NO_CELLS. -/
theorem test_take_cell_none :
    let t := after (.takeCell (.backbone .ba)) (cells (fun c => { c with free := [] }) s0)
    t.ports.ba.unit.rx = .dropping ∧ t.hub.tallyOf .noCells = 1 := by decide +kernel

/-- A frame of a station: from 10.20.13.5 to 10.20.12.9, 300 bytes. -/
def plain : List Byte := netFrame srv sta 0x0A140D05 0x0A140C09 300

/-- R38, R42, R92: a new station of a PASSENGER port is HELD, and its metered frame is NOT_ADMITTED. -/
theorem test_seat_frame_learned :
    let t := after (.seatFrameReceived 3 plain true) (up (.seat 3) s0)
    (t.station? 0).map (fun st => (st.addr, st.cls, st.state)) = some (sta, .passenger, .held) ∧
      (t.station? 0).map (fun st => (st.origin, st.idle, st.ctr.drops)) = some (.seat 3, 900, 1) ∧
      t.table.held = [0] ∧ t.hub.tallyOf .notAdmitted = 1 := by decide +kernel

/-- R131, R133: an ADMITTED passenger's metered frame of two cells enters its own queue and is counted. -/
theorem test_seat_frame_queued :
    let t := after (.seatFrameReceived 3 plain true) (put 2 (seated .passenger .admitted (.seat 3)) (up (.seat 3) s0))
    (t.station? 2).map (fun st => (st.upq, st.ctr.upFrames, st.ctr.upMetered)) = some ([0], 1, 300) ∧
      (t.hub.cells.frame? 0).map (fun f => (f.chain, f.refs, f.metered)) = some ([0, 1], 1, true) := by decide +kernel

/-- R63: another address at the index is ORIGIN. -/
theorem test_radio_data_origin :
    (after (.radioDataFrameReceived 1 1 9 plain true) busy).hub.tallyOf .origin = 1 := by decide +kernel

/-- R65, R68: an unknown address at a free index makes a HELD passenger at the end of the held order. -/
theorem test_associated :
    let t := after (.associated 1 63 0x020000000077 12 true) busy
    (t.station? 0).map (fun st => (st.addr, st.state, st.origin)) = some (0x020000000077, .held, .radio 1 63) ∧
      t.table.held = [4, 0] ∧ (t.ports.radios[1]).noticesTaken = 1 := by decide +kernel

/-- R65: a group address is refused with a REFUSE order. -/
theorem test_associated_group :
    ((after (.associated 1 5 everyone 12 true) busy).ports.radios[1]).orders = [{ kind := .refuse, index := 5 }] := by
  decide +kernel

/-- R70: the record at the index is removed; an index with nobody counts as ignored. -/
theorem test_disassociated :
    (after (.disassociated 1 9 6 true) busy).station? 4 = none ∧
      ((after (.disassociated 1 8 6 true) busy).ports.radios[1]).noticesIgnored = 1 := by decide +kernel

/-- R71: every record of the radio goes. -/
theorem test_radio_start : (after (.radioStart 1 5 true) busy).station? 4 = none := by decide +kernel

/-- R163: a unicast to nobody here enters the transit queue toward the other end. -/
theorem test_transit :
    (after (.backboneFrameReceived .ba (netFrame srv everyone 0 0 100) true) s0).ports.bb.transit = [0] := by
  decide +kernel

/-- The allowance of the worked example of chapter 6, after its step 2. -/
def lean : Station :=
  { seated .passenger .admitted (.seat 7) with
    allowance := some { base := 50000, current := 800, renew := false, renewals := 0, overrun := 0 } }

/-- Step 3 of the worked example of chapter 6: a downward charge of 1,000 leaves current 0, overrun 200, SPENT. -/
theorem test_downward_charge :
    let t := after (.backboneFrameReceived .ba (netFrame sta srv 0x0A140C09 0x0A140D05 1000) true)
      (put 9 lean (up (.seat 7) s0))
    (t.station? 9).map (fun st => (st.state, st.allowance)) =
      some (.spent, some { base := 50000, current := 0, renew := false, renewals := 0, overrun := 200 }) ∧
      (t.ports.seats[7]).egress = [0] := by decide +kernel

/-- R16: a hold of 200 units holds the end until then. -/
theorem test_hold :
    let t := after (.holdFrameReceived .ba (holdBytes 200) true) s0
    t.ports.ba.heldUntil = some 200 ∧ t.ports.ba.holdsReceived = 1 ∧ t.hub.cells.free.length = 16 := by
  decide +kernel

/-- An end held until 6,000 from 0. -/
def heldEnd : State := atEnd .ba (fun e => { e with heldUntil := some 6000, holdStart := some 0 }) s0

/-- R16: at held-until the hold ends. -/
theorem test_held_until : (after (.heldUntilReached .ba) heldEnd).ports.ba.heldUntil = none := by decide +kernel

/-- R17: at 50 ms the overrun is recorded, once. -/
theorem test_hold_limit :
    let t := after (.holdLimitExpiry .ba) heldEnd
    t.now = 5000 ∧ t.ports.ba.overrun = true ∧ t.ports.ba.overruns = 1 ∧
      t.hub.flagOf .holdOverrunBA = { isSet := true, count := 1 } := by decide +kernel

/-- R14: with the queue below 64 the timer stops and no hold is built. -/
theorem test_hold_repeat :
    let t := after (.holdRepeatTimerExpiry .ba) (atEnd .ba (fun e => { e with repeatAt := some 100 }) s0)
    t.ports.ba.repeatAt = none ∧ t.ports.ba.pendingHold = none := by decide +kernel

/-- R46: 900 s without a frame. -/
theorem test_idle :
    let t := after (.idleTimerExpiry 2) busy
    t.station? 2 = none ∧ t.now = 90000000 := by decide +kernel

/-! The worked example of chapter 7, the boundary that opens epoch 4,118. -/

/-- A passenger of the worked example. -/
def passenger (n : Nat) (weight tier : Nat) (credit : Int) (queue : Nat) (last : Count32) : Station :=
  { newStation (BitVec.ofNat 48 (0x020000000000 + n)) .passenger .admitted (.seat 1) 900 0 with
    tier := tier, shaping := { weight := weight }, credit := credit, lastGrant := some last
    upq := List.range queue }

/-- The records as epoch 4,117 ends, with what is pending. -/
def epoch4117 : State :=
  let s := put 3 (passenger 1 10 0 2000 0 4117) (put 5 (passenger 2 10 1 350 6 4117)
    (put 8 { passenger 3 20 0 (-700) 3 4117 with
        pendingShaping := some { weight := 20, cap := some 15000, mode := .run } }
      (put 11 (passenger 4 50 3 4000 0 4109) (put 14 { passenger 5 10 0 (-1200) 0 4115 with state := .spent }
        (put 20 { newStation 0x0200000000C1 .crew .admitted (.seat 2) 900 0 with upq := [7, 8] } State.reset)))))
  { s with sched := { s.sched with
      running := true, number := 4117, surplus := -900
      pendingParams := some { budget := 100000, te := 100, t0 := 1, t1 := 3, t2 := 3, t3 := 4, n := 2, m := 4 } } }

/-- Active count 3, W 60, sum of shares 81,666, S 18,334, number 4,118. -/
theorem test_boundary_figures :
    let t := after .epochCounterExpiry epoch4117
    (t.sched.active, t.sched.weight, t.sched.shares, t.sched.surplus, t.sched.number, t.sched.pendingParams) =
      (3, 60, 81666, 18334, 4118, none) := by decide +kernel

/-- The credits: 16,666; 50,000; 14,300; 0; −1,200; 0. -/
theorem test_boundary_credit :
    let t := after .epochCounterExpiry epoch4117
    ([3, 5, 8, 11, 14, 20] : List (Fin 256)).map (fun k => (t.station? k).map (·.credit)) =
      [some 16666, some 50000, some 14300, some 0, some (-1200), some 0] := by decide +kernel

/-- A lead end with one ADMITTED passenger of a credit, whose 300-byte frame waits in cell 6. -/
def waiting (credit surplus : Int) : State :=
  let s := store 6 300 (some 2) true (put 2 { seated .passenger .admitted (.seat 3) with credit := credit, upq := [6] } s0)
  { s with sched := { s.sched with running := true, number := 9, surplus := surplus }
           consist := { carriage := 0, lead := some .ba } }

/-- R126: a credit grant debits the whole length, below 0 too. -/
theorem test_credit_grant :
    let t := after (.transmissionStart (.backbone .ba) []) (waiting 1 50)
    (t.station? 2).map (fun st => (st.credit, st.lastGrant, st.upq)) = some (-299, some 9, []) ∧
      t.sched.surplus = 50 ∧ t.ports.ba.unit.tx = some (.frame 6) := by decide +kernel

/-- R127: a surplus grant debits the pool. -/
theorem test_surplus_grant :
    let t := after (.transmissionStart (.backbone .ba) []) (waiting 0 50)
    (t.station? 2).map (fun st => (st.credit, st.lastGrant)) = some (0, some 9) ∧ t.sched.surplus = -250 := by
  decide +kernel

/-- R8, R10, R96: the completion counts, charges and frees. -/
theorem test_completion :
    let s := after (.transmissionStart (.backbone .ba) []) (waiting 1 50)
    let t := after (.transmissionComplete (.backbone .ba))
      { s with table := s.table.modStation 2 (fun r => { r with allowance := lean.allowance }) }
    t.ports.ba.unit.ctr.txBytes = 300 ∧ t.hub.cells.frames = [] ∧
      ((t.station? 2).bind (·.allowance)).map (·.current) = some 500 := by decide +kernel

/-- R10: the completed frame's reference is dropped before the charge, so the exhaustion's notice finds its cell. -/
theorem test_completion_drops_first :
    let al : Allowance := { base := 5, current := 100, renew := false, renewals := 0, overrun := 0 }
    let s := mgmt (fun m => { m with reportAddr := some srv }) (cells (fun c => { c with free := [] })
      (put 2 { seated .passenger .admitted (.seat 3) with allowance := some al } (store 40 100 (some 2) true s0)))
    let t := after (.transmissionComplete (.backbone .ba))
      (unit (.backbone .ba) (fun u => { u with tx := some (.frame 40) }) s)
    t.hub.mgmt.notices = [40] ∧ t.hub.mgmt.lost = 0 := by decide +kernel

/-- R29, R30: a request whose cells cannot be read gets no reply; its notice names cell 0, one cell, kind 3 and the port
BA. -/
theorem test_unreadable_request :
    let t := after (.setConsist [{ cell := 0, error := .multi }])
      (mgmt (fun m => { m with reportAddr := some srv }) (ask 0x13 [7, 1] s0))
    t.hub.tallyOf .memory = 1 ∧ t.hub.cells.retired = [0] ∧ t.hub.mgmt.slots[0] = .free ∧ t.consist.carriage = 0 ∧
      t.hub.cells.frames.map (fun f => ((t.hub.cells.frameBytes f).drop 22).take 6) = [[0, 0, 1, 3, 36, 0]] := by
  decide +kernel

/-- A SERVER request answered OK with a body of `n` bytes (11.2). -/
def answers (i : Instr) (n : Nat) (s : State) : Bool :=
  let t := after i s
  decide (replyStatus t = [0]) &&
    (match t.hub.cells.frames.getLast? with
    | some f => decide (fieldAt (t.hub.cells.frameBytes f) 20 2 = n) && decide (f.length = max 64 (22 + n + 4))
    | none => false)

/-- The address of the station in bytes. -/
def who : List Byte := addrBytes sta

/-- A SPENT passenger in slot 2 with an allowance. -/
def spent : State :=
  put 2 { lean with state := .spent, allowance := lean.allowance.map (fun a => { a with current := 0 }) } s0

theorem test_read_station : answers (.readStation []) 100 (ask 0x01 who spent) = true := by decide +kernel

theorem test_list_stations : answers (.listStations []) 194 (ask 0x02 [0] spent) = true := by decide +kernel

/-- R49: ADMIT of a SPENT record gives the tier, the allowance and an ADMITTED state. -/
theorem test_admit :
    let body := who ++ [3, 0, 2, 1] ++ beBytes 4 5000 ++ beBytes 2 60 ++ [1, 1, 0, 0] ++ beBytes 4 7 ++ beBytes 4 9
    let t := after (.admitStation []) (ask 0x03 body spent)
    (t.station? 2).map (fun st => (st.tier, st.state, st.shaping, st.idle, st.allowance)) =
      some (3, .admitted, { weight := 1, cap := some 5000, mode := .run }, 60,
        some { base := 7, current := 9, renew := true, renewals := 0, overrun := 0 }) ∧
      replyBody 1 t = [2] := by decide +kernel

/-- R50, R51: BAR and UNBAR. -/
theorem test_bar_unbar :
    let t := after (.bar []) (ask 0x04 who spent)
    (t.station? 2).map (·.state) = some (.barred .spent) ∧
      ((after (.unbar []) (ask 0x05 who (put 2 { lean with state := .barred .spent } s0))).station? 2).map (·.state) =
        some .spent := by decide +kernel

theorem test_release :
    let t := after (.release []) (ask 0x06 who spent)
    t.station? 2 = none ∧ answers (.release []) 60 (ask 0x06 who spent) = true := by decide +kernel

/-- Step 6 of the worked example of chapter 6. -/
theorem test_set_allowance :
    let al : Allowance := { base := 50000, current := 0, renew := false, renewals := 0, overrun := 1700 }
    let s := put 9 { lean with state := .spent, allowance := some al } s0
    let t := after (.setAllowance []) (ask 0x07 (who ++ [1, 1] ++ beBytes 4 50000 ++ beBytes 4 10000) s)
    (t.station? 9).map (fun st => (st.state, st.allowance)) =
      some (.admitted, some { base := 50000, current := 10000, renew := true, renewals := 0, overrun := 1700 }) := by
  decide +kernel

theorem test_renew :
    ((after (.renew []) (ask 0x08 ([0, 0] ++ who) spent)).station? 2).map (fun st => (st.state, st.allowance)) =
      some (.admitted, some { base := 50000, current := 50000, renew := false, renewals := 1, overrun := 0 }) := by
  decide +kernel

/-- R107: one record reloaded, one of it made ADMITTED. -/
theorem test_renew_all : replyBody 4 (after (.renewAll []) (ask 0x08 (1 :: List.replicate 7 0) spent)) = [0, 1, 0, 1] := by
  decide +kernel

/-- R117: SPENT, so in force at once; the weight 0 is 1 and the cap is cut. -/
theorem test_set_shaping :
    ((after (.setShaping []) (ask 0x09 (who ++ [0, 1, 1, 0, 255, 0, 0, 0]) (running spent))).station? 2).map (·.shaping) =
      some { weight := 1, cap := some 16777215, mode := .single } := by decide +kernel

/-- The table of R114. -/
theorem test_set_epoch :
    (after (.setEpoch []) (ask 0x0A (beBytes 4 20000000 ++ beBytes 2 2500 ++ [0, 5, 16, 15, 9, 20]) s0)).sched.params =
      { budget := 16777215, te := 1000, t0 := 1, t1 := 5, t2 := 15, t3 := 15, n := 7, m := 15 } := by decide +kernel

theorem test_scheduler_start :
    let t := after (.schedulerStart []) (ask 0x0B [1] s0)
    t.sched.running = true ∧ t.sched.surplus = 125000 ∧ t.sched.number = 0 := by decide +kernel

theorem test_scheduler_stop :
    let t := after (.schedulerStop []) (ask 0x0B [2] (running s0))
    t.sched.running = false ∧ t.sched.surplus = 0 := by decide +kernel

theorem test_scheduler_restart : (after (.schedulerRestart []) (ask 0x0B [3] (running s0))).sched.number = 1 := by
  decide +kernel

theorem test_read_scheduler : answers (.readScheduler []) 46 (ask 0x0C [] s0) = true := by decide +kernel

/-- The first row of the table of R80: base 10.20.13.77 with k 10 is stored as 10.20.12.0. -/
theorem test_write_window :
    ((after (.writeWindow []) (ask 0x0D ([0, 1] ++ beBytes 4 0x0A140D4D ++ [10, 1, 1, 3, 2, 1]) s0)).windows[0]).set =
      { enabled := true, base := 0x0A140C00, k := 10, metered := true, opened := false, passenger := .both, crew := .down,
        operations := .up } := by decide +kernel

/-- The fourth and the last row: k 40 is 32 and clears every bit; window 8 keeps its base and k. -/
theorem test_write_window_clamps :
    (((after (.writeWindow []) (ask 0x0D ([7, 1] ++ beBytes 4 0x0A14034D ++ [40, 0, 1, 3, 2, 1]) s0)).windows[7]).set.k,
      ((after (.writeWindow []) (ask 0x0D ([7, 1] ++ beBytes 4 0x0A14034D ++ [40, 0, 1, 3, 2, 1]) s0)).windows[7]).set.base,
      ((after (.writeWindow []) (ask 0x0D ([8, 1] ++ beBytes 4 0x0A000000 ++ [8, 0, 1, 3, 2, 1]) s0)).windows[8]).set.k) =
      (32, 0, 32) := by decide +kernel

theorem test_read_window : answers (.readWindow []) 24 (ask 0x0E [8] s0) = true := by decide +kernel

/-- R12: the two records of the port are one here, and it goes. -/
theorem test_set_port :
    let t := after (.setPort []) (ask 0x0F [7, 2] spent)
    (t.ports.seats[7]).designation = .crew ∧ t.station? 2 = none ∧ replyBody 2 t = [2, 1] := by decide +kernel

theorem test_read_port :
    answers (.readPort []) 34 (ask 0x10 [31] s0) = true ∧ answers (.readPort []) 46 (ask 0x10 [35] s0) = true := by
  decide +kernel

theorem test_read_port_end : answers (.readPort []) 58 (ask 0x10 [37] s0) = true := by decide +kernel

theorem test_set_hold : (after (.setHold []) (ask 0x11 [0, 0, 2] s0)).hold = { limit := 1, action := .shed } := by
  decide +kernel

/-- The table of R35, rows 2 and 3. -/
theorem test_set_memory_limits :
    replyBody 5 (after (.setMemoryLimits []) (ask 0x12 (beBytes 2 5000 ++ beBytes 2 4000) whole)) =
      beBytes 2 3072 ++ beBytes 2 3071 ++ [0] ∧
    replyBody 5 (after (.setMemoryLimits []) (ask 0x12 (beBytes 2 10 ++ beBytes 2 50) whole)) =
      beBytes 2 64 ++ beBytes 2 50 ++ [0] := by decide +kernel

theorem test_set_consist :
    (after (.setConsist []) (ask 0x13 [63, 2] s0)).consist = { carriage := 63, lead := some .bb } := by decide +kernel

theorem test_read_status : answers (.readStatus []) 188 (ask 0x14 [] s0) = true := by decide +kernel

/-- R181, after a start with a failed store: STORE_DEFAULTED (7) stands with count 1. -/
theorem test_clear_status :
    let t := after (.clearStatus []) (ask 0x15 [7, 0, 1] s0)
    t.hub.flagOf .storeDefaulted = { isSet := false, count := 0 } ∧ replyBody 4 t = [7, 0, 0, 0] := by decide +kernel

/-- STALE carries the count as it stands. -/
theorem test_clear_status_stale :
    let t := after (.clearStatus []) (ask 0x15 [7, 0, 0] s0)
    replyStatus t = [8] ∧ replyBody 4 t = [7, 0, 0, 1] := by decide +kernel

/-- R182: in STOPPED at once; the reply counts the slots not empty. -/
theorem test_snapshot : replyBody 6 (after (.snapshot []) (ask 0x16 [] spent)) = [0, 0, 0, 0, 0, 1] := by decide +kernel

theorem test_read_snapshot :
    let held := mgmt (fun m => { m with snapshot := some { number := 3, entries := Vector.replicate 256 none } }) s0
    answers (.readSnapshot []) 488 (ask 0x17 [15] held) = true := by decide +kernel

/-- R185: the write parks the request; the idle interval is in force. -/
theorem test_save_settings :
    let t := after (.saveSettings []) (ask 0x18 ([1, 1] ++ List.replicate 6 0 ++ [0, 60]) s0)
    t.hub.mgmt.defaultIdle = 60 ∧ saveParked t.hub.mgmt = true := by decide +kernel

/-- R186: an accepted write is in the store. -/
theorem test_store_write_ends :
    let t := after (.storeWriteEnds true)
      (after (.saveSettings []) (ask 0x18 ([1, 1] ++ List.replicate 6 0 ++ [0, 60]) s0))
    t.hub.mgmt.store.checkOk = true ∧ t.hub.mgmt.store.settings.defaultIdle = 60 ∧ replyStatus t = [0] := by
  decide +kernel

/-- R188: cells free after the rebuild, and no parked operation. -/
theorem test_reset : replyBody 3 (after (.reset []) (ask 0x19 [] spent)) = beBytes 2 3072 ++ [0] := by decide +kernel

/-- R177, R188: the lost count is kept through the answering of the parked operations, whose reply enters PRESSURE; the
notice of leaving it, after the rebuild, reports the loss first. -/
theorem test_reset_keeps_lost :
    let s := ask 0x19 [] (mgmt (fun m => { m with
      slots := m.slots.set 3 (.parked { port := .backbone .ba, src := srv, code := 0x16, tag := 1 } .snapshot)
      reportAddr := some srv, lost := 5 }) s0)
    let s := cells (fun c => { c with high := 3057 }) s
    let w := warmReset (afterTake s [])
    let t := settleReset w
    w.hub.mgmt.lost = 5 ∧ w.hub.mgmt.notices = [] ∧ w.hub.cells.pressure = .pressure ∧ t.hub.mgmt.lost = 0 ∧
      t.hub.mgmt.notices.length = 2 := by decide +kernel

/-- R170. -/
theorem test_unknown_code : replyStatus (after (.unknownRequestCode []) (ask 0x1A [] s0)) = [1] := by decide +kernel


/-- R172: the oldest waiting reply is built. -/
theorem test_build_waiting :
    let s := cells (fun c => { c with free := [5] }) (mgmt (fun m => { m with
      waiting := [2], slots := m.slots.set 2 (.reserved { port := .backbone .ba, src := srv, code := 0x13, tag := 7 }
        (some (.fixed .ok [7, 1])) true) }) s0)
    (after .buildWaitingReply s).hub.mgmt.builtOrder = [2] ∧ replyBody 2 (after .buildWaitingReply s) = [7, 1] := by
  decide +kernel

/-- An idle step counts the time. -/
theorem test_tick : (match step (running s0) with | .next t => (t.now, t.sched.phase) | _ => (0, 0)) = (1, 1) := by
  decide +kernel

/-! ## Witnesses: the step and the invariants -/

theorem witness_StepRunsTheFront :
    ({ s0 with pending := [.powerOn, .linkUp (.seat 0)] } : State).pending = .powerOn :: [.linkUp (.seat 0)] := rfl

/-- At the last unit but one of an epoch of 100 ms, at its last, and in STOPPED. -/
theorem witness_IdleStepPassesOneUnit :
    let s (phase : Nat) := { s0 with sched := { s0.sched with running := true, counter := 99, phase := phase } }
    ((s 98).pending = [] ∧ (s 98).sched.running = true ∧
        100 * (s 98).sched.counter + (s 98).sched.phase + 1 < 100 * (s 98).sched.params.te) ∧
      ((s 99).pending = [] ∧ (s 99).sched.running = true ∧
        100 * (s 99).sched.params.te ≤ 100 * (s 99).sched.counter + (s 99).sched.phase + 1) ∧
      s0.pending = [] ∧ s0.sched.running = false := by decide +kernel

/-- A state with two records, a stored frame and a command waiting, in which every invariant holds. -/
def sound : State :=
  { s0 with
    pending := [.linkUp (.seat 3)]
    table :=
      { slots := (s0.table.slots.set 2 (some (seated .passenger .held (.seat 3)))).set 5
          (some { lean with addr := 0x020000000055, origin := .radio 3 63, credit := -1535, upq := [0] })
        held := [2] }
    ports := s0.ports.modRadio 3 (fun q => { q with orders := [{ kind := .drop, index := 63 }] })
    sched := { s0.sched with surplus := 16777215, params := { Params.defaults with budget := 16777215 } }
    hub := { s0.hub with cells := { s0.hub.cells with
      data := [(7, 1)]
      free := (List.range 3071).map (· + 1)
      frames := [{ length := 100, arrival := some (.seat 7), kind := .network, metered := true, chain := [0], refs := 1,
                   station := some 5, failed := [] }] } } }

theorem sound_steps : ∃ t, step sound = .next t := ⟨_, rfl⟩

/-- A property of every record, from a check of every slot. -/
theorem of_slots {s : State} {P : Fin 256 → Station → Prop} [∀ k st, Decidable (P k st)]
    (h : ∀ k : Fin 256, (s.station? k).all (fun st => decide (P k st)) = true) (k : Fin 256) (st : Station)
    (hs : s.station? k = some st) : P k st := by
  have := h k
  rw [hs] at this
  simpa using this

theorem witness_MemoryFormKept : MemoryOk sound := by
  unfold MemoryOk
  decide +kernel

theorem sound_credit : ∀ k : Fin 256, (sound.station? k).all
    (fun st => decide (-1535 ≤ st.credit ∧ st.credit ≤ 16777215)) = true := by decide +kernel

theorem sound_slot (k : Fin 4) : SlotOk sound.hub.mgmt.slots[k] := by
  have h : sound.hub.mgmt.slots[k] = .free := by
    revert k
    decide +kernel
  rw [h]
  trivial

theorem witness_CreditRangeKept : CreditOk sound where
  credit := of_slots (P := fun _ st => -1535 ≤ st.credit ∧ st.credit ≤ 16777215) sound_credit
  surplus := by unfold InCreditRange; decide +kernel
  lengths := by decide +kernel
  budget := by unfold BudgetOk; decide +kernel
  pendingBudget := fun q h => absurd h (by rw [show sound.sched.pendingParams = none from by decide +kernel]; simp)
  storedBudget := by unfold BudgetOk; decide +kernel
  slots := sound_slot

/-- Whether a record of `sound` is as R94 and R93 say. -/
def pairedB (st : Station) : Bool :=
  match st.state, st.allowance with
  | .admitted, some al => decide (0 < al.current)
  | .admitted, none => true
  | .held, al => al.isNone
  | _, _ => false

theorem paired_of {st : Station} (h : pairedB st = true) :
    Paired st ∧ (st.state = .held ∨ st.state = .barred .held → st.allowance = none) := by
  unfold pairedB at h
  unfold Paired
  split at h <;> simp_all

theorem sound_paired : ∀ k : Fin 256, (sound.station? k).all (fun st => decide (pairedB st = true)) = true := by
  decide +kernel

theorem witness_AllowancePairingKept : AllowancesOk sound := fun k st hs =>
  paired_of (of_slots (P := fun _ st => pairedB st = true) sound_paired k st hs)

theorem sound_held : ∀ k : Fin 256, decide (k ∈ sound.table.held) =
    (match sound.station? k with | some st => decide (st.state = .held) | none => false) := by decide +kernel

theorem witness_HeldOrderKept : HeldOrderOk sound := by
  refine ⟨by decide +kernel, fun k => ?_⟩
  have h := sound_held k
  rw [← decide_eq_true_iff (p := k ∈ sound.table.held), h]
  split <;> simp_all

theorem sound_cells : sound.hub.cells.free = (List.range 3071).map (· + 1) ∧ frameCells sound.hub.cells = [0] ∧
    receptionCells sound.ports = [] ∧ sound.hub.cells.retired = [] := by decide +kernel

theorem all_but_zero (n : Nat) : ((List.range n).map (· + 1) ++ [0] ++ [] ++ []).Perm (List.range (n + 1)) := by
  rw [List.append_nil, List.append_nil, List.range_succ_eq_map]
  exact List.perm_append_comm

theorem witness_CellsConserved : CellsOk sound := by
  obtain ⟨h1, h2, h3, h4⟩ := sound_cells
  refine ⟨?_, by decide +kernel⟩
  rw [h1, h2, h3, h4]
  exact all_but_zero 3071

theorem sound_queues : ∀ k : Fin 256, (sound.station? k).all (fun st => decide (st.upq.length ≤ 24)) = true := by
  decide +kernel

theorem sound_indices : ∀ k : Fin 256, (sound.station? k).all (fun st => match st.origin with
    | .radio _ i => decide (i < 64)
    | .seat _ => true) = true := by decide +kernel

/-- An order and a record at the last index. -/
theorem witness_CapacitiesKept : CapacitiesOk sound where
  upward := of_slots sound_queues
  seats := by decide +kernel
  radios := by decide +kernel
  orders := by decide +kernel
  indices := fun k st w i hs ho => by
    have h := sound_indices k
    rw [hs] at h
    simpa [ho] using h
  onboard := by decide +kernel
  transit := by intro x; cases x <;> decide +kernel
  input := by decide +kernel
  notices := by decide +kernel
  retired := by decide +kernel

theorem sound_addresses : ∀ k : Fin 256, (sound.station? k).all (fun st => decide (isGroup st.addr = false)) = true := by
  decide +kernel

theorem witness_AddressesKept : AddressesOk sound := of_slots sound_addresses

/-! ## Witnesses: links, cells and discards -/

/-- The last port of each kind, DOWN; one that is UP; a DISABLED seat port. -/
theorem witness_LinkComesUp :
    (State.reset.ports.unitOf (.backbone .bb)).link = .down ∧ (State.reset.ports.unitOf (.seat 31)).link = .down ∧
      (State.reset.ports.seats[31]).designation ≠ .disabled ∧ (s0.ports.unitOf (.backbone .bb)).link = .up ∧
      (({ s0 with ports := s0.ports.modSeat 31 (fun q => { q with designation := .disabled }) } :
        State).ports.seats[31]).designation = .disabled := by decide +kernel

theorem witness_AttachmentLinkGoesDown :
    (busy.ports.seats[3]).unit.link = .up ∧ (busy.ports.radios[1]).unit.link = .up := by decide +kernel

/-- With a hold outstanding out of the other end, and without. -/
theorem witness_BackboneEndGoesDown :
    (busy.ports.endOf .ba).unit.link = .up ∧ (busy.ports.endOf (End.ba).other).outstanding = true ∧
      (busy.ports.endOf .bb).unit.link = .up ∧ (busy.ports.endOf (End.bb).other).outstanding = false := by decide +kernel

/-- BA with two cells taken. -/
def taking : State := unit (.backbone .ba) (fun u => { u with rx := .taking [0, 1] })
  (cells (fun c => { c with free := (List.range 3072).drop 2 }) s0)

/-- A frame's first cell and a later one; the take that reaches a high mark of 3, one that does not, one in PRESSURE; and
the empty stack, and a byte after it. -/
theorem witness_ReceptionTakesCells :
    let p : Port := .backbone .ba
    let full := cells (fun c => { c with free := [] }) taking
    (s0.ports.unitOf p).link = .up ∧ (s0.ports.unitOf p).rx = .idle ∧ (taking.ports.unitOf p).rx = .taking [0, 1] ∧
      taking.hub.cells.free = 2 :: (List.range 3072).drop 3 ∧ taking.hub.cells.pressure = .normal ∧
      3072 - ((List.range 3072).drop 3).length - taking.hub.cells.retired.length < taking.hub.cells.high ∧
      (cells (fun c => { c with high := 3 }) taking).hub.cells.high ≤
        3072 - ((List.range 3072).drop 3).length - taking.hub.cells.retired.length ∧
      (cells (fun c => { c with pressure := .pressure }) taking).hub.cells.pressure = .pressure ∧
      full.hub.cells.free = [] ∧ (full.ports.unitOf p).rx = .taking [0, 1] ∧
      ((unit p (fun u => { u with rx := .dropping }) s0).ports.unitOf p).rx = .dropping ∧
      ((unit p (fun u => { u with rx := .dropping }) s0).ports.unitOf p).link = .up := by decide +kernel

/-- A frame with a record to name, and no report address; a reference to no frame. -/
theorem witness_DiscardCountsOnce :
    (busy.station? 2).isSome = true ∧ ((busy.hub.cells.frame? 41).map (·.failed)) = some [] ∧
      busy.hub.mgmt.reportAddr = none ∧ busy.hub.cells.frame? 99 = none := by decide +kernel

/-! ## Witnesses: stations -/

/-- The state after the reception of a frame. -/
def end1 (p : Port) (len : Nat) (s : State) : State := (endReception p len s).2

/-- One record on the port already, and slot 0 empty; the shortest frame. -/
theorem witness_SeatFrameIsLearned :
    let s := put 2 (seated .passenger .admitted (.seat 3)) (up (.seat 3) s0)
    let f := netFrame srv 0x020000000066 1 2 64
    Arrives (.seat 3) f true s [0] (end1 (.seat 3) f.length s) ∧ typeOf f ≠ typeHold ∧ typeOf f ≠ typeMgmt ∧
      isGroup (srcOf f) = false ∧ s.table.byAddr (srcOf f) = none ∧ (s.table.onSeat 3).length < 2 ∧
      s.table.emptySlot? = some 0 :=
  ⟨arrives (by decide +kernel), by decide +kernel⟩

/-- The longest frame, from an ADMITTED passenger (its own queue) and from a HELD one at an open window (the onboard
queue). -/
theorem witness_SeatFrameIsQueued :
    let f := netFrame srv sta 1 2 1536
    let st := seated .passenger .admitted (.seat 3)
    let s := put 2 st (up (.seat 3) s0)
    Arrives (.seat 3) f true s [0, 1, 2, 3, 4, 5] (end1 (.seat 3) f.length s) ∧ (∀ b, st.state ≠ .barred b) ∧
      (typeOf f ≠ typeHold ∧ typeOf f ≠ typeMgmt ∧ isGroup (srcOf f) = false ∧ s.table.byAddr (srcOf f) = some 2 ∧
        s.station? 2 = some st ∧ st.origin = .seat 3 ∧ st.isLeaving = false ∧
        upwardDiscard (end1 (.seat 3) f.length s) st (classify s.windows st true (netAddr f true)) = none ∧
        (classify s.windows st true (netAddr f true)).window = some 8 ∧
        ∀ g ∈ (end1 (.seat 3) f.length s).hub.cells.frames, g.id ≠ 0) :=
  ⟨arrives (by decide +kernel), not_barred (.inr rfl), by decide +kernel⟩

/-- A link frame of a HELD passenger, which goes to the onboard queue. -/
theorem witness_SeatFrameIsQueued_onboard :
    let f := addrBytes srv ++ addrBytes sta ++ [8, 6] ++ List.replicate 50 0
    let st := seated .passenger .held (.seat 3)
    let s := put 2 st (up (.seat 3) s0)
    Arrives (.seat 3) f true s [0] (end1 (.seat 3) f.length s) ∧ (∀ b, st.state ≠ .barred b) ∧
      (typeOf f ≠ typeHold ∧ typeOf f ≠ typeMgmt ∧ isGroup (srcOf f) = false ∧ s.table.byAddr (srcOf f) = some 2 ∧
        s.station? 2 = some st ∧ st.origin = .seat 3 ∧ st.isLeaving = false ∧
        upwardDiscard (end1 (.seat 3) f.length s) st (classify s.windows st true (netAddr f true)) = none ∧
        ∀ g ∈ (end1 (.seat 3) f.length s).hub.cells.frames, g.id ≠ 0) :=
  ⟨arrives (by decide +kernel), not_barred (.inl rfl), by decide +kernel⟩

/-- The record in slot 2 with an upward frame in transmission on BA. -/
def flying (o : Origin) : State :=
  unit (.backbone .ba) (fun u => { u with tx := some (.frame 40) })
    (store 40 100 (some 2) true (put 2 (seated .passenger .admitted o) (up (.radio 1) (up (.seat 3) s0))))

/-- Freed at once, and LEAVING behind its frame; of a seat port and of a radio. -/
theorem witness_IdleRecordIsRemoved :
    busy.station? 2 = some (seated .passenger .admitted (.seat 3)) ∧ inFlight busy 2 = false ∧
      (flying (.radio 1 63)).station? 2 = some (seated .passenger .admitted (.radio 1 63)) ∧
      inFlight (flying (.radio 1 63)) 2 = true ∧
      (seated .passenger .admitted (.seat 3)).idle ≠ 0 ∧ (seated .passenger .admitted (.seat 3)).isLeaving = false := by
  decide +kernel

/-- The records of a radio at index 63: of the frame's source, of another, LEAVING. -/
def atIndex63 (st : StationState) : State := put 2 (seated .passenger st (.radio 1 63)) (up (.radio 1) s0)

/-- Index 64; index 63 with no record; with another's, with a LEAVING one, with the source's own; a header of kind 3. -/
theorem witness_RadioDataIsChecked :
    Arrives (.radio 1) plain true (atIndex63 .held) [0, 1] (end1 (.radio 1) plain.length (atIndex63 .held)) ∧
      NoticeArrives 1 plain.length (atIndex63 .held) [0, 1] (end1 (.radio 1) plain.length (atIndex63 .held)) ∧
      (typeOf plain ≠ typeHold ∧ typeOf plain ≠ typeMgmt ∧ 64 ≤ (64 : Byte).toNat ∧ (63 : Byte).toNat < 64 ∧
        busy.table.atRadio 1 63 = none ∧ (atIndex63 .held).table.atRadio 1 63 = some 2 ∧
        (seated .passenger .held (.radio 1 63)).addr = srcOf plain ∧
        (seated .passenger .held (.radio 1 63)).isLeaving = false ∧
        (seated .passenger (.leaving .aged) (.radio 1 63)).isLeaving = true ∧
        srv ≠ srcOf plain ∧ (3 : Byte) ≠ 1 ∧ (3 : Byte) ≠ 2) :=
  ⟨arrives (by decide +kernel), noticeArrives (by decide +kernel), by decide +kernel⟩

theorem witness_AssociatedConfirms :
    NoticeArrives 1 12 (atIndex63 .held) [0] (end1 (.radio 1) 12 (atIndex63 .held)) ∧
      ((63 : Byte).toNat < 64 ∧ isGroup sta = false ∧ (atIndex63 .held).table.byAddr sta = some 2 ∧
        (atIndex63 .held).station? 2 = some (seated .passenger .held (.radio 1 63)) ∧
        (seated .passenger .held (.radio 1 63)).isLeaving = false ∧
        (seated .passenger .held (.radio 1 63)).origin = .radio 1 (63 : Byte).toNat) :=
  ⟨noticeArrives (by decide +kernel), by decide +kernel⟩

theorem witness_AssociatedCreates :
    NoticeArrives 1 12 busy [0] (end1 (.radio 1) 12 busy) ∧
      ((0 : Byte).toNat < 64 ∧ isGroup srv = false ∧ busy.table.byAddr srv = none ∧
        busy.table.atRadio 1 (0 : Byte).toNat = none ∧ busy.table.emptySlot? = some 0) :=
  ⟨noticeArrives (by decide +kernel), by decide +kernel⟩

/-- An index with no record; with one that is freed; with one whose frame is in transmission; with a LEAVING one; and so
for the start of the radio. -/
theorem witness_RadioStationsLeave :
    NoticeArrives 1 6 (flying (.radio 1 63)) [0] (end1 (.radio 1) 6 (flying (.radio 1 63))) ∧
      NoticeArrives 1 5 (flying (.radio 1 63)) [0] (end1 (.radio 1) 5 (flying (.radio 1 63))) ∧
      NoticeArrives 1 5 (atIndex63 (.leaving .aged)) [0] (end1 (.radio 1) 5 (atIndex63 (.leaving .aged))) ∧
      inFlight (after (.radioStart 1 5 true) (flying (.radio 1 63))) 2 = true ∧
      NoticeArrives 1 5 busy [0] (end1 (.radio 1) 5 busy) ∧
      (busy.table.atRadio 1 0 = none ∧ busy.table.atRadio 1 9 = some 4 ∧ inFlight busy 4 = false ∧
        (flying (.radio 1 63)).table.atRadio 1 63 = some 2 ∧ inFlight (flying (.radio 1 63)) 2 = true ∧
        (atIndex63 (.leaving .aged)).table.atRadio 1 63 = some 2 ∧
        (seated .passenger (.leaving .aged) (.radio 1 63)).isLeaving = true) :=
  ⟨noticeArrives (by decide +kernel), noticeArrives (by decide +kernel), noticeArrives (by decide +kernel),
    by decide +kernel, noticeArrives (by decide +kernel), by decide +kernel⟩

/-! ## Witnesses: allowances and epochs -/

/-- A record with a current of 800: a charge of 799, of 800, of 801; and one on a current of 0. -/
theorem witness_ChargeComparesWithCurrent :
    let al : Allowance := { base := 50000, current := 800, renew := false, renewals := 0, overrun := 0 }
    (put 9 lean s0).station? 9 = some lean ∧ lean.allowance = some al ∧ 799 < al.current ∧ 800 = al.current ∧
      al.current < 801 ∧ 0 < al.current ∧ ({ al with current := 0 } : Allowance).current = 0 ∧ 0 < 1 := by decide +kernel

/-- A renewing allowance, one that does not renew, one with base 0; ADMITTED, barred, LEAVING. -/
theorem witness_ExhaustionRenewsOrSpends :
    let al : Allowance := { base := 1, current := 0, renew := true, renewals := 255, overrun := 0 }
    let at' (st : StationState) (a : Allowance) : State := put 9 { lean with state := st, allowance := some a } s0
    ((at' .admitted al).station? 9).bind (·.allowance) = some al ∧ al.renew = true ∧ 0 < al.base ∧
      ({ al with renew := false } : Allowance).renew = false ∧ ({ al with base := 0 } : Allowance).base = 0 ∧
      ((at' (.barred .admitted) al).station? 9).map (·.state) = some (.barred .admitted) ∧
      ((at' (.leaving .link) al).station? 9).map (·.state) = some (.leaving .link) := by decide +kernel

/-- RUNNING: active and not active; debt, none and leftover; capped and not; crew. -/
theorem witness_BoundaryGivesSharesAndCredit :
    epoch4117.sched.running = true ∧
      (([3, 5, 8, 11, 20] : List (Fin 256)).map (fun k => (epoch4117.station? k).map (·.isActive 4117)) =
        [some true, some true, some true, some false, some false]) ∧
      (epoch4117.station? 8).map (·.credit) = some (-700) ∧ (epoch4117.station? 5).map (·.credit) = some 350 ∧
      (epoch4117.station? 20).map (·.cls) = some .crew := by decide +kernel

/-- The state after a boundary with one active record, with a cap or without, with a budget. -/
def oneActive (cap : Option Nat) (budget : Nat) : State :=
  after .epochCounterExpiry
    (let s := put 5 { passenger 2 10 1 350 6 0 with shaping := { weight := 255, cap := cap } } (running s0)
     { s with sched := { s.sched with params := { s.sched.params with budget := budget } } })

/-- No active record; B = 0, with a share of 0 (B × e < W); one active record without a cap, and with a cap of B. -/
theorem witness_BoundarySetsSurplus :
    (running s0).sched.running = true ∧ (after .epochCounterExpiry (running s0)).sched.weight = 0 ∧
      (let t := oneActive none 0
       t.sched.params.budget = 0 ∧ (t.station? 5).map (fun st => (st.isActive 0, st.share)) = some (true, 0)) ∧
      (let t := oneActive (some 100) 100
       (t.station? 5).map (fun st => (st.isActive 0, st.effectiveWeight t.sched.params, st.shaping.cap, st.share)) =
        some (true, t.sched.weight, some 100, 100)) := by decide +kernel

theorem witness_BoundarySetsSurplus_uncapped :
    let t := oneActive none 100
    (t.station? 5).map (fun st => (st.isActive 0, st.effectiveWeight t.sched.params, st.shaping.cap)) =
      some (true, t.sched.weight, none) := by decide +kernel

/-- A part with an operation parked in slot 3. -/
def parked (op : PendingOp) : State :=
  mgmt (fun m => { m with
    slots := m.slots.set 3 (.parked { port := .backbone .ba, src := srv, code := 0x18, tag := 1 } op) }) s0

/-- RUNNING with a SNAPSHOT parked whose reply goes out of BA. -/
theorem witness_BoundaryFrame_parked (k : Fin 4) (h : ReqHeader)
    (hk : (running (parked .snapshot)).hub.mgmt.slots[k] = .parked h .snapshot) :
    deadSeat (running (parked .snapshot)) h.port = false := by
  have hd : ∀ k : Fin 4, (match (running (parked .snapshot)).hub.mgmt.slots[k] with
      | .parked h .snapshot => deadSeat (running (parked .snapshot)) h.port
      | _ => false) = false := by decide +kernel
  have := hd k
  rwa [hk] at this

/-- RUNNING with no SNAPSHOT parked and with one, a LEAVING record and one that is not; STOPPED. -/
theorem witness_BoundaryFrame :
    (running busy).sched.running = true ∧ snapshotParked (running busy).hub.mgmt = false ∧
      (running (parked .snapshot)).sched.running = true ∧ snapshotParked (running (parked .snapshot)).hub.mgmt = true ∧
      ((running busy).station? 2).map (·.isLeaving) = some false ∧
      ((running (atIndex63 (.leaving .aged))).station? 2).map (·.isLeaving) = some true ∧ s0.sched.running = false := by
  decide +kernel

/-! ## Witnesses: transmissions -/

theorem reaches_last {x : End} {s : State} (h : ((s.ports.unitOf (.backbone x)).link = .up ∧
    (s.ports.unitOf (.backbone x)).tx = none) ∧ (s.ports.endOf x).pendingHold = none ∧
    (s.ports.endOf x).heldUntil = none ∧ repliesFor s.hub.mgmt (.backbone x) = [] ∧ noticeFor x s = none) :
    ReachesLast x s := h

/-- A credit grant on a credit of 1, outside a run and inside one, and a surplus grant on a pool of 1. -/
theorem witness_PassengerGrantDebits :
    ReachesLast .ba (waiting 1 0) ∧ ReachesLast .ba (waiting 0 1) ∧
      Reads (withFaults [] (waiting 1 0)) 6 (.backbone .ba) ∧ Reads (withFaults [] (waiting 0 1)) 6 (.backbone .ba) ∧
      ((waiting 1 0).consist.lead = some .ba ∧ ((waiting 1 0).ports.endOf .ba).transit = [] ∧
        ((waiting 1 0).station? 2).map (·.upq) = some [6] ∧
        localPick (withFaults [] (waiting 1 0)) = some (.credit 2 false) ∧
        localPick (withFaults [] (waiting 0 1)) = some (.surplus 2)) :=
  ⟨reaches_last (by decide +kernel), reaches_last (by decide +kernel), reads (by decide +kernel),
    reads (by decide +kernel), by decide +kernel⟩

theorem witness_PassengerGrantDebits_run :
    let s := { waiting 1 0 with
      table := (waiting 1 0).table.modStation 2 (fun st => { st with shaping := { mode := .run } })
      up := { creditPtr := 2, run := some { holder := 2, granted := 7 } } }
    localPick (withFaults [] s) = some (.credit 2 true) := by decide +kernel

/-- A seat port with a frame in its queue, a radio with an entry of index 255, a radio with an order. -/
def outward : State :=
  { store 7 64 none false (up (.radio 3) (up (.seat 31) s0)) with
    ports := (((up (.radio 3) (up (.seat 31) s0)).ports.modSeat 31 (fun q => { q with egress := [7] })).modRadio 3
      (fun q => { q with egress := [{ id := 7, index := 255 }] })) }

theorem witness_EgressHeadStarts :
    let ordered := { outward with
      ports := outward.ports.modRadio 3 (fun q => { q with orders := [{ kind := .drop, index := 63 }] }) }
    Reads (withFaults [] outward) 7 (.seat 31) ∧ Reads (withFaults [] outward) 7 (.radio 3) ∧
      (CanStart (.seat 31) outward ∧ CanStart (.radio 3) outward ∧ CanStart (.radio 3) ordered) ∧
      (repliesFor outward.hub.mgmt (.seat 31) = [] ∧ (outward.ports.seats[31]).egress = [7] ∧
        (outward.ports.radios[3]).orders = [] ∧ (outward.ports.radios[3]).egress = [{ id := 7, index := 255 }] ∧
        (ordered.ports.radios[3]).orders = [{ kind := .drop, index := 63 }]) :=
  ⟨reads (by decide +kernel), reads (by decide +kernel), by unfold CanStart; decide +kernel, by decide +kernel⟩

/-- A port with a transmission in progress. -/
def sendingOn (p : Port) (t : Transmission) : State := unit p (fun u => { u with tx := some t }) outward

/-- The record in slot 2 LEAVING, its frame on BA, or on both ends. -/
def leavingFlight (both : Bool) : State :=
  let s := put 2 (seated .passenger (.leaving .aged) (.seat 3)) (flying (.seat 3))
  if both then unit (.backbone .bb) (fun u => { u with tx := some (.frame 40) })
    (cells (fun c => c.modFrame 40 (fun f => { f with refs := 2 })) s)
  else s

/-- A LEAVING record is free of frames after the completion, and still in flight while the other end sends one. -/
theorem witness_CompletionCounts_leaving :
    let s2 (b : Bool) : State := chargeCompleted (some 2) true 100 (endSent (.backbone .ba) 40 (leavingFlight b))
    ((leavingFlight false).station? 2).map (·.state) = some (.leaving .aged) ∧
      ((leavingFlight false).ports.endOf .ba).unit.tx = some (.frame 40) ∧
      ((leavingFlight true).ports.endOf .ba).unit.tx = some (.frame 40) ∧
      (leavingFlight false).hub.cells.owner 40 = some 2 ∧ (leavingFlight true).hub.cells.owner 40 = some 2 ∧
      frameLength (leavingFlight false) 40 = 100 ∧ isMetered (leavingFlight false) 40 = true ∧
      inFlight (s2 false) 2 = false ∧ inFlight (s2 true) 2 = true := by decide +kernel

/-- An unmetered upward frame. -/
def unmetered : State := cells (fun c => c.modFrame 40 (fun f => { f with metered := false })) (flying (.seat 3))

theorem witness_CompletionCounts :
    ((sendingOn (.seat 31) (.frame 7)).ports.unitOf (.seat 31)).tx = some (.frame 7) ∧
      ((sendingOn (.backbone .bb) (.frame 7)).ports.unitOf (.backbone .bb)).tx = some (.frame 7) ∧
      (sendingOn (.backbone .bb) (.frame 7)).hub.cells.owner 7 = none ∧
      ((flying (.seat 3)).ports.endOf .ba).unit.tx = some (.frame 40) ∧ (flying (.seat 3)).hub.cells.owner 40 = some 2 ∧
      isMetered (flying (.seat 3)) 40 = true ∧ ((flying (.seat 3)).station? 2).map (·.isLeaving) = some false ∧
      ((sendingOn (.radio 3) (.order { kind := .drop, index := 0 })).ports.radios[3]).unit.tx =
        some (.order { kind := .drop, index := 0 }) ∧
      ((sendingOn (.backbone .ba) (.hold 0)).ports.endOf .ba).unit.tx = some (.hold 0) ∧
      ((sendingOn (.seat 31) (.reply 7 3)).ports.unitOf (.seat 31)).tx = some (.reply 7 3) ∧
      ((sendingOn (.radio 3) (.radioFrame 7 255)).ports.unitOf (.radio 3)).tx = some (.radioFrame 7 255) ∧
      ((sendingOn (.backbone .bb) (.notice 7 srv)).ports.unitOf (.backbone .bb)).tx = some (.notice 7 srv) ∧
      (sendingOn (.backbone .bb) (.notice 7 srv)).hub.cells.owner 7 = none ∧
      (unmetered.ports.endOf .ba).unit.tx = some (.frame 40) ∧ unmetered.hub.cells.owner 40 = some 2 ∧
      isMetered unmetered 40 = false ∧ (unmetered.station? 2).map (·.isLeaving) = some false := by decide +kernel

/-! ## Witnesses: backbone frames and holds -/

/-- A unicast for nobody here. -/
def passing : List Byte := netFrame srv everyone 0 0 100

/-- BB's transit queue of a length, with a frame arriving on BA. -/
def queueTo (n : Nat) (g : BackboneEnd → BackboneEnd) : State :=
  atEnd .bb (fun e => g { e with transit := List.range n }) s0

/-- BB DOWN; shedding; a queue of 128, of 127, and of 95 with no hold outstanding out of BA. -/
theorem witness_TransitIsChecked :
    let down := up (.backbone .ba) State.reset
    let shed := { queueTo 0 (fun e => { e with overrun := true }) with hold := { limit := 50, action := .shed } }
    Arrives (.backbone .ba) passing true down [0] (end1 (.backbone .ba) passing.length down) ∧
      Arrives (.backbone .ba) passing true (queueTo 127 id) [0] (end1 (.backbone .ba) passing.length (queueTo 127 id)) ∧
      (typeOf passing ≠ typeHold ∧ isGroup (dstOf passing) = false ∧ dstOf passing ≠ s0.identity ∧
        s0.table.byAddr (dstOf passing) = none ∧ (down.ports.endOf (End.ba).other).unit.link = .down ∧
        (shed.ports.endOf (End.ba).other).overrun = true ∧ shed.hold.action = .shed ∧
        ((queueTo 128 id).ports.endOf (End.ba).other).transit.length = 128 ∧
        ((queueTo 127 id).ports.endOf (End.ba).other).transit.length < 128 ∧
        95 ≤ ((queueTo 95 id).ports.endOf (End.ba).other).transit.length ∧
        ((queueTo 95 id).ports.endOf .ba).outstanding = false ∧
        ((queueTo 127 id).ports.endOf (End.ba).other).overrun = false ∧
        ∀ g ∈ (end1 (.backbone .ba) passing.length (queueTo 127 id)).hub.cells.frames, g.id ≠ 0) :=
  ⟨arrives (by decide +kernel), arrives (by decide +kernel), by decide +kernel⟩

/-- A frame one byte short of the current allowance, to a seat port and to a radio; and a current of 0. -/
theorem witness_DownwardIsEnteredAndCharged :
    let f := netFrame sta srv 0x0A140C09 1 799
    let st := lean
    let s := put 9 st (up (.seat 7) s0)
    Arrives (.backbone .ba) f true s [0, 1, 2, 3] (end1 (.backbone .ba) f.length s) ∧ (∀ b, st.state ≠ .barred b) ∧
      (typeOf f ≠ typeHold ∧ typeOf f ≠ typeMgmt ∧ dstOf f ≠ s.identity ∧ isGroup (dstOf f) = false ∧
        s.table.byAddr (dstOf f) = some 9 ∧ s.station? 9 = some st ∧ st.isLeaving = false ∧
        downwardDiscard (end1 (.backbone .ba) f.length s) st (classify s.windows st false (netAddr f false)) = none ∧
        (∀ g ∈ (end1 (.backbone .ba) f.length s).hub.cells.frames, g.id ≠ 0) ∧
        (classify s.windows st false (netAddr f false)).metered = true ∧
        (classify s.windows st false (netAddr f false)).window = some 8 ∧
        st.allowance.map (fun al => decide (f.length < al.current)) = some true) :=
  ⟨arrives (by decide +kernel), not_barred (.inr rfl), by decide +kernel⟩

/-- A release and the longest hold. -/
theorem witness_HoldFrameIsTaken :
    Arrives (.backbone .ba) (holdBytes 0) true s0 [0] (end1 (.backbone .ba) 64 s0) ∧
      Arrives (.backbone .ba) (holdBytes 65535) true heldEnd [0] (end1 (.backbone .ba) 64 heldEnd) ∧
      (typeOf (holdBytes 0) = typeHold ∧ fieldAt (holdBytes 0) 14 2 = 0 ∧ typeOf (holdBytes 65535) = typeHold ∧
        fieldAt (holdBytes 65535) 14 2 = 65535) :=
  ⟨arrives (by decide +kernel), arrives (by decide +kernel), by decide +kernel⟩

/-- A repeat with 64 and with 63 entries; a limit that comes at held-until, and one that comes a unit after it. -/
theorem witness_HoldTimersExpire :
    let s (n : Nat) := atEnd .ba (fun e => { e with repeatAt := some 100, outstanding := true }) (queueTo n id)
    let h (u : Nat) := atEnd .ba (fun e => { e with heldUntil := some u, holdStart := some 0 }) s0
    (heldEnd.ports.endOf .ba).heldUntil = some 6000 ∧ ((s 64).ports.endOf .ba).repeatAt = some 100 ∧
      ((s 64).ports.endOf .ba).outstanding = true ∧ 64 ≤ ((s 64).ports.endOf (End.ba).other).transit.length ∧
      ((s 63).ports.endOf (End.ba).other).transit.length < 64 ∧
      ((h 5000).ports.endOf .ba).overrun = false ∧ 0 + 100 * (h 5000).hold.limit ≤ max (h 5000).now 5000 ∧
      max (h 4999).now 4999 < 0 + 100 * (h 4999).hold.limit ∧
      ((atEnd .ba (fun e => { e with overrun := true }) heldEnd).ports.endOf .ba).overrun = true := by decide +kernel

/-! ## Witnesses: the Management Unit -/

theorem witness_TakeReservesASlot : Meets (ask 0x14 [] s0) 0x14 (fun _ => True) := meets (by decide +kernel)

/-- A slot whose reply is to be built for the server behind BA. -/
def toBuild (free : List Nat) (waits : List (Fin 4)) : State :=
  cells (fun c => { c with free := free }) (mgmt (fun m => { m with
    waiting := waits
    slots := m.slots.set 2 (.reserved { port := .backbone .ba, src := srv, code := 0x13, tag := 7 }
      (some (.fixed .ok [7, 1])) true) }) s0)

/-- Cells enough by none to spare, and no cell; to build for the first time, and in its turn. -/
theorem witness_ReplyIsBuilt :
    let h : ReqHeader := { port := .backbone .ba, src := srv, code := 0x13, tag := 7 }
    let n := cellsFor ((mgmtFrame h.src s0.identity h.code Status.ok.code h.tag s0.consist.carriage [7, 1]).length + 4)
    StackOk (toBuild [5] []) ∧
      (((toBuild [5] []).hub.mgmt.slots[2]).header? = some h ∧ (toBuild [5] []).hub.mgmt.waiting = [] ∧
        deadSeat s0 h.port = false ∧ n ≤ (toBuild [5] []).hub.cells.free.length ∧
        (toBuild [] []).hub.cells.free.length < n ∧ (toBuild [5] [2, 0]).hub.mgmt.waiting = 2 :: [0] ∧
        (toBuild [5] [2, 0]).hub.mgmt.slots[2] = .reserved h (some (.fixed .ok [7, 1])) true ∧
        cellsFor ((replyBytes (toBuild [5] [2, 0]) h (.fixed .ok [7, 1])).length + 4) = 1) :=
  ⟨⟨by decide +kernel, by decide +kernel⟩, by decide +kernel⟩

/-- No report address; one, with 11 notices and one cell; with 12. -/
theorem witness_NoticeIsQueuedOrLost :
    let s (n : Nat) := cells (fun c => { c with free := [5], pressure := .pressure }) (mgmt (fun m => { m with
      reportAddr := some srv, notices := List.range n }) s0)
    StackOk { State.reset with hub := (s 11).hub } ∧
      (s0.hub.mgmt.reportAddr = none ∧ (s 11).hub.mgmt.reportAddr = some srv ∧ (s 11).hub.mgmt.lost = 0 ∧
        (s 11).hub.mgmt.notices.length < 12 ∧ 12 ≤ (s 12).hub.mgmt.notices.length ∧
        cellsFor ((mgmtFrame srv 0 (Notice.link (.seat 0) .up).code 0 0 0 (Notice.link (.seat 0) .up).body).length + 4) ≤
          (s 11).hub.cells.free.length ∧ (s 11).hub.cells.pressure = .pressure) :=
  ⟨⟨by decide +kernel, by decide +kernel⟩, by decide +kernel⟩

/-- A crew unit's request on a CREW_MAINT port. -/
def crewAsks (code : Byte) (body : List Byte) : State :=
  let s := up (.seat 1) s0
  after (.seatFrameReceived 1 (request srv code body) true)
    { s with ports := s.ports.modSeat 1 (fun q => { q with designation := .crewMaint }) }

/-- What `CommonChecksRefuse` and the level clauses ask of the head of the input queue. -/
def readyB (s : State) (P : Request → Bool) : Bool :=
  match requestReady s with
  | some (_, _, f, rq) => ((withFaults [] s).hub.readFrame f none).1.isEmpty && !isGroup rq.src && P rq
  | none => false

/-- A code of no request; a body of 1 byte for 2 and for 8; a request of CREW level; and a row that is not the one of the
request at the head. -/
theorem witness_CommonChecksRefuse :
    readyB (ask 0x1A [] s0) (fun rq => decide (requestInfo rq.code = none ∧ rowOf rq [] = .unknownRequestCode [])) = true ∧
      readyB (ask 0x13 [7] s0) (fun rq => decide (requestInfo rq.code = some (2, false) ∧ rq.bodyLength ≠ 2 ∧
        rowOf rq [] = .setConsist [])) = true ∧
      readyB (ask 0x08 [1] s0) (fun rq => decide (requestInfo rq.code = some (8, false) ∧ rq.bodyLength ≠ 8 ∧
        rowOf rq [] = .renewAll [])) = true ∧
      readyB (crewAsks 0x13 [7, 1]) (fun rq => decide (requestInfo rq.code = some (2, false) ∧ rq.bodyLength = 2 ∧
        22 + rq.bodyLength ≤ rq.frameLength - 4 ∧ rq.level = .crew)) = true ∧
      readyB (ask 0x1A [] s0) (fun rq =>
        decide (Instr.setConsist [] ∈ requestRows [] ∧ Instr.setConsist [] ≠ rowOf rq [])) = true := by
  decide +kernel

theorem witness_ReadsAnswerTheirView :
    Meets (ask 0x01 who spent) 0x01 (fun rq => spent.table.byAddr (rq.addr 0) = some 2 ∧ (spent.station? 2).isSome = true) ∧
      Meets (ask 0x02 [15] s0) 0x02 (fun rq => rq.num 0 1 ≤ 15) ∧
      Meets (ask 0x02 [16] s0) 0x02 (fun rq => 15 < rq.num 0 1) ∧ Meets (ask 0x0C [] s0) 0x0C (fun _ => True) ∧
      Meets (ask 0x0E [8] s0) 0x0E (fun rq => rq.num 0 1 = (8 : Fin 9).val) ∧
      Meets (ask 0x0E [9] s0) 0x0E (fun rq => 8 < rq.num 0 1) ∧
      Meets (ask 0x10 [37] s0) 0x10 (fun rq => rq.num 0 1 = portCode (.backbone .bb)) ∧
      Meets (ask 0x10 [38] s0) 0x10 (fun rq => 37 < rq.num 0 1) ∧ Meets (ask 0x14 [] s0) 0x14 (fun _ => True) ∧
      Meets (ask 0x17 [16] s0) 0x17 (fun rq => 15 < rq.num 0 1) ∧
      Meets (ask 0x17 [15] s0) 0x17 (fun _ => (ask 0x17 [15] s0).hub.mgmt.snapshot = none) := by
  refine ⟨?_, ?_, ?_, ?_, ?_, ?_, ?_, ?_, ?_, ?_, ?_⟩ <;> exact meets (by decide +kernel)

/-- Each of the eight requests from a server with no such record, RENEW for all, and a group address. -/
theorem witness_UnknownStationIsAnswered :
    (Meets (ask 0x01 who s0) 0x01 (fun rq => s0.table.byAddr (rq.addr 0) = none) ∧
      Meets (ask 0x03 (who ++ List.replicate 22 0) s0) 0x03 (fun rq => s0.table.byAddr (rq.addr 0) = none) ∧
      Meets (ask 0x04 who s0) 0x04 (fun rq => s0.table.byAddr (rq.addr 0) = none) ∧
      Meets (ask 0x05 who s0) 0x05 (fun rq => s0.table.byAddr (rq.addr 0) = none) ∧
      Meets (ask 0x06 who s0) 0x06 (fun rq => s0.table.byAddr (rq.addr 0) = none) ∧
      Meets (ask 0x07 (who ++ List.replicate 10 0) s0) 0x07 (fun rq => s0.table.byAddr (rq.addr 0) = none) ∧
      Meets (ask 0x09 (who ++ List.replicate 8 0) s0) 0x09 (fun rq => s0.table.byAddr (rq.addr 0) = none) ∧
      Meets (ask 0x08 ([0, 0] ++ who) s0) 0x08 (fun rq => s0.table.byAddr (rq.addr 2) = none ∧ rq.num 0 1 = 0) ∧
      Meets (ask 0x08 ([1, 0] ++ who) s0) 0x08 (fun rq => rq.num 0 1 = 1)) ∧
      AddressesOk sound ∧ isGroup everyone = true := by
  refine ⟨⟨?_, ?_, ?_, ?_, ?_, ?_, ?_, ?_, ?_⟩, witness_AddressesKept, by decide⟩ <;> exact meets (by decide +kernel)

/-- The station in slot 2 in a state. -/
def inState (st : StationState) (al : Option Allowance) : State :=
  put 2 { seated .passenger st (.seat 7) with allowance := al } s0

/-- Whether the request names that station, in that state. -/
def names (st : StationState) (al : Option Allowance) (off : Nat) (rq : Request) : Bool :=
  decide ((inState st al).table.byAddr (rq.addr off) = some 2) &&
    decide ((inState st al).station? 2 = some { seated .passenger st (.seat 7) with allowance := al })

/-- An ADMIT body: tier, mode, cap presence and value, allowance presence, renew and current. -/
def admitBody (tier mode pres : Byte) (cap : Nat) (apres renew : Byte) (current : Nat) : List Byte :=
  who ++ [tier, 0, mode, pres] ++ beBytes 4 cap ++ [0, 0] ++ [apres, renew, 0, 0] ++ beBytes 4 0 ++ beBytes 4 current

/-- LEAVING; ADMITTED; BARRED; a tier of 4; the top tier with no cap and no allowance; a cap above the top with an
allowance of 1. -/
theorem witness_AdmitAdmits :
    Meets (ask 0x03 (admitBody 3 1 0 0 0 0 0) (inState (.leaving .aged) none)) 0x03
        (fun rq => names (.leaving .aged) none 0 rq = true) ∧
      Meets (ask 0x03 (admitBody 3 1 0 0 0 0 0) (inState .admitted none)) 0x03
        (fun rq => names .admitted none 0 rq = true) ∧
      Meets (ask 0x03 (admitBody 3 1 0 0 0 0 0) (inState (.barred .held) none)) 0x03
        (fun rq => names (.barred .held) none 0 rq = true) ∧
      Meets (ask 0x03 (admitBody 4 1 0 0 0 0 0) (inState .held none)) 0x03
        (fun rq => names .held none 0 rq = true ∧ 3 < rq.num 6 1) ∧
      Meets (ask 0x03 (admitBody 3 1 0 0 0 0 0) (inState .held none)) 0x03
        (fun rq => names .held none 0 rq = true ∧ rq.num 6 1 ≤ 3 ∧ modeOfCode (rq.num 8 1) = some .single ∧
          rq.num 9 1 = 0 ∧ rq.num 16 1 = 0) ∧
      Meets (ask 0x03 (admitBody 3 2 1 16777216 1 1 1) (inState .spent none)) 0x03
        (fun rq => names .spent none 0 rq = true ∧ rq.num 6 1 ≤ 3 ∧ modeOfCode (rq.num 8 1) = some .run ∧
          rq.num 9 1 = 1 ∧ 0 < rq.num 10 4 ∧ rq.num 16 1 = 1 ∧ rq.num 17 1 ≤ 1 ∧ 0 < rq.num 24 4) := by
  refine ⟨?_, ?_, ?_, ?_, ?_, ?_⟩ <;> exact meets (by decide +kernel)

/-- A HELD station at radio 1, index 63, with a unicast in the radio's queue before a broadcast. -/
def onAir : State :=
  let s := store 13 64 none false (store 12 64 (some 2) false (atIndex63 .held))
  { s with ports := s.ports.modRadio 1 (fun q => { q with egress := [{ id := 12, index := 63 }, { id := 13, index := 255 }] }) }

/-- A HELD station at seat 7 with a unicast in the port's queue before a broadcast. -/
def atSeat : State :=
  let s := store 13 64 none false (store 12 64 (some 2) false (inState .held none))
  { s with ports := s.ports.modSeat 7 (fun q => { q with egress := [12, 13] }) }

/-- R48, R53: the unicast goes from the radio's queue, the broadcast stays. -/
theorem test_radio_purges :
    ((after (.bar []) (ask 0x04 who onAir)).ports.radios[1]).egress = [{ id := 13, index := 255 }] ∧
      ((after (.release []) (ask 0x06 who onAir)).ports.radios[1]).egress = [{ id := 13, index := 255 }] := by
  decide +kernel

/-- A seat and a radio station with a unicast of its own, and another entry, in its origin's queue. -/
theorem witness_BarBars_queues :
    Meets (ask 0x04 who onAir) 0x04 (fun rq => onAir.table.byAddr (rq.addr 0) = some 2) ∧
      Meets (ask 0x04 who atSeat) 0x04 (fun rq => atSeat.table.byAddr (rq.addr 0) = some 2) ∧
      ((onAir.station? 2).map (fun st => (st.state, st.origin)) = some (.held, .radio 1 63) ∧
        (atSeat.station? 2).map (fun st => (st.state, st.origin)) = some (.held, .seat 7) ∧
        (afterTake (ask 0x04 who onAir) []).hub.cells.owner 13 ≠ some 2) := by
  refine ⟨?_, ?_, by decide +kernel⟩ <;> exact meets (by decide +kernel)

theorem witness_BarBars :
    Meets (ask 0x04 who (inState (.leaving .aged) none)) 0x04 (fun rq => names (.leaving .aged) none 0 rq = true) ∧
      Meets (ask 0x04 who (inState (.barred .held) none)) 0x04 (fun rq => names (.barred .held) none 0 rq = true) ∧
      Meets (ask 0x04 who (inState .held none)) 0x04
        (fun rq => names .held none 0 rq = true ∧ StationState.held = Admission.held.state) := by
  refine ⟨?_, ?_, ?_⟩ <;> exact meets (by decide +kernel)

theorem witness_UnbarRestores :
    Meets (ask 0x05 who (inState (.leaving .aged) none)) 0x05 (fun rq => names (.leaving .aged) none 0 rq = true) ∧
      Meets (ask 0x05 who (inState .spent none)) 0x05
        (fun rq => names .spent none 0 rq = true ∧ StationState.spent = Admission.spent.state) ∧
      Meets (ask 0x05 who (inState (.barred .held) none)) 0x05 (fun rq => names (.barred .held) none 0 rq = true) := by
  refine ⟨?_, ?_, ?_⟩ <;> exact meets (by decide +kernel)

theorem witness_ReleaseRemovesOrParks_queues :
    Meets (ask 0x06 who onAir) 0x06 (fun rq => onAir.table.byAddr (rq.addr 0) = some 2) ∧
      Meets (ask 0x06 who atSeat) 0x06 (fun rq => atSeat.table.byAddr (rq.addr 0) = some 2) ∧
      (afterTake (ask 0x06 who onAir) []).hub.cells.owner 13 ≠ some 2 := by
  refine ⟨?_, ?_, by decide +kernel⟩ <;> exact meets (by decide +kernel)

theorem witness_ReleaseRemovesOrParks :
    Meets (ask 0x06 who (inState (.leaving .aged) none)) 0x06 (fun rq => names (.leaving .aged) none 0 rq = true) ∧
      Meets (ask 0x06 who (inState .held none)) 0x06 (fun rq => names .held none 0 rq = true ∧
        inFlight (afterTake (ask 0x06 who (inState .held none)) []) 2 = false) ∧
      Meets (ask 0x06 who (up (.backbone .bb) (flying (.seat 3)))) 0x06
        (fun rq => (flying (.seat 3)).table.byAddr (rq.addr 0) = some 2 ∧
          inFlight (afterTake (ask 0x06 who (flying (.seat 3))) []) 2 = true) := by
  refine ⟨?_, ?_, ?_⟩ <;> exact meets (by decide +kernel)

/-- A SET_ALLOWANCE body. -/
def allowanceBody (pres renew : Byte) (current : Nat) : List Byte :=
  who ++ [pres, renew] ++ beBytes 4 5 ++ beBytes 4 current

theorem witness_SetAllowanceStores :
    Meets (ask 0x07 (allowanceBody 0 0 0) (inState (.leaving .aged) none)) 0x07
        (fun rq => names (.leaving .aged) none 0 rq = true) ∧
      Meets (ask 0x07 (allowanceBody 0 0 0) (inState (.barred .held) none)) 0x07
        (fun rq => names (.barred .held) none 0 rq = true) ∧
      Meets (ask 0x07 (allowanceBody 2 0 0) (inState .admitted none)) 0x07
        (fun rq => names .admitted none 0 rq = true ∧ 1 < rq.num 6 1) ∧
      Meets (ask 0x07 (allowanceBody 0 0 0) (inState (.barred .spent) none)) 0x07
        (fun rq => names (.barred .spent) none 0 rq = true ∧ rq.num 6 1 = 0) ∧
      Meets (ask 0x07 (allowanceBody 1 1 1) (inState .spent none)) 0x07
        (fun rq => names .spent none 0 rq = true ∧ rq.num 6 1 = 1 ∧ rq.num 7 1 ≤ 1 ∧ 0 < rq.num 12 4) ∧
      Meets (ask 0x07 (allowanceBody 1 0 0) (inState .spent none)) 0x07
        (fun rq => names .spent none 0 rq = true ∧ rq.num 6 1 = 1 ∧ rq.num 7 1 ≤ 1 ∧ rq.num 12 4 = 0) ∧
      Meets (ask 0x07 (allowanceBody 1 0 0) (inState .admitted none)) 0x07
        (fun rq => names .admitted none 0 rq = true ∧ rq.num 6 1 = 1 ∧ rq.num 7 1 ≤ 1 ∧ rq.num 12 4 = 0) := by
  refine ⟨?_, ?_, ?_, ?_, ?_, ?_, ?_⟩ <;> exact meets (by decide +kernel)

/-- Selector 2; LEAVING; no allowance; one with base above 0; all. -/
theorem witness_RenewReloads :
    Meets (ask 0x08 ([2, 0] ++ who) s0) 0x08 (fun rq => 1 < rq.num 0 1) ∧
      Meets (ask 0x08 ([0, 0] ++ who) (inState (.leaving .aged) none)) 0x08
        (fun rq => rq.num 0 1 = 0 ∧ names (.leaving .aged) none 2 rq = true) ∧
      Meets (ask 0x08 ([0, 0] ++ who) (inState .held none)) 0x08
        (fun rq => rq.num 0 1 = 0 ∧ names .held none 2 rq = true) ∧
      Meets (ask 0x08 ([0, 0] ++ who) (inState .admitted lean.allowance)) 0x08
        (fun rq => rq.num 0 1 = 0 ∧ names .admitted lean.allowance 2 rq = true) ∧
      Meets (ask 0x08 ([1, 0] ++ who) spent) 0x08 (fun rq => rq.num 0 1 = 1) := by
  refine ⟨?_, ?_, ?_, ?_, ?_⟩ <;> exact meets (by decide +kernel)

/-- A SET_SHAPING body. -/
def shapingBody (mode pres : Byte) (cap : Nat) : List Byte := who ++ [0, mode, pres, 0] ++ beBytes 4 cap

theorem witness_SetShapingStores :
    Meets (ask 0x09 (shapingBody 1 0 0) (inState (.leaving .aged) none)) 0x09
        (fun rq => names (.leaving .aged) none 0 rq = true) ∧
      Meets (ask 0x09 (shapingBody 3 0 0) (inState .held none)) 0x09
        (fun rq => names .held none 0 rq = true ∧ 2 < rq.num 7 1) ∧
      Meets (ask 0x09 (shapingBody 1 1 0) (inState .held none)) 0x09
        (fun rq => names .held none 0 rq = true ∧ rq.num 8 1 = 1 ∧ rq.num 10 4 = 0) ∧
      Meets (ask 0x09 (shapingBody 1 0 0) (inState .held none)) 0x09
        (fun rq => names .held none 0 rq = true ∧ modeOfCode (rq.num 7 1) = some .single ∧ rq.num 8 1 = 0) ∧
      Meets (ask 0x09 (shapingBody 2 1 16777216) (inState .admitted none)) 0x09
        (fun rq => names .admitted none 0 rq = true ∧ modeOfCode (rq.num 7 1) = some .run ∧ rq.num 8 1 = 1 ∧
          0 < rq.num 10 4) := by
  refine ⟨?_, ?_, ?_, ?_, ?_⟩ <;> exact meets (by decide +kernel)

theorem witness_SetEpochClampsAndStores :
    Meets (ask 0x0A (List.replicate 12 0) s0) 0x0A (fun _ => s0.sched.running = false) ∧
      Meets (ask 0x0A (List.replicate 12 255) (running s0)) 0x0A (fun _ => (running s0).sched.running = true) := by
  refine ⟨?_, ?_⟩ <;> exact meets (by decide +kernel)

/-- The actions 0, 1, 2, 3 and 4, in STOPPED and in RUNNING. -/
theorem witness_SchedulerActions :
    Meets (ask 0x0B [0] s0) 0x0B (fun rq => rq.num 0 1 = 0) ∧ Meets (ask 0x0B [4] s0) 0x0B (fun rq => 3 < rq.num 0 1) ∧
      Meets (ask 0x0B [1] (running s0)) 0x0B (fun rq => rq.num 0 1 = 1 ∧ (running s0).sched.running = true) ∧
      Meets (ask 0x0B [1] s0) 0x0B (fun rq => rq.num 0 1 = 1 ∧ s0.sched.running = false) ∧
      Meets (ask 0x0B [2] s0) 0x0B (fun rq => rq.num 0 1 = 2) ∧
      Meets (ask 0x0B [2] (running s0)) 0x0B (fun rq => rq.num 0 1 = 2) ∧
      Meets (ask 0x0B [3] (running s0)) 0x0B (fun rq => rq.num 0 1 = 3) ∧
      Meets (ask 0x0B [3] s0) 0x0B (fun rq => rq.num 0 1 = 3) := by
  refine ⟨?_, ?_, ?_, ?_, ?_, ?_, ?_, ?_⟩ <;> exact meets (by decide +kernel)

/-- A WRITE_WINDOW body. -/
def windowBody (i en k me op pass : Byte) : List Byte := [i, en] ++ beBytes 4 0x0A140D4D ++ [k, me, op, pass, 0, 3]

/-- Window 9; the codes just above their ranges; windows 0 and 8 in range, k at 7, 8, 32 and 33. -/
theorem witness_WriteWindowStores :
    Meets (ask 0x0D (windowBody 9 1 8 0 0 0) s0) 0x0D (fun rq => 8 < rq.num 0 1) ∧
      Meets (ask 0x0D (windowBody 8 2 8 0 0 0) s0) 0x0D (fun rq => rq.num 0 1 = (8 : Fin 9).val ∧ 1 < rq.num 1 1) ∧
      Meets (ask 0x0D (windowBody 0 1 8 0 0 4) s0) 0x0D (fun rq => rq.num 0 1 = (0 : Fin 9).val ∧ 3 < rq.num 9 1) ∧
      Meets (ask 0x0D (windowBody 0 1 7 1 1 3) s0) 0x0D (fun rq => rq.num 0 1 = (0 : Fin 9).val ∧ rq.num 1 1 ≤ 1 ∧
        rq.num 7 1 ≤ 1 ∧ rq.num 8 1 ≤ 1 ∧ permissionOfCode (rq.num 9 1) = some .both ∧
        permissionOfCode (rq.num 10 1) = some .none ∧ permissionOfCode (rq.num 11 1) = some .both ∧ rq.num 6 1 < 8) ∧
      Meets (ask 0x0D (windowBody 8 0 33 0 1 3) s0) 0x0D (fun rq => rq.num 0 1 = (8 : Fin 9).val ∧ rq.num 1 1 ≤ 1 ∧
        rq.num 7 1 ≤ 1 ∧ rq.num 8 1 ≤ 1 ∧ permissionOfCode (rq.num 9 1) = some .both ∧ 32 < rq.num 6 1) := by
  refine ⟨?_, ?_, ?_, ?_, ?_⟩ <;> exact meets (by decide +kernel)

/-- A seat port with a designation in force. -/
def designated (d : Designation) : State :=
  { s0 with ports := s0.ports.modSeat 31 (fun q => { q with designation := d }) }

/-- Port 32; the designations 0 and 6; the one in force; DISABLED; another; another where the old one is DISABLED. -/
theorem witness_SetPortDesignates :
    Meets (ask 0x0F [32, 1] s0) 0x0F (fun rq => 31 < rq.num 0 1) ∧
      Meets (ask 0x0F [31, 0] s0) 0x0F (fun rq => rq.num 1 1 = 0) ∧
      Meets (ask 0x0F [31, 6] s0) 0x0F (fun rq => 5 < rq.num 1 1) ∧
      Meets (ask 0x0F [31, 1] s0) 0x0F (fun rq => rq.num 0 1 = (31 : Fin 32).val ∧
        designationOfCode (rq.num 1 1) = some .passenger ∧ (s0.ports.seats[31]).designation = .passenger) ∧
      Meets (ask 0x0F [31, 5] s0) 0x0F (fun rq => rq.num 0 1 = (31 : Fin 32).val ∧
        designationOfCode (rq.num 1 1) = some .disabled ∧ (s0.ports.seats[31]).designation ≠ .disabled) ∧
      Meets (ask 0x0F [31, 2] s0) 0x0F (fun rq => rq.num 0 1 = (31 : Fin 32).val ∧
        designationOfCode (rq.num 1 1) = some .crew ∧ (s0.ports.seats[31]).designation ≠ .crew) ∧
      Meets (ask 0x0F [31, 1] (designated .disabled)) 0x0F (fun rq => rq.num 0 1 = (31 : Fin 32).val ∧
        designationOfCode (rq.num 1 1) = some .passenger ∧
        ((designated .disabled).ports.seats[31]).designation ≠ .passenger) := by
  refine ⟨?_, ?_, ?_, ?_, ?_, ?_, ?_⟩ <;> exact meets (by decide +kernel)

/-- The actions 0 and 3; the limits 0, 1000 and 1001; an end whose hold has lasted the new limit. -/
theorem witness_SetHoldStores :
    Meets (ask 0x11 [0, 50, 0] s0) 0x11 (fun rq => rq.num 2 1 = 0) ∧
      Meets (ask 0x11 [0, 50, 3] s0) 0x11 (fun rq => 2 < rq.num 2 1) ∧
      Meets (ask 0x11 [0, 0, 1] s0) 0x11 (fun rq => holdActionOfCode (rq.num 2 1) = some .wait ∧ rq.num 0 2 < 1) ∧
      Meets (ask 0x11 [3, 233, 2] s0) 0x11 (fun rq => holdActionOfCode (rq.num 2 1) = some .shed ∧ 1000 < rq.num 0 2) ∧
      Meets (ask 0x11 [0, 10, 2] { heldEnd with now := 1000 }) 0x11
        (fun rq => (heldEnd.ports.endOf .ba).heldUntil = some 6000 ∧ (heldEnd.ports.endOf .ba).holdStart = some 0 ∧
          (heldEnd.ports.endOf .ba).overrun = false ∧ 0 + 100 * rq.num 0 2 ≤ 1000) := by
  refine ⟨?_, ?_, ?_, ?_, ?_⟩ <;> exact meets (by decide +kernel)

/-- A part that holds one cell, the request's being back on the stack, in a pressure state. -/
def holding (p : Pressure) : State := cells (fun c => { c with pressure := p }) (store 9 64 none false s0)

/-- Marks below and above their ranges; in NORMAL and in PRESSURE. -/
theorem witness_SetMemoryLimitsTests :
    Meets (ask 0x12 [0, 0, 0, 0] (holding .normal)) 0x12 (fun rq => rq.num 0 2 < 64 ∧
        (afterTake (ask 0x12 [0, 0, 0, 0] (holding .normal)) []).hub.cells.pressure = .normal) ∧
      Meets (ask 0x12 [255, 255, 255, 255] (holding .pressure)) 0x12 (fun rq => 3072 < rq.num 0 2 ∧ 3071 < rq.num 2 2 ∧
        (afterTake (ask 0x12 [255, 255, 255, 255] (holding .pressure)) []).hub.cells.held ≤ 3071) ∧
      (holding .pressure).hub.mgmt.reportAddr = none := by
  refine ⟨?_, ?_, rfl⟩ <;> exact meets (by decide +kernel)

/-- A part that holds 64 cells meets the lowest high mark; one that holds 1 in PRESSURE is above a low mark of 0. -/
theorem witness_SetMemoryLimitsTests_marks :
    let full := cells (fun c => { c with free := (List.range 3072).drop 64 }) s0
    Meets (ask 0x12 [0, 64, 0, 0] full) 0x12
        (fun rq => rq.num 0 2 ≤ (afterTake (ask 0x12 [0, 64, 0, 0] full) []).hub.cells.held) ∧
      Meets (ask 0x12 [0, 64, 0, 0] (holding .pressure)) 0x12
        (fun rq => rq.num 2 2 < (afterTake (ask 0x12 [0, 64, 0, 0] (holding .pressure)) []).hub.cells.held) := by
  refine ⟨?_, ?_⟩ <;> exact meets (by decide +kernel)

/-- A carriage number of 64, a lead code of 3, each lead; and a request of CREW level. -/
theorem witness_SetConsistStores :
    (Meets (ask 0x13 [64, 0] s0) 0x13 (fun rq => 63 < rq.num 0 1) ∧
      Meets (ask 0x13 [63, 3] s0) 0x13 (fun rq => 2 < rq.num 1 1) ∧
      Meets (ask 0x13 [63, 0] s0) 0x13 (fun rq => rq.num 0 1 ≤ 63 ∧ rq.num 1 1 = 0) ∧
      Meets (ask 0x13 [0, 1] s0) 0x13 (fun rq => rq.num 0 1 ≤ 63 ∧ rq.num 1 1 = 1) ∧
      Meets (ask 0x13 [63, 2] s0) 0x13 (fun rq => rq.num 0 1 ≤ 63 ∧ rq.num 1 1 = 2)) ∧
      readyB (crewAsks 0x13 [7, 1])
        (fun rq => decide (rq.code = 0x13 ∧ rq.bodyLength = 2 ∧ 24 ≤ rq.frameLength - 4 ∧ rq.level = .crew)) = true := by
  refine ⟨⟨?_, ?_, ?_, ?_, ?_⟩, by decide +kernel⟩ <;> exact meets (by decide +kernel)

/-- The flag codes 0 and 12; STORE_DEFAULTED with another count and with its own; a request of CREW level. -/
theorem witness_ClearStatusClears :
    (Meets (ask 0x15 [0, 0, 0] s0) 0x15 (fun rq => rq.num 0 1 = 0) ∧
      Meets (ask 0x15 [12, 0, 0] s0) 0x15 (fun rq => 11 < rq.num 0 1) ∧
      Meets (ask 0x15 [7, 0, 0] s0) 0x15 (fun rq => rq.num 0 1 = Flag.storeDefaulted.index.val + 1 ∧
        (s0.hub.flagOf .storeDefaulted).count ≠ rq.num 1 2) ∧
      Meets (ask 0x15 [7, 0, 1] s0) 0x15 (fun rq => (s0.hub.flagOf .storeDefaulted).count = rq.num 1 2)) ∧
      readyB (crewAsks 0x15 [7, 0, 1])
        (fun rq => decide (rq.code = 0x15 ∧ rq.bodyLength = 3 ∧ 25 ≤ rq.frameLength - 4 ∧ rq.level = .crew)) = true := by
  refine ⟨⟨?_, ?_, ?_, ?_⟩, by decide +kernel⟩ <;> exact meets (by decide +kernel)

theorem witness_SnapshotIsTakenOrParks :
    Meets (ask 0x16 [] (parked .snapshot)) 0x16 (fun _ => snapshotParked (parked .snapshot).hub.mgmt = true) ∧
      Meets (ask 0x16 [] (running s0)) 0x16 (fun _ => snapshotParked (running s0).hub.mgmt = false) ∧
      Meets (ask 0x16 [] s0) 0x16 (fun _ => snapshotParked s0.hub.mgmt = false ∧ s0.sched.running = false) := by
  refine ⟨?_, ?_, ?_⟩ <;> exact meets (by decide +kernel)

/-- A save parked; the codes 3 and 2; keep, absent and given; a write that ends. -/
theorem witness_SaveWritesTheStore :
    let tail : List Byte := who ++ [0, 60]
    (Meets (ask 0x18 ([0, 0] ++ tail) (parked (.save StoredSettings.defaults 0))) 0x18
        (fun _ => saveParked (parked (.save StoredSettings.defaults 0)).hub.mgmt = true) ∧
      Meets (ask 0x18 ([3, 0] ++ tail) s0) 0x18 (fun rq => saveParked s0.hub.mgmt = false ∧ 2 < rq.num 0 1) ∧
      Meets (ask 0x18 ([0, 2] ++ tail) s0) 0x18 (fun rq => 1 < rq.num 1 1) ∧
      Meets (ask 0x18 ([0, 0] ++ tail) s0) 0x18 (fun rq => rq.num 0 1 = 0 ∧ rq.num 1 1 = 0) ∧
      Meets (ask 0x18 ([1, 1] ++ tail) s0) 0x18 (fun rq => rq.num 0 1 = 1 ∧ rq.num 1 1 = 1) ∧
      Meets (ask 0x18 ([2, 1] ++ tail) s0) 0x18 (fun rq => rq.num 0 1 = 2 ∧ rq.num 1 1 = 1)) ∧
      parkedSave (parked (.save StoredSettings.defaults 0)).hub.mgmt = some (3, StoredSettings.defaults, 0) := by
  refine ⟨⟨?_, ?_, ?_, ?_, ?_, ?_⟩, by decide +kernel⟩ <;> exact meets (by decide +kernel)

/-- What a slot records of a READ_STATUS asked by `ask`. -/
def statusHeader : ReqHeader := { port := .backbone .ba, src := srv, code := 0x14, tag := 7 }

/-- A part with the reply of a READ_STATUS built in slot 0 and a SNAPSHOT parked in slot 3. -/
def answered : State := after (.readStatus []) (ask 0x14 [] (parked .snapshot))

/-- A reply BUILT, in SENDING, and an operation parked; a sound stack. -/
theorem witness_ResetEmptiesAndKeeps :
    Meets (ask 0x19 [] answered) 0x19 (fun _ => True) ∧ StackOk (afterTake (ask 0x19 [] answered) []) ∧
      (let t := afterTake (ask 0x19 [] answered) []
       t.hub.mgmt.slots[0] = .built statusHeader 0 ∧ (t.hub.cells.frame? 0).isSome = true ∧
        t.hub.mgmt.slots[3] = .parked { port := .backbone .ba, src := srv, code := 0x18, tag := 1 } .snapshot) ∧
      Meets (ask 0x19 [] (after (.transmissionStart (.backbone .ba) []) answered)) 0x19 (fun _ => True) ∧
      (after (.transmissionStart (.backbone .ba) []) answered).hub.mgmt.slots[0] = .sending statusHeader 0 :=
  ⟨meets (by decide +kernel), by unfold StackOk; decide +kernel, by decide +kernel, meets (by decide +kernel),
    by decide +kernel⟩

/-! ## Small tables and full ones -/

/-- A table with one record at most, that of slot `k`. -/
def OnlyAt (t : StationTable) (k : Fin 256) : Prop := ∀ j, j ≠ k → t.station? j = none

theorem only_nobody (k : Fin 256) : OnlyAt s0.table k := fun j _ => by
  show (Vector.replicate 256 (none : Option Station))[j] = none
  simp

theorem unit_table (p : Port) (g : PortUnit → PortUnit) (s : State) : (unit p g s).table = s.table := rfl

theorem up_table (p : Port) (s : State) : (up p s).table = s.table := rfl

theorem store_table (cell len : Nat) (o : Option (Fin 256)) (m : Bool) (s : State) :
    (store cell len o m s).table = s.table := rfl

theorem put_ne (s : State) {k j : Fin 256} (st : Station) (hj : j ≠ k) : (put k st s).station? j = s.station? j := by
  have hk : k.val ≠ j.val := fun e => hj (Fin.ext e.symm)
  simp [put, State.station?, StationTable.station?, hk]

theorem only_put {s : State} {k : Fin 256} (st : Station) (h : OnlyAt s.table k) : OnlyAt (put k st s).table k :=
  fun j hj => (put_ne s st hj).trans (h j hj)

theorem only_mod {t : StationTable} {k : Fin 256} (g : Station → Station) (h : OnlyAt t k) :
    OnlyAt (t.modStation k g) k := fun j hj => (station?_modStation_ne t g hj).trans (h j hj)

/-- The slots of the records that meet a test, where `ks` are the slots of all records, in rising order. -/
theorem among_where {t : StationTable} {ks : List (Fin 256)} (test : Station → Bool) (hs : ks.Pairwise (· < ·))
    (h : ∀ j, j ∉ ks → t.station? j = none) : t.slotsWhere test = ks.filter (fun k => (t.station? k).any test) := by
  have hl : ((List.finRange 256).filter (fun k => (t.station? k).any test)).Pairwise (· < ·) :=
    (List.pairwise_lt_finRange 256).filter _
  have he : t.slotsWhere test = (List.finRange 256).filter (fun k => (t.station? k).any test) := by
    unfold StationTable.slotsWhere StationTable.station?
    congr 1
    funext k
    cases t.slots[k] <;> rfl
  rw [he]
  refine hl.eq_of_mem_iff (hs.filter _) (fun k => ?_)
  simp only [List.mem_filter, List.mem_finRange, true_and]
  refine ⟨fun hk => ⟨?_, hk⟩, fun hk => hk.2⟩
  by_contra hn
  rw [h k hn] at hk
  cases hk

/-- Where the one record is that of slot `k`, its address and its radio index are found, and no other. -/
theorem only_byAddr {t : StationTable} {k : Fin 256} (h : OnlyAt t k) (a : LinkAddr) :
    t.byAddr a = ([k].filter (fun k => (t.station? k).any (fun st => decide (st.addr = a)))).head? := by
  unfold StationTable.byAddr
  rw [among_where _ (List.pairwise_singleton _ _) (fun j hj => h j (by simpa using hj))]

theorem only_atRadio {t : StationTable} {k : Fin 256} (h : OnlyAt t k) (w : Fin 4) (i : Nat) : t.atRadio w i =
    ([k].filter (fun k => (t.station? k).any (fun st => decide (st.origin = .radio w i)))).head? := by
  unfold StationTable.atRadio
  rw [among_where _ (List.pairwise_singleton _ _) (fun j hj => h j (by simpa using hj))]

/-- A full table: 256 stations of a state at given origins, all of them in the held order if it is HELD. -/
def fullOf (x : StationState) (o : Fin 256 → Origin) : StationTable :=
  { slots := Vector.ofFn (fun k => some { seated .passenger x (o k) with addr := BitVec.ofNat 48 (0x020000010000 + k) })
    held := if x = .held then List.finRange 256 else [] }

theorem full_station (x : StationState) (o : Fin 256 → Origin) (k : Fin 256) : (fullOf x o).station? k =
    some { seated .passenger x (o k) with addr := BitVec.ofNat 48 (0x020000010000 + k) } := by
  simp [fullOf, StationTable.station?]

theorem full_emptySlot (x : StationState) (o : Fin 256 → Origin) : (fullOf x o).emptySlot? = none := by
  simp [fullOf, StationTable.emptySlot?]

theorem full_where (x : StationState) (o : Fin 256 → Origin) (test : Station → Bool)
    (h : ∀ k : Fin 256, test { seated .passenger x (o k) with addr := BitVec.ofNat 48 (0x020000010000 + k) } = false) :
    (fullOf x o).slotsWhere test = [] := by
  simp [fullOf, StationTable.slotsWhere, h]

/-- The table with the seat ports at two records each and radios 1 to 3 full, radio 0 empty. -/
def roomOnRadio0 (k : Fin 256) : Origin :=
  if h : k.val < 64 then .seat ⟨k.val / 2, by omega⟩ else .radio ⟨k.val / 64, by omega⟩ (k.val % 64)

/-- The table with every radio full, the seat ports empty. -/
def roomOnSeats (k : Fin 256) : Origin := .radio ⟨k.val / 64, by omega⟩ (k.val % 64)

/-! ## Witnesses: the clauses on stations (ASSOCIATED, SEAT_FRAME_RECEIVED) -/

theorem atIndex63_only (x : StationState) : OnlyAt (atIndex63 x).table 2 := only_put _ (only_nobody 2)

theorem flying_only (o : Origin) : OnlyAt (flying o).table 2 := by
  rw [flying, unit_table, store_table]
  refine only_put _ ?_
  rw [up_table, up_table]
  exact only_nobody 2

/-- An index of 64; a group address; a LEAVING record of the address; one on a seat port. -/
theorem witness_AssociatedCreates_refused :
    NoticeArrives 1 12 (atIndex63 (.leaving .aged)) [0] (end1 (.radio 1) 12 (atIndex63 (.leaving .aged))) ∧
      NoticeArrives 1 12 (flying (.seat 3)) [0] (end1 (.radio 1) 12 (flying (.seat 3))) ∧
      (atIndex63 (.leaving .aged)).table.byAddr sta = some 2 ∧ (flying (.seat 3)).table.byAddr sta = some 2 ∧
      (64 ≤ (64 : Byte).toNat ∧ isGroup everyone = true ∧ isGroup sta = false ∧
        ((atIndex63 (.leaving .aged)).station? 2).map (·.isLeaving) = some true ∧
        ((flying (.seat 3)).station? 2).map (fun st => (st.isLeaving, st.origin)) = some (false, .seat 3)) :=
  ⟨noticeArrives (by decide +kernel), noticeArrives (by decide +kernel),
    (only_byAddr (atIndex63_only _) sta).trans (by decide +kernel),
    (only_byAddr (flying_only _) sta).trans (by decide +kernel), by decide +kernel⟩

/-- An occupant at index 63: LEAVING; its frame in transmission; or neither, in a slot above the lowest empty one and in
slot 0, the one that the removal empties. -/
theorem witness_AssociatedCreates_occupied :
    let first := put 0 (seated .passenger .held (.radio 1 63)) (up (.radio 1) s0)
    NoticeArrives 1 12 (flying (.radio 1 63)) [0] (end1 (.radio 1) 12 (flying (.radio 1 63))) ∧
      NoticeArrives 1 12 first [0] (end1 (.radio 1) 12 first) ∧
      (atIndex63 (.leaving .aged)).table.atRadio 1 (63 : Byte).toNat = some 2 ∧
      (flying (.radio 1 63)).table.atRadio 1 (63 : Byte).toNat = some 2 ∧
      (atIndex63 .held).table.atRadio 1 (63 : Byte).toNat = some 2 ∧
      first.table.atRadio 1 (63 : Byte).toNat = some 0 ∧ (flying (.radio 1 63)).table.byAddr srv = none ∧
      first.table.byAddr srv = none ∧
      (inFlight (giveBackCells [0] (end1 (.radio 1) 12 (flying (.radio 1 63)))) 2 = true ∧
        inFlight (giveBackCells [0] (end1 (.radio 1) 12 (atIndex63 .held))) 2 = false ∧
        ((atIndex63 .held).station? 2).map (·.isLeaving) = some false ∧ (atIndex63 .held).station? 0 = none) :=
  have only0 : OnlyAt (put 0 (seated .passenger .held (.radio 1 63)) (up (.radio 1) s0)).table 0 :=
    only_put _ (only_nobody 0)
  ⟨noticeArrives (by decide +kernel), noticeArrives (by decide +kernel),
    (only_atRadio (atIndex63_only _) 1 _).trans (by decide +kernel),
    (only_atRadio (flying_only _) 1 _).trans (by decide +kernel),
    (only_atRadio (atIndex63_only _) 1 _).trans (by decide +kernel), (only_atRadio only0 1 _).trans (by decide +kernel),
    (only_byAddr (flying_only _) srv).trans (by decide +kernel), (only_byAddr only0 srv).trans (by decide +kernel),
    by decide +kernel⟩

/-- A station at radio 2, index 3, that roams to radio 1: to index 9, where another is, and to index 0. -/
def roaming : State :=
  put 4 { seated .passenger .admitted (.radio 1 9) with addr := 0x020000000044 }
    (put 2 (seated .passenger .held (.radio 2 3)) (up (.radio 1) s0))

theorem roaming_slots (test : Station → Bool) :
    roaming.table.slotsWhere test = [2, 4].filter (fun k => (roaming.table.station? k).any test) :=
  among_where test (by decide) (fun j hj =>
    (put_ne _ _ (fun e => hj (by simp [e]))).trans (only_put _ (only_nobody 2) j (fun e => hj (by simp [e]))))

/-- To an index with an occupant, to one with nobody; and from one index of a radio to another. -/
theorem witness_AssociatedCreates_roams :
    NoticeArrives 1 12 roaming [0] (end1 (.radio 1) 12 roaming) ∧
      (atIndex63 .held).table.byAddr sta = some 2 ∧ (atIndex63 .held).table.atRadio 1 (0 : Byte).toNat = none ∧
      roaming.table.byAddr sta = some 2 ∧ roaming.table.atRadio 1 (9 : Byte).toNat = some 4 ∧
      roaming.table.atRadio 1 (0 : Byte).toNat = none ∧
      ((roaming.station? 2).map (fun st => (st.isLeaving, st.origin)) = some (false, .radio 2 3) ∧
        ((atIndex63 .held).station? 2).map (·.origin) = some (.radio 1 63) ∧
        inFlight (giveBackCells [0] (end1 (.radio 1) 12 roaming)) 4 = false) :=
  ⟨noticeArrives (by decide +kernel), (only_byAddr (atIndex63_only _) sta).trans (by decide +kernel),
    (only_atRadio (atIndex63_only _) 1 _).trans (by decide +kernel),
    (congrArg List.head? (roaming_slots _)).trans (by decide +kernel),
    (congrArg List.head? (roaming_slots _)).trans (by decide +kernel),
    (congrArg List.head? (roaming_slots _)).trans (by decide +kernel), by decide +kernel⟩

/-- A full table, with nobody on radio 0. -/
def fullHouse (x : StationState) : State := { up (.radio 0) s0 with table := fullOf x roomOnRadio0 }

/-- The held order of a table full of HELD records: its first has no frame in transmission. -/
theorem first_held {s : State} (h : s.table.held = List.finRange 256) (hf : inFlight s 0 = false) :
    evictable s = some 0 := by
  unfold evictable
  rw [h, List.find?_eq_some_iff_getElem]
  exact ⟨by rw [hf]; rfl, 0, by simp, by simp, by simp⟩

/-- With every slot taken and nobody at the index: a HELD record to evict, and none. -/
theorem witness_AssociatedCreates_full :
    NoticeArrives 0 12 (fullHouse .held) [0] (end1 (.radio 0) 12 (fullHouse .held)) ∧
      NoticeArrives 0 12 (fullHouse .admitted) [0] (end1 (.radio 0) 12 (fullHouse .admitted)) ∧
      (∀ x, (fullHouse x).table.byAddr sta = none ∧ (fullHouse x).table.atRadio 0 (63 : Byte).toNat = none ∧
        (fullHouse x).table.emptySlot? = none) ∧
      evictable (giveBackCells [0] (end1 (.radio 0) 12 (fullHouse .held))) = some 0 ∧
      ((fullHouse .held).station? 0).map (·.isLeaving) = some false ∧
      evictable (giveBackCells [0] (end1 (.radio 0) 12 (fullHouse .admitted))) = none :=
  have addr : ∀ k : Fin 256, BitVec.ofNat 48 (0x020000010000 + k) ≠ sta := by decide +kernel
  have away : ∀ k : Fin 256, roomOnRadio0 k ≠ .radio 0 63 := by decide +kernel
  ⟨noticeArrives (by decide +kernel), noticeArrives (by decide +kernel),
    fun x => ⟨by
      show ((fullOf x roomOnRadio0).slotsWhere _).head? = none
      rw [full_where x _ _ (fun k => by simpa using addr k)]; rfl, by
      show ((fullOf x roomOnRadio0).slotsWhere _).head? = none
      rw [full_where x _ _ (fun k => by simpa [seated, newStation] using away k)]; rfl, full_emptySlot _ _⟩,
    first_held (by decide +kernel) (by decide +kernel),
    by show ((fullOf _ _).station? 0).map _ = _; rw [full_station]; rfl, rfl⟩

/-- Two records on seat 3, one LEAVING, and the station on seat 4. -/
def crowded : State :=
  put 8 { seated .passenger .held (.seat 3) with addr := 0x020000000008 }
    (put 5 { seated .passenger (.leaving .aged) (.seat 3) with addr := 0x020000000005 }
      (put 2 (seated .passenger .admitted (.seat 4)) (up (.seat 3) s0)))

theorem crowded_slots (test : Station → Bool) :
    crowded.table.slotsWhere test = [2, 5, 8].filter (fun k => (crowded.table.station? k).any test) :=
  among_where test (by decide) (fun j hj =>
    (put_ne _ _ (fun e => hj (by simp [e]))).trans ((put_ne _ _ (fun e => hj (by simp [e]))).trans
      (only_put _ (only_nobody 2) j (fun e => hj (by simp [e])))))

/-- A full table with seat 3 empty. -/
def fullTrain (x : StationState) : State := { up (.seat 3) s0 with table := fullOf x roomOnSeats }

theorem fullTrain_finds (x : StationState) : (fullTrain x).table.byAddr (srcOf plain) = none ∧
    (fullTrain x).table.onSeat 3 = [] ∧ (fullTrain x).table.emptySlot? = none := by
  have addr : ∀ k : Fin 256, BitVec.ofNat 48 (0x020000010000 + k) ≠ srcOf plain := by decide +kernel
  refine ⟨?_, full_where x _ _ (fun k => by simp [seated, newStation, roomOnSeats]), full_emptySlot _ _⟩
  show ((fullOf x roomOnSeats).slotsWhere _).head? = none
  rw [full_where x _ _ (fun k => by simpa using addr k)]
  rfl

/-- Two on the port; every slot taken, with a HELD record to evict and with none. -/
theorem witness_SeatFrameIsLearned_crowded :
    let f := netFrame srv 0x020000000066 1 2 64
    Arrives (.seat 3) f true crowded [0] (end1 (.seat 3) f.length crowded) ∧ crowded.table.byAddr (srcOf f) = none ∧
      2 ≤ (crowded.table.onSeat 3).length ∧ (typeOf f ≠ typeHold ∧ typeOf f ≠ typeMgmt ∧ isGroup (srcOf f) = false) ∧
      (∀ x, (fullTrain x).table.byAddr (srcOf plain) = none ∧ (fullTrain x).table.onSeat 3 = [] ∧
        (fullTrain x).table.emptySlot? = none) ∧
      Arrives (.seat 3) plain true (fullTrain .held) [0, 1] (end1 (.seat 3) plain.length (fullTrain .held)) ∧
      evictable (storeFrame (.seat 3) [0, 1] plain (end1 (.seat 3) plain.length (fullTrain .held))) = some 0 ∧
      ((fullTrain .held).station? 0).map (·.isLeaving) = some false ∧
      Arrives (.seat 3) plain true (fullTrain .admitted) [0, 1] (end1 (.seat 3) plain.length (fullTrain .admitted)) ∧
      evictable (storeFrame (.seat 3) [0, 1] plain (end1 (.seat 3) plain.length (fullTrain .admitted))) = none :=
  ⟨arrives (by decide +kernel), (congrArg List.head? (crowded_slots _)).trans (by decide +kernel),
    by unfold StationTable.onSeat; rw [crowded_slots]; decide +kernel, by decide +kernel, fullTrain_finds,
    arrives (by decide +kernel), first_held (by decide +kernel) (by decide +kernel),
    by show ((fullOf _ _).station? 0).map _ = _; rw [full_station]; rfl, arrives (by decide +kernel), by decide +kernel⟩

/-- The station on seat 4, of a class. -/
def nextDoor (cls : StationClass) : State := put 2 (seated cls .admitted (.seat 4)) (up (.seat 3) s0)

theorem nextDoor_only (cls : StationClass) : OnlyAt (nextDoor cls).table 2 :=
  only_put _ (by rw [up_table]; exact only_nobody 2)

/-- A frame on seat 3 from the station of slot 2: LEAVING; of a radio; of seat 4 and another class; of seat 4 with two on
seat 3; of seat 4 with nobody on seat 3. -/
theorem witness_SeatFrameIsQueued_moves :
    Arrives (.seat 3) plain true crowded [0, 1] (end1 (.seat 3) plain.length crowded) ∧
      Arrives (.seat 3) plain true (nextDoor .passenger) [0, 1] (end1 (.seat 3) plain.length (nextDoor .passenger)) ∧
      Arrives (.seat 3) plain true (nextDoor .crew) [0, 1] (end1 (.seat 3) plain.length (nextDoor .crew)) ∧
      Arrives (.seat 3) plain true (flying (.radio 1 63)) [0, 1] (end1 (.seat 3) plain.length (flying (.radio 1 63))) ∧
      Arrives (.seat 3) plain true (leavingFlight false) [0, 1] (end1 (.seat 3) plain.length (leavingFlight false)) ∧
      crowded.table.byAddr (srcOf plain) = some 2 ∧ (crowded.table.onSeat 3).length = 2 ∧
      (nextDoor .passenger).table.byAddr (srcOf plain) = some 2 ∧ (nextDoor .passenger).table.onSeat 3 = [] ∧
      (nextDoor .crew).table.byAddr (srcOf plain) = some 2 ∧
      (flying (.radio 1 63)).table.byAddr (srcOf plain) = some 2 ∧
      (leavingFlight false).table.byAddr (srcOf plain) = some 2 ∧
      (typeOf plain ≠ typeHold ∧ typeOf plain ≠ typeMgmt ∧ isGroup (srcOf plain) = false ∧
        (crowded.station? 2).map (fun st => (st.isLeaving, st.cls, st.origin)) = some (false, .passenger, .seat 4) ∧
        ((nextDoor .crew).station? 2).map (·.cls) = some .crew ∧
        ((leavingFlight false).station? 2).map (·.isLeaving) = some true ∧
        ((nextDoor .crew).ports.seats[3]).designation.learns.1 = .passenger) :=
  ⟨arrives (by decide +kernel), arrives (by decide +kernel), arrives (by decide +kernel), arrives (by decide +kernel),
    arrives (by decide +kernel), (congrArg List.head? (crowded_slots _)).trans (by decide +kernel),
    by unfold StationTable.onSeat; rw [crowded_slots]; decide +kernel,
    (only_byAddr (nextDoor_only _) _).trans (by decide +kernel),
    by unfold StationTable.onSeat
       rw [among_where _ (List.pairwise_singleton _ _) (fun j hj => nextDoor_only _ j (by simpa using hj))]
       decide +kernel,
    (only_byAddr (nextDoor_only _) _).trans (by decide +kernel),
    (only_byAddr (flying_only _) _).trans (by decide +kernel),
    (only_byAddr (only_put _ (flying_only _)) _).trans (by decide +kernel), by decide +kernel⟩

/-- A record at intake, with `q` in its upward queue. -/
def offered (cls : StationClass) (x : StationState) (q : Nat) : State :=
  put 2 { seated cls x (.seat 3) with upq := List.replicate q 77 } s0

/-- The verdict of window 8 on a network frame of a record, and of no window on a link frame. -/
def verdict (s : State) (addr : Option NetAddr) : Option (Bool × Bool) :=
  (s.station? 2).map (fun st => let r := classify s.windows st true addr; (r.permitted, r.metered))

/-- BARRED; a window that refuses; a metered frame of a HELD record; PRESSURE; a lead end that sheds; 24 in its own queue,
of a passenger and of a crew unit; 128 in the onboard queue, of a link frame. -/
theorem witness_SeatFrameIsQueued_discards :
    let shut := { offered .passenger .held 0 with windows := s0.windows.set 8 { set := WindowSettings.closed } }
    let shedding := { atEnd .bb (fun e => { e with overrun := true }) (offered .passenger .admitted 24) with
      hold := { limit := 1, action := .shed }, consist := { carriage := 1, lead := some .bb } }
    let full := { offered .passenger .admitted 24 with up := { onboard := List.replicate 128 77 } }
    ((offered .passenger (.barred .held) 0).station? 2).map (·.state) = some (.barred .held) ∧
      (verdict shut (some 5)).map (·.1) = some false ∧
      verdict (offered .passenger .held 0) (some 5) = some (true, true) ∧
      (cells (fun c => { c with pressure := .pressure }) (offered .passenger .admitted 24)).hub.cells.pressure =
        .pressure ∧
      shedding.consist.lead = some .bb ∧ (shedding.ports.endOf .bb).overrun = true ∧ shedding.hold.action = .shed ∧
      verdict (offered .passenger .admitted 24) (some 5) = some (true, true) ∧
      ((offered .passenger .admitted 24).station? 2).map (·.upq.length) = some 24 ∧
      ((offered .crew .admitted 24).station? 2).map (fun st => (st.cls, st.upq.length)) = some (.crew, 24) ∧
      s0.consist.lead = none ∧ s0.hub.cells.pressure = .normal ∧ verdict full none = some (true, false) ∧
      full.up.onboard.length = 128 := by decide +kernel

/-! ## Witnesses: the clauses on grants and starts -/

theorem only_mayServe {s : State} {k j : Fin 256} {test : Station → Bool} (h : OnlyAt s.table k)
    (hm : mayServe s test j = true) : j = k := by
  by_contra hj
  unfold mayServe at hm
  rw [show s.station? j = none from h j hj] at hm
  cases hm

theorem first_after {s : State} {k : Fin 256} {test : Station → Bool} {may : Fin 256 → Prop} (ptr : Fin 256)
    (h : OnlyAt s.table k) (hm : ∀ j, mayServe s test j = true ↔ may j) (hk : mayServe s test k = true) :
    FirstAfter ptr k may := by
  refine ⟨(hm k).1 hk, fun i hi hmay => ?_⟩
  have he := only_mayServe h ((hm _).2 hmay)
  have : i = k - ptr - 1 := by rw [← he]; abel
  rw [this] at hi
  exact absurd hi (lt_irrefl _)

theorem nobody {s : State} {k : Fin 256} {test : Station → Bool} {may : Fin 256 → Prop} (h : OnlyAt s.table k)
    (hm : ∀ j, mayServe s test j = true ↔ may j) (hk : mayServe s test k = false) (j : Fin 256) : ¬ may j :=
    fun hmay => by
  have hj := (hm j).2 hmay
  rw [only_mayServe h hj, hk] at hj
  cases hj

theorem only_rotate {s : State} {k : Fin 256} {test : Station → Bool} (ptr : Fin 256) (h : OnlyAt s.table k) :
    rotate ptr (mayServe s test) = if mayServe s test k then some k else none := by
  cases hk : mayServe s test k
  · exact rotate_none (fun _ => Iff.rfl) (nobody h (fun _ => Iff.rfl) hk)
  · exact rotate_first (fun _ => Iff.rfl) (first_after ptr h (fun _ => Iff.rfl) hk)

theorem only_eligible {s : State} {k : Fin 256} (h : OnlyAt s.table k) : passengerEligible s =
    (match s.station? k with
    | some st => st.creditEligible || st.surplusEligible s.sched.surplus
    | none => false) := by
  rw [Bool.eq_iff_iff, passengerEligible_iff]
  constructor
  · rintro ⟨j, st, hs, hst⟩
    have : j = k := by
      by_contra hj
      rw [show s.station? j = none from h j hj] at hs
      cases hs
    subst this
    rw [hs]
    simp [Station.creditEligible, Station.surplusEligible, Station.classEligible]
    tauto
  · intro hst
    split at hst
    · rename_i st hs
      refine ⟨k, st, hs, ?_⟩
      simp [Station.creditEligible, Station.surplusEligible, Station.classEligible] at hst
      tauto
    · cases hst

/-- The local arbiter's answer in such a table. -/
def pickOnly (s : State) (k : Fin 256) : Option Pick :=
  let one := fun (test : Station → Bool) => if mayServe s test k then some k else none
  let service := ((one (Station.classEligible .operations)).map Pick.operations).or
    (((one (Station.classEligible .crew)).map Pick.crew).or (pickOnboard s))
  let credit := match runHolder s with
    | some k => some (Pick.credit k true)
    | none => (one Station.creditEligible).map (fun k => Pick.credit k false)
  let passengers := credit.or ((one (Station.surplusEligible s.sched.surplus)).map Pick.surplus)
  let eligible := match s.station? k with
    | some st => st.creditEligible || st.surplusEligible s.sched.surplus
    | none => false
  if guaranteeDue s && eligible then passengers.or service else service.or passengers

theorem only_pick {s : State} {k : Fin 256} (h : OnlyAt s.table k) : localPick s = pickOnly s k := by
  unfold localPick pickOperations pickCrew pickCredit pickSurplus passengersFirst
  simp only [only_rotate _ h, only_eligible h]
  rfl

theorem picks {s : State} (k : Fin 256) {p : Option Pick} (ho : OnlyAt s.table k) (hp : pickOnly s k = p) :
    localPick s = p :=
  (only_pick ho).trans hp

theorem passenger_waits {s : State} (k : Fin 256) (ho : OnlyAt s.table k)
    (h : (s.station? k).any (fun st => st.creditEligible || st.surplusEligible s.sched.surplus) = true) :
    PassengerWaits s := by
  rw [← passengerEligible_iff, only_eligible ho]
  cases hs : s.station? k <;> simp_all

theorem no_passenger {s : State} (k : Fin 256) (ho : OnlyAt s.table k)
    (h : (s.station? k).any (fun st => st.creditEligible || st.surplusEligible s.sched.surplus) = false) :
    ¬ PassengerWaits s := by
  rw [← passengerEligible_iff, only_eligible ho]
  cases hs : s.station? k <;> simp_all

theorem no_run {s : State} (h : runHolder s = none) (j : Fin 256) : ¬ RunGoesOn s j := fun hr => by
  rw [(runHolder_iff s j).2 hr] at h
  cases h

theorem waiting_only (credit surplus : Int) : OnlyAt (waiting credit surplus).table 2 := only_put _ (only_nobody 2)

/-- The state of `waiting` with the record of another class. -/
def serving (cls : StationClass) (g : UpwardService → UpwardService) : State :=
  { waiting 1 50 with table := (waiting 1 50).table.modStation 2 (fun st => { st with cls := cls })
                      up := g (waiting 1 50).up }

theorem serving_only (cls : StationClass) (g : UpwardService → UpwardService) : OnlyAt (serving cls g).table 2 :=
  only_mod _ (waiting_only 1 50)

/-- The same with its frame in the onboard queue, that of a passenger that is not eligible; or of one that is. -/
def boarding (credit : Int) (m count : Nat) : State :=
  let s := waiting credit 0
  let s := { s with table := s.table.modStation 2 (fun st => { st with upq := [6, 6] }) }
  { s with up := { onboard := [6], guarantee := count, run := some { holder := 2, granted := 3 } }
           sched := { s.sched with params := { s.sched.params with m := m } } }

theorem boarding_only (credit : Int) (m count : Nat) : OnlyAt (boarding credit m count).table 2 :=
  only_mod _ (waiting_only credit 0)

theorem waits_neither {s : State} {A B : Station → Prop} {j : Fin 256} (ha : ¬ Waits s A j) (hb : ¬ Waits s B j) :
    ¬ Waits s (fun st => A st ∨ B st) j := fun ⟨st, h1, h2, h3, h4, h5⟩ =>
  h5.elim (fun h => ha ⟨st, h1, h2, h3, h4, h⟩) (fun h => hb ⟨st, h1, h2, h3, h4, h⟩)

/-- The guarantee count at its top. -/
def fullCount (u : UpwardService) : UpwardService := { u with guarantee := 15 }

/-- The grants of the operations, crew and onboard groups, at the top of the guarantee count: with no passenger eligible,
and with one. -/
theorem witness_PassengerGrantDebits_groups :
    ReachesLast .ba (serving .operations fullCount) ∧
      Reads (withFaults [] (serving .operations fullCount)) 6 (.backbone .ba) ∧
      ¬ PassengerWaits (serving .operations fullCount) ∧ ReachesLast .ba (boarding 1 0 15) ∧
      PassengerWaits (boarding 1 0 15) ∧
      ¬ GuaranteeFirst (boarding 1 0 15) ∧
      localPick (withFaults [] (serving .operations fullCount)) = some (.operations 2) ∧
      localPick (withFaults [] (serving .crew fullCount)) = some (.crew 2) ∧
      localPick (withFaults [] (boarding 1 0 15)) = some .onboard ∧ (boarding 1 0 15).up.onboard = [6] :=
  ⟨reaches_last (by decide +kernel), reads (by decide +kernel),
    no_passenger 2 (serving_only _ fullCount) (by decide +kernel), reaches_last (by decide +kernel),
    passenger_waits 2 (boarding_only 1 0 15) (by decide +kernel), fun h => absurd h.1 (by decide +kernel),
    picks 2 (serving_only _ fullCount) (by decide +kernel),
    picks 2 (serving_only _ fullCount) (by decide +kernel),
    picks 2 (boarding_only 1 0 15) (by decide +kernel), by decide +kernel⟩

/-- The guarantee due, its one passenger with a frame in transmission, and an onboard frame of nobody. -/
def flyingFirst : State :=
  unit (.backbone .bb) (fun u => { u with tx := some (.frame 40) })
    (store 40 100 (some 2) true (cells (fun c => c.modFrame 6 (fun f => { f with station := none })) (boarding 1 1 1)))

theorem witness_PassengerGrantDebits_guarantee :
    GuaranteeFirst flyingFirst ∧ PassengerWaits flyingFirst ∧ localPick (withFaults [] flyingFirst) = some .onboard ∧
      flyingFirst.up.run.isSome = true ∧ flyingFirst.consist.lead = some .ba :=
  have hw := passenger_waits (s := flyingFirst) 2 (boarding_only 1 1 1) (by decide +kernel)
  ⟨⟨by decide +kernel, by decide +kernel, hw⟩, hw,
    picks 2 (boarding_only 1 1 1) (by decide +kernel), by decide +kernel, by decide +kernel⟩

/-- Every pointer at slot 2. -/
def at2 (u : UpwardService) : UpwardService := { u with opsPtr := 2, crewPtr := 2, creditPtr := 2, surplusPtr := 2 }

/-- The choice by rotation, each with the one record at the pointer itself, which comes last; operations, crew, credit,
surplus. -/
theorem witness_PassengerGrantDebits_rotation :
    FirstAfter 2 2 (Waits (serving .operations at2) (fun st => st.cls = .operations)) ∧
      FirstAfter 2 2 (Waits (serving .crew at2) (fun st => st.cls = .crew)) ∧
      (∀ j, ¬ Waits (serving .crew at2) (fun st => st.cls = .operations) j) ∧
      FirstAfter 2 2 (Waits (serving .passenger at2) (fun st => st.cls = .passenger ∧ 0 < st.credit)) ∧
      (∀ j, ¬ RunGoesOn (serving .passenger at2) j) ∧
      FirstAfter 2 2 (Waits (waiting 0 1) (fun st => st.cls = .passenger ∧ 0 < (waiting 0 1).sched.surplus)) ∧
      (∀ j, ¬ Waits (waiting 0 1) (fun st => st.cls = .passenger ∧ 0 < st.credit) j) :=
  ⟨first_after 2 (serving_only .operations at2) (mayServe_class _ _) (by decide +kernel),
    first_after 2 (serving_only .crew at2) (mayServe_class _ _) (by decide +kernel),
    nobody (serving_only .crew at2) (mayServe_class _ _) (by decide +kernel),
    first_after 2 (serving_only .passenger at2) (mayServe_credit _) (by decide +kernel), no_run (by decide +kernel),
    first_after 2 (waiting_only 0 1) (mayServe_surplus _) (by decide +kernel),
    nobody (waiting_only 0 1) (mayServe_credit _) (by decide +kernel)⟩

/-- A run of 7 frames. -/
def run7 : State :=
  { waiting 1 0 with
    table := (waiting 1 0).table.modStation 2 (fun st => { st with shaping := { mode := .run } })
    up := { creditPtr := 2, run := some { holder := 2, granted := 7 } } }

theorem run7_only : OnlyAt run7.table 2 := only_mod _ (waiting_only 1 0)

/-- A run of 7 frames goes on, with nobody of the operations and crew groups and no onboard frame; the guarantee at 1 with
a count of 1; an onboard frame; a part with nothing waiting. -/
theorem witness_PassengerGrantDebits_choice :
    RunGoesOn run7 2 ∧ ¬ OnboardWaits run7 ∧
      (∀ j, ¬ Waits run7 (fun st => st.cls = .operations ∨ st.cls = .crew) j) ∧ GuaranteeFirst (boarding 1 1 1) ∧
      OnboardWaits (boarding 0 0 0) ∧ ¬ OnboardWaits s0 ∧
      (∀ j, ¬ Waits s0 (fun st => st.cls = .passenger ∧ 0 < s0.sched.surplus) j) ∧ ¬ GuaranteeFirst s0 :=
  ⟨(runHolder_iff _ _).1 (by decide +kernel), (pickOnboard_none _).1 (by decide +kernel),
    fun j => waits_neither (nobody run7_only (mayServe_class _ _) (by decide +kernel) j)
      (nobody run7_only (mayServe_class _ _) (by decide +kernel) j),
    ⟨by decide +kernel, by decide +kernel, passenger_waits 2 (boarding_only 1 1 1) (by decide +kernel)⟩,
    (pickOnboard_some _).1 (by decide +kernel), (pickOnboard_none _).1 (by decide +kernel),
    nobody (only_nobody 0) (mayServe_surplus _) (by decide +kernel), fun h => absurd h.2.1 (by decide +kernel)⟩

/-- A lead end, or one that is not, with a transit queue of `n` entries of frame 7 behind frame 40. -/
def through (lead : Option End) (n : Nat) (s : State) : State :=
  let s := atEnd .ba (fun e => { e with transit := 40 :: List.replicate n 7 }) (store 40 100 none false s)
  { atEnd .bb (fun e => { e with outstanding := true, repeatAt := some 100 }) s with
    consist := { carriage := 0, lead := lead } }

/-- An alternation and a streak set on BA. -/
def alternates (n streak : Nat) (last : Bool) (s : State) : State :=
  atEnd .ba (fun e => { e with streak := streak, lastTransit := last })
    { s with sched := { s.sched with params := { s.sched.params with n := n } } }

/-- Transit alone; with a local frame at N = 0 after a local one, and at a streak one below N = 7; local chosen at N = 0
after a transit one and at a streak of N; an end that is not the lead; queues of 63 and of 64 entries behind the head; a
start that fails. -/
theorem witness_PassengerGrantDebits_transit :
    ReachesLast .ba (through (some .ba) 63 s0) ∧
      ReachesLast .ba (alternates 7 6 true (through (some .ba) 64 (waiting 1 0))) ∧
      ReachesLast .ba (through (some .bb) 0 s0) ∧ Reads (withFaults [] (through (some .ba) 63 s0)) 40 (.backbone .ba) ∧
      localPick (withFaults [] (through (some .ba) 63 s0)) = none ∧
      localPick (withFaults [] (alternates 7 6 true (through (some .ba) 64 (waiting 1 0)))) = some (.credit 2 false) ∧
      (((through (some .ba) 63 s0).ports.endOf .ba).transit = 40 :: List.replicate 63 7 ∧
        ((through (some .ba) 63 s0).ports.endOf (End.ba).other).outstanding = true ∧
        ((alternates 7 6 true (through (some .ba) 64 (waiting 1 0))).ports.endOf .ba).streak < 7 ∧
        ((alternates 0 0 false (through (some .ba) 0 (waiting 1 0))).ports.endOf .ba).lastTransit = false ∧
        (alternates 0 0 false (through (some .ba) 0 (waiting 1 0))).sched.params.n = 0 ∧
        ((alternates 0 0 true (through (some .ba) 0 (waiting 1 0))).ports.endOf .ba).lastTransit = true ∧
        (alternates 7 7 true (through (some .ba) 0 (waiting 1 0))).sched.params.n ≤
          ((alternates 7 7 true (through (some .ba) 0 (waiting 1 0))).ports.endOf .ba).streak ∧
        (through (some .bb) 0 s0).consist.lead ≠ some .ba ∧
        ((through (some .ba) 63 s0).hub.cells.frame? 40).map (fun f =>
          ((withFaults [{ cell := 40, error := .multi }] (through (some .ba) 63 s0)).hub.readFrame f
            (some (.backbone .ba))).1) = some [40]) :=
  ⟨reaches_last (by decide +kernel), reaches_last (by decide +kernel), reaches_last (by decide +kernel),
    reads (by decide +kernel), picks 0 (only_nobody 0) (by decide +kernel),
    picks 2 (waiting_only 1 0) (by decide +kernel), by decide +kernel⟩

/-- Nothing to send: an end that is no lead, and a lead end with no local frame. -/
theorem witness_PassengerGrantDebits_idle :
    ReachesLast .ba s0 ∧ ReachesLast .ba { s0 with consist := { carriage := 0, lead := some .ba } } ∧
      localPick (withFaults [] { s0 with consist := { carriage := 0, lead := some .ba } }) = none ∧
      ((s0.ports.endOf .ba).transit = [] ∧ s0.consist.lead ≠ some .ba) :=
  ⟨reaches_last (by decide +kernel), reaches_last (by decide +kernel),
    picks 0 (only_nobody 0) (by decide +kernel), by decide +kernel⟩

/-- Whether the reading of the frame `id` on a port fails with the cells `bad`. -/
def fails (fs : List CellFault) (id : Nat) (p : Port) (bad : List Nat) (s : State) : Bool :=
  match s.hub.cells.frame? id with
  | some f => decide (((withFaults fs s).hub.readFrame f (some p)).1 = bad)
  | none => false

/-- A release pending on a held end, and a held end with nothing pending. -/
theorem witness_EgressHeadStarts_hold :
    let release := atEnd .ba (fun e => { e with pendingHold := some 0 }) heldEnd
    CanStart (.backbone .ba) release ∧ CanStart (.backbone .ba) heldEnd ∧
      ((release.ports.endOf .ba).pendingHold = some 0 ∧ (heldEnd.ports.endOf .ba).pendingHold = none ∧
        (heldEnd.ports.endOf .ba).heldUntil ≠ none) :=
  ⟨by unfold CanStart; decide +kernel, by unfold CanStart; decide +kernel, by decide +kernel⟩

/-- A reply built for BA, and one for a CREW_MAINT seat port, which read well; and readings that fail: of the head of a seat
port and of a radio link, of a reply. -/
theorem witness_EgressHeadStarts_reply :
    let crew := after (.readStatus []) (crewAsks 0x14 [])
    CanStart (.backbone .ba) answered ∧ Reads (withFaults [] answered) 0 (.backbone .ba) ∧ CanStart (.seat 1) crew ∧
      ((answered.ports.endOf .ba).pendingHold = none ∧ (answered.ports.endOf .ba).heldUntil = none ∧
        repliesFor answered.hub.mgmt (.backbone .ba) = [0] ∧ answered.hub.mgmt.slots[0] = .built statusHeader 0 ∧
        repliesFor crew.hub.mgmt (.seat 1) = [0] ∧
        (crew.hub.mgmt.slots[0]).header?.map (·.port) = some (.seat 1) ∧
        fails [{ cell := 0, error := .multi }] 0 (.backbone .ba) [0] answered = true ∧
        fails [{ cell := 7, error := .multi }] 7 (.seat 31) [7] outward = true ∧
        fails [{ cell := 7, error := .multi }] 7 (.radio 3) [7] outward = true) :=
  ⟨by unfold CanStart; decide +kernel, reads (by decide +kernel), by unfold CanStart; decide +kernel, by decide +kernel⟩

/-- The lead end BA with a notice at the head of the queue and `n` behind it, a lost count and a free stack. -/
def notifies (lost n : Nat) (free : List Nat) : State :=
  cells (fun c => { c with free := free }) (mgmt (fun m => { m with
    reportAddr := some srv, lost := lost, notices := 40 :: List.range n })
    { store 40 64 none false s0 with consist := { carriage := 0, lead := some .ba } })

/-- No lost count; one of 1 with 11 notices left and a cell, with no cell, and (in a state past the capacity) with 12 left;
and a reading that fails. -/
theorem witness_EgressHeadStarts_notice :
    let n := cellsFor ((mgmtFrame srv s0.identity 0x4B 0 0 0 (Notice.noticesLost 1).body).length + 4)
    CanStart (.backbone .ba) (notifies 1 11 [5]) ∧ Reads (withFaults [] (notifies 1 11 [5])) 40 (.backbone .ba) ∧
      ((notifies 1 11 [5]).consist.lead = some .ba ∧ ((notifies 1 11 [5]).ports.endOf .ba).pendingHold = none ∧
        ((notifies 1 11 [5]).ports.endOf .ba).heldUntil = none ∧
        repliesFor (notifies 1 11 [5]).hub.mgmt (.backbone .ba) = [] ∧
        (notifies 1 11 [5]).hub.mgmt.notices = 40 :: List.range 11 ∧
        (notifies 1 11 [5]).hub.mgmt.reportAddr = some srv ∧ 0 < (notifies 1 11 [5]).hub.mgmt.lost ∧
        (notifies 0 11 [5]).hub.mgmt.lost = 0 ∧ (List.range 11).length < 12 ∧ 12 ≤ (List.range 12).length ∧
        n ≤ (afterReading (withFaults [] (notifies 1 11 [5])) 40 (.backbone .ba)).cells.free.length ∧
        (afterReading (withFaults [] (notifies 1 11 [])) 40 (.backbone .ba)).cells.free.length < n ∧
        fails [{ cell := 40, error := .multi }] 40 (.backbone .ba) [40] (notifies 1 11 [5]) = true) :=
  ⟨by unfold CanStart; decide +kernel, reads (by decide +kernel), by decide +kernel⟩

/-- A frame in two entries of a seat port, one of a radio link, two of a transit queue, one of the onboard queue and one of
the input queue, with a count. -/
def spread (refs : Nat) : State :=
  let s := cells (fun c => c.modFrame 7 (fun f => { f with refs := refs })) outward
  let s := mgmt (fun m => { m with input := [{ id := 7, level := .server, port := .backbone .ba }] }) s
  let s := { s with
    ports := s.ports.modSeat 31 (fun q => { q with egress := [7, 9, 7] })
    up := { s.up with onboard := [9, 7] } }
  atEnd .ba (fun e => { e with outstanding := true }) (atEnd .bb (fun e => { e with transit := 7 :: List.range 65 }) s)

/-- The entry in hand and seven others; no transmission in progress, and one; a queue that falls to 64 and one that
falls below. -/
theorem witness_EgressHeadStarts_failed :
    (∀ j st, (spread 8).station? j = some st → 7 ∉ st.upq) ∧
      (entriesOf (spread 8) 7 = 7 ∧ ((spread 8).hub.cells.frame? 7).map (·.refs) = some (1 + 7) ∧
        ((spread 9).hub.cells.frame? 7).map (·.refs) = some (1 + 7 + 1) ∧ (spread 8).hub.mgmt.reportAddr = none ∧
        ((spread 8).ports.endOf .ba).outstanding = true ∧
        (((spread 8).ports.endOf (End.ba).other).transit.filter (fun j => decide (j ≠ 7))).length = 64 ∧
        (((atEnd .bb (fun e => { e with transit := 7 :: List.range 64 }) (spread 8)).ports.endOf
          (End.ba).other).transit.filter (fun j => decide (j ≠ 7))).length < 64) :=
  ⟨(fun j st hs => by
    have : (spread 8).station? j = none := by
      show (Vector.replicate 256 (none : Option Station))[j] = none
      simp
    rw [this] at hs
    cases hs), by decide +kernel⟩

/-! ## Witnesses: the clauses on backbone frames, notices and the parked snapshot -/

theorem only_live {s : State} {k : Fin 256} {st : Station} (h : OnlyAt s.table k) (hs : s.station? k = some st)
    {P : Station → Prop} : (∃ j r, s.station? j = some r ∧ P r) ↔ P st := by
  constructor
  · rintro ⟨j, r, hj, hr⟩
    have he : j = k := by
      by_contra hn
      rw [show s.station? j = none from h j hn] at hj
      cases hj
    subst he
    rw [hs] at hj
    cases hj
    exact hr
  · exact fun hp => ⟨k, st, hs, hp⟩

theorem inState_only (x : StationState) (al : Option Allowance) : OnlyAt (inState x al).table 2 :=
  only_put _ (only_nobody 2)

/-- A broadcast, and a broadcast management frame. -/
def broadcast : List Byte := netFrame everyone srv 0 0 100

def broadcastRequest : List Byte := mgmtFrame everyone srv 0x14 0 7 0 [] ++ [0, 0, 0, 0]

/-- The one live seat port with a queue of 63. -/
def twoCopies : State :=
  { inState .held none with
    ports := (inState .held none).ports.modSeat 7 (fun q => { q with egress := List.replicate 63 77 }) }

/-- A queue of 63 at the one live seat port, and room in transit: two entries. -/
theorem witness_TransitIsChecked_group :
    let s := twoCopies
    Arrives (.backbone .ba) broadcast true s [0] (end1 (.backbone .ba) broadcast.length s) ∧
      (typeOf broadcast ≠ typeHold ∧ typeOf broadcast ≠ typeMgmt ∧ dstOf broadcast ≠ s0.identity ∧
        isGroup (dstOf broadcast) = true ∧ ∀ g ∈ (end1 (.backbone .ba) broadcast.length s).hub.cells.frames, g.id ≠ 0) ∧
      TransitCheck s (End.ba).other none ∧
      (∀ n : Fin 32, n ∈ [7] ↔ (∃ k st, s.station? k = some st ∧ st.origin = .seat n ∧
        (st.state = .held ∨ st.state = .admitted ∨ st.state = .spent)) ∧ (s.ports.seats[n]).egress.length < 64) ∧
      (∀ n : Fin 32, n ∈ [] ↔ (∃ k st, s.station? k = some st ∧ st.origin = .seat n ∧
        (st.state = .held ∨ st.state = .admitted ∨ st.state = .spent)) ∧ 64 ≤ (s.ports.seats[n]).egress.length) ∧
      (∀ w : Fin 4, ¬ ∃ k st, s.station? k = some st ∧ (∃ i, st.origin = .radio w i) ∧
        (st.state = .held ∨ st.state = .admitted ∨ st.state = .spent)) :=
  have h : OnlyAt twoCopies.table 2 := inState_only .held none
  ⟨arrives (by decide +kernel), by decide +kernel, by unfold TransitCheck; decide +kernel,
    fun n => by rw [only_live h rfl]; revert n; decide +kernel,
    fun n => by rw [only_live h rfl]; revert n; decide +kernel,
    fun w => by
      rw [only_live h rfl]
      rintro ⟨⟨i, hi⟩, -⟩
      cases hi⟩

/-- The one live radio link with a queue of 64, and BB DOWN. -/
def noCopies : State :=
  { atIndex63 .held with
    ports := ((atIndex63 .held).ports.modEnd .bb (fun e => { e with unit := { e.unit with link := .down } })).modRadio 1
      (fun q => { q with egress := List.replicate 64 { id := 77, index := 63 } }) }

/-- A queue of 64 at the one live radio link, and the other end DOWN: no entry, and no report address. -/
theorem witness_TransitIsChecked_group_none :
    let s := noCopies
    Arrives (.backbone .ba) broadcast true s [0] (end1 (.backbone .ba) broadcast.length s) ∧
      TransitCheck s (End.ba).other (some .endDown) ∧ s.hub.mgmt.reportAddr = none ∧
      (∀ n : Fin 32, ¬ ∃ k st, s.station? k = some st ∧ st.origin = .seat n ∧
        (st.state = .held ∨ st.state = .admitted ∨ st.state = .spent)) ∧
      (∀ w : Fin 4, w ∈ [] ↔ (∃ k st, s.station? k = some st ∧ (∃ i, st.origin = .radio w i) ∧
        (st.state = .held ∨ st.state = .admitted ∨ st.state = .spent)) ∧ (s.ports.radios[w]).egress.length < 64) ∧
      (∀ w : Fin 4, w ∈ [1] ↔ (∃ k st, s.station? k = some st ∧ (∃ i, st.origin = .radio w i) ∧
        (st.state = .held ∨ st.state = .admitted ∨ st.state = .spent)) ∧ 64 ≤ (s.ports.radios[w]).egress.length) :=
  have h : OnlyAt noCopies.table 2 := atIndex63_only .held
  have one : ∀ w : Fin 4, (∃ i, (seated .passenger .held (.radio 1 63)).origin = .radio w i) ↔ w = 1 := fun w => by
    constructor
    · rintro ⟨i, hi⟩
      cases hi
      rfl
    · rintro rfl
      exact ⟨63, rfl⟩
  ⟨arrives (by decide +kernel), by unfold TransitCheck; decide +kernel, rfl,
    (fun n => by
      rw [only_live h rfl]
      rintro ⟨hi, -⟩
      cases hi),
    fun w => by rw [only_live h rfl, one]; revert w; decide +kernel,
    fun w => by rw [only_live h rfl, one]; revert w; decide +kernel⟩

/-- An input queue of 4. -/
def fullInput (s : State) : State :=
  mgmt (fun m => { m with input := List.replicate 4 { id := 77, level := .server, port := .backbone .bb } }) s

/-- Requests to the part from an end and from a CREW_MAINT seat port, and a broadcast one, with an input queue of 3 or
fewer and of 4; the transit checks of it: passed, and the other end DOWN. -/
theorem witness_TransitIsChecked_requests :
    let f := request srv 0x14 []
    let maint := { up (.seat 1) s0 with
      ports := (up (.seat 1) s0).ports.modSeat 1 (fun q => { q with designation := .crewMaint }) }
    let down := fullInput (up (.backbone .ba) State.reset)
    Arrives (.backbone .ba) f true s0 [0] (end1 (.backbone .ba) f.length s0) ∧
      Arrives (.backbone .ba) f true (fullInput s0) [0] (end1 (.backbone .ba) f.length (fullInput s0)) ∧
      Arrives (.seat 1) f true maint [0] (end1 (.seat 1) f.length maint) ∧
      Arrives (.seat 1) f true (fullInput maint) [0] (end1 (.seat 1) f.length (fullInput maint)) ∧
      Arrives (.backbone .ba) broadcastRequest true s0 [0] (end1 (.backbone .ba) broadcastRequest.length s0) ∧
      Arrives (.backbone .ba) broadcastRequest true down [0] (end1 (.backbone .ba) broadcastRequest.length down) ∧
      TransitCheck s0 (End.ba).other none ∧ TransitCheck down (End.ba).other (some .endDown) ∧
      (typeOf f = typeMgmt ∧ dstOf f = s0.identity ∧ (maint.ports.seats[1]).designation = .crewMaint ∧
        (end1 (.backbone .ba) f.length s0).hub.mgmt.input = [] ∧
        (end1 (.backbone .ba) f.length (fullInput s0)).hub.mgmt.input.length = 4 ∧
        (end1 (.seat 1) f.length (fullInput maint)).hub.mgmt.input.length = 4 ∧
        typeOf broadcastRequest = typeMgmt ∧ dstOf broadcastRequest ≠ s0.identity ∧
        isGroup (dstOf broadcastRequest) = true ∧ down.hub.mgmt.reportAddr = none ∧
        (end1 (.backbone .ba) broadcastRequest.length down).hub.cells.frames = []) :=
  ⟨arrives (by decide +kernel), arrives (by decide +kernel), arrives (by decide +kernel), arrives (by decide +kernel),
    arrives (by decide +kernel), arrives (by decide +kernel), by unfold TransitCheck; decide +kernel,
    by unfold TransitCheck; decide +kernel, by decide +kernel⟩

/-- The station of the worked example of chapter 6 in a state. -/
def onSeat7 (x : StationState) : State := put 9 { lean with state := x } (up (.seat 7) s0)

theorem onSeat7_only (x : StationState) : OnlyAt (onSeat7 x).table 9 :=
  only_put _ (by rw [up_table]; exact only_nobody 9)

theorem onSeat7_found (a : LinkAddr) (x : StationState) (h : a = sta := by decide +kernel) :
    (onSeat7 x).table.byAddr a = some 9 := by
  have hs : (onSeat7 x).table.station? 9 = some { lean with state := x } := by
    simp [onSeat7, put, StationTable.station?]
  rw [only_byAddr (onSeat7_only x), h]
  simp [hs, lean, seated, newStation]

/-- A frame to it of a length. -/
def downward (len : Nat) : List Byte := netFrame sta srv 0x0A140C09 1 len

/-- A charge of all of the current allowance, and of one byte more. -/
theorem witness_DownwardIsEnteredAndCharged_exhausts :
    let s := onSeat7 .admitted
    Arrives (.backbone .ba) (downward 800) true s [0, 1, 2, 3] (end1 (.backbone .ba) (downward 800).length s) ∧
      Arrives (.backbone .ba) (downward 801) true s [0, 1, 2, 3] (end1 (.backbone .ba) (downward 801).length s) ∧
      s.table.byAddr (dstOf (downward 800)) = some 9 ∧
      (typeOf (downward 800) ≠ typeHold ∧ typeOf (downward 800) ≠ typeMgmt ∧ dstOf (downward 800) ≠ s0.identity ∧
        isGroup (dstOf (downward 800)) = false ∧
        (s.station? 9).map (fun st => decide (downwardDiscard (end1 (.backbone .ba) (downward 800).length s) st
          (classify s.windows st false (netAddr (downward 800) false)) = none)) = some true ∧
        (s.station? 9).map (fun st => (classify s.windows st false (netAddr (downward 800) false)).metered) =
          some true ∧
        (s.station? 9).bind (·.allowance) =
          some { base := 50000, current := 800, renew := false, renewals := 0, overrun := 0 } ∧
        ∀ g ∈ (end1 (.backbone .ba) (downward 800).length s).hub.cells.frames, g.id ≠ 0) :=
  ⟨arrives (by decide +kernel), arrives (by decide +kernel), onSeat7_found _ _,
    by decide +kernel⟩

/-- A LEAVING record and a barred one; a window that refuses; a metered frame to a HELD record; PRESSURE; an egress queue
of 64. -/
theorem witness_DownwardIsEnteredAndCharged_discards :
    let f := downward 100
    let shut := { onSeat7 .admitted with windows := s0.windows.set 8 { set := WindowSettings.closed } }
    let pressed := cells (fun c => { c with pressure := .pressure }) (onSeat7 .admitted)
    let full := { onSeat7 .admitted with
      ports := (onSeat7 .admitted).ports.modSeat 7 (fun q => { q with egress := List.replicate 64 77 }) }
    Arrives (.backbone .ba) f true (onSeat7 (.leaving .aged)) [0]
        (end1 (.backbone .ba) f.length (onSeat7 (.leaving .aged))) ∧
      Arrives (.backbone .ba) f true (onSeat7 (.barred .spent)) [0]
        (end1 (.backbone .ba) f.length (onSeat7 (.barred .spent))) ∧
      Arrives (.backbone .ba) f true shut [0] (end1 (.backbone .ba) f.length shut) ∧
      Arrives (.backbone .ba) f true (onSeat7 .spent) [0] (end1 (.backbone .ba) f.length (onSeat7 .spent)) ∧
      Arrives (.backbone .ba) f true pressed [0] (end1 (.backbone .ba) f.length pressed) ∧
      Arrives (.backbone .ba) f true full [0] (end1 (.backbone .ba) f.length full) ∧
      (∀ x, (onSeat7 x).table.byAddr (dstOf f) = some 9) ∧
      (((onSeat7 (.leaving .aged)).station? 9).map (·.isLeaving) = some true ∧
        ((onSeat7 (.barred .spent)).station? 9).map (·.state) = some (.barred .spent) ∧
        (shut.station? 9).map (fun st => (classify shut.windows st false (netAddr f false)).permitted) = some false ∧
        ((onSeat7 .spent).station? 9).map (fun st => let r := classify s0.windows st false (netAddr f false)
          (r.permitted, r.metered)) = some (true, true) ∧
        (end1 (.backbone .ba) f.length pressed).hub.cells.pressure = .pressure ∧
        (end1 (.backbone .ba) f.length full).hub.cells.pressure = .normal ∧ (full.ports.seats[7]).egress.length = 64) :=
  ⟨arrives (by decide +kernel), arrives (by decide +kernel), arrives (by decide +kernel), arrives (by decide +kernel),
    arrives (by decide +kernel), arrives (by decide +kernel), onSeat7_found _,
    by decide +kernel⟩

/-- A lost count of 1 with 10 notices and two cells, with 11, with 12, with one cell and with none; no lost count and no
cell. -/
theorem witness_NoticeIsQueuedOrLost_loses :
    let h (lost n : Nat) (free : List Nat) : Hub := (cells (fun c => { c with free := free }) (mgmt (fun m => { m with
      reportAddr := some srv, lost := lost, notices := List.range n }) s0)).hub
    let up0 := Notice.link (.seat 0) .up
    let one := cellsFor ((mgmtFrame srv 0 up0.code 0 0 0 up0.body).length + 4)
    let loss := cellsFor ((mgmtFrame srv 0 (Notice.noticesLost 1).code 0 0 0 (Notice.noticesLost 1).body).length + 4)
    StackOk { State.reset with hub := h 1 10 [5, 6] } ∧ StackOk { State.reset with hub := h 1 11 [5, 6] } ∧
      StackOk { State.reset with hub := h 1 10 [5] } ∧
      ((h 1 10 [5, 6]).mgmt.reportAddr = some srv ∧ 0 < (h 1 10 [5, 6]).mgmt.lost ∧
        (h 1 10 [5, 6]).mgmt.notices.length < 11 ∧ loss + one ≤ (h 1 10 [5, 6]).cells.free.length ∧
        3072 - ((h 1 10 [5, 6]).cells.free.length - (loss + one)) - (h 1 10 [5, 6]).cells.retired.length <
          (h 1 10 [5, 6]).cells.high ∧
        (h 1 11 [5, 6]).mgmt.notices.length = 11 ∧ 12 ≤ (h 1 12 [5, 6]).mgmt.notices.length ∧
        loss ≤ (h 1 10 [5]).cells.free.length ∧ (h 1 10 [5]).cells.free.length < loss + one ∧
        (h 1 10 []).cells.free.length < loss ∧ (h 0 10 []).mgmt.lost = 0 ∧ (h 0 10 []).cells.free.length < one) :=
  ⟨⟨by decide +kernel, by decide +kernel⟩, ⟨by decide +kernel, by decide +kernel⟩,
    ⟨by decide +kernel, by decide +kernel⟩, by decide +kernel⟩

/-- A SNAPSHOT parked in slot 3, the only one: at an expiry in RUNNING, and with a START, a STOP and a RESTART at the head
of the input queue, in RUNNING and in STOPPED. -/
theorem witness_SnapshotIsTakenOrParks_parked :
    (∃ h, (running (parked .snapshot)).hub.mgmt.slots[3] = .parked h .snapshot) ∧
      (∀ j : Fin 4, j < 3 → ((running (parked .snapshot)).hub.mgmt.slots[j]).isSnapshot = false) ∧
      (running (parked .snapshot)).sched.running = true ∧ (parked .snapshot).sched.running = false ∧
      Meets (ask 0x0B [3] (running (parked .snapshot))) 0x0B (fun rq => rq.num 0 1 = 3) ∧
      Meets (ask 0x0B [2] (running (parked .snapshot))) 0x0B (fun rq => rq.num 0 1 = 2) ∧
      Meets (ask 0x0B [1] (parked .snapshot)) 0x0B (fun rq => rq.num 0 1 = 1) ∧
      Meets (ask 0x0B [3] (parked .snapshot)) 0x0B (fun rq => rq.num 0 1 = 3) ∧
      (ask 0x0B [3] (running (parked .snapshot))).hub.mgmt.slots = (parked .snapshot).hub.mgmt.slots := by
  refine ⟨⟨_, rfl⟩, by decide +kernel, rfl, by decide +kernel, ?_, ?_, ?_, ?_, by decide +kernel⟩ <;>
    exact meets (by decide +kernel)

/-! ## Witnesses: the clauses on lost links, receptions, requests that end at the take, and the bytes of the views -/

/-- The record in slot 2 with an upward frame in transmission on BA, its cell the one cell that is not free. -/
def aloft (o : Origin) : State :=
  cells (fun c => { c with free := (List.range 3071).map (· + 1) }) (unit (.backbone .ba)
    (fun u => { u with tx := some (.frame 0) })
    (store 0 100 (some 2) true (put 2 (seated .passenger .admitted o) (up (.radio 1) (up (.seat 3) s0)))))

theorem aloft_cells {o : Origin} (h : receptionCells (aloft o).ports = []) : CellsOk (aloft o) := by
  have h1 : (aloft o).hub.cells.free = (List.range 3071).map (· + 1) := by simp only [aloft, cells]
  have h2 : frameCells (aloft o).hub.cells = [0] := by simp only [aloft, cells, frameCells]; rfl
  have h4 : (aloft o).hub.cells.retired = [] := rfl
  refine ⟨?_, fun f hf => ?_⟩
  · rw [h1, h2, h, h4]
    exact all_but_zero 3071
  · obtain rfl := List.mem_singleton.mp hf
    exact ⟨by decide, fun x hx => by cases hx⟩

theorem aloft_table (o : Origin) (k : Fin 256) (st : Station) (h : (aloft o).station? k = some st) :
    k = 2 ∧ st = seated .passenger .admitted o := by
  have h2 : (aloft o).table.station? 2 = some (seated .passenger .admitted o) := by
    simp [aloft, cells, unit, store, put, StationTable.station?]
  by_cases hk : k = 2
  · subst hk
    exact ⟨rfl, (Option.some.inj (h2.symm.trans h)).symm⟩
  · have : (aloft o).station? k = none := by
      show (aloft o).table.station? k = none
      simp only [aloft, cells, unit_table, store_table]
      refine only_put _ ?_ k hk
      rw [up_table, up_table]
      exact only_nobody 2
    rw [this] at h
    cases h

theorem aloft_onAir {o : Origin} (h : entriesOf (aloft o) 0 = 0)
    (hn : ∀ n : Fin 32, ((aloft o).ports.seats[n]).unit.tx.bind Transmission.frame? ≠ some 0)
    (hw : ∀ w : Fin 4, ((aloft o).ports.radios[w]).unit.tx.bind Transmission.frame? ≠ some 0) : OnlyOnAir (aloft o) 2 :=
  ⟨.ba, 0, _, rfl, rfl, rfl, h, fun j st hs => by rw [(aloft_table o j st hs).2]; exact List.not_mem_nil,
    (fun j g hj => by
      have : (aloft o).hub.mgmt.slots[j] = ReplySlot.free := by
        show (Vector.replicate 4 ReplySlot.free)[j] = _
        simp
      rw [this] at hj
      cases hj), hn, hw⟩

/-- Records of a seat port and of a radio: LEAVING; alone with nothing queued; behind a frame in transmission. -/
theorem witness_AttachmentLinkGoesDown_records :
    (seated .passenger (.leaving .aged) (.seat 3)).isLeaving = true ∧
      (busy.table.onSeat 3 = [2] ∧ busy.table.onRadio 1 = [4] ∧ inFlight busy 2 = false ∧ inFlight busy 4 = false ∧
        (busy.station? 2).map (fun st => (st.isLeaving, st.upq, st.origin)) = some (false, [], .seat 3) ∧
        (busy.station? 4).map (fun st => (st.isLeaving, st.upq, st.origin)) = some (false, [], .radio 1 9) ∧
        (busy.ports.seats[3]).egress = [] ∧ (busy.ports.radios[1]).egress = [] ∧ (busy.ports.seats[3]).unit.tx = none ∧
        (busy.ports.radios[1]).unit.tx = none ∧ (busy.ports.seats[3]).unit.rx = .idle ∧
        (busy.ports.radios[1]).unit.rx = .idle ∧ repliesFor busy.hub.mgmt (.seat 3) = [] ∧
        parkedRelease busy.hub.mgmt 2 = none ∧ parkedRelease busy.hub.mgmt 4 = none) ∧
      (∀ o ∈ [.seat 3, .radio 1 63], CellsOk (aloft o) ∧ OnlyOnAir (aloft o) 2) ∧
      (((aloft (.seat 3)).ports.seats[3]).unit.link = .up ∧ ((aloft (.radio 1 63)).ports.radios[1]).unit.link = .up ∧
        (aloft (.seat 3)).station? 2 = some (seated .passenger .admitted (.seat 3)) ∧
        (aloft (.radio 1 63)).station? 2 = some (seated .passenger .admitted (.radio 1 63))) :=
  ⟨rfl, by decide +kernel, (by
      intro o ho
      simp only [List.mem_cons, List.not_mem_nil, or_false] at ho
      rcases ho with rfl | rfl <;>
        exact ⟨aloft_cells (by decide +kernel), aloft_onAir (by decide +kernel) (by decide +kernel) (by decide +kernel)⟩),
    by decide +kernel⟩

/-- Whether a frame of a length ends as one that was lost. -/
def lostB (p : Port) (len : Nat) (s : State) : Bool := canEnd p len s && decide ((endReception p len s).1 = none)

/-- The same reception on a seat port, a radio link and BA, all UP. -/
def receiving (r : Reception) : State :=
  let set (p : Port) := unit p (fun u => { u with rx := r })
  set (.seat 3) (set (.radio 1) (set (.backbone .ba) (up (.radio 1) (up (.seat 3) s0))))

/-- The end of a reception: with the two cells that 512 bytes need; with one fewer than 513 do; from none; discarded. -/
theorem witness_ReceptionTakesCells_end :
    (taking.ports.unitOf (.backbone .ba)).rx = .taking [0, 1] ∧ ([0, 1] : List Nat).length = cellsFor 512 ∧
      ([0, 1] : List Nat).length < cellsFor 513 ∧ (taking.ports.unitOf (.backbone .ba)).link = .up ∧
      (s0.ports.unitOf (.backbone .ba)).rx = .idle ∧ ([] : List Nat).length < cellsFor 1 ∧
      ((receiving .dropping).ports.unitOf (.seat 3)).rx = .dropping ∧
      lostB (.seat 3) 64 (receiving .dropping) = true ∧ lostB (.radio 1) 64 (receiving .dropping) = true ∧
      lostB (.backbone .ba) 64 (receiving .dropping) = true := by decide +kernel

/-- Whether a frame ends on `p` with a chain and fails its checks. -/
def badB (p : Port) (f : List Byte) (ok : Bool) (s : State) (chain : List Nat) : Bool :=
  canEnd p f.length s && decide ((endReception p f.length s).1 = some chain) &&
    (!ok || decide (f.length < 64) || decide (1536 < f.length))

theorem arrivesBad {p : Port} {f : List Byte} {ok : Bool} {s : State} {chain : List Nat}
    (h : badB p f ok s chain = true) : ArrivesBad p f ok s chain (endReception p f.length s).2 := by
  simp only [badB, Bool.and_eq_true, decide_eq_true_eq, Bool.or_eq_true, Bool.not_eq_true'] at h
  exact ⟨h.1.1, Prod.ext h.1.2 rfl, or_assoc.mp h.2⟩

/-- The frames that fail their checks on a port: the wire check of the shortest; 63 bytes; 1537 bytes. -/
def AllBad (p : Port) : Prop :=
  let s := receiving .idle
  ArrivesBad p (List.replicate 64 0) false s [0] (end1 p 64 s) ∧
    ArrivesBad p (List.replicate 63 0) true s [0] (end1 p 63 s) ∧
    ArrivesBad p (List.replicate 1537 0) true s [0, 1, 2, 3, 4, 5, 6] (end1 p 1537 s)

theorem all_bad (p : Port) (h1 : badB p (List.replicate 64 0) false (receiving .idle) [0] = true)
    (h2 : badB p (List.replicate 63 0) true (receiving .idle) [0] = true)
    (h3 : badB p (List.replicate 1537 0) true (receiving .idle) [0, 1, 2, 3, 4, 5, 6] = true) : AllBad p := by
  have e1 := arrivesBad h1
  have e2 := arrivesBad h2
  have e3 := arrivesBad h3
  rw [List.length_replicate] at e1 e2 e3
  exact ⟨e1, e2, e3⟩

/-- A CREW_MAINT seat port that is UP. -/
def maintPort : State :=
  let s := up (.seat 1) s0
  { s with ports := s.ports.modSeat 1 (fun q => { q with designation := .crewMaint }) }

/-- What no station may send: frames that fail their checks; a hold type code; a request on a PASSENGER port, and on a
CREW_MAINT one to another address; a group source. -/
theorem witness_SeatFrameIsLearned_refused :
    let s := receiving .idle
    let other := mgmtFrame srv sta 0x14 0 7 0 [] ++ [0, 0, 0, 0]
    let group := netFrame srv everyone 1 2 64
    AllBad (.seat 3) ∧ Arrives (.seat 3) (holdBytes 200) true s [0] (end1 (.seat 3) (holdBytes 200).length s) ∧
      Arrives (.seat 3) (request srv 0x14 []) true s [0] (end1 (.seat 3) (request srv 0x14 []).length s) ∧
      Arrives (.seat 1) other true maintPort [0] (end1 (.seat 1) other.length maintPort) ∧
      Arrives (.seat 3) group true s [0] (end1 (.seat 3) group.length s) ∧
      (typeOf (holdBytes 200) = typeHold ∧ typeOf (request srv 0x14 []) = typeMgmt ∧
        (s.ports.seats[3]).designation ≠ .crewMaint ∧ typeOf other = typeMgmt ∧ dstOf other ≠ maintPort.identity ∧
        typeOf group ≠ typeHold ∧ typeOf group ≠ typeMgmt ∧ isGroup (srcOf group) = true) :=
  ⟨all_bad _ (by decide +kernel) (by decide +kernel) (by decide +kernel), arrives (by decide +kernel),
    arrives (by decide +kernel), arrives (by decide +kernel), arrives (by decide +kernel), by decide +kernel⟩

/-- The same on a radio link, and NOTICE frames: of no code, of none of the three, with a wire check that fails, one byte
too long or short; and the right ones. -/
theorem witness_RadioDataIsChecked_refused :
    let s := receiving .idle
    AllBad (.radio 1) ∧ Arrives (.radio 1) (holdBytes 200) true s [0] (end1 (.radio 1) (holdBytes 200).length s) ∧
      Arrives (.radio 1) (request srv 0x14 []) true s [0] (end1 (.radio 1) (request srv 0x14 []).length s) ∧
      NoticeArrives 1 ([] : List Byte).length s [] (end1 (.radio 1) 0 s) ∧
      (∀ n ∈ [1, 4, 5, 6, 7, 11, 12, 13], NoticeArrives 1 n s [0] (end1 (.radio 1) n s)) ∧
      (typeOf (holdBytes 200) = typeHold ∧ typeOf (request srv 0x14 []) = typeMgmt ∧
        ((0 : Byte) ≠ 1 ∧ (0 : Byte) ≠ 2 ∧ (0 : Byte) ≠ 3 ∧ (4 : Byte) ≠ 1 ∧ (4 : Byte) ≠ 2 ∧ (4 : Byte) ≠ 3) ∧
        ((1 : Byte) :: List.replicate 12 0).length ≠ 12 ∧ ((2 : Byte) :: List.replicate 4 0).length ≠ 6 ∧
        ((3 : Byte) :: List.replicate 5 0).length ≠ 5 ∧ ([0, 0, 0, 0] : List Byte).length = 4) :=
  ⟨all_bad _ (by decide +kernel) (by decide +kernel) (by decide +kernel), arrives (by decide +kernel),
    arrives (by decide +kernel), noticeArrives (by decide +kernel),
    (by
      intro n hn
      simp only [List.mem_cons, List.not_mem_nil, or_false] at hn
      rcases hn with rfl | rfl | rfl | rfl | rfl | rfl | rfl | rfl <;> exact noticeArrives (by decide +kernel)),
    by decide +kernel⟩

/-- R62, R191: a NOTICE frame with ASSOCIATED of index 63 in its body confirms the record there, whatever index its header
has. -/
theorem test_notice_frame :
    let t := after (.radioDataFrameReceived 1 2 0 ([1, 63] ++ addrBytes sta ++ [0, 0, 0, 0]) true)
      { atIndex63 .held with now := 500 }
    (t.station? 2).map (·.lastFrame) = some 500 ∧ (t.ports.radios[1]).noticesTaken = 1 := by decide +kernel

/-- On a backbone end: frames that fail their checks; one to the part's own address that is no management frame. -/
theorem witness_TransitIsChecked_refused :
    let s := receiving .idle
    let own := netFrame s0.identity srv 1 2 64
    AllBad (.backbone .ba) ∧ Arrives (.backbone .ba) own true s [0] (end1 (.backbone .ba) own.length s) ∧
      (typeOf own ≠ typeHold ∧ typeOf own ≠ typeMgmt ∧ dstOf own = s.identity) :=
  ⟨all_bad _ (by decide +kernel) (by decide +kernel) (by decide +kernel), arrives (by decide +kernel), by decide +kernel⟩

/-- What a take that ends at its reading or for its source asks of the head of the input queue. -/
def endsB (s : State) (fs : List CellFault) (P : List Nat → FrameRec → Request → Bool) : Bool :=
  match requestReady s with
  | some (_, _, f, rq) => P ((withFaults fs s).hub.readFrame f none).1 f rq
  | none => false

/-- A request with its one cell unreadable, from an end and from a seat port; a broadcast one with another reference, and
with none; and a group source. -/
theorem witness_TakeReservesASlot_ends :
    let bad : List CellFault := [{ cell := 0, error := .multi }]
    let shared := after (.backboneFrameReceived .ba broadcastRequest true) s0
    let alone := after (.backboneFrameReceived .ba broadcastRequest true)
      (unit (.backbone .bb) (fun u => { u with link := .down }) s0)
    endsB (ask 0x14 [] s0) bad (fun b f _ => decide (b = [0] ∧ f.refs = 1 ∧ f.arrival = some (.backbone .ba) ∧
        (ask 0x14 [] s0).hub.cells.isMulti f = false ∧ (ask 0x14 [] s0).hub.mgmt.reportAddr = none)) = true ∧
      endsB (crewAsks 0x14 []) bad (fun b f _ => decide (b ≠ [] ∧ f.arrival = some (.seat 1))) = true ∧
      endsB shared bad (fun b f _ => decide (b ≠ [] ∧ 1 < f.refs ∧ shared.hub.cells.isMulti f = true)) = true ∧
      endsB alone bad (fun b f _ => decide (b ≠ [] ∧ f.refs ≤ 1 ∧ alone.hub.cells.isMulti f = true)) = true ∧
      endsB (after (.backboneFrameReceived .ba (request everyone 0x14 []) true) s0) []
        (fun b _ rq => decide (b = [] ∧ isGroup rq.src = true)) = true := by decide +kernel

/-- A mode of 0 and of 3; a cap presence of 2; a cap of 0; an allowance presence of 2; a renew code of 2; an allowance of
0. -/
theorem witness_AdmitAdmits_values :
    let holds (body : List Byte) (P : Request → Prop) : Prop :=
      Meets (ask 0x03 body (inState .held none)) 0x03 (fun rq => names .held none 0 rq = true ∧ P rq)
    holds (admitBody 3 0 0 0 0 0 0) (fun rq => rq.num 8 1 = 0) ∧ holds (admitBody 3 3 0 0 0 0 0) (fun rq => 2 < rq.num 8 1) ∧
      holds (admitBody 3 1 2 0 0 0 0) (fun rq => 1 < rq.num 9 1) ∧
      holds (admitBody 3 1 1 0 0 0 0) (fun rq => rq.num 9 1 = 1 ∧ rq.num 10 4 = 0) ∧
      holds (admitBody 3 1 0 0 2 0 0) (fun rq => 1 < rq.num 16 1) ∧
      holds (admitBody 3 1 0 0 1 2 1) (fun rq => rq.num 16 1 = 1 ∧ 1 < rq.num 17 1) ∧
      holds (admitBody 3 1 0 0 1 0 0) (fun rq => rq.num 16 1 = 1 ∧ rq.num 24 4 = 0) := by
  refine ⟨?_, ?_, ?_, ?_, ?_, ?_, ?_⟩ <;> exact meets (by decide +kernel)

/-- A renew code of 2 with the allowance present. -/
theorem witness_SetAllowanceStores_renew :
    Meets (ask 0x07 (allowanceBody 1 2 1) (inState .admitted none)) 0x07
      (fun rq => names .admitted none 0 rq = true ∧ rq.num 6 1 = 1 ∧ 1 < rq.num 7 1) := meets (by decide +kernel)

/-- A snapshot of one record, in the last slot. -/
def oneCharged : Snapshot :=
  { number := 7, entries := (Vector.replicate 256 none).set 255 (some (seated .passenger .admitted (.seat 3)).snapshotEntry) }

/-- A record and no record of an address; the last slot of the last page with a record and empty, in the table and in a
snapshot; the last flag and the last tally counter; no snapshot. -/
theorem witness_ReadsAnswerTheirView_bytes :
    (inState .held none).table.byAddr sta = some 2 ∧
      (inState .held none).station? 2 = some (seated .passenger .held (.seat 7)) ∧ s0.table.byAddr sta = none ∧
      ((255 : Fin 256).val = 16 * 15 + (15 : Fin 16).val ∧ s0.station? 255 = none ∧
        (put 255 (seated .passenger .held (.seat 7)) s0).station? 255 = some (seated .passenger .held (.seat 7)) ∧
        (mgmt (fun m => { m with snapshot := some oneCharged }) s0).hub.mgmt.snapshot = some oneCharged ∧
        oneCharged.entries[(255 : Fin 256)] = some (seated .passenger .admitted (.seat 3)).snapshotEntry ∧
        oneCharged.entries[(0 : Fin 256)] = none ∧
        s0.hub.mgmt.snapshot = none) :=
  ⟨(only_byAddr (inState_only _ _) _).trans (by decide +kernel), by decide +kernel,
    (only_byAddr (only_nobody 2) _).trans (by decide +kernel), rfl, by decide +kernel, by decide +kernel, rfl, by decide +kernel, by decide +kernel, rfl⟩

/-! ## Witnesses: the ends of a run, the classification, a placed radio frame, PRESSURE left -/

/-- A passenger of mode RUN with `n` frames in its queue, and a run or none. -/
def queueing (n : Nat) (r : Option Run) : State :=
  { waiting 1 0 with
    table := (waiting 1 0).table.modStation 2 (fun st =>
      { st with shaping := { mode := .run }, upq := List.replicate n 6 })
    up := { creditPtr := 2, run := r } }

theorem queueing_only (n : Nat) (r : Option Run) : OnlyAt (queueing n r).table 2 := only_mod _ (waiting_only 1 0)

/-- The last entry and one before the last, each in a run and at the beginning of one. -/
theorem witness_PassengerGrantDebits_lastEntry :
    let r : Run := { holder := 2, granted := 1 }
    localPick (withFaults [] (queueing 1 (some r))) = some (.credit 2 true) ∧
      localPick (withFaults [] (queueing 2 (some r))) = some (.credit 2 true) ∧
      localPick (withFaults [] (queueing 1 none)) = some (.credit 2 false) ∧
      localPick (withFaults [] (queueing 2 none)) = some (.credit 2 false) ∧
      ((queueing 1 none).station? 2).map (·.upq) = some [6] ∧
      ((queueing 2 none).station? 2).map (fun st => (st.upq, st.shaping.mode)) = some ([6, 6], .run) :=
  ⟨picks 2 (queueing_only _ _) (by decide +kernel), picks 2 (queueing_only _ _) (by decide +kernel),
    picks 2 (queueing_only _ _) (by decide +kernel), picks 2 (queueing_only _ _) (by decide +kernel), by decide +kernel,
    by decide +kernel⟩

/-- R142: the run ends with the grant of its holder's last entry, and grows by one at the grant of another. -/
theorem test_run_ends_empty :
    (takeGrant (.credit 2 true) (queueing 1 (some { holder := 2, granted := 3 }))).map (·.2.up.run) = some none ∧
      (takeGrant (.credit 2 true) (queueing 2 (some { holder := 2, granted := 3 }))).map (·.2.up.run) =
        some (some { holder := 2, granted := 4 }) := by decide +kernel

/-- A run whose holder's mode a boundary makes SINGLE, and one whose holder stays of mode RUN; and no run. -/
theorem witness_BoundaryFrame_run :
    let r : Run := { holder := 2, granted := 8 }
    let s := queueing 1 (some r)
    let turned := { s with table := s.table.modStation 2 (fun st => { st with pendingShaping := some {} }) }
    s.sched.running = true ∧ s.up.run = some r ∧ (running s0).up.run = none ∧
      ((after .epochCounterExpiry turned).station? 2).map (·.shaping.mode) = some .single ∧
      ((after .epochCounterExpiry s).station? 2).map (·.shaping.mode) = some .run := by decide +kernel

/-- A run whose holder has `q` in its queue; the frame 6 has an entry elsewhere too. -/
def holderHas (q : List Nat) : State :=
  let s := queueing 1 (some { holder := 2, granted := 1 })
  { cells (fun c => c.modFrame 6 (fun f => { f with refs := 2 })) s with
    table := s.table.modStation 2 (fun st => { st with upq := q }) }

/-- The state after a failed start of the frame 6 on a seat port. -/
def sixFails (s : State) : State :=
  match s.hub.cells.frame? 6 with
  | some f => failStart (.seat 3) f [6] s
  | none => s

/-- A failed start of a frame that stands in a run holder's queue too: alone there, and before another. -/
theorem witness_EgressHeadStarts_failedRun :
    ((holderHas [6]).station? 2).map (·.upq) = some [6] ∧ ((sixFails (holderHas [6])).station? 2).map (·.upq) = some [] ∧
      ((sixFails (holderHas [6, 9])).station? 2).map (·.upq) = some [9] := by decide +kernel

/-- R142, R144: a withdrawal that empties the holder's queue ends its run, and no other does. -/
theorem test_run_ends_withdrawn : (sixFails (holderHas [6])).up.run = none ∧
    (sixFails (holderHas [6, 9])).up.run = some { holder := 2, granted := 1 } := by decide +kernel

/-- Windows 3 (disabled), 5 and 7 over one block of 256 addresses; all the others disabled. -/
def overlapping : Vector Window 9 :=
  let w : WindowSettings := { WindowSettings.closed with enabled := true, base := 0x0A140D00, k := 8, metered := false }
  ((s0.windows.set 3 { set := { w with enabled := false } }).set 5 { set := w }).set 7 { set := w }

/-- The first and the last address of the block lie in window 5, the next ones outside it in none but the default. -/
theorem test_window_applied :
    ([0x0A140D00, 0x0A140DFF, 0x0A140E00, 0x0A140CFF] : List NetAddr).map (windowFor overlapping) = [5, 5, 8, 8] := by
  decide +kernel

/-- A link frame; a network frame upward and downward; a window that applies and others. -/
theorem witness_SeatFrameIsQueued_classified :
    let st := seated .passenger .held (.seat 3)
    typeOf (holdBytes 1) ≠ 0x0800 ∧ typeOf plain = 0x0800 ∧ netAddr plain true = some 0x0A140C09 ∧
      netAddr plain false = some 0x0A140D05 ∧
      classify overlapping st false (netAddr plain false) = { window := some 5, metered := false, permitted := false } ∧
      (classify overlapping st true (netAddr plain true)).window = some 8 ∧
      (classify overlapping st true none).window = none := by decide +kernel

/-- A link frame of a HELD passenger of a radio, and a metered one of an ADMITTED passenger, at index 63. -/
theorem witness_RadioDataIsChecked_queued :
    let f := addrBytes srv ++ addrBytes sta ++ [8, 6] ++ List.replicate 50 0
    let placed (x : StationState) (f : List Byte) (s : State) : Prop :=
      let st := seated .passenger x (.radio 1 63)
      (63 : Byte).toNat < 64 ∧ (atIndex63 x).station? 2 = some st ∧ st.addr = srcOf f ∧ st.isLeaving = false ∧
        typeOf f ≠ typeHold ∧ typeOf f ≠ typeMgmt ∧
        upwardDiscard s st (classify (atIndex63 x).windows st true (netAddr f true)) = none ∧
        ∀ g ∈ s.hub.cells.frames, g.id ≠ 0
    Arrives (.radio 1) f true (atIndex63 .held) [0] (end1 (.radio 1) f.length (atIndex63 .held)) ∧
      Arrives (.radio 1) plain true (atIndex63 .admitted) [0, 1] (end1 (.radio 1) plain.length (atIndex63 .admitted)) ∧
      placed .held f (end1 (.radio 1) f.length (atIndex63 .held)) ∧
      placed .admitted plain (end1 (.radio 1) plain.length (atIndex63 .admitted)) ∧
      (atIndex63 .held).table.atRadio 1 (63 : Byte).toNat = some 2 ∧
      (atIndex63 .admitted).table.atRadio 1 (63 : Byte).toNat = some 2 :=
  ⟨arrives (by decide +kernel), arrives (by decide +kernel), by decide +kernel, by decide +kernel,
    (only_atRadio (only_put _ (only_nobody 2)) _ _).trans (by decide +kernel),
    (only_atRadio (only_put _ (only_nobody 2)) _ _).trans (by decide +kernel)⟩

/-- DISASSOCIATED for the indices 64 and 255. -/
theorem witness_RadioStationsLeave_index :
    NoticeArrives 1 6 (atIndex63 .held) [0] (end1 (.radio 1) 6 (atIndex63 .held)) ∧ 64 ≤ (64 : Byte).toNat ∧
      64 ≤ (255 : Byte).toNat := ⟨noticeArrives (by decide +kernel), by decide +kernel⟩

/-- A part in PRESSURE with a report address that leaves it: the notice's cell brings cells held to the high mark again,
and stays below a higher one. -/
theorem witness_SetMemoryLimitsTests_left :
    let s := mgmt (fun m => { m with reportAddr := some srv }) (holding .pressure)
    let left (high : Nat) (s : State) : Hub := Hub.raise s.sender (.pressure false s.hub.cells.held high (high - 1))
      (cells (fun c => { c with high := high, low := high - 1, pressure := .normal }) s).hub
    let asked (high low : Nat) := ask 0x12 (beBytes 2 high ++ beBytes 2 low) s
    Meets (asked 3058 3057) 0x12 (fun rq => rq.num 0 2 = 3058 ∧ rq.num 2 2 = 3057 ∧
        (afterTake (asked 3058 3057) []).hub.cells.pressure = .pressure ∧
        (afterTake (asked 3058 3057) []).hub.cells.held ≤ 3057 ∧
        3058 ≤ (left 3058 (afterTake (asked 3058 3057) [])).cells.held) ∧
      Meets (asked 3072 3071) 0x12 (fun rq => rq.num 0 2 = 3072 ∧ rq.num 2 2 = 3071 ∧
        (afterTake (asked 3072 3071) []).hub.cells.held ≤ 3071 ∧
        (left 3072 (afterTake (asked 3072 3071) [])).cells.held < 3072) := by
  refine ⟨?_, ?_⟩ <;> exact meets (by decide +kernel)

/-! ## Witnesses: what is counted, what removals do, and the frames of replies -/

/-- A frame received on a seat port, not on another, and no frame; entries with a frame of their own each, and no entry; a
transmission of a frame (its record not LEAVING), of an order, of a hold and of a reply. -/
theorem witness_DiscardCountsOnce_counts :
    (CountsRx busy 41 (.seat 3) ∧ ¬ CountsRx busy 41 (.seat 4) ∧ ¬ CountsRx busy 99 (.seat 3)) ∧
      (([12, 13] : List Nat).Nodup ∧ ([] : List Nat).Nodup) ∧ (onAir.hub.cells.owner 12 = some 2 ∧
        onAir.hub.cells.owner 13 = none ∧ (onAir.station? 2).isSome = true ∧ onAir.station? 0 = none) ∧
      (((flying (.seat 3)).ports.unitOf (.backbone .ba)).tx = some (.frame 40) ∧
        (flying (.seat 3)).hub.cells.owner 40 = some 2 ∧
        ((flying (.seat 3)).station? 2).map (·.state) = some .admitted ∧
        ((sendingOn (.radio 3) (.order { kind := .drop, index := 0 })).ports.unitOf (.radio 3)).tx =
          some (.order { kind := .drop, index := 0 }) ∧
        (Transmission.order { kind := .drop, index := 0 }).frame? = none ∧ (Transmission.hold 0).frame? = none ∧
        ((sendingOn (.seat 31) (.reply 7 3)).ports.unitOf (.seat 31)).tx = some (.reply 7 3) ∧
        replySlot? (.reply 7 3) = some 3 ∧ replySlot? (.frame 7) = none) := by
  refine ⟨⟨⟨_, rfl, rfl, by decide +kernel⟩, ?_, ?_⟩, by decide, by decide +kernel, by decide +kernel⟩
  · rintro ⟨f, hf, ha, -⟩
    have : (busy.hub.cells.frame? 41).bind (·.arrival) = some (.seat 4) := by rw [hf]; exact ha
    exact absurd this (by decide +kernel)
  · rintro ⟨f, hf, -⟩
    have : (busy.hub.cells.frame? 99).isSome = true := by rw [hf]; rfl
    exact absurd this (by decide +kernel)

/-- R8, R159: an entry of record 2 counts once under its reason, at its port, at its record and where it came in. -/
theorem test_entry_counts :
    let t := discardEntry .purge (some (.radio 1)) 12 onAir
    t.hub.tallyOf .purge = 1 ∧ (t.ports.radios[1]).unit.ctr.txDrops = 1 ∧
      (t.station? 2).map (·.ctr.drops) = some 1 ∧ (t.ports.seats[3]).unit.ctr.rxDiscards = 1 ∧
      t.hub.cells.frame? 12 = none := by decide +kernel

/-- A LEAVING record whose frame is aborted with an end: free of frames after it, and with the other end sending it
still; no such record. -/
theorem witness_BackboneEndGoesDown_ended :
    let gone (s : State) : Prop := (s.ports.endOf .ba).unit.link = .up ∧
      (s.ports.endOf .ba).unit.tx = some (.frame 40) ∧ s.hub.cells.owner 40 = some 2 ∧
      (s.station? 2).map (·.state) = some (.leaving .aged)
    gone (leavingFlight false) ∧ gone (leavingFlight true) ∧
      inFlight (countAborted (.backbone .ba) 40 (leavingFlight false)) 2 = false ∧
      inFlight (countAborted (.backbone .ba) 40 (leavingFlight true)) 2 = true ∧
      (s0.ports.endOf .ba).unit.tx = none ∧ inTransmission (leavingFlight false) (.backbone .ba) = 1 ∧
      inReception (receiving (.taking [0])) (.backbone .ba) = 1 ∧ inReception s0 (.backbone .ba) = 0 := by
  decide +kernel

/-- A notice of each length and a hold frame whose reception was lost; a good frame of BA without the hold type code. -/
theorem witness_ReceptionTakesCells_lost :
    let s := receiving .dropping
    (∀ n ∈ [12, 6, 5], lostB (.radio 1) n s = true) ∧ lostB (.backbone .ba) (holdBytes 200).length s = true ∧
      typeOf (holdBytes 200) = typeHold ∧ lostB (.backbone .ba) passing.length s = true ∧
      typeOf passing ≠ typeHold ∧ 64 ≤ passing.length ∧ passing.length ≤ 1536 := by decide +kernel

/-- The station on a seat port with an entry in its upward queue, one of its own in the port's queue, and a broadcast
there. -/
def queuedAtSeat : State :=
  let s := store 14 64 (some 2) true atSeat
  { s with table := s.table.modStation 2 (fun st => { st with upq := [14] }) }

/-- What a purge asks of the entries: each a frame of the record's own; on a seat port, and on a radio with none in the
upward queue. -/
theorem witness_PurgeCounts :
    (queuedAtSeat.station? 2).map (fun st => (st.upq, st.origin)) = some ([14], .seat 7) ∧
      ([14] ++ unicastsAt queuedAtSeat 2 (.seat 7)).Nodup ∧ unicastsAt queuedAtSeat 2 (.seat 7) = [12] ∧
      queuedAtSeat.hub.cells.owner 14 = some 2 ∧ ([] ++ unicastsAt onAir 2 (.radio 1 63)).Nodup ∧
      unicastsAt onAir 2 (.radio 1 63) = [12] := by decide +kernel

/-- R53, R134, R159: the removal of that record counts two PURGE, one of them at the port; its STATION_GONE shows two
drops. -/
theorem test_removal_counts :
    let t := after (.release []) (ask 0x06 who queuedAtSeat)
    t.hub.tallyOf .purge = 2 ∧ (t.ports.seats[7]).unit.ctr.txDrops = 1 ∧ (t.ports.seats[7]).egress = [13] ∧
      t.station? 2 = none := by decide +kernel

/-- An ADMITTED record whose allowance ends with an entry of its own in its upward queue, and with none. -/
theorem witness_ExhaustionRenewsOrSpends_purge :
    let s := store 14 64 (some 9) true (put 9 { lean with upq := [14] } s0)
    (s.station? 9).map (fun st => (st.state, st.upq)) = some (.admitted, [14]) ∧ ([14] : List Nat).Nodup ∧
      s.hub.cells.owner 14 = some 9 ∧ ((put 9 lean s0).station? 9).map (·.upq) = some [] := by decide +kernel

/-- A view for the reserved slot of a request; for a seat port that is DOWN, at once and in its turn; with too few cells. -/
theorem witness_ReplyIsBuilt_views :
    let free := List.range 16
    let at31 (waits : List (Fin 4)) : State := cells (fun c => { c with free := free }) (mgmt (fun m => { m with
      waiting := waits
      slots := m.slots.set 2 (.reserved { port := .seat 31, src := srv, code := 0x0C, tag := 7 }
        (if waits = [] then none else some .scheduler) true) }) s0)
    let view : State := mgmt (fun m => { m with slots := m.slots.set 2 (.reserved
      { port := .backbone .ba, src := srv, code := 0x0C, tag := 7 } none true) }) s0
    let n (s : State) (c : ReplyContent) : Nat :=
      let r := renderReply s c
      cellsFor ((mgmtFrame srv s.identity 0x0C r.1.code 7 s.consist.carriage r.2).length + 4)
    StackOk view ∧
      (view.hub.mgmt.slots[2] = .reserved { port := .backbone .ba, src := srv, code := 0x0C, tag := 7 } none true ∧
        view.hub.mgmt.waiting = [] ∧ deadSeat view (.backbone .ba) = false ∧
        n view .scheduler ≤ view.hub.cells.free.length ∧ n view (.snapshotPage 15) ≤ 16 ∧
        deadSeat (at31 []) (.seat 31) = true ∧ (at31 []).hub.mgmt.waiting = [] ∧
        n (at31 []) .scheduler ≤ (at31 []).hub.cells.free.length ∧ (at31 [2, 0]).hub.mgmt.waiting = [2, 0] ∧
        deadSeat (at31 [2, 0]) (.seat 31) = true ∧
        (cells (fun c => { c with free := [] }) view).hub.cells.free.length <
          n (cells (fun c => { c with free := [] }) view) .scheduler) :=
  ⟨⟨by decide +kernel, by decide +kernel⟩, by decide +kernel⟩

/-- Codes below and above the table's; bodies one byte short and one long; the last code, and READ_SCHEDULER, open to
CREW, from both levels. -/
theorem witness_CommonChecksRefuse_table :
    readyB (ask 0 [] s0) (fun rq => decide (rq.code = 0)) = true ∧
      readyB (ask 0xFF [] s0) (fun rq => decide (rq.code = 0xFF)) = true ∧
      readyB (ask 0x01 (List.replicate 5 0) s0) (fun rq => decide (rq.code = 0x01 ∧ rq.bodyLength = 5)) = true ∧
      readyB (ask 0x03 (List.replicate 29 0) s0) (fun rq => decide (rq.code = 0x03 ∧ rq.bodyLength = 29)) = true ∧
      readyB (ask 0x19 [0] s0) (fun rq => decide (rq.code = 0x19 ∧ rq.bodyLength = 1)) = true ∧
      readyB (ask 0x19 [] s0) (fun rq => decide (rq.code = 0x19 ∧ rq.bodyLength = 0 ∧
        22 + rq.bodyLength ≤ rq.frameLength - 4 ∧ rq.level = .server)) = true ∧
      readyB (crewAsks 0x0C []) (fun rq => decide (rq.code = 0x0C ∧ rq.bodyLength = 0 ∧
        22 + rq.bodyLength ≤ rq.frameLength - 4 ∧ rq.level = .crew)) = true ∧
      readyB (ask 0x0C [] s0) (fun rq => decide (rq.code = 0x0C ∧ rq.bodyLength = 0 ∧ rq.level = .server)) = true := by
  decide +kernel

/-- SET_PORT of CREW for seat 3, whose one record is behind its frame in transmission. -/
def leavesSeat : State := ask 0x0F [3, 2] (aloft (.seat 3))

theorem leavesSeat_cells : CellsOk leavesSeat := by
  have h1 : leavesSeat.hub.cells.free = (List.range 3070).map (fun n => n + 1 + 1) := by decide +kernel
  have h2 : frameCells leavesSeat.hub.cells ++ receptionCells leavesSeat.ports ++ leavesSeat.hub.cells.retired =
      [0, 1] := by decide +kernel
  refine ⟨?_, by decide +kernel⟩
  rw [List.append_assoc, List.append_assoc, ← List.append_assoc (frameCells _), h2, h1]
  refine List.perm_append_comm.trans (List.Perm.of_eq ?_)
  rw [show List.range 3072 = _ from List.range_succ_eq_map (n := 3071),
    show List.range 3071 = _ from List.range_succ_eq_map (n := 3070), List.map_cons, List.map_map]
  rfl

theorem leavesSeat_queues : ∀ k : Fin 256, (leavesSeat.station? k).all (fun st => decide (0 ∉ st.upq)) = true := by
  decide +kernel

/-- A record that goes LEAVING; one that is freed; one that was LEAVING; DISABLED on the same port, which is UP, and on
one that is DOWN. -/
theorem witness_SetPortDesignates_records :
    (Meets leavesSeat 0x0F (fun rq => rq.num 0 1 = (3 : Fin 32).val ∧ designationOfCode (rq.num 1 1) = some .crew ∧
        (leavesSeat.station? 2).map (fun st => (st.isLeaving, st.origin)) = some (false, .seat 3)) ∧
      CellsOk leavesSeat ∧ OnlyOnAir leavesSeat 2) ∧
      Meets (ask 0x0F [7, 2] queuedAtSeat) 0x0F (fun _ =>
        ((ask 0x0F [7, 2] queuedAtSeat).station? 2).map (fun st => (st.isLeaving, st.origin)) = some (false, .seat 7) ∧
        inFlight (ask 0x0F [7, 2] queuedAtSeat) 2 = false) ∧
      Meets (ask 0x0F [3, 2] (leavingFlight false)) 0x0F (fun _ =>
        ((ask 0x0F [3, 2] (leavingFlight false)).station? 2).map (fun st => (st.isLeaving, st.origin)) =
          some (true, .seat 3)) ∧
      Meets (ask 0x0F [3, 5] (leavingFlight false)) 0x0F (fun rq => designationOfCode (rq.num 1 1) = some .disabled ∧
        ((leavingFlight false).ports.seats[3]).unit.link = .up) ∧
      ((s0.ports.seats[31]).unit.link = .down ∧ (s0.ports.seats[31]).designation ≠ .disabled) := by
  obtain ⟨f, hf, hk⟩ := Option.map_eq_some_iff.mp
    (show (leavesSeat.hub.cells.frame? 0).map (·.station) = some (some 2) by decide +kernel)
  refine ⟨⟨meets (by decide +kernel), leavesSeat_cells, .ba, 0, f, by decide +kernel, hf, hk, by decide +kernel, ?_, ?_,
    by decide +kernel, by decide +kernel⟩, meets (by decide +kernel), meets (by decide +kernel),
    meets (by decide +kernel), by decide +kernel⟩
  · intro j st hs
    have h := leavesSeat_queues j
    rw [hs] at h
    simpa using h
  · intro j h hj
    have hf : ∀ j : Fin 4, leavesSeat.hub.mgmt.slots[j] = .free := by decide +kernel
    rw [hf j] at hj
    cases hj

/-- R52, R56: that record is LEAVING with reason PORT_CHANGED. -/
theorem test_port_changed :
    ((after (.setPort []) leavesSeat).station? 2).map (·.state) = some (.leaving .portChanged) ∧
      (after (.setPort []) (ask 0x0F [7, 2] queuedAtSeat)).station? 2 = none ∧
      (after (.setPort []) (ask 0x0F [7, 2] queuedAtSeat)).hub.tallyOf .purge = 3 := by decide +kernel

/-! ## Witnesses: the timers, the takes that are not made, and the pressure state -/

/-- A part at `now` whose timers all come at 100,000: those of BA, the idle timer of slot 255, the epoch counter and a
store write; BB is held a unit longer, with its overrun recorded. -/
def timed (now : Nat) : State :=
  let s := atEnd .bb (fun e => { e with heldUntil := some 100001, holdStart := some 0, overrun := true })
    (atEnd .ba (fun e => { e with heldUntil := some 100000, holdStart := some 95000, repeatAt := some 100000 })
      (put 255 { seated .passenger .admitted (.seat 3) with idle := 1, idleStart := 0 }
        (running (parked (.save State.reset.hub.mgmt.store.settings 96000)))))
  { s with now := now, sched := { s.sched with counter := 99, phase := 99 } }

/-- Each timer's moment as the next unit ends, and none of them a unit before. -/
theorem witness_IdleStepPassesOneUnit_timers :
    let s := timed 99999
    let ba := s.ports.endOf .ba
    (s.pending = [] ∧ s.now + 1 = 100000 ∧ ba.heldUntil = some 100000 ∧ ba.holdStart = some 95000 ∧ ba.overrun = false ∧
      95000 + 100 * s.hold.limit = 100000 ∧ ba.repeatAt = some 100000 ∧
      (s.station? 255).map (fun st => (st.isLeaving, st.idle, st.idleStart)) = some (false, 1, 0)) ∧
      (∃ h, s.hub.mgmt.slots[(3 : Fin 4)] = .parked h (.save State.reset.hub.mgmt.store.settings 96000)) ∧
      (∀ j : Fin 4, j < 3 → s.hub.mgmt.slots[j] = .free) ∧ (timed 99998).now + 1 < 100000 :=
  ⟨by decide +kernel, ⟨_, rfl⟩, by decide +kernel, by decide +kernel⟩

/-- R14, R16, R17, R46, R109, R186: the commands that come with that unit, by their places; a unit earlier the epoch
counter's alone. -/
theorem test_tick_timers :
    (tick (timed 99999)).pending.map timerPlace = [0, 1, 2, 6 + 255, 262, 263] ∧
      (tick (timed 99998)).pending.map timerPlace = [262] := by decide +kernel

/-- Both ends held from 0, at 1,000. -/
def heldBoth : State :=
  atEnd .bb (fun e => { e with heldUntil := some 6000, holdStart := some 0 }) { heldEnd with now := 1000 }

/-- BA alone late, both, neither by a millisecond, and BB alone, BA having its overrun. -/
theorem witness_SetHoldStores_late :
    let asked (lim : Nat) (s : State) := ask 0x11 (beBytes 2 lim ++ [2]) s
    let again := atEnd .ba (fun e => { e with overrun := true }) heldBoth
    let lasts (s : State) (x : End) : Prop :=
      (s.ports.endOf x).heldUntil = some 6000 ∧ (s.ports.endOf x).holdStart = some 0 ∧ (s.ports.endOf x).overrun = false
    (Meets (asked 10 { heldEnd with now := 1000 }) 0x11 (fun rq => 0 + 100 * rq.num 0 2 ≤ 1000) ∧
        lasts { heldEnd with now := 1000 } .ba ∧ (heldEnd.ports.endOf .bb).heldUntil = none) ∧
      (Meets (asked 10 heldBoth) 0x11 (fun rq => 0 + 100 * rq.num 0 2 ≤ 1000) ∧ lasts heldBoth .ba ∧
        lasts heldBoth .bb) ∧
      Meets (asked 11 heldBoth) 0x11 (fun rq => 1000 < 0 + 100 * rq.num 0 2) ∧
      (Meets (asked 10 again) 0x11 (fun rq => 0 + 100 * rq.num 0 2 ≤ 1000) ∧ (again.ports.endOf .ba).overrun = true ∧
        lasts again .bb) :=
  ⟨⟨meets (by decide +kernel), by decide +kernel⟩, ⟨meets (by decide +kernel), by decide +kernel⟩,
    meets (by decide +kernel), meets (by decide +kernel), by decide +kernel⟩

/-- The notices queued: each one's code, and `n` bytes of its body. -/
def told (n : Nat) (s : State) : List (List Byte) :=
  s.hub.mgmt.notices.filterMap (fun id => (s.hub.cells.frame? id).map (fun f =>
    ((s.hub.cells.frameBytes f).drop 14).take 1 ++ ((s.hub.cells.frameBytes f).drop 22).take n))

/-- R17, R19: a limit that both holds have lasted sets both flags and raises HOLD_OVERRUN for both, of port codes 36 and
37, with SHED and the limit of 10. -/
theorem test_set_hold_late :
    let t := after (.setHold []) (ask 0x11 [0, 10, 2] (mgmt (fun m => { m with reportAddr := some srv }) heldBoth))
    t.hub.flagOf .holdOverrunBA = { isSet := true, count := 1 } ∧
      t.hub.flagOf .holdOverrunBB = { isSet := true, count := 1 } ∧
      told 4 t = [[0x48, 36, 2, 0, 10], [0x48, 37, 2, 0, 10]] := by decide +kernel

/-- A slot whose reply waits for cells, behind a parked operation's or as the one the unit is not finished with. -/
def waitsIn2 (blocking : Bool) : State :=
  mgmt (fun m => { m with
    waiting := [2]
    slots := m.slots.set 2 (.reserved statusHeader (some (.fixed .ok [7, 1])) blocking) }) answered

theorem not_blocking {s : State} (h : ∀ j : Fin 4, (s.hub.mgmt.slots[j]).isBlocking = false) (j : Fin 4) (q : ReqHeader)
    (c : Option ReplyContent) : s.hub.mgmt.slots[j] ≠ .reserved q c true := by
  intro hj
  have := h j
  rw [hj] at this
  cases this

/-- With slot 0 BUILT, slot 1 FREE, a parked operation's reply waiting in slot 2 and slot 3 parked: a take is made. -/
theorem witness_TakeReservesASlot_made :
    let s := ask 0x14 [] (waitsIn2 false)
    (s.hub.mgmt.input.head?.bind (fun e => s.hub.cells.frame? e.id)).isSome = true ∧
      s.hub.mgmt.slots[(1 : Fin 4)] = .free ∧ (∀ j : Fin 4, j < 1 → s.hub.mgmt.slots[j] ≠ .free) ∧ s.hub.mgmt.waiting = [2] ∧
      ∀ (j : Fin 4) h c, s.hub.mgmt.slots[j] ≠ .reserved h c true :=
  ⟨by decide +kernel, by decide +kernel, by decide +kernel, by decide +kernel, not_blocking (by decide +kernel)⟩

/-- With the reply of an earlier request waiting in slot 2; with every slot parked; with the input queue empty. -/
theorem witness_TakeReservesASlot_none :
    let full : State := ask 0x14 [] (mgmt (fun m => { m with slots := Vector.replicate 4 (.parked statusHeader .snapshot) }) s0)
    (ask 0x14 [] (waitsIn2 true)).hub.mgmt.slots[(2 : Fin 4)] =
        .reserved statusHeader (some (.fixed .ok [7, 1])) true ∧
      (ask 0x14 [] (waitsIn2 true)).hub.mgmt.input.length = 1 ∧ (∀ j : Fin 4, full.hub.mgmt.slots[j] ≠ .free) ∧
      full.hub.mgmt.input.length = 1 ∧ s0.hub.mgmt.input = [] ∧ Instr.readStatus [] ∈ requestRows [] :=
  ⟨by decide +kernel, by decide +kernel, by decide +kernel, by decide +kernel, by decide +kernel, by decide⟩

/-- R169, R172: a parked operation's reply that waits does not keep the unit, an earlier request's does. -/
theorem test_take_waits :
    (after (.setConsist []) (ask 0x13 [7, 1] (waitsIn2 false))).consist.carriage = 7 ∧
      (after (.setConsist []) (ask 0x13 [7, 1] (waitsIn2 true))).consist = s0.consist := by decide +kernel

/-- The same hub with a high mark that one cell of a stack of 1 reaches. -/
def nearHigh (s : State) : State := cells (fun c => { c with high := 3072, low := 100 }) s

/-- A part with a report address, a lost count, `n` notices and a free stack, one cell short of its high mark. -/
def nearTold (lost n : Nat) (free : List Nat) : Hub :=
  (nearHigh (cells (fun c => { c with free := free }) (mgmt (fun m => { m with
    reportAddr := some srv, lost := lost, notices := List.range n }) s0))).hub

/-- Entries into PRESSURE, and none: for a reply and a notice of one cell, for two notices at the second's cell, and for
NOTICES_LOST alone; the cells of each. -/
theorem witness_EntersAfter :
    let loss := cellsFor ((mgmtFrame srv 0 (Notice.noticesLost 1).code 0 0 0 (Notice.noticesLost 1).body).length + 4)
    loss = 1 ∧ Enters (nearHigh (toBuild [5] [])).hub 1 ∧ ¬ Enters (toBuild [5] []).hub 1 ∧
      Enters (nearHigh (toBuild [5] [2, 0])).hub 1 ∧ Enters (nearTold 0 11 [5]) 1 ∧ ¬ Enters (nearTold 0 11 [5, 6]) 1 ∧
      Enters (nearTold 1 10 [5, 6]) 2 ∧ ¬ Enters (nearTold 1 11 [5, 6]) 1 ∧ Enters (nearTold 1 11 [5]) 1 ∧
      StackOk (nearHigh (toBuild [5] [])) ∧ StackOk { State.reset with hub := nearTold 0 11 [5] } ∧
      StackOk { State.reset with hub := nearTold 1 10 [5, 6] } := by
  unfold Enters StackOk
  decide +kernel

/-- R33: the cell that brings cells held to a high mark of 3,057 enters PRESSURE, with the notice of it; the return of one
that brings them to a low mark of 3,057 leaves it, with its notice (under a high mark of 4,000). -/
theorem test_pressure_told :
    let s := mgmt (fun m => { m with reportAddr := some srv }) (cells (fun c => { c with high := 3057, low := 3057 }) s0)
    told 8 (after (.takeCell (.backbone .ba)) s) = [[0x4A, 1, 0, 11, 241, 11, 241, 11, 241]] ∧
      told 8 (onHub (Hub.giveBack s.sender [] [20]) (cells (fun c =>
          { c with free := List.range 14, high := 4000, pressure := .pressure }) s)) =
        [[0x4A, 2, 0, 11, 241, 15, 160, 11, 241]] := by decide +kernel

/-- A failed cell with 63 and with 64 cells retired; in PRESSURE, a return that comes to the low mark and one that stays
above it; in NORMAL; and no cell. -/
theorem witness_DiscardCountsOnce_returned :
    let h (n low : Nat) (p : Pressure) : Hub := (cells (fun c => { c with
      retired := (List.range n).map (· + 100), low := low, pressure := p }) s0).hub
    (([1] : List Nat).filter (fun x => ([1] : List Nat).contains x)).length ≤ 64 - (h 63 0 .normal).cells.retired.length ∧
      64 - (h 64 0 .normal).cells.retired.length < (([1] : List Nat).filter (fun x => ([1] : List Nat).contains x)).length ∧
      ((h 0 3055 .pressure).cells.pressure = .pressure ∧ ([1] : List Nat) ≠ [] ∧
        (h 0 3055 .pressure).cells.held - ([1] : List Nat).length ≤ (h 0 3055 .pressure).cells.low) ∧
      (h 0 3054 .pressure).cells.low < (h 0 3054 .pressure).cells.held - ([1] : List Nat).length ∧
      (h 0 0 .normal).cells.pressure = .normal ∧ ((busy.hub.cells.frame? 41).map (·.refs)) = some 1 := by decide +kernel

/-- A reset of a part in PRESSURE, whose rebuilt memory is at the low mark or below; and of one with 64 retired cells that
meet the lowest high mark. -/
theorem witness_ResetEmptiesAndKeeps_tested :
    let worn := cells (fun c => { c with retired := (List.range 64).map (· + 100), high := 64 }) s0
    Meets (ask 0x19 [] (holding .pressure)) 0x19 (fun _ =>
        (warmReset (afterTake (ask 0x19 [] (holding .pressure)) [])).hub.cells.pressure = .pressure ∧
        (warmReset (afterTake (ask 0x19 [] (holding .pressure)) [])).hub.cells.held ≤
          (warmReset (afterTake (ask 0x19 [] (holding .pressure)) [])).hub.cells.low) ∧
      Meets (ask 0x19 [] (cells (fun c => { c with pressure := .pressure, low := 63 }) worn)) 0x19 (fun _ => True) ∧
      worn.hub.cells.pressure = .normal ∧ worn.hub.cells.high ≤ worn.hub.cells.retired.length :=
  ⟨meets (by decide +kernel), meets (by decide +kernel), by decide +kernel⟩

end Sys2Proof.Tests
end

section
/-! SUPPORT. A request that is taken is carried out by its row's rule on the state after the take, whose station table is
that before it; what the look-up by address finds; and a request that names a station with no record (R59). -/

namespace Sys2Proof.Laws

open Sys2Proof Sys2Proof.Machine Sys2Proof.Safety

/-! ## The look-up by address -/

/-- No slot is found for an address exactly where no record has it (R37, R59). -/
theorem byAddr_eq_none_iff {t : StationTable} {a : LinkAddr} :
    t.byAddr a = none ↔ ∀ k st, t.station? k = some st → st.addr ≠ a := by
  have hany := slotsWhere_any t (fun st => decide (st.addr = a))
  rw [StationTable.byAddr, List.head?_eq_none_iff, ← List.isEmpty_iff]
  cases he : (t.slotsWhere (fun st => decide (st.addr = a))).isEmpty <;> simpa [he] using hany

/-- An address with the group bit set is no record's, where the records have station addresses (R38). -/
theorem byAddr_group {s : State} {a : LinkAddr} (hs : AddressesOk s) (ha : isGroup a = true) :
    s.table.byAddr a = none := by
  rw [byAddr_eq_none_iff]
  rintro k st hk rfl
  have hst : isGroup st.addr = false := hs k st hk
  exact absurd ha (by simp [hst])

/-! ## Requests that are taken -/

/-- What the take of a request leaves alone (R169), with the cells that have gone bad by then. -/
theorem afterTake_kept (s : State) (fs : List CellFault) :
    Kept s (afterTake s fs) ∧ (afterTake s fs).table = s.table ∧ (afterTake s fs).up = s.up := by
  unfold afterTake
  split
  case h_1 k e f rq _ =>
    obtain ⟨hkept, htable, hup⟩ := takeInto_kept k e f rq (withFaults fs s)
    exact ⟨(onHub_kept _ s).trans hkept, htable, hup⟩
  case h_2 => exact ⟨Kept.refl s, rfl, rfl⟩

/-- A request that its row's command takes and that passes the common checks is carried out by the row's rule on the
state after the take (R169, R170). -/
theorem takeRequest_of_takes {row : Request → Bool} {fs : List CellFault} {rule : Fin 4 → Request → State → State}
    {s : State} {k : Fin 4} {rq : Request} (ht : Takes s fs k rq) (hrow : row rq = true) :
    takeRequest row fs rule s = rule k rq (afterTake s fs) := by
  obtain ⟨e, f, hready, hread, hsrc, hcommon⟩ := ht
  rw [takeRequest_rule hready hrow hread hsrc hcommon, afterTake, hready]

/-- The row test of a request code. -/
theorem isCode_of_eq {c : Nat} {rq : Request} (h : rq.code = c) : isCode c rq = true := decide_eq_true h

/-! ## Requests that name a station -/

/-- The first check of a station request (R59). -/
theorem onStation_unknown {k : Fin 4} {a : LinkAddr} {rule : Fin 256 → Station → State → State} {s : State}
    (h : s.table.byAddr a = none) : onStation k a rule s = refuse k .noStation s := by
  rw [onStation, h]

/-- RENEW of one address looks for its record first, as every station request does (R59, R106). -/
theorem ruleRenew_unknown {k : Fin 4} {rq : Request} {s : State} (hsel : rq.num 0 1 = 0)
    (h : s.table.byAddr (rq.addr 2) = none) : ruleRenew k rq s = refuse k .noStation s := by
  rw [ruleRenew, if_neg (not_not.mpr hsel), onStation_unknown h]

/-- A request that is taken and names no record, under a rule that refuses it: the refusal is its whole effect. -/
theorem takeRequest_unknown {row : Request → Bool} {fs : List CellFault} {rule : Fin 4 → Request → State → State}
    {s : State} {k : Fin 4} {rq : Request} {a : LinkAddr} (ht : Takes s fs k rq) (hrow : row rq = true)
    (h : s.table.byAddr a = none)
    (hrule : ∀ t : State, t.table.byAddr a = none → rule k rq t = refuse k .noStation t) :
    takeRequest row fs rule s = refuse k .noStation (afterTake s fs) := by
  obtain ⟨_, htable, _⟩ := afterTake_kept s fs
  rw [takeRequest_of_takes ht hrow, hrule _ (htable ▸ h)]

end Sys2Proof.Laws
end

section
/-! The statements on the station table (chapter 3). -/

namespace Sys2Proof.Proofs

open Sys2Proof Sys2Proof.Machine Sys2Proof.Safety Sys2Proof.Laws

/-- The requests that name a station at the front of their body (R59): the rule of each is an `onStation`, so one argument
serves all seven. -/
theorem exec_unknown_station {s : State} {fs : List CellFault} {k : Fin 4} {rq : Request} (ht : Takes s fs k rq)
    (h : s.table.byAddr (rq.addr 0) = none) :
    let t := refuse k .noStation (afterTake s fs)
    (rq.code = 0x01 → exec (.readStation fs) s = .next t) ∧ (rq.code = 0x03 → exec (.admitStation fs) s = .next t) ∧
      (rq.code = 0x04 → exec (.bar fs) s = .next t) ∧ (rq.code = 0x05 → exec (.unbar fs) s = .next t) ∧
      (rq.code = 0x06 → exec (.release fs) s = .next t) ∧ (rq.code = 0x07 → exec (.setAllowance fs) s = .next t) ∧
      (rq.code = 0x09 → exec (.setShaping fs) s = .next t) := by
  refine ⟨?_, ?_, ?_, ?_, ?_, ?_, ?_⟩ <;> intro hc <;>
    exact congrArg Host.Outcome.next (takeRequest_unknown ht (isCode_of_eq hc) h (fun _ => onStation_unknown))

/-- RENEW of one address, which stands behind the selector (R59, R106). -/
theorem execRenew_unknown_station {s : State} {fs : List CellFault} {k : Fin 4} {rq : Request} (ht : Takes s fs k rq)
    (h : s.table.byAddr (rq.addr 2) = none) (hc : rq.code = 0x08) (hsel : rq.num 0 1 = 0) :
    execRenew fs s = .next (refuse k .noStation (afterTake s fs)) := by
  have hrow : (isCode 0x08 rq && decide (rq.num 0 1 ≠ 1)) = true := by simp [isCode_of_eq hc, hsel]
  exact congrArg Host.Outcome.next (takeRequest_unknown ht hrow h (fun _ => ruleRenew_unknown hsel))

/-- RENEW of all (R107): the counts of what it reloads, and the table renewed. -/
theorem execRenewAll_of_takes {s : State} {fs : List CellFault} {k : Fin 4} {rq : Request} (ht : Takes s fs k rq)
    (hc : rq.code = 0x08) (hsel : rq.num 0 1 = 1) :
    execRenewAll fs s = .next (answer k (renewAllReply (afterTake s fs).table) (renewTable (afterTake s fs))) := by
  have hrow : (isCode 0x08 rq && decide (rq.num 0 1 = 1)) = true := by simp [isCode_of_eq hc, hsel]
  exact congrArg Host.Outcome.next (takeRequest_of_takes ht hrow)

/-- Settles O42: the take leaves the table alone, so each rule's look-up finds what stood there before it. -/
theorem unknownStationIsAnswered : Obligations.UnknownStationIsAnswered := by
  unfold Obligations.UnknownStationIsAnswered
  refine ⟨fun s fs k rq ht => ⟨?_, ?_, ?_⟩, fun s a => byAddr_group⟩
  · exact exec_unknown_station ht
  · exact execRenew_unknown_station ht
  · exact fun hc hsel => ⟨_, _, execRenewAll_of_takes ht hc hsel⟩

end Sys2Proof.Proofs
end

section
/-! SUPPORT. What a reception that comes to its end leaves alone (R22, R23), how a radio notice that arrives is acted on
(R62, R64), and the row of R65 that confirms a record (R66). -/

namespace Sys2Proof.Laws

open Sys2Proof Sys2Proof.Machine Sys2Proof.Safety

/-! ## The taking of cells in a reception -/

/-- A cell that a reception takes, and the loss of the reception where there is none, touch Cell Memory and the ports
alone (R22). -/
theorem needCell_kept (p : Port) (chain : List Nat) (s : State) :
    Kept s (needCell p chain s) ∧ (needCell p chain s).table = s.table ∧ (needCell p chain s).up = s.up := by
  unfold needCell
  split <;> exact ⟨⟨rfl, rfl, rfl, rfl, rfl, rfl, rfl⟩, rfl, rfl⟩

theorem takeOneCell_kept (p : Port) (s : State) :
    Kept s (takeOneCell p s) ∧ (takeOneCell p s).table = s.table ∧ (takeOneCell p s).up = s.up := by
  unfold takeOneCell
  split
  case h_1 => exact needCell_kept p [] s
  case h_2 chain _ => exact needCell_kept p chain s
  case h_3 => exact ⟨Kept.refl s, rfl, rfl⟩

theorem takeMissing_kept (p : Port) (n : Nat) (s : State) :
    Kept s (takeMissing p n s) ∧ (takeMissing p n s).table = s.table ∧ (takeMissing p n s).up = s.up := by
  induction n generalizing s with
  | zero => exact ⟨Kept.refl s, rfl, rfl⟩
  | succ n ih =>
    obtain ⟨hone, htable, hup⟩ := takeOneCell_kept p s
    obtain ⟨hrest, htable', hup'⟩ := ih (takeOneCell p s)
    exact ⟨hone.trans hrest, htable'.trans htable, hup'.trans hup⟩

/-- The end of a reception takes the cells still needed and sets the reception idle, and nothing else (R22, R23). -/
theorem endReception_kept (p : Port) (L : Nat) (s : State) :
    Kept s (endReception p L s).2 ∧ (endReception p L s).2.table = s.table ∧ (endReception p L s).2.up = s.up := by
  obtain ⟨htaken, htable, hup⟩ := takeMissing_kept p (cellsFor L - ((s.ports.unitOf p).rx.chain).length) s
  have hidle : ∀ t : State, Kept t (setRx p .idle t) := onPorts_kept _
  simp only [endReception]
  split <;> exact ⟨htaken.trans (hidle _), htable, hup⟩

/-! ## Radio notices that arrive -/

/-- The arrival of a notice finds the station table and the time as they stand (R62). -/
theorem noticeArrives_kept {w : Fin 4} {len : Nat} {s : State} {chain : List Nat} {s1 : State}
    (h : NoticeArrives w len s chain s1) : Kept s s1 ∧ s1.table = s.table ∧ s1.up = s.up := by
  obtain ⟨_, hend⟩ := h
  simpa only [hend] using endReception_kept (.radio w) len s

/-- A notice that arrives with its wire check passed and the length of its body is acted on after its cells have gone
back (R23, R62, R191). -/
theorem receiveNotice_of_arrives {w : Fin 4} {n : RadioNotice} {len : Nat} {s : State} {chain : List Nat} {s1 : State}
    (h : NoticeArrives w len s chain s1) (hlen : len = n.bodyLength + 4) :
    receiveNotice w n len true s = takeNotice w n (giveBackCells chain s1) := by
  obtain ⟨hcan, hend⟩ := h
  subst hlen
  simp [receiveNotice, receivedNotice, hcan, hend]

/-! ## ASSOCIATED -/

/-- ASSOCIATED with an index of a radio and a station address counts as taken and is decided by R65 (R64). -/
theorem takeAssociated_of_station {w : Fin 4} {i : Byte} {a : LinkAddr} {s : State} (hi : i.toNat < 64)
    (ha : isGroup a = false) : takeAssociated w i a s = noticeTaken w (associate w i.toNat a s) := by
  rw [takeAssociated, if_neg (by omega), if_neg (by simp [ha])]

/-- The address stands at the radio and index already: the row of R65 for that place is the confirmation (R66). -/
theorem associate_same_place {w : Fin 4} {i : Nat} {a : LinkAddr} {s : State} {k : Fin 256} {st : Station}
    (ha : s.table.byAddr a = some k) (hk : s.table.station? k = some st) (hl : st.isLeaving = false)
    (ho : st.origin = .radio w i) : associate w i a s = confirm k w i s := by
  have hk' : s.station? k = some st := hk
  simp [associate, ha, hk', hl, ho]

/-- Two changes of one radio, one after the other, are one change of it. -/
theorem modRadio_modRadio (ps : Ports) (w : Fin 4) (f g : RadioLink → RadioLink) :
    (ps.modRadio w f).modRadio w g = ps.modRadio w (fun q => g (f q)) := by
  simp [Ports.modRadio]

/-- A confirmation that counts as taken, field by field: the record's two times, the radio's orders and its count of
notices (R8, R65, R66). -/
theorem noticeTaken_confirm (k : Fin 256) (w : Fin 4) (i : Nat) (s : State) :
    noticeTaken w (confirm k w i s) = { s with
      table := s.table.modStation k (fun r => { r with lastFrame := s.now, idleStart := s.now })
      ports := s.ports.modRadio w (fun q => { q with
        orders := q.orders.filter (fun o => decide (o.index ≠ i)), noticesTaken := q.noticesTaken + 1 }) } :=
  congrArg (fun ps : Ports => { s with table := s.table.modStation k (Station.touch s.now), ports := ps })
    (modRadio_modRadio s.ports w (fun q => { q with orders := discardOrder i q.orders })
      (fun q => { q with noticesTaken := q.noticesTaken + 1 }))

end Sys2Proof.Laws
end

section
/-! The statements on the radio links (chapter 4). -/

namespace Sys2Proof.Proofs

open Sys2Proof Sys2Proof.Machine Sys2Proof.Safety Sys2Proof.Laws

/-- Settles O22: the arrival leaves the table and the time alone, so the record stands where R65 looks for it, and its
row is the confirmation. -/
theorem associatedConfirms : Obligations.AssociatedConfirms := by
  unfold Obligations.AssociatedConfirms
  intro w i a s chain s1 k st harr hi hgroup hbyAddr hst hleaving horigin
  obtain ⟨hkept, htable, _⟩ := noticeArrives_kept harr
  have hconfirm : associate w i.toNat a (giveBackCells chain s1) = confirm k w i.toNat (giveBackCells chain s1) :=
    associate_same_place (by simpa [htable] using hbyAddr) (by rw [giveBackCells_table, htable]; exact hst) hleaving
      horigin
  have htaken : execAssociated w i a 12 true s =
      .next (noticeTaken w (confirm k w i.toNat (giveBackCells chain s1))) := by
    rw [execAssociated, receiveNotice_of_arrives harr rfl, takeNotice, takeAssociated_of_station hi hgroup, hconfirm]
  refine htaken.trans (congrArg Host.Outcome.next ?_)
  simp only [noticeTaken_confirm, giveBackCells_table, giveBackCells_now, giveBackCells_ports, htable, hkept.now]

end Sys2Proof.Proofs
end

section
/-! SUPPORT. What a charge makes of an allowance and which charges are exhaustions (R98, R99), and what a charge of a
record with an allowance does (R95). -/

namespace Sys2Proof.Laws

open Sys2Proof Sys2Proof.Machine

/-! ## The allowance after a charge -/

/-- A charge below current takes its bytes from current (R98). -/
theorem allowance_charge_of_lt {al : Allowance} {L : Nat} (h : L < al.current) :
    al.charge L = { al with current := al.current - L } := if_pos h

/-- A charge not below current leaves current 0 and adds the excess to overrun (R98, R100). -/
theorem allowance_charge_of_le {al : Allowance} {L : Nat} (h : al.current ≤ L) :
    al.charge L = { al with current := 0, overrun := al.overrun + BitVec.ofNat 32 (L - al.current) } :=
  if_neg (Nat.not_lt.mpr h)

/-- A charge of exactly current has no excess: overrun stays (R98). -/
theorem allowance_charge_current (al : Allowance) : al.charge al.current = { al with current := 0 } := by
  rw [allowance_charge_of_le le_rfl, Nat.sub_self, BitVec.add_zero]

/-- The exhaustions are the charges that bring current from above 0 to 0 (R99). -/
theorem exhaustedBy_iff {al : Allowance} {L : Nat} : al.exhaustedBy L = true ↔ 0 < al.current ∧ al.current ≤ L := by
  simp [Allowance.exhaustedBy]

/-! ## The charge of a record -/

section
variable {k : Fin 256} {L : Nat} {s : State} {st : Station} {al : Allowance}

/-- A charge that is an exhaustion is stored and then handled as one (R98, R99). -/
theorem charge_of_exhausting (cause : Cause) (hst : s.station? k = some st) (hal : st.allowance = some al)
    (hpos : 0 < al.current) (hle : al.current ≤ L) :
    charge k cause L s = exhaust k cause L { s with
      table := s.table.modStation k (fun r => { r with allowance := some (al.charge L) }) } := by
  simp only [charge, hst, hal, if_pos (exhaustedBy_iff.mpr ⟨hpos, hle⟩), onTable]

/-- A charge that is no exhaustion changes the stored allowance and nothing else (R98). -/
theorem charge_of_not_exhausting (cause : Cause) (hst : s.station? k = some st) (hal : st.allowance = some al)
    (hno : ¬ (0 < al.current ∧ al.current ≤ L)) :
    charge k cause L s = { s with
      table := s.table.modStation k (fun r => { r with allowance := some (al.charge L) }) } := by
  simp only [charge, hst, hal, if_neg (mt exhaustedBy_iff.mp hno), onTable]

end

end Sys2Proof.Laws
end

section
/-! The statements on the allowances (chapter 6). -/

namespace Sys2Proof.Proofs

open Sys2Proof Sys2Proof.Machine Sys2Proof.Safety Sys2Proof.Laws

/-- Settles O25: in each case of R98 the comparison says what is stored and whether the charge is an exhaustion. -/
theorem chargeComparesWithCurrent : Obligations.ChargeComparesWithCurrent := by
  unfold Obligations.ChargeComparesWithCurrent
  intro k cause L s st al hst hal stored
  refine ⟨fun hbelow => ?below, fun hequal hpos => ?equal, fun habove hpos => ?above, fun hzero _ => ?zero⟩
  case below =>
    rw [charge_of_not_exhausting cause hst hal (by omega), allowance_charge_of_lt hbelow]
  case equal =>
    rw [charge_of_exhausting cause hst hal hpos hequal.ge, hequal, allowance_charge_current]
  case above =>
    rw [charge_of_exhausting cause hst hal hpos habove.le, allowance_charge_of_le habove.le]
  case zero =>
    rw [charge_of_not_exhausting cause hst hal (by omega), allowance_charge_of_le (by omega), hzero, Nat.sub_zero]

end Sys2Proof.Proofs
end

section
/-! SUPPORT. What a request that fails a common check is answered with, one of CREW level among them (R170); which lead
codes have a meaning (R190); and what the rule of SET_CONSIST answers and stores (R151). -/

namespace Sys2Proof.Laws

open Sys2Proof Sys2Proof.Machine Sys2Proof.Safety

/-! ## Requests that are refused -/

/-- A request of the length of its code, sent at CREW level where its code is SERVER level alone, passes the checks
before that of its level and fails that one (R170). -/
theorem commonRefusal_of_crew {rq : Request} {len : Nat} (hinfo : requestInfo rq.code = some (len, false))
    (hbody : rq.bodyLength = len) (hframe : 22 + len ≤ rq.frameLength - 4) (hlevel : rq.level = .crew) :
    commonRefusal rq = some .notPermitted := by
  subst hbody
  have hlength : ¬ (rq.bodyLength ≠ rq.bodyLength ∨ rq.frameLength - 4 < 22 + rq.bodyLength) := by omega
  simp only [commonRefusal, hinfo, if_neg hlength, hlevel, and_self, if_true]

/-- A request that its row's command takes and that fails a common check is refused on the state after the take (R169,
R170). -/
theorem takeRequest_of_commonRefusal {row : Request → Bool} {fs : List CellFault}
    {rule : Fin 4 → Request → State → State} {s : State} {k : Fin 4} {e : InputEntry} {f : FrameRec} {rq : Request}
    {st : Status} (hready : requestReady s = some (k, e, f, rq)) (hrow : row rq = true)
    (hread : ((withFaults fs s).hub.readFrame f none).1 = []) (hsrc : isGroup rq.src = false)
    (hcommon : commonRefusal rq = some st) :
    takeRequest row fs rule s = refuse k st (afterTake s fs) := by
  rw [takeRequest_refused hready hrow hread hsrc hcommon, afterTake, hready]

/-! ## SET_CONSIST -/

/-- The three lead codes that have a meaning (R190). -/
theorem leadOfCode_eq_some_iff {c : Nat} {lead : Option End} :
    leadOfCode c = some lead ↔ c = 0 ∧ lead = none ∨ c = 1 ∧ lead = some .ba ∨ c = 2 ∧ lead = some .bb := by
  match c with
  | 0 | 1 | 2 => simp [leadOfCode, eq_comm]
  | n + 3 => simp [leadOfCode]

/-- Every code above 2 is without a meaning (R190). -/
theorem leadOfCode_eq_none_iff {c : Nat} : leadOfCode c = none ↔ 2 < c := by
  match c with
  | 0 | 1 | 2 => simp [leadOfCode]
  | n + 3 => simp [leadOfCode]

section
variable {k : Fin 4} {rq : Request} {s : State}

/-- One field out of its values refuses the request, whatever the other holds: neither is stored (R151). -/
theorem ruleSetConsist_badValue (h : 63 < rq.num 0 1 ∨ 2 < rq.num 1 1) :
    ruleSetConsist k rq s = refuse k .badValue s := by
  cases hlead : leadOfCode (rq.num 1 1) with
  | none => simp only [ruleSetConsist, hlead]
  | some lead =>
    have hcode : ¬ 2 < rq.num 1 1 := by simp [← leadOfCode_eq_none_iff, hlead]
    simp only [ruleSetConsist, hlead, if_pos (h.resolve_right hcode)]

/-- Both fields within their values are stored at once, and answered as stored (R151). -/
theorem ruleSetConsist_stores {lead : Option End} (hcarriage : rq.num 0 1 ≤ 63)
    (hlead : leadOfCode (rq.num 1 1) = some lead) :
    ruleSetConsist k rq s = answer k [BitVec.ofNat 8 (rq.num 0 1), leadCode lead]
      { s with consist := { carriage := rq.num 0 1, lead := lead } } := by
  simp only [ruleSetConsist, hlead, if_neg (Nat.not_lt.mpr hcarriage)]

end

end Sys2Proof.Laws
end

section
/-! The statements on the consist (chapter 9). -/

namespace Sys2Proof.Proofs

open Sys2Proof Sys2Proof.Machine Sys2Proof.Safety Sys2Proof.Laws

/-- SET_CONSIST that is taken is carried out by its rule on the state after the take (R151, R169). -/
theorem execSetConsist_of_takes {s : State} {fs : List CellFault} {k : Fin 4} {rq : Request} (ht : Takes s fs k rq)
    (hcode : rq.code = 0x13) : execSetConsist fs s = .next (ruleSetConsist k rq (afterTake s fs)) :=
  congrArg Host.Outcome.next (takeRequest_of_takes ht (isCode_of_eq hcode))

/-- Settles O56: the rule of R151 looks at the two fields of the body alone, so no link has a part in it; at CREW level
the common checks refuse the request before its rule. -/
theorem setConsistStores : Obligations.SetConsistStores := by
  unfold Obligations.SetConsistStores
  refine ⟨fun s fs k rq ht hcode => ⟨fun hbad => ?bad, fun lead hcarriage hlead => ?stored⟩,
    fun s fs k e f rq hready hread hsrc hcode hbody hframe hlevel => ?crew⟩
  case bad =>
    exact (execSetConsist_of_takes ht hcode).trans (congrArg Host.Outcome.next (ruleSetConsist_badValue hbad))
  case stored =>
    exact (execSetConsist_of_takes ht hcode).trans
      (congrArg Host.Outcome.next (ruleSetConsist_stores hcarriage (leadOfCode_eq_some_iff.mpr hlead)))
  case crew =>
    have hinfo : requestInfo rq.code = some (2, false) := hcode ▸ rfl
    exact congrArg Host.Outcome.next (takeRequest_of_commonRefusal hready (isCode_of_eq hcode) hread hsrc
      (commonRefusal_of_crew hinfo hbody hframe hlevel))

end Sys2Proof.Proofs
end

section
/-! SUPPORT. Which flag codes have a meaning (R190, R193), and what the rule of CLEAR_STATUS answers and clears (R181). -/

namespace Sys2Proof.Laws

open Sys2Proof Sys2Proof.Machine Sys2Proof.Safety

/-! ## Flag codes -/

/-- A flag is found by its code, one more than its place in the status record (R193). -/
@[simp] theorem flagOfCode_index (f : Flag) : flagOfCode (f.index.val + 1) = some f := by
  cases f <;> rfl

/-- The codes without a meaning are 0 and those above 11 (R190). -/
theorem flagOfCode_eq_none_iff {c : Nat} : flagOfCode c = none ↔ c = 0 ∨ 11 < c := by
  match c with
  | 0 | 1 | 2 | 3 | 4 | 5 | 6 | 7 | 8 | 9 | 10 | 11 => simp [flagOfCode]
  | n + 12 => simp [flagOfCode]

/-! ## CLEAR_STATUS -/

section
variable {k : Fin 4} {rq : Request} {s : State} {f : Flag}

/-- A code of no flag is refused, whatever count is given (R181). -/
theorem ruleClearStatus_badValue (h : rq.num 0 1 = 0 ∨ 11 < rq.num 0 1) :
    ruleClearStatus k rq s = refuse k .badValue s := by
  rw [ruleClearStatus, flagOfCode_eq_none_iff.mpr h]

/-- A flag that has occurred since its count was seen is kept, and the reply gives the count that it has now (R181). -/
theorem ruleClearStatus_stale (hcode : rq.num 0 1 = f.index.val + 1) (hcount : (s.hub.flagOf f).count ≠ rq.num 1 2) :
    ruleClearStatus k rq s =
      fixReply k (.fixed .stale (clearBody (rq.num 0 1) (s.hub.flagOf f).count)) true s := by
  have hflag : flagOfCode (rq.num 0 1) = some f := hcode ▸ flagOfCode_index f
  simp only [ruleClearStatus, hflag, if_neg hcount]

/-- A flag whose count is the one seen is cleared, and the reply gives the count 0 (R181). -/
theorem ruleClearStatus_clears (hcode : rq.num 0 1 = f.index.val + 1) (hcount : (s.hub.flagOf f).count = rq.num 1 2) :
    ruleClearStatus k rq s = answer k (clearBody (rq.num 0 1) 0) (onHub (Hub.clearFlag f) s) := by
  have hflag : flagOfCode (rq.num 0 1) = some f := hcode ▸ flagOfCode_index f
  simp only [ruleClearStatus, hflag, if_pos hcount]

end

end Sys2Proof.Laws
end

section
/-! The statements on the status record (chapter 10). -/

namespace Sys2Proof.Proofs

open Sys2Proof Sys2Proof.Machine Sys2Proof.Safety Sys2Proof.Laws

/-- CLEAR_STATUS that is taken is carried out by its rule on the state after the take (R169, R181). -/
theorem execClearStatus_of_takes {s : State} {fs : List CellFault} {k : Fin 4} {rq : Request} (ht : Takes s fs k rq)
    (hcode : rq.code = 0x15) : execClearStatus fs s = .next (ruleClearStatus k rq (afterTake s fs)) :=
  congrArg Host.Outcome.next (takeRequest_of_takes ht (isCode_of_eq hcode))

/-- Settles O57: the rule of R181 compares the count seen with the flag's count after the take, which counts the errors
that the take itself finds; at CREW level the common checks refuse the request before its rule. -/
theorem clearStatusClears : Obligations.ClearStatusClears := by
  unfold Obligations.ClearStatusClears
  refine ⟨fun s fs k rq ht hcode =>
      ⟨fun hbad => ?bad, fun flag hflag => ⟨fun hother => ?stale, fun hseen => ?cleared⟩⟩,
    fun s fs k e f rq hready hread hsrc hcode hbody hframe hlevel => ?crew⟩
  case bad =>
    exact (execClearStatus_of_takes ht hcode).trans (congrArg Host.Outcome.next (ruleClearStatus_badValue hbad))
  case stale =>
    exact (execClearStatus_of_takes ht hcode).trans
      (congrArg Host.Outcome.next (ruleClearStatus_stale hflag hother))
  case cleared =>
    exact (execClearStatus_of_takes ht hcode).trans
      (congrArg Host.Outcome.next (ruleClearStatus_clears hflag hseen))
  case crew =>
    have hinfo : requestInfo rq.code = some (3, false) := hcode ▸ rfl
    exact congrArg Host.Outcome.next (takeRequest_of_commonRefusal hready (isCode_of_eq hcode) hread hsrc
      (commonRefusal_of_crew hinfo hbody hframe hlevel))

end Sys2Proof.Proofs
end

section
/-! SUPPORT. What every operation of Cell Memory and of the Management Unit keeps: the form of the bytes (2.1), the
conservation of the cells (R20), the lengths and budgets that the credit range rests on (R24, R113), and the capacities of
the queues there (11.5). Each operation is said once; the invariants of the part follow from these. -/

namespace Sys2Proof.Laws

open Sys2Proof Sys2Proof.Machine Sys2Proof.Safety

/-! ## Cells in one place -/

/-- Every cell is in one place (R20): on the stack, in a stored frame, retired, or among the cells `R` that are elsewhere,
in reception or between two places. -/
structure Stocked (c : CellMemory) (R : List Nat) : Prop where
  conserved : (c.free ++ frameCells c ++ R ++ c.retired).Perm (List.range 3072)
  chains : ∀ f ∈ c.frames, f.chain ≠ [] ∧ ∀ x ∈ f.failed, x ∈ f.chain

theorem Stocked.perm {c : CellMemory} {R R' : List Nat} (h : Stocked c R) (hp : R'.Perm R) : Stocked c R' :=
  ⟨(((List.Perm.refl _).append hp).append (.refl _)).trans h.conserved, h.chains⟩

theorem Stocked.nodup {c : CellMemory} {R : List Nat} (h : Stocked c R) :
    (c.free ++ frameCells c ++ R ++ c.retired).Nodup := h.conserved.nodup_iff.mpr List.nodup_range

theorem Stocked.nodup_frames {c : CellMemory} {R : List Nat} (h : Stocked c R) : (frameCells c).Nodup :=
  (((List.nodup_append.mp h.nodup).1 |> List.nodup_append.mp).1 |> List.nodup_append.mp).2.1

/-- Two lists of cells with one cell in common stand at the same place of a list of chains without repeats. -/
theorem chain_unique {fs : List FrameRec} (h : (fs.flatMap (·.chain)).Nodup) {f g : FrameRec} (hf : f ∈ fs) (hg : g ∈ fs)
    {x : Nat} (hxf : x ∈ f.chain) (hxg : x ∈ g.chain) : f = g := by
  induction fs with
  | nil => cases hf
  | cons a fs ih =>
    rw [List.flatMap_cons, List.nodup_append] at h
    obtain ⟨_, hrest, hdis⟩ := h
    have hne : ∀ {u}, u ∈ fs → x ∈ a.chain → x ∉ u.chain := fun hu hxa hxu =>
      hdis x hxa x (List.mem_flatMap.mpr ⟨_, hu, hxu⟩) rfl
    rcases List.mem_cons.mp hf with hfa | hfs <;> rcases List.mem_cons.mp hg with hga | hgs
    · rw [hfa, hga]
    · exact absurd hxg (hne hgs (hfa ▸ hxf))
    · exact absurd hxf (hne hfs (hga ▸ hxg))
    · exact ih hrest hfs hgs

theorem id_mem_chain {f : FrameRec} (h : f.chain ≠ []) : f.id ∈ f.chain := by
  obtain ⟨x, xs, hx⟩ := List.exists_cons_of_ne_nil h
  simp [FrameRec.id, hx]

/-- A reference names one stored frame (R24). -/
theorem Stocked.id_inj {c : CellMemory} {R : List Nat} (h : Stocked c R) {f g : FrameRec} (hf : f ∈ c.frames)
    (hg : g ∈ c.frames) (hid : f.id = g.id) : f = g :=
  chain_unique h.nodup_frames hf hg (id_mem_chain (h.chains f hf).1) (hid ▸ id_mem_chain (h.chains g hg).1)

theorem frame?_mem {c : CellMemory} {id : Nat} {f : FrameRec} (h : c.frame? id = some f) : f ∈ c.frames ∧ f.id = id :=
  ⟨List.mem_of_find?_eq_some h, by simpa using List.find?_some h⟩

theorem nodup_of_flatMap {fs : List FrameRec} (h : (fs.flatMap (·.chain)).Nodup) (hc : ∀ f ∈ fs, f.chain ≠ []) :
    fs.Nodup := by
  induction fs with
  | nil => exact .nil
  | cons a fs ih =>
    rw [List.flatMap_cons, List.nodup_append] at h
    obtain ⟨_, hrest, hdis⟩ := h
    refine List.nodup_cons.mpr ⟨fun ha => ?_, ih hrest (fun f hf => hc f (List.mem_cons_of_mem _ hf))⟩
    have hx := id_mem_chain (hc a List.mem_cons_self)
    exact hdis _ hx _ (List.mem_flatMap.mpr ⟨a, ha, hx⟩) rfl

/-- The cells of the stored frames are those of one frame and those of the others. -/
theorem Stocked.frameCells_split {c : CellMemory} {R : List Nat} (h : Stocked c R) {f : FrameRec} (hf : f ∈ c.frames) :
    (f.chain ++ (c.frames.filter (fun g => decide (g.id ≠ f.id))).flatMap (·.chain)).Perm (frameCells c) := by
  have hnodup := nodup_of_flatMap h.nodup_frames (fun g hg => (h.chains g hg).1)
  have hone : c.frames.filter (fun g => decide (g.id = f.id)) = [f] := by
    have hcongr : c.frames.filter (fun g => decide (g.id = f.id)) = c.frames.filter (fun g => g == f) :=
      List.filter_congr (fun g hg => by
        rw [Bool.eq_iff_iff]
        simpa using ⟨fun e => h.id_inj hg hf e, fun e => by rw [e]⟩)
    rw [hcongr, List.filter_beq, List.count_eq_one_of_mem hnodup hf, List.replicate_one]
  have hsplit := List.filter_append_perm (fun g : FrameRec => decide (g.id = f.id)) c.frames
  rw [hone] at hsplit
  have := (hsplit.flatMap_right (·.chain))
  simpa [frameCells, decide_not] using this

/-! ## What an operation keeps -/

/-- The lengths and budgets that Cell Memory and the Management Unit hold, on which the range of credit rests (R24,
R113). -/
structure HubFit (h : Hub) : Prop where
  lengths : ∀ f ∈ h.cells.frames, f.length ≤ 1536
  stored : BudgetOk h.mgmt.store.settings.params
  slots : ∀ k : Fin 4, SlotOk h.mgmt.slots[k]

/-- What an operation on Cell Memory and the Management Unit keeps, which finds the cells `L` and leaves the cells `M`
between two places. -/
structure HubKeeps (L M : List Nat) (h h' : Hub) : Prop where
  data : h.cells.data.wf = true → h'.cells.data.wf = true
  cells : ∀ R, Stocked h.cells (R ++ L) → Stocked h'.cells (R ++ M)
  fit : HubFit h → HubFit h'
  input : h.mgmt.input.length ≤ 4 → h'.mgmt.input.length ≤ 4
  notices : h.mgmt.notices.length ≤ 12 → h'.mgmt.notices.length ≤ 12
  retired : h.cells.retired.length ≤ 64 → h'.cells.retired.length ≤ 64

theorem HubKeeps.refl (L : List Nat) (h : Hub) : HubKeeps L L h h :=
  ⟨id, fun _ => id, id, id, id, id⟩

theorem HubKeeps.trans {L M N : List Nat} {a b c : Hub} (h : HubKeeps L M a b) (g : HubKeeps M N b c) :
    HubKeeps L N a c :=
  ⟨g.data ∘ h.data, fun R => g.cells R ∘ h.cells R, g.fit ∘ h.fit, g.input ∘ h.input, g.notices ∘ h.notices,
    g.retired ∘ h.retired⟩

/-- What keeps with no cell between two places keeps with any cells there. -/
theorem HubKeeps.frame {h h' : Hub} (k : HubKeeps [] [] h h') (L : List Nat) : HubKeeps L L h h' :=
  ⟨k.data, fun R s => by simpa using k.cells (R ++ L) (by simpa using s), k.fit, k.input, k.notices, k.retired⟩

/-- A change of the Management Unit that leaves Cell Memory and the store alone. -/
theorem HubKeeps.ofMgmt {h h' : Hub} (hc : h'.cells = h.cells) (hs : h'.mgmt.store = h.mgmt.store)
    (slots : ∀ k : Fin 4, SlotOk h.mgmt.slots[k] → SlotOk h'.mgmt.slots[k])
    (input : h'.mgmt.input.length ≤ h.mgmt.input.length) (notices : h'.mgmt.notices.length ≤ h.mgmt.notices.length) :
    HubKeeps [] [] h h' :=
  ⟨by rw [hc]; exact id, fun R => by rw [hc]; exact id,
    fun f => ⟨by rw [hc]; exact f.lengths, by rw [hs]; exact f.stored, fun k => slots k (f.slots k)⟩,
    fun h => input.trans h, fun h => notices.trans h, by rw [hc]; exact id⟩

/-- A change of the Management Unit that leaves Cell Memory, the store, the slots and the queues alone. -/
theorem HubKeeps.ofFigures {h h' : Hub} (hc : h'.cells = h.cells) (hs : h'.mgmt.store = h.mgmt.store)
    (slots : h'.mgmt.slots = h.mgmt.slots) (input : h'.mgmt.input = h.mgmt.input)
    (notices : h'.mgmt.notices = h.mgmt.notices) : HubKeeps [] [] h h' :=
  .ofMgmt hc hs (fun k => by rw [slots]; exact id) (by rw [input]) (by rw [notices])

/-- A change of Cell Memory that leaves the places of the cells, the stored frames, and the bytes alone. -/
theorem HubKeeps.ofCells {h h' : Hub} (hm : h'.mgmt = h.mgmt) (hd : h'.cells.data = h.cells.data)
    (hf : h'.cells.frames = h.cells.frames) (free : h'.cells.free = h.cells.free)
    (retired : h'.cells.retired = h.cells.retired) : HubKeeps [] [] h h' :=
  ⟨by rw [hd]; exact id,
    fun R s => ⟨by rw [frameCells, hf, free, retired]; exact s.conserved, by rw [hf]; exact s.chains⟩,
    fun f => ⟨by rw [hf]; exact f.lengths, by rw [hm]; exact f.stored, by rw [hm]; exact f.slots⟩,
    by rw [hm]; exact id, by rw [hm]; exact id, by rw [retired]; exact id⟩

/-- A change of frame records that keeps chains and lengths, and keeps failed cells in their frames. -/
theorem HubKeeps.ofFrames {h h' : Hub} (g : FrameRec → FrameRec) (hm : h'.mgmt = h.mgmt)
    (hd : h'.cells.data = h.cells.data) (hf : h'.cells.frames = h.cells.frames.map g)
    (free : h'.cells.free = h.cells.free) (retired : h'.cells.retired = h.cells.retired)
    (chain : ∀ f, (g f).chain = f.chain) (length : ∀ f, (g f).length = f.length)
    (failed : ∀ R, Stocked h.cells R → ∀ f ∈ h.cells.frames, ∀ x ∈ (g f).failed, x ∈ f.chain) :
    HubKeeps [] [] h h' := by
  refine ⟨by rw [hd]; exact id, fun R s => ⟨?_, ?_⟩, fun f => ⟨?_, by rw [hm]; exact f.stored, by rw [hm]; exact f.slots⟩,
    by rw [hm]; exact id, by rw [hm]; exact id, by rw [retired]; exact id⟩
  · have hcells : frameCells h'.cells = frameCells h.cells := by
      simp [frameCells, hf, List.flatMap_map, chain]
    rw [hcells, free, retired]
    exact s.conserved
  · rw [hf]
    intro f hmem
    obtain ⟨f0, h0, rfl⟩ := List.mem_map.mp hmem
    exact ⟨chain f0 ▸ (s.chains f0 h0).1, fun x hx => chain f0 ▸ failed _ s f0 h0 x hx⟩
  · rw [hf]
    intro f0 hmem
    obtain ⟨f1, h1, rfl⟩ := List.mem_map.mp hmem
    exact length f1 ▸ f.lengths f1 h1

/-- The same of one frame's record, where the failed cells stay as they are. -/
theorem modFrame_keeps (id : Nat) (g : FrameRec → FrameRec) (h : Hub) (chain : ∀ f, (g f).chain = f.chain)
    (length : ∀ f, (g f).length = f.length) (failed : ∀ f, (g f).failed = f.failed) :
    HubKeeps [] [] h { h with cells := h.cells.modFrame id g } :=
  .ofFrames (fun f => if f.id = id then g f else f) rfl rfl rfl rfl rfl
    (fun f => by split <;> simp [chain]) (fun f => by split <;> simp [length])
    (fun R s f hf x hx => by split at hx <;> exact (s.chains f hf).2 x (by simpa [failed] using hx))

/-! ## Counts, flags and slots -/

theorem tally_keeps (r : Discard) (h : Hub) : HubKeeps [] [] h (h.tally r) := .ofFigures rfl rfl rfl rfl rfl

theorem flag_keeps (f : Flag) (h : Hub) : HubKeeps [] [] h (h.flag f) := .ofFigures rfl rfl rfl rfl rfl

theorem flagN_keeps (f : Flag) (n : Nat) (h : Hub) : HubKeeps [] [] h (Hub.flagN f n h) := by
  induction n generalizing h with
  | zero => exact .refl [] h
  | succ n ih => exact (flag_keeps f h).trans (ih _)

/-- Setting one reply slot keeps what the slots hold within its bounds, where the new contents are. -/
theorem slotOk_set {slots : Vector ReplySlot 4} {j : Fin 4} {q : ReplySlot} (hq : SlotOk q) (k : Fin 4)
    (h : SlotOk slots[k]) : SlotOk (slots.set j q)[k] := by
  by_cases e : j = k
  · subst e; simpa using hq
  · have : j.val ≠ k.val := fun h => e (Fin.ext h)
    simpa [this] using h

theorem setSlot_keeps (j : Fin 4) {q : ReplySlot} (hq : SlotOk q) (h : Hub) : HubKeeps [] [] h (h.setSlot j q) :=
  .ofMgmt rfl rfl (slotOk_set hq) le_rfl le_rfl

theorem freeSlot_keeps (j : Fin 4) (h : Hub) : HubKeeps [] [] h (h.freeSlot j) :=
  .ofMgmt rfl rfl (slotOk_set trivial) le_rfl le_rfl

theorem placeBuilt_keeps (j : Fin 4) (q : ReqHeader) (id : Nat) (h : Hub) : HubKeeps [] [] h (h.placeBuilt j q id) :=
  .ofMgmt rfl rfl (slotOk_set trivial) le_rfl le_rfl

/-! ## References -/

theorem addRef_keeps (id : Nat) (h : Hub) : HubKeeps [] [] h (h.addRef id) :=
  modFrame_keeps id _ h (fun _ => rfl) (fun _ => rfl) (fun _ => rfl)

theorem placeFrame_keeps (id : Nat) (k : Option (Fin 256)) (m : Bool) (h : Hub) :
    HubKeeps [] [] h (h.placeFrame id k m) :=
  modFrame_keeps id _ h (fun _ => rfl) (fun _ => rfl) (fun _ => rfl)

theorem disown_keeps (k : Fin 256) (onboard : List Nat) (h : Hub) :
    HubKeeps [] [] h { h with cells := h.cells.disown k onboard } :=
  .ofFrames (fun f => if f.station = some k ∧ f.id ∈ onboard then { f with station := none } else f)
    rfl rfl rfl rfl rfl (fun f => by split <;> rfl) (fun f => by split <;> rfl)
    (fun R s f hf x hx => (s.chains f hf).2 x (by split at hx <;> exact hx))

/-- The reading of a stored frame adds cells of its chain to its failed cells, and nothing else of the places (R29). -/
theorem readFrame_keeps {f : FrameRec} (port : Option Port) (h : Hub) (hf : f ∈ h.cells.frames) :
    HubKeeps [] [] h (h.readFrame f port).2 := by
  refine HubKeeps.trans ?_ ((flagN_keeps .memorySingle _ _).trans (flagN_keeps .memoryMulti _ _))
  refine .ofFrames (fun g => if g.id = f.id then { g with failed := g.failed ++
    (f.chain.filter (fun x => decide (h.cells.test x = some .multi))).filter (fun x => !g.failed.contains x) } else g)
    rfl rfl rfl rfl rfl (fun g => by split <;> rfl) (fun g => by split <;> rfl) (fun R s g hg x hx => ?_)
  split at hx
  case isTrue e =>
    obtain rfl := s.id_inj hg hf e
    rcases List.mem_append.mp hx with h1 | h1
    · exact (s.chains g hg).2 x h1
    · exact List.mem_of_mem_filter (List.mem_of_mem_filter h1)
  case isFalse => exact (s.chains g hg).2 x hx

theorem withFaults_keeps (fs : List CellFault) (h : Hub) :
    HubKeeps [] [] h { h with cells := h.cells.withFaults fs } := .ofCells rfl rfl rfl rfl rfl

/-! ## Builds and notices -/

theorem mgmtFrame_length (dst src : LinkAddr) (code status : Byte) (tag : BitVec 16) (c : Nat) (body : List Byte) :
    (mgmtFrame dst src code status tag c body).length = 22 + max 38 body.length := by
  simp [mgmtFrame, addrBytes, beBytes_length]
  omega

/-- A build takes its cells off the stack into a frame of its own (R26). -/
theorem build_keeps {kind : FrameKind} {bytes : List Byte} {h h' : Hub} {id : Nat} {e : Option Nat}
    (hb : h.build kind bytes = some (id, h', e)) (hl : HubFit h → bytes.length + 4 ≤ 1536) : HubKeeps [] [] h h' := by
  have hdata := build_wf hb
  obtain ⟨chain, hchain, henough, -, hmgmt, hfree, hframes, -, hretired, -, -, -, -⟩ := build_spec hb
  have hpos : 0 < cellsFor (bytes.length + 4) := cellsFor_pos
  refine ⟨hdata, fun R s => ⟨?_, ?_⟩, fun f => ⟨?_, by rw [hmgmt]; exact f.stored, by rw [hmgmt]; exact f.slots⟩,
    by rw [hmgmt]; exact fun n => n, by rw [hmgmt]; exact fun n => n, by rw [hretired]; exact fun n => n⟩
  · refine List.Perm.trans ?_ s.conserved
    rw [hfree, hretired, frameCells, hframes, List.flatMap_append]
    have hsplit : (List.drop (cellsFor (bytes.length + 4)) h.cells.free ++ chain).Perm h.cells.free := by
      rw [hchain]
      exact List.perm_append_comm.trans (by rw [List.take_append_drop])
    refine (List.Perm.append ?_ (.refl _)).append (.refl _)
    simp only [List.flatMap_cons, List.flatMap_nil, List.append_nil]
    calc (List.drop _ h.cells.free ++ (h.cells.frames.flatMap (·.chain) ++ chain)).Perm
          (List.drop _ h.cells.free ++ (chain ++ h.cells.frames.flatMap (·.chain))) :=
            (List.Perm.refl _).append List.perm_append_comm
      _ = (List.drop _ h.cells.free ++ chain) ++ h.cells.frames.flatMap (·.chain) := (List.append_assoc ..).symm
      _ |>.Perm (h.cells.free ++ frameCells h.cells) := hsplit.append (.refl _)
  · rw [hframes]
    intro f hf
    rcases List.mem_append.mp hf with hf | hf
    · exact s.chains f hf
    · obtain rfl := List.mem_singleton.mp hf
      refine ⟨fun he => ?_, by simp⟩
      have hlen : chain.length = 0 := by simpa using he
      rw [hchain, List.length_take] at hlen
      omega
  · rw [hframes]
    intro g hg
    rcases List.mem_append.mp hg with hg | hg
    · exact f.lengths g hg
    · obtain rfl := List.mem_singleton.mp hg
      exact hl f

theorem origin_bytes_length (o : Origin) : o.bytes.length = 2 := by cases o <;> rfl

theorem counter_block_length (c : StationCounters) : c.block.length = 36 := by
  simp [StationCounters.block, beBytes_length]

theorem allowanceBlock_length (al : Option Allowance) : (allowanceBlock al).length = 16 := by
  cases al <;> simp [allowanceBlock, beBytes_length]

/-- No notice body is longer than that of STATION_GONE (11.2). -/
theorem notice_body_length (n : Notice) : n.body.length ≤ 64 := by
  cases n <;> simp [Notice.body, allowanceNoticeBody, addrBytes, beBytes_length, origin_bytes_length,
    counter_block_length, allowanceBlock_length]

theorem tryNotice_keeps {sd : Sender} {dst : LinkAddr} {n : Notice} {h h' : Hub} {e : Option Nat}
    (ht : h.tryNotice sd dst n = some (h', e)) : HubKeeps [] [] h h' := by
  unfold Hub.tryNotice at ht
  split at ht
  case isFalse => cases ht
  case isTrue hroom =>
    split at ht
    case h_1 => cases ht
    case h_2 id h1 e1 hb =>
      obtain ⟨rfl, rfl⟩ := by simpa using ht
      have hmgmt : h1.mgmt = h.mgmt := by obtain ⟨_, _, _, _, hm, _⟩ := build_spec hb; exact hm
      have hbuilt := build_keeps hb (fun _ => by
        have := notice_body_length n
        rw [mgmtFrame_length]
        omega)
      refine ⟨hbuilt.data, hbuilt.cells, fun f => ⟨(hbuilt.fit f).lengths, (hbuilt.fit f).stored, (hbuilt.fit f).slots⟩,
        hbuilt.input, fun _ => ?_, hbuilt.retired⟩
      simp only [List.length_append, List.length_singleton, hmgmt]
      omega

theorem loseNotice_keeps (h : Hub) : HubKeeps [] [] h h.loseNotice := .ofFigures rfl rfl rfl rfl rfl

theorem reportLost_keeps (sd : Sender) (h : Hub) : HubKeeps [] [] h (h.reportLost sd).1 := by
  unfold Hub.reportLost
  split
  case h_1 => exact .refl [] h
  case h_2 =>
    split
    case isTrue => exact .refl [] h
    case isFalse =>
      split
      case h_1 => exact .refl [] h
      case h_2 h1 e ht => exact (tryNotice_keeps ht).trans (.ofFigures rfl rfl rfl rfl rfl)

theorem raiseCore_keeps (sd : Sender) (n : Notice) (h : Hub) : HubKeeps [] [] h (h.raiseCore sd n).1 := by
  unfold Hub.raiseCore
  split
  case h_1 => exact .refl [] h
  case h_2 =>
    have hlost := reportLost_keeps sd h
    dsimp only
    split
    case isTrue => exact hlost.trans (loseNotice_keeps _)
    case isFalse =>
      split
      case h_1 => exact hlost.trans (loseNotice_keeps _)
      case h_2 h2 e2 ht => exact hlost.trans (tryNotice_keeps ht)

theorem noteEntered_keeps (sd : Sender) (e : Option Nat) (h : Hub) : HubKeeps [] [] h (h.noteEntered sd e) := by
  unfold Hub.noteEntered
  split
  case h_1 => exact .refl [] h
  case h_2 => exact (flag_keeps _ h).trans (raiseCore_keeps sd _ _)

theorem raise_keeps (sd : Sender) (n : Notice) (h : Hub) : HubKeeps [] [] h (h.raise sd n) :=
  (raiseCore_keeps sd n h).trans (noteEntered_keeps sd _ _)

theorem noteLeft_keeps (sd : Sender) (l : Option Nat) (h : Hub) : HubKeeps [] [] h (h.noteLeft sd l) := by
  unfold Hub.noteLeft
  split
  case h_1 => exact .refl [] h
  case h_2 => exact raise_keeps sd _ h

/-! ## The return and the taking of cells -/

/-- The return of a chain: its cells come back to the stack or to the retired list (R21, R31). -/
theorem giveBack_keeps (sd : Sender) (failed chain : List Nat) (h : Hub) :
    HubKeeps chain [] h (h.giveBack sd failed chain) := by
  obtain ⟨hperm, hsame⟩ := returnCells_perm failed chain h.cells
  have hret := returnCells_retired failed chain h.cells
  have hback : HubKeeps chain [] h { h with cells := (returnCells failed chain h.cells).1 } := by
    refine ⟨fun w => by simpa only [hsame.data] using w, fun R s => ⟨?_, by simpa only [hsame.frames] using s.chains⟩,
      fun f => ⟨by simpa only [hsame.frames] using f.lengths, f.stored, f.slots⟩, fun n => n, fun n => n, fun n => ?_⟩
    · refine List.Perm.trans ?_ s.conserved
      simp only [frameCells, hsame.frames, List.append_nil]
      generalize h.cells.frames.flatMap (·.chain) = F
      rw [List.perm_iff_count] at hperm ⊢
      intro a
      have := hperm a
      simp only [List.count_append] at this ⊢
      omega
    · rw [hret, List.length_append, List.length_take]
      omega
  exact hback.trans ((flagN_keeps _ _ _).trans (noteLeft_keeps sd _ _))

/-- The freeing of a stored frame gives its cells back (R25). -/
theorem freeFrame_keeps (sd : Sender) (id : Nat) (h : Hub) : HubKeeps [] [] h (h.freeFrame sd id) := by
  unfold Hub.freeFrame
  split
  case h_1 => exact .refl [] h
  case h_2 f hf =>
    obtain ⟨hmem, rfl⟩ := frame?_mem hf
    refine HubKeeps.trans (M := f.chain) ?_ (giveBack_keeps sd f.failed f.chain _)
    refine ⟨fun w => w, fun R s => ⟨?_, fun g hg => s.chains g (List.mem_of_mem_filter hg)⟩,
      fun k => ⟨fun g hg => k.lengths g (List.mem_of_mem_filter hg), k.stored, k.slots⟩, fun n => n, fun n => n,
      fun n => n⟩
    refine List.Perm.trans ?_ s.conserved
    have hsplit := s.frameCells_split hmem
    rw [List.perm_iff_count] at hsplit ⊢
    intro a
    have := hsplit a
    simp only [List.count_append, List.append_nil] at this ⊢
    simp only [frameCells] at this ⊢
    omega

theorem dropRef_keeps (sd : Sender) (id : Nat) (h : Hub) : HubKeeps [] [] h (h.dropRef sd id) := by
  unfold Hub.dropRef
  split
  case h_1 => exact .refl [] h
  case h_2 =>
    split
    case isTrue => exact freeFrame_keeps sd id h
    case isFalse => exact modFrame_keeps id _ h (fun _ => rfl) (fun _ => rfl) (fun _ => rfl)

theorem testEnter_keeps (h : Hub) : HubKeeps [] [] h { h with cells := h.cells.testEnter.1 } := by
  obtain ⟨hsame, hfree⟩ := testEnter_same h.cells
  exact .ofCells rfl hsame.data hsame.frames hfree hsame.retired

theorem testLeave_keeps (h : Hub) : HubKeeps [] [] h { h with cells := h.cells.testLeave.1 } := by
  obtain ⟨hsame, hfree⟩ := testLeave_same h.cells
  exact .ofCells rfl hsame.data hsame.frames hfree hsame.retired

/-- A cell popped for a reception has left the stack (R21). -/
theorem pop_keeps {h : Hub} {x : Nat} {c : CellMemory} (hp : h.cells.pop = some (x, c)) :
    HubKeeps [] [x] h { h with cells := c } := by
  unfold CellMemory.pop at hp
  split at hp
  case h_1 => cases hp
  case h_2 y rest hfree =>
    obtain ⟨rfl, rfl⟩ := by simpa using hp
    refine ⟨fun w => w, fun R s => ⟨?_, s.chains⟩, fun f => ⟨f.lengths, f.stored, f.slots⟩, fun n => n, fun n => n,
      fun n => n⟩
    refine List.Perm.trans ?_ s.conserved
    rw [hfree]
    simp only [frameCells]
    generalize h.cells.frames.flatMap (·.chain) = F
    rw [List.perm_iff_count]
    intro a
    simp only [List.count_append, List.count_cons, List.append_nil, List.count_nil]
    omega

/-- The test of the pressure state moves no cell but those of its notice (R35, R36). -/
theorem retest_keeps (sd : Sender) (h : Hub) : HubKeeps [] [] h (h.retest sd) := by
  unfold Hub.retest
  split
  case h_1 => exact (testEnter_keeps h).trans (noteEntered_keeps sd _ _)
  case h_2 => exact (testLeave_keeps h).trans (noteLeft_keeps sd _ _)

/-- A received frame's cells are those of its record from now on (R20, R24). -/
theorem store_keeps (h : Hub) (r : FrameRec) (bytes : List Byte) (hchain : r.chain ≠ []) (hfailed : r.failed = [])
    (hlength : r.length ≤ 1536) :
    HubKeeps r.chain [] h { h with cells := { h.cells with
      data := h.cells.data.writeChain r.chain bytes, frames := h.cells.frames ++ [r] } } := by
  refine ⟨fun w => writeChain_wf w _ _, fun R s => ⟨?_, fun f hf => ?_⟩, fun k => ⟨fun f hf => ?_, k.stored, k.slots⟩,
    fun n => n, fun n => n, fun n => n⟩
  · refine List.Perm.trans ?_ s.conserved
    simp only [frameCells, List.flatMap_append, List.flatMap_cons, List.flatMap_nil, List.append_nil]
    rw [List.perm_iff_count]
    intro a
    simp only [List.count_append]
    omega
  · rcases List.mem_append.mp hf with hf | hf
    · exact s.chains f hf
    · obtain rfl := List.mem_singleton.mp hf
      exact ⟨hchain, by simp [hfailed]⟩
  · rcases List.mem_append.mp hf with hf | hf
    · exact k.lengths f hf
    · obtain rfl := List.mem_singleton.mp hf
      exact hlength

end Sys2Proof.Laws
end

section
/-! SUPPORT. What a change of the ports keeps: the cells in reception (R20) and the capacities of the queues there (11.5);
and the invariants of the whole part, as the changes of its blocks keep them. -/

namespace Sys2Proof.Laws

open Sys2Proof Sys2Proof.Machine Sys2Proof.Safety

/-! ## Orders -/

/-- An order queue within its capacity (R72): one order for each index, and indices below 64. -/
structure OrdersFit (os : List Order) : Prop where
  nodup : (os.map (·.index)).Nodup
  below : ∀ o ∈ os, o.index < 64

theorem OrdersFit.length_le {os : List Order} (h : OrdersFit os) : os.length ≤ 64 := by
  have hsub : os.map (·.index) ⊆ List.range 64 := fun i hi => by
    obtain ⟨o, ho, rfl⟩ := List.mem_map.mp hi
    exact List.mem_range.mpr (h.below o ho)
  simpa using (h.nodup.subperm hsub).length_le

theorem OrdersFit.filter {os : List Order} (h : OrdersFit os) (p : Order → Bool) : OrdersFit (os.filter p) :=
  ⟨h.nodup.sublist (List.filter_sublist.map _), fun o ho => h.below o (List.mem_of_mem_filter ho)⟩

theorem OrdersFit.nil : OrdersFit [] := ⟨.nil, by simp⟩

theorem OrdersFit.tail {o : Order} {os : List Order} (h : OrdersFit (o :: os)) : OrdersFit os :=
  ⟨(List.nodup_cons.mp h.nodup).2, fun x hx => h.below x (List.mem_cons_of_mem _ hx)⟩

/-- An order takes the place of the one for its index, or joins the end (R72). -/
theorem OrdersFit.place {os : List Order} (h : OrdersFit os) {o : Order} (ho : o.index < 64) :
    OrdersFit (placeOrder o os) := by
  unfold placeOrder
  split
  case isTrue =>
    have hsame : ∀ x : Order, (if x.index = o.index then o else x).index = x.index := fun x => by split <;> simp_all
    refine ⟨by simpa [List.map_map, Function.comp_def, hsame] using h.nodup, fun x hx => ?_⟩
    obtain ⟨y, hy, rfl⟩ := List.mem_map.mp hx
    rw [hsame y]
    exact h.below y hy
  case isFalse hany =>
    have hnew : o.index ∉ os.map (·.index) := fun hi => by
      obtain ⟨x, hx, he⟩ := List.mem_map.mp hi
      exact hany (List.any_eq_true.mpr ⟨x, hx, by simpa using he⟩)
    refine ⟨?_, fun x hx => ?_⟩
    · rw [List.map_append]
      exact h.nodup.append (List.nodup_singleton _) (by simpa using hnew)
    · rcases List.mem_append.mp hx with hx | hx
      · exact h.below x hx
      · exact List.mem_singleton.mp hx ▸ ho

/-! ## The ports -/

/-- The queues of the ports within their capacities (11.5). -/
structure PortsFit (ps : Ports) : Prop where
  seats : ∀ n : Fin 32, (ps.seats[n]).egress.length ≤ 64
  radios : ∀ w : Fin 4, (ps.radios[w]).egress.length ≤ 64
  orders : ∀ w : Fin 4, OrdersFit (ps.radios[w]).orders
  transit : ∀ x, (ps.endOf x).transit.length ≤ 128

/-- What a change of the ports keeps, which finds the cells `L` and leaves the cells `M` between two places. -/
structure PortsKeep (L M : List Nat) (ps ps' : Ports) : Prop where
  rx : (receptionCells ps' ++ M).Perm (receptionCells ps ++ L)
  fit : PortsFit ps → PortsFit ps'

theorem PortsKeep.refl (L : List Nat) (ps : Ports) : PortsKeep L L ps ps := ⟨.refl _, id⟩

theorem PortsKeep.trans {L M N : List Nat} {a b c : Ports} (h : PortsKeep L M a b) (g : PortsKeep M N b c) :
    PortsKeep L N a c := ⟨g.rx.trans h.rx, g.fit ∘ h.fit⟩

/-- What keeps with no cell between two places keeps with any cells there. -/
theorem PortsKeep.frame {a b : Ports} (h : PortsKeep [] [] a b) (L : List Nat) : PortsKeep L L a b :=
  ⟨(by simpa using h.rx : (receptionCells b).Perm (receptionCells a)).append (.refl _), h.fit⟩

/-- One item of a vector set: what the items hold is as before, less the old item's and with the new one's. -/
theorem flatMap_set_perm {α : Type} {n : Nat} (v : Vector α n) (i : Fin n) (x : α) (f : α → List Nat) :
    ((v.set i x).toList.flatMap f ++ f v[i]).Perm (v.toList.flatMap f ++ f x) := by
  have hi : i.val < v.toList.length := by simp
  have hset : (v.set i x).toList = v.toList.take i ++ x :: v.toList.drop (i + 1) := by
    rw [Vector.toList_set, List.set_eq_take_append_cons_drop, if_pos hi]
  have hold : v.toList = v.toList.take i ++ v[i] :: v.toList.drop (i + 1) := by
    conv_lhs => rw [← List.take_append_drop i v.toList, List.drop_eq_getElem_cons hi]
    simp
  rw [hset]
  conv_rhs => rw [hold]
  rw [List.perm_iff_count]
  intro a
  simp only [List.flatMap_append, List.flatMap_cons, List.count_append]
  omega

theorem getElem_set_cases {α : Type} {n : Nat} (v : Vector α n) (i j : Fin n) (x : α) :
    (v.set i x)[j] = if i = j then x else v[j] := by
  by_cases h : i = j
  · subst h; simp
  · have : i.val ≠ j.val := fun e => h (Fin.ext e)
    simp [h, this]

theorem modSeat_seat (ps : Ports) (n m : Fin 32) (g : SeatPort → SeatPort) :
    (ps.modSeat n g).seats[m] = if n = m then g ps.seats[n] else ps.seats[m] := getElem_set_cases ps.seats n m _

theorem modRadio_radio (ps : Ports) (w v : Fin 4) (g : RadioLink → RadioLink) :
    (ps.modRadio w g).radios[v] = if w = v then g ps.radios[w] else ps.radios[v] := getElem_set_cases ps.radios w v _

theorem modEnd_end (ps : Ports) (x y : End) (g : BackboneEnd → BackboneEnd) :
    (ps.modEnd x g).endOf y = if x = y then g (ps.endOf x) else ps.endOf y := by cases x <;> cases y <;> rfl

theorem modSeat_rx (ps : Ports) (n : Fin 32) (g : SeatPort → SeatPort) :
    (receptionCells (ps.modSeat n g) ++ (ps.seats[n]).unit.rx.chain).Perm
      (receptionCells ps ++ (g ps.seats[n]).unit.rx.chain) := by
  have h := flatMap_set_perm ps.seats n (g ps.seats[n]) (fun q => q.unit.rx.chain)
  rw [List.perm_iff_count] at h ⊢
  intro a
  have := h a
  simp only [receptionCells, Ports.modSeat, List.count_append] at this ⊢
  omega

theorem modRadio_rx (ps : Ports) (w : Fin 4) (g : RadioLink → RadioLink) :
    (receptionCells (ps.modRadio w g) ++ (ps.radios[w]).unit.rx.chain).Perm
      (receptionCells ps ++ (g ps.radios[w]).unit.rx.chain) := by
  have h := flatMap_set_perm ps.radios w (g ps.radios[w]) (fun q => q.unit.rx.chain)
  rw [List.perm_iff_count] at h ⊢
  intro a
  have := h a
  simp only [receptionCells, Ports.modRadio, List.count_append] at this ⊢
  omega

theorem modEnd_rx (ps : Ports) (x : End) (g : BackboneEnd → BackboneEnd) :
    (receptionCells (ps.modEnd x g) ++ (ps.endOf x).unit.rx.chain).Perm
      (receptionCells ps ++ (g (ps.endOf x)).unit.rx.chain) := by
  rw [List.perm_iff_count]
  intro a
  cases x <;> simp only [receptionCells, Ports.modEnd, Ports.endOf, List.count_append] <;> omega

/-- The cells in reception stay where one port's do. -/
theorem rx_of_same {ps ps' : Ports} {r r' : Reception}
    (h : (receptionCells ps' ++ r.chain).Perm (receptionCells ps ++ r'.chain)) (he : r' = r) :
    (receptionCells ps' ++ []).Perm (receptionCells ps ++ []) := by
  subst he
  exact ((List.perm_append_right_iff _).mp h).append (.refl _)

theorem modSeat_keeps {ps : Ports} {n : Fin 32} {g : SeatPort → SeatPort}
    (rx : (g ps.seats[n]).unit.rx = (ps.seats[n]).unit.rx)
    (egress : (ps.seats[n]).egress.length ≤ 64 → (g ps.seats[n]).egress.length ≤ 64) :
    PortsKeep [] [] ps (ps.modSeat n g) := by
  refine ⟨rx_of_same (modSeat_rx ps n g) rx, fun f => ⟨fun m => ?_, f.radios, f.orders, fun x => ?_⟩⟩
  · rw [modSeat_seat]
    split
    · exact egress (f.seats n)
    · exact f.seats m
  · rw [modSeat_endOf]
    exact f.transit x

theorem modRadio_keeps {ps : Ports} {w : Fin 4} {g : RadioLink → RadioLink}
    (rx : (g ps.radios[w]).unit.rx = (ps.radios[w]).unit.rx)
    (egress : (ps.radios[w]).egress.length ≤ 64 → (g ps.radios[w]).egress.length ≤ 64)
    (orders : OrdersFit (ps.radios[w]).orders → OrdersFit (g ps.radios[w]).orders) :
    PortsKeep [] [] ps (ps.modRadio w g) := by
  refine ⟨rx_of_same (modRadio_rx ps w g) rx, fun f => ⟨f.seats, fun v => ?_, fun v => ?_, fun x => ?_⟩⟩
  · rw [modRadio_radio]
    split
    · exact egress (f.radios w)
    · exact f.radios v
  · rw [modRadio_radio]
    split
    · exact orders (f.orders w)
    · exact f.orders v
  · rw [modRadio_endOf]
    exact f.transit x

theorem modEnd_keeps {ps : Ports} {x : End} {g : BackboneEnd → BackboneEnd}
    (rx : (g (ps.endOf x)).unit.rx = (ps.endOf x).unit.rx)
    (transit : (ps.endOf x).transit.length ≤ 128 → (g (ps.endOf x)).transit.length ≤ 128) :
    PortsKeep [] [] ps (ps.modEnd x g) := by
  refine ⟨rx_of_same (modEnd_rx ps x g) rx, fun f => ⟨?_, ?_, ?_, fun y => ?_⟩⟩
  · rw [modEnd_seats]
    exact f.seats
  · rw [modEnd_radios]
    exact f.radios
  · rw [modEnd_radios]
    exact f.orders
  · rw [modEnd_end]
    split
    · exact transit (f.transit x)
    · exact f.transit y

/-- A change of the unit of a port that keeps the cells in reception but for those given. -/
theorem modUnit_moves (ps : Ports) (p : Port) (g : PortUnit → PortUnit) :
    PortsKeep (g (ps.unitOf p)).rx.chain (ps.unitOf p).rx.chain ps (ps.modUnit p g) := by
  cases p with
  | seat n =>
    refine ⟨modSeat_rx ps n _, fun f => ⟨fun m => ?_, f.radios, f.orders, fun x => ?_⟩⟩
    · rw [Ports.modUnit, modSeat_seat]
      split
      case isTrue e => exact e ▸ f.seats n
      case isFalse => exact f.seats m
    · rw [Ports.modUnit, modSeat_endOf]
      exact f.transit x
  | radio w =>
    refine ⟨modRadio_rx ps w _, fun f => ⟨f.seats, fun v => ?_, fun v => ?_, fun x => ?_⟩⟩
    · rw [Ports.modUnit, modRadio_radio]
      split
      case isTrue e => exact e ▸ f.radios w
      case isFalse => exact f.radios v
    · rw [Ports.modUnit, modRadio_radio]
      split
      case isTrue e => exact e ▸ f.orders w
      case isFalse => exact f.orders v
    · rw [Ports.modUnit, modRadio_endOf]
      exact f.transit x
  | backbone x =>
    refine ⟨modEnd_rx ps x _, fun f => ⟨?_, ?_, ?_, fun y => ?_⟩⟩
    · rw [Ports.modUnit, modEnd_seats]
      exact f.seats
    · rw [Ports.modUnit, modEnd_radios]
      exact f.radios
    · rw [Ports.modUnit, modEnd_radios]
      exact f.orders
    · rw [Ports.modUnit, modEnd_end]
      split
      case isTrue e => exact e ▸ f.transit x
      case isFalse => exact f.transit y

theorem modUnit_keeps (ps : Ports) (p : Port) {g : PortUnit → PortUnit} (h : ∀ u, (g u).rx = u.rx) :
    PortsKeep [] [] ps (ps.modUnit p g) := by
  exact ⟨rx_of_same (modUnit_moves ps p g).rx (h _), (modUnit_moves ps p g).fit⟩

theorem count_keeps (ps : Ports) (p : Port) (g : PortCounters → PortCounters) : PortsKeep [] [] ps (ps.count p g) :=
  modUnit_keeps ps p (fun _ => rfl)

theorem count?_keeps (ps : Ports) (p : Option Port) (g : PortCounters → PortCounters) :
    PortsKeep [] [] ps (ps.count? p g) := by
  cases p with
  | none => exact .refl [] ps
  | some q => exact count_keeps ps q g

/-! ## The records -/

/-- What a record stands for in the table: what the invariants of admission, addresses and origins read (R38, R94). -/
structure Standing where
  addr : LinkAddr
  state : StationState
  origin : Origin
  allowance : Option Allowance

def standing (st : Station) : Standing :=
  { addr := st.addr, state := st.state, origin := st.origin, allowance := st.allowance }

/-- A change of a record that leaves its standing and credit, and makes its queue no longer. -/
structure Eases (a b : Station) : Prop where
  standing : standing b = standing a
  credit : b.credit = a.credit
  upq : b.upq.length ≤ a.upq.length

theorem Eases.refl (st : Station) : Eases st st := ⟨rfl, rfl, le_rfl⟩

theorem Eases.trans {a b c : Station} (h : Eases a b) (g : Eases b c) : Eases a c :=
  ⟨g.standing.trans h.standing, g.credit.trans h.credit, g.upq.trans h.upq⟩

/-- A change of the table that eases records, and neither makes nor frees one. -/
structure TableKeeps (t t' : StationTable) : Prop where
  held : t'.held = t.held
  records : ∀ k, Option.Rel Eases (t.station? k) (t'.station? k)

theorem rel_refl (o : Option Station) : Option.Rel Eases o o := by
  cases o with
  | none => exact .none
  | some st => exact .some (.refl st)

theorem TableKeeps.refl (t : StationTable) : TableKeeps t t := ⟨rfl, fun _ => rel_refl _⟩

theorem modStation_station (t : StationTable) (k j : Fin 256) (g : Station → Station) :
    (t.modStation k g).station? j = if k = j then (t.station? k).map g else t.station? j := by
  by_cases h : k = j
  · subst h; rw [if_pos rfl, station?_modStation_self]
  · rw [if_neg h, station?_modStation_ne t g (Ne.symm h)]

theorem modStation_keeps (t : StationTable) (k : Fin 256) {g : Station → Station} (h : ∀ st, Eases st (g st)) :
    TableKeeps t (t.modStation k g) := by
  refine ⟨rfl, fun j => ?_⟩
  rw [modStation_station]
  split
  case isTrue e =>
    subst e
    cases t.station? k with
    | none => exact .none
    | some st => exact .some (h st)
  case isFalse => exact rel_refl _

theorem modStation?_keeps (t : StationTable) (k : Option (Fin 256)) {g : Station → Station} (h : ∀ st, Eases st (g st)) :
    TableKeeps t (t.modStation? k g) := by
  cases k with
  | none => exact .refl t
  | some j => exact modStation_keeps t j h

theorem drop_eases (st : Station) : Eases st st.drop := ⟨rfl, rfl, le_rfl⟩

/-! ## The invariants of the part -/

/-- Every cell is in one place, those of `L` between two places (R20). -/
def CellsWith (L : List Nat) (s : State) : Prop := Stocked s.hub.cells (receptionCells s.ports ++ L)

theorem cellsOk_iff {s : State} : CellsOk s ↔ CellsWith [] s :=
  ⟨fun h => ⟨by simpa using h.conserved, h.chains⟩, fun h => ⟨by simpa using h.conserved, h.chains⟩⟩

theorem creditOk_iff {s : State} : CreditOk s ↔ HubFit s.hub ∧ (∀ k st, s.station? k = some st → InCreditRange st.credit) ∧
    InCreditRange s.sched.surplus ∧ BudgetOk s.sched.params ∧ ∀ q, s.sched.pendingParams = some q → BudgetOk q :=
  ⟨fun h => ⟨⟨h.lengths, h.storedBudget, h.slots⟩, h.credit, h.surplus, h.budget, h.pendingBudget⟩,
    fun ⟨f, c, u, b, p⟩ => ⟨c, u, f.lengths, b, p, f.stored, f.slots⟩⟩

theorem capacitiesOk_iff {s : State} : CapacitiesOk s ↔ PortsFit s.ports ∧ (∀ k st, s.station? k = some st →
    st.upq.length ≤ 24 ∧ ∀ w i, st.origin = .radio w i → i < 64) ∧ s.up.onboard.length ≤ 128 ∧
    s.hub.mgmt.input.length ≤ 4 ∧ s.hub.mgmt.notices.length ≤ 12 ∧ s.hub.cells.retired.length ≤ 64 :=
  ⟨fun h => ⟨⟨h.seats, h.radios, fun w => ⟨(h.orders w).1, (h.orders w).2.1⟩, h.transit⟩,
      fun k st hk => ⟨h.upward k st hk, fun w i => h.indices k st w i hk⟩, h.onboard, h.input, h.notices, h.retired⟩,
    fun ⟨f, r, o, i, n, t⟩ => ⟨fun k st hk => (r k st hk).1, f.seats, f.radios,
      fun w => ⟨(f.orders w).nodup, (f.orders w).below, (f.orders w).length_le⟩, fun k st w i hk => (r k st hk).2 w i,
      o, f.transit, i, n, t⟩⟩

/-- What an operation of the part keeps whatever it does to the records' standing: the form of the bytes, the credit
range, the cells with those between two places, the capacities; and the queue of commands and the identity. -/
structure Sane (L M : List Nat) (s t : State) : Prop where
  data : MemoryOk s → MemoryOk t
  credit : CreditOk s → CreditOk t
  cells : CellsWith L s → CellsWith M t
  caps : CapacitiesOk s → CapacitiesOk t
  pending : t.pending = s.pending
  identity : t.identity = s.identity

theorem Sane.refl (L : List Nat) (s : State) : Sane L L s s := ⟨id, id, id, id, rfl, rfl⟩

theorem Sane.trans {L M N : List Nat} {a b c : State} (h : Sane L M a b) (g : Sane M N b c) : Sane L N a c :=
  ⟨g.data ∘ h.data, g.credit ∘ h.credit, g.cells ∘ h.cells, g.caps ∘ h.caps, g.pending.trans h.pending,
    g.identity.trans h.identity⟩

/-- The invariants of the part kept by a change of its blocks, block by block. -/
theorem Sane.of {L M N : List Nat} {s t : State} (hub : HubKeeps L M s.hub t.hub) (ports : PortsKeep M N s.ports t.ports)
    (credit : CreditOk s → (∀ k st, t.station? k = some st → InCreditRange st.credit) ∧ InCreditRange t.sched.surplus ∧
      BudgetOk t.sched.params ∧ ∀ q, t.sched.pendingParams = some q → BudgetOk q)
    (caps : CapacitiesOk s → (∀ k st, t.station? k = some st →
      st.upq.length ≤ 24 ∧ ∀ w i, st.origin = .radio w i → i < 64) ∧ t.up.onboard.length ≤ 128)
    (pending : t.pending = s.pending) (identity : t.identity = s.identity) : Sane L N s t := by
  refine ⟨hub.data, fun h => creditOk_iff.mpr ⟨hub.fit (creditOk_iff.mp h).1, credit h⟩, fun h => ?_, fun h => ?_, pending,
    identity⟩
  · exact (hub.cells _ h).perm ports.rx
  · obtain ⟨records, onboard⟩ := caps h
    exact capacitiesOk_iff.mpr ⟨ports.fit (capacitiesOk_iff.mp h).1, records, onboard, hub.input h.input,
      hub.notices h.notices, hub.retired h.retired⟩

/-- What leaves the standing of every record and the held order alone besides. -/
structure Calm (L M : List Nat) (s t : State) : Prop extends Sane L M s t where
  held : t.table.held = s.table.held
  records : ∀ k, (t.station? k).map standing = (s.station? k).map standing

theorem Calm.refl (L : List Nat) (s : State) : Calm L L s s := ⟨.refl L s, rfl, fun _ => rfl⟩

theorem Calm.trans {L M N : List Nat} {a b c : State} (h : Calm L M a b) (g : Calm M N b c) : Calm L N a c :=
  ⟨h.toSane.trans g.toSane, g.held.trans h.held, fun k => (g.records k).trans (h.records k)⟩

theorem Calm.foldl {α : Type} {L : List Nat} {g : State → α → State} (h : ∀ s a, Calm L L s (g s a)) (l : List α)
    (s : State) : Calm L L s (l.foldl g s) := by
  induction l generalizing s with
  | nil => exact .refl L s
  | cons a l ih => exact (h s a).trans (ih _)

/-- A change, block by block, that eases records, lengthens no queue of Upward Service and leaves the scheduler's
parameters and surplus. -/
theorem Calm.of {L M N : List Nat} {s t : State} (hub : HubKeeps L M s.hub t.hub) (ports : PortsKeep M N s.ports t.ports)
    (table : TableKeeps s.table t.table) (onboard : t.up.onboard.length ≤ s.up.onboard.length)
    (sched : t.sched.params = s.sched.params ∧ t.sched.pendingParams = s.sched.pendingParams ∧
      t.sched.surplus = s.sched.surplus)
    (pending : t.pending = s.pending) (identity : t.identity = s.identity) : Calm L N s t := by
  obtain ⟨hparams, hpending, hsurplus⟩ := sched
  have hback : ∀ {k st'}, t.station? k = some st' → ∃ st, s.station? k = some st ∧ Eases st st' := fun {k st'} hk => by
    have hrel : Option.Rel Eases (s.station? k) (t.station? k) := table.records k
    rw [hk] at hrel
    cases hs : s.station? k with
    | none => rw [hs] at hrel; cases hrel
    | some st => rw [hs] at hrel; cases hrel with | some h => exact ⟨st, rfl, h⟩
  refine ⟨Sane.of hub ports (fun h => ⟨fun k st' hk => ?_, ?_, ?_, ?_⟩) (fun h => ⟨fun k st' hk => ?_, ?_⟩) pending identity,
    table.held, fun k => ?_⟩
  · obtain ⟨st, hst, he⟩ := hback hk
    exact he.credit ▸ h.credit k st hst
  · rw [hsurplus]; exact h.surplus
  · rw [hparams]; exact h.budget
  · rw [hpending]; exact h.pendingBudget
  · obtain ⟨st, hst, he⟩ := hback hk
    have horigin : st'.origin = st.origin := congrArg Standing.origin he.standing
    exact ⟨he.upq.trans (h.upward k st hst), fun w i ho => h.indices k st w i hst (horigin ▸ ho)⟩
  · exact onboard.trans h.onboard
  · have hrel : Option.Rel Eases (s.station? k) (t.station? k) := table.records k
    cases hs : s.station? k with
    | none => rw [hs] at hrel; cases ht : t.station? k with
      | none => rfl
      | some st => rw [ht] at hrel; cases hrel
    | some st => rw [hs] at hrel; cases ht : t.station? k with
      | none => rw [ht] at hrel; cases hrel
      | some st' => rw [ht] at hrel; cases hrel with | some h => exact congrArg some h.standing

/-- What every step keeps: all the invariants of the part, with the queue of commands and the identity. -/
structure Safe (L M : List Nat) (s t : State) : Prop extends Sane L M s t where
  allowances : AllowancesOk s → AllowancesOk t
  heldOrder : HeldOrderOk s → HeldOrderOk t
  addresses : AddressesOk s → AddressesOk t

theorem Safe.refl (L : List Nat) (s : State) : Safe L L s s := ⟨.refl L s, id, id, id⟩

theorem Safe.trans {L M N : List Nat} {a b c : State} (h : Safe L M a b) (g : Safe M N b c) : Safe L N a c :=
  ⟨h.toSane.trans g.toSane, g.allowances ∘ h.allowances, g.heldOrder ∘ h.heldOrder, g.addresses ∘ h.addresses⟩

theorem Safe.foldl {α : Type} {L : List Nat} {g : State → α → State} (h : ∀ s a, Safe L L s (g s a)) (l : List α)
    (s : State) : Safe L L s (l.foldl g s) := by
  induction l generalizing s with
  | nil => exact .refl L s
  | cons a l ih => exact (h s a).trans (ih _)

/-- A record stands as before where its standing is as before. -/
theorem Calm.station_back {L M : List Nat} {s t : State} (h : Calm L M s t) {k : Fin 256} {st' : Station}
    (hk : t.station? k = some st') : ∃ st, s.station? k = some st ∧ standing st' = standing st := by
  have hrec := h.records k
  rw [hk] at hrec
  obtain ⟨st, hst, he⟩ := Option.map_eq_some_iff.mp hrec.symm
  exact ⟨st, hst, he.symm⟩

theorem Calm.station {L M : List Nat} {s t : State} (h : Calm L M s t) {k : Fin 256} {st : Station}
    (hk : s.station? k = some st) : ∃ st', t.station? k = some st' ∧ standing st' = standing st := by
  have hrec := h.records k
  rw [hk] at hrec
  exact Option.map_eq_some_iff.mp hrec

/-- R94 for one record, with R93: a HELD record has no allowance. -/
def AdmissionOk (st : Station) : Prop :=
  Paired st ∧ (st.state = .held ∨ st.state = .barred .held → st.allowance = none)

theorem AdmissionOk.congr {a b : Station} (h : standing b = standing a) (hp : AdmissionOk a) : AdmissionOk b := by
  have hs : b.state = a.state := congrArg Standing.state h
  have ha : b.allowance = a.allowance := congrArg Standing.allowance h
  rw [AdmissionOk, Paired, hs, ha]
  exact hp

theorem Calm.safe {L M : List Nat} {s t : State} (h : Calm L M s t) : Safe L M s t := by
  refine ⟨h.toSane, fun a k st' hk => ?_, fun ⟨hn, hm⟩ => ⟨h.held ▸ hn, fun k => ?_⟩, fun a k st' hk => ?_⟩
  · obtain ⟨st, hst, he⟩ := h.station_back hk
    exact AdmissionOk.congr he (a k st hst)
  · rw [h.held, hm]
    constructor
    · rintro ⟨st, hst, hstate⟩
      obtain ⟨st', hst', he⟩ := h.station hst
      exact ⟨st', hst', (congrArg Standing.state he).trans hstate⟩
    · rintro ⟨st', hst', hstate⟩
      obtain ⟨st, hst, he⟩ := h.station_back hst'
      exact ⟨st, hst, (congrArg Standing.state he).symm.trans hstate⟩
  · obtain ⟨st, hst, he⟩ := h.station_back hk
    have haddr : st'.addr = st.addr := congrArg Standing.addr he
    exact haddr ▸ a k st hst

/-! ## A change of one slot -/

/-- A change, block by block, of one slot of the table: what the invariants ask of the record that it holds afterwards, if
it holds one, and of the held order. -/
structure SlotChange (k : Fin 256) (s t : State) (o : Option Station) : Prop where
  slots : ∀ j, t.station? j = if k = j then o else s.station? j
  credit : CreditOk s → ∀ st, o = some st → InCreditRange st.credit
  caps : CapacitiesOk s → ∀ st, o = some st → st.upq.length ≤ 24 ∧ ∀ w i, st.origin = .radio w i → i < 64
  admission : AllowancesOk s → ∀ st, o = some st → AdmissionOk st
  address : AddressesOk s → ∀ st, o = some st → isGroup st.addr = false
  others : HeldOrderOk s → t.table.held.Nodup ∧ ∀ j, j ≠ k → (j ∈ t.table.held ↔ j ∈ s.table.held)
  held : HeldOrderOk s → (k ∈ t.table.held ↔ ∃ st, o = some st ∧ st.state = .held)

/-- A property of every record is kept by a change of one slot where the new record has it. -/
theorem SlotChange.forall {k : Fin 256} {s t : State} {o : Option Station} (c : SlotChange k s t o)
    {P : Station → Prop} (h : ∀ j st, s.station? j = some st → P st) (hk : ∀ st, o = some st → P st) :
    ∀ j st, t.station? j = some st → P st := by
  intro j st hj
  rw [c.slots] at hj
  split at hj
  · exact hk st hj
  · exact h j st hj

theorem SlotChange.safe {L M N : List Nat} {k : Fin 256} {s t : State} {o : Option Station} (c : SlotChange k s t o)
    (hub : HubKeeps L M s.hub t.hub) (ports : PortsKeep M N s.ports t.ports)
    (sched : CreditOk s → InCreditRange t.sched.surplus ∧ t.sched.params = s.sched.params ∧
      t.sched.pendingParams = s.sched.pendingParams)
    (onboard : CapacitiesOk s → t.up.onboard.length ≤ 128) (pending : t.pending = s.pending)
    (identity : t.identity = s.identity) : Safe L N s t := by
  refine ⟨Sane.of hub ports (fun h => ?_) (fun h => ⟨?_, onboard h⟩) pending identity, fun a => ?_, fun a => ?_, fun a => ?_⟩
  · obtain ⟨hsurplus, hparams, hpending⟩ := sched h
    exact ⟨c.forall h.credit (c.credit h), hsurplus, hparams ▸ h.budget, hpending ▸ h.pendingBudget⟩
  · exact c.forall (fun j st hj => ⟨h.upward j st hj, fun w i => h.indices j st w i hj⟩) (c.caps h)
  · exact c.forall a (c.admission a)
  · obtain ⟨hn, hj⟩ := c.others a
    refine ⟨hn, fun j => ?_⟩
    rw [c.slots]
    split
    case isTrue e => exact e ▸ c.held a
    case isFalse e => exact (hj j (Ne.symm e)).trans (a.2 j)
  · exact c.forall a (c.address a)

/-- The same where nothing but the table changes. -/
theorem SlotChange.safe_table {L : List Nat} {k : Fin 256} {s t : State} {o : Option Station} (c : SlotChange k s t o)
    (ht : t = { s with table := t.table }) : Safe L L s t := by
  have hhub : t.hub = s.hub := by rw [ht]
  have hports : t.ports = s.ports := by rw [ht]
  have hsched : t.sched = s.sched := by rw [ht]
  have hup : t.up = s.up := by rw [ht]
  exact c.safe (by rw [hhub]; exact .refl L _) (by rw [hports]; exact .refl L _)
    (fun h => by rw [hsched]; exact ⟨h.surplus, rfl, rfl⟩) (fun h => by rw [hup]; exact h.onboard) (by rw [ht])
    (by rw [ht])

end Sys2Proof.Laws
end

section
/-! SUPPORT. The shared operations that leave every record standing as it does: notices, counts, discards, purges, orders,
replies and the taking of requests. -/

namespace Sys2Proof.Laws

open Sys2Proof Sys2Proof.Machine Sys2Proof.Safety

/-! ## One block -/

theorem Calm.ofHub {L M : List Nat} {s : State} {h' : Hub} (hk : HubKeeps L M s.hub h') :
    Calm L M s { s with hub := h' } :=
  .of hk (.refl M _) (.refl _) le_rfl ⟨rfl, rfl, rfl⟩ rfl rfl

theorem Calm.ofPorts {L M : List Nat} {s : State} {ps : Ports} (hk : PortsKeep L M s.ports ps) :
    Calm L M s { s with ports := ps } :=
  .of (.refl L _) hk (.refl _) le_rfl ⟨rfl, rfl, rfl⟩ rfl rfl

theorem Calm.ofTable {L : List Nat} {s : State} {t : StationTable} (hk : TableKeeps s.table t) :
    Calm L L s { s with table := t } :=
  .of (.refl L _) (.refl L _) hk le_rfl ⟨rfl, rfl, rfl⟩ rfl rfl

/-- A change of the time, the windows, the consist, the hold settings and the scheduler's counters. -/
theorem Calm.ofRest {L : List Nat} {s t : State} (hub : t.hub = s.hub) (ports : t.ports = s.ports)
    (table : t.table = s.table) (up : t.up.onboard = s.up.onboard)
    (sched : t.sched.params = s.sched.params ∧ t.sched.pendingParams = s.sched.pendingParams ∧
      t.sched.surplus = s.sched.surplus)
    (pending : t.pending = s.pending) (identity : t.identity = s.identity) : Calm L L s t :=
  .of (by rw [hub]; exact .refl L _) (by rw [ports]; exact .refl L _) (by rw [table]; exact .refl _) (by rw [up])
    sched pending identity

variable {L : List Nat} (s : State)

theorem onPorts_calm {g : Ports → Ports} (h : PortsKeep [] [] s.ports (g s.ports)) : Calm L L s (onPorts g s) :=
  .ofPorts (h.frame L)

theorem onHub_calm {g : Hub → Hub} (h : HubKeeps [] [] s.hub (g s.hub)) : Calm L L s (onHub g s) :=
  .ofHub (h.frame L)

/-! ## Notices, counts and discards -/

theorem raiseNotice_calm (n : Notice) : Calm L L s (raiseNotice n s) := .ofHub ((raise_keeps _ n _).frame L)

theorem tally_calm (r : Discard) : Calm L L s (tally r s) := onHub_calm s (tally_keeps r _)

theorem txDrop_calm (p : Port) : Calm L L s (txDrop p s) := onPorts_calm s (count_keeps _ p _)

theorem rxDiscard_calm (p : Port) : Calm L L s (rxDiscard p s) := onPorts_calm s (count_keeps _ p _)

theorem discardEntry_calm (r : Discard) (b : Option Port) (id : Nat) : Calm L L s (discardEntry r b id s) :=
  .of (((tally_keeps r _).trans (dropRef_keeps _ id _)).frame L)
    (((count?_keeps _ b _).trans (count?_keeps _ _ _)).frame L) (modStation?_keeps _ _ drop_eases) le_rfl
    ⟨rfl, rfl, rfl⟩ rfl rfl

theorem discardEntries_calm (r : Discard) (b : Option Port) (ids : List Nat) :
    Calm L L s (discardEntries r b ids s) := Calm.foldl (fun s id => discardEntry_calm s r b id) ids s

theorem discardFrame_calm (r : Discard) (p : Port) (b : Option Port) (o : Option (Fin 256)) (id : Nat) :
    Calm L L s (discardFrame r p b o id s) :=
  .of (((tally_keeps r _).trans (freeFrame_keeps _ id _)).frame L)
    (((count_keeps _ p _).trans (count?_keeps _ b _)).frame L) (modStation?_keeps _ o drop_eases) le_rfl
    ⟨rfl, rfl, rfl⟩ rfl rfl

theorem copyNotMade_calm (r : Discard) (p : Port) : Calm L L s (copyNotMade r p s) :=
  (tally_calm s r).trans (txDrop_calm _ p)

theorem giveBackCells_calm (chain : List Nat) : Calm chain [] s (giveBackCells chain s) :=
  .ofHub (giveBack_keeps _ [] chain _)

/-- A frame that is valid nowhere gives its cells back (R5, R6). -/
theorem discardWire_calm (p : Port) (chain : List Nat) : Calm chain [] s (discardWire p chain s) :=
  (tally_calm s .wire).trans ((rxDiscard_calm _ p).trans (giveBackCells_calm _ chain))

theorem freeIfUnplaced_calm (p : Port) (id : Nat) : Calm L L s (freeIfUnplaced p id s) := by
  refine .of (HubKeeps.frame ?_ L) (PortsKeep.frame ?_ L) (.refl _) le_rfl ⟨rfl, rfl, rfl⟩ rfl rfl
  · unfold freeIfUnplaced
    dsimp only
    split
    case h_1 => split
                · exact freeFrame_keeps _ id _
                · exact .refl [] _
    case h_2 => exact .refl [] _
  · unfold freeIfUnplaced
    dsimp only
    split
    case h_1 => split
                · exact count_keeps _ p _
                · exact .refl [] _
    case h_2 => exact .refl [] _

theorem failCreation_calm (a : LinkAddr) (o : Origin) : Calm L L s (failCreation a o s) :=
  (onHub_calm s (flag_keeps .tableFull _)).trans (raiseNotice_calm _ _)

theorem originConflict_calm (k : Fin 256) (st : Station) (o : Origin) (a : LinkAddr) :
    Calm L L s (originConflict k st o a s) :=
  (onHub_calm s (flag_keeps .originConflict _)).trans (raiseNotice_calm _ _)

theorem inputOverflow_calm : Calm L L s (inputOverflow s) :=
  onHub_calm s ((tally_keeps .mgmtOverflow _).trans (flag_keeps .mgmtOverflow _))

theorem countClassified_calm (u : Bool) (r : Classified) : Calm L L s (countClassified u r s) :=
  .ofRest rfl rfl rfl rfl ⟨rfl, rfl, rfl⟩ rfl rfl

/-! ## Time, transmissions, links and hold states -/

theorem pass_params (d : Nat) (c : Scheduler) :
    (c.pass d).params = c.params ∧ (c.pass d).pendingParams = c.pendingParams ∧ (c.pass d).surplus = c.surplus := by
  unfold Scheduler.pass
  split
  · exact ⟨rfl, rfl, rfl⟩
  · split <;> exact ⟨rfl, rfl, rfl⟩

theorem elapse_calm (d : Nat) : Calm L L s (elapse d s) := .ofRest rfl rfl rfl rfl (pass_params d _) rfl rfl

theorem waitUntil_calm (t : Nat) : Calm L L s (waitUntil t s) := elapse_calm s _

theorem setTx_calm (p : Port) (t : Option Transmission) : Calm L L s (setTx p t s) :=
  onPorts_calm s (modUnit_keeps _ p (fun _ => rfl))

theorem setLink_calm (p : Port) (l : Link) : Calm L L s (setLink p l s) :=
  onPorts_calm s (modUnit_keeps _ p (fun _ => rfl))

/-- A change of a backbone end that leaves its reception alone and lengthens no queue. -/
theorem onEnd_calm (x : End) {g : BackboneEnd → BackboneEnd} (rx : ∀ e, (g e).unit.rx = e.unit.rx)
    (transit : ∀ e, (g e).transit = e.transit) : Calm L L s (onPorts (Ports.modEnd x g) s) :=
  onPorts_calm s (modEnd_keeps (rx _) (fun h => by rw [transit]; exact h))

theorem afterEnqueue_calm (y : End) : Calm L L s (afterEnqueue y s) := by
  unfold afterEnqueue
  refine .ofPorts (PortsKeep.frame ?_ L)
  split
  · exact modEnd_keeps rfl id
  · exact .refl [] _

theorem afterFall_calm (y : End) : Calm L L s (afterFall y s) := by
  unfold afterFall
  refine .ofPorts (PortsKeep.frame ?_ L)
  split
  · exact modEnd_keeps rfl id
  · exact .refl [] _

/-! ## Orders and purges -/

/-- An order for an index of a radio keeps the order queues within their capacity (R72). The index is one wherever the
origins of the records are (R38). -/
theorem sendOrder_calm {w : Fin 4} {o : Order} (h : CapacitiesOk s → o.index < 64) : Calm L L s (sendOrder w o s) := by
  have hrx : (receptionCells (s.ports.modRadio w (fun q => { q with orders := placeOrder o q.orders })) ++ L).Perm
      (receptionCells s.ports ++ L) :=
    ((List.perm_append_right_iff _).mp (modRadio_rx s.ports w _)).append (.refl L)
  have hkeeps : CapacitiesOk s →
      PortsKeep [] [] s.ports (s.ports.modRadio w (fun q => { q with orders := placeOrder o q.orders })) :=
    fun c => modRadio_keeps rfl (fun n => n) (fun f => f.place (h c))
  refine ⟨⟨fun m => m, fun ⟨a, b, c, d, e, f, g⟩ => ⟨a, b, c, d, e, f, g⟩, fun c => Stocked.perm c hrx, fun c => ?_, rfl,
    rfl⟩, rfl, fun _ => rfl⟩
  obtain ⟨fit, rest⟩ := capacitiesOk_iff.mp c
  exact capacitiesOk_iff.mpr ⟨(hkeeps c).fit fit, rest⟩

theorem cancelOrder_calm (w : Fin 4) (i : Nat) : Calm L L s (cancelOrder w i s) :=
  onPorts_calm s (modRadio_keeps rfl id (fun f => f.filter _))

theorem onRadioFigures_calm (w : Fin 4) {g : RadioLink → RadioLink} (unit : ∀ q, (g q).unit = q.unit)
    (egress : ∀ q, (g q).egress = q.egress) (orders : ∀ q, (g q).orders = q.orders) :
    Calm L L s (onPorts (Ports.modRadio w g) s) :=
  onPorts_calm s (modRadio_keeps (by rw [unit]) (fun h => by rw [egress]; exact h) (fun f => by rw [orders]; exact f))

theorem noticeTaken_calm (w : Fin 4) : Calm L L s (noticeTaken w s) :=
  onRadioFigures_calm s w (fun _ => rfl) (fun _ => rfl) (fun _ => rfl)

theorem noticeIgnored_calm (w : Fin 4) : Calm L L s (noticeIgnored w s) :=
  onRadioFigures_calm s w (fun _ => rfl) (fun _ => rfl) (fun _ => rfl)

theorem purgeUpward_calm (k : Fin 256) : Calm L L s (purgeUpward k s) := by
  unfold purgeUpward
  refine Calm.trans ?_ (discardEntries_calm _ .purge none _)
  exact .of (.refl L _) (.refl L _) (modStation_keeps _ k (fun _ => ⟨rfl, rfl, Nat.zero_le _⟩)) le_rfl
    ⟨rfl, rfl, rfl⟩ rfl rfl

/-- The egress queue of a seat port loses entries. -/
theorem filterSeat_calm (n : Fin 32) {q : List Nat} (h : q.length ≤ (s.ports.seats[n]).egress.length) :
    Calm L L s (onPorts (Ports.modSeat n (fun p => { p with egress := q })) s) :=
  onPorts_calm s (modSeat_keeps rfl (fun f => h.trans f))

/-- The egress queue of a radio loses entries. -/
theorem filterRadio_calm (w : Fin 4) {q : List RadioEntry} (h : q.length ≤ (s.ports.radios[w]).egress.length) :
    Calm L L s (onPorts (Ports.modRadio w (fun p => { p with egress := q })) s) :=
  onPorts_calm s (modRadio_keeps rfl (fun f => h.trans f) id)

/-- The transit queue toward an end loses entries. -/
theorem filterTransit_calm (x : End) {q : List Nat} (h : q.length ≤ (s.ports.endOf x).transit.length) :
    Calm L L s (onPorts (Ports.modEnd x (fun e => { e with transit := q })) s) :=
  onPorts_calm s (modEnd_keeps rfl (fun f => h.trans f))

theorem purgeEgress_calm (k : Fin 256) (o : Origin) : Calm L L s (purgeEgress k o s) := by
  cases o with
  | seat n => exact (filterSeat_calm s n (List.length_filter_le _ _)).trans (discardEntries_calm _ .purge _ _)
  | radio w i => exact (filterRadio_calm s w (List.length_filter_le _ _)).trans (discardEntries_calm _ .purge _ _)

theorem clearSeatEgress_calm (n : Fin 32) : Calm L L s (clearSeatEgress n s) :=
  (filterSeat_calm s n (Nat.zero_le _)).trans (discardEntries_calm _ .purge _ _)

theorem clearRadioEgress_calm (w : Fin 4) : Calm L L s (clearRadioEgress w s) :=
  (filterRadio_calm s w (Nat.zero_le _)).trans (discardEntries_calm _ .purge _ _)

theorem clearTransit_calm (x : End) : Calm L L s (clearTransit x s) :=
  (filterTransit_calm s x (Nat.zero_le _)).trans ((discardEntries_calm _ .purge _ _).trans (afterFall_calm _ x))

/-! ## Withdrawals -/

theorem withdrawSeat_calm (id : Nat) (n : Fin 32) : Calm L L s (withdrawSeat id n s) :=
  (filterSeat_calm s n (List.length_filter_le _ _)).trans (discardEntries_calm _ .memory _ _)

theorem withdrawRadio_calm (id : Nat) (w : Fin 4) : Calm L L s (withdrawRadio id w s) :=
  (filterRadio_calm s w (List.length_filter_le _ _)).trans (discardEntries_calm _ .memory _ _)

theorem withdrawTransit_calm (id : Nat) (x : End) : Calm L L s (withdrawTransit id x s) := by
  have hleft : Calm L L s (discardEntries .memory (some (.backbone x)) _ _) :=
    (filterTransit_calm s x (List.length_filter_le (fun j => decide (j ≠ id)) _)).trans
      (discardEntries_calm _ .memory _ ((s.ports.endOf x).transit.filter (fun j => decide (j = id))))
  unfold withdrawTransit
  dsimp only
  split
  · exact hleft
  · exact hleft.trans (afterFall_calm _ x)

theorem withdrawUpward_calm (id : Nat) : Calm L L s (withdrawUpward id s) := by
  unfold withdrawUpward
  refine Calm.trans ?_ (discardEntries_calm _ .memory none _)
  exact .of (.refl L _) (.refl L _) (modStation?_keeps _ _ (fun _ => ⟨rfl, rfl, List.length_filter_le _ _⟩))
    (List.length_filter_le _ _) ⟨rfl, rfl, rfl⟩ rfl rfl

theorem withdrawInput_calm (id : Nat) : Calm L L s (withdrawInput id s) := by
  unfold withdrawInput
  refine Calm.trans ?_ (discardEntries_calm _ .memory none _)
  refine .ofHub (HubKeeps.frame ?_ L)
  exact .ofMgmt rfl rfl (fun _ h => h) (List.length_filter_le _ _) le_rfl

theorem withdraw_calm (id : Nat) : Calm L L s (withdraw id s) :=
  (Calm.foldl (fun s n => withdrawSeat_calm s id n) _ s).trans
    ((Calm.foldl (fun s w => withdrawRadio_calm s id w) _ _).trans
      ((withdrawTransit_calm _ id .ba).trans ((withdrawTransit_calm _ id .bb).trans
        ((withdrawUpward_calm _ id).trans (withdrawInput_calm _ id)))))

theorem failStart_calm (p : Port) (f : FrameRec) (bad : List Nat) : Calm L L s (failStart p f bad s) :=
  (discardEntry_calm s .memory _ _).trans ((withdraw_calm _ _).trans (raiseNotice_calm _ _))

theorem tryStart_calm (p : Port) (id : Nat) (t : Transmission) : Calm L L s (tryStart p id t s).2 := by
  unfold tryStart
  split
  case h_1 => exact .refl L s
  case h_2 f hf =>
    have hread : Calm L L s { s with hub := (s.hub.readFrame f (some p)).2 } :=
      .ofHub ((readFrame_keeps (some p) _ (frame?_mem hf).1).frame L)
    dsimp only
    split
    · exact hread.trans (setTx_calm _ p _)
    · exact hread.trans (failStart_calm _ p f _)

/-! ## Replies -/

/-- The contents of a reply are no longer than a frame may be: fixed ones at most 1510 bytes. -/
def ContentOk (c : ReplyContent) : Prop := ∀ st body, c = .fixed st body → body.length ≤ 1510

theorem ContentOk.fixed {st : Status} {body : List Byte} (h : body.length ≤ 1510) : ContentOk (.fixed st body) := by
  rintro _ _ ⟨⟩
  exact h

theorem slotOk_reserved {h : ReqHeader} {c : ReplyContent} {b : Bool} :
    SlotOk (.reserved h (some c) b) ↔ ContentOk c := by
  cases c <;> simp [SlotOk, ContentOk]

theorem stationView_length (s : State) (k : Fin 256) (st : Station) : (stationView s k st).length = 100 := by
  simp [stationView, addrBytes, beBytes_length, beInt32, origin_bytes_length, counter_block_length,
    allowanceBlock_length]

theorem params_bytes_length (q : Params) : q.bytes.length = 12 := by simp [Params.bytes, beBytes_length]

theorem schedulerView_length (c : Scheduler) : (schedulerView c).length = 46 := by
  cases h : c.pendingParams <;> simp [schedulerView, beBytes_length, beInt32, params_bytes_length, h]

theorem windowView_length (i : Fin 9) (w : Window) : (windowView i w).length = 24 := by
  simp [windowView, beBytes_length]

theorem portView_length_le (s : State) (p : Port) : (portView s p).length ≤ 58 := by
  cases p <;> simp [portView, PortUnit.view, beBytes_length]

theorem captureBytes_length (c : Option Capture) : (captureBytes c).length = 6 := by
  cases c <;> simp [captureBytes, beBytes_length]

theorem length_flatMap_const {α : Type} {l : List α} {g : α → List Byte} {n : Nat} (h : ∀ a, (g a).length = n) :
    (l.flatMap g).length = n * l.length := by
  induction l with
  | nil => simp
  | cons a l ih => simp [h, ih, Nat.mul_add, Nat.add_comm]

theorem endStatus_length (now : Nat) (e : BackboneEnd) : (endStatus now e).length = 8 := by
  simp [endStatus, beBytes_length]

theorem statusView_length (s : State) : (statusView s).length = 188 := by
  have hflags : (s.hub.mgmt.flags.toList.flatMap StickyFlag.bytes).length = 44 := by
    rw [length_flatMap_const (n := 4) (fun f => by simp [StickyFlag.bytes, beBytes_length]), Vector.length_toList]
  have htally : (s.hub.mgmt.tally.toList.flatMap (fun n => beBytes 4 n.toNat)).length = 72 := by
    rw [length_flatMap_const (n := 4) (fun n => beBytes_length 4 _), Vector.length_toList]
  unfold statusView addrBytes
  simp only [List.length_append, List.length_cons, List.length_nil, captureBytes_length, endStatus_length,
    hflags, htally, beBytes_length]

theorem listEntry_length (o : Option Station) : (listEntry o).length = 12 := by
  cases o <;> simp [listEntry, addrBytes, beBytes_length, origin_bytes_length]

theorem snapshotEntryBytes_length (o : Option SnapshotEntry) : (snapshotEntryBytes o).length = 30 := by
  cases o <;> simp [snapshotEntryBytes, addrBytes, beBytes_length]

theorem listView_length_le (s : State) (p : Nat) : (listView s p).length ≤ 194 := by
  have := List.length_take_le 16 ((s.table.slots.toList).drop (16 * p))
  simp only [listView, List.length_append, List.length_cons, List.length_nil, length_flatMap_const listEntry_length]
  omega

theorem snapshotView_length_le (sn : Snapshot) (p : Nat) : (snapshotView sn p).length ≤ 488 := by
  have := List.length_take_le 16 (sn.entries.toList.drop (16 * p))
  simp only [snapshotView, List.length_append, List.length_cons, List.length_nil, beBytes_length,
    length_flatMap_const snapshotEntryBytes_length]
  omega

/-- No reply body is longer than a frame may be (11.2). -/
theorem renderReply_length {s : State} {c : ReplyContent} (h : ContentOk c) : (renderReply s c).2.length ≤ 1510 := by
  cases c with
  | fixed st body => exact h st body rfl
  | station a =>
    simp only [renderReply]
    split
    · simp
    · split <;> simp [stationView_length]
  | page p => exact (listView_length_le s p).trans (by omega)
  | scheduler => simp [renderReply, schedulerView_length]
  | window i => simp [renderReply, windowView_length]
  | port p => exact (portView_length_le s p).trans (by omega)
  | status => simp [renderReply, statusView_length]
  | snapshotPage p =>
    simp only [renderReply]
    split
    · simp
    · exact (snapshotView_length_le _ p).trans (by omega)

theorem buildReply_calm {s t : State} {k : Fin 4} {h : ReqHeader} {c : ReplyContent}
    (hb : buildReply k h c s = some t) (hc : HubFit s.hub → ContentOk c) : Calm L L s t := by
  unfold buildReply at hb
  split at hb
  case h_1 => cases hb
  case h_2 id h1 e hbuild =>
    have hlen : HubFit s.hub → (replyBytes s h c).length + 4 ≤ 1536 := fun f => by
      have := renderReply_length (s := s) (hc f)
      rw [replyBytes, mgmtFrame_length]
      omega
    have hnoted : HubKeeps [] [] s.hub (h1.noteEntered s.sender e) :=
      (build_keeps hbuild hlen).trans (noteEntered_keeps _ e _)
    split at hb
    · obtain rfl := Option.some.inj hb
      exact .of ((hnoted.trans ((freeSlot_keeps k _).trans ((dropRef_keeps _ id _).trans (tally_keeps .purge _)))).frame L)
        ((count_keeps _ _ _).frame L) (.refl _) le_rfl ⟨rfl, rfl, rfl⟩ rfl rfl
    · obtain rfl := Option.some.inj hb
      exact .ofHub ((hnoted.trans (placeBuilt_keeps k h id _)).frame L)

theorem buildOldest_calm : Calm L L s (buildOldest s) := by
  unfold buildOldest
  split
  case h_1 => exact .refl L s
  case h_2 k _ _ =>
    split
    case h_1 h c b hslot =>
      cases hb : buildReply k h c s with
      | none => exact .refl L s
      | some t =>
        refine buildReply_calm hb (fun f => ?_)
        have hok := f.slots k
        rw [hslot] at hok
        exact slotOk_reserved.mp hok
    case h_2 => exact .refl L s

theorem fixReply_calm (k : Fin 4) {c : ReplyContent} (b : Bool) (hc : ContentOk c) : Calm L L s (fixReply k c b s) := by
  unfold fixReply
  split
  case h_1 => exact .refl L s
  case h_2 h _ =>
    have hfixed : ∀ m : Mgmt, m = { s.hub.mgmt with
        slots := s.hub.mgmt.slots.set k (.reserved h (some c) b), waiting := s.hub.mgmt.waiting ++ [k] } →
        Calm L L s { s with hub := { s.hub with mgmt := m } } := fun m hm => by
      subst hm
      refine .ofHub (HubKeeps.frame ?_ L)
      exact .ofMgmt rfl rfl (slotOk_set (slotOk_reserved.mpr hc)) le_rfl le_rfl
    dsimp only
    split
    · exact (hfixed _ rfl).trans (buildOldest_calm _)
    · exact hfixed _ rfl

theorem refuse_calm (k : Fin 4) (st : Status) : Calm L L s (refuse k st s) :=
  fixReply_calm s k true (.fixed (by simp))

theorem answer_calm (k : Fin 4) {body : List Byte} (h : body.length ≤ 1510) : Calm L L s (answer k body s) :=
  fixReply_calm s k true (.fixed h)

theorem answerView_calm (k : Fin 4) {c : ReplyContent} (h : ContentOk c) : Calm L L s (answerView k c s) :=
  fixReply_calm s k true h

theorem park_calm (k : Fin 4) {op : PendingOp} (h : ∀ q, SlotOk (.parked q op)) : Calm L L s (park k op s) := by
  unfold park
  split
  case h_1 => exact .refl L s
  case h_2 q _ => exact .ofHub ((setSlot_keeps k (h q) _).frame L)

theorem takeSnapshot_calm : Calm L L s (takeSnapshot s) := by
  refine .ofHub (HubKeeps.frame ?_ L)
  exact .ofFigures rfl rfl rfl rfl rfl

theorem takeParkedSnapshot_calm : Calm L L s (takeParkedSnapshot s) := by
  unfold takeParkedSnapshot
  split
  case h_1 => exact .refl L s
  case h_2 => exact (takeSnapshot_calm s).trans (fixReply_calm _ _ _ (.fixed (by simp [snapshotReply, beBytes_length])))

/-! ## Requests -/

theorem requestDiscarded_calm (r : Discard) (e : InputEntry) : Calm L L s (requestDiscarded r e s) :=
  .of ((tally_keeps r _).frame L) ((count?_keeps _ _ _).frame L) (.refl _) le_rfl ⟨rfl, rfl, rfl⟩ rfl rfl

theorem withFaults_calm (fs : List CellFault) : Calm L L s (withFaults fs s) := onHub_calm s (withFaults_keeps fs _)

theorem takeInto_calm (k : Fin 4) (e : InputEntry) {f : FrameRec} (rq : Request) (hf : f ∈ s.hub.cells.frames) :
    Calm L L s (takeInto k e f rq s).2 := by
  have htaken : ∀ h : Hub, h = Hub.setSlot k (.reserved rq.header none false) (s.hub.readFrame f none).2 →
      Calm L L s { s with hub := { h with mgmt := { h.mgmt with input := h.mgmt.input.tail } } } := fun h hh => by
    subst hh
    refine .ofHub (HubKeeps.frame ?_ L)
    exact (readFrame_keeps none _ hf).trans ((setSlot_keeps k (q := .reserved rq.header none false) trivial _).trans
      (.ofMgmt rfl rfl (fun _ h => h) (by simp) le_rfl))
  unfold takeInto
  dsimp only
  split
  · exact (htaken _ rfl).trans ((requestDiscarded_calm _ _ _).trans ((onHub_calm _ (freeSlot_keeps k _)).trans
      ((onHub_calm _ (dropRef_keeps _ _ _)).trans (raiseNotice_calm _ _))))
  · split
    · exact (htaken _ rfl).trans ((requestDiscarded_calm _ _ _).trans ((onHub_calm _ (freeSlot_keeps k _)).trans
        (onHub_calm _ (dropRef_keeps _ _ _))))
    · exact (htaken _ rfl).trans (onHub_calm _ (dropRef_keeps _ _ _))

theorem requestReady_frame {s : State} {k : Fin 4} {e : InputEntry} {f : FrameRec} {rq : Request}
    (h : requestReady s = some (k, e, f, rq)) : f ∈ s.hub.cells.frames := by
  unfold requestReady at h
  split at h
  · split at h
    · obtain ⟨g, hg, he⟩ := Option.map_eq_some_iff.mp h
      obtain ⟨-, -, rfl, -⟩ := by simpa using he
      exact (frame?_mem hg).1
    · cases h
  · cases h

/-- A command of a request row is safe where its rule is. -/
theorem takeRequest_safe (row : Request → Bool) (fs : List CellFault) {rule : Fin 4 → Request → State → State}
    (h : ∀ k rq t, Safe [] [] t (rule k rq t)) : Safe [] [] s (takeRequest row fs rule s) := by
  unfold takeRequest
  split
  case h_1 => exact .refl [] s
  case h_2 k e f rq hready =>
    split
    case isTrue =>
      have htake : Safe [] [] s (takeInto k e f rq (withFaults fs s)).2 :=
        ((withFaults_calm s fs).trans (takeInto_calm _ k e rq (requestReady_frame hready))).safe
      dsimp only
      split
      · split
        · exact htake.trans (refuse_calm _ _ _).safe
        · exact htake.trans (h _ _ _)
      · exact htake
    case isFalse => exact .refl [] s

end Sys2Proof.Laws
end

section
/-! SUPPORT. The operations that change how records stand: attribution, creation, removal, bars, charges and exhaustions,
each as one change of a slot with what is calm around it. -/

namespace Sys2Proof.Laws

open Sys2Proof Sys2Proof.Machine Sys2Proof.Safety

/-! ## The held order -/

theorem mem_fromHeld {k j : Fin 256} {held : List (Fin 256)} : j ∈ fromHeld k held ↔ j ∈ held ∧ j ≠ k := by
  simp [fromHeld]

theorem mem_toHeldEnd {k j : Fin 256} {held : List (Fin 256)} : j ∈ toHeldEnd k held ↔ j ∈ held ∧ j ≠ k ∨ j = k := by
  simp [toHeldEnd]

theorem nodup_fromHeld {k : Fin 256} {held : List (Fin 256)} (h : held.Nodup) : (fromHeld k held).Nodup := h.filter _

theorem nodup_toHeldEnd {k : Fin 256} {held : List (Fin 256)} (h : held.Nodup) : (toHeldEnd k held).Nodup :=
  (h.filter _).append (List.nodup_singleton _) (by simp)

theorem fromHeld_fromHeld (k : Fin 256) (held : List (Fin 256)) : fromHeld k (fromHeld k held) = fromHeld k held := by
  simp [fromHeld, List.filter_filter]

/-! ## Records that are paired -/

theorem AdmissionOk.ofLeaving {st : Station} (h : st.isLeaving = true) : AdmissionOk st := by
  unfold Station.isLeaving at h
  split at h
  · next why hs => simp [AdmissionOk, Paired, hs]
  · cases h

theorem AdmissionOk.ofAdmitted {st : Station} (hs : st.state = .admitted ∨ st.state = .barred .admitted)
    (ha : ∀ al, st.allowance = some al → 0 < al.current) : AdmissionOk st := by
  rcases hs with hs | hs <;> simpa [AdmissionOk, Paired, hs] using ha

theorem AdmissionOk.ofSpent {st : Station} (hs : st.state = .spent ∨ st.state = .barred .spent)
    (ha : ∃ al, st.allowance = some al ∧ al.current = 0) : AdmissionOk st := by
  rcases hs with hs | hs <;> simpa [AdmissionOk, Paired, hs] using ha

theorem AdmissionOk.ofHeld {st : Station} (hs : st.state = .held ∨ st.state = .barred .held)
    (ha : st.allowance = none) : AdmissionOk st := by
  rcases hs with hs | hs <;> simp [AdmissionOk, Paired, hs, ha]

/-! ## A change of one record -/

/-- A change of a record that leaves its address, origin and credit, and makes its queue no longer. -/
structure KeepsPlace (st st' : Station) : Prop where
  addr : st'.addr = st.addr
  origin : st'.origin = st.origin
  credit : st'.credit = st.credit
  upq : st'.upq.length ≤ st.upq.length

/-- The slot change that a change `g` of the record in slot `k` is. -/
theorem SlotChange.ofMod {k : Fin 256} {s t : State} {g : Station → Station} {st : Station}
    (slots : t.table.slots = (s.table.modStation k g).slots) (hst : s.station? k = some st) (hg : KeepsPlace st (g st))
    (admission : AllowancesOk s → AdmissionOk (g st))
    (others : HeldOrderOk s → t.table.held.Nodup ∧ ∀ j, j ≠ k → (j ∈ t.table.held ↔ j ∈ s.table.held))
    (held : HeldOrderOk s → (k ∈ t.table.held ↔ (g st).state = .held)) : SlotChange k s t (some (g st)) := by
  have hslots : ∀ j, t.station? j = (s.table.modStation k g).station? j := fun j => by
    simp only [State.station?, StationTable.station?, slots]
  refine ⟨fun j => ?_, fun c st' e => ?_, fun c st' e => ?_, fun a st' e => ?_, fun a st' e => ?_, others, fun a => ?_⟩
  · rw [hslots, modStation_station]
    have hst' : s.table.station? k = some st := hst
    rw [hst']
    rfl
  · obtain rfl := Option.some.inj e
    exact hg.credit ▸ c.credit k st hst
  · obtain rfl := Option.some.inj e
    exact ⟨hg.upq.trans (c.upward k st hst), fun w i ho => c.indices k st w i hst (hg.origin ▸ ho)⟩
  · obtain rfl := Option.some.inj e
    exact admission a
  · obtain rfl := Option.some.inj e
    have := a k st hst
    rwa [hg.addr]
  · rw [held a]
    exact ⟨fun h => ⟨_, rfl, h⟩, fun ⟨_, e, h⟩ => Option.some.inj e ▸ h⟩

theorem HeldOrderOk.mem_iff {s : State} (h : HeldOrderOk s) {k : Fin 256} {st : Station} (hst : s.station? k = some st) :
    k ∈ s.table.held ↔ st.state = .held := by
  rw [h.2]
  exact ⟨fun ⟨_, e, hs⟩ => Option.some.inj (hst.symm.trans e) ▸ hs, fun hs => ⟨st, hst, hs⟩⟩

/-- The same with the held order as it is, where HELD stays HELD and nothing else becomes so. -/
theorem modRecord_safe {L : List Nat} {k : Fin 256} {s : State} {g : Station → Station}
    (h : ∀ st, s.station? k = some st → KeepsPlace st (g st) ∧ ((g st).state = .held ↔ st.state = .held) ∧
      (AllowancesOk s → AdmissionOk (g st))) : Safe L L s (onTable (StationTable.modStation k g) s) := by
  cases hst : s.station? k with
  | none =>
    have hst' : s.table.station? k = none := hst
    refine Calm.safe (.ofTable ⟨rfl, fun j => ?_⟩)
    rw [modStation_station]
    split
    case isTrue e => subst e; rw [hst']; exact .none
    case isFalse => exact rel_refl _
  | some st =>
    obtain ⟨hplace, hheld, hadm⟩ := h st hst
    have hchange : SlotChange k s (onTable (StationTable.modStation k g) s) (some (g st)) :=
      .ofMod rfl hst hplace hadm (fun a => ⟨a.1, fun j _ => Iff.rfl⟩) (fun a => (HeldOrderOk.mem_iff a hst).trans hheld.symm)
    exact hchange.safe_table rfl

/-- A change of one record that keeps its place keeps what does not depend on how it stands. -/
theorem modRecord_sane {L : List Nat} (k : Fin 256) (s : State) {g : Station → Station} (h : ∀ st, KeepsPlace st (g st)) :
    Sane L L s (onTable (StationTable.modStation k g) s) := by
  have hback : ∀ {j st'}, (onTable (StationTable.modStation k g) s).station? j = some st' →
      ∃ st, s.station? j = some st ∧ (KeepsPlace st st') := fun {j st'} hj => by
    have hstation : (s.table.modStation k g).station? j = some st' := hj
    rw [modStation_station] at hstation
    split at hstation
    case isTrue e =>
      obtain ⟨st, hst, rfl⟩ := Option.map_eq_some_iff.mp hstation
      exact ⟨st, e ▸ hst, h st⟩
    case isFalse => exact ⟨st', hstation, rfl, rfl, rfl, le_rfl⟩
  refine .of (.refl L _) (.refl L _) (fun c => ⟨fun j st' hj => ?_, c.surplus, c.budget, c.pendingBudget⟩)
    (fun c => ⟨fun j st' hj => ?_, c.onboard⟩) rfl rfl
  · obtain ⟨st, hst, hplace⟩ := hback hj
    exact hplace.credit ▸ c.credit j st hst
  · obtain ⟨st, hst, hplace⟩ := hback hj
    exact ⟨hplace.upq.trans (c.upward j st hst), fun w i ho => c.indices j st w i hst (hplace.origin ▸ ho)⟩

theorem setStationState_eq (k : Fin 256) (x : StationState) (s : State) :
    setStationState k x s = onTable (StationTable.modStation k (fun r => { r with state := x })) s := rfl

theorem modStation_modStation (t : StationTable) (k : Fin 256) (f g : Station → Station) :
    (t.modStation k f).modStation k g = t.modStation k (fun r => g (f r)) := by
  simp [StationTable.modStation, Function.comp_def]

theorem onTable_modStation (s : State) (k : Fin 256) (f g : Station → Station) :
    onTable (StationTable.modStation k g) (onTable (StationTable.modStation k f) s) =
      onTable (StationTable.modStation k (fun r => g (f r))) s := by
  simp only [onTable, modStation_modStation]

/-! ## Attribution and creation -/

theorem attributeFrame_safe {L : List Nat} (k : Fin 256) (id : Nat) (s : State) :
    Safe L L s (attributeFrame k id s) := by
  have hhub : HubKeeps L L s.hub (attributeFrame k id s).hub :=
    (modFrame_keeps id (fun f => { f with station := some k }) s.hub (fun _ => rfl) (fun _ => rfl)
      (fun _ => rfl)).frame L
  cases hst : s.station? k with
  | none =>
    refine Calm.safe (.of hhub (.refl L _) ⟨?_, (modStation_keeps s.table k (g := Station.touch s.now) (fun _ => ⟨rfl, rfl, le_rfl⟩)).records⟩ le_rfl
      ⟨rfl, rfl, rfl⟩ rfl rfl)
    simp only [attributeFrame, hst]
  | some st =>
    have hheld : (attributeFrame k id s).table.held =
        if st.state = .held then toHeldEnd k s.table.held else s.table.held := by simp only [attributeFrame, hst]
    refine SlotChange.safe (SlotChange.ofMod (g := Station.touch s.now) rfl hst ⟨rfl, rfl, rfl, le_rfl⟩
      (fun a => AdmissionOk.congr rfl (a k st hst)) (fun a => ?_) (fun a => ?_)) hhub (.refl L _)
      (fun c => ⟨c.surplus, rfl, rfl⟩) (fun c => c.onboard) rfl rfl
    · rw [hheld]
      split
      · exact ⟨nodup_toHeldEnd a.1, fun j hj => by simp [mem_toHeldEnd, hj]⟩
      · exact ⟨a.1, fun j _ => Iff.rfl⟩
    · rw [hheld]
      split
      case isTrue hs => simp [mem_toHeldEnd, Station.touch, hs]
      case isFalse hs => exact (HeldOrderOk.mem_iff a hst : k ∈ s.table.held ↔ st.state = .held)

/-- A new record in a slot that the held order does not name (R42, R68). -/
theorem fillSlot_safe {L : List Nat} {k : Fin 256} {a : LinkAddr} {cls : StationClass} {x : StationState} {o : Origin}
    {s : State} (ha : isGroup a = false) (hx : x = .held ∨ x = .admitted) (ho : ∀ w i, o = .radio w i → i < 64)
    (hk : HeldOrderOk s → k ∉ s.table.held) : Safe L L s (fillSlot k a cls x o s) := by
  refine Safe.trans ?_ (raiseNotice_calm _ _).safe
  refine SlotChange.safe_table (k := k) (o := some (newStation a cls x o s.hub.mgmt.defaultIdle s.now))
    ⟨fun j => ?_, ?_, ?_, ?_, ?_, fun h => ?_, fun h => ?_⟩ rfl
  · exact getElem_set_cases _ k j _
  · rintro - _ ⟨⟩; simp [newStation, InCreditRange]
  · rintro - _ ⟨⟩; exact ⟨Nat.zero_le _, ho⟩
  · rintro - _ ⟨⟩
    rcases hx with rfl | rfl
    · exact .ofHeld (.inl rfl) rfl
    · exact .ofAdmitted (.inl rfl) (by simp [newStation])
  · rintro - _ ⟨⟩; exact ha
  · dsimp only
    split
    · exact ⟨nodup_toHeldEnd h.1, fun j hj => by simp [mem_toHeldEnd, hj]⟩
    · exact ⟨h.1, fun j _ => Iff.rfl⟩
  · dsimp only
    split
    case isTrue hs => simp [mem_toHeldEnd, newStation, hs]
    case isFalse hs => simp [newStation, hs, hk h]

/-! ## Removal -/

/-- A record that has left the held order and stands as before otherwise, with every other: the start of a removal (R53). -/
structure Unlisted (L : List Nat) (k : Fin 256) (s u : State) : Prop extends Sane L L s u where
  held : u.table.held = fromHeld k s.table.held
  records : ∀ j, (u.station? j).map standing = (s.station? j).map standing

theorem unlist_sane {L : List Nat} (k : Fin 256) (s : State) :
    Sane L L s (onTable (fun t => { t with held := fromHeld k t.held }) s) :=
  .of (.refl L _) (.refl L _) (fun c => ⟨c.credit, c.surplus, c.budget, c.pendingBudget⟩)
    (fun c => ⟨fun j st hj => ⟨c.upward j st hj, fun w i => c.indices j st w i hj⟩, c.onboard⟩) rfl rfl

theorem beginRemoval_unlisted {L : List Nat} {k : Fin 256} {st : Station} {s : State} (why : Reason)
    (hst : s.station? k = some st) : Unlisted L k s (beginRemoval k st why s) := by
  have hpurged : Calm L L s (purgeEgress k st.origin (purgeUpward k s)) :=
    (purgeUpward_calm s k).trans (purgeEgress_calm _ k st.origin)
  have hunlisted : Unlisted L k s
      (onTable (fun t => { t with held := fromHeld k t.held }) (purgeEgress k st.origin (purgeUpward k s))) :=
    ⟨hpurged.toSane.trans (unlist_sane k _), congrArg (fromHeld k) hpurged.held, hpurged.records⟩
  unfold beginRemoval
  dsimp only
  split
  case h_1 w i ho =>
    split
    case isTrue =>
      have horder := sendOrder_calm (L := L) (w := w) (o := { kind := .drop, index := i })
        (onTable (fun t => { t with held := fromHeld k t.held }) (purgeEgress k st.origin (purgeUpward k s))) (fun c => by
          obtain ⟨st', hst', he⟩ := hpurged.station hst
          exact c.indices k st' w i hst' ((congrArg Standing.origin he).trans ho))
      exact ⟨hunlisted.toSane.trans horder.toSane, horder.held.trans hunlisted.held,
        fun j => (horder.records j).trans (hunlisted.records j)⟩
    case isFalse => exact hunlisted
  case h_2 => exact hunlisted

/-- A removal whose record ends LEAVING or gone keeps every invariant: the record is HELD no more, and the held order names
it no more. -/
theorem Unlisted.safe {L M : List Nat} {k : Fin 256} {s u t : State} (h : Unlisted L k s u) (sane : Sane L M u t)
    (held : t.table.held = u.table.held)
    (others : ∀ j, j ≠ k → (t.station? j).map standing = (u.station? j).map standing)
    (here : ∀ st', t.station? k = some st' →
      st'.isLeaving = true ∧ ∃ st, u.station? k = some st ∧ st'.addr = st.addr) : Safe L M s t := by
  have hback : ∀ {j st'}, j ≠ k → t.station? j = some st' → ∃ st, s.station? j = some st ∧ standing st' = standing st :=
    fun {j st'} hj hst' => by
      have hrec := (others j hj).trans (h.records j)
      rw [hst'] at hrec
      obtain ⟨st, hst, he⟩ := Option.map_eq_some_iff.mp hrec.symm
      exact ⟨st, hst, he.symm⟩
  refine ⟨h.toSane.trans sane, fun a j st' hj => ?_, fun a => ⟨?_, fun j => ?_⟩, fun a j st' hj => ?_⟩
  · by_cases hjk : j = k
    · subst hjk; exact AdmissionOk.ofLeaving (here st' hj).1
    · obtain ⟨st, hst, he⟩ := hback hjk hj
      exact AdmissionOk.congr he (a j st hst)
  · rw [held, h.held]
    exact nodup_fromHeld a.1
  · rw [held, h.held, mem_fromHeld]
    by_cases hjk : j = k
    · subst hjk
      refine ⟨fun hj => absurd rfl hj.2, fun ⟨st', hst', hs⟩ => ?_⟩
      have := (here st' hst').1
      simp [Station.isLeaving, hs] at this
    · rw [a.2 j]
      constructor
      · rintro ⟨⟨st, hst, hs⟩, -⟩
        have hrec := (others j hjk).trans (h.records j)
        rw [hst] at hrec
        obtain ⟨st', hst', he⟩ := Option.map_eq_some_iff.mp hrec
        exact ⟨st', hst', (congrArg Standing.state he).trans hs⟩
      · rintro ⟨st', hst', hs⟩
        obtain ⟨st, hst, he⟩ := hback hjk hst'
        exact ⟨⟨st, hst, (congrArg Standing.state he).symm.trans hs⟩, hjk⟩
  · by_cases hjk : j = k
    · subst hjk
      obtain ⟨-, u', hu, haddr⟩ := here st' hj
      have hrec := h.records j
      rw [hu] at hrec
      obtain ⟨st, hst, he⟩ := Option.map_eq_some_iff.mp hrec.symm
      have haddr' : u'.addr = st.addr := (congrArg Standing.addr he).symm
      have := a j st hst
      rwa [haddr, haddr']
    · obtain ⟨st, hst, he⟩ := hback hjk hj
      have haddr : st'.addr = st.addr := congrArg Standing.addr he
      exact haddr ▸ a j st hst

theorem emptySlot_station (k j : Fin 256) (s : State) :
    (emptySlot k s).station? j = if k = j then none else s.station? j := getElem_set_cases _ k j _

theorem emptySlot_change (k : Fin 256) (s : State) : SlotChange k s (emptySlot k s) none where
  slots := fun j => emptySlot_station k j s
  credit := by simp
  caps := by simp
  admission := by simp
  address := by simp
  others := fun h => ⟨nodup_fromHeld h.1, fun j hj => by simp [emptySlot, mem_fromHeld, hj]⟩
  held := fun h => by simp [emptySlot, mem_fromHeld]

theorem emptySlot_safe {L : List Nat} (k : Fin 256) (s : State) : Safe L L s (emptySlot k s) :=
  (emptySlot_change k s).safe ((disown_keeps k s.up.onboard _).frame L) (.refl L _) (fun c => ⟨c.surplus, rfl, rfl⟩)
    (fun c => c.onboard) rfl rfl

theorem releaseBody_length (k : Fin 256) (st : Station) : (releaseBody k st).length = 60 := by
  simp [releaseBody, addrBytes, beBytes_length, counter_block_length, allowanceBlock_length]

/-- The freeing of a record: calm until its slot is emptied (R56). -/
theorem freeRecord_empties {L : List Nat} {k : Fin 256} {st : Station} {s : State} (why : Reason)
    (hst : s.station? k = some st) : ∃ v, Calm L L s v ∧ freeRecord k why s = emptySlot k v := by
  have htold : Calm L L s (if why = .released then s
      else raiseNotice (.stationGone k st.cls st.origin st.addr why st.ctr st.allowance) s) := by
    split
    · exact .refl L s
    · exact raiseNotice_calm s _
  simp only [freeRecord, hst]
  split
  case h_1 => exact ⟨_, htold, rfl⟩
  case h_2 j _ =>
    exact ⟨_, htold.trans (fixReply_calm _ j false (.fixed (by rw [releaseBody_length]; omega))), rfl⟩

theorem freeRecord_safe {L : List Nat} (k : Fin 256) (why : Reason) (s : State) : Safe L L s (freeRecord k why s) := by
  cases hst : s.station? k with
  | none =>
    simp only [freeRecord, hst]
    exact .refl L s
  | some st =>
    obtain ⟨v, hcalm, he⟩ := freeRecord_empties why hst
    rw [he]
    exact hcalm.safe.trans (emptySlot_safe k v)

/-- A record that has left the held order is freed. -/
theorem Unlisted.empties {L M : List Nat} {k : Fin 256} {s u v : State} (h : Unlisted L k s u) (hv : Calm L M u v) :
    Safe L M s (emptySlot k v) := by
  refine h.safe (hv.toSane.trans (emptySlot_safe k v).toSane) ?_ (fun j hj => ?_) (fun st' hst' => ?_)
  · have hheld : (emptySlot k v).table.held = fromHeld k v.table.held := rfl
    rw [hheld, hv.held, h.held, fromHeld_fromHeld]
  · rw [emptySlot_station, if_neg (Ne.symm hj), hv.records]
  · rw [emptySlot_station, if_pos rfl] at hst'
    cases hst'

/-- A record that has left the held order is LEAVING. -/
theorem Unlisted.leaving {L : List Nat} {k : Fin 256} {s u : State} (h : Unlisted L k s u) (why : Reason) :
    Safe L L s (setStationState k (.leaving why) u) := by
  have hstation : ∀ j, (setStationState k (.leaving why) u).station? j =
      if k = j then (u.station? k).map (fun r => { r with state := .leaving why }) else u.station? j :=
    fun j => modStation_station u.table k j _
  refine h.safe ?_ rfl (fun j hj => ?_) (fun st' hst' => ?_)
  · exact modRecord_sane k u (fun st => ⟨rfl, rfl, rfl, le_rfl⟩)
  · rw [hstation, if_neg (Ne.symm hj)]
  · rw [hstation, if_pos rfl] at hst'
    obtain ⟨st, hst, rfl⟩ := Option.map_eq_some_iff.mp hst'
    exact ⟨rfl, st, hst, rfl⟩

end Sys2Proof.Laws
end

section
/-! SUPPORT. Removal, creation, bars, exhaustions and the allowance operations keep every invariant of the part. -/

namespace Sys2Proof.Laws

open Sys2Proof Sys2Proof.Machine Sys2Proof.Safety

/-! ## Removal -/

theorem setStationState_station (k j : Fin 256) (x : StationState) (s : State) : (setStationState k x s).station? j =
    if k = j then (s.station? k).map (fun r => { r with state := x }) else s.station? j :=
  modStation_station s.table k j _

theorem Unlisted.station {L : List Nat} {k : Fin 256} {s u : State} (h : Unlisted L k s u) {j : Fin 256} {st : Station}
    (hst : s.station? j = some st) : ∃ st', u.station? j = some st' ∧ standing st' = standing st := by
  have hrec := h.records j
  rw [hst] at hrec
  exact Option.map_eq_some_iff.mp hrec

theorem removeRecord_safe {L : List Nat} (k : Fin 256) (why : Reason) (s : State) : Safe L L s (removeRecord k why s) := by
  unfold removeRecord
  split
  case h_1 => exact .refl L s
  case h_2 st hst =>
    have hunlisted : Unlisted L k s (beginRemoval k st why s) := beginRemoval_unlisted why hst
    split
    · exact .refl L s
    · dsimp only
      split
      · exact hunlisted.leaving why
      · obtain ⟨st', hst', -⟩ := hunlisted.station hst
        obtain ⟨v, hv, he⟩ := freeRecord_empties (L := L) why hst'
        rw [he]
        exact hunlisted.empties hv

/-- A record that has been removed is gone or LEAVING (R52, R55). -/
theorem removeRecord_isLeaving {k : Fin 256} {why : Reason} {s : State} {st : Station}
    (h : (removeRecord k why s).station? k = some st) : st.isLeaving = true := by
  unfold removeRecord at h
  split at h
  case h_1 hnone => rw [hnone] at h; cases h
  case h_2 st0 hst =>
    have hunlisted : Unlisted [] k s (beginRemoval k st0 why s) := beginRemoval_unlisted why hst
    split at h
    case isTrue hleaving => exact Option.some.inj (hst.symm.trans h) ▸ hleaving
    case isFalse =>
      dsimp only at h
      split at h
      · rw [setStationState_station, if_pos rfl] at h
        obtain ⟨st', -, rfl⟩ := Option.map_eq_some_iff.mp h
        rfl
      · obtain ⟨st', hst', -⟩ := hunlisted.station hst
        obtain ⟨v, -, he⟩ := freeRecord_empties (L := []) why hst'
        rw [he, emptySlot_station, if_pos rfl] at h
        cases h

theorem removeRecords_safe {L : List Nat} (why : Reason) (ks : List (Fin 256)) (s : State) :
    Safe L L s (removeRecords why ks s) := Safe.foldl (fun s k => removeRecord_safe k why s) ks s

theorem freeIfLeaving_safe {L : List Nat} (k : Fin 256) (s : State) : Safe L L s (freeIfLeaving k s) := by
  unfold freeIfLeaving
  split
  · split
    · split
      · exact .refl L s
      · exact freeRecord_safe k _ s
    · exact .refl L s
  · exact .refl L s

theorem settleOwner_safe {L : List Nat} (k : Option (Fin 256)) (s : State) : Safe L L s (settleOwner k s) := by
  cases k with
  | none => exact .refl L s
  | some j => exact freeIfLeaving_safe j s

/-! ## Creation -/

theorem not_mem_held_of_absent {s : State} {k : Fin 256} (h : ∀ st, s.station? k = some st → st.isLeaving = true)
    (hh : HeldOrderOk s) : k ∉ s.table.held := fun hk => by
  obtain ⟨st, hst, hs⟩ := (hh.2 k).mp hk
  have := h st hst
  simp [Station.isLeaving, hs] at this

theorem station?_of_emptySlot {s : State} {k : Fin 256} (h : s.table.emptySlot? = some k) : s.station? k = none :=
  Option.isNone_iff_eq_none.mp
    (List.find?_some (p := fun k : Fin 256 => (s.table.slots[k]).isNone) (l := List.finRange 256) h)

/-- A creation, made or failed (R43). -/
theorem createRecord_safe {L : List Nat} {a : LinkAddr} {cls : StationClass} {x : StationState} {o : Origin} {s : State}
    (ha : isGroup a = false) (hx : x = .held ∨ x = .admitted) (ho : ∀ w i, o = .radio w i → i < 64) :
    Safe L L s (createRecord a cls x o s).2 := by
  unfold createRecord
  split
  case h_1 k hk =>
    exact fillSlot_safe ha hx ho
      (not_mem_held_of_absent (fun st hst => by rw [station?_of_emptySlot hk] at hst; cases hst))
  case h_2 =>
    split
    case h_1 k _ =>
      exact (removeRecord_safe k .evicted s).trans
        (fillSlot_safe ha hx ho (not_mem_held_of_absent (fun _ => removeRecord_isLeaving)))
    case h_2 => exact (failCreation_calm s a o).safe

/-! ## Bars -/

/-- A record that leaves the held order as its state changes to one that is not HELD. -/
theorem setAside_safe {L : List Nat} {k : Fin 256} {s : State} {g : Station → Station} {st : Station}
    (hst : s.station? k = some st) (hplace : KeepsPlace st (g st)) (hstate : (g st).state ≠ .held)
    (hadm : AllowancesOk s → AdmissionOk (g st)) :
    Safe L L s (onTable (fun t => { t.modStation k g with held := fromHeld k t.held }) s) := by
  have hchange : SlotChange k s (onTable (fun t => { t.modStation k g with held := fromHeld k t.held }) s) (some (g st)) :=
    .ofMod rfl hst hplace hadm
      (fun a => ⟨nodup_fromHeld a.1, fun j hj => mem_fromHeld.trans (and_iff_left hj)⟩)
      (fun _ => iff_of_false (fun h => (mem_fromHeld.mp h).2 rfl) hstate)
  exact hchange.safe_table rfl

/-- What is calm, and its change of the held order: the two in either order. -/
theorem Calm.unlist {L M : List Nat} {s t : State} (h : Calm L M s t) (k : Fin 256) :
    Calm L M (onTable (fun t => { t with held := fromHeld k t.held }) s)
      (onTable (fun t => { t with held := fromHeld k t.held }) t) := by
  refine ⟨⟨h.data, fun c => ?_, h.cells, fun c => ?_, h.pending, h.identity⟩, congrArg (fromHeld k) h.held, h.records⟩
  · have hc : CreditOk s := ⟨c.credit, c.surplus, c.lengths, c.budget, c.pendingBudget, c.storedBudget, c.slots⟩
    have ht := h.credit hc
    exact ⟨ht.credit, ht.surplus, ht.lengths, ht.budget, ht.pendingBudget, ht.storedBudget, ht.slots⟩
  · have hc : CapacitiesOk s := ⟨c.upward, c.seats, c.radios, c.orders, c.indices, c.onboard, c.transit, c.input,
      c.notices, c.retired⟩
    have ht := h.caps hc
    exact ⟨ht.upward, ht.seats, ht.radios, ht.orders, ht.indices, ht.onboard, ht.transit, ht.input, ht.notices, ht.retired⟩

theorem barRecord_safe {L : List Nat} {k : Fin 256} {st : Station} {before : Admission} {s : State}
    (hst : s.station? k = some st) (hb : st.state = before.state) : Safe L L s (barRecord k st before s) := by
  have hbarred : Safe L L s (onTable (fun t => { t with held := fromHeld k t.held }) (setStationState k (.barred before) s)) :=
    setAside_safe hst (g := fun r => { r with state := .barred before }) ⟨rfl, rfl, rfl, le_rfl⟩ (by simp) (fun a => by
      have := a k st hst
      cases before <;> simp_all [AdmissionOk, Paired, Admission.state])
  have hpurged : Calm L L (setStationState k (.barred before) s)
      (purgeEgress k st.origin (purgeUpward k (setStationState k (.barred before) s))) :=
    (purgeUpward_calm _ k).trans (purgeEgress_calm _ k st.origin)
  exact hbarred.trans (hpurged.unlist k).safe

theorem unbarRecord_safe {L : List Nat} {k : Fin 256} {st : Station} {before : Admission} {s : State}
    (hst : s.station? k = some st) (hb : st.state = .barred before) : Safe L L s (unbarRecord k before s) := by
  have hchange : SlotChange k s (unbarRecord k before s) (some { st with state := before.state }) := by
    refine SlotChange.ofMod (g := fun r => { r with state := before.state }) rfl hst ⟨rfl, rfl, rfl, le_rfl⟩ (fun a => ?_)
      (fun a => ?_) (fun a => ?_)
    · have := a k st hst
      cases before <;> simp_all [AdmissionOk, Paired, Admission.state]
    · simp only [unbarRecord, onTable]
      split
      · exact ⟨nodup_toHeldEnd a.1, fun j hj => by simp [mem_toHeldEnd, hj]⟩
      · exact ⟨a.1, fun j _ => Iff.rfl⟩
    · have hout : k ∉ s.table.held := fun h => by
        have := (HeldOrderOk.mem_iff a hst).mp h
        rw [hb] at this
        cases this
      simp only [unbarRecord, onTable]
      cases before <;> simp [Admission.state, mem_toHeldEnd, hout]
  exact hchange.safe_table rfl

/-! ## Admission -/

theorem readAdmit_current {r : Request} {b : AdmitBody} (h : readAdmit r = some b) {g : GivenAllowance}
    (hg : b.allowance = some g) : g.current ≠ 0 := by
  unfold readAdmit at h
  split at h
  · split at h
    · cases h
    case isFalse hbad =>
      cases h
      exact fun hzero => hbad (.inr ((congrArg (Option.map (·.current)) hg).trans (congrArg some hzero)))
  · cases h

theorem admitRecord_safe {L : List Nat} {k : Fin 256} {st : Station} {b : AdmitBody} {s : State} (pend : Bool)
    (hst : s.station? k = some st) (hb : ∀ g, b.allowance = some g → g.current ≠ 0) :
    Safe L L s (admitRecord k b pend s) :=
  setAside_safe hst (g := Station.admitWith b s.now pend) ⟨rfl, rfl, rfl, le_rfl⟩ (by simp [Station.admitWith])
    (fun _ => .ofAdmitted (.inl rfl) (fun al hal => by
      obtain ⟨g, hg, rfl⟩ := Option.map_eq_some_iff.mp hal
      exact Nat.pos_of_ne_zero (hb g hg)))

/-! ## Exhaustion -/

theorem spentBy_eq_held {x : StationState} : x.spentBy = .held ↔ x = .held := by
  unfold StationState.spentBy
  split <;> simp

/-- An exhaustion after the change `g` that has brought it: of a record that is ADMITTED, barred from ADMITTED, or LEAVING,
with its current 0 now. -/
theorem exhaust_safe {L : List Nat} {k : Fin 256} {s : State} {st : Station} {al : Allowance} {g : Station → Station}
    (cause : Cause) (n : Nat) (hst : s.station? k = some st) (hplace : KeepsPlace st (g st))
    (hstate : (g st).state = st.state) (hal : (g st).allowance = some al) (hzero : al.current = 0)
    (hadm : AllowancesOk s → st.state = .admitted ∨ st.state = .barred .admitted ∨ st.isLeaving = true) :
    Safe L L s (exhaust k cause n (onTable (StationTable.modStation k g) s)) := by
  have hst' : (onTable (StationTable.modStation k g) s).station? k = some (g st) := by
    have h := modStation_station s.table k k g
    rw [if_pos rfl, show s.table.station? k = some st from hst] at h
    exact h
  have hreach : ∀ {g' : Station → Station}, KeepsPlace st (g' st) → ((g' st).state = .held ↔ st.state = .held) →
      (AllowancesOk s → AdmissionOk (g' st)) → Safe L L s (onTable (StationTable.modStation k g') s) :=
    fun hp hh ha => modRecord_safe (fun st' h => by
      obtain rfl := Option.some.inj (hst.symm.trans h)
      exact ⟨hp, hh, ha⟩)
  simp only [exhaust, hst', hal]
  split
  case isTrue hrenews =>
    have hbase : 0 < al.base := by simpa [Allowance.renews] using (Bool.and_eq_true_iff.mp hrenews).2
    rw [onTable_modStation]
    refine Safe.trans (hreach (g' := fun r => { g r with allowance := some al.reload })
      ⟨hplace.addr, hplace.origin, hplace.credit, hplace.upq⟩ (by rw [hstate]) (fun a => ?_)) (raiseNotice_calm _ _).safe
    have hpos : ∀ al', some al.reload = some al' → 0 < al'.current := fun al' e => by cases e; exact hbase
    rcases hadm a with h | h | h
    · exact .ofAdmitted (.inl (hstate.trans h)) hpos
    · exact .ofAdmitted (.inr (hstate.trans h)) hpos
    · exact .ofLeaving (by simpa [Station.isLeaving, hstate] using h)
  case isFalse =>
    have hspent : Safe L L s (setStationState k (g st).state.spentBy (onTable (StationTable.modStation k g) s)) := by
      rw [setStationState_eq, onTable_modStation]
      refine hreach (g' := fun r => { g r with state := (g st).state.spentBy })
        ⟨hplace.addr, hplace.origin, hplace.credit, hplace.upq⟩ (by rw [spentBy_eq_held, hstate]) (fun a => ?_)
      rcases hadm a with h | h | h
      · exact .ofSpent (.inl (by simp [hstate, h, StationState.spentBy])) ⟨al, hal, hzero⟩
      · exact .ofSpent (.inr (by simp [hstate, h, StationState.spentBy])) ⟨al, hal, hzero⟩
      · refine .ofLeaving ?_
        unfold Station.isLeaving at h
        split at h
        case h_1 why hs => simp [Station.isLeaving, hstate, hs, StationState.spentBy]
        case h_2 => cases h
    refine Safe.trans (hspent.trans ?_) (raiseNotice_calm _ _).safe
    split
    · exact (purgeUpward_calm _ k).safe
    · exact .refl L _

/-- A charge (R98): of a paired record it brings current to 0 only where an exhaustion follows. -/
theorem charge_safe {L : List Nat} (k : Fin 256) (cause : Cause) (n : Nat) (s : State) :
    Safe L L s (charge k cause n s) := by
  unfold charge
  split
  case h_1 => exact .refl L s
  case h_2 st hst =>
    split
    case h_1 => exact .refl L s
    case h_2 al hal =>
      dsimp only
      split
      case isTrue hex =>
        obtain ⟨hpos, hle⟩ := exhaustedBy_iff.mp hex
        refine exhaust_safe (al := al.charge n) cause n hst ⟨rfl, rfl, rfl, le_rfl⟩ rfl rfl
          (by rw [allowance_charge_of_le hle]) (fun a => ?_)
        obtain ⟨⟨-, hspent⟩, hheld⟩ := a k st hst
        have hnot : ∀ al', st.allowance = some al' → al'.current ≠ 0 := fun al' e => by
          rw [hal] at e; cases e; omega
        match hs : st.state with
        | .held => simp [hheld (.inl hs)] at hal
        | .barred .held => simp [hheld (.inr hs)] at hal
        | .spent => obtain ⟨al', e, hz⟩ := hspent (.inl hs); exact absurd hz (hnot al' e)
        | .barred .spent => obtain ⟨al', e, hz⟩ := hspent (.inr hs); exact absurd hz (hnot al' e)
        | .admitted => exact .inl rfl
        | .barred .admitted => exact .inr (.inl rfl)
        | .leaving _ => exact .inr (.inr (by simp [Station.isLeaving, hs]))
      case isFalse hex =>
        refine modRecord_safe (fun st' h => ?_)
        obtain rfl := Option.some.inj (hst.symm.trans h)
        refine ⟨⟨rfl, rfl, rfl, le_rfl⟩, Iff.rfl, fun a => ?_⟩
        obtain ⟨⟨hadm, hspent⟩, hheld⟩ := a k st hst
        have hcurrent : (al.charge n).current = 0 ↔ al.current = 0 := by
          rcases Nat.lt_or_ge n al.current with h | h
          · rw [allowance_charge_of_lt h]; exact iff_of_false (by simp only; omega) (by omega)
          · have : ¬ (0 < al.current ∧ al.current ≤ n) := fun h => hex (exhaustedBy_iff.mpr h)
            rw [allowance_charge_of_le h]; exact iff_of_true rfl (by omega)
        refine ⟨⟨fun h al' e => ?_, fun h => ⟨al.charge n, rfl, ?_⟩⟩, fun h => ?_⟩
        · cases e
          have := hadm h al hal
          omega
        · obtain ⟨al', e, hz⟩ := hspent h
          rw [hal] at e; cases e
          exact hcurrent.mpr hz
        · simp [hheld h] at hal

/-! ## Allowances set and renewed -/

theorem restored_eq_held {x : StationState} : x.restored = .held ↔ x = .held := by
  unfold StationState.restored
  split <;> simp

/-- A record whose spent state is restored is paired where its allowance, if it has one, has current above 0 (R105). -/
theorem AdmissionOk.ofRestored {st st' : Station} (hs : st'.state = st.state.restored) (hn : st.state.neverAdmitted = false)
    (ha : ∀ al, st'.allowance = some al → 0 < al.current) : AdmissionOk st' := by
  match h : st.state with
  | .held => simp [h, StationState.neverAdmitted] at hn
  | .barred .held => simp [h, StationState.neverAdmitted] at hn
  | .spent => exact .ofAdmitted (.inl (by rw [hs, h]; rfl)) ha
  | .barred .spent => exact .ofAdmitted (.inr (by rw [hs, h]; rfl)) ha
  | .admitted => exact .ofAdmitted (.inl (by rw [hs, h]; rfl)) ha
  | .barred .admitted => exact .ofAdmitted (.inr (by rw [hs, h]; rfl)) ha
  | .leaving _ => exact .ofLeaving (by rw [Station.isLeaving, hs, h]; rfl)

theorem storeAllowance_safe {L : List Nat} {k : Fin 256} {st : Station} (g : Option GivenAllowance) {s : State}
    (hst : s.station? k = some st) (hn : st.state.neverAdmitted = false) :
    Safe L L s (storeAllowance k st g s) := by
  unfold storeAllowance
  dsimp only
  split
  case isTrue h =>
    obtain ⟨hz, hactive⟩ := h
    obtain ⟨ga, rfl, hzero⟩ := Option.map_eq_some_iff.mp hz
    refine exhaust_safe (al := ga.over st.allowance) _ 0 hst ⟨rfl, rfl, rfl, le_rfl⟩ (by simp [Station.withAllowance, hzero])
      rfl hzero (fun _ => ?_)
    match hs : st.state with
    | .admitted => exact .inl rfl
    | .barred .admitted => exact .inr (.inl rfl)
    | .held | .spent | .leaving _ | .barred .held | .barred .spent => simp [hs, StationState.active] at hactive
  case isFalse h =>
    refine modRecord_safe (fun st' h' => ?_)
    obtain rfl := Option.some.inj (hst.symm.trans h')
    refine ⟨⟨rfl, rfl, rfl, le_rfl⟩, ?_, fun _ => ?_⟩
    · simp only [Station.withAllowance]
      split
      · exact Iff.rfl
      · exact restored_eq_held
    · by_cases hz : g.map (·.current) = some 0
      · obtain ⟨ga, rfl, hzero⟩ := Option.map_eq_some_iff.mp hz
        have hactive : ¬ st.state.active = true := fun ha => h ⟨hz, ha⟩
        have hstate : (Station.withAllowance (some ga) st).state = st.state := by simp [Station.withAllowance, hzero]
        match hs : st.state with
        | .held | .barred .held => simp [hs, StationState.neverAdmitted] at hn
        | .admitted | .barred .admitted => simp [hs, StationState.active] at hactive
        | .spent => exact .ofSpent (.inl (hstate.trans hs)) ⟨_, rfl, hzero⟩
        | .barred .spent => exact .ofSpent (.inr (hstate.trans hs)) ⟨_, rfl, hzero⟩
        | .leaving _ => exact .ofLeaving (by rw [Station.isLeaving, hstate, hs])
      · refine .ofRestored (by simp only [Station.withAllowance, if_neg hz]) hn (fun al hal => ?_)
        obtain ⟨ga, rfl, rfl⟩ := Option.map_eq_some_iff.mp hal
        exact Nat.pos_of_ne_zero (fun hzero => hz (by rw [Option.map_some]; exact congrArg some hzero))

/-- A renewal of a record that has an allowance to reload (R106). -/
theorem renewed_admissionOk {st : Station} (hr : st.reloadable = true) (h : AdmissionOk st) : AdmissionOk st.renewed := by
  unfold Station.reloadable at hr
  split at hr
  case h_1 al hal =>
    refine .ofRestored (st := st) rfl ?_ (fun al' e => ?_)
    · match hs : st.state with
      | .held => simp [h.2 (.inl hs)] at hal
      | .barred .held => simp [h.2 (.inr hs)] at hal
      | .spent | .admitted | .leaving _ | .barred .admitted | .barred .spent => rfl
    · simp only [Station.renewed, hal, Option.map_some, Option.some.injEq] at e
      subst e
      simpa [Allowance.reload] using hr
  case h_2 => cases hr

theorem renewRecord_safe {L : List Nat} {k : Fin 256} {st : Station} {s : State} (hst : s.station? k = some st)
    (hr : st.reloadable = true) : Safe L L s (onTable (StationTable.modStation k Station.renewed) s) :=
  modRecord_safe (fun st' h => by
    obtain rfl := Option.some.inj (hst.symm.trans h)
    exact ⟨⟨rfl, rfl, rfl, le_rfl⟩, restored_eq_held, fun a => renewed_admissionOk hr (a k st hst)⟩)

end Sys2Proof.Laws
end

section
/-! SUPPORT. What changes the whole table at once keeps the invariants: RENEW of all, a boundary, a stop; with the
arithmetic of the shares (R119 to R123). -/

namespace Sys2Proof.Laws

open Sys2Proof Sys2Proof.Machine Sys2Proof.Safety

/-! ## A change of every record -/

/-- A change `g` of every record that leaves addresses, origins and queues, keeps HELD as it is and keeps records paired. -/
structure Recasts (g : Station → Station) : Prop where
  addr : ∀ st, (g st).addr = st.addr
  origin : ∀ st, (g st).origin = st.origin
  upq : ∀ st, (g st).upq = st.upq
  held : ∀ st, (g st).state = .held ↔ st.state = .held
  admission : ∀ st, AdmissionOk st → AdmissionOk (g st)

theorem mapSlots_safe {L : List Nat} {s t : State} {g : Station → Station} (hg : Recasts g)
    (slots : ∀ k, t.station? k = (s.station? k).map g) (held : t.table.held = s.table.held) (hub : t.hub = s.hub)
    (ports : t.ports = s.ports) (onboard : t.up.onboard = s.up.onboard) (pending : t.pending = s.pending)
    (identity : t.identity = s.identity)
    (credit : CreditOk s → (∀ k st, s.station? k = some st → InCreditRange (g st).credit) ∧
      InCreditRange t.sched.surplus ∧ BudgetOk t.sched.params ∧ ∀ q, t.sched.pendingParams = some q → BudgetOk q) :
    Safe L L s t := by
  have hback : ∀ {k st'}, t.station? k = some st' → ∃ st, s.station? k = some st ∧ g st = st' := fun {k st'} h => by
    rw [slots] at h
    exact Option.map_eq_some_iff.mp h
  refine ⟨.of (by rw [hub]; exact .refl L _) (by rw [ports]; exact .refl L _) (fun c => ?_) (fun c => ?_) pending identity,
    fun a k st' h => ?_, fun a => ⟨held ▸ a.1, fun k => ?_⟩, fun a k st' h => ?_⟩
  · obtain ⟨hcredit, hrest⟩ := credit c
    refine ⟨fun k st' h => ?_, hrest⟩
    obtain ⟨st, hst, rfl⟩ := hback h
    exact hcredit k st hst
  · refine ⟨fun k st' h => ?_, onboard ▸ c.onboard⟩
    obtain ⟨st, hst, rfl⟩ := hback h
    exact ⟨hg.upq st ▸ c.upward k st hst, fun w i ho => c.indices k st w i hst (hg.origin st ▸ ho)⟩
  · obtain ⟨st, hst, rfl⟩ := hback h
    exact hg.admission st (a k st hst)
  · rw [held, a.2 k, slots]
    constructor
    · rintro ⟨st, hst, hs⟩
      exact ⟨g st, by rw [hst]; rfl, (hg.held st).mpr hs⟩
    · rintro ⟨st', h, hs⟩
      obtain ⟨st, hst, rfl⟩ := Option.map_eq_some_iff.mp h
      exact ⟨st, hst, (hg.held st).mp hs⟩
  · obtain ⟨st, hst, rfl⟩ := hback h
    rw [hg.addr]
    exact a k st hst

theorem station?_mapSlots (t : StationTable) (g : Station → Station) (k : Fin 256) :
    ({ t with slots := t.slots.map (fun o => o.map g) } : StationTable).station? k = (t.station? k).map g := by
  simp [StationTable.station?]

/-! ## RENEW of all -/

theorem renewTable_safe {L : List Nat} (s : State) : Safe L L s (renewTable s) := by
  have hrecasts : Recasts (fun st => if st.renewedByAll then st.renewed else st) :=
    ⟨fun st => by split <;> rfl, fun st => by split <;> rfl, fun st => by split <;> rfl,
      fun st => by
        split
        · exact restored_eq_held
        · exact Iff.rfl,
      fun st h => by
        split
        case isTrue hr => exact renewed_admissionOk (Bool.and_eq_true_iff.mp hr).2 h
        case isFalse => exact h⟩
  refine mapSlots_safe hrecasts (fun k => station?_mapSlots s.table _ k) rfl rfl rfl rfl rfl rfl
    (fun c => ⟨fun k st hst => ?_, c.surplus, c.budget, c.pendingBudget⟩)
  split
  · exact c.credit k st hst
  · exact c.credit k st hst

/-! ## Shaping -/

theorem withShaping_calm {L : List Nat} (k : Fin 256) (sh : Shaping) (pend : Bool) (s : State) :
    Calm L L s (onTable (StationTable.modStation k (Station.withShaping sh pend)) s) :=
  .ofTable (modStation_keeps s.table k (fun _ => ⟨rfl, rfl, le_rfl⟩))

/-! ## Shares and credit -/

theorem shareAt_le (q : Params) (number : Count32) (total : Nat) (st : Station) :
    st.shareAt q number total ≤ q.budget * slotWeight q number (some st) / total := by
  unfold Station.shareAt
  split
  case isTrue h =>
    simp only [slotWeight, if_pos h, Station.activeShare]
    cases st.shaping.cap with
    | none => exact Nat.le_refl _
    | some c => exact Nat.min_le_left _ _
  case isFalse => exact Nat.zero_le _

theorem slotShare_le (q : Params) (number : Count32) (total : Nat) (o : Option Station) :
    slotShare q number total o ≤ q.budget * slotWeight q number o / total := by
  cases o with
  | none => exact Nat.zero_le _
  | some st => exact shareAt_le q number total st

theorem sum_slotShare_le (q : Params) (number : Count32) (total : Nat) (slots : List (Option Station)) :
    (slots.map (slotShare q number total)).sum ≤ q.budget * (slots.map (slotWeight q number)).sum / total := by
  induction slots with
  | nil => exact Nat.zero_le _
  | cons o slots ih =>
    simp only [List.map_cons, List.sum_cons, Nat.mul_add]
    exact (Nat.add_le_add (slotShare_le q number total o) ih).trans Nat.div_add_div_le_add_div

/-- The shares of a boundary sum to at most B (R121). -/
theorem totalShares_le (q : Params) (number : Count32) (slots : Vector (Option Station) 256) :
    totalShares q number (totalWeight q number slots) slots ≤ q.budget := by
  refine (sum_slotShare_le q number (totalWeight q number slots) slots.toList).trans ?_
  rcases Nat.eq_zero_or_pos (totalWeight q number slots) with h | h
  · rw [h, Nat.div_zero]
    exact Nat.zero_le _
  · exact (Nat.mul_div_cancel _ h).le

theorem shareAt_le_totalShares {q : Params} {number : Count32} {total : Nat} {slots : Vector (Option Station) 256}
    {k : Fin 256} {st : Station} (h : slots[k] = some st) : st.shareAt q number total ≤ totalShares q number total slots := by
  refine List.single_le_sum (fun _ _ => Nat.zero_le _) _ (List.mem_map.mpr ⟨some st, ?_, rfl⟩)
  rw [← h]
  exact Vector.mem_toList_iff.mpr (Vector.getElem_mem k.isLt)

theorem creditAfter_inRange {share : Nat} {old : Int} (hs : share ≤ 16777215) (ho : InCreditRange old) :
    InCreditRange (creditAfter share old) := by
  obtain ⟨hlow, -⟩ := ho
  unfold creditAfter InCreditRange
  split <;> omega

/-! ## The boundary and the stop -/

theorem shapeAtBoundary_eq (st : Station) : st.shapeAtBoundary = st ∨ st.shapeAtBoundary = st.shapeNow := by
  unfold Station.shapeAtBoundary
  split
  · exact .inl rfl
  · exact .inr rfl

theorem shapeAtBoundary_standing (st : Station) : standing st.shapeAtBoundary = standing st ∧
    st.shapeAtBoundary.credit = st.credit ∧ st.shapeAtBoundary.upq = st.upq := by
  rcases shapeAtBoundary_eq st with h | h <;> rw [h] <;> exact ⟨rfl, rfl, rfl⟩

theorem Recasts.ofStanding {g : Station → Station} (standing : ∀ st, standing (g st) = standing st)
    (upq : ∀ st, (g st).upq = st.upq) : Recasts g :=
  ⟨fun st => congrArg Standing.addr (standing st), fun st => congrArg Standing.origin (standing st), upq,
    fun st => by rw [show (g st).state = st.state from congrArg Standing.state (standing st)],
    fun st => AdmissionOk.congr (standing st)⟩

theorem getD_budgetOk {s : State} (c : CreditOk s) : BudgetOk (s.sched.pendingParams.getD s.sched.params) := by
  cases hp : s.sched.pendingParams with
  | none => exact c.budget
  | some q => exact c.pendingBudget q hp

theorem computeBoundary_safe {L : List Nat} (advance : Bool) (s : State) : Safe L L s (computeBoundary advance s) := by
  let q := s.sched.pendingParams.getD s.sched.params
  let shaped := s.table.slots.map (fun o => o.map Station.shapeAtBoundary)
  let total := totalWeight q s.sched.number shaped
  refine mapSlots_safe (g := fun st => st.shapeAtBoundary.atBoundary q s.sched.number total)
    (.ofStanding (fun st => (shapeAtBoundary_standing st).1) (fun st => (shapeAtBoundary_standing st).2.2))
    (fun k => ?_) rfl rfl rfl rfl rfl rfl (fun c => ?_)
  · simp [computeBoundary, State.station?, StationTable.station?, q, total, shaped, Function.comp_def]
  · have hq : BudgetOk q := getD_budgetOk c
    have hsum : totalShares q s.sched.number total shaped ≤ q.budget := totalShares_le q s.sched.number shaped
    refine ⟨fun k st hst => ?_, ?_, hq, fun _ h => by cases h⟩
    · have hshaped : shaped[k] = some st.shapeAtBoundary := by
        simp only [shaped, Fin.getElem_fin, Vector.getElem_map]
        exact congrArg (Option.map Station.shapeAtBoundary) hst
      have hshare : st.shapeAtBoundary.shareAt q s.sched.number total ≤ 16777215 :=
        ((shareAt_le_totalShares hshaped).trans hsum).trans hq
      have hold : InCreditRange st.shapeAtBoundary.credit := (shapeAtBoundary_standing st).2.1 ▸ c.credit k st hst
      simp only [Station.atBoundary]
      split
      · exact creditAfter_inRange hshare hold
      · exact hold
    · have hb : q.budget ≤ 16777215 := hq
      change InCreditRange ((q.budget : Int) - totalShares q s.sched.number total shaped)
      unfold InCreditRange
      omega

theorem boundary_safe {L : List Nat} (advance : Bool) (s : State) : Safe L L s (boundary advance s) :=
  (computeBoundary_safe advance s).trans (takeParkedSnapshot_calm _).safe

theorem computeStop_safe {L : List Nat} (s : State) : Safe L L s (computeStop s) := by
  refine mapSlots_safe (g := Station.atStop) (.ofStanding (fun _ => rfl) (fun _ => rfl))
    (fun k => station?_mapSlots s.table _ k) rfl rfl rfl rfl rfl rfl (fun c => ⟨fun _ _ _ => ?_, ?_, getD_budgetOk c, ?_⟩)
  · simp [Station.atStop, InCreditRange]
  · simp [computeStop, InCreditRange]
  · rintro _ ⟨⟩

theorem stopScheduler_safe {L : List Nat} (s : State) : Safe L L s (stopScheduler s) :=
  (computeStop_safe s).trans (takeParkedSnapshot_calm _).safe

theorem startScheduler_safe {L : List Nat} (s : State) : Safe L L s (startScheduler s) := by
  have hrunning : Calm L L s { s with sched := { s.sched with running := true } } :=
    .ofRest rfl rfl rfl rfl ⟨rfl, rfl, rfl⟩ rfl rfl
  exact hrunning.safe.trans (boundary_safe false _)

theorem expireEpoch_safe {L : List Nat} (s : State) : Safe L L s (expireEpoch s) :=
  (elapse_calm s _).safe.trans (boundary_safe true _)

theorem readParams_budgetOk (r : Request) : BudgetOk (readParams r) := min_le_right _ _

theorem storeParams_safe {L : List Nat} {q : Params} (hq : BudgetOk q) (s : State) : Safe L L s (storeParams q s) := by
  refine mapSlots_safe (g := id) (.ofStanding (fun _ => rfl) (fun _ => rfl)) (fun k => Option.map_id'.symm ▸ rfl) rfl rfl rfl
    rfl rfl rfl (fun c => ⟨c.credit, ?_⟩)
  unfold storeParams
  dsimp only
  split
  · exact ⟨c.surplus, c.budget, fun q' e => Option.some.inj e ▸ hq⟩
  · exact ⟨c.surplus, hq, c.pendingBudget⟩

end Sys2Proof.Laws
end

section
/-! SUPPORT. The intake decisions and the sorting of received frames keep every invariant of the part: a frame enters a
queue only where that queue has room, and a record is made only of an address that is no group address. -/

namespace Sys2Proof.Laws

open Sys2Proof Sys2Proof.Machine Sys2Proof.Safety

/-! ## A change of one record that leaves its standing -/

theorem SlotChange.ofStanding {k : Fin 256} {s t : State} {g : Station → Station} {st : Station}
    (slots : t.table.slots = (s.table.modStation k g).slots) (held : t.table.held = s.table.held)
    (hst : s.station? k = some st) (hg : standing (g st) = standing st)
    (credit : CreditOk s → InCreditRange (g st).credit) (upq : CapacitiesOk s → (g st).upq.length ≤ 24) :
    SlotChange k s t (some (g st)) := by
  have hstate : (g st).state = st.state := congrArg Standing.state hg
  have horigin : (g st).origin = st.origin := congrArg Standing.origin hg
  have haddr : (g st).addr = st.addr := congrArg Standing.addr hg
  refine ⟨fun j => ?_, fun c st' e => ?_, fun c st' e => ?_, fun a st' e => ?_, fun a st' e => ?_, fun a => ?_, fun a => ?_⟩
  · have h := modStation_station s.table k j g
    rw [show s.table.station? k = some st from hst] at h
    simp only [State.station?, StationTable.station?, slots] at h ⊢
    exact h
  · exact Option.some.inj e ▸ credit c
  · exact Option.some.inj e ▸ ⟨upq c, fun w i ho => c.indices k st w i hst (horigin ▸ ho)⟩
  · exact Option.some.inj e ▸ AdmissionOk.congr hg (a k st hst)
  · exact Option.some.inj e ▸ haddr ▸ a k st hst
  · rw [held]
    exact ⟨a.1, fun j _ => Iff.rfl⟩
  · rw [held, HeldOrderOk.mem_iff a hst]
    exact ⟨fun h => ⟨_, rfl, hstate.trans h⟩, fun ⟨st', e, h⟩ => by rw [← Option.some.inj e] at h; exact hstate ▸ h⟩

/-! ## Upward intake -/

/-- A list of checks finds nothing where its first does not and the rest find nothing. -/
theorem check_eq_none {α : Type} {c : Prop} [Decidable c] {a : α} {x : Option α} :
    (if c then some a else x) = none ↔ ¬ c ∧ x = none := by
  split <;> simp_all

theorem length_snoc_le {α : Type} {l : List α} {a : α} {n : Nat} (h : l.length < n) : (l ++ [a]).length ≤ n := by
  simpa using h

/-- A frame that passes the upward checks finds room in the queue that R133 gives. -/
theorem upwardDiscard_room {s : State} {st : Station} {r : Classified} (h : upwardDiscard s st r = none) :
    if usesOwnQueue st r.metered then st.upq.length < 24 else s.up.onboard.length < 128 := by
  simp only [upwardDiscard, check_eq_none] at h
  obtain ⟨-, -, -, -, h⟩ := h
  split at h
  case isTrue hown => rw [if_pos hown]; simpa using h
  case isFalse hown => rw [if_neg hown]; simpa using h

theorem enterUpward_safe {L : List Nat} {k : Fin 256} {st : Station} (id n : Nat) {metered : Bool} {s : State}
    (hst : s.station? k = some st)
    (hroom : if usesOwnQueue st metered then st.upq.length < 24 else s.up.onboard.length < 128) :
    Safe L L s (enterUpward k st id n metered s) := by
  have hchange : SlotChange k s (enterUpward k st id n metered s) (some { st with
      ctr := st.ctr.countUp n metered, upq := if usesOwnQueue st metered then st.upq ++ [id] else st.upq }) := by
    refine .ofStanding (g := fun r => { r with
      ctr := r.ctr.countUp n metered, upq := if usesOwnQueue st metered then r.upq ++ [id] else r.upq }) rfl rfl hst rfl
      (fun c => c.credit k st hst) (fun c => ?_)
    have := c.upward k st hst
    split at hroom
    case isTrue h => simp only [if_pos h]; exact length_snoc_le hroom
    case isFalse h => simp only [if_neg h]; exact this
  refine hchange.safe ((placeFrame_keeps id (some k) metered s.hub).frame L) (.refl L _) (fun c => ⟨c.surplus, rfl, rfl⟩)
    (fun c => ?_) rfl rfl
  have := c.onboard
  simp only [enterUpward]
  split at hroom
  case isTrue h => simp only [if_pos h]; exact this
  case isFalse h => simp only [if_neg h]; exact length_snoc_le hroom

theorem upwardIntake_safe {L : List Nat} (k : Fin 256) (p : Port) (id n : Nat) (addr : Option NetAddr) (s : State) :
    Safe L L s (upwardIntake k p id n addr s) := by
  unfold upwardIntake
  split
  case h_1 => exact .refl L s
  case h_2 st hst =>
    split
    case h_1 => exact (discardFrame_calm s _ _ _ _ _).safe
    case h_2 =>
      dsimp only
      have hcount := (countClassified_calm (L := L) s true (classify s.windows st true addr)).safe
      split
      case h_1 => exact hcount.trans (discardFrame_calm _ _ _ _ _ _).safe
      case h_2 hnone => exact hcount.trans (enterUpward_safe id n hst (upwardDiscard_room hnone))

/-! ## Transit and the input queue -/

theorem enterTransit_calm {L : List Nat} {y : End} (id : Nat) {s : State} (h : (s.ports.endOf y).transit.length < 128) :
    Calm L L s (enterTransit y id s) := by
  have hends : PortsKeep [] [] s.ports (s.ports.modEnd y (fun e => { e with transit := e.transit ++ [id] })) :=
    modEnd_keeps rfl (fun _ => length_snoc_le h)
  have hjoins : Calm L L s { s with
      hub := s.hub.addRef id
      ports := s.ports.modEnd y (fun e => { e with transit := e.transit ++ [id] }) } :=
    .of ((addRef_keeps id s.hub).frame L) (hends.frame L) (.refl _) le_rfl
      ⟨rfl, rfl, rfl⟩ rfl rfl
  exact hjoins.trans (afterEnqueue_calm _ y)

theorem transitRefusal_room {s : State} {y : End} (h : transitRefusal s y = none) :
    (s.ports.endOf y).transit.length < 128 := by
  simp only [transitRefusal, check_eq_none] at h
  simpa using h.2.2

theorem transitUnicast_calm {L : List Nat} (x : End) (id : Nat) (s : State) : Calm L L s (transitUnicast x id s) := by
  unfold transitUnicast
  split
  case h_1 => exact discardFrame_calm s _ _ _ _ _
  case h_2 h => exact enterTransit_calm id (transitRefusal_room h)

theorem transitCopy_calm {L : List Nat} (x : End) (id : Nat) (s : State) : Calm L L s (transitCopy x id s) := by
  unfold transitCopy
  split
  case h_1 => exact copyNotMade_calm s _ _
  case h_2 h => exact enterTransit_calm id (transitRefusal_room h)

theorem enterInput_calm {L : List Nat} (id : Nat) (level : Level) (p : Port) {s : State}
    (h : s.hub.mgmt.input.length < 4) : Calm L L s (enterInput id level p s) := by
  have hjoins : HubKeeps [] [] (s.hub.addRef id) (enterInput id level p s).hub :=
    ⟨fun d => d, fun _ c => c, fun f => ⟨f.lengths, f.stored, f.slots⟩, fun _ => length_snoc_le h, fun n => n, fun r => r⟩
  exact .ofHub (((addRef_keeps id s.hub).trans hjoins).frame L)

theorem offerUnicast_calm {L : List Nat} (id : Nat) (level : Level) (p : Port) (s : State) :
    Calm L L s (offerUnicast id level p s) := by
  unfold offerUnicast
  split
  case isTrue h => exact enterInput_calm id level p h
  case isFalse => exact (inputOverflow_calm s).trans (freeIfUnplaced_calm _ p id)

theorem offerBroadcast_calm {L : List Nat} (id : Nat) (x : End) (s : State) : Calm L L s (offerBroadcast id x s) := by
  refine Calm.trans ?_ ((transitCopy_calm x id _).trans (freeIfUnplaced_calm _ _ id))
  split
  case isTrue h => exact enterInput_calm id _ _ h
  case isFalse => exact inputOverflow_calm s

/-! ## Downward -/

theorem enterEgress_keeps {s : State} {o : Origin} (id : Nat) (h : egressLength s o < 64) :
    PortsKeep [] [] s.ports (s.ports.enterEgress o id) := by
  cases o with
  | seat n =>
    exact modSeat_keeps (g := fun q => { q with egress := q.egress ++ [id] }) rfl (fun _ => length_snoc_le h)
  | radio w i =>
    exact modRadio_keeps (g := fun q => { q with egress := q.egress ++ [{ id := id, index := i }] }) rfl
      (fun _ => length_snoc_le h) (fun f => f)

theorem downwardDiscard_room {s : State} {st : Station} {r : Classified} (h : downwardDiscard s st r = none) :
    egressLength s st.origin < 64 := by
  simp only [downwardDiscard, check_eq_none] at h
  obtain ⟨-, -, -, h, -⟩ := h
  exact Nat.lt_of_not_le h

theorem enterDownward_calm {L : List Nat} (k : Fin 256) {o : Origin} (id n : Nat) (metered : Bool) {s : State}
    (h : egressLength s o < 64) : Calm L L s (enterDownward k o id n metered s) :=
  .of ((placeFrame_keeps id (some k) metered s.hub).frame L) ((enterEgress_keeps id h).frame L)
    (modStation_keeps s.table k (g := fun r => { r with ctr := r.ctr.countDown n metered }) (fun _ => ⟨rfl, rfl, le_rfl⟩))
    le_rfl ⟨rfl, rfl, rfl⟩ rfl rfl

theorem downward_safe {L : List Nat} (k : Fin 256) (x : End) (id n : Nat) (addr : Option NetAddr) (s : State) :
    Safe L L s (downward k x id n addr s) := by
  unfold downward
  split
  case h_1 => exact .refl L s
  case h_2 st hst =>
    dsimp only
    split
    case h_1 => exact (discardFrame_calm s _ _ _ _ _).safe
    case h_2 => exact (discardFrame_calm s _ _ _ _ _).safe
    case h_3 =>
      have hcount := countClassified_calm (L := L) s false (classify s.windows st false addr)
      split
      case h_1 => exact (hcount.trans (discardFrame_calm _ _ _ _ _ _)).safe
      case h_2 hnone =>
        have henter := (hcount.trans (enterDownward_calm k id n (classify s.windows st false addr).metered
          (downwardDiscard_room hnone))).safe
        split
        · exact henter.trans (charge_safe k _ n _)
        · exact henter

theorem localCopy_calm {L : List Nat} (o : Origin) (id : Nat) (s : State) : Calm L L s (localCopy o id s) := by
  unfold localCopy
  split
  case isTrue => exact copyNotMade_calm s _ _
  case isFalse h =>
    exact .of ((addRef_keeps id s.hub).frame L) ((enterEgress_keeps id (Nat.lt_of_not_le h)).frame L) (.refl _) le_rfl
      ⟨rfl, rfl, rfl⟩ rfl rfl

theorem multiDeliver_calm {L : List Nat} (x : End) (id : Nat) (s : State) : Calm L L s (multiDeliver x id s) := by
  refine Calm.trans (Calm.foldl (fun s n => ?_) _ s) (Calm.trans (Calm.foldl (fun s w => ?_) _ _)
    ((transitCopy_calm x id _).trans (freeIfUnplaced_calm _ _ id)))
  · split
    · exact localCopy_calm _ id s
    · exact .refl L s
  · split
    · exact localCopy_calm _ id s
    · exact .refl L s

end Sys2Proof.Laws
end

section
/-! SUPPORT. Reception keeps every invariant of the part: the cells that a reception takes are its chain (R22), and a frame
that is stored brings them into its own (R24). -/

namespace Sys2Proof.Laws

open Sys2Proof Sys2Proof.Machine Sys2Proof.Safety

/-! ## Taking cells -/

theorem setRx_calm (p : Port) (r : Reception) (s : State) :
    Calm r.chain (s.ports.unitOf p).rx.chain s (setRx p r s) :=
  .ofPorts (modUnit_moves s.ports p (fun u => { u with rx := r }))

theorem rx_setRx (p : Port) (r : Reception) (s : State) : ((setRx p r s).ports.unitOf p).rx = r :=
  congrArg PortUnit.rx (unitOf_modUnit_self s.ports p _)

theorem rx_count (ps : Ports) (p : Port) (g : PortCounters → PortCounters) :
    ((ps.count p g).unitOf p).rx = (ps.unitOf p).rx := by
  rw [unitOf_count, if_pos rfl]

/-- A byte that needs a cell: the cell joins the chain in reception, or the chain goes back (R22). -/
theorem needCell_calm {p : Port} {chain : List Nat} {s : State} (hchain : (s.ports.unitOf p).rx.chain = chain) :
    Calm [] [] s (needCell p chain s) := by
  unfold needCell
  split
  case h_1 =>
    have hcounted : Calm [] [] s (rxDiscard p (tally .noCells s)) := (tally_calm s _).trans (rxDiscard_calm _ p)
    have hrx : ((rxDiscard p (tally .noCells s)).ports.unitOf p).rx.chain = chain := by
      rw [← hchain]
      exact congrArg Reception.chain (rx_count s.ports p _)
    have hlost := setRx_calm p .dropping (rxDiscard p (tally .noCells s))
    rw [hrx] at hlost
    exact hcounted.trans (hlost.trans (giveBackCells_calm _ chain))
  case h_2 x c hpop =>
    have hhub : HubKeeps [] [x] s.hub
        (Hub.noteEntered s.sender c.testEnter.2 { s.hub with cells := c.testEnter.1 }) :=
      (pop_keeps hpop).trans (((testEnter_keeps { s.hub with cells := c }).frame [x]).trans
        ((noteEntered_keeps s.sender _ _).frame [x]))
    have hports : PortsKeep [x] [] s.ports (s.ports.modUnit p (fun u => { u with rx := .taking (chain ++ [x]) })) := by
      have hmoves := modUnit_moves s.ports p (fun u => { u with rx := .taking (chain ++ [x]) })
      refine ⟨?_, hmoves.fit⟩
      have hrx := hmoves.rx
      rw [hchain] at hrx
      rw [List.perm_iff_count] at hrx ⊢
      intro a
      have := hrx a
      simp only [Reception.chain, List.count_append, List.count_nil] at this ⊢
      omega
    exact .of hhub hports (.refl _) le_rfl ⟨rfl, rfl, rfl⟩ rfl rfl

theorem takeOneCell_calm (p : Port) (s : State) : Calm [] [] s (takeOneCell p s) := by
  unfold takeOneCell
  split
  case h_1 h => exact needCell_calm (by rw [h]; rfl)
  case h_2 chain h => exact needCell_calm (by rw [h]; rfl)
  case h_3 => exact .refl [] s

theorem takeMissing_calm (p : Port) (n : Nat) (s : State) : Calm [] [] s (takeMissing p n s) := by
  induction n generalizing s with
  | zero => exact .refl [] s
  | succ n ih => exact (takeOneCell_calm p s).trans (ih _)

/-! ## How many cells -/

/-- After one more byte the reception is dropped, or has one cell more. -/
theorem needCell_rx (p : Port) (chain : List Nat) (s : State) : ((needCell p chain s).ports.unitOf p).rx = .dropping ∨
    ((needCell p chain s).ports.unitOf p).rx.chain.length = chain.length + 1 := by
  unfold needCell
  split
  · exact .inl (rx_setRx p _ _)
  · right
    rw [rx_setRx]
    exact List.length_append

theorem takeOneCell_rx (p : Port) (s : State) : ((takeOneCell p s).ports.unitOf p).rx = .dropping ∨
    ((takeOneCell p s).ports.unitOf p).rx.chain.length = (s.ports.unitOf p).rx.chain.length + 1 := by
  unfold takeOneCell
  split
  case h_1 h => rw [h]; exact needCell_rx p [] s
  case h_2 chain h => rw [h]; exact needCell_rx p chain s
  case h_3 h => exact .inl h

theorem takeMissing_dropping {p : Port} (n : Nat) {s : State} (h : (s.ports.unitOf p).rx = .dropping) :
    ((takeMissing p n s).ports.unitOf p).rx = .dropping := by
  induction n generalizing s with
  | zero => exact h
  | succ n ih =>
    refine ih ?_
    simp only [takeOneCell, h]

theorem takeMissing_rx (p : Port) (n : Nat) (s : State) : ((takeMissing p n s).ports.unitOf p).rx = .dropping ∨
    ((takeMissing p n s).ports.unitOf p).rx.chain.length = (s.ports.unitOf p).rx.chain.length + n := by
  induction n generalizing s with
  | zero => exact .inr rfl
  | succ n ih =>
    rcases takeOneCell_rx p s with h | h
    · exact .inl (takeMissing_dropping n h)
    · rcases ih (takeOneCell p s) with h' | h'
      · exact .inl h'
      · exact .inr (by rw [takeMissing, h', h]; omega)

/-! ## The end of a reception -/

theorem endReception_cases (p : Port) (L : Nat) (s : State) :
    let s1 := takeMissing p (cellsFor L - ((s.ports.unitOf p).rx.chain).length) s
    (endReception p L s = (none, setRx p .idle s1) ∧ (s1.ports.unitOf p).rx = .dropping) ∨
      endReception p L s = (some (s1.ports.unitOf p).rx.chain, setRx p .idle s1) := by
  simp only [endReception]
  split
  case h_1 h => exact .inl ⟨rfl, h⟩
  case h_2 => exact .inr rfl

/-- The end of a reception: the chain it has taken is between two places (R22). -/
theorem endReception_calm (p : Port) (L : Nat) (s : State) :
    Calm [] ((endReception p L s).1.getD []) s (endReception p L s).2 := by
  have htaken := takeMissing_calm p (cellsFor L - ((s.ports.unitOf p).rx.chain).length) s
  have hidle := setRx_calm p .idle (takeMissing p (cellsFor L - ((s.ports.unitOf p).rx.chain).length) s)
  rcases endReception_cases p L s with ⟨h, hdrop⟩ | h
  · rw [h]
    rw [hdrop] at hidle
    exact htaken.trans hidle
  · rw [h]
    exact htaken.trans hidle

/-- The chain of a reception that ends has the cells that its bytes need. -/
theorem endReception_length {p : Port} {L : Nat} {s t : State} {chain : List Nat} (hcan : canEnd p L s = true)
    (h : endReception p L s = (some chain, t)) : chain.length = cellsFor L := by
  have hle : ((s.ports.unitOf p).rx.chain).length ≤ cellsFor L := by
    simp only [canEnd, Bool.and_eq_true, decide_eq_true_eq] at hcan
    exact hcan.2
  simp only [endReception] at h
  split at h
  case h_1 => cases h
  case h_2 r hrx =>
    cases h
    rcases takeMissing_rx p (cellsFor L - ((s.ports.unitOf p).rx.chain).length) s with hdrop | hlen
    · exact absurd hdrop hrx
    · omega

theorem cellsFor_frame_pos {f : List Byte} {ok : Bool} (h : frameOk f ok = true) : 0 < cellsFor f.length := by
  simp only [frameOk, Bool.and_eq_true, decide_eq_true_eq] at h
  obtain ⟨⟨-, hmin⟩, -⟩ := h
  unfold cellsFor
  omega

theorem received_safe {p : Port} {f : List Byte} {ok : Bool} {sort : List Nat → State → State} (s : State)
    (h : ∀ chain t, chain ≠ [] → frameOk f ok = true → Safe chain [] t (sort chain t)) :
    Safe [] [] s (received p f ok sort s) := by
  unfold received
  split
  case isTrue hcan =>
    have hend := endReception_calm p f.length s
    split
    case h_1 s1 he => rw [he] at hend; exact hend.safe
    case h_2 chain s1 he =>
      rw [he] at hend
      split
      case isTrue hok =>
        refine hend.safe.trans (h chain s1 (fun hnil => ?_) hok)
        have hlen := endReception_length hcan he
        have hpos := cellsFor_frame_pos hok
        rw [hnil, List.length_nil] at hlen
        omega
      case isFalse => exact hend.safe.trans (discardWire_calm s1 p chain).safe
  case isFalse => exact .refl [] s

theorem storeFrame_calm {p : Port} {chain : List Nat} {f : List Byte} {ok : Bool} (hchain : chain ≠ [])
    (hok : frameOk f ok = true) (s : State) : Calm chain [] s (storeFrame p chain f s) := by
  have hlength : f.length ≤ 1536 := by
    simp only [frameOk, Bool.and_eq_true, decide_eq_true_eq] at hok
    exact hok.2
  have hports : PortsKeep [] [] s.ports (storeFrame p chain f s).ports :=
    count_keeps s.ports p (fun c =>
      { c with rxFrames := c.rxFrames + 1, rxBytes := c.rxBytes + BitVec.ofNat 48 f.length })
  exact .of (store_keeps s.hub
    { length := f.length, arrival := some p, kind := kindOfType (typeOf f), metered := false, chain := chain, refs := 0,
      station := none, failed := [] } f hchain rfl hlength) hports (.refl _) le_rfl ⟨rfl, rfl, rfl⟩ rfl rfl

end Sys2Proof.Laws
end

section
/-! SUPPORT. The sorting of received frames and the acting on radio notices keep every invariant of the part: what arrives
has its cells in its chain, an association index is below 64, and a new record's address is no group address. -/

namespace Sys2Proof.Laws

open Sys2Proof Sys2Proof.Machine Sys2Proof.Safety

/-! ## A record that moves -/

/-- A move of a record to another origin (R44, R69), with an index below 64 where that is a radio. -/
theorem moveRecord_safe {L : List Nat} {k : Fin 256} {s : State} {g : Station → Station} (addr : ∀ st, (g st).addr = st.addr)
    (state : ∀ st, (g st).state = st.state) (allowance : ∀ st, (g st).allowance = st.allowance)
    (credit : ∀ st, (g st).credit = st.credit) (upq : ∀ st, (g st).upq = st.upq)
    (origin : ∀ st w i, (g st).origin = .radio w i → i < 64) :
    Safe L L s (onTable (StationTable.modStation k g) s) := by
  cases hst : s.station? k with
  | none => exact modRecord_safe (fun st h => by rw [hst] at h; cases h)
  | some st =>
    have hchange : SlotChange k s (onTable (StationTable.modStation k g) s) (some (g st)) := by
      refine ⟨fun j => ?_, fun c st' e => ?_, fun c st' e => ?_, fun a st' e => ?_, fun a st' e => ?_,
        fun a => ⟨a.1, fun j _ => Iff.rfl⟩, fun a => ?_⟩
      · have h := modStation_station s.table k j g
        rw [show s.table.station? k = some st from hst] at h
        exact h
      · exact Option.some.inj e ▸ (credit st).symm ▸ c.credit k st hst
      · exact Option.some.inj e ▸ ⟨(upq st).symm ▸ c.upward k st hst, origin st⟩
      · obtain rfl := Option.some.inj e
        have := a k st hst
        simpa only [AdmissionOk, Paired, state, allowance] using this
      · exact Option.some.inj e ▸ (addr st).symm ▸ a k st hst
      · refine (HeldOrderOk.mem_iff a hst).trans ?_
        exact ⟨fun h => ⟨_, rfl, (state st).trans h⟩, fun ⟨st', e, h⟩ => by
          rw [← Option.some.inj e, state] at h
          exact h⟩
    exact hchange.safe_table rfl

theorem moveSeat_safe {L : List Nat} (k : Fin 256) (st : Station) (n : Fin 32) (s : State) :
    Safe L L s (moveSeat k st n s) :=
  Safe.trans (moveRecord_safe (g := fun r => { r with origin := .seat n }) (fun _ => rfl) (fun _ => rfl) (fun _ => rfl)
    (fun _ => rfl) (fun _ => rfl) (fun _ _ _ h => by cases h)) (purgeEgress_calm _ k st.origin).safe

/-! ## Seat frames -/

theorem attributed_safe {L : List Nat} (k : Fin 256) (p : Port) (id n : Nat) (addr : Option NetAddr) (s : State) :
    Safe L L s (upwardIntake k p id n addr (attributeFrame k id s)) :=
  (attributeFrame_safe k id s).trans (upwardIntake_safe k p id n addr _)

theorem learns_state (d : Designation) : d.learns.2 = .held ∨ d.learns.2 = .admitted := by cases d <;> simp [Designation.learns]

theorem learn_safe {L : List Nat} (n : Fin 32) (id : Nat) {f : List Byte} (hf : isGroup (srcOf f) = false) (s : State) :
    Safe L L s (learn n id f s) := by
  unfold learn
  split
  case isTrue => exact (discardFrame_calm s _ _ _ _ _).safe
  case isFalse =>
    have hcreated : Safe L L s (createRecord (srcOf f) (s.ports.seats[n]).designation.learns.1
        (s.ports.seats[n]).designation.learns.2 (.seat n) s).2 :=
      createRecord_safe hf (learns_state _) (fun _ _ h => by cases h)
    dsimp only
    split
    case h_1 s1 h => rw [h] at hcreated; exact hcreated.trans (discardFrame_calm _ _ _ _ _ _).safe
    case h_2 k s1 h => rw [h] at hcreated; exact hcreated.trans (attributed_safe k _ id _ _ s1)

theorem seatKnown_safe {L : List Nat} (k : Fin 256) (n : Fin 32) (id : Nat) (f : List Byte) (s : State) :
    Safe L L s (seatKnown k n id f s) := by
  have hdiscard : ∀ r, Safe L L s (discardFrame r (.seat n) none (some k) id s) :=
    fun r => (discardFrame_calm s r _ _ _ _).safe
  unfold seatKnown
  split
  case h_1 => exact .refl L s
  case h_2 st hst =>
    have hconflict : Safe L L s
        (discardFrame .origin (.seat n) none (some k) id (originConflict k st (.seat n) (srcOf f) s)) :=
      ((originConflict_calm s k st _ _).trans (discardFrame_calm _ _ _ _ _ _)).safe
    dsimp only
    split
    · exact hdiscard .purge
    · split
      · exact hconflict
      · split
        · exact attributed_safe k _ id _ _ s
        · split
          · exact hconflict
          · split
            · exact hdiscard .portCrowded
            · exact (moveSeat_safe k st n s).trans (attributed_safe k _ id _ _ _)

theorem sortSeat_safe {L : List Nat} (n : Fin 32) (id : Nat) (f : List Byte) (s : State) :
    Safe L L s (sortSeat n id f s) := by
  unfold sortSeat
  split
  · split
    · exact (offerUnicast_calm id _ _ s).safe
    · exact (discardFrame_calm s _ _ _ _ _).safe
  · split
    case isTrue => exact (discardFrame_calm s _ _ _ _ _).safe
    case isFalse hgroup =>
      split
      · exact learn_safe n id (Bool.eq_false_iff.mpr hgroup) s
      · exact seatKnown_safe _ n id f s

/-! ## Radio and backbone frames -/

theorem sortRadio_safe {L : List Nat} (w : Fin 4) (index : Byte) (id : Nat) (f : List Byte) (s : State) :
    Safe L L s (sortRadio w index id f s) := by
  have hdiscard : ∀ r o, Safe L L s (discardFrame r (.radio w) none o id s) :=
    fun r o => (discardFrame_calm s r _ _ o _).safe
  unfold sortRadio
  split
  · exact hdiscard .mgmtRefused none
  · split
    · exact hdiscard .unassociated none
    · split
      · exact hdiscard .unassociated none
      · split
        · exact .refl L s
        · split
          · exact hdiscard .origin none
          · split
            · exact hdiscard .purge _
            · exact attributed_safe _ _ id _ _ s

theorem takeHold_rx (now d : Nat) (e : BackboneEnd) : (BackboneEnd.takeHold now d e).unit.rx = e.unit.rx := by
  unfold BackboneEnd.takeHold
  split <;> rfl

theorem takeHold_transit (now d : Nat) (e : BackboneEnd) : (BackboneEnd.takeHold now d e).transit = e.transit := by
  unfold BackboneEnd.takeHold
  split <;> rfl

theorem takeHoldFrame_calm (x : End) (chain : List Nat) (f : List Byte) (s : State) :
    Calm chain [] s (takeHoldFrame x chain f s) :=
  (giveBackCells_calm s chain).trans (onEnd_calm _ x (takeHold_rx _ _) (takeHold_transit _ _))

theorem sortBackbone_safe {L : List Nat} (x : End) (id : Nat) (f : List Byte) (s : State) :
    Safe L L s (sortBackbone x id f s) := by
  unfold sortBackbone
  split
  · split
    · exact (offerUnicast_calm id _ _ s).safe
    · split
      · exact (offerBroadcast_calm id x s).safe
      · exact (transitUnicast_calm x id s).safe
  · split
    · exact (discardFrame_calm s _ _ _ _ _).safe
    · split
      · exact (multiDeliver_calm x id s).safe
      · split
        · exact (transitUnicast_calm x id s).safe
        · exact downward_safe _ x id _ _ s

/-! ## Radio notices -/

theorem refuseAssociation_calm {L : List Nat} (w : Fin 4) {i : Nat} (hi : i < 64) (s : State) :
    Calm L L s (refuseAssociation w i s) := sendOrder_calm s (fun _ => hi)

theorem radioCreate_safe {L : List Nat} (w : Fin 4) {i : Nat} {a : LinkAddr} (hi : i < 64) (ha : isGroup a = false)
    (s : State) : Safe L L s (radioCreate w i a s) := by
  have hcreated : Safe L L s (createRecord a .passenger .held (.radio w i) s).2 :=
    createRecord_safe ha (.inl rfl) (fun _ _ h => by cases h; exact hi)
  unfold radioCreate
  split
  case h_1 s1 h => rw [h] at hcreated; exact hcreated.trans (refuseAssociation_calm w hi s1).safe
  case h_2 s1 h => rw [h] at hcreated; exact hcreated.trans (cancelOrder_calm s1 w i).safe

theorem roam_safe {L : List Nat} (k : Fin 256) (st : Station) (w : Fin 4) {i : Nat} (hi : i < 64) (s : State) :
    Safe L L s (roam k st w i s) :=
  Safe.trans (moveRecord_safe (g := fun r => { r.touch s.now with origin := .radio w i }) (fun _ => rfl) (fun _ => rfl)
    (fun _ => rfl) (fun _ => rfl) (fun _ => rfl) (fun _ _ _ h => by cases h; exact hi))
    ((purgeEgress_calm _ k st.origin).trans (cancelOrder_calm _ w i)).safe

theorem confirm_calm {L : List Nat} (k : Fin 256) (w : Fin 4) (i : Nat) (s : State) : Calm L L s (confirm k w i s) := by
  have htouched : Calm L L s (onTable (StationTable.modStation k (Station.touch s.now)) s) :=
    .ofTable (modStation_keeps s.table k (fun _ => ⟨rfl, rfl, le_rfl⟩))
  exact htouched.trans (cancelOrder_calm _ w i)

theorem settleAssociation_safe {L : List Nat} (w : Fin 4) {i : Nat} {a : LinkAddr} (hi : i < 64) (ha : isGroup a = false)
    (s : State) : Safe L L s (settleAssociation w i a s) := by
  unfold settleAssociation
  split
  · exact radioCreate_safe w hi ha s
  · split
    · exact .refl L s
    · exact roam_safe _ _ w hi s

theorem associateAt_safe {L : List Nat} (w : Fin 4) {i : Nat} {a : LinkAddr} (hi : i < 64) (ha : isGroup a = false)
    (s : State) : Safe L L s (associateAt w i a s) := by
  unfold associateAt
  split
  · exact settleAssociation_safe w hi ha s
  · split
    · exact .refl L s
    · split
      · exact (refuseAssociation_calm w hi s).safe
      · dsimp only
        split
        · exact (removeRecord_safe _ _ s).trans (settleAssociation_safe w hi ha _)
        · exact (removeRecord_safe _ _ s).trans (refuseAssociation_calm w hi _).safe

theorem associate_safe {L : List Nat} (w : Fin 4) {i : Nat} {a : LinkAddr} (hi : i < 64) (ha : isGroup a = false)
    (s : State) : Safe L L s (associate w i a s) := by
  unfold associate
  split
  · exact associateAt_safe w hi ha s
  · split
    · exact .refl L s
    · split
      · exact (refuseAssociation_calm w hi s).safe
      · split
        · exact ((originConflict_calm s _ _ _ _).trans (refuseAssociation_calm w hi _)).safe
        · split
          · exact (confirm_calm _ w i s).safe
          · exact associateAt_safe w hi ha s

theorem takeNotice_safe {L : List Nat} (w : Fin 4) (n : RadioNotice) (s : State) : Safe L L s (takeNotice w n s) := by
  cases n with
  | associated index a =>
    simp only [takeNotice, takeAssociated]
    split
    case isTrue => exact (noticeIgnored_calm s w).safe
    case isFalse hi =>
      have hi := Nat.lt_of_not_le hi
      split
      case isTrue => exact ((refuseAssociation_calm w hi s).trans (noticeTaken_calm _ w)).safe
      case isFalse ha => exact (associate_safe w hi (Bool.eq_false_iff.mpr ha) s).trans (noticeTaken_calm _ w).safe
  | disassociated index =>
    simp only [takeNotice, takeDisassociated]
    split
    · exact (noticeIgnored_calm s w).safe
    · split
      · exact ((cancelOrder_calm s w _).trans (noticeIgnored_calm _ w)).safe
      · exact ((cancelOrder_calm s w _).safe.trans (removeRecord_safe _ _ _)).trans (noticeTaken_calm _ w).safe
  | radioStart =>
    have hcleared : Calm L L s (onPorts (Ports.modRadio w (fun q => { q with orders := [] })) s) :=
      onPorts_calm s (modRadio_keeps rfl id (fun _ => .nil))
    exact (hcleared.safe.trans (removeRecords_safe _ _ _)).trans (noticeTaken_calm _ w).safe

theorem receivedNotice_safe (w : Fin 4) (len : Nat) (good : Bool) {act : State → State} (s : State)
    (h : ∀ t, Safe [] [] t (act t)) : Safe [] [] s (receivedNotice w len good act s) := by
  unfold receivedNotice
  split
  case isTrue =>
    have hend := endReception_calm (.radio w) len s
    split
    case h_1 s1 he => rw [he] at hend; exact hend.safe
    case h_2 chain s1 he =>
      rw [he] at hend
      split
      · exact (hend.safe.trans (giveBackCells_calm s1 chain).safe).trans (h _)
      · exact (hend.trans (discardWire_calm s1 _ chain)).safe
  case isFalse => exact .refl [] s

theorem receiveNotice_safe (w : Fin 4) (n : RadioNotice) (len : Nat) (ok : Bool) (s : State) :
    Safe [] [] s (receiveNotice w n len ok s) := receivedNotice_safe w len _ s (takeNotice_safe w n)

theorem receiveNoticeFrame_safe (w : Fin 4) (f : List Byte) (ok : Bool) (s : State) :
    Safe [] [] s (receiveNoticeFrame w f ok s) := by
  unfold receiveNoticeFrame
  split
  · exact receiveNotice_safe w _ _ ok s
  · exact receivedNotice_safe w _ _ s (fun t => .refl [] t)

/-! ## The commands of arriving frames -/

/-- A frame whose type code is one that the port takes at once, or that is stored and sorted (R6). -/
theorem receivedFrame_safe {p : Port} {f : List Byte} {ok : Bool} {take : List Nat → State → State}
    {sort : Nat → State → State} (s : State) (ht : ∀ chain t, Safe chain [] t (take chain t))
    (hs : ∀ id t, Safe [] [] t (sort id t)) :
    Safe [] [] s (received p f ok (fun chain s =>
      if typeOf f = typeHold then take chain s else sort (firstCell chain) (storeFrame p chain f s)) s) :=
  received_safe s (fun chain t hchain hok => by
    split
    · exact ht chain t
    · exact (storeFrame_calm hchain hok t).safe.trans (hs _ _))

end Sys2Proof.Laws
end

section
/-! SUPPORT. The grants of the local arbiter keep credit and surplus in their range (R126, R127), and a transmission's
start, completion and abort keep every invariant of the part. -/

namespace Sys2Proof.Laws

open Sys2Proof Sys2Proof.Machine Sys2Proof.Safety

/-! ## What the local arbiter may grant -/

/-- What a grant to a passenger rests on: a credit, or a surplus, above 0 (R125). -/
def Affordable (s : State) : Pick → Prop
  | .credit k _ => ∀ st, s.station? k = some st → 0 < st.credit
  | .surplus _ => 0 < s.sched.surplus
  | _ => True

theorem mayServe_credit_pos {s : State} {k : Fin 256} {st : Station} (h : mayServe s Station.creditEligible k = true)
    (hst : s.station? k = some st) : 0 < st.credit := by
  obtain ⟨st', hst', helig, -⟩ := (mayServe_iff s _ k).mp h
  obtain rfl := Option.some.inj (hst.symm.trans hst')
  simp only [Station.creditEligible, Bool.and_eq_true, decide_eq_true_eq] at helig
  exact helig.2

theorem runHolder_credit_pos {s : State} {k : Fin 256} {st : Station} (h : runHolder s = some k)
    (hst : s.station? k = some st) : 0 < st.credit := by
  refine mayServe_credit_pos (k := k) ?_ hst
  unfold runHolder at h
  split at h
  · cases h
  · split at h
    case isTrue hr =>
      obtain rfl := Option.some.inj h
      obtain ⟨st', hst', htest, hidle⟩ := (mayServe_iff s _ _).mp hr.2
      exact (mayServe_iff s _ _).mpr ⟨st', hst', (Bool.and_eq_true_iff.mp htest).1, hidle⟩
    case isFalse => cases h

theorem pickCredit_affordable {s : State} {p : Pick} (h : pickCredit s = some p) : Affordable s p := by
  unfold pickCredit at h
  split at h
  case h_1 k hk =>
    obtain rfl := Option.some.inj h
    exact fun st hst => runHolder_credit_pos hk hst
  case h_2 =>
    obtain ⟨k, hk, rfl⟩ := Option.map_eq_some_iff.mp h
    exact fun st hst => mayServe_credit_pos (List.find?_some hk) hst

theorem pickSurplus_affordable {s : State} {p : Pick} (h : pickSurplus s = some p) : Affordable s p := by
  obtain ⟨k, hk, rfl⟩ := Option.map_eq_some_iff.mp h
  obtain ⟨st, -, helig, -⟩ := (mayServe_iff s _ k).mp (List.find?_some hk)
  simp only [Station.surplusEligible, Bool.and_eq_true, decide_eq_true_eq] at helig
  exact helig.2

theorem pickService_affordable {s : State} {p : Pick}
    (h : (pickOperations s).or ((pickCrew s).or (pickOnboard s)) = some p) : Affordable s p := by
  rcases Option.or_eq_some_iff.mp h with h | ⟨-, h⟩
  · obtain ⟨k, -, rfl⟩ := Option.map_eq_some_iff.mp h
    trivial
  · rcases Option.or_eq_some_iff.mp h with h | ⟨-, h⟩
    · obtain ⟨k, -, rfl⟩ := Option.map_eq_some_iff.mp h
      trivial
    · have : p = .onboard := by
        unfold pickOnboard at h
        split at h
        · cases h
        · split at h
          · exact (Option.some.inj h).symm
          · split at h
            · cases h
            · exact (Option.some.inj h).symm
      rw [this]
      trivial

theorem pickPassengers_affordable {s : State} {p : Pick} (h : (pickCredit s).or (pickSurplus s) = some p) :
    Affordable s p := by
  rcases Option.or_eq_some_iff.mp h with h | ⟨-, h⟩
  · exact pickCredit_affordable h
  · exact pickSurplus_affordable h

theorem localPick_affordable {s : State} {p : Pick} (h : localPick s = some p) : Affordable s p := by
  simp only [localPick] at h
  split at h
  · rcases Option.or_eq_some_iff.mp h with h | ⟨-, h⟩
    · exact pickPassengers_affordable h
    · exact pickService_affordable h
  · rcases Option.or_eq_some_iff.mp h with h | ⟨-, h⟩
    · exact pickService_affordable h
    · exact pickPassengers_affordable h

/-! ## The grant -/

theorem frameLength_le {s : State} (c : CreditOk s) (id : Nat) : frameLength s id ≤ 1536 := by
  unfold frameLength
  cases h : s.hub.cells.frame? id with
  | none => exact Nat.zero_le _
  | some f => exact c.lengths f (frame?_mem h).1

theorem popHead_eases (st : Station) : Eases st st.popHead :=
  ⟨rfl, rfl, by simp [Station.popHead]⟩

theorem takeGrant_safe {L : List Nat} {p : Pick} {s t : State} {id : Nat} (hp : Affordable s p)
    (h : takeGrant p s = some (id, t)) : Safe L L s t := by
  have hpop : ∀ k (u : UpwardService), u.onboard = s.up.onboard →
      Safe L L s { s with table := s.table.modStation k Station.popHead, up := u } :=
    fun k u hu => Calm.safe (.of (.refl L _) (.refl L _) (modStation_keeps s.table k popHead_eases)
      (congrArg List.length hu).le ⟨rfl, rfl, rfl⟩ rfl rfl)
  unfold takeGrant at h
  cases p with
  | operations k =>
    obtain ⟨id', -, e⟩ := Option.map_eq_some_iff.mp h
    cases e
    exact hpop k _ rfl
  | crew k =>
    obtain ⟨id', -, e⟩ := Option.map_eq_some_iff.mp h
    cases e
    exact hpop k _ rfl
  | onboard =>
    obtain ⟨id', -, e⟩ := Option.map_eq_some_iff.mp h
    cases e
    exact Calm.safe (.of (.refl L _) (.refl L _) (.refl _) (by simp) ⟨rfl, rfl, rfl⟩ rfl rfl)
  | credit k inRun =>
    obtain ⟨id', hid, e⟩ := Option.map_eq_some_iff.mp h
    cases e
    obtain ⟨st, hst, -⟩ := Option.bind_eq_some_iff.mp hid
    have hpos : 0 < st.credit := hp st hst
    have hchange : SlotChange k s _ _ := .ofStanding (g := Station.creditGrant (frameLength s id) s.sched.number)
      (t := { s with
        table := s.table.modStation k (Station.creditGrant (frameLength s id) s.sched.number)
        up := { s.up with
          creditPtr := if inRun then s.up.creditPtr else k
          run := runAfterCredit s k inRun
          guarantee := 0 } }) rfl rfl hst rfl (fun c => by
        have hlen := frameLength_le c id
        obtain ⟨-, hhigh⟩ := c.credit k st hst
        simp only [Station.creditGrant, InCreditRange]
        omega) (fun c => (popHead_eases st).upq.trans (c.upward k st hst))
    exact hchange.safe (.refl L _) (.refl L _) (fun c => ⟨c.surplus, rfl, rfl⟩) (fun c => c.onboard) rfl rfl
  | surplus k =>
    obtain ⟨id', hid, e⟩ := Option.map_eq_some_iff.mp h
    cases e
    obtain ⟨st, hst, -⟩ := Option.bind_eq_some_iff.mp hid
    have hchange : SlotChange k s _ _ := .ofStanding (g := Station.surplusGrant s.sched.number)
      (t := { s with
        table := s.table.modStation k (Station.surplusGrant s.sched.number)
        sched := { s.sched with surplus := s.sched.surplus - frameLength s id }
        up := { s.up with surplusPtr := k, run := none, guarantee := 0 } }) rfl rfl hst rfl
      (fun c => c.credit k st hst) (fun c => (popHead_eases st).upq.trans (c.upward k st hst))
    refine hchange.safe (.refl L _) (.refl L _) (fun c => ⟨?_, rfl, rfl⟩) (fun c => c.onboard) rfl rfl
    have hpos : 0 < s.sched.surplus := hp
    have hlen := frameLength_le c id
    obtain ⟨-, hhigh⟩ := c.surplus
    simp only [InCreditRange]
    omega

theorem grantLocal_safe {L : List Nat} {s t : State} {id : Nat} (h : grantLocal s = some (id, t)) : Safe L L s t := by
  obtain ⟨p, hp, hg⟩ := Option.bind_eq_some_iff.mp h
  exact takeGrant_safe (localPick_affordable hp) hg

/-! ## The choice of a backbone end -/

theorem takeTransit_calm {L : List Nat} (x : End) {rest : List Nat} (s : State)
    (h : rest.length ≤ (s.ports.endOf x).transit.length) : Calm L L s (takeTransit x rest s) :=
  (filterTransit_calm s x h).trans (afterFall_calm _ x)

theorem chooseShared_safe {L : List Nat} {x : End} {s t : State} {id : Nat} (h : chooseShared x s = some (id, t)) :
    Safe L L s t := by
  have hlocal : (grantLocal s).map (fun r => (r.1, onPorts (Ports.modEnd x BackboneEnd.afterLocal) r.2)) = some (id, t) →
      Safe L L s t := fun hg => by
    obtain ⟨⟨id', u⟩, hu, e⟩ := Option.map_eq_some_iff.mp hg
    cases e
    exact (grantLocal_safe hu).trans (onEnd_calm u x (g := BackboneEnd.afterLocal) (fun _ => rfl) (fun _ => rfl)).safe
  simp only [chooseShared] at h
  split at h
  case h_1 id' rest htransit =>
    split at h
    · exact hlocal h
    · cases h
      have hmarked := onEnd_calm (L := L) s x (g := BackboneEnd.afterTransit (localPick s).isSome) (fun _ => rfl)
        (fun _ => rfl)
      refine (hmarked.trans (takeTransit_calm x _ ?_)).safe
      have hend : ((onPorts (Ports.modEnd x (BackboneEnd.afterTransit (localPick s).isSome)) s).ports.endOf x).transit =
          id :: rest := by
        rw [← htransit]
        refine congrArg BackboneEnd.transit ((modEnd_end s.ports x x _).trans (if_pos rfl)) |>.trans ?_
        rfl
      rw [hend]
      exact Nat.le_succ _
  case h_2 => exact hlocal h

theorem chooseLast_safe {L : List Nat} {x : End} {s t : State} {id : Nat} (h : chooseLast x s = some (id, t)) :
    Safe L L s t := by
  unfold chooseLast at h
  split at h
  · exact chooseShared_safe h
  · split at h
    · cases h
    case h_2 id' rest htransit =>
      cases h
      exact (takeTransit_calm x s (by rw [htransit]; exact Nat.le_succ _)).safe

/-! ## Starts -/

/-- A change of the Management Unit that lengthens no queue and keeps the slots as they may be. -/
theorem mgmt_calm {L : List Nat} (s : State) {m : Mgmt} (store : m.store = s.hub.mgmt.store)
    (slots : ∀ k : Fin 4, SlotOk s.hub.mgmt.slots[k] → SlotOk m.slots[k])
    (input : m.input.length ≤ s.hub.mgmt.input.length) (notices : m.notices.length ≤ s.hub.mgmt.notices.length) :
    Calm L L s { s with hub := { s.hub with mgmt := m } } := by
  have hkeeps : HubKeeps [] [] s.hub { s.hub with mgmt := m } := .ofMgmt rfl store slots input notices
  exact .ofHub (hkeeps.frame L)

theorem startReply_calm {L : List Nat} (p : Port) (k : Fin 4) (s : State) : Calm L L s (startReply p k s).2 := by
  unfold startReply
  split
  case h_1 h id hk =>
    have hsending : Calm L L s { s with hub := { s.hub with mgmt := { s.hub.mgmt with
        slots := s.hub.mgmt.slots.set k (.sending h id),
        builtOrder := s.hub.mgmt.builtOrder.filter (fun j => decide (j ≠ k)) } } } :=
      mgmt_calm s rfl (slotOk_set (q := .sending h id) trivial) le_rfl le_rfl
    have htried := hsending.trans (tryStart_calm _ p id (.reply id k))
    dsimp only
    split
    · exact htried
    · exact htried.trans (onHub_calm _ (freeSlot_keeps k _))
  case h_2 => exact .refl L s

theorem startNotice_calm {L : List Nat} (p : Port) (id : Nat) (dest : LinkAddr) (s : State) :
    Calm L L s (startNotice p id dest s).2 := by
  have htaken : Calm L L s { s with hub := { s.hub with mgmt := { s.hub.mgmt with notices := s.hub.mgmt.notices.tail } } } :=
    mgmt_calm s rfl (fun _ h => h) le_rfl (by simp)
  have htried := htaken.trans (tryStart_calm _ p id (.notice id dest))
  have hreported : ∀ u : State, Calm L L u
      (onHub (fun h => let q := h.reportLost u.sender; q.1.noteEntered u.sender q.2) u) :=
    fun u => onHub_calm u ((reportLost_keeps _ _).trans (noteEntered_keeps _ _ _))
  unfold startNotice
  dsimp only
  split
  · exact htried.trans (hreported _)
  · exact htried

theorem startSeat_calm {L : List Nat} (fuel : Nat) (n : Fin 32) (s : State) : Calm L L s (startSeat fuel n s) := by
  induction fuel generalizing s with
  | zero => exact .refl L s
  | succ fuel ih =>
    unfold startSeat
    split
    case h_1 k _ _ =>
      dsimp only
      split
      · exact startReply_calm _ k s
      · exact (startReply_calm _ k s).trans (ih _)
    case h_2 =>
      split
      case h_1 => exact .refl L s
      case h_2 id rest hegress =>
        have hstart := (filterSeat_calm (L := L) s n (q := rest) (by rw [hegress]; exact Nat.le_succ _)).trans
          (tryStart_calm _ (.seat n) id (.frame id))
        dsimp only
        split
        · exact hstart
        · exact hstart.trans (ih _)

theorem startRadio_calm {L : List Nat} (fuel : Nat) (w : Fin 4) (s : State) : Calm L L s (startRadio fuel w s) := by
  induction fuel generalizing s with
  | zero => exact .refl L s
  | succ fuel ih =>
    unfold startRadio
    split
    case h_1 o rest horders =>
      have htaken : Calm L L s (onPorts (Ports.modRadio w (fun q => { q with orders := rest })) s) :=
        onPorts_calm s (modRadio_keeps rfl id (fun f => by rw [horders] at f; exact f.tail))
      exact htaken.trans (setTx_calm _ _ _)
    case h_2 =>
      split
      case h_1 => exact .refl L s
      case h_2 e rest hegress =>
        have hstart := (filterRadio_calm (L := L) s w (q := rest) (by rw [hegress]; exact Nat.le_succ _)).trans
          (tryStart_calm _ (.radio w) e.id (.radioFrame e.id e.index))
        dsimp only
        split
        · exact hstart
        · exact hstart.trans (ih _)

theorem startEnd_safe {L : List Nat} (fuel : Nat) (x : End) (s : State) : Safe L L s (startEnd fuel x s) := by
  induction fuel generalizing s with
  | zero => exact .refl L s
  | succ fuel ih =>
    unfold startEnd
    split
    case h_1 k _ _ =>
      dsimp only
      split
      · exact (startReply_calm _ k s).safe
      · exact (startReply_calm _ k s).safe.trans (ih _)
    case h_2 =>
      split
      case h_1 id dest _ =>
        dsimp only
        split
        · exact (startNotice_calm _ id dest s).safe
        · exact (startNotice_calm _ id dest s).safe.trans (ih _)
      case h_2 =>
        split
        case h_1 => exact .refl L s
        case h_2 id s1 hchosen =>
          have hstart := (chooseLast_safe (L := L) hchosen).trans
            (tryStart_calm s1 (.backbone x) id (.frame id)).safe
          dsimp only
          split
          · exact hstart
          · exact hstart.trans (ih _)

theorem startPort_safe {L : List Nat} (p : Port) (s : State) : Safe L L s (startPort p s) := by
  unfold startPort
  dsimp only
  split
  · exact (startSeat_calm _ _ s).safe
  · exact (startRadio_calm _ _ s).safe
  · split
    · exact ((onEnd_calm s _ (g := fun e => { e with pendingHold := none }) (fun _ => rfl) (fun _ => rfl)).trans
        (setTx_calm _ _ _)).safe
    · split
      · exact .refl L s
      · exact startEnd_safe _ _ s

/-! ## Completions and aborts -/

theorem endSent_calm {L : List Nat} (p : Port) (id : Nat) (s : State) : Calm L L s (endSent p id s) :=
  ((setTx_calm s p none).trans (onPorts_calm _ (count_keeps _ p _))).trans (onHub_calm _ (dropRef_keeps _ id _))

theorem completeFrame_safe {L : List Nat} (p : Port) (id : Nat) (s : State) : Safe L L s (completeFrame p id s) := by
  unfold completeFrame
  dsimp only
  refine Safe.trans ((endSent_calm p id s).safe.trans ?_) (settleOwner_safe _ _)
  unfold chargeCompleted
  split
  · split
    · exact charge_safe _ _ _ _
    · exact .refl L _
  · exact .refl L _

theorem completeHold_calm {L : List Nat} (p : Port) (d : Nat) (s : State) : Calm L L s (completeHold p d s) := by
  unfold completeHold
  split
  · refine (setTx_calm s _ none).trans (onEnd_calm _ _ (fun e => ?_) (fun e => ?_)) <;>
      unfold BackboneEnd.countHold <;> split <;> rfl
  · exact setTx_calm s _ none

theorem completeOrder_calm {L : List Nat} (p : Port) (s : State) : Calm L L s (completeOrder p s) := by
  unfold completeOrder
  split
  · exact (setTx_calm s _ none).trans (onRadioFigures_calm _ _ (fun _ => rfl) (fun _ => rfl) (fun _ => rfl))
  · exact setTx_calm s _ none

theorem completeTx_safe {L : List Nat} (p : Port) (t : Transmission) (s : State) : Safe L L s (completeTx p t s) := by
  cases t with
  | frame id => exact completeFrame_safe p id s
  | radioFrame id i => exact completeFrame_safe p id s
  | reply id k => exact ((endSent_calm p id s).trans (onHub_calm _ (freeSlot_keeps k _))).safe
  | notice id dest => exact completeFrame_safe p id s
  | hold d => exact (completeHold_calm p d s).safe
  | order o => exact (completeOrder_calm p s).safe

theorem countAborted_calm {L : List Nat} (p : Port) (id : Nat) (s : State) : Calm L L s (countAborted p id s) := by
  have hports : PortsKeep [] [] s.ports (countAborted p id s).ports :=
    ((modUnit_keeps s.ports p (g := fun u => { u with tx := none }) (fun _ => rfl)).trans
      (count_keeps _ p PortCounters.txDrop)).trans (count?_keeps _ (s.hub.cells.rxPort id) PortCounters.rxDiscard)
  exact .of ((tally_keeps .aborted s.hub).frame L) (hports.frame L) (.refl _) le_rfl ⟨rfl, rfl, rfl⟩ rfl rfl

theorem abortTx_safe {L : List Nat} (p : Port) (s : State) : Safe L L s (abortTx p s) := by
  have hdropped : ∀ id, Calm L L s (onHub (Hub.dropRef s.sender id) (countAborted p id s)) :=
    fun id => (countAborted_calm p id s).trans (onHub_calm _ (dropRef_keeps _ id _))
  unfold abortTx
  split
  · exact .refl L s
  · exact (setTx_calm s p none).safe
  · exact (setTx_calm s p none).safe
  · exact ((countAborted_calm p _ s).trans (onHub_calm _ ((dropRef_keeps _ _ _).trans (freeSlot_keeps _ _)))).safe
  · exact (hdropped _).safe
  · exact (hdropped _).safe
  · exact (hdropped _).safe.trans (settleOwner_safe _ _)

end Sys2Proof.Laws
end

section
/-! SUPPORT. The commands of links, hold timers, designations and requests keep every invariant of the part. -/

namespace Sys2Proof.Laws

open Sys2Proof Sys2Proof.Machine Sys2Proof.Safety

/-! ## Links -/

theorem loseReception_calm (p : Port) (s : State) : Calm [] [] s (loseReception p s) := by
  unfold loseReception
  split
  case h_1 => exact .refl [] s
  case h_2 hrx =>
    have hidle := setRx_calm p .idle s
    rw [hrx] at hidle
    exact hidle
  case h_3 chain hrx =>
    have hidle := setRx_calm p .idle s
    rw [hrx] at hidle
    exact hidle.trans (discardWire_calm _ p chain)

theorem discardReply_calm {L : List Nat} (p : Port) (k : Fin 4) (s : State) : Calm L L s (discardReply p k s) := by
  unfold discardReply
  split
  · exact (onHub_calm s (freeSlot_keeps k _)).trans (discardEntry_calm _ _ _ _)
  · exact .refl L s

theorem discardReplies_calm {L : List Nat} (p : Port) (s : State) : Calm L L s (discardReplies p s) :=
  Calm.foldl (fun s k => discardReply_calm p k s) _ s

theorem seatLinkLost_safe (n : Fin 32) (s : State) : Safe [] [] s (seatLinkLost n s) :=
  (((setLink_calm s (.seat n) .down).safe.trans (abortTx_safe _ _)).trans (loseReception_calm _ _).safe).trans
    ((clearSeatEgress_calm _ n).trans (discardReplies_calm _ _)).safe

theorem downSeat_safe (n : Fin 32) (s : State) : Safe [] [] s (downSeat n s) :=
  ((seatLinkLost_safe n s).trans (removeRecords_safe _ _ _)).trans (raiseNotice_calm _ _).safe

theorem downRadio_safe (w : Fin 4) (s : State) : Safe [] [] s (downRadio w s) := by
  have hlost : Safe [] [] s
      (clearRadioEgress w (loseReception (.radio w) (abortTx (.radio w) (setLink (.radio w) .down s)))) :=
    ((setLink_calm s (.radio w) .down).safe.trans (abortTx_safe _ _)).trans
      ((loseReception_calm _ _).trans (clearRadioEgress_calm _ w)).safe
  have horders : ∀ u : State, Calm [] [] u (onPorts (Ports.modRadio w (fun q => { q with orders := [] })) u) :=
    fun u => onPorts_calm u (modRadio_keeps rfl id (fun _ => .nil))
  exact ((hlost.trans (horders _).safe).trans (removeRecords_safe _ _ _)).trans (raiseNotice_calm _ _).safe

theorem downEnd_safe (x : End) (s : State) : Safe [] [] s (downEnd x s) := by
  have hlost : Safe [] [] s (loseReception (.backbone x) (abortTx (.backbone x) (setLink (.backbone x) .down s))) :=
    ((setLink_calm s (.backbone x) .down).safe.trans (abortTx_safe _ _)).trans (loseReception_calm _ _).safe
  exact hlost.trans (((clearTransit_calm _ x).trans
    (onEnd_calm _ x (g := BackboneEnd.clearHolds) (fun _ => rfl) (fun _ => rfl))).trans (raiseNotice_calm _ _)).safe

/-! ## Hold timers -/

theorem recordOverrun_calm {L : List Nat} (x : End) (s : State) : Calm L L s (recordOverrun x s) :=
  ((onEnd_calm s x (g := fun e => { e with overrun := true, overruns := e.overruns + 1 }) (fun _ => rfl)
    (fun _ => rfl)).trans (onHub_calm _ (flag_keeps _ _))).trans (raiseNotice_calm _ _)

theorem repeatHold_calm {L : List Nat} (x : End) (s : State) : Calm L L s (repeatHold x s) := by
  unfold repeatHold
  split
  · exact onEnd_calm s x (g := fun e => { e with pendingHold := some 200, repeatAt := some (s.now + 100) })
      (fun _ => rfl) (fun _ => rfl)
  · exact onEnd_calm s x (g := fun e => { e with repeatAt := none }) (fun _ => rfl) (fun _ => rfl)

theorem overrunIfDue_calm {L : List Nat} (x : End) (s : State) : Calm L L s (overrunIfDue x s) := by
  unfold overrunIfDue
  split
  · exact recordOverrun_calm x s
  · exact .refl L s

/-! ## Designations -/

theorem changeDesignation_safe (n : Fin 32) (d : Designation) (s : State) :
    Safe [] [] s (changeDesignation n d s) := by
  have hdesignated : ∀ u : State, Calm [] [] u (onPorts (Ports.modSeat n (fun q => { q with designation := d })) u) :=
    fun u => onPorts_calm u (modSeat_keeps rfl (fun h => h))
  have hchanged := ((removeRecords_safe (L := []) .portChanged (s.table.onSeat n) s).trans
    (clearSeatEgress_calm _ n).safe).trans (hdesignated _).safe
  unfold changeDesignation
  dsimp only
  split
  · exact hchanged.trans ((seatLinkLost_safe n _).trans (raiseNotice_calm _ _).safe)
  · exact hchanged

/-! ## The rules of the requests on ports, memory and the store -/

theorem ruleSetPort_safe (k : Fin 4) (r : Request) (s : State) : Safe [] [] s (ruleSetPort k r s) := by
  unfold ruleSetPort
  split
  · dsimp only
    split
    · exact (refuse_calm s k _).safe
    · split
      · exact (answer_calm s k (by simp)).safe
      · exact (changeDesignation_safe _ _ s).trans (answer_calm _ k (by simp)).safe
  · exact (refuse_calm s k _).safe

/-- The contents of a view are rendered at the build (R172). -/
theorem ContentOk.view {c : ReplyContent} (h : ∀ st body, c ≠ .fixed st body) : ContentOk c :=
  fun st body e => absurd e (h st body)

theorem ruleReadPort_calm {L : List Nat} (k : Fin 4) (r : Request) (s : State) : Calm L L s (ruleReadPort k r s) := by
  unfold ruleReadPort
  split
  · exact refuse_calm s k _
  · exact answerView_calm s k (.view (by simp))

theorem ruleSetHold_calm {L : List Nat} (k : Fin 4) (r : Request) (s : State) : Calm L L s (ruleSetHold k r s) := by
  unfold ruleSetHold
  split
  case h_1 => exact refuse_calm s k _
  case h_2 act _ =>
    have hset : Calm L L s { s with hold := { limit := clampTo 1 1000 (r.num 0 2), action := act } } :=
      .ofRest rfl rfl rfl rfl ⟨rfl, rfl, rfl⟩ rfl rfl
    exact ((hset.trans (overrunIfDue_calm .ba _)).trans (overrunIfDue_calm .bb _)).trans
      (answer_calm _ k (by simp [beBytes_length]))

theorem ruleWriteWindow_calm {L : List Nat} (k : Fin 4) (r : Request) (s : State) :
    Calm L L s (ruleWriteWindow k r s) := by
  have hset : ∀ i w, Calm L L s (writeWindow i w s) := fun i w => .ofRest rfl rfl rfl rfl ⟨rfl, rfl, rfl⟩ rfl rfl
  unfold ruleWriteWindow
  split
  · dsimp only
    split
    · exact refuse_calm s k _
    · exact (hset _ _).trans (answer_calm _ k (by rw [windowView_length]; omega))
  · exact refuse_calm s k _

theorem ruleReadWindow_calm {L : List Nat} (k : Fin 4) (r : Request) (s : State) : Calm L L s (ruleReadWindow k r s) := by
  unfold ruleReadWindow
  split
  · exact answerView_calm s k (.view (by simp))
  · exact refuse_calm s k _

theorem setMarks_calm {L : List Nat} (high low : Nat) (s : State) : Calm L L s (setMarks high low s) := by
  have hmarks : HubKeeps [] [] s.hub { s.hub with cells := { s.hub.cells with high := high, low := low } } :=
    .ofCells rfl rfl rfl rfl rfl
  exact onHub_calm s (hmarks.trans (retest_keeps _ _))

theorem ruleSetMemoryLimits_calm {L : List Nat} (k : Fin 4) (r : Request) (s : State) :
    Calm L L s (ruleSetMemoryLimits k r s) :=
  (setMarks_calm _ _ s).trans (answer_calm _ k (by simp [beBytes_length]))

theorem ruleSetConsist_calm {L : List Nat} (k : Fin 4) (r : Request) (s : State) :
    Calm L L s (ruleSetConsist k r s) := by
  unfold ruleSetConsist
  split
  case h_1 => exact refuse_calm s k _
  case h_2 lead _ =>
    split
    · exact refuse_calm s k _
    · have hset : Calm L L s { s with consist := { carriage := r.num 0 1, lead := lead } } :=
        .ofRest rfl rfl rfl rfl ⟨rfl, rfl, rfl⟩ rfl rfl
      exact hset.trans (answer_calm _ k (by simp))

theorem clearFlag_keeps (f : Flag) (h : Hub) : HubKeeps [] [] h (Hub.clearFlag f h) :=
  HubKeeps.trans (b := { h with mgmt := { h.mgmt with flags := h.mgmt.flags.set f.index {} } })
    (.ofFigures rfl rfl rfl rfl rfl) (.ofCells rfl rfl rfl rfl rfl)

theorem clearBody_length (code count : Nat) : (clearBody code count).length = 4 := by simp [clearBody, beBytes_length]

theorem ruleClearStatus_calm {L : List Nat} (k : Fin 4) (r : Request) (s : State) :
    Calm L L s (ruleClearStatus k r s) := by
  unfold ruleClearStatus
  split
  · exact refuse_calm s k _
  · split
    · exact (onHub_calm s (clearFlag_keeps _ _)).trans (answer_calm _ k (by rw [clearBody_length]; omega))
    · exact fixReply_calm s k true (.fixed (by rw [clearBody_length]; omega))

theorem ruleSnapshot_calm {L : List Nat} (k : Fin 4) (r : Request) (s : State) : Calm L L s (ruleSnapshot k r s) := by
  unfold ruleSnapshot
  split
  · exact refuse_calm s k _
  · split
    · exact park_calm s k (fun _ => trivial)
    · exact (takeSnapshot_calm s).trans (answer_calm _ k (by simp [snapshotReply, beBytes_length]))

theorem ruleReadSnapshot_calm {L : List Nat} (k : Fin 4) (r : Request) (s : State) :
    Calm L L s (ruleReadSnapshot k r s) := by
  unfold ruleReadSnapshot
  split
  · exact refuse_calm s k _
  · split
    · exact refuse_calm s k _
    · exact answerView_calm s k (.view (by simp))

theorem setStore_calm {L : List Nat} {st : Store} {s : State} (h : HubFit s.hub → BudgetOk st.settings.params) :
    Calm L L s (setStore st s) := by
  have hkeeps : HubKeeps [] [] s.hub (setStore st s).hub :=
    ⟨fun d => d, fun _ c => c, fun f => ⟨f.lengths, h f, f.slots⟩, fun n => n, fun n => n, fun n => n⟩
  exact .ofHub (hkeeps.frame L)

/-- The start of a store write: the image that parks has the budget in force, which is in range (R113, R185). -/
theorem startSave_calm {L : List Nat} (k : Fin 4) (s : State) : Calm L L s (startSave k s) := by
  have hstore : Calm L L s (setStore { s.hub.mgmt.store with checkOk := false } s) :=
    setStore_calm HubFit.stored
  by_cases hb : BudgetOk s.sched.params
  · exact hstore.trans (park_calm _ k (fun _ => hb))
  · refine hstore.trans ?_
    unfold startSave park
    split
    case h_1 => exact .refl L _
    case h_2 =>
      exact ⟨⟨fun d => d, fun c => absurd c.budget hb, fun c => c, fun c => ⟨c.upward, c.seats, c.radios, c.orders,
        c.indices, c.onboard, c.transit, c.input, c.notices, c.retired⟩, rfl, rfl⟩, rfl, fun _ => rfl⟩

theorem ruleSaveSettings_calm {L : List Nat} (k : Fin 4) (r : Request) (s : State) :
    Calm L L s (ruleSaveSettings k r s) := by
  have hreport : ∀ a i, Calm L L s (setReport a i s) := fun a i =>
    mgmt_calm s (m := { s.hub.mgmt with reportAddr := a, defaultIdle := i }) rfl (fun _ h => h) le_rfl le_rfl
  unfold ruleSaveSettings
  split
  · exact refuse_calm s k _
  · split
    · exact (hreport _ _).trans (startSave_calm k _)
    · exact refuse_calm s k _

theorem endSave_calm {L : List Nat} {k : Fin 4} {image : StoredSettings} {start : Nat} (accepted : Bool) {s : State}
    (h : parkedSave s.hub.mgmt = some (k, image, start)) : Calm L L s (endSave k image accepted s) := by
  have hfixed : ∀ st u, Calm L L u (fixReply k (.fixed st []) false u) :=
    fun st u => fixReply_calm u k false (.fixed (Nat.zero_le _))
  unfold endSave
  split
  · obtain ⟨⟨q, hslot⟩, -⟩ := parkedSave_iff.mp h
    refine (setStore_calm (fun f => ?_)).trans (hfixed .ok _)
    have := f.slots k
    rw [hslot] at this
    exact this
  · exact hfixed .storeFailed s

/-! ## The rules of the requests on stations -/

theorem onStation_safe {k : Fin 4} {a : LinkAddr} {rule : Fin 256 → Station → State → State} {s : State}
    (h : ∀ j st, s.station? j = some st → Safe [] [] s (rule j st s)) : Safe [] [] s (onStation k a rule s) := by
  unfold onStation
  split
  · exact (refuse_calm s k _).safe
  · split
    · exact (refuse_calm s k _).safe
    case h_2 st hst => exact h _ st hst

theorem answerStation_calm {L : List Nat} (k : Fin 4) (j : Fin 256) (s : State) : Calm L L s (answerStation k j s) := by
  unfold answerStation
  split
  · exact refuse_calm s k _
  · exact answer_calm s k (by rw [stationView_length]; omega)

theorem ruleReadStation_safe (k : Fin 4) (r : Request) (s : State) : Safe [] [] s (ruleReadStation k r s) :=
  onStation_safe (fun _ _ _ => (answerView_calm s k (.view (by simp))).safe)

theorem ruleListStations_calm {L : List Nat} (k : Fin 4) (r : Request) (s : State) :
    Calm L L s (ruleListStations k r s) := by
  unfold ruleListStations
  split
  · exact refuse_calm s k _
  · exact answerView_calm s k (.view (by simp))

theorem ruleAdmit_safe (k : Fin 4) (r : Request) (s : State) : Safe [] [] s (ruleAdmit k r s) :=
  onStation_safe (fun j st hst => by
    split
    · exact (refuse_calm s k _).safe
    · exact (refuse_calm s k _).safe
    · exact (refuse_calm s k _).safe
    all_goals
      split
      · exact (refuse_calm s k _).safe
      case h_2 b hb =>
        exact (admitRecord_safe _ hst (fun g hg => readAdmit_current hb hg)).trans (answerStation_calm k j _).safe)

theorem ruleBar_safe (k : Fin 4) (r : Request) (s : State) : Safe [] [] s (ruleBar k r s) :=
  onStation_safe (fun j st hst => by
    have hbar : ∀ before : Admission, st.state = before.state →
        Safe [] [] s (answerStation k j (barRecord j st before s)) :=
      fun before hb => (barRecord_safe hst hb).trans (answerStation_calm k j _).safe
    split
    · exact (refuse_calm s k _).safe
    · exact (refuse_calm s k _).safe
    · exact hbar .held ‹_›
    · exact hbar .admitted ‹_›
    · exact hbar .spent ‹_›)

theorem ruleUnbar_safe (k : Fin 4) (r : Request) (s : State) : Safe [] [] s (ruleUnbar k r s) :=
  onStation_safe (fun j st hst => by
    split
    · exact (refuse_calm s k _).safe
    case h_2 before hb => exact (unbarRecord_safe hst hb).trans (answerStation_calm k j _).safe
    all_goals exact (refuse_calm s k _).safe)

theorem releaseRecord_safe (k : Fin 4) {j : Fin 256} {st : Station} {s : State} (hst : s.station? j = some st) :
    Safe [] [] s (releaseRecord k j st s) := by
  have hunlisted : Unlisted [] j s (beginRemoval j st .released s) := beginRemoval_unlisted .released hst
  unfold releaseRecord
  dsimp only
  split
  · exact (hunlisted.leaving .released).trans (park_calm _ k (op := .release j) (fun _ => trivial)).safe
  · obtain ⟨st', hst', -⟩ := hunlisted.station hst
    simp only [answerRelease, hst']
    exact hunlisted.empties (answer_calm _ k (by rw [releaseBody_length]; omega))

theorem ruleRelease_safe (k : Fin 4) (r : Request) (s : State) : Safe [] [] s (ruleRelease k r s) :=
  onStation_safe (fun j st hst => by
    split
    · exact (refuse_calm s k _).safe
    · exact releaseRecord_safe k hst)

theorem ruleSetAllowance_safe (k : Fin 4) (r : Request) (s : State) : Safe [] [] s (ruleSetAllowance k r s) :=
  onStation_safe (fun j st hst => by
    split
    · exact (refuse_calm s k _).safe
    · split
      · exact (refuse_calm s k _).safe
      case isFalse hn =>
        split
        · exact (refuse_calm s k _).safe
        · exact (storeAllowance_safe _ hst (Bool.eq_false_iff.mpr hn)).trans (answerStation_calm k j _).safe)

theorem ruleRenew_safe (k : Fin 4) (r : Request) (s : State) : Safe [] [] s (ruleRenew k r s) := by
  unfold ruleRenew
  split
  · exact (refuse_calm s k _).safe
  · exact onStation_safe (fun j st hst => by
      split
      · exact (refuse_calm s k _).safe
      · split
        case isTrue hr => exact (renewRecord_safe hst hr).trans (answerStation_calm k j _).safe
        case isFalse => exact (refuse_calm s k _).safe)

theorem ruleRenewAll_safe (k : Fin 4) (r : Request) (s : State) : Safe [] [] s (ruleRenewAll k r s) :=
  (renewTable_safe s).trans (answer_calm _ k (by simp [renewAllReply, beBytes_length])).safe

theorem ruleSetShaping_safe (k : Fin 4) (r : Request) (s : State) : Safe [] [] s (ruleSetShaping k r s) :=
  onStation_safe (fun j st hst => by
    split
    · exact (refuse_calm s k _).safe
    · split
      · exact (refuse_calm s k _).safe
      · exact ((withShaping_calm j _ _ s).trans (answerStation_calm k j _)).safe)

/-! ## The rules of the scheduler's requests -/

theorem ruleSetEpoch_safe (k : Fin 4) (r : Request) (s : State) : Safe [] [] s (ruleSetEpoch k r s) :=
  (storeParams_safe (readParams_budgetOk r) s).trans
    (answer_calm _ k (by rw [List.length_cons, schedulerView_length]; omega)).safe

theorem answerScheduler_calm {L : List Nat} (k : Fin 4) (s : State) : Calm L L s (answerScheduler k s) :=
  answer_calm s k (by rw [schedulerView_length]; omega)

theorem ruleSchedulerStart_safe (k : Fin 4) (r : Request) (s : State) : Safe [] [] s (ruleSchedulerStart k r s) := by
  unfold ruleSchedulerStart
  split
  · exact (refuse_calm s k _).safe
  · refine Safe.trans ?_ (answerScheduler_calm k _).safe
    split
    · exact .refl [] s
    · exact startScheduler_safe s

theorem ruleSchedulerStop_safe (k : Fin 4) (r : Request) (s : State) : Safe [] [] s (ruleSchedulerStop k r s) := by
  refine Safe.trans ?_ (answerScheduler_calm k _).safe
  split
  · exact stopScheduler_safe s
  · exact .refl [] s

theorem ruleSchedulerRestart_safe (k : Fin 4) (r : Request) (s : State) :
    Safe [] [] s (ruleSchedulerRestart k r s) := by
  refine Safe.trans ?_ (answerScheduler_calm k _).safe
  split
  · exact boundary_safe true s
  · exact startScheduler_safe s

end Sys2Proof.Laws
end

section
/-! SUPPORT. POWER_ON and RESET keep every invariant of the part: one begins anew, the other rebuilds Cell Memory around
the replies that stay (R36, R187, R188). -/

namespace Sys2Proof.Laws

open Sys2Proof Sys2Proof.Machine Sys2Proof.Safety

/-! ## Empty queues and tables -/

theorem receptionCells_of_idle {ps : Ports} (h : ∀ p, (ps.unitOf p).rx.chain = []) : receptionCells ps = [] := by
  have hseats : ps.seats.toList.flatMap (fun q => q.unit.rx.chain) = [] :=
    List.flatMap_eq_nil_iff.mpr (fun q hq => by
      obtain ⟨n, hn, rfl⟩ := Vector.mem_iff_getElem.mp (Vector.mem_toList_iff.mp hq)
      exact h (.seat ⟨n, hn⟩))
  have hradios : ps.radios.toList.flatMap (fun q => q.unit.rx.chain) = [] :=
    List.flatMap_eq_nil_iff.mpr (fun q hq => by
      obtain ⟨n, hn, rfl⟩ := Vector.mem_iff_getElem.mp (Vector.mem_toList_iff.mp hq)
      exact h (.radio ⟨n, hn⟩))
  simp only [receptionCells, hseats, hradios, List.nil_append]
  exact List.append_eq_nil_iff.mpr ⟨h (.backbone .ba), h (.backbone .bb)⟩

/-- A table with no record. -/
structure Bare (t : StationTable) : Prop where
  absent : ∀ k, t.station? k = none
  held : t.held = []

theorem Bare.replicate : Bare { slots := Vector.replicate 256 none, held := [] } :=
  ⟨fun k => by simp [StationTable.station?], rfl⟩

theorem Bare.admission {s : State} (h : Bare s.table) : AllowancesOk s ∧ HeldOrderOk s ∧ AddressesOk s := by
  have habsent : ∀ k, s.station? k = none := h.absent
  refine ⟨fun k st hk => ?_, ⟨by rw [h.held]; exact .nil, fun k => ?_⟩, fun k st hk => ?_⟩
  · rw [habsent] at hk; cases hk
  · rw [h.held, habsent]
    simp
  · rw [habsent] at hk; cases hk

/-- A part that begins anew: every cell free, every queue empty, no record, budgets in range. -/
structure Blank (s : State) : Prop where
  data : s.hub.cells.data = []
  free : s.hub.cells.free = List.range 3072
  frames : s.hub.cells.frames = []
  retired : s.hub.cells.retired = []
  idle : ∀ p, (s.ports.unitOf p).rx.chain = []
  ports : PortsFit s.ports
  table : Bare s.table
  onboard : s.up.onboard = []
  input : s.hub.mgmt.input = []
  notices : s.hub.mgmt.notices = []
  slots : ∀ k : Fin 4, s.hub.mgmt.slots[k] = .free
  surplus : s.sched.surplus = 0
  pendingParams : s.sched.pendingParams = none

theorem Blank.cellsOk {s : State} (h : Blank s) : CellsOk s := by
  refine ⟨?_, fun f hf => by rw [h.frames] at hf; cases hf⟩
  rw [frameCells, h.free, h.frames, h.retired, receptionCells_of_idle h.idle]
  simp

theorem Blank.capacitiesOk {s : State} (h : Blank s) : CapacitiesOk s := by
  refine capacitiesOk_iff.mpr ⟨h.ports, fun k st hk => ?_, ?_⟩
  · rw [show s.station? k = none from h.table.absent k] at hk; cases hk
  · rw [h.onboard, h.input, h.notices, h.retired]
    decide

theorem Blank.creditOk {s : State} (h : Blank s) (hb : BudgetOk s.sched.params)
    (hs : BudgetOk s.hub.mgmt.store.settings.params) : CreditOk s := by
  refine creditOk_iff.mpr ⟨⟨fun f hf => ?_, hs, fun k => ?_⟩, fun k st hk => ?_, ?_, hb, fun q hq => ?_⟩
  · rw [h.frames] at hf
    cases hf
  · rw [h.slots k]
    trivial
  · rw [show s.station? k = none from h.table.absent k] at hk; cases hk
  · rw [h.surplus]
    exact ⟨by decide, by decide⟩
  · rw [h.pendingParams] at hq; cases hq

theorem blankPorts_fit {ps : Ports} (seats : ∀ n : Fin 32, (ps.seats[n]).egress = []) (radios : ps.radios = Vector.replicate 4 {})
    (ba : ps.ba = {}) (bb : ps.bb = {}) : PortsFit ps := by
  refine ⟨fun n => by rw [seats n]; exact Nat.zero_le _, fun w => ?_, fun w => ?_, fun x => ?_⟩
  · simp [radios]
  · simpa [radios] using OrdersFit.nil
  · cases x
    · simp [Ports.endOf, ba]
    · simp [Ports.endOf, bb]

theorem reset_blank : Blank State.reset where
  data := rfl
  free := by simp only [State.reset, CellMemory.reset]
  frames := rfl
  retired := rfl
  idle := fun p => by rcases p with n | w | x <;> [skip; skip; cases x] <;> simp [State.reset, Ports.unitOf, Reception.chain, Ports.endOf]
  ports := blankPorts_fit (fun n => by simp [State.reset]) rfl rfl rfl
  table := .replicate
  onboard := rfl
  input := rfl
  notices := rfl
  slots := fun k => by simp [State.reset, Mgmt.reset]
  surplus := rfl
  pendingParams := rfl

theorem powerOn_blank (s : State) : Blank (powerOn s) where
  data := rfl
  free := by simp only [powerOn, powerOnCells, CellMemory.reset]
  frames := rfl
  retired := rfl
  idle := fun p => by
    rcases p with n | w | x <;> [skip; skip; cases x] <;>
      simp [powerOn, powerOnSeats, State.reset, Ports.unitOf, Reception.chain, Ports.endOf]
  ports := blankPorts_fit (fun n => by simp [powerOn, powerOnSeats]) rfl rfl rfl
  table := .replicate
  onboard := rfl
  input := rfl
  notices := rfl
  slots := fun k => by simp [powerOn, powerOnMgmt, Mgmt.reset]
  surplus := rfl
  pendingParams := rfl

theorem load_budgetOk {st : Store} (h : BudgetOk st.settings.params) : BudgetOk st.load.params := by
  unfold Store.load
  split
  · exact h
  · exact Nat.le_of_ble_eq_true rfl

theorem powerOn_safe (s : State) : Safe [] [] s (powerOn s) := by
  have hblank := powerOn_blank s
  obtain ⟨hallow, hheld, haddr⟩ := hblank.table.admission
  exact ⟨⟨fun _ => rfl, fun c => hblank.creditOk (load_budgetOk c.storedBudget) c.storedBudget,
    fun _ => cellsOk_iff.mp hblank.cellsOk, fun _ => hblank.capacitiesOk, rfl, rfl⟩, fun _ => hallow, fun _ => hheld,
    fun _ => haddr⟩

/-! ## The steps of a warm reset -/

theorem resetTx_calm {L : List Nat} (p : Port) (s : State) : Calm L L s (resetTx p s) := by
  unfold resetTx
  split
  · exact .refl L s
  · split
    · exact countAborted_calm p _ s
    · exact setTx_calm s p none

theorem afterAbort_slotOk {q : ReplySlot} (h : SlotOk q) : SlotOk q.afterAbort := by
  unfold ReplySlot.afterAbort
  split
  · trivial
  · exact h

theorem resetTraffic_calm {L : List Nat} (s : State) : Calm L L s (resetTraffic s) := by
  have hemptied : ∀ u : State, Calm L L u { u with hub := { u.hub with mgmt := { u.hub.mgmt with
      input := [], notices := [], snapshot := none, slots := u.hub.mgmt.slots.map ReplySlot.afterAbort } } } := fun u =>
    mgmt_calm u rfl (fun k h => by simpa using afterAbort_slotOk h) (Nat.zero_le _) (Nat.zero_le _)
  have haborted := Calm.foldl (fun s p => resetTx_calm (L := L) p s) allPorts s
  exact haborted.trans (hemptied _)

theorem withReport_calm {L : List Nat} (a : Option LinkAddr) (s : State) : Calm L L s (withReport a s) :=
  mgmt_calm s (m := { s.hub.mgmt with reportAddr := a }) rfl (fun _ h => h) le_rfl le_rfl

theorem abortedBody_length (s : State) (op : PendingOp) : (abortedBody s op).length ≤ 60 := by
  unfold abortedBody
  split
  · split
    · exact Nat.zero_le _
    · exact (releaseBody_length _ _).le
  · exact Nat.zero_le _
  · exact Nat.zero_le _

theorem abortParked_calm {L : List Nat} (k : Fin 4) (s : State) : Calm L L s (abortParked k s) := by
  unfold abortParked
  split
  · exact fixReply_calm s k false (.fixed ((abortedBody_length s _).trans (by omega)))
  · exact .refl L s

theorem abortAllParked_calm {L : List Nat} (s : State) : Calm L L s (abortAllParked s) :=
  ((withReport_calm none s).trans (Calm.foldl (fun s k => abortParked_calm k s) _ _)).trans (withReport_calm _ _)

/-- A reception lost at the reset: its cells are between two places until the rebuild. -/
theorem resetRx_calm (p : Port) (L : List Nat) (s : State) : ∃ M, Calm L M s (resetRx p s) := by
  have hidle : Calm L ((s.ports.unitOf p).rx.chain ++ L) s (setRx p .idle s) := by
    have hmoves := modUnit_moves s.ports p (fun u => { u with rx := .idle })
    refine .ofPorts ⟨?_, hmoves.fit⟩
    have hrx := hmoves.rx
    rw [List.perm_iff_count] at hrx ⊢
    intro a
    have := hrx a
    simp only [Reception.chain, List.count_append, List.count_nil] at this ⊢
    omega
  unfold resetRx
  split
  · exact ⟨L, .refl L s⟩
  · exact ⟨_, hidle⟩
  · exact ⟨_, hidle.trans ((tally_calm _ _).trans (rxDiscard_calm _ p))⟩

theorem resetRxs_calm (ps : List Port) (L : List Nat) (s : State) :
    ∃ M, Calm L M s (ps.foldl (fun s p => resetRx p s) s) := by
  induction ps generalizing L s with
  | nil => exact ⟨L, .refl L s⟩
  | cons p ps ih =>
    obtain ⟨M, h⟩ := resetRx_calm p L s
    obtain ⟨N, h'⟩ := ih M (resetRx p s)
    exact ⟨N, h.trans h'⟩

theorem resetRx_idle (p q : Port) (s : State) : ((resetRx p s).ports.unitOf q).rx =
    if q = p then .idle else (s.ports.unitOf q).rx := by
  have hset : ((setRx p .idle s).ports.unitOf q).rx = if q = p then .idle else (s.ports.unitOf q).rx := by
    split
    case isTrue h => subst h; exact rx_setRx q .idle s
    case isFalse h => exact congrArg PortUnit.rx (unitOf_modUnit_ne s.ports _ h)
  unfold resetRx
  split
  case h_1 h =>
    split
    case isTrue he => rw [he]; exact h
    case isFalse => rfl
  case h_2 => exact hset
  case h_3 =>
    rw [← hset]
    change (((setRx p .idle s).ports.count p PortCounters.rxDiscard).unitOf q).rx = _
    rw [unitOf_count]
    split
    case isTrue h => subst h; rfl
    case isFalse => rfl

theorem resetRxs_idle (ps : List Port) (q : Port) (s : State) (h : q ∈ ps ∨ (s.ports.unitOf q).rx = .idle) :
    ((ps.foldl (fun s p => resetRx p s) s).ports.unitOf q).rx = .idle := by
  induction ps generalizing s with
  | nil => exact h.resolve_left (by simp)
  | cons p ps ih =>
    refine ih (resetRx p s) ?_
    rw [resetRx_idle]
    by_cases hq : q = p
    · exact .inr (if_pos hq)
    · rw [if_neg hq]
      exact h.imp_left (fun hm => (List.mem_cons.mp hm).resolve_left hq)

theorem mem_allPorts (p : Port) : p ∈ allPorts := by
  rcases p with n | w | x
  · simp [allPorts]
  · simp [allPorts]
  · cases x <;> simp [allPorts]

/-! ## The rebuild -/

theorem mem_failedCells {fs : List FrameRec} {x : Nat} : x ∈ failedCells fs ↔ x < 3072 ∧ ∃ f ∈ fs, x ∈ f.failed := by
  simp [failedCells]

/-- The frames that the rebuild keeps. -/
def keptFrames (keep : List Nat) (c : CellMemory) : List FrameRec := c.frames.filter (fun f => keep.contains f.id)

theorem rebuild_frameCells (keep : List Nat) (c : CellMemory) :
    frameCells (c.rebuild keep).1 = (keptFrames keep c).flatMap (·.chain) := by
  simp [frameCells, CellMemory.rebuild, keptFrames, List.flatMap_map]

theorem rebuild_free (keep : List Nat) (c : CellMemory) : (c.rebuild keep).1.free = (List.range 3072).filter
    (fun x => !(c.rebuild keep).1.retired.contains x && !((keptFrames keep c).flatMap (·.chain)).contains x) := by
  simp only [CellMemory.rebuild, keptFrames]

theorem rebuild_data (keep : List Nat) (c : CellMemory) : (c.rebuild keep).1.data = c.data := by
  simp only [CellMemory.rebuild]

theorem rebuild_frames (keep : List Nat) (c : CellMemory) :
    (c.rebuild keep).1.frames = (keptFrames keep c).map (fun f => { f with refs := 1 }) := by
  simp only [CellMemory.rebuild, keptFrames]

theorem mem_rebuild_free (keep : List Nat) (c : CellMemory) (x : Nat) : x ∈ (c.rebuild keep).1.free ↔
    x < 3072 ∧ x ∉ (c.rebuild keep).1.retired ∧ x ∉ (keptFrames keep c).flatMap (·.chain) := by
  rw [rebuild_free, List.mem_filter, List.mem_range]
  generalize (c.rebuild keep).1.retired = retired
  simp

/-- A cell retired by the rebuild is in the chain of a frame that goes. -/
theorem mem_rebuild_retired {keep : List Nat} {c : CellMemory} {R : List Nat} {x : Nat} (h : Stocked c R)
    (hx : x ∈ (c.rebuild keep).1.retired) : x ∈ c.retired ∨
      ∃ f ∈ c.frames, keep.contains f.id = false ∧ x ∈ f.chain := by
  rcases List.mem_append.mp hx with hx | hx
  · exact .inl hx
  · obtain ⟨-, f, hf, hxf⟩ := mem_failedCells.mp (List.mem_of_mem_take hx)
    obtain ⟨hmem, hout⟩ := List.mem_filter.mp hf
    exact .inr ⟨f, hmem, by simpa using hout, (h.chains f hmem).2 x hxf⟩

/-- The rebuild puts every cell in one place again, whatever was between two places (R36). -/
theorem Stocked.rebuild {keep : List Nat} {c : CellMemory} {R : List Nat} (h : Stocked c R) :
    Stocked (c.rebuild keep).1 [] := by
  have hnodup := h.nodup
  rw [List.nodup_append, List.nodup_append, List.nodup_append] at hnodup
  obtain ⟨⟨⟨-, hframes, -⟩, -, -⟩, hretired, hdisjoint⟩ := hnodup
  have hrange : ∀ x, x ∈ frameCells c ∨ x ∈ c.retired → x < 3072 := fun x hx =>
    List.mem_range.mp (h.conserved.mem_iff.mp (by simp only [List.mem_append]; tauto))
  have hkept : ∀ x ∈ (keptFrames keep c).flatMap (·.chain), x ∈ frameCells c := fun x hx => by
    obtain ⟨f, hf, hxf⟩ := List.mem_flatMap.mp hx
    exact List.mem_flatMap.mpr ⟨f, (List.mem_filter.mp hf).1, hxf⟩
  have hapart : ∀ x ∈ (keptFrames keep c).flatMap (·.chain), x ∉ (c.rebuild keep).1.retired := fun x hx hret => by
    obtain ⟨f, hf, hxf⟩ := List.mem_flatMap.mp hx
    obtain ⟨hfc, hkeep⟩ := List.mem_filter.mp hf
    rcases mem_rebuild_retired h hret with hold | ⟨g, hg, hout, hxg⟩
    · exact hdisjoint x (List.mem_append_left _ (List.mem_append_right _ (hkept x hx))) x hold rfl
    · have := chain_unique hframes hfc hg hxf hxg
      subst this
      rw [hout] at hkeep
      cases hkeep
  have hretiredNodup : (c.rebuild keep).1.retired.Nodup := by
    refine List.nodup_append.mpr ⟨hretired, (List.nodup_range.filter _).sublist (List.take_sublist _ _), ?_⟩
    rintro x hx _ hbad rfl
    obtain ⟨-, f, hf, hxf⟩ := mem_failedCells.mp (List.mem_of_mem_take hbad)
    have hmem := (List.mem_filter.mp hf).1
    exact hdisjoint x (List.mem_append_left _ (List.mem_append_right _
      (List.mem_flatMap.mpr ⟨f, hmem, (h.chains f hmem).2 x hxf⟩))) x hx rfl
  have hfree := fun x => mem_rebuild_free keep c x
  have hfreeNodup : (c.rebuild keep).1.free.Nodup := by
    rw [rebuild_free]
    exact List.nodup_range.filter _
  refine ⟨?_, fun f hf => ?_⟩
  · rw [rebuild_frameCells, List.append_nil]
    refine (List.perm_ext_iff_of_nodup ?_ List.nodup_range).mpr (fun x => ?_)
    · refine List.nodup_append.mpr ⟨List.nodup_append.mpr ⟨hfreeNodup, ?_, ?_⟩, hretiredNodup, ?_⟩
      · exact hframes.sublist (List.Sublist.flatMap List.filter_sublist _)
      · rintro x hx _ hy rfl
        exact ((hfree x).mp hx).2.2 hy
      · rintro x hx _ hy rfl
        rcases List.mem_append.mp hx with hx | hx
        · exact ((hfree x).mp hx).2.1 hy
        · exact hapart x hx hy
    · rw [List.mem_append, List.mem_append, hfree, List.mem_range]
      constructor
      · rintro ((hx | hx) | hx)
        · exact hx.1
        · exact hrange x (.inl (hkept x hx))
        · rcases mem_rebuild_retired h hx with hold | ⟨f, hf, -, hxf⟩
          · exact hrange x (.inr hold)
          · exact hrange x (.inl (List.mem_flatMap.mpr ⟨f, hf, hxf⟩))
      · intro hx
        by_cases hr : x ∈ (c.rebuild keep).1.retired
        · exact .inr hr
        · by_cases hk : x ∈ (keptFrames keep c).flatMap (·.chain)
          · exact .inl (.inr hk)
          · exact .inl (.inl ⟨hx, hr, hk⟩)
  · rw [rebuild_frames] at hf
    obtain ⟨g, hg, rfl⟩ := List.mem_map.mp hf
    exact h.chains g (List.mem_filter.mp hg).1

theorem rebuild_retired_length {keep : List Nat} {c : CellMemory} (h : c.retired.length ≤ 64) :
    (c.rebuild keep).1.retired.length ≤ 64 := by
  simp only [CellMemory.rebuild, List.length_append, List.length_take]
  omega

/-! ## The queues and the tables -/

theorem radioIndices_fit (t : StationTable) (w : Fin 4) :
    OrdersFit ((radioIndices t w).map (fun i => ({ kind := .drop, index := i } : Order))) := by
  refine ⟨?_, fun o ho => ?_⟩
  · simpa [List.map_map, Function.comp_def, radioIndices] using List.nodup_range.filter _
  · obtain ⟨i, hi, rfl⟩ := List.mem_map.mp ho
    exact List.mem_range.mp (List.mem_of_mem_filter hi)

theorem resetQueues_fit {s : State} : PortsFit (resetQueues s).ports := by
  refine ⟨fun n => by simp [resetQueues], fun w => by simp [resetQueues, RadioLink.afterReset], fun w => ?_, fun x => ?_⟩
  · simp only [resetQueues, Fin.getElem_fin, Vector.getElem_ofFn, RadioLink.afterReset]
    split
    · exact radioIndices_fit s.table _
    · exact .nil
  · cases x <;> exact Nat.zero_le _

theorem resetQueues_rx (p : Port) (s : State) : ((resetQueues s).ports.unitOf p).rx = (s.ports.unitOf p).rx := by
  rcases p with n | w | x
  · simp [resetQueues, Ports.unitOf]
  · simp [resetQueues, Ports.unitOf, RadioLink.afterReset]
  · cases x <;> rfl

/-- The ports after the reset's step 6: no cell in reception, every queue within its capacity. -/
theorem resetPorts_blank {s : State} (hidle : ∀ p, (s.ports.unitOf p).rx = .idle) :
    receptionCells (afterFall .bb (afterFall .ba (resetQueues s))).ports = [] ∧
      PortsFit (afterFall .bb (afterFall .ba (resetQueues s))).ports := by
  have hfalls : ∀ x u, PortsKeep [] [] u.ports (afterFall x u).ports := fun x u => by
    unfold afterFall
    dsimp only
    split
    · exact modEnd_keeps rfl id
    · exact .refl [] _
  have hfall := (hfalls .ba (resetQueues s)).trans (hfalls .bb _)
  have hnil : receptionCells (resetQueues s).ports = [] :=
    receptionCells_of_idle (fun p => by rw [resetQueues_rx, hidle]; rfl)
  have hperm := hfall.rx
  rw [hnil, List.append_nil] at hperm
  exact ⟨hperm.eq_nil, hfall.fit resetQueues_fit⟩

/-- The rebuild of a part whose tables and queues the reset has emptied, after what was calm. -/
theorem rebuildCells_safe {M : List Nat} {s u v : State} (hcalm : Calm [] M s u) (hub : v.hub = u.hub)
    (pending : v.pending = u.pending) (identity : v.identity = u.identity) (table : Bare v.table)
    (rx : receptionCells v.ports = []) (fit : PortsFit v.ports) (onboard : v.up.onboard = [])
    (sched : v.sched.params = u.sched.params ∧ v.sched.pendingParams = none ∧ v.sched.surplus = 0) :
    Safe [] [] s (rebuildCells v) := by
  obtain ⟨hparams, hpending, hsurplus⟩ := sched
  have hbare : Bare (rebuildCells v).table := table
  have habsent : ∀ {k st}, (rebuildCells v).station? k ≠ some st := fun {k st} h => by
    rw [show (rebuildCells v).station? k = none from hbare.absent k] at h
    cases h
  obtain ⟨hallow, hheld, haddr⟩ := hbare.admission
  have hflags : HubKeeps [] [] { v.hub with cells := (v.hub.cells.rebuild (keptIds v.hub.mgmt)).1 } (rebuildCells v).hub :=
    flagN_keeps .memoryDegraded _ _
  rw [hub] at hflags
  refine ⟨⟨fun d => hflags.data ?_, fun c => ?_, fun c => ?_, fun c => ?_, pending.trans hcalm.pending,
    identity.trans hcalm.identity⟩, fun _ => hallow, fun _ => hheld, fun _ => haddr⟩
  · rw [rebuild_data]
    exact hcalm.data d
  · have hc := hcalm.credit c
    refine creditOk_iff.mpr ⟨hflags.fit ⟨fun f hf => ?_, hc.storedBudget, hc.slots⟩, fun k st hk => absurd hk habsent,
      hsurplus ▸ ⟨by decide, by decide⟩, hparams ▸ hc.budget, fun q hq => ?_⟩
    · rw [rebuild_frames] at hf
      obtain ⟨g, hg, rfl⟩ := List.mem_map.mp hf
      exact hc.lengths g (List.mem_filter.mp hg).1
    · rw [show (rebuildCells v).sched.pendingParams = none from hpending] at hq
      cases hq
  · have hrebuilt := hflags.cells [] (Stocked.rebuild (keep := keptIds u.hub.mgmt) (hcalm.cells c))
    unfold CellsWith
    rw [show receptionCells (rebuildCells v).ports = [] from rx]
    exact hrebuilt
  · have hc := hcalm.caps c
    exact capacitiesOk_iff.mpr ⟨fit, fun k st hk => absurd hk habsent,
      by rw [show (rebuildCells v).up.onboard = [] from onboard]; exact Nat.zero_le _, hflags.input hc.input,
      hflags.notices hc.notices, hflags.retired (rebuild_retired_length hc.retired)⟩

theorem resetBlocks_safe (s : State) : Safe [] [] s (resetBlocks s) := by
  obtain ⟨M, hcalm⟩ := resetRxs_calm allPorts [] s
  have hidle := fun p => resetRxs_idle allPorts p s (.inl (mem_allPorts p))
  unfold resetBlocks
  generalize allPorts.foldl (fun s p => resetRx p s) s = u at *
  obtain ⟨hrx, hfit⟩ := resetPorts_blank hidle
  exact rebuildCells_safe hcalm rfl rfl rfl .replicate hrx hfit rfl ⟨rfl, rfl, rfl⟩

theorem warmReset_safe (s : State) : Safe [] [] s (warmReset s) :=
  ((resetTraffic_calm s).trans (abortAllParked_calm _)).safe.trans (resetBlocks_safe _)

theorem buildWaiting_calm {L : List Nat} (n : Nat) (s : State) : Calm L L s (buildWaiting n s) := by
  induction n generalizing s with
  | zero => exact .refl L s
  | succ n ih => exact (buildOldest_calm s).trans (ih _)

theorem settleReset_calm {L : List Nat} (s : State) : Calm L L s (settleReset s) :=
  (onHub_calm s (retest_keeps _ _)).trans (buildWaiting_calm 4 _)

theorem ruleReset_safe (k : Fin 4) (r : Request) (s : State) : Safe [] [] s (ruleReset k r s) :=
  (warmReset_safe s).trans
    ((settleReset_calm _).trans (answer_calm _ k (by simp [resetBody, beBytes_length]))).safe

end Sys2Proof.Laws
end

section
/-! SUPPORT. Every command answers a next state and keeps every invariant of the part: the commands, one by one. -/

namespace Sys2Proof.Laws

open Sys2Proof Sys2Proof.Machine Sys2Proof.Safety

/-- A command that answers a next state and keeps every invariant. -/
def Completes (o : Host.Outcome State Fault Refusal) (s : State) : Prop := ∃ t, o = .next t ∧ Safe [] [] s t

theorem Safe.completes {s t : State} (h : Safe [] [] s t) : Completes (.next t) s := ⟨t, rfl, h⟩

theorem Calm.completes {s t : State} (h : Calm [] [] s t) : Completes (.next t) s := h.safe.completes

theorem Completes.takeRequest {row : Request → Bool} {fs : List CellFault} {rule : Fin 4 → Request → State → State}
    {s : State} (h : ∀ k rq t, Safe [] [] t (rule k rq t)) : Completes (.next (takeRequest row fs rule s)) s :=
  (takeRequest_safe s row fs h).completes

/-- What holds of a change where its condition does, and of no change else. -/
theorem Safe.ite {c : Prop} [Decidable c] {s t : State} (h : c → Safe [] [] s t) :
    Safe [] [] s (if c then t else s) := by
  split
  case isTrue hc => exact h hc
  case isFalse => exact .refl [] s

/-! ## Links, frames and transmissions -/

theorem execLinkUp_completes (p : Port) (s : State) : Completes (execLinkUp p s) s :=
  Safe.completes (.ite (fun _ => ((setLink_calm s p .up).trans (raiseNotice_calm _ _)).safe))

theorem execTakeCell_completes (p : Port) (s : State) : Completes (execTakeCell p s) s :=
  Safe.completes (.ite (fun _ => (takeOneCell_calm p s).safe))

theorem execSeatFrameReceived_completes (n : Fin 32) (f : List Byte) (ok : Bool) (s : State) :
    Completes (execSeatFrameReceived n f ok s) s :=
  (receivedFrame_safe (sort := fun id => sortSeat n id f) s (fun chain t => (discardWire_calm t _ chain).safe)
    (fun id t => sortSeat_safe n id f t)).completes

theorem execRadioDataFrameReceived_completes (w : Fin 4) (kind index : Byte) (f : List Byte) (ok : Bool) (s : State) :
    Completes (execRadioDataFrameReceived w kind index f ok s) s := by
  refine Safe.completes ?_
  split
  · exact receivedFrame_safe (sort := fun id => sortRadio w index id f) s
      (fun chain t => (discardWire_calm t _ chain).safe) (fun id t => sortRadio_safe w index id f t)
  · split
    · exact receiveNoticeFrame_safe w f ok s
    · exact receivedNotice_safe w _ _ s (fun t => .refl [] t)

theorem execBackboneFrameReceived_completes (x : End) (f : List Byte) (ok : Bool) (s : State) :
    Completes (execBackboneFrameReceived x f ok s) s :=
  (receivedFrame_safe (sort := fun id => sortBackbone x id f) s (fun chain t => (takeHoldFrame_calm x chain f t).safe)
    (fun id t => sortBackbone_safe x id f t)).completes

theorem execHoldFrameReceived_completes (x : End) (f : List Byte) (ok : Bool) (s : State) :
    Completes (execHoldFrameReceived x f ok s) s := by
  refine Safe.completes ?_
  split
  · exact .refl [] s
  · exact received_safe s (fun chain t _ _ => (takeHoldFrame_calm x chain f t).safe)

theorem execTransmissionStart_completes (p : Port) (fs : List CellFault) (s : State) :
    Completes (execTransmissionStart p fs s) s :=
  Safe.completes (.ite (fun _ => (withFaults_calm s fs).safe.trans (startPort_safe p _)))

theorem execTransmissionComplete_completes (p : Port) (s : State) : Completes (execTransmissionComplete p s) s := by
  refine Safe.completes ?_
  split
  · exact .refl [] s
  · exact completeTx_safe p _ s

/-! ## Timers -/

theorem execHeldUntilReached_completes (x : End) (s : State) : Completes (execHeldUntilReached x s) s := by
  refine Safe.completes ?_
  split
  · exact .refl [] s
  · exact ((waitUntil_calm s _).trans
      (onEnd_calm _ x (g := BackboneEnd.endHold) (fun _ => rfl) (fun _ => rfl))).safe

theorem execHoldLimitExpiry_completes (x : End) (s : State) : Completes (execHoldLimitExpiry x s) s := by
  refine Safe.completes ?_
  split
  · exact .refl [] s
  · exact .ite (fun _ => ((waitUntil_calm s _).trans (recordOverrun_calm x _)).safe)

theorem execHoldRepeatTimerExpiry_completes (x : End) (s : State) : Completes (execHoldRepeatTimerExpiry x s) s := by
  refine Safe.completes ?_
  split
  · exact .refl [] s
  · exact ((waitUntil_calm s _).trans (repeatHold_calm x _)).safe

theorem execIdleTimerExpiry_completes (k : Fin 256) (s : State) : Completes (execIdleTimerExpiry k s) s := by
  refine Safe.completes ?_
  split
  · exact .refl [] s
  · exact (waitUntil_calm s _).safe.trans (removeRecord_safe k _ _)

theorem execStoreWriteEnds_completes (accepted : Bool) (s : State) : Completes (execStoreWriteEnds accepted s) s := by
  refine Safe.completes ?_
  split
  · exact .refl [] s
  case h_2 h => exact (endSave_calm accepted h).safe

/-! ## Every command -/

theorem exec_completes (i : Instr) (s : State) : Completes (exec i s) s := by
  cases i with
  | powerOn => exact (powerOn_safe s).completes
  | linkUp p => exact execLinkUp_completes p s
  | seatPortDown n => exact (Safe.ite (fun _ => downSeat_safe n s)).completes
  | radioLinkDown w => exact (Safe.ite (fun _ => downRadio_safe w s)).completes
  | backboneEndDown x => exact (Safe.ite (fun _ => downEnd_safe x s)).completes
  | takeCell p => exact execTakeCell_completes p s
  | seatFrameReceived n f ok => exact execSeatFrameReceived_completes n f ok s
  | radioDataFrameReceived w kind index f ok => exact execRadioDataFrameReceived_completes w kind index f ok s
  | associated w index a len ok => exact (receiveNotice_safe w _ len ok s).completes
  | disassociated w index len ok => exact (receiveNotice_safe w _ len ok s).completes
  | radioStart w len ok => exact (receiveNotice_safe w _ len ok s).completes
  | backboneFrameReceived x f ok => exact execBackboneFrameReceived_completes x f ok s
  | holdFrameReceived x f ok => exact execHoldFrameReceived_completes x f ok s
  | heldUntilReached x => exact execHeldUntilReached_completes x s
  | holdLimitExpiry x => exact execHoldLimitExpiry_completes x s
  | holdRepeatTimerExpiry x => exact execHoldRepeatTimerExpiry_completes x s
  | idleTimerExpiry k => exact execIdleTimerExpiry_completes k s
  | epochCounterExpiry => exact (Safe.ite (fun _ => expireEpoch_safe s)).completes
  | transmissionStart p fs => exact execTransmissionStart_completes p fs s
  | transmissionComplete p => exact execTransmissionComplete_completes p s
  | buildWaitingReply => exact (buildOldest_calm s).completes
  | storeWriteEnds b => exact execStoreWriteEnds_completes b s
  | readStation fs => exact .takeRequest ruleReadStation_safe
  | listStations fs => exact .takeRequest (fun k rq t => (ruleListStations_calm k rq t).safe)
  | admitStation fs => exact .takeRequest ruleAdmit_safe
  | bar fs => exact .takeRequest ruleBar_safe
  | unbar fs => exact .takeRequest ruleUnbar_safe
  | release fs => exact .takeRequest ruleRelease_safe
  | setAllowance fs => exact .takeRequest ruleSetAllowance_safe
  | renew fs => exact .takeRequest ruleRenew_safe
  | renewAll fs => exact .takeRequest ruleRenewAll_safe
  | setShaping fs => exact .takeRequest ruleSetShaping_safe
  | setEpoch fs => exact .takeRequest ruleSetEpoch_safe
  | schedulerStart fs => exact .takeRequest ruleSchedulerStart_safe
  | schedulerStop fs => exact .takeRequest ruleSchedulerStop_safe
  | schedulerRestart fs => exact .takeRequest ruleSchedulerRestart_safe
  | readScheduler fs => exact .takeRequest (fun k _ t => (answerView_calm t k (.view (by simp))).safe)
  | writeWindow fs => exact .takeRequest (fun k rq t => (ruleWriteWindow_calm k rq t).safe)
  | readWindow fs => exact .takeRequest (fun k rq t => (ruleReadWindow_calm k rq t).safe)
  | setPort fs => exact .takeRequest ruleSetPort_safe
  | readPort fs => exact .takeRequest (fun k rq t => (ruleReadPort_calm k rq t).safe)
  | setHold fs => exact .takeRequest (fun k rq t => (ruleSetHold_calm k rq t).safe)
  | setMemoryLimits fs => exact .takeRequest (fun k rq t => (ruleSetMemoryLimits_calm k rq t).safe)
  | setConsist fs => exact .takeRequest (fun k rq t => (ruleSetConsist_calm k rq t).safe)
  | readStatus fs => exact .takeRequest (fun k _ t => (answerView_calm t k (.view (by simp))).safe)
  | clearStatus fs => exact .takeRequest (fun k rq t => (ruleClearStatus_calm k rq t).safe)
  | snapshot fs => exact .takeRequest (fun k rq t => (ruleSnapshot_calm k rq t).safe)
  | readSnapshot fs => exact .takeRequest (fun k rq t => (ruleReadSnapshot_calm k rq t).safe)
  | saveSettings fs => exact .takeRequest (fun k rq t => (ruleSaveSettings_calm k rq t).safe)
  | reset fs => exact .takeRequest ruleReset_safe
  | unknownRequestCode fs => exact .takeRequest (fun k _ t => (refuse_calm t k _).safe)

/-! ## Every step -/

/-- The invariants that a step keeps, whatever it does to the queue of commands. -/
structure Upholds (s t : State) : Prop where
  data : MemoryOk s → MemoryOk t
  credit : CreditOk s → CreditOk t
  cells : CellsOk s → CellsOk t
  caps : CapacitiesOk s → CapacitiesOk t
  allowances : AllowancesOk s → AllowancesOk t
  heldOrder : HeldOrderOk s → HeldOrderOk t
  addresses : AddressesOk s → AddressesOk t

theorem Upholds.trans {a b c : State} (h : Upholds a b) (g : Upholds b c) : Upholds a c :=
  ⟨g.data ∘ h.data, g.credit ∘ h.credit, g.cells ∘ h.cells, g.caps ∘ h.caps, g.allowances ∘ h.allowances,
    g.heldOrder ∘ h.heldOrder, g.addresses ∘ h.addresses⟩

theorem Safe.upholds {s t : State} (h : Safe [] [] s t) : Upholds s t :=
  ⟨h.data, h.credit, fun c => cellsOk_iff.mpr (h.cells (cellsOk_iff.mp c)), h.caps, h.allowances, h.heldOrder, h.addresses⟩

/-- No invariant reads the queue of commands. -/
theorem Upholds.withPending (s : State) (q : List Instr) : Upholds s { s with pending := q } :=
  ⟨fun d => d, fun c => creditOk_iff.mpr (creditOk_iff (s := s).mp c), fun c => ⟨c.conserved, c.chains⟩,
    fun c => capacitiesOk_iff.mpr (capacitiesOk_iff (s := s).mp c), fun a => a, fun a => a, fun a => a⟩

theorem tick_upholds (s : State) : Upholds s (tick s) :=
  (elapse_calm s 1).safe.upholds.trans (.withPending _ _)

theorem step_upholds {s t : State} (h : step s = .next t) : Upholds s t := by
  unfold step at h
  split at h
  case h_1 =>
    cases h
    exact tick_upholds s
  case h_2 c rest _ =>
    obtain ⟨t', ht', hsafe⟩ := exec_completes c { s with pending := rest }
    rw [ht'] at h
    cases h
    exact (Upholds.withPending s rest).trans hsafe.upholds

end Sys2Proof.Laws

namespace Sys2Proof.Proofs

open Sys2Proof Sys2Proof.Machine Sys2Proof.Safety Sys2Proof.Laws

/-- Settles O1, by the second case of `step`. -/
theorem stepRunsTheFront : Obligations.StepRunsTheFront := by
  unfold Obligations.StepRunsTheFront
  intro c rest s h
  simp only [step, h]

/-- Settles O3: no row of the table refuses or faults, and none touches the queue of commands or the identity. -/
theorem everyCommandCompletes : Obligations.EveryCommandCompletes := by
  unfold Obligations.EveryCommandCompletes
  intro i s
  obtain ⟨t, ht, hsafe⟩ := exec_completes i s
  exact ⟨t, ht, hsafe.pending, hsafe.identity⟩

/-- Settles O4: the state after reset is one that begins anew. -/
theorem resetIsSound : Obligations.ResetIsSound := by
  unfold Obligations.ResetIsSound
  obtain ⟨hallow, hheld, haddr⟩ := reset_blank.table.admission
  exact ⟨rfl, reset_blank.creditOk (Nat.le_of_ble_eq_true rfl) (Nat.le_of_ble_eq_true rfl), hallow, hheld,
    reset_blank.cellsOk, reset_blank.capacitiesOk, haddr⟩

/-- Settles O5. -/
theorem memoryFormKept : Obligations.MemoryFormKept := by
  unfold Obligations.MemoryFormKept
  exact fun _ _ h hstep => (step_upholds hstep).data h

/-- Settles O6: a grant is of a credit or a surplus above 0, of a frame of at most 1536 bytes; a boundary's shares sum to
at most B. -/
theorem creditRangeKept : Obligations.CreditRangeKept := by
  unfold Obligations.CreditRangeKept
  exact fun _ _ h hstep => (step_upholds hstep).credit h

/-- Settles O7: a change of state or allowance that breaks the pairing is one with the exhaustion that restores it. -/
theorem allowancePairingKept : Obligations.AllowancePairingKept := by
  unfold Obligations.AllowancePairingKept
  exact fun _ _ h hstep => (step_upholds hstep).allowances h

/-- Settles O8: whatever makes a record HELD, or no longer HELD, changes the held order with it. -/
theorem heldOrderKept : Obligations.HeldOrderKept := by
  unfold Obligations.HeldOrderKept
  exact fun _ _ h hstep => (step_upholds hstep).heldOrder h

/-- Settles O9: each operation moves the cells that it takes, with the cells between two places accounted for. -/
theorem cellsConserved : Obligations.CellsConserved := by
  unfold Obligations.CellsConserved
  exact fun _ _ h hstep => (step_upholds hstep).cells h

/-- Settles O10: an entry joins a queue only where the check before it has found room. -/
theorem capacitiesKept : Obligations.CapacitiesKept := by
  unfold Obligations.CapacitiesKept
  exact fun _ _ h hstep => (step_upholds hstep).caps h

/-- Settles O11: a record is made only of an address that has passed the check for the group bit. -/
theorem addressesKept : Obligations.AddressesKept := by
  unfold Obligations.AddressesKept
  exact fun _ _ h hstep => (step_upholds hstep).addresses h

end Sys2Proof.Proofs
end

section
/-! The statements on the step, power-on and links (chapters 1 and 10). -/

namespace Sys2Proof.Laws

open Sys2Proof Sys2Proof.Machine Sys2Proof.Safety

/-! ## The commands that one unit of time brings -/

/-- The commands of the timers that have come, each in the terms of its own timer. -/
theorem mem_dueCommands_iff (s : State) (c : Instr) : c ∈ dueCommands s ↔ match c with
    | .heldUntilReached x => ∃ m, (s.ports.endOf x).heldUntil = some m ∧ m ≤ s.now
    | .holdLimitExpiry x => ∃ u m, (s.ports.endOf x).heldUntil = some u ∧ (s.ports.endOf x).holdStart = some m ∧
        (s.ports.endOf x).overrun = false ∧ m + 100 * s.hold.limit ≤ s.now
    | .holdRepeatTimerExpiry x => ∃ m, (s.ports.endOf x).repeatAt = some m ∧ m ≤ s.now
    | .idleTimerExpiry k => ∃ st, s.station? k = some st ∧ st.isLeaving = false ∧ 0 < st.idle ∧
        st.idleStart + 100000 * st.idle ≤ s.now
    | .epochCounterExpiry => s.sched.running = true ∧ s.sched.epochUnits ≤ s.sched.elapsed
    | .storeWriteEnds accepted => accepted = Config.storeAccepts s.now ∧ ∃ (k : Fin 4) (h : ReqHeader)
        (image : StoredSettings) (start : Nat), s.hub.mgmt.slots[k] = .parked h (.save image start) ∧
        (∀ (j : Fin 4) h' image' start', j < k → s.hub.mgmt.slots[j] ≠ .parked h' (.save image' start')) ∧
        start + 4000 ≤ s.now
    | _ => False := by
  rw [mem_dueCommands]
  cases c with
  | heldUntilReached x => simp
  | holdRepeatTimerExpiry x => simp
  | epochCounterExpiry => simp
  | holdLimitExpiry x =>
    simp only [reduceCtorEq, false_and, exists_false, Instr.holdLimitExpiry.injEq, limitAt_iff, or_false, false_or]
    constructor
    · rintro ⟨y, m, rfl, ⟨u, start, hu, hs, ho, rfl⟩, hm⟩
      exact ⟨u, start, hu, hs, ho, hm⟩
    · rintro ⟨u, start, hu, hs, ho, hm⟩
      exact ⟨x, _, rfl, ⟨u, start, hu, hs, ho, rfl⟩, hm⟩
  | idleTimerExpiry k =>
    simp only [reduceCtorEq, false_and, exists_false, Instr.idleTimerExpiry.injEq, expiresAt_iff, or_false, false_or]
    constructor
    · rintro ⟨j, st, m, rfl, hst, ⟨hl, hi, rfl⟩, hm⟩
      exact ⟨st, hst, hl, hi, hm⟩
    · rintro ⟨st, hst, hl, hi, hm⟩
      exact ⟨k, st, _, rfl, hst, ⟨hl, hi, rfl⟩, hm⟩
  | storeWriteEnds a =>
    simp only [reduceCtorEq, false_and, exists_false, Instr.storeWriteEnds.injEq, parkedSave_iff, false_or]
    constructor
    · rintro ⟨k, image, start, rfl, ⟨⟨h, hslot⟩, hlow⟩, hm⟩
      exact ⟨rfl, k, h, image, start, hslot, hlow, hm⟩
    · rintro ⟨rfl, k, h, image, start, hslot, hlow, hm⟩
      exact ⟨k, image, start, rfl, ⟨⟨h, hslot⟩, hlow⟩, hm⟩
  | _ => simp

/-- An epoch has come to its end by the end of a unit where it would have without it and one unit more. -/
theorem pass_elapsed {c : Scheduler} (h : c.running = true) :
    (c.pass 1).epochUnits ≤ (c.pass 1).elapsed ↔ 100 * c.params.te ≤ 100 * c.counter + c.phase + 1 := by
  obtain ⟨-, hbefore, hafter⟩ := pass_cases 1 c
  simp only [Scheduler.elapsed, Scheduler.epochUnits] at hbefore hafter ⊢
  rcases Nat.lt_or_ge (100 * c.counter + c.phase + 1) (100 * c.params.te) with hlt | hge
  · rw [hbefore h hlt]
    exact iff_of_false (by dsimp only; omega) (by omega)
  · rw [hafter h hge]
    exact iff_of_true (by dsimp only; omega) hge

theorem pass_running (d : Nat) (c : Scheduler) : (c.pass d).running = c.running := by
  unfold Scheduler.pass
  split
  · rfl
  · split <;> rfl

end Sys2Proof.Laws

namespace Sys2Proof.Proofs

open Sys2Proof Sys2Proof.Machine Sys2Proof.Safety Sys2Proof.Laws

/-- Settles O2: an idle step is `tick`, whose commands are those of `dueCommands` in the state that one unit leaves. -/
theorem idleStepPassesOneUnit : Obligations.IdleStepPassesOneUnit := by
  unfold Obligations.IdleStepPassesOneUnit
  intro s hidle
  obtain ⟨hstopped, hbefore, hafter⟩ := pass_cases 1 s.sched
  refine ⟨tick s, by simp only [step, hidle], rfl, hstopped, hbefore, hafter, fun c => ?_, dueCommands_order _⟩
  refine (mem_dueCommands_iff (elapse 1 s) c).trans ?_
  cases c with
  | epochCounterExpiry =>
    refine ⟨fun ⟨hrun, hcome⟩ => ?_, fun ⟨hrun, hcome⟩ => ?_⟩
    · have hrun' : s.sched.running = true := (pass_running 1 s.sched).symm.trans hrun
      exact ⟨hrun', (pass_elapsed hrun').mp hcome⟩
    · exact ⟨(pass_running 1 s.sched).trans hrun, (pass_elapsed hrun).mpr hcome⟩
  | _ => exact Iff.rfl

/-- Settles O12: the defaults and the power-on values of every block are spelled out as the statement has them. -/
theorem powerOnLoadsTheStore : Obligations.PowerOnLoadsTheStore := by
  unfold Obligations.PowerOnLoadsTheStore
  intro s
  simp only [exec, execPowerOn, powerOn, powerOnCells, powerOnMgmt, powerOnSeats, powerOnWindows, powerOnFlags, State.reset,
    CellMemory.reset, Mgmt.reset, Scheduler.reset, Store.load]
  rfl

/-- Settles O13, by the three cases of a link: DOWN and free to rise, UP, held DOWN. -/
theorem linkComesUp : Obligations.LinkComesUp := by
  unfold Obligations.LinkComesUp
  intro p s
  refine ⟨fun hdown hfree => ?_, fun hup => ?_, fun n hp hdis => ?_⟩
  · have hheld : heldDown s p = false := by
      unfold heldDown
      split
      case h_1 n => exact decide_eq_false (hfree n rfl)
      case h_2 => rfl
    simp only [exec, execLinkUp, if_pos (And.intro hdown hheld)]
    rfl
  · simp [exec, execLinkUp, hup]
  · subst hp
    have hheld : heldDown s (.seat n) = true := decide_eq_true hdis
    simp [exec, execLinkUp, hheld]

end Sys2Proof.Proofs
end

section
/-! SUPPORT. The codes and optional fields of request bodies (R190); the requests on stations, each as its rule in the
state after the take (R49 to R51, R104 to R107, R117). -/

namespace Sys2Proof.Laws

open Sys2Proof Sys2Proof.Machine Sys2Proof.Safety

/-! ## Codes and optional fields -/

theorem yesNo_eq_none_iff {c : Nat} : yesNo c = none ↔ 1 < c := by
  match c with
  | 0 => simp [yesNo]
  | 1 => simp [yesNo]
  | n + 2 => simp [yesNo]

theorem yesNo_of_le {c : Nat} (h : c ≤ 1) : yesNo c = some (decide (c = 1)) := by
  interval_cases c <;> rfl

theorem modeOfCode_eq_none_iff {c : Nat} : modeOfCode c = none ↔ c = 0 ∨ 2 < c := by
  match c with
  | 0 => simp [modeOfCode]
  | 1 => simp [modeOfCode]
  | 2 => simp [modeOfCode]
  | n + 3 => simp [modeOfCode]

theorem readCap_eq_none_iff {p v : Nat} : readCap p v = none ↔ 1 < p ∨ p = 1 ∧ v = 0 := by
  match p with
  | 0 => simp [readCap, yesNo]
  | 1 => simp [readCap, yesNo]
  | n + 2 => simp [readCap, yesNo]

/-- A cap code with its value, in the terms of the statements. -/
theorem readCap_of_code {p v : Nat} {cap : Option Nat}
    (h : p = 0 ∧ cap = none ∨ p = 1 ∧ 0 < v ∧ cap = some (min v 16777215)) : readCap p v = some cap := by
  rcases h with ⟨rfl, rfl⟩ | ⟨rfl, hv, rfl⟩
  · rfl
  · simp [readCap, yesNo, Nat.ne_of_gt hv]

theorem readShaping_eq_none {w m p v : Nat} (h : m = 0 ∨ 2 < m ∨ 1 < p ∨ p = 1 ∧ v = 0) : readShaping w m p v = none := by
  unfold readShaping
  split
  case h_1 hm hc =>
    have hmode : ¬ (m = 0 ∨ 2 < m) := fun h => by rw [modeOfCode_eq_none_iff.mpr h] at hm; cases hm
    have hcap : ¬ (1 < p ∨ p = 1 ∧ v = 0) := fun h => by rw [readCap_eq_none_iff.mpr h] at hc; cases hc
    tauto
  case h_2 => rfl

theorem readShaping_of_codes {w m p v : Nat} {mode : Mode} {cap : Option Nat} (hm : modeOfCode m = some mode)
    (hc : p = 0 ∧ cap = none ∨ p = 1 ∧ 0 < v ∧ cap = some (min v 16777215)) :
    readShaping w m p v = some { weight := if w = 0 then 1 else w, cap := cap, mode := mode } := by
  simp only [readShaping, hm, readCap_of_code hc, readWeight]

theorem readAllowance_eq_none {p r b c : Nat} (h : 1 < p ∨ p = 1 ∧ 1 < r) : readAllowance p r b c = none := by
  rcases h with h | ⟨rfl, h⟩
  · simp only [readAllowance, yesNo_eq_none_iff.mpr h]
  · simp only [readAllowance, yesNo_of_le le_rfl, decide_true, yesNo_eq_none_iff.mpr h, Option.map_none]

theorem readAllowance_absent (r b c : Nat) : readAllowance 0 r b c = some none := rfl

theorem readAllowance_given {r : Nat} (b c : Nat) (h : r ≤ 1) :
    readAllowance 1 r b c = some (some { base := b, current := c, renew := decide (r = 1) }) := by
  simp only [readAllowance, yesNo_of_le le_rfl, decide_true, yesNo_of_le h, Option.map_some]

/-! ## Requests that name a station -/

theorem modStation_of_station {t : StationTable} {j : Fin 256} {st : Station} (h : t.station? j = some st)
    (g : Station → Station) : t.modStation j g = { t with slots := t.slots.set j (some (g st)) } := by
  have hslot : t.slots[j] = some st := h
  simp only [StationTable.modStation, hslot, Option.map_some]

theorem station?_set_self (t : StationTable) (j : Fin 256) (o : Option Station) (held : List (Fin 256)) :
    ({ slots := t.slots.set j o, held := held } : StationTable).station? j = o := by
  simp [StationTable.station?]

theorem answerStation_of_station (k : Fin 4) {j : Fin 256} {s : State} {st : Station} (h : s.station? j = some st) :
    answerStation k j s = answer k (stationView s j st) s := by
  simp only [answerStation, h]

theorem onStation_of_station {k : Fin 4} {a : LinkAddr} {rule : Fin 256 → Station → State → State} {s : State}
    {j : Fin 256} {st : Station} (ha : s.table.byAddr a = some j) (hst : s.station? j = some st) :
    onStation k a rule s = rule j st s := by
  simp only [onStation, ha, hst]

theorem isLeaving_iff {st : Station} : st.isLeaving = true ↔ ∃ why, st.state = .leaving why := by
  unfold Station.isLeaving
  split
  case h_1 why h => simp [h]
  case h_2 h => simpa using h

section
variable {s : State} {fs : List CellFault} {k : Fin 4} {rq : Request} {j : Fin 256} {st : Station}

/-- The table that a request's rule finds is the one before the take (R169). -/
theorem afterTake_station (hst : s.station? j = some st) : (afterTake s fs).station? j = some st := by
  obtain ⟨-, htable, -⟩ := afterTake_kept s fs
  exact (congrArg (fun t : StationTable => t.station? j) htable).trans hst

theorem afterTake_table : (afterTake s fs).table = s.table := (afterTake_kept s fs).2.1

theorem afterTake_byAddr {a : LinkAddr} (ha : s.table.byAddr a = some j) :
    (afterTake s fs).table.byAddr a = some j := by
  obtain ⟨-, htable, -⟩ := afterTake_kept s fs
  rw [htable, ha]

/-- A request that names a station with a record is carried out on that record. -/
theorem takes_onStation {a : LinkAddr} {rule : Fin 256 → Station → State → State} (ha : s.table.byAddr a = some j)
    (hst : s.station? j = some st) : onStation k a rule (afterTake s fs) = rule j st (afterTake s fs) :=
  onStation_of_station (afterTake_byAddr ha) (afterTake_station hst)

/-- The take of a request that goes on changes Cell Memory and the Management Unit alone (R169). -/
theorem afterTake_eq (ht : Takes s fs k rq) : afterTake s fs = { s with hub := (afterTake s fs).hub } := by
  obtain ⟨e, f, hready, hread, hsrc, -⟩ := ht
  simp only [afterTake, hready, takeInto, hread, hsrc]
  rfl

theorem afterTake_ports (ht : Takes s fs k rq) : (afterTake s fs).ports = s.ports := by rw [afterTake_eq ht]

end

/-! ## What the station requests make of the record -/

section
variable {s : State} {j : Fin 256} {st : Station}

theorem unbarRecord_eq (b : Admission) (h : s.station? j = some st) : unbarRecord j b s = { s with table :=
    { slots := s.table.slots.set j (some { st with state := b.state })
      held := if b = .held then toHeldEnd j s.table.held else s.table.held } } := by
  rw [unbarRecord, onTable, modStation_of_station h]

theorem unbarRecord_station (b : Admission) (h : s.station? j = some st) :
    (unbarRecord j b s).station? j = some { st with state := b.state } := by
  rw [unbarRecord_eq b h]
  exact station?_set_self _ _ _ _

end

end Sys2Proof.Laws

namespace Sys2Proof.Proofs

open Sys2Proof Sys2Proof.Machine Sys2Proof.Safety Sys2Proof.Laws

/-- Settles O45, by the state of the record (R51). -/
theorem unbarRestores : Obligations.UnbarRestores := by
  unfold Obligations.UnbarRestores
  intro s fs k rq j st ht hc ha hst
  have hexec : exec (.unbar fs) s = .next (ruleUnbar k rq (afterTake s fs)) :=
    congrArg Host.Outcome.next (takeRequest_of_takes ht (isCode_of_eq hc))
  rw [hexec, ruleUnbar, takes_onStation ha hst]
  refine ⟨fun hl => ?_, fun b hb => ?_, fun b hb => ?_⟩
  · obtain ⟨why, hs⟩ := isLeaving_iff.mp hl
    simp only [hs]
  · cases b <;> simp only [hb, Admission.state]
  · have ht' := afterTake_station (fs := fs) hst
    simp only [hb, answerStation_of_station k (unbarRecord_station b ht')]
    simp only [unbarRecord_eq b ht', afterTake_table, toHeldEnd]

end Sys2Proof.Proofs
end

section
/-! The statements on ADMIT, SET_ALLOWANCE, RENEW and SET_SHAPING (chapters 3, 6 and 7). -/

namespace Sys2Proof.Laws

open Sys2Proof Sys2Proof.Machine Sys2Proof.Safety

/-! ## The bodies -/

theorem readAdmit_eq_none {r : Request} (h : 3 < r.num 6 1 ∨ (r.num 8 1 = 0 ∨ 2 < r.num 8 1) ∨ 1 < r.num 9 1 ∨
    r.num 9 1 = 1 ∧ r.num 10 4 = 0 ∨ 1 < r.num 16 1 ∨ r.num 16 1 = 1 ∧ (1 < r.num 17 1 ∨ r.num 24 4 = 0)) :
    readAdmit r = none := by
  unfold readAdmit
  split
  case h_1 sh al hsh hal =>
    rw [if_pos]
    by_contra hok
    rw [not_or] at hok
    have hshape : ¬ (r.num 8 1 = 0 ∨ 2 < r.num 8 1 ∨ 1 < r.num 9 1 ∨ r.num 9 1 = 1 ∧ r.num 10 4 = 0) := fun h => by
      rw [readShaping_eq_none h] at hsh
      cases hsh
    have hallow : ¬ (1 < r.num 16 1 ∨ r.num 16 1 = 1 ∧ 1 < r.num 17 1) := fun h => by
      rw [readAllowance_eq_none h] at hal
      cases hal
    have hzero : ¬ (r.num 16 1 = 1 ∧ r.num 17 1 ≤ 1 ∧ r.num 24 4 = 0) := fun ⟨hp, hr, hz⟩ => by
      rw [hp, readAllowance_given _ _ hr] at hal
      cases hal
      exact hok.2 (congrArg some hz)
    omega
  case h_2 => rfl

theorem readAdmit_eq_some {r : Request} {sh : Shaping} {g : Option GivenAllowance} (htier : r.num 6 1 ≤ 3)
    (hsh : readShaping (r.num 7 1) (r.num 8 1) (r.num 9 1) (r.num 10 4) = some sh)
    (hg : readAllowance (r.num 16 1) (r.num 17 1) (r.num 20 4) (r.num 24 4) = some g)
    (hz : g.map (·.current) ≠ some 0) :
    readAdmit r = some { tier := r.num 6 1, allowance := g, shaping := sh, idle := r.num 14 2 } := by
  simp only [readAdmit, hsh, hg]
  exact if_neg (not_or.mpr ⟨Nat.not_lt.mpr htier, hz⟩)

/-- The allowance of an ADMIT body, in the terms of the statement (R49). -/
theorem readAllowance_fresh {p r b c : Nat} {al : Option Allowance}
    (h : p = 0 ∧ al = none ∨ p = 1 ∧ r ≤ 1 ∧ 0 < c ∧
      al = some { base := b, current := c, renew := decide (r = 1), renewals := 0, overrun := 0 }) :
    ∃ g, readAllowance p r b c = some g ∧ g.map (·.current) ≠ some 0 ∧ g.map GivenAllowance.fresh = al := by
  rcases h with ⟨rfl, rfl⟩ | ⟨rfl, hr, hc, rfl⟩
  · exact ⟨none, rfl, by simp, rfl⟩
  · exact ⟨_, readAllowance_given b c hr, by simpa using Nat.ne_of_gt hc, rfl⟩

/-! ## The records -/

section
variable {s : State} {j : Fin 256} {st : Station}

theorem admitRecord_eq (b : AdmitBody) (pend : Bool) (h : s.station? j = some st) : admitRecord j b pend s = { s with table :=
    { slots := s.table.slots.set j (some (st.admitWith b s.now pend)), held := fromHeld j s.table.held } } := by
  rw [admitRecord, onTable, modStation_of_station h]

theorem admitRecord_station (b : AdmitBody) (pend : Bool) (h : s.station? j = some st) :
    (admitRecord j b pend s).station? j = some (st.admitWith b s.now pend) := by
  rw [admitRecord_eq b pend h]
  exact station?_set_self _ _ _ _

theorem onTable_modStation_eq (g : Station → Station) (h : s.station? j = some st) :
    onTable (StationTable.modStation j g) s =
      { s with table := { s.table with slots := s.table.slots.set j (some (g st)) } } := by
  rw [onTable, modStation_of_station h]

theorem onTable_modStation_station (g : Station → Station) (h : s.station? j = some st) :
    (onTable (StationTable.modStation j g) s).station? j = some (g st) := by
  rw [onTable_modStation_eq g h]
  exact station?_set_self _ _ _ _

end

/-- Two changes of a record that make the same of it are one change of the table. -/
theorem modStation_congr {t : StationTable} {j : Fin 256} {st : Station} {g g' : Station → Station}
    (h : t.station? j = some st) (hg : g st = g' st) : t.modStation j g = t.modStation j g' := by
  rw [modStation_of_station h, modStation_of_station h, hg]

/-- The record that SET_ALLOWANCE stores: this allowance and this state (R104, R105). -/
def Allotted (al : Option Allowance) (x : StationState) (r : Station) : Station := { r with allowance := al, state := x }

/-- What SET_ALLOWANCE stores in a record: the allowance over the old one, and the state that it leaves (R104, R105). -/
theorem storeAllowance_eq {s : State} {j : Fin 256} {st : Station} {g : Option GivenAllowance}
    (h : s.station? j = some st) : storeAllowance j st g s =
      if g.map (·.current) = some 0 ∧ st.state.active = true then
        exhaust j .setAllowance 0 { s with
          table := s.table.modStation j (Allotted (g.map (GivenAllowance.over st.allowance)) st.state) }
      else { s with
        table := s.table.modStation j (Allotted (g.map (GivenAllowance.over st.allowance))
          (if g.map (·.current) = some 0 then st.state else st.state.restored)) } := by
  have hstored : onTable (StationTable.modStation j (Station.withAllowance g)) s =
      { s with
        table := s.table.modStation j (Allotted (g.map (GivenAllowance.over st.allowance))
          (if g.map (·.current) = some 0 then st.state else st.state.restored)) } := by
    have htable : s.table.station? j = some st := h
    rw [onTable, modStation_congr htable (g' := Allotted (g.map (GivenAllowance.over st.allowance)) _)]
    rfl
  rw [storeAllowance, hstored]
  by_cases hz : g.map (·.current) = some 0 <;> simp [hz]

section
variable {s : State} {fs : List CellFault} {k : Fin 4} {rq : Request}

theorem afterTake_now : (afterTake s fs).now = s.now := (afterTake_kept s fs).1.now

theorem afterTake_sched : (afterTake s fs).sched = s.sched := (afterTake_kept s fs).1.sched

end

end Sys2Proof.Laws

namespace Sys2Proof.Proofs

open Sys2Proof Sys2Proof.Machine Sys2Proof.Safety Sys2Proof.Laws

section
variable {s : State} {fs : List CellFault} {k : Fin 4} {rq : Request} {j : Fin 256} {st : Station}

/-- The rule of ADMIT on a HELD or SPENT record, whose body is read (R49). -/
theorem ruleAdmit_of_waiting (ha : s.table.byAddr (rq.addr 0) = some j) (hst : s.station? j = some st)
    (hs : st.state = .held ∨ st.state = .spent) : ruleAdmit k rq (afterTake s fs) = match readAdmit rq with
      | none => refuse k .badValue (afterTake s fs)
      | some b => answerStation k j (admitRecord j b (decide (st.state = .spent) && s.sched.running) (afterTake s fs)) := by
  rw [ruleAdmit, takes_onStation ha hst]
  rcases hs with hs | hs <;> simp only [hs, afterTake_sched] <;> rfl

end

/-- Settles O43, by the state of the record and the reading of the body (R49). -/
theorem admitAdmits : Obligations.AdmitAdmits := by
  unfold Obligations.AdmitAdmits
  intro s fs k rq j st ht hc ha hst
  have hexec : exec (.admitStation fs) s = .next (ruleAdmit k rq (afterTake s fs)) :=
    congrArg Host.Outcome.next (takeRequest_of_takes ht (isCode_of_eq hc))
  rw [hexec]
  refine ⟨fun hl => ?_, fun hs => ?_, fun hs => ⟨fun hbad => ?_, fun m cap al htier hm hcap hal => ?_⟩⟩
  · obtain ⟨why, hs⟩ := isLeaving_iff.mp hl
    rw [ruleAdmit, takes_onStation ha hst]
    simp only [hs]
  · rw [ruleAdmit, takes_onStation ha hst]
    rcases hs with hs | ⟨b, hs⟩ <;> simp only [hs]
  · rw [ruleAdmit_of_waiting ha hst hs, readAdmit_eq_none hbad]
  · obtain ⟨g, hg, hz, rfl⟩ := readAllowance_fresh hal
    have ht' := afterTake_station (fs := fs) hst
    rw [ruleAdmit_of_waiting ha hst hs, readAdmit_eq_some htier (readShaping_of_codes hm hcap) hg hz]
    simp only [answerStation_of_station k (admitRecord_station _ _ ht')]
    simp only [admitRecord_eq _ _ ht', afterTake_table, afterTake_now, Station.admitWith, fromHeld]

/-- Settles O49 (R117). -/
theorem setShapingStores : Obligations.SetShapingStores := by
  unfold Obligations.SetShapingStores
  intro s fs k rq j st ht hc ha hst
  have hexec : exec (.setShaping fs) s = .next (ruleSetShaping k rq (afterTake s fs)) :=
    congrArg Host.Outcome.next (takeRequest_of_takes ht (isCode_of_eq hc))
  rw [hexec, ruleSetShaping, takes_onStation ha hst]
  refine ⟨fun hl => ?_, fun hl hbad => ?_, fun m cap hl hm hcap => ?_⟩
  · simp only [hl, if_true]
  · simp only [hl, Bool.false_eq_true, if_false, readSetShaping, readShaping_eq_none hbad]
  · have ht' := afterTake_station (fs := fs) hst
    simp only [hl, Bool.false_eq_true, if_false, readSetShaping, readShaping_of_codes hm hcap,
      answerStation_of_station k (onTable_modStation_station _ ht')]
    simp only [onTable_modStation_eq _ ht', afterTake_table, afterTake_sched, Station.withShaping]

/-- Settles O47: the body is read, stored over the old allowance, and a current of 0 exhausts an ADMITTED record (R104,
R105). -/
theorem setAllowanceStores : Obligations.SetAllowanceStores := by
  unfold Obligations.SetAllowanceStores
  intro s fs k rq j st ht hc ha hst
  have hexec : exec (.setAllowance fs) s = .next (ruleSetAllowance k rq (afterTake s fs)) :=
    congrArg Host.Outcome.next (takeRequest_of_takes ht (isCode_of_eq hc))
  rw [hexec, ruleSetAllowance, takes_onStation ha hst]
  refine ⟨fun hl => ?_, fun hs => ?_, fun hs => ?_⟩
  · simp only [hl, if_true]
  · rcases hs with hs | hs <;> simp [Station.isLeaving, StationState.neverAdmitted, hs]
  · have ht' := afterTake_station (fs := fs) hst
    have hfree : st.isLeaving = false ∧ st.state.neverAdmitted = false := by
      rcases hs with hs | hs | hs | hs <;> simp [Station.isLeaving, StationState.neverAdmitted, hs]
    simp only [hfree, Bool.false_eq_true, if_false, readSetAllowance]
    refine ⟨fun hbad => ?_, fun hp => ?_, fun hp hr hpos => ?_, fun hp hr hzero => ⟨fun hs' => ?_, fun hs' => ?_⟩⟩
    · simp only [readAllowance_eq_none hbad]
    · simp only [hp, readAllowance_absent, storeAllowance_eq ht', afterTake_table]
      rfl
    · have hne : ¬ (some (rq.num 12 4) = some 0) := by simpa using Nat.ne_of_gt hpos
      simp only [hp, readAllowance_given _ _ hr, storeAllowance_eq ht', afterTake_table, Option.map_some, hne, false_and,
        if_false]
      rfl
    · have hidle : ¬ st.state.active = true := by
        rcases hs' with hs' | hs' <;> simp [hs', StationState.active]
      simp only [hp, readAllowance_given _ _ hr, storeAllowance_eq ht', afterTake_table, Option.map_some, hzero, hidle,
        and_false, if_false, if_true]
      rfl
    · have hactive : st.state.active = true := by
        rcases hs' with hs' | hs' <;> simp [hs', StationState.active]
      simp only [hp, readAllowance_given _ _ hr, storeAllowance_eq ht', afterTake_table, Option.map_some, hzero, hactive,
        and_self, if_true]
      rfl

end Sys2Proof.Proofs
end

section
/-! SUPPORT. Which records the stored frames name after an operation, and what a purge of a record's unicasts leaves in an
egress queue. -/

namespace Sys2Proof.Laws

open Sys2Proof Sys2Proof.Machine Sys2Proof.Safety

/-! ## The records that frames name -/

/-- No frame names a record that it did not name before. -/
def NamesFrom (c c' : CellMemory) : Prop := ∀ id k, c'.owner id = some k → c.owner id = some k

theorem NamesFrom.refl (c : CellMemory) : NamesFrom c c := fun _ _ h => h

theorem NamesFrom.trans {a b c : CellMemory} (h : NamesFrom a b) (g : NamesFrom b c) : NamesFrom a c :=
  fun id k hk => h id k (g id k hk)

theorem NamesFrom.ofFrames {c c' : CellMemory} (h : c'.frames = c.frames) : NamesFrom c c' := fun id k hk => by
  rwa [CellMemory.owner, CellMemory.frame?, h] at hk

theorem NamesFrom.ofAppend {c c' : CellMemory} {new : List FrameRec} (h : c'.frames = c.frames ++ new)
    (hnew : ∀ f ∈ new, f.station = none) : NamesFrom c c' := fun id k hk => by
  rw [CellMemory.owner, CellMemory.frame?, h, List.find?_append] at hk
  rw [CellMemory.owner, CellMemory.frame?]
  cases hf : c.frames.find? (fun f => f.id == id) with
  | some f => rwa [hf, Option.some_or] at hk
  | none =>
    rw [hf, Option.none_or] at hk
    obtain ⟨f, hmem, hst⟩ := Option.bind_eq_some_iff.mp hk
    rw [hnew f (List.mem_of_find?_eq_some hmem)] at hst
    cases hst

theorem AddsNotices.names {h h' : Hub} (a : AddsNotices h h') : NamesFrom h.cells h'.cells := by
  obtain ⟨new, hframes, hnew, -⟩ := a
  exact .ofAppend hframes (fun f hf => (hnew f hf).2.2)

theorem noteEntered_names (sd : Sender) (e : Option Nat) (h : Hub) : NamesFrom h.cells (h.noteEntered sd e).cells := by
  cases e with
  | none => exact .refl _
  | some held => exact ((AddsNotices.sameCells (flag_cells _ _)).trans (raiseCore_adds sd _ _)).names

theorem build_names {kind : FrameKind} {bytes : List Byte} {h h' : Hub} {id : Nat} {e : Option Nat}
    (hb : h.build kind bytes = some (id, h', e)) : NamesFrom h.cells h'.cells := by
  obtain ⟨_, _, _, _, _, _, hframes, _⟩ := build_spec hb
  exact .ofAppend hframes (by simp)

theorem dropRef_names (sd : Sender) (id : Nat) (h : Hub) : NamesFrom h.cells (h.dropRef sd id).cells :=
  fun _ _ hk => dropRef_owner_some sd h hk

theorem buildReply_names {k : Fin 4} {h : ReqHeader} {c : ReplyContent} {s t : State} (hb : buildReply k h c s = some t) :
    NamesFrom s.hub.cells t.hub.cells := by
  unfold buildReply at hb
  split at hb
  · cases hb
  · rename_i id h1 e hbuild
    have hbuilt := (build_names hbuild).trans (noteEntered_names s.sender e h1)
    split at hb <;> cases hb
    · exact hbuilt.trans (dropRef_names s.sender id (Hub.freeSlot k (h1.noteEntered s.sender e)))
    · exact hbuilt

/-- The oldest waiting reply is built, or nothing changes (R172). -/
theorem buildOldest_cases (s : State) : buildOldest s = s ∨ ∃ k h c, buildReply k h c s = some (buildOldest s) := by
  unfold buildOldest
  split
  · exact .inl rfl
  · rename_i k _ _
    split
    · rename_i h c _ _
      cases hb : buildReply k h c s with
      | none => exact .inl rfl
      | some t => exact .inr ⟨k, h, c, hb⟩
    · exact .inl rfl

/-- The contents of a reply are fixed in its slot, and it is built or waits (R172). -/
theorem fixReply_cases (k : Fin 4) (c : ReplyContent) (b : Bool) (s : State) : fixReply k c b s = s ∨ ∃ m,
    fixReply k c b s = { s with hub := { s.hub with mgmt := m } } ∨
      fixReply k c b s = buildOldest { s with hub := { s.hub with mgmt := m } } := by
  unfold fixReply
  split
  · exact .inl rfl
  · simp only
    split
    · exact .inr ⟨_, .inr rfl⟩
    · exact .inr ⟨_, .inl rfl⟩

theorem buildOldest_names (s : State) : NamesFrom s.hub.cells (buildOldest s).hub.cells := by
  rcases buildOldest_cases s with h | ⟨k, h, c, hb⟩
  · rw [h]
    exact .refl _
  · exact buildReply_names hb

theorem fixReply_names (k : Fin 4) (c : ReplyContent) (b : Bool) (s : State) :
    NamesFrom s.hub.cells (fixReply k c b s).hub.cells := by
  rcases fixReply_cases k c b s with h | ⟨m, h | h⟩ <;> rw [h]
  · exact .refl _
  · exact .refl _
  · exact buildOldest_names { s with hub := { s.hub with mgmt := m } }

theorem discardEntries_names (r : Discard) (b : Option Port) (ids : List Nat) (s : State) :
    NamesFrom s.hub.cells (discardEntries r b ids s).hub.cells := by
  induction ids generalizing s with
  | nil => exact .refl _
  | cons id ids ih => exact NamesFrom.trans (dropRef_names s.sender id (Hub.tally r s.hub)) (ih _)

theorem purgeUpward_eq (k : Fin 256) (s : State) : ∃ ids b, b.hub = s.hub ∧ b.ports = s.ports ∧
    purgeUpward k s = discardEntries .purge none ids b :=
  ⟨_, { s with table := s.table.modStation k (fun st => { st with upq := [] })
               up := { s.up with run := endRun k s.up.run } }, rfl, rfl, rfl⟩

theorem purgeUpward_names (k : Fin 256) (s : State) : NamesFrom s.hub.cells (purgeUpward k s).hub.cells := by
  obtain ⟨ids, b, hh, -, hu⟩ := purgeUpward_eq k s
  rw [hu, ← hh]
  exact discardEntries_names _ _ _ _

theorem emptySlot_names (k : Fin 256) (s : State) : NamesFrom s.hub.cells (emptySlot k s).hub.cells := fun id j hj => by
  have hf : (s.hub.cells.disown k s.up.onboard).frame? id = (s.hub.cells.frame? id).map (fun f =>
      if f.station = some k ∧ f.id ∈ s.up.onboard then { f with station := none } else f) := by
    have hid : (fun f : FrameRec => ((if f.station = some k ∧ f.id ∈ s.up.onboard then { f with station := none } else f :
        FrameRec).id == id)) = fun f => f.id == id := by
      funext f
      split <;> rfl
    simp only [CellMemory.frame?, CellMemory.disown, List.find?_map, Function.comp_def, hid]
  have ho : ((s.hub.cells.disown k s.up.onboard).frame? id).bind (·.station) = some j := hj
  rw [hf] at ho
  cases hfr : s.hub.cells.frame? id with
  | none => simp [hfr] at ho
  | some f =>
    rw [hfr] at ho
    simp only [Option.map_some, Option.bind_some] at ho
    split at ho
    · cases ho
    · rw [CellMemory.owner, hfr]
      exact ho

/-! ## What replies leave alone of the ports -/

theorem buildReply_sameQueues {k : Fin 4} {h : ReqHeader} {c : ReplyContent} {s t : State}
    (hb : buildReply k h c s = some t) : SameQueues s.ports t.ports := by
  unfold buildReply at hb
  split at hb
  · cases hb
  · split at hb <;> cases hb
    · exact count_sameQueues ..
    · exact .refl _

theorem buildOldest_sameQueues (s : State) : SameQueues s.ports (buildOldest s).ports := by
  rcases buildOldest_cases s with h | ⟨k, h, c, hb⟩
  · rw [h]
    exact .refl _
  · exact buildReply_sameQueues hb

theorem fixReply_sameQueues (k : Fin 4) (c : ReplyContent) (b : Bool) (s : State) :
    SameQueues s.ports (fixReply k c b s).ports := by
  rcases fixReply_cases k c b s with h | ⟨m, h | h⟩ <;> rw [h]
  · exact .refl _
  · exact .refl _
  · exact buildOldest_sameQueues { s with hub := { s.hub with mgmt := m } }

/-! ## The egress queue of an origin after a purge -/

/-- The egress queue of a seat port in `u` is that of `s` without the unicasts of the record in slot `k`. -/
def SeatPurged (k : Fin 256) (n : Fin 32) (s u : State) : Prop :=
  ((u.ports.seats[n]).egress).Sublist (s.ports.seats[n]).egress ∧
  (∀ id ∈ (u.ports.seats[n]).egress, u.hub.cells.owner id ≠ some k) ∧
  ∀ id ∈ (s.ports.seats[n]).egress, s.hub.cells.owner id ≠ some k → id ∈ (u.ports.seats[n]).egress

/-- The egress queue of a radio in `u` is that of `s` without the unicasts of the record in slot `k`. -/
def RadioPurged (k : Fin 256) (w : Fin 4) (s u : State) : Prop :=
  ((u.ports.radios[w]).egress).Sublist (s.ports.radios[w]).egress ∧
  (∀ e ∈ (u.ports.radios[w]).egress, u.hub.cells.owner e.id ≠ some k) ∧
  ∀ e ∈ (s.ports.radios[w]).egress, s.hub.cells.owner e.id ≠ some k → e ∈ (u.ports.radios[w]).egress

/-- The egress queue of an origin in `u` is that of `s` without the unicasts of the record in slot `k` (R48, R159). -/
structure UnicastsGone (k : Fin 256) (o : Origin) (s u : State) : Prop where
  seat : ∀ n, o = .seat n → SeatPurged k n s u
  radio : ∀ w i, o = .radio w i → RadioPurged k w s u

/-- Whether two states have the same entries in their egress queues. -/
structure SameEgress (s u : State) : Prop where
  seat : ∀ n : Fin 32, (u.ports.seats[n]).egress = (s.ports.seats[n]).egress
  radio : ∀ w : Fin 4, (u.ports.radios[w]).egress = (s.ports.radios[w]).egress

theorem SameQueues.egress {s u : State} (h : SameQueues s.ports u.ports) : SameEgress s u := ⟨h.seat, h.radio⟩

theorem SameEgress.ofPorts {s u : State} (h : u.ports = s.ports) : SameEgress s u := ⟨fun _ => by rw [h], fun _ => by rw [h]⟩

variable {k : Fin 256} {o : Origin} {s u v : State}

/-- What comes after a purge, and names no record anew, leaves the queue purged. -/
theorem UnicastsGone.after (h : UnicastsGone k o s u) (hq : SameEgress u v) (hn : NamesFrom u.hub.cells v.hub.cells) :
    UnicastsGone k o s v where
  seat n ho := by
    obtain ⟨hsub, hgone, hkept⟩ := h.seat n ho
    rw [SeatPurged, hq.seat n]
    exact ⟨hsub, fun id hid hk => hgone id hid (hn id k hk), hkept⟩
  radio w i ho := by
    obtain ⟨hsub, hgone, hkept⟩ := h.radio w i ho
    rw [RadioPurged, hq.radio w]
    exact ⟨hsub, fun e he hk => hgone e he (hn e.id k hk), hkept⟩

/-- What comes before a purge, and names no record anew, leaves the queue to it. -/
theorem UnicastsGone.before (h : UnicastsGone k o u v) (hq : SameEgress s u) (hn : NamesFrom s.hub.cells u.hub.cells) :
    UnicastsGone k o s v where
  seat n ho := by
    obtain ⟨hsub, hgone, hkept⟩ := h.seat n ho
    rw [hq.seat n] at hsub hkept
    exact ⟨hsub, hgone, fun id hid hk => hkept id hid (fun hu => hk (hn id k hu))⟩
  radio w i ho := by
    obtain ⟨hsub, hgone, hkept⟩ := h.radio w i ho
    rw [hq.radio w] at hsub hkept
    exact ⟨hsub, hgone, fun e he hk => hkept e he (fun hu => hk (hn e.id k hu))⟩

theorem purgeSeatEgress_gone (k : Fin 256) (n : Fin 32) (s : State) : SeatPurged k n s (purgeSeatEgress k n s) := by
  have hq : ((purgeSeatEgress k n s).ports.seats[n]).egress =
      (s.ports.seats[n]).egress.filter (fun id => !s.hub.cells.names k id) := by
    refine ((discardEntries_sameQueues .purge (some (.seat n)) _ _).seat n).trans ?_
    exact congrArg SeatPort.egress (modSeat_self s.ports n _)
  rw [SeatPurged, hq]
  refine ⟨List.filter_sublist, fun id hid hk => ?_, fun id hid hk => List.mem_filter.mpr ⟨hid, by simpa [CellMemory.names]⟩⟩
  have hold := discardEntries_names .purge (some (.seat n)) _ _ id k hk
  simpa [CellMemory.names, show s.hub.cells.owner id = some k from hold] using (List.mem_filter.mp hid).2

theorem purgeRadioEgress_gone (k : Fin 256) (w : Fin 4) (s : State) : RadioPurged k w s (purgeRadioEgress k w s) := by
  have hq : ((purgeRadioEgress k w s).ports.radios[w]).egress =
      (s.ports.radios[w]).egress.filter (fun e => !s.hub.cells.names k e.id) := by
    refine ((discardEntries_sameQueues .purge (some (.radio w)) _ _).radio w).trans ?_
    exact congrArg RadioLink.egress (modRadio_self s.ports w _)
  rw [RadioPurged, hq]
  refine ⟨List.filter_sublist, fun e he hk => ?_, fun e he hk => List.mem_filter.mpr ⟨he, by simpa [CellMemory.names]⟩⟩
  have hold := discardEntries_names .purge (some (.radio w)) _ _ e.id k hk
  simpa [CellMemory.names, show s.hub.cells.owner e.id = some k from hold] using (List.mem_filter.mp he).2

theorem purgeEgress_gone (k : Fin 256) (o : Origin) (s : State) : UnicastsGone k o s (purgeEgress k o s) where
  seat n ho := by subst ho; exact purgeSeatEgress_gone k n s
  radio w i ho := by subst ho; exact purgeRadioEgress_gone k w s

theorem purgeUpward_sameQueues (k : Fin 256) (s : State) : SameQueues s.ports (purgeUpward k s).ports := by
  obtain ⟨ids, b, -, hp, hu⟩ := purgeUpward_eq k s
  rw [hu, ← hp]
  exact discardEntries_sameQueues ..

/-- Both queues of a record purged (R53). -/
theorem purge_gone (k : Fin 256) (o : Origin) (s : State) : UnicastsGone k o s (purgeEgress k o (purgeUpward k s)) :=
  (purgeEgress_gone k o _).before (purgeUpward_sameQueues k s).egress (purgeUpward_names k s)

end Sys2Proof.Laws
end

section
/-! The statements on BAR, RELEASE and RENEW (chapters 3 and 6). -/

namespace Sys2Proof.Laws

open Sys2Proof Sys2Proof.Machine Sys2Proof.Safety

section
variable {k j : Fin 256} {st : Station} {o : Origin} {upq : List Nat} {s s' u : State}

/-- A purge from a state counts what it counts from one that differs in no counter, queue or other record. -/
theorem purgeCounts_of_source (h : PurgeCounts k upq o s' u) (hub : s'.hub = s.hub) (ports : s'.ports = s.ports)
    (own : ∀ st, s.station? k = some st → ∃ st', s'.station? k = some st' ∧ st'.ctr = st.ctr)
    (others : ∀ j, j ≠ k → s'.station? j = s.station? j) : PurgeCounts k upq o s u := by
  have hlen : egressLength s' o = egressLength s o := by cases o <;> simp only [egressLength, ports]
  have hmine : unicastsAt s' k o = unicastsAt s k o := by cases o <;> simp only [unicastsAt, ports, hub]
  obtain ⟨⟨htally, hdrops⟩, hown⟩ := h
  rw [hlen, hmine, hub] at hown
  simp only [hub, ports, hlen] at htally hdrops
  refine ⟨⟨htally, hdrops⟩, fun hn ho => ?_⟩
  obtain ⟨hleft, hctr, hrest⟩ := hown hn ho
  refine ⟨hleft, fun st0 st1 h0 h1 => ?_, fun i hi => (hrest i hi).trans (others i hi)⟩
  obtain ⟨st', h', hc⟩ := own st0 h0
  rw [hctr st' st1 h' h1]
  simp only [moreDrops, hc]

/-- A state that differs in no tally count, port or counter of the record counts the same. -/
theorem purgeCounts_of_target {v : State} (h : PurgeCounts k upq o s u) (tally : ∀ r, v.hub.tallyOf r = u.hub.tallyOf r)
    (ports : v.ports = u.ports) (own : ∀ st', v.station? k = some st' → ∃ st, u.station? k = some st ∧ st.ctr = st'.ctr)
    (others : ∀ j, j ≠ k → v.station? j = u.station? j) : PurgeCounts k upq o s v := by
  have hlen : egressLength v o = egressLength u o := by cases o <;> simp only [egressLength, ports]
  obtain ⟨⟨htally, hdrops⟩, hown⟩ := h
  rw [← hlen] at hown htally hdrops
  refine ⟨⟨fun r => (tally r).trans (htally r), fun q => ports ▸ hdrops q⟩, fun hn ho => ?_⟩
  obtain ⟨hleft, hctr, hrest⟩ := hown hn ho
  refine ⟨hleft, fun st0 st1 h0 h1 => ?_, fun i hi => (others i hi).trans (hrest i hi)⟩
  obtain ⟨st', h', hc⟩ := own st1 h1
  rw [← hc, hctr st0 st' h0 h']

theorem setStationState_self (x : StationState) (h : s.station? j = some st) :
    (setStationState j x s).station? j = some { st with state := x } := by
  have := station?_modStation_self s.table j (fun r => { r with state := x })
  rw [show s.table.station? j = some st from h] at this
  exact this

theorem setStationState_ne (x : StationState) {i : Fin 256} (hi : i ≠ j) :
    (setStationState j x s).station? i = s.station? i := station?_modStation_ne s.table _ hi

/-- What BAR does to the part (R48, R50). -/
theorem barRecord_spec (b : Admission) (h : s.station? j = some st) :
    let u := barRecord j st b s
    (∃ st', u.station? j = some st' ∧ apartFromDrops st' = apartFromDrops { st with state := .barred b, upq := [] }) ∧
      PurgeCounts j st.upq st.origin s u ∧ u.table.held = s.table.held.filter (fun i => decide (i ≠ j)) ∧
      UnicastsGone j st.origin s u ∧ (∀ w : Fin 4, (u.ports.radios[w]).orders = (s.ports.radios[w]).orders) ∧
      (∀ i r, i ≠ j → s.station? i = some r → ∃ r', u.station? i = some r' ∧ apartFromDrops r' = apartFromDrops r) ∧
      u.up.onboard = s.up.onboard ∧ Kept s u := by
  have hbar := setStationState_self (.barred b) h
  obtain ⟨hcounts, ⟨n, hn⟩, hothers, horders, hheld, -, honboard⟩ := purge_purged st.origin hbar
  have hcounts : PurgeCounts j st.upq st.origin s (barRecord j st b s) :=
    PurgeCounts_congr (purgeCounts_of_source (s := s) hcounts rfl rfl (fun r hr => ?_) (fun i => setStationState_ne _)) rfl (fun _ => rfl)
      rfl (fun _ => rfl)
  · refine ⟨⟨_, hn, rfl⟩, hcounts, congrArg (fromHeld j) hheld,
      ((purge_gone j st.origin (setStationState j (.barred b) s)).before (s := s) (.ofPorts rfl) (.refl _)).after
        (v := barRecord j st b s) (.ofPorts rfl) (.refl _), horders, fun i r hi hr => ?_, honboard, ?_⟩
    · obtain ⟨m, hm⟩ := hothers i r hi ((setStationState_ne _ hi).trans hr)
      exact ⟨_, hm, rfl⟩
    · exact (((onTable_kept _ s).trans (purgeUpward_kept j _)).trans (purgeEgress_kept j _ _)).trans (onTable_kept _ _)
  · obtain rfl := Option.some.inj (h.symm.trans hr)
    exact ⟨_, hbar, rfl⟩

theorem sendOrder_egress (w : Fin 4) (x : Order) (s : State) : SameEgress s (sendOrder w x s) := by
  refine ⟨fun _ => rfl, fun v => ?_⟩
  by_cases hv : v = w
  · subst hv
    show ((Ports.modRadio v _ s.ports).radios[v]).egress = _
    rw [modRadio_self]
  · have hval : w.val ≠ v.val := fun e => hv (Fin.ext e.symm)
    simp [sendOrder, onPorts, Ports.modRadio, hval]

/-- The start of a removal leaves no unicast of the record in the egress queue of its origin (R53). -/
theorem beginRemoval_gone (why : Reason) : UnicastsGone k st.origin s (beginRemoval k st why s) := by
  have hpurge := (purge_gone k st.origin s).after (v := onTable (fun t => { t with held := fromHeld k t.held })
    (purgeEgress k st.origin (purgeUpward k s))) (.ofPorts rfl) (.refl _)
  unfold beginRemoval
  simp only
  split
  · split
    · exact hpurge.after (sendOrder_egress ..) (.refl _)
    · exact hpurge
  · exact hpurge

theorem emptySlot_ne {i : Fin 256} (hi : i ≠ j) : (emptySlot j s).station? i = s.station? i := by
  have hval : j.val ≠ i.val := fun e => hi (Fin.ext e.symm)
  simp [emptySlot, State.station?, StationTable.station?, hval]

theorem emptySlot_self : (emptySlot j s).station? j = none := by
  simp [emptySlot, State.station?, StationTable.station?]

end

/-! ## The slot of a request taken -/

section
variable {s : State} {fs : List CellFault} {k : Fin 4} {rq : Request}

theorem dropRef_slots (sd : Sender) (id : Nat) (h : Hub) : (h.dropRef sd id).mgmt.slots = h.mgmt.slots :=
  (dropRef_quiet sd id h).slots

/-- The slot of a request taken is RESERVED and records it (R169). -/
theorem afterTake_slot (ht : Takes s fs k rq) : (afterTake s fs).hub.mgmt.slots[k] = .reserved rq.header none false := by
  obtain ⟨e, f, hready, hread, hsrc, -⟩ := ht
  simp only [afterTake, hready, takeInto, hread, hsrc]
  show (Hub.dropRef _ _ _).mgmt.slots[k] = _
  rw [dropRef_slots]
  simp [Hub.setSlot]

end

theorem park_of_header {k : Fin 4} {s : State} {h : ReqHeader} (op : PendingOp) (hs : s.hub.mgmt.slots[k].header? = some h) :
    park k op s = { s with hub := s.hub.setSlot k (.parked h op) } := by
  simp only [park, hs]

end Sys2Proof.Laws

namespace Sys2Proof.Proofs

open Sys2Proof Sys2Proof.Machine Sys2Proof.Safety Sys2Proof.Laws

/-- Settles O44, by the state of the record (R48, R50). -/
theorem barBars : Obligations.BarBars := by
  unfold Obligations.BarBars
  intro s fs k rq j st ht hc ha hst
  have hexec : exec (.bar fs) s = .next (ruleBar k rq (afterTake s fs)) :=
    congrArg Host.Outcome.next (takeRequest_of_takes ht (isCode_of_eq hc))
  rw [hexec, ruleBar, takes_onStation ha hst]
  refine ⟨fun hl => ?_, fun b hb => ?_, fun b hb => ?_⟩
  · obtain ⟨why, hs⟩ := isLeaving_iff.mp hl
    simp only [hs]
  · simp only [hb]
  · have ht' := afterTake_station (fs := fs) hst
    obtain ⟨⟨st', hst', hap⟩, hcounts, hheld, hgone, horders, hothers, honboard, hkept⟩ := barRecord_spec b ht'
    have hgone : UnicastsGone j st.origin (afterTake s fs) (barRecord j st b (afterTake s fs)) := hgone
    rw [afterTake_table] at hheld
    have hports := afterTake_ports ht
    refine ⟨barRecord j st b (afterTake s fs), st', ?_, hst', hap, hcounts, hheld, fun n hn => ?_, fun w i hw => ?_,
      fun w => (horders w).trans (by rw [hports]), fun i r hi hr => hothers i r hi (afterTake_station hr), ?_, ?_, ?_, ?_, ?_⟩
    · rw [← answerStation_of_station k hst']
      cases b <;> simp only [hb, Admission.state]
    · have := hgone.seat n hn
      rwa [SeatPurged, hports] at this
    · have := hgone.radio w i hw
      rwa [RadioPurged, hports] at this
    · rw [honboard, (afterTake_kept s fs).2.2]
    · exact hkept.sched.trans (afterTake_kept s fs).1.sched
    · exact hkept.windows.trans (afterTake_kept s fs).1.windows
    · exact hkept.consist.trans (afterTake_kept s fs).1.consist
    · exact hkept.hold.trans (afterTake_kept s fs).1.hold

end Sys2Proof.Proofs
end

section
/-! SUPPORT. What stands at which offset of bytes that are written field after field (11.2). -/

namespace Sys2Proof.Laws

open Sys2Proof Sys2Proof.Machine Sys2Proof.Safety

/-- The offsets of segments written one after another from an offset on. -/
def offsetsFrom : Nat → List (List Byte) → List (Nat × List Byte)
  | _, [] => []
  | o, b :: bs => (o, b) :: offsetsFrom (o + b.length) bs

theorem offsetsFrom_append (o : Nat) (xs ys : List (List Byte)) :
    offsetsFrom o (xs ++ ys) = offsetsFrom o xs ++ offsetsFrom (o + xs.flatten.length) ys := by
  induction xs generalizing o with
  | nil => rfl
  | cons x xs ih =>
    simp only [List.cons_append, offsetsFrom, ih, List.flatten_cons, List.length_append, Nat.add_assoc]

theorem take_drop_offsetsFrom {segs : List (List Byte)} {pre : List Byte} {p : Nat × List Byte}
    (h : p ∈ offsetsFrom pre.length segs) : ((pre ++ segs.flatten).drop p.1).take p.2.length = p.2 := by
  induction segs generalizing pre with
  | nil => cases h
  | cons b bs ih =>
    rcases List.mem_cons.mp h with rfl | h
    · simp
    · have := ih (pre := pre ++ b) (by rwa [List.length_append])
      rwa [List.append_assoc] at this

/-- Bytes written segment after segment hold each segment at its offset. -/
theorem holds_of_segments {v : List Byte} {n : Nat} {fields : List (Nat × List Byte)} (segs : List (List Byte))
    (hv : v = segs.flatten) (hn : v.length = n) (h : fields ⊆ offsetsFrom 0 segs) : Holds v n fields := by
  subst hv
  exact ⟨hn, fun p hp => take_drop_offsetsFrom (pre := []) (h hp)⟩

@[simp] theorem addrBytes_length (a : LinkAddr) : (addrBytes a).length = 6 := beBytes_length 6 _

/-- The segments of the counter block. -/
def counterSegments (r : StationCounters) : List (List Byte) :=
  [beBytes 4 r.upFrames.toNat, beBytes 6 r.upBytes.toNat, beBytes 6 r.upMetered.toNat, beBytes 4 r.downFrames.toNat,
    beBytes 6 r.downBytes.toNat, beBytes 6 r.downMetered.toNat, beBytes 4 r.drops.toNat]

theorem block_eq_segments (r : StationCounters) : r.block = (counterSegments r).flatten := by
  simp [StationCounters.block, counterSegments, List.append_assoc]

theorem counterFields_eq (o : Nat) (r : StationCounters) : counterFields o r = offsetsFrom o (counterSegments r) := by
  simp [counterFields, counterSegments, offsetsFrom, beBytes_length, Nat.add_assoc]

/-- The segments of the allowance block. -/
def allowanceSegments : Option Allowance → List (List Byte)
  | none => [List.replicate 16 0]
  | some a => [[1, boolByte a.renew, BitVec.ofNat 8 a.renewals, 0], beBytes 4 a.base, beBytes 4 a.current,
      beBytes 4 a.overrun.toNat]

theorem allowanceBlock_eq_segments (o : Option Allowance) : allowanceBlock o = (allowanceSegments o).flatten := by
  cases o <;> simp [allowanceBlock, allowanceSegments]

theorem allowanceFields_eq (o : Nat) (al : Option Allowance) : allowanceFields o al = offsetsFrom o (allowanceSegments al) := by
  cases al <;> simp [allowanceFields, allowanceSegments, offsetsFrom, beBytes_length, Nat.add_assoc]

end Sys2Proof.Laws
end

section
/-! The statements on RELEASE and RENEW (chapters 3 and 6). -/

namespace Sys2Proof.Laws

open Sys2Proof Sys2Proof.Machine Sys2Proof.Safety

/-! ## RENEW -/

/-- Whether a record has an allowance to reload (R106, R107). -/
theorem reloadable_iff {st : Station} : st.reloadable = true ↔ ∃ al, st.allowance = some al ∧ 0 < al.base := by
  unfold Station.reloadable
  cases st.allowance <;> simp

theorem renewedByAll_iff {st : Station} :
    st.renewedByAll = true ↔ st.isLeaving = false ∧ ∃ al, st.allowance = some al ∧ 0 < al.base := by
  rw [Station.renewedByAll, Bool.and_eq_true, Bool.not_eq_true', reloadable_iff]

/-- A renewal makes a record ADMITTED exactly where it is SPENT, or barred from SPENT (R106). -/
theorem restored_ne_iff {x : StationState} : x.restored ≠ x ↔ x = .spent ∨ x = .barred .spent := by
  cases x with
  | barred b => cases b <;> simp [StationState.restored]
  | _ => simp [StationState.restored]

theorem renewTable_station (s : State) (j : Fin 256) : (renewTable s).station? j =
    (s.station? j).map (fun st => if st.renewedByAll then st.renewed else st) := station?_mapSlots s.table _ j

theorem ruleRenew_of_station {k : Fin 4} {rq : Request} {s : State} {j : Fin 256} {st : Station} (hsel : rq.num 0 1 = 0)
    (ha : s.table.byAddr (rq.addr 2) = some j) (hst : s.station? j = some st) : ruleRenew k rq s =
      if st.isLeaving then refuse k .stationBusy s
      else if st.reloadable then answerStation k j (onTable (StationTable.modStation j Station.renewed) s)
      else refuse k .badValue s := by
  rw [ruleRenew, if_neg (not_not.mpr hsel), onStation_of_station ha hst]

/-! ## RELEASE -/

/-- The removal that a RELEASE begins: freed at once with its figures, or LEAVING and parked (R57). -/
theorem releaseRecord_of_idle {k : Fin 4} {j : Fin 256} {st st' : Station} {s : State} (hf : inFlight s j = false)
    (hst' : (beginRemoval j st .released s).station? j = some st') : releaseRecord k j st s =
      emptySlot j (answer k (releaseBody j st') (beginRemoval j st .released s)) := by
  simp only [releaseRecord, hf, Bool.false_eq_true, if_false, answerRelease, hst']

theorem releaseRecord_of_inFlight {k : Fin 4} {j : Fin 256} {st : Station} {s : State} {h : ReqHeader}
    (hf : inFlight s j = true) (hs : (beginRemoval j st .released s).hub.mgmt.slots[k].header? = some h) :
    releaseRecord k j st s = { setStationState j (.leaving .released) (beginRemoval j st .released s) with
      hub := (beginRemoval j st .released s).hub.setSlot k (.parked h (.release j)) } := by
  simp only [releaseRecord, hf, if_true]
  exact park_of_header _ hs

/-- What is left to do of a removal that has begun, from `u` to `t`: the record in slot `j` alone is changed, and it is in
no held order (R56, R57). -/
structure EndsRemoval (j : Fin 256) (u t : State) : Prop where
  held : t.table.held = fromHeld j u.table.held
  queues : SameQueues u.ports t.ports
  names : NamesFrom u.hub.cells t.hub.cells
  others : ∀ i, i ≠ j → t.station? i = u.station? i
  onboard : t.up.onboard = u.up.onboard
  kept : Kept u t

theorem emptySlot_endsRemoval (j : Fin 256) (k : Fin 4) (body : List Byte) (u : State) :
    EndsRemoval j u (emptySlot j (answer k body u)) := by
  obtain ⟨hkept, htable, hup⟩ := fixReply_kept k (.fixed .ok body) true u
  have hothers : ∀ i, (answer k body u).station? i = u.station? i := fun i =>
    congrArg (fun t : StationTable => t.station? i) htable
  exact ⟨congrArg (fun t : StationTable => fromHeld j t.held) htable, fixReply_sameQueues ..,
    NamesFrom.trans (fixReply_names k _ true u) (emptySlot_names j _), fun i hi => (emptySlot_ne hi).trans (hothers i),
    (congrArg UpwardService.onboard hup :), hkept.trans (.ofUpdate rfl)⟩

theorem setLeaving_endsRemoval (j : Fin 256) (k : Fin 4) (q : ReplySlot) {u : State}
    (hheld : fromHeld j u.table.held = u.table.held) :
    EndsRemoval j u { setStationState j (.leaving .released) u with hub := u.hub.setSlot k q } where
  held := hheld.symm
  queues := .refl _
  names := .ofFrames rfl
  others _ hi := setStationState_ne _ hi
  onboard := rfl
  kept := .ofUpdate rfl

end Sys2Proof.Laws

namespace Sys2Proof.Proofs

open Sys2Proof Sys2Proof.Machine Sys2Proof.Safety Sys2Proof.Laws

/-- Settles O46: the removal is begun, and then the frame in flight decides (R52, R53, R57). -/
theorem releaseRemovesOrParks : Obligations.ReleaseRemovesOrParks := by
  unfold Obligations.ReleaseRemovesOrParks
  refine ⟨fun s fs k rq j st ht hc ha hst => ?_, fun j st => ?_⟩
  · have hexec : exec (.release fs) s = .next (ruleRelease k rq (afterTake s fs)) :=
      congrArg Host.Outcome.next (takeRequest_of_takes ht (isCode_of_eq hc))
    rw [hexec, ruleRelease, takes_onStation ha hst]
    refine ⟨fun hl => congrArg Host.Outcome.next (if_pos hl), fun hl => ⟨_, congrArg Host.Outcome.next (if_neg (by simp [hl])), ?_⟩⟩
    have ht' := afterTake_station (fs := fs) hst
    have hports := afterTake_ports ht
    have hk := afterTake_kept s fs
    have hslot := afterTake_slot ht
    generalize afterTake s fs = a at *
    obtain ⟨hcounts, ⟨n, hn⟩, hothers, hheld, horders, honboard, hslots⟩ :=
      beginRemoval_spec (why := .released) ht' rfl
    have hgone := beginRemoval_gone (st := st) (k := j) (s := a) .released
    have hkept := beginRemoval_kept j st .released a
    have hout : fromHeld j (beginRemoval j st .released a).table.held = (beginRemoval j st .released a).table.held := by
      rw [hheld]
      simp [fromHeld, List.filter_filter]
    have hends : EndsRemoval j (beginRemoval j st .released a) (releaseRecord k j st a) := by
      cases hf : inFlight a j with
      | false =>
        rw [releaseRecord_of_idle hf hn]
        exact emptySlot_endsRemoval ..
      | true =>
        rw [releaseRecord_of_inFlight hf (by rw [hslots, hslot]; rfl)]
        exact setLeaving_endsRemoval j k _ hout
    have hgone := hgone.after hends.queues.egress hends.names
    refine ⟨fun hf => ?_, fun hf => ?_, ?_, fun n hn => ?_, fun w i hw => ⟨?_, ?_⟩, fun i r hi hr => ?_, ?_, ?_, ?_, ?_, ?_⟩
    · rw [releaseRecord_of_idle hf hn]
      exact ⟨emptySlot_self, moreDrops n { st with upq := [] }, rfl, rfl, rfl, beginRemoval j st .released a, rfl, hn, hcounts⟩
    · rw [releaseRecord_of_inFlight (h := rq.header) hf (by rw [hslots, hslot]; rfl)]
      refine ⟨⟨_, setStationState_self _ hn, rfl⟩, ?_, ?_⟩
      · refine purgeCounts_of_target hcounts (fun _ => rfl) rfl (fun r hr => ⟨_, hn, ?_⟩) (fun i hi => setStationState_ne _ hi)
        rw [← Option.some.inj ((setStationState_self (.leaving .released) hn).symm.trans hr)]
      · simp [Hub.setSlot]
    · rw [hends.held, hout, hheld, hk.2.1]
    · have := hgone.seat n hn
      rwa [SeatPurged, hports] at this
    · rw [hends.queues.orders w, horders w, hw, hports]
      exact if_pos ⟨rfl, .inr (.inr rfl)⟩
    · have := hgone.radio w i hw
      rwa [RadioPurged, hports] at this
    · obtain ⟨m, hm⟩ := hothers i r hi ((congrArg (fun t : StationTable => t.station? i) hk.2.1).trans hr)
      exact ⟨_, (hends.others i hi).trans hm, rfl⟩
    · rw [hends.onboard, honboard, hk.2.2]
    · exact (hkept.trans hends.kept).sched.trans hk.1.sched
    · exact (hkept.trans hends.kept).windows.trans hk.1.windows
    · exact (hkept.trans hends.kept).consist.trans hk.1.consist
    · exact (hkept.trans hends.kept).hold.trans hk.1.hold
  · refine holds_of_segments ([addrBytes st.addr, [slotByte j, 7]] ++ counterSegments st.ctr ++
      allowanceSegments st.allowance) ?_ (releaseBody_length j st) ?_
    · simp [releaseBody, block_eq_segments, allowanceBlock_eq_segments, Reason.code]
    · rw [counterFields_eq, allowanceFields_eq, offsetsFrom_append, offsetsFrom_append]
      simp [offsetsFrom, slotByte, counterSegments, beBytes_length]

/-- Settles O48: RENEW of one address and of all (R106, R107). -/
theorem renewReloads : Obligations.RenewReloads := by
  unfold Obligations.RenewReloads
  intro s fs k rq ht hc
  have hexec (hsel : rq.num 0 1 ≠ 1) : exec (.renew fs) s = .next (ruleRenew k rq (afterTake s fs)) :=
    congrArg Host.Outcome.next (takeRequest_of_takes ht (by simp [isCode, hc, hsel]))
  refine ⟨fun hsel => ?_, fun j st hsel ha hst => ?_, fun hsel => ?_⟩
  · rw [hexec (by omega), ruleRenew, if_pos (by omega)]
  · have ht' := afterTake_station (fs := fs) hst
    rw [hexec (by omega), ruleRenew_of_station hsel (afterTake_byAddr ha) ht']
    simp only [← reloadable_iff]
    refine ⟨fun hl => by rw [if_pos hl], fun hl hno => ?_, fun hl hhas => ?_⟩
    · simp only [hl, Bool.false_eq_true, if_false, hno]
    · simp only [hl, Bool.false_eq_true, if_false, hhas, if_true]
      rw [answerStation_of_station k (onTable_modStation_station _ ht')]
      rw [onTable, afterTake_table]
      rfl
  · refine ⟨_, _, _, execRenewAll_of_takes ht hc hsel, fun j st hst hl hhas => ?_, fun j st hst hno => ?_, fun j hst => ?_,
      ?_, ?_, ?_, rfl, afterTake_ports ht, afterTake_sched, (afterTake_kept s fs).2.2, (afterTake_kept s fs).1.windows⟩
    · rw [renewTable_station, afterTake_station hst, Option.map_some, if_pos (renewedByAll_iff.mpr ⟨hl, hhas⟩)]
      rfl
    · have hnot : ¬ st.renewedByAll = true := fun h => by
        obtain ⟨hl, hhas⟩ := renewedByAll_iff.mp h
        rcases hno with hno | hno
        · simp [hl] at hno
        · exact hno hhas
      rw [renewTable_station, afterTake_station hst, Option.map_some, if_neg hnot]
    · rw [renewTable_station]
      have : (afterTake s fs).station? j = none := by
        rw [State.station?, afterTake_table]
        exact hst
      rw [this, Option.map_none]
    · rw [afterTake_table]
      rfl
    · rw [afterTake_table]
      congr 2
      funext st
      simp only [Station.renewedByAll, restored_ne_iff, Bool.decide_or]
    · show (afterTake s fs).table.held = s.table.held
      rw [afterTake_table]

end Sys2Proof.Proofs
end

section
/-! The statements on SET_EPOCH, SCHEDULER and WRITE_WINDOW (chapters 5 and 7). -/

namespace Sys2Proof.Laws

open Sys2Proof Sys2Proof.Machine Sys2Proof.Safety

theorem clampTo_eq {lo hi n : Nat} (h : lo ≤ hi) : clampTo lo hi n = if n < lo then lo else if hi < n then hi else n := by
  unfold clampTo
  split <;> [skip; split] <;> omega

theorem permissionOfCode_eq_none_iff {c : Nat} : permissionOfCode c = none ↔ 3 < c := by
  unfold permissionOfCode
  split
  case h_5 h0 h1 h2 h3 =>
    have : 3 < c := by grind
    simpa
  all_goals simp

theorem clearLow_ofNat {k : Nat} (hk : k ≤ 32) (n : Nat) :
    clearLow (BitVec.ofNat 32 n) k = BitVec.ofNat 32 (n / 2 ^ k * 2 ^ k) := by
  have hpow : (2 : Nat) ^ 32 = 2 ^ k * 2 ^ (32 - k) := by rw [← Nat.pow_add, Nat.add_sub_cancel' hk]
  apply BitVec.eq_of_toNat_eq
  rw [clearLow_toNat, BitVec.toNat_ofNat, BitVec.toNat_ofNat, hpow, Nat.mod_mul_right_div_self, Nat.mul_comm (2 ^ k),
    Nat.mul_mod_mul_right]

/-! ## WRITE_WINDOW -/

theorem readWindowSettings_eq_none {r : Request} {i : Fin 9} {old : WindowSettings} (h : 1 < r.num 1 1 ∨ 1 < r.num 7 1 ∨
    1 < r.num 8 1 ∨ 3 < r.num 9 1 ∨ 3 < r.num 10 1 ∨ 3 < r.num 11 1) : readWindowSettings r i old = none := by
  simp only [← yesNo_eq_none_iff, ← permissionOfCode_eq_none_iff] at h
  unfold readWindowSettings
  split
  case h_1 => simp_all
  case h_2 => rfl

theorem readWindowSettings_of_codes {r : Request} {i : Fin 9} {old : WindowSettings} {pp pc po : Permission}
    (h1 : r.num 1 1 ≤ 1) (h7 : r.num 7 1 ≤ 1) (h8 : r.num 8 1 ≤ 1) (hpp : permissionOfCode (r.num 9 1) = some pp)
    (hpc : permissionOfCode (r.num 10 1) = some pc) (hpo : permissionOfCode (r.num 11 1) = some po) :
    readWindowSettings r i old = some
      { enabled := if i = 8 then old.enabled else decide (r.num 1 1 = 1)
        base := if i = 8 then old.base else
          BitVec.ofNat 32 (r.num 2 4 / 2 ^ clampTo 8 32 (r.num 6 1) * 2 ^ clampTo 8 32 (r.num 6 1))
        k := if i = 8 then old.k else clampTo 8 32 (r.num 6 1)
        metered := decide (r.num 7 1 = 1)
        opened := decide (r.num 8 1 = 1) && !decide (r.num 7 1 = 1)
        passenger := pp, crew := pc, operations := po } := by
  have hbase : clearLow (BitVec.ofNat 32 (r.num 2 4)) (clampTo 8 32 (r.num 6 1)) = _ :=
    clearLow_ofNat (by unfold clampTo; omega) _
  simp only [readWindowSettings, yesNo_of_le h1, yesNo_of_le h7, yesNo_of_le h8, hpp, hpc, hpo, hbase]

section
variable {k : Fin 4} {r : Request} {s : State} {i : Fin 9}

theorem ruleWriteWindow_of_none (h : r.num 0 1 = i.val) (hr : readWindowSettings r i (s.windows[i]).set = none) :
    ruleWriteWindow k r s = refuse k .badValue s := by
  have hi : (⟨r.num 0 1, h ▸ i.isLt⟩ : Fin 9) = i := Fin.ext h
  rw [ruleWriteWindow, dif_pos (h ▸ i.isLt)]
  simp only [hi, hr]

theorem ruleWriteWindow_of_some {w : WindowSettings} (h : r.num 0 1 = i.val)
    (hr : readWindowSettings r i (s.windows[i]).set = some w) :
    ruleWriteWindow k r s = answer k (windowView i { set := w }) (writeWindow i w s) := by
  have hi : (⟨r.num 0 1, h ▸ i.isLt⟩ : Fin 9) = i := Fin.ext h
  rw [ruleWriteWindow, dif_pos (h ▸ i.isLt)]
  simp only [hi, hr]

end

/-! ## Boundaries -/

/-- What a boundary makes of the scheduler (R111, R124): RUNNING as before, the counter at 0, the number advanced or not. -/
theorem boundary_sched (adv : Bool) (s : State) : (boundary adv s).sched.running = s.sched.running ∧
    (boundary adv s).sched.number = (if adv then s.sched.number + 1 else s.sched.number) ∧
    (boundary adv s).sched.counter = 0 := by
  obtain ⟨-, hsched, -⟩ := boundary_spec adv s
  rw [hsched]
  exact ⟨rfl, rfl, rfl⟩

end Sys2Proof.Laws

namespace Sys2Proof.Proofs

open Sys2Proof Sys2Proof.Machine Sys2Proof.Safety Sys2Proof.Laws

/-- Settles O50, by whether the scheduler is RUNNING (R114). -/
theorem setEpochClampsAndStores : Obligations.SetEpochClampsAndStores := by
  unfold Obligations.SetEpochClampsAndStores
  intro s fs k rq ht hc t weight q
  have hexec : exec (.setEpoch fs) s = .next (ruleSetEpoch k rq t) :=
    congrArg Host.Outcome.next (takeRequest_of_takes ht (isCode_of_eq hc))
  have hq : readParams rq = q := by
    simp only [readParams, clampTo_eq (show 1 ≤ 1000 by decide), clampTo_eq (show 1 ≤ 15 by decide), Nat.lt_one_iff,
      Nat.min_def, ← Nat.not_lt, ite_not, q, weight]
  have hsched : t.sched = s.sched := afterTake_sched
  rw [hexec, ruleSetEpoch, hq, storeParams, hsched]
  exact ⟨fun hr => by simp [hr], fun hr => by simp [hr]⟩

section
variable {s : State} {fs : List CellFault} {k : Fin 4} {rq : Request} (ht : Takes s fs k rq) (hc : rq.code = 0x0B)
include ht hc

theorem execSchedulerStart_of_takes (h2 : rq.num 0 1 ≠ 2) (h3 : rq.num 0 1 ≠ 3) :
    exec (.schedulerStart fs) s = .next (ruleSchedulerStart k rq (afterTake s fs)) :=
  congrArg Host.Outcome.next (takeRequest_of_takes ht (by simp [isCode, hc, h2, h3]))

theorem execSchedulerStop_of_takes (h2 : rq.num 0 1 = 2) :
    exec (.schedulerStop fs) s = .next (ruleSchedulerStop k rq (afterTake s fs)) :=
  congrArg Host.Outcome.next (takeRequest_of_takes ht (by simp [isCode, hc, h2]))

theorem execSchedulerRestart_of_takes (h3 : rq.num 0 1 = 3) :
    exec (.schedulerRestart fs) s = .next (ruleSchedulerRestart k rq (afterTake s fs)) :=
  congrArg Host.Outcome.next (takeRequest_of_takes ht (by simp [isCode, hc, h3]))

end

/-- Settles O51, by the action and whether the scheduler is RUNNING (R111, R112). -/
theorem schedulerActions : Obligations.SchedulerActions := by
  unfold Obligations.SchedulerActions
  intro s fs k rq ht hc t
  have hsched : t.sched = s.sched := afterTake_sched
  refine ⟨fun ha => ?_, fun ha hr => ?_, fun ha hr => ?_, fun ha hr => ?_, fun ha hr => ?_, fun ha hr => ?_, fun ha hr => ?_⟩
  · rw [execSchedulerStart_of_takes ht hc (by omega) (by omega), ruleSchedulerStart, if_pos (by omega)]
  · rw [execSchedulerStart_of_takes ht hc (by omega) (by omega), ruleSchedulerStart, if_neg (by omega), hsched,
      if_pos hr, answerScheduler, hsched]
  · obtain ⟨hrun, hnumber, hcounter⟩ := boundary_sched false { t with sched := { s.sched with running := true } }
    refine ⟨_, ?_, rfl, hrun, hnumber, hcounter⟩
    rw [execSchedulerStart_of_takes ht hc (by omega) (by omega), ruleSchedulerStart, if_neg (by omega), hsched, if_neg (by simp [hr]), answerScheduler,
      startScheduler, hsched]
  · rw [execSchedulerStop_of_takes ht hc ha, ruleSchedulerStop, hsched, if_neg (by simp [hr]), answerScheduler, hsched]
  · obtain ⟨hkept, htable, hup⟩ := takeParkedSnapshot_kept (computeStop t)
    refine ⟨stopScheduler t, ?_, ?_, fun j => ?_, ?_, ?_, ?_, ?_, ?_⟩
    · rw [execSchedulerStop_of_takes ht hc ha, ruleSchedulerStop, hsched, if_pos hr, answerScheduler]
    · rw [stopScheduler, hkept.sched, computeStop, hsched]
    · rw [State.station?, stopScheduler, htable]
      refine (station?_mapSlots t.table Station.atStop j).trans ?_
      rw [show t.table = s.table from afterTake_table]
      rfl
    · rw [stopScheduler, htable, computeStop, show t.table = s.table from afterTake_table]
    · exact hup.trans (afterTake_kept s fs).2.2
    · exact hkept.windows.trans (afterTake_kept s fs).1.windows
    · exact hkept.consist.trans (afterTake_kept s fs).1.consist
    · exact hkept.hold.trans (afterTake_kept s fs).1.hold
  · obtain ⟨hrun, hnumber, hcounter⟩ := boundary_sched true t
    rw [hsched] at hrun hnumber
    refine ⟨_, ?_, rfl, hrun.trans hr, hnumber, hcounter⟩
    rw [execSchedulerRestart_of_takes ht hc ha, ruleSchedulerRestart, hsched, if_pos hr, answerScheduler]
  · obtain ⟨hrun, hnumber, hcounter⟩ := boundary_sched false { t with sched := { s.sched with running := true } }
    refine ⟨_, ?_, rfl, hrun, hnumber, hcounter⟩
    rw [execSchedulerRestart_of_takes ht hc ha, ruleSchedulerRestart, hsched, if_neg (by simp [hr]), answerScheduler, startScheduler, hsched]

/-- Settles O52, by the window number and the reading of the body (R80). -/
theorem writeWindowStores : Obligations.WriteWindowStores := by
  unfold Obligations.WriteWindowStores
  intro s fs k rq ht hc t
  have hexec : exec (.writeWindow fs) s = .next (ruleWriteWindow k rq t) :=
    congrArg Host.Outcome.next (takeRequest_of_takes ht (isCode_of_eq hc))
  have hwin : t.windows = s.windows := (afterTake_kept s fs).1.windows
  rw [hexec]
  refine ⟨fun hi => ?_, fun i hi => ⟨fun hbad => ?_, fun pp pc po h1 h7 h8 hpp hpc hpo => ?_⟩⟩
  · rw [ruleWriteWindow, dif_neg (by omega)]
  · rw [ruleWriteWindow_of_none hi (readWindowSettings_eq_none hbad)]
  · rw [ruleWriteWindow_of_some hi (readWindowSettings_of_codes h1 h7 h8 hpp hpc hpo)]
    simp only [writeWindow, hwin, clampTo_eq (n := rq.num 6 1) (show 8 ≤ 32 by decide)]

end Sys2Proof.Proofs
end

section
/-! The statements on SET_HOLD, SET_MEMORY_LIMITS, SNAPSHOT and SAVE_SETTINGS (chapters 1, 2 and 10). -/

namespace Sys2Proof.Laws

open Sys2Proof Sys2Proof.Machine Sys2Proof.Safety

/-! ## The memory marks -/

theorem noteLeft_marks (sd : Sender) (l : Option Nat) (h : Hub) :
    (h.noteLeft sd l).cells.high = h.cells.high ∧ (h.noteLeft sd l).cells.low = h.cells.low :=
  ⟨(noteLeft_quiet sd l h).high, (noteLeft_quiet sd l h).low⟩

theorem retest_marks (sd : Sender) (h : Hub) :
    (h.retest sd).cells.high = h.cells.high ∧ (h.retest sd).cells.low = h.cells.low := by
  unfold Hub.retest
  split
  · have hn := noteEntered_quiet sd h.cells.testEnter.2 { h with cells := h.cells.testEnter.1 }
    have hs := (testEnter_same h.cells).1
    exact ⟨hn.high.trans hs.high, hn.low.trans hs.low⟩
  · have hn := noteLeft_quiet sd h.cells.testLeave.2 { h with cells := h.cells.testLeave.1 }
    have hs := (testLeave_same h.cells).1
    exact ⟨hn.high.trans hs.high, hn.low.trans hs.low⟩

/-- A notice raised in PRESSURE leaves the state there, and counts no PRESSURE_SEEN (R33). -/
theorem raise_keeps_pressure (sd : Sender) (n : Notice) {h : Hub} (hp : h.cells.pressure = .pressure) :
    (h.raise sd n).cells.pressure = .pressure ∧ (h.raise sd n).flagOf .pressureSeen = h.flagOf .pressureSeen := by
  obtain ⟨hstep, hflag⟩ := raiseCore_presses sd n h
  rw [raise_of_pressure sd n h hp]
  exact ⟨(hstep.pressed hp).1, hflag⟩

/-! ## The hold limit -/

theorem holdActionOfCode_eq_none_iff {c : Nat} : holdActionOfCode c = none ↔ c = 0 ∨ 2 < c := by
  match c with
  | 0 => simp [holdActionOfCode]
  | 1 => simp [holdActionOfCode]
  | 2 => simp [holdActionOfCode]
  | n + 3 => simp [holdActionOfCode]

/-- An end whose continuous hold has lasted the limit with no overrun recorded (R17). -/
theorem holdLimitDue_iff {s : State} {x : End} : holdLimitDue s x = true ↔ ∃ u m, (s.ports.endOf x).heldUntil = some u ∧
    (s.ports.endOf x).holdStart = some m ∧ (s.ports.endOf x).overrun = false ∧ m + 100 * s.hold.limit ≤ s.now := by
  unfold holdLimitDue
  cases h : (s.ports.endOf x).limitAt s.hold.limit with
  | none =>
    refine iff_of_false (by simp) (fun ⟨u, m, hu, hm, ho, _⟩ => ?_)
    rw [limitAt_iff.mpr ⟨u, m, hu, hm, ho, rfl⟩] at h
    cases h
  | some m' =>
    obtain ⟨u, m, hu, hm, ho, rfl⟩ := limitAt_iff.mp h
    simp [hu, hm, ho]

section
variable (x : End) (s : State)

theorem recordOverrun_hub : (recordOverrun x s).hub =
    (s.hub.flag (overrunFlag x)).raise s.sender (.holdOverrun x s.hold.action s.hold.limit) := rfl

theorem recordOverrun_ports : (recordOverrun x s).ports =
    s.ports.modEnd x (fun e => { e with overrun := true, overruns := e.overruns + 1 }) := rfl

/-- What SET_HOLD records of one end leaves alone (R19). -/
theorem overrunIfDue_kept : Kept s (overrunIfDue x s) ∧ (overrunIfDue x s).table = s.table ∧
    (overrunIfDue x s).up = s.up ∧ (overrunIfDue x s).ports.seats = s.ports.seats ∧
    (overrunIfDue x s).ports.radios = s.ports.radios ∧
    (overrunIfDue x s).ports.endOf x.other = s.ports.endOf x.other := by
  unfold overrunIfDue
  split
  · refine ⟨.ofUpdate rfl, rfl, rfl, ?_, ?_, ?_⟩ <;> cases x <;> rfl
  · exact ⟨.refl s, rfl, rfl, rfl, rfl, rfl⟩

theorem overrunIfDue_end : (overrunIfDue x s).ports.endOf x = if holdLimitDue s x = true then
    { s.ports.endOf x with overrun := true, overruns := (s.ports.endOf x).overruns + 1 } else s.ports.endOf x := by
  unfold overrunIfDue
  split
  · rw [recordOverrun_ports, endOf_modEnd_self]
  · rfl

theorem overrunIfDue_hub : (overrunIfDue x s).hub = if holdLimitDue s x = true then
    (s.hub.flag (overrunFlag x)).raise s.sender (.holdOverrun x s.hold.action s.hold.limit) else s.hub := by
  unfold overrunIfDue
  split <;> rfl

theorem overrunIfDue_flagOf {f : Flag} (hn : f ≠ .noticesLost) (hp : f ≠ .pressureSeen) :
    (overrunIfDue x s).hub.flagOf f =
      if holdLimitDue s x = true ∧ f = overrunFlag x then (s.hub.flagOf f).occur else s.hub.flagOf f := by
  unfold overrunIfDue
  by_cases hd : holdLimitDue s x = true
  · rw [if_pos hd, recordOverrun_hub, raise_flagOf _ _ _ hn hp]
    by_cases hf : f = overrunFlag x
    · rw [if_pos ⟨hd, hf⟩, hf, flagOf_flag_self]
    · rw [if_neg (fun h => hf h.2), flagOf_flag_ne _ hf]
  · rw [if_neg hd, if_neg (fun h => hd h.1)]

end

/-! ## Both ends asked in turn -/

/-- The overruns that SET_HOLD records: of BA and then of BB (R19, log entry 18). -/
def recordLate (s : State) : State := overrunIfDue .bb (overrunIfDue .ba s)

section
variable (s : State)

theorem recordLate_kept : Kept s (recordLate s) ∧ (recordLate s).table = s.table ∧ (recordLate s).up = s.up ∧
    (recordLate s).ports.seats = s.ports.seats ∧ (recordLate s).ports.radios = s.ports.radios := by
  obtain ⟨ka, ta, ua, sa, ra, -⟩ := overrunIfDue_kept .ba s
  obtain ⟨kb, tb, ub, sb, rb, -⟩ := overrunIfDue_kept .bb (overrunIfDue .ba s)
  exact ⟨ka.trans kb, tb.trans ta, ub.trans ua, sb.trans sa, rb.trans ra⟩

/-- What is recorded of BA leaves alone whether BB is late. -/
theorem holdLimitDue_after_ba : holdLimitDue (overrunIfDue .ba s) .bb = holdLimitDue s .bb := by
  obtain ⟨ka, -, -, -, -, he⟩ := overrunIfDue_kept .ba s
  rw [Bool.eq_iff_iff, holdLimitDue_iff, holdLimitDue_iff, ka.now, ka.hold,
    show (overrunIfDue .ba s).ports.endOf .bb = s.ports.endOf .bb from he]

theorem recordLate_end (x : End) : (recordLate s).ports.endOf x = if holdLimitDue s x = true then
    { s.ports.endOf x with overrun := true, overruns := (s.ports.endOf x).overruns + 1 } else s.ports.endOf x := by
  cases x with
  | ba =>
    obtain ⟨-, -, -, -, -, he⟩ := overrunIfDue_kept .bb (overrunIfDue .ba s)
    exact he.trans (overrunIfDue_end .ba s)
  | bb =>
    obtain ⟨-, -, -, -, -, he⟩ := overrunIfDue_kept .ba s
    rw [recordLate, overrunIfDue_end, holdLimitDue_after_ba,
      show (overrunIfDue .ba s).ports.endOf .bb = s.ports.endOf .bb from he]

theorem recordLate_hub : let told := fun (x : End) (h : Hub) =>
      (h.flag (overrunFlag x)).raise s.sender (.holdOverrun x s.hold.action s.hold.limit)
    let ba := if holdLimitDue s .ba = true then told .ba s.hub else s.hub
    (recordLate s).hub = if holdLimitDue s .bb = true then told .bb ba else ba := by
  obtain ⟨ka, -⟩ := overrunIfDue_kept .ba s
  have hsender : (overrunIfDue .ba s).sender = s.sender := by simp only [State.sender, ka.identity, ka.consist]
  simp only [recordLate]
  rw [overrunIfDue_hub, holdLimitDue_after_ba, hsender, ka.hold, overrunIfDue_hub]

theorem recordLate_flagOf (x : End) : (recordLate s).hub.flagOf (overrunFlag x) =
    if holdLimitDue s x = true then (s.hub.flagOf (overrunFlag x)).occur else s.hub.flagOf (overrunFlag x) := by
  rw [recordLate, overrunIfDue_flagOf _ _ (by cases x <;> decide) (by cases x <;> decide), holdLimitDue_after_ba,
    overrunIfDue_flagOf _ _ (by cases x <;> decide) (by cases x <;> decide)]
  cases x <;> simp [overrunFlag]

end

/-! ## The blocks -/

/-- The blocks that a state keeps where the shared operations change it. -/
theorem Kept.blocks {s t : State} (h : Kept s t) (htable : t.table = s.table) (hup : t.up = s.up) : blocks t = blocks s := by
  simp only [Safety.blocks, h.now, h.identity, htable, h.windows, h.sched, hup, h.consist, h.hold]

theorem afterTake_blocks {s : State} {fs : List CellFault} : blocks (afterTake s fs) = blocks s :=
  Kept.blocks (afterTake_kept s fs).1 (afterTake_kept s fs).2.1 (afterTake_kept s fs).2.2

end Sys2Proof.Laws

namespace Sys2Proof.Proofs

open Sys2Proof Sys2Proof.Machine Sys2Proof.Safety Sys2Proof.Laws

/-- Settles O55: the marks are put in force, and the state is tested against them (R35). -/
theorem setMemoryLimitsTests : Obligations.SetMemoryLimitsTests := by
  unfold Obligations.SetMemoryLimitsTests
  intro s fs k rq ht hc t high low
  have hexec : exec (.setMemoryLimits fs) s = .next (ruleSetMemoryLimits k rq t) :=
    congrArg Host.Outcome.next (takeRequest_of_takes ht (isCode_of_eq hc))
  have hhigh : clampTo 64 3072 (rq.num 0 2) = high := clampTo_eq (by decide)
  have hlow : min (rq.num 2 2) (high - 1) = low := by
    change _ = if high - 1 < rq.num 2 2 then high - 1 else rq.num 2 2
    split <;> omega
  have hlt : low < high := by
    have : 64 ≤ high := by rw [← hhigh]; unfold clampTo; omega
    omega
  set marked : Hub := { t.hub with cells := { t.hub.cells with high := high, low := low } } with hmarked
  obtain ⟨henter, hleave, hkeep⟩ := retest_tested t.sender marked
  obtain ⟨hh, hl⟩ := retest_marks t.sender marked
  refine ⟨setMarks high low t, ?_, hh, hl, fun hp hge => ?_, fun hp hle => ?_, fun hp hlt => hkeep (.inl ⟨hp, hlt⟩),
    fun hp hlt => hkeep (.inr ⟨hp, hlt⟩), afterTake_ports ht, afterTake_blocks⟩
  · rw [hexec, ruleSetMemoryLimits, hhigh, hlow]
  · intro entered
    obtain ⟨hpressure, hflag⟩ := raise_keeps_pressure t.sender (.pressure true t.hub.cells.held high low)
      (h := entered.flag .pressureSeen) rfl
    have hu : (setMarks high low t).hub = (entered.flag .pressureSeen).raise t.sender _ := henter hp hge
    rw [hu]
    exact ⟨rfl, hpressure, hflag.trans (flagOf_flag_self _ _)⟩
  · intro left
    have hu : (setMarks high low t).hub = left.raise t.sender (.pressure false t.hub.cells.held high low) := hleave hp hle
    obtain ⟨hbelow, habove⟩ := raise_pressure t.sender (.pressure false t.hub.cells.held high low) left rfl
      (lt_of_le_of_lt hle hlt)
    rw [hu]
    exact ⟨rfl, fun hr => raise_none hr, hbelow, habove⟩

/-- Settles O54: both settings are in force, and each end is asked whether its hold has lasted the limit (R17, R19). -/
theorem setHoldStores : Obligations.SetHoldStores := by
  unfold Obligations.SetHoldStores
  intro s fs k rq ht hc t
  have hexec : exec (.setHold fs) s = .next (ruleSetHold k rq t) :=
    congrArg Host.Outcome.next (takeRequest_of_takes ht (isCode_of_eq hc))
  refine ⟨fun hbad => ?_, fun act hact => ?_⟩
  · rw [hexec, ruleSetHold, holdActionOfCode_eq_none_iff.mpr hbad]
  · intro lim late flag told
    have hlim : clampTo 1 1000 (rq.num 0 2) = lim := clampTo_eq (by decide)
    have hkept := (afterTake_kept s fs).1
    have hports : t.ports = s.ports := afterTake_ports ht
    set v : State := { t with hold := { limit := lim, action := act } } with hv
    have hdue (x : End) : holdLimitDue v x = true ↔ late x := by
      rw [holdLimitDue_iff]
      simp only [hv, hports, show t.now = s.now from hkept.now, late]
    have hflag (x : End) : flag x = overrunFlag x := by cases x <;> rfl
    have hsender : v.sender = s.sender := by simp only [State.sender, hv, hkept.identity, hkept.consist, t]
    have hhub := recordLate_hub v
    simp only [hsender] at hhub
    have hold (x : End) : v.hub.flagOf (overrunFlag x) = s.hub.flagOf (overrunFlag x) := by
      cases x <;> exact afterTake_flagOf ht (by decide) (by decide) (by decide) (by decide) (by decide)
    obtain ⟨klate, htable, hup, hseats, hradios⟩ := recordLate_kept v
    refine ⟨recordLate v, ?_, klate.hold, fun x hx => ?_, fun x hx => ?_, fun hno => ?_, fun x hx hno => ?_,
      fun hba hbb => ?_, fun x hx => ?_, fun x hx => ?_, hseats.trans (congrArg Ports.seats hports),
      hradios.trans (congrArg Ports.radios hports), ?_⟩
    · rw [hexec]
      simp only [ruleSetHold, hact, hlim]
      rfl
    · rw [← hports]
      exact (recordLate_end v x).trans (if_pos ((hdue x).mpr hx))
    · rw [← hports]
      exact (recordLate_end v x).trans (if_neg (mt (hdue x).mp hx))
    · rw [hhub, if_neg (mt (hdue .bb).mp (hno .bb)), if_neg (mt (hdue .ba).mp (hno .ba))]
    · cases x with
      | ba =>
        rw [hhub, if_neg (mt (hdue .bb).mp hno), if_pos ((hdue .ba).mpr hx)]
        rfl
      | bb =>
        rw [hhub, if_pos ((hdue .bb).mpr hx), if_neg (mt (hdue .ba).mp hno)]
        rfl
    · rw [hhub, if_pos ((hdue .bb).mpr hbb), if_pos ((hdue .ba).mpr hba)]
      rfl
    · rw [hflag, recordLate_flagOf, if_pos ((hdue x).mpr hx), hold]
      rfl
    · rw [hflag, recordLate_flagOf, if_neg (mt (hdue x).mp hx), hold]
    · rw [Kept.blocks klate htable hup, ← afterTake_blocks (s := s) (fs := fs)]
      rfl

end Sys2Proof.Proofs
end

section
/-! SUPPORT. The take of a request (R169): what it finds, what it leaves of the part where the request goes on, and where
it ends with no reply. -/

namespace Sys2Proof.Laws

open Sys2Proof Sys2Proof.Machine Sys2Proof.Safety

/-! ## What is found first in the order of numbers -/

theorem find?_finRange_eq_some_iff {n : Nat} {p : Fin n → Bool} {k : Fin n} :
    (List.finRange n).find? p = some k ↔ p k = true ∧ ∀ j, j < k → p j = false := by
  rw [List.find?_eq_some_iff_getElem]
  refine and_congr_right (fun _ => ⟨fun ⟨i, hi, hk, hbefore⟩ j hj => ?_, fun h => ⟨k.val, by simp, by simp, fun j hj => ?_⟩⟩)
  · have hik : i = k.val := by rw [← hk]; simp
    have := hbefore j.val (hik ▸ hj)
    simpa using this
  · simpa using h ⟨j, by omega⟩ hj

theorem isFree_iff {q : ReplySlot} : q.isFree = true ↔ q = .free := by
  cases q <;> simp [ReplySlot.isFree]

theorem freeSlot?_eq_some_iff {m : Mgmt} {k : Fin 4} :
    freeSlot? m = some k ↔ m.slots[k] = .free ∧ ∀ j, j < k → m.slots[j] ≠ .free := by
  simp only [freeSlot?, find?_finRange_eq_some_iff, isFree_iff, ← Bool.not_eq_true, ne_eq]

theorem parkedSnapshot_eq_some_iff {m : Mgmt} {k : Fin 4} : parkedSnapshot m = some k ↔
    (m.slots[k]).isSnapshot = true ∧ ∀ j, j < k → (m.slots[j]).isSnapshot = false := find?_finRange_eq_some_iff

/-! ## The request at the head -/

/-- What the taking of a request finds (R169). -/
theorem requestReady_eq_some {s : State} {k : Fin 4} {e : InputEntry} {f : FrameRec} {rq : Request}
    (h : requestReady s = some (k, e, f, rq)) : s.hub.mgmt.input.head? = some e ∧ s.hub.cells.frame? e.id = some f ∧
      s.hub.mgmt.slots[k] = .free ∧ (∀ j, j < k → s.hub.mgmt.slots[j] ≠ .free) := by
  unfold requestReady at h
  split at h
  case h_2 => cases h
  case h_1 e' rest k' rq' hinput hslot hhead =>
    split at h
    case isFalse => cases h
    case isTrue =>
      obtain ⟨g, hg, heq⟩ := Option.map_eq_some_iff.mp h
      obtain ⟨rfl, rfl, rfl, rfl⟩ := by simpa using heq
      obtain ⟨hfree, hlow⟩ := freeSlot?_eq_some_iff.mp hslot
      exact ⟨by rw [hinput]; rfl, hg, hfree, hlow⟩

/-! ## The reading of a frame -/

section
variable {f : FrameRec} {p : Option Port} {h : Hub}

theorem flagN_mgmt (g : Flag) (n : Nat) (h : Hub) : ∃ flags, (Hub.flagN g n h).mgmt = { h.mgmt with flags := flags } := by
  induction n generalizing h with
  | zero => exact ⟨_, rfl⟩
  | succ n ih =>
    obtain ⟨flags, hflags⟩ := ih (h.flag g)
    exact ⟨flags, hflags⟩

/-- Of the Management Unit a reading changes the flags alone (R28). -/
theorem readFrame_mgmt (f : FrameRec) (p : Option Port) (h : Hub) :
    ∃ flags, (h.readFrame f p).2.mgmt = { h.mgmt with flags := flags } := by
  simp only [Hub.readFrame]
  obtain ⟨flags, hmulti⟩ := flagN_mgmt .memoryMulti _ (Hub.flagN .memorySingle _ _)
  obtain ⟨_, hsingle⟩ := flagN_mgmt .memorySingle _ { h with cells := _ }
  rw [hmulti, hsingle]
  exact ⟨flags, rfl⟩

theorem readFrame_marks : (h.readFrame f p).2.cells.high = h.cells.high ∧ (h.readFrame f p).2.cells.low = h.cells.low := by
  simp [Hub.readFrame, CellMemory.modFrame]

theorem readFrame_retired : (h.readFrame f p).2.cells.retired = h.cells.retired := by
  simp [Hub.readFrame, CellMemory.modFrame]

theorem readFrame_data : (h.readFrame f p).2.cells.data = h.cells.data := by
  simp [Hub.readFrame, CellMemory.modFrame]

/-- The frame read has the cells with a multi-bit error among its failed ones (R28). -/
theorem readFrame_frame {id : Nat} (hf : h.cells.frame? id = some f) : (h.readFrame f p).2.cells.frame? id =
    some { f with failed := f.failed ++ (h.readFrame f p).1.filter (fun x => !f.failed.contains x) } := by
  have hid : f.id = id := by simpa using List.find?_some hf
  simp only [Hub.readFrame, flagN_cells]
  rw [hid]
  exact frame?_modFrame_self (g := fun g => { g with failed := g.failed ++ _ }) hf (fun _ => rfl)

theorem readFrame_flagOf_multi : (h.readFrame f p).1 ≠ [] → (h.readFrame f p).2.flagOf .memoryMulti =
    { isSet := true, count := min ((h.flagOf .memoryMulti).count + (h.readFrame f p).1.length) 65535 } := by
  intro hne
  obtain ⟨n, hn⟩ := Nat.exists_eq_succ_of_ne_zero (mt List.eq_nil_of_length_eq_zero hne)
  have : (h.readFrame f p).2 = Hub.flagN .memoryMulti (h.readFrame f p).1.length _ := rfl
  rw [this, hn, Nat.succ_eq_add_one, flagOf_flagN_self, flagOf_flagN_ne _ _ (by decide)]
  rfl

end

/-! ## The take -/

/-- The state of a take as the entry leaves the queue, before its reference is dropped (R169). -/
def takenIn (k : Fin 4) (f : FrameRec) (rq : Request) (s : State) : State :=
  let h := Hub.setSlot k (.reserved rq.header none false) (s.hub.readFrame f none).2
  { s with hub := { h with mgmt := { h.mgmt with input := h.mgmt.input.tail } } }

theorem takeInto_of_reads {k : Fin 4} {e : InputEntry} {f : FrameRec} {rq : Request} {s : State}
    (hread : (s.hub.readFrame f none).1 = []) (hsrc : isGroup rq.src = false) :
    takeInto k e f rq s = (true, onHub (Hub.dropRef s.sender e.id) (takenIn k f rq s)) := by
  simp only [takeInto, hread, hsrc]
  rfl

theorem takeInto_of_unreadable {k : Fin 4} {e : InputEntry} {f : FrameRec} {rq : Request} {s : State}
    (hread : (s.hub.readFrame f none).1 ≠ []) : takeInto k e f rq s = (false,
      raiseNotice (.memoryError ((s.hub.readFrame f none).1.headD 0) (s.hub.readFrame f none).1.length f.kind e.port)
        (onHub (Hub.dropRef s.sender e.id) (onHub (Hub.freeSlot k) (requestDiscarded .memory e (takenIn k f rq s))))) := by
  simp only [takeInto]
  rw [if_pos (by simpa using hread)]
  rfl

theorem takeInto_of_group {k : Fin 4} {e : InputEntry} {f : FrameRec} {rq : Request} {s : State}
    (hread : (s.hub.readFrame f none).1 = []) (hsrc : isGroup rq.src = true) : takeInto k e f rq s = (false,
      onHub (Hub.dropRef s.sender e.id) (onHub (Hub.freeSlot k) (requestDiscarded .mgmtRefused e (takenIn k f rq s)))) := by
  simp only [takeInto, hread, hsrc]
  rfl

section
variable {s : State} {fs : List CellFault} {k : Fin 4} {rq : Request}

/-- The take of a request that goes on, as its own rule finds the Management Unit and the marks (R169). -/
structure TakeSpec (s : State) (k : Fin 4) (rq : Request) (t : State) : Prop where
  free : s.hub.mgmt.slots[k] = .free
  lowest : ∀ j, j < k → s.hub.mgmt.slots[j] ≠ .free
  slots : t.hub.mgmt.slots = s.hub.mgmt.slots.set k (.reserved rq.header none false)
  input : t.hub.mgmt.input = s.hub.mgmt.input.tail
  waiting : t.hub.mgmt.waiting = s.hub.mgmt.waiting
  builtOrder : t.hub.mgmt.builtOrder = s.hub.mgmt.builtOrder
  tally : t.hub.mgmt.tally = s.hub.mgmt.tally
  snapshot : t.hub.mgmt.snapshot = s.hub.mgmt.snapshot
  store : t.hub.mgmt.store = s.hub.mgmt.store
  reportAddr : t.hub.mgmt.reportAddr = s.hub.mgmt.reportAddr
  defaultIdle : t.hub.mgmt.defaultIdle = s.hub.mgmt.defaultIdle
  high : t.hub.cells.high = s.hub.cells.high
  low : t.hub.cells.low = s.hub.cells.low

theorem takenIn_mgmt (k : Fin 4) (f : FrameRec) (rq : Request) (s : State) : ∃ flags, (takenIn k f rq s).hub.mgmt =
    { s.hub.mgmt with slots := s.hub.mgmt.slots.set k (.reserved rq.header none false)
                      input := s.hub.mgmt.input.tail, flags := flags } := by
  obtain ⟨flags, hm⟩ := readFrame_mgmt f none s.hub
  refine ⟨flags, ?_⟩
  simp only [takenIn, Hub.setSlot, hm]

theorem afterTake_spec (ht : Takes s fs k rq) : TakeSpec s k rq (afterTake s fs) := by
  obtain ⟨e, f, hready, hread, hsrc, -⟩ := ht
  obtain ⟨-, -, hfree, hlow⟩ := requestReady_eq_some hready
  have hafter : afterTake s fs = onHub (Hub.dropRef (withFaults fs s).sender e.id) (takenIn k f rq (withFaults fs s)) := by
    simp only [afterTake, hready, takeInto_of_reads hread hsrc]
  obtain ⟨flags, hm⟩ := takenIn_mgmt k f rq (withFaults fs s)
  obtain ⟨hh, hl⟩ := readFrame_marks (f := f) (p := none) (h := (withFaults fs s).hub)
  have q := dropRef_quiet (withFaults fs s).sender e.id (takenIn k f rq (withFaults fs s)).hub
  rw [hafter]
  refine ⟨hfree, hlow, q.slots.trans ?_, q.input.trans ?_, q.waiting.trans ?_, q.builtOrder.trans ?_, q.tally.trans ?_,
    q.snapshot.trans ?_, q.store.trans ?_, q.reportAddr.trans ?_, q.defaultIdle.trans ?_, q.high.trans hh, q.low.trans hl⟩ <;>
    rw [hm] <;> rfl

/-- What a slot other than the one reserved holds, and what no RESERVED slot is, is as before the take. -/
theorem TakeSpec.test {t : State} (h : TakeSpec s k rq t) {test : ReplySlot → Bool} (hfree : test .free = false)
    (hres : ∀ q c b, test (.reserved q c b) = false) (j : Fin 4) : test t.hub.mgmt.slots[j] = test s.hub.mgmt.slots[j] := by
  rw [h.slots]
  by_cases hj : j = k
  · subst hj
    rw [h.free, hfree]
    simpa using hres _ _ _
  · have hval : k.val ≠ j.val := fun e => hj (Fin.ext e.symm)
    simp [hval]

end

end Sys2Proof.Laws
end

section
/-! The statements on SNAPSHOT, SAVE_SETTINGS and the timers of the hold exchange (chapters 1 and 10). -/

namespace Sys2Proof.Laws

open Sys2Proof Sys2Proof.Machine Sys2Proof.Safety

section
variable {s : State} {fs : List CellFault} {k : Fin 4} {rq : Request}

theorem slots_any_iff {m : Mgmt} {test : ReplySlot → Bool} :
    m.slots.toList.any test = true ↔ ∃ j : Fin 4, test m.slots[j] = true := by
  rw [List.any_eq_true]
  constructor
  · rintro ⟨q, hq, ht⟩
    obtain ⟨i, hi, rfl⟩ := List.mem_iff_getElem.mp hq
    exact ⟨⟨i, by simpa using hi⟩, by simpa using ht⟩
  · rintro ⟨j, hj⟩
    exact ⟨m.slots[j], by simp, hj⟩

/-- The take of a request parks nothing (R169, R174). -/
theorem TakeSpec.parked {t : State} (h : TakeSpec s k rq t) : snapshotParked t.hub.mgmt = snapshotParked s.hub.mgmt ∧
    saveParked t.hub.mgmt = saveParked s.hub.mgmt := by
  constructor <;> rw [Bool.eq_iff_iff]
  · simp only [snapshotParked, slots_any_iff, h.test (test := ReplySlot.isSnapshot) rfl (fun _ _ _ => rfl)]
  · simp only [saveParked, slots_any_iff, h.test (test := ReplySlot.isSave) rfl (fun _ _ _ => rfl)]

theorem TakeSpec.parkedSnapshot {t : State} (h : TakeSpec s k rq t) {p : Fin 4}
    (hp : parkedSnapshot s.hub.mgmt = some p) : parkedSnapshot t.hub.mgmt = some p := by
  rw [parkedSnapshot_eq_some_iff] at hp ⊢
  simpa only [h.test (test := ReplySlot.isSnapshot) rfl (fun _ _ _ => rfl)] using hp

theorem TakeSpec.header {t : State} (h : TakeSpec s k rq t) : t.hub.mgmt.slots[k].header? = some rq.header := by
  rw [h.slots]
  simp [ReplySlot.header?]

end

/-! ## The snapshot -/

/-- The snapshot area as a taking makes it (R182). -/
def snapshotOf (s : State) : Snapshot :=
  { number := s.sched.number, entries := s.table.slots.map (fun o => o.map Station.snapshotEntry) }

theorem snapshotOf_entry (s : State) (j : Fin 256) :
    (snapshotOf s).entries[j] = (s.station? j).map Station.snapshotEntry := by
  simp [snapshotOf, State.station?, StationTable.station?]

theorem takeSnapshot_eq (s : State) : takeSnapshot s =
    { s with hub := { s.hub with mgmt := { s.hub.mgmt with snapshot := some (snapshotOf s) } } } := rfl

theorem takeParkedSnapshot_eq {s : State} {p : Fin 4} (h : parkedSnapshot s.hub.mgmt = some p) :
    takeParkedSnapshot s = fixReply p (.fixed .ok (snapshotReply (takeSnapshot s))) false (takeSnapshot s) := by
  simp only [takeParkedSnapshot, h]

/-- What a boundary or a stop makes of the records keeps what a snapshot copies of them (R182). -/
structure SameEntries (t u : State) : Prop where
  entries : ∀ j, (u.station? j).map Station.snapshotEntry = (t.station? j).map Station.snapshotEntry

theorem SameEntries.ofTable {t u : State} (h : u.table = t.table) : SameEntries t u :=
  ⟨fun j => by rw [State.station?, h]; rfl⟩

theorem SameEntries.trans {r t u : State} (h : SameEntries r t) (g : SameEntries t u) : SameEntries r u :=
  ⟨fun j => (g.entries j).trans (h.entries j)⟩

theorem SameEntries.ofMap {t u : State} (g : Station → Station) (h : ∀ j, u.station? j = (t.station? j).map g)
    (hg : ∀ st, (g st).snapshotEntry = st.snapshotEntry) : SameEntries t u :=
  ⟨fun j => by rw [h]; cases t.station? j <;> simp [hg]⟩

/-- The same slots are empty. -/
theorem SameEntries.occupied {t u : State} (h : SameEntries t u) :
    u.table.slotsWhere (fun _ => true) = t.table.slotsWhere (fun _ => true) := by
  refine List.filter_congr (fun j _ => ?_)
  have hj := h.entries j
  unfold State.station? StationTable.station? at hj
  cases ht : t.table.slots[j] <;> cases hu : u.table.slots[j] <;> simp [ht, hu] at hj ⊢

/-! ## Boundaries and stops -/

/-- The parameters that a boundary puts in force (R114). -/
def boundaryParams (s : State) : Params := s.sched.pendingParams.getD s.sched.params

/-- The records as a boundary's pending shaping makes them (R118). -/
def boundaryShaped (s : State) : Vector (Option Station) 256 := s.table.slots.map (fun o => o.map Station.shapeAtBoundary)

/-- The total weight of a boundary (R120). -/
def boundaryWeight (s : State) : Nat := totalWeight (boundaryParams s) s.sched.number (boundaryShaped s)

theorem computeBoundary_station (adv : Bool) (s : State) (j : Fin 256) : (computeBoundary adv s).station? j =
    (s.station? j).map (fun st => st.shapeAtBoundary.atBoundary (boundaryParams s) s.sched.number (boundaryWeight s)) := by
  simp [computeBoundary, State.station?, StationTable.station?, Function.comp_def, boundaryParams, boundaryWeight,
    boundaryShaped]

theorem computeBoundary_entries (adv : Bool) (s : State) : SameEntries s (computeBoundary adv s) := by
  refine .ofMap _ (computeBoundary_station adv s) (fun st => ?_)
  unfold Station.shapeAtBoundary
  split <;> rfl

theorem computeStop_entries (s : State) : SameEntries s (computeStop s) :=
  .ofMap Station.atStop (fun j => station?_mapSlots s.table Station.atStop j) (fun _ => rfl)

/-- A boundary is the same at a later moment: it resets what the passing of time changes of the scheduler (R111). -/
theorem computeBoundary_elapse (adv : Bool) (d : Nat) (s : State) :
    computeBoundary adv (elapse d s) = { computeBoundary adv s with now := s.now + d } := by
  unfold elapse Scheduler.pass
  split
  · rfl
  · split <;> rfl

/-- A parked SNAPSHOT is taken of the records as they are (R182). -/
theorem takeParkedSnapshot_taken {r t u : State} {p : Fin 4} {number : Count32} (he : SameEntries r u) (hub : u.hub = t.hub)
    (hp : parkedSnapshot t.hub.mgmt = some p) (hn : u.sched.number = number) : ∃ sn : Snapshot,
      takeParkedSnapshot u = fixReply p (.fixed .ok
        (beBytes 4 number.toNat ++ beBytes 2 (r.table.slotsWhere (fun _ => true)).length)) false
        { u with hub := { t.hub with mgmt := { t.hub.mgmt with snapshot := some sn } } } ∧
      sn.number = number ∧ ∀ j : Fin 256, sn.entries[j] = (r.station? j).map Station.snapshotEntry := by
  refine ⟨snapshotOf u, ?_, hn, fun j => (snapshotOf_entry u j).trans (he.entries j)⟩
  rw [takeParkedSnapshot_eq (hub ▸ hp), ← hub, ← he.occupied, ← hn]
  rfl

/-! ## The body of SAVE_SETTINGS -/

theorem readReport_eq_none {r : Request} {old : Option LinkAddr} (h : 2 < r.num 0 1) : readReport r old = none := by
  obtain ⟨n, hn⟩ : ∃ n, r.num 0 1 = n + 3 := ⟨r.num 0 1 - 3, by omega⟩
  simp [readReport, hn]

theorem readReport_of_code {r : Request} {old report : Option LinkAddr} (h : r.num 0 1 = 0 ∧ report = old ∨
    r.num 0 1 = 1 ∧ report = none ∨ r.num 0 1 = 2 ∧ report = some (r.addr 2)) : readReport r old = some report := by
  rcases h with ⟨h, rfl⟩ | ⟨h, rfl⟩ | ⟨h, rfl⟩ <;> simp only [readReport, h]

theorem readIdle_eq_none {r : Request} {old : Nat} (h : 1 < r.num 1 1) : readIdle r old = none := by
  obtain ⟨n, hn⟩ : ∃ n, r.num 1 1 = n + 2 := ⟨r.num 1 1 - 2, by omega⟩
  simp [readIdle, hn]

theorem readIdle_of_code {r : Request} {old idle : Nat} (h : r.num 1 1 = 0 ∧ idle = old ∨
    r.num 1 1 = 1 ∧ idle = r.num 8 2) : readIdle r old = some idle := by
  rcases h with ⟨h, rfl⟩ | ⟨h, rfl⟩ <;> simp only [readIdle, h]

end Sys2Proof.Laws

namespace Sys2Proof.Proofs

open Sys2Proof Sys2Proof.Machine Sys2Proof.Safety Sys2Proof.Laws

/-- Settles O36: each timer's command moves the time to its moment and acts there (R14, R16, R17). -/
theorem holdTimersExpire : Obligations.HoldTimersExpire := by
  unfold Obligations.HoldTimersExpire
  have hmax (a m : Nat) : a + (m - a) = max a m := by omega
  refine ⟨fun x s m => ?_, fun x s u m hu hm => ?_⟩
  · refine ⟨fun h => ?_, fun h ho hq => ?_, fun h hno => ?_⟩
    · simp only [exec, execHeldUntilReached, h, waitUntil, elapse, hmax]
      rfl
    · simp only [exec, execHoldRepeatTimerExpiry, h, waitUntil, elapse, hmax, repeatHold]
      rw [if_pos ⟨ho, hq⟩]
      rfl
    · simp only [exec, execHoldRepeatTimerExpiry, h, waitUntil, elapse, hmax, repeatHold]
      rw [if_neg (fun ⟨ho, hq⟩ => hno.elim (fun h => by simp [h] at ho) (fun h => by omega))]
      rfl
  · have hlimit (ho : (s.ports.endOf x).overrun = false) :
        (s.ports.endOf x).limitAt s.hold.limit = some (m + 100 * s.hold.limit) :=
      limitAt_iff.mpr ⟨u, m, hu, hm, ho, rfl⟩
    refine ⟨fun ho hd => ?_, fun ho hd => ?_, fun ho => ?_⟩
    · simp only [exec, execHoldLimitExpiry, hlimit ho, hu, Option.getD_some, hd, if_true, waitUntil, elapse, hmax]
      rfl
    · simp only [exec, execHoldLimitExpiry, hlimit ho, hu, Option.getD_some, Nat.not_le.mpr hd, if_false]
    · have hnone : (s.ports.endOf x).limitAt s.hold.limit = none := by simp [BackboneEnd.limitAt, hu, hm, ho]
      simp only [exec, execHoldLimitExpiry, hnone]

/-- Settles O59: the request parks with the image of the settings in force, and the end of the write decides (R185,
R186). -/
theorem saveWritesTheStore : Obligations.SaveWritesTheStore := by
  unfold Obligations.SaveWritesTheStore
  refine ⟨fun s fs k rq ht hc => ?_, fun s k image m hp => ⟨?_, ?_⟩⟩
  · have hexec : exec (.saveSettings fs) s = .next (ruleSaveSettings k rq (afterTake s fs)) :=
      congrArg Host.Outcome.next (takeRequest_of_takes ht (isCode_of_eq hc))
    have hspec := afterTake_spec ht
    have hports := afterTake_ports ht
    obtain ⟨hkept, -⟩ := afterTake_kept s fs
    obtain ⟨-, hsave⟩ := hspec.parked
    rw [hexec, ruleSaveSettings, hsave]
    refine ⟨fun hp => by rw [if_pos hp], fun hp hbad => ?_, fun report idle hp hreport hidle => ?_⟩
    · have hnone : readReport rq (afterTake s fs).hub.mgmt.reportAddr = none ∨
          readIdle rq (afterTake s fs).hub.mgmt.defaultIdle = none := hbad.imp readReport_eq_none readIdle_eq_none
      simp only [hp, Bool.false_eq_true, if_false]
      split
      case h_1 hr hi => exact absurd hnone (by simp [hr, hi])
      case h_2 => rfl
    · set saving := setStore { s.hub.mgmt.store with checkOk := false } (setReport report idle (afterTake s fs)) with hsaving
      have hheader : saving.hub.mgmt.slots[k].header? = some rq.header := hspec.header
      simp only [hp, Bool.false_eq_true, if_false, hspec.reportAddr, hspec.defaultIdle, readReport_of_code hreport,
        readIdle_of_code hidle, startSave]
      rw [show (setReport report idle (afterTake s fs)).hub.mgmt.store = s.hub.mgmt.store from hspec.store,
        ← hsaving, park_of_header _ hheader]
      simp only [hsaving, Hub.setSlot, setStore, setReport, storeImage, hports, hkept.windows, hkept.sched, hkept.hold, hkept.now,
        hspec.high, hspec.low]
  · simp only [exec, execStoreWriteEnds, hp, endSave]
    rfl
  · simp only [exec, execStoreWriteEnds, hp, endSave]
    rfl

/-- Settles O58: a snapshot is of the records as they are, and a boundary or a stop keeps what it copies (R174, R182). -/
theorem snapshotIsTakenOrParks : Obligations.SnapshotIsTakenOrParks := by
  unfold Obligations.SnapshotIsTakenOrParks
  refine ⟨fun s fs k rq ht hc => ?_, fun s p h hslot hlow => ?_⟩
  · have hexec : exec (.snapshot fs) s = .next (ruleSnapshot k rq (afterTake s fs)) :=
      congrArg Host.Outcome.next (takeRequest_of_takes ht (isCode_of_eq hc))
    have hspec := afterTake_spec ht
    have hsched : (afterTake s fs).sched = s.sched := afterTake_sched
    rw [hexec, ruleSnapshot, hspec.parked.1, hsched]
    refine ⟨fun hp => by rw [if_pos hp], fun hp hr => ?_, fun hp hr => ⟨snapshotOf (afterTake s fs), ?_, ?_, fun j => ?_⟩⟩
    · simp only [hp, Bool.false_eq_true, if_false, hr, if_true]
      rw [park_of_header _ hspec.header]
      rfl
    · simp only [hp, Bool.false_eq_true, if_false, hr, takeSnapshot_eq, snapshotReply, hsched, afterTake_table]
    · exact congrArg Scheduler.number hsched
    · rw [snapshotOf_entry, State.station?, afterTake_table]
      rfl
  · have hp : parkedSnapshot s.hub.mgmt = some p := parkedSnapshot_eq_some_iff.mpr ⟨by rw [hslot]; rfl, hlow⟩
    refine ⟨fun hr => ⟨_, by simp only [exec, execEpochCounterExpiry, hr, if_true]; rfl, ?_⟩, fun fs k rq ht hc => ?_⟩
    · rw [expireEpoch, boundary, computeBoundary_elapse]
      exact takeParkedSnapshot_taken (u := { computeBoundary true s with now := _ })
        ((computeBoundary_entries true s).trans (.ofTable rfl)) rfl hp rfl
    · have hpt := (afterTake_spec ht).parkedSnapshot hp
      have hsched : (afterTake s fs).sched = s.sched := afterTake_sched
      have htake : SameEntries s (afterTake s fs) := .ofTable afterTake_table
      have hnumber := congrArg Scheduler.number hsched
      have hadvanced := takeParkedSnapshot_taken (number := s.sched.number + 1)
        (htake.trans (computeBoundary_entries true _)) (t := afterTake s fs) rfl hpt (congrArg (· + 1) hnumber)
      have hstarted := takeParkedSnapshot_taken (number := s.sched.number)
        (u := computeBoundary false { afterTake s fs with sched := { s.sched with running := true } })
        ((htake.trans (u := { afterTake s fs with sched := { s.sched with running := true } }) (.ofTable rfl)).trans
          (computeBoundary_entries false _)) (t := afterTake s fs) rfl hpt rfl
      have hstopped := takeParkedSnapshot_taken (htake.trans (computeStop_entries _)) (t := afterTake s fs) rfl hpt hnumber
      refine ⟨fun ha hr => ⟨_, ?_, hadvanced⟩, fun ha hr => ⟨_, ?_, hstarted⟩, fun ha hr => ⟨_, ?_, hstarted⟩,
        fun ha hr => ⟨_, ?_, hstopped⟩⟩
      · rw [execSchedulerRestart_of_takes ht hc ha, ruleSchedulerRestart, hsched, if_pos hr]
        rfl
      · rw [execSchedulerStart_of_takes ht hc (by omega) (by omega), ruleSchedulerStart, if_neg (by omega), hsched,
          if_neg (by simp [hr]), startScheduler, hsched]
        rfl
      · rw [execSchedulerRestart_of_takes ht hc ha, ruleSchedulerRestart, hsched, if_neg (by simp [hr]), startScheduler, hsched]
        rfl
      · rw [execSchedulerStop_of_takes ht hc ha, ruleSchedulerStop, hsched, if_pos hr]
        rfl

end Sys2Proof.Proofs
end

section
/-! SUPPORT. Which row takes a request (R170, log entry 19), and the request table of 11.2. -/

namespace Sys2Proof.Laws

open Sys2Proof Sys2Proof.Machine Sys2Proof.Safety

/-- The row test of each command of a request row. -/
def rowTest : Instr → Request → Bool
  | .readStation _ => isCode 0x01
  | .listStations _ => isCode 0x02
  | .admitStation _ => isCode 0x03
  | .bar _ => isCode 0x04
  | .unbar _ => isCode 0x05
  | .release _ => isCode 0x06
  | .setAllowance _ => isCode 0x07
  | .renew _ => fun rq => isCode 0x08 rq && decide (rq.num 0 1 ≠ 1)
  | .renewAll _ => fun rq => isCode 0x08 rq && decide (rq.num 0 1 = 1)
  | .setShaping _ => isCode 0x09
  | .setEpoch _ => isCode 0x0A
  | .schedulerStart _ => fun rq => isCode 0x0B rq && decide (rq.num 0 1 ≠ 2) && decide (rq.num 0 1 ≠ 3)
  | .schedulerStop _ => fun rq => isCode 0x0B rq && decide (rq.num 0 1 = 2)
  | .schedulerRestart _ => fun rq => isCode 0x0B rq && decide (rq.num 0 1 = 3)
  | .readScheduler _ => isCode 0x0C
  | .writeWindow _ => isCode 0x0D
  | .readWindow _ => isCode 0x0E
  | .setPort _ => isCode 0x0F
  | .readPort _ => isCode 0x10
  | .setHold _ => isCode 0x11
  | .setMemoryLimits _ => isCode 0x12
  | .setConsist _ => isCode 0x13
  | .readStatus _ => isCode 0x14
  | .clearStatus _ => isCode 0x15
  | .snapshot _ => isCode 0x16
  | .readSnapshot _ => isCode 0x17
  | .saveSettings _ => isCode 0x18
  | .reset _ => isCode 0x19
  | .unknownRequestCode _ => isUnknownCode
  | _ => fun _ => false

/-- A command of a request row takes the request at the head where its row test holds (R169). -/
theorem exec_requestRow {fs : List CellFault} {i : Instr} (hi : i ∈ requestRows fs) :
    ∃ rule, ∀ s, exec i s = .next (takeRequest (rowTest i) fs rule s) := by
  revert i
  simp only [requestRows, List.forall_mem_cons, List.not_mem_nil, false_implies, implies_true, and_true]
  and_intros <;> exact ⟨_, fun _ => rfl⟩

theorem rowOf_mem (rq : Request) (fs : List CellFault) : rowOf rq fs ∈ requestRows fs := by
  unfold rowOf requestRows
  split
  case h_8 => split <;> simp
  case h_11 => split <;> [skip; split] <;> simp
  all_goals simp

theorem rowOf_of_unknown {rq : Request} {fs : List CellFault} (h : requestInfo rq.code = none) :
    rowOf rq fs = .unknownRequestCode fs := by
  unfold rowOf
  split
  case h_26 => rfl
  all_goals simp_all [requestInfo]

/-- The row of a request's code takes it. -/
theorem rowTest_rowOf (rq : Request) (fs : List CellFault) : rowTest (rowOf rq fs) rq = true := by
  unfold rowOf
  split
  case h_8 hc =>
    split
    · simp [rowTest, isCode, *]
    · simp [rowTest, isCode, *]
  case h_11 hc =>
    split
    · simp [rowTest, isCode, *]
    · split <;> simp [rowTest, isCode, *]
  case h_26 =>
    have : requestInfo rq.code = none := by
      unfold requestInfo
      split
      case h_26 => rfl
      all_goals contradiction
    simp [rowTest, isUnknownCode, this]
  all_goals simp [rowTest, isCode, *]

/-- A row that takes a request is the row of its code. -/
theorem eq_rowOf {fs : List CellFault} {i : Instr} {rq : Request} (hi : i ∈ requestRows fs) (h : rowTest i rq = true) :
    i = rowOf rq fs := by
  revert i
  simp only [requestRows, List.forall_mem_cons, List.not_mem_nil, false_implies, implies_true, and_true]
  and_intros
  on_goal 29 =>
    intro h
    exact (rowOf_of_unknown (by simpa [rowTest, isUnknownCode] using h)).symm
  all_goals
    simp only [rowTest, isCode, Bool.and_eq_true, decide_eq_true_eq, rowOf]
    intro h
    simp [h]

/-! ## The request table -/

/-- The request table of 11.2: code, body length, and whether it is open to CREW. -/
def requestTable : List (Nat × Nat × Bool) :=
  [(0x01, 6, true), (0x02, 1, true), (0x03, 28, false), (0x04, 6, true), (0x05, 6, true), (0x06, 6, false),
    (0x07, 16, false), (0x08, 8, false), (0x09, 14, false), (0x0A, 12, false), (0x0B, 1, false), (0x0C, 0, true),
    (0x0D, 12, false), (0x0E, 1, true), (0x0F, 2, false), (0x10, 1, true), (0x11, 3, false), (0x12, 4, false),
    (0x13, 2, false), (0x14, 0, true), (0x15, 3, false), (0x16, 0, false), (0x17, 1, false), (0x18, 10, false),
    (0x19, 0, false)]

theorem requestInfo_of_mem {c len : Nat} {crewMay : Bool} (h : (c, len, crewMay) ∈ requestTable) :
    requestInfo c = some (len, crewMay) := by
  have hall : ∀ row ∈ requestTable, requestInfo row.1 = some row.2 := by decide
  exact hall _ h

theorem requestInfo_of_not_mem {c : Nat} (h : ∀ row ∈ requestTable, row.1 ≠ c) : requestInfo c = none := by
  unfold requestInfo
  split
  case h_26 => rfl
  all_goals simp [requestTable] at h

/-! ## Takes that end with no reply -/

section
variable {s : State} {fs : List CellFault} {k : Fin 4} {e : InputEntry} {f : FrameRec} {rq : Request}

theorem takeRequest_of_ended {row : Request → Bool} {rule : Fin 4 → Request → State → State} {t : State}
    (hready : requestReady s = some (k, e, f, rq)) (hrow : row rq = true)
    (hend : takeInto k e f rq (withFaults fs s) = (false, t)) : takeRequest row fs rule s = t := by
  simp only [takeRequest, hready, hrow, hend, if_true]
  rfl

/-- What the end of a take with no reply leaves, less the drop of the reference (R8, R30, R170): `u`. -/
def takeEnded (why : Discard) (k : Fin 4) (e : InputEntry) (f : FrameRec) (rq : Request) (s : State) : State :=
  onHub (Hub.freeSlot k) (requestDiscarded why e (takenIn k f rq s))

theorem takenIn_frame (hf : s.hub.cells.frame? e.id = some f) : (takenIn k f rq s).hub.cells.frame? e.id =
    some { f with failed := f.failed ++ (s.hub.readFrame f none).1.filter (fun x => !f.failed.contains x) } :=
  readFrame_frame hf

end

end Sys2Proof.Laws

namespace Sys2Proof.Proofs

open Sys2Proof Sys2Proof.Machine Sys2Proof.Safety Sys2Proof.Laws

/-- Settles O40: the row of the code takes the request, and the request table decides (R170). -/
theorem commonChecksRefuse : Obligations.CommonChecksRefuse := by
  unfold Obligations.CommonChecksRefuse
  intro s fs k e f rq hready table
  refine ⟨fun hread hsrc => ⟨fun hno => ?_, fun len crewMay hmem => ?_⟩, fun i hi hne => ?_⟩
  · have hinfo : requestInfo rq.code = none := requestInfo_of_not_mem hno
    have hcommon : commonRefusal rq = some .badRequest := by simp only [commonRefusal, hinfo]
    have hunknown : exec (.unknownRequestCode fs) s = .next (refuse k .badRequest (afterTake s fs)) :=
      congrArg Host.Outcome.next (takeRequest_of_commonRefusal hready (by simp [isUnknownCode, hinfo]) hread hsrc hcommon)
    exact ⟨hunknown, rowOf_of_unknown hinfo ▸ hunknown⟩
  · have hinfo : requestInfo rq.code = some (len, crewMay) := requestInfo_of_mem hmem
    obtain ⟨rule, hexec⟩ := exec_requestRow (rowOf_mem rq fs)
    have hrefused {st : Status} (hst : commonRefusal rq = some st) :
        exec (rowOf rq fs) s = .next (refuse k st (afterTake s fs)) := by
      rw [hexec, takeRequest_of_commonRefusal hready (rowTest_rowOf rq fs) hread hsrc hst]
    refine ⟨fun hbad => hrefused ?_, fun hlen hframe => ⟨fun hlevel hcrew => hrefused ?_, fun hok => ?_⟩⟩
    · simp only [commonRefusal, hinfo, if_pos hbad]
    · simp only [commonRefusal, hinfo]
      rw [if_neg (by omega), if_pos ⟨hlevel, hcrew⟩]
    · refine ⟨e, f, hready, hread, hsrc, ?_⟩
      simp only [commonRefusal, hinfo]
      rw [if_neg (by omega), if_neg (fun h => by rcases hok with hok | hok <;> simp [hok] at h)]
  · obtain ⟨rule, hexec⟩ := exec_requestRow hi
    have hrow : rowTest i rq = false := by
      rw [← Bool.not_eq_true]
      exact fun h => hne (eq_rowOf hi h)
    rw [hexec, takeRequest_none (.inr ⟨k, e, f, rq, hready, hrow⟩)]

end Sys2Proof.Proofs
end

section
/-! The statement on the take of a request (chapter 10). -/

namespace Sys2Proof.Laws

open Sys2Proof Sys2Proof.Machine Sys2Proof.Safety

section
variable {s : State} {fs : List CellFault} {k : Fin 4} {e : InputEntry} {f : FrameRec} {rq : Request} {why : Discard}

/-- What a take that ends with no reply leaves of the Management Unit, before the reference is dropped (R8, R30, R170). -/
theorem takeEnded_mgmt (hfree : s.hub.mgmt.slots[k] = .free) :
    (takeEnded why k e f rq s).hub.mgmt.input = s.hub.mgmt.input.tail ∧
      (takeEnded why k e f rq s).hub.mgmt.slots = s.hub.mgmt.slots ∧
      (takeEnded why k e f rq s).hub.mgmt.reportAddr = s.hub.mgmt.reportAddr ∧
      ∀ r, (takeEnded why k e f rq s).hub.tallyOf r = s.hub.tallyOf r + BitVec.ofNat 32 (countAt why 1 r) := by
  obtain ⟨flags, hm⟩ := takenIn_mgmt k f rq s
  have hreport : (takenIn k f rq s).hub.mgmt.reportAddr = s.hub.mgmt.reportAddr := by rw [hm]
  refine ⟨congrArg Mgmt.input hm, ?_, hreport, fun r => ?_⟩
  · show (takenIn k f rq s).hub.mgmt.slots.set k .free = _
    rw [hm]
    show (s.hub.mgmt.slots.set k _).set k .free = _
    rw [Vector.set_set, ← hfree]
    exact Vector.set_getElem_self _
  · refine (tallyOf_tally why r (takenIn k f rq s).hub).trans ?_
    rw [Hub.tallyOf, hm]
    rfl

theorem isMulti_congr {c c' : CellMemory} {g g' : FrameRec} (hdata : c'.data = c.data) (hchain : g'.chain = g.chain)
    (harrival : g'.arrival = g.arrival) : c'.isMulti g' = c.isMulti g := by
  simp only [CellMemory.isMulti, CellMemory.frameByte, hdata, hchain, harrival]

theorem takenIn_rxPort (hf : s.hub.cells.frame? e.id = some f) : (takenIn k f rq s).hub.cells.rxPort e.id =
    if s.hub.cells.isMulti f then none else f.arrival := by
  rw [CellMemory.rxPort, takenIn_frame hf]
  have hmulti : (takenIn k f rq s).hub.cells.isMulti
      { f with failed := f.failed ++ (s.hub.readFrame f none).1.filter (fun x => !f.failed.contains x) } =
      s.hub.cells.isMulti f := isMulti_congr readFrame_data rfl rfl
  simp only [hmulti]

/-- The reading's failed cells among those of the frame read (R28). -/
theorem contains_failed (failed bad : List Nat) (x : Nat) :
    (failed ++ bad.filter (fun y => !failed.contains y)).contains x = (failed.contains x || bad.contains x) := by
  rw [Bool.eq_iff_iff]
  simp only [List.contains_iff_mem, List.mem_append, List.mem_filter, Bool.not_eq_true', Bool.or_eq_true]
  by_cases h : x ∈ failed <;> simp [h]

theorem frame?_filter_self {c c' : CellMemory} {id : Nat}
    (h : c'.frames = c.frames.filter (fun g => decide (g.id ≠ id))) : c'.frame? id = none := by
  rw [CellMemory.frame?, h, List.find?_eq_none]
  intro g hg
  simpa using (List.mem_filter.mp hg).2

end

end Sys2Proof.Laws

namespace Sys2Proof.Proofs

open Sys2Proof Sys2Proof.Machine Sys2Proof.Safety Sys2Proof.Laws

/-- The state after a take that ends with no reply (R30, R170), as the statement lists it. -/
theorem takeEnded_ends {s : State} {fs : List CellFault} {k : Fin 4} {e : InputEntry} {f : FrameRec} {rq : Request}
    (why : Discard) (hready : requestReady s = some (k, e, f, rq)) :
    let w := takeEnded why k e f rq (withFaults fs s)
    let t := onHub (Hub.dropRef (withFaults fs s).sender e.id) w
    let bad := ((withFaults fs s).hub.readFrame f none).1
    t.hub.mgmt.input = s.hub.mgmt.input.tail ∧ t.hub.mgmt.slots = s.hub.mgmt.slots ∧ t.hub.mgmt.slots[k] = .free ∧
      t.hub.tallyOf why = s.hub.tallyOf why + 1 ∧ (∀ r, r ≠ why → t.hub.tallyOf r = s.hub.tallyOf r) ∧
      (s.hub.cells.isMulti f = true → t.ports = s.ports) ∧
      (∀ p, s.hub.cells.isMulti f = false → f.arrival = some p →
        t.ports = s.ports.count p (fun c => { c with rxDiscards := c.rxDiscards + 1 })) ∧
      (1 < f.refs → ∃ g, t.hub.cells.frame? e.id = some g ∧ g.refs = f.refs - 1 ∧ ∀ x ∈ bad, x ∈ g.failed) ∧
      (f.refs ≤ 1 → t.hub.cells.retired = s.hub.cells.retired ++
          (f.chain.filter (fun x => f.failed.contains x || bad.contains x)).take (64 - s.hub.cells.retired.length) ∧
        (s.hub.mgmt.reportAddr = none → t.hub.cells.frame? e.id = none)) ∧
      blocks t = blocks s := by
  intro w t bad
  obtain ⟨-, hf, hfree, -⟩ := requestReady_eq_some hready
  have hf' : (withFaults fs s).hub.cells.frame? e.id = some f := hf
  obtain ⟨hinput, hslots, hreport, htally⟩ := takeEnded_mgmt (s := withFaults fs s) (e := e) (f := f) (rq := rq) (why := why) hfree
  have q : Quiet w.hub t.hub := dropRef_quiet _ _ _
  have hports : t.ports = s.ports.count? (if s.hub.cells.isMulti f then none else f.arrival) PortCounters.rxDiscard := by
    show s.ports.count? ((takenIn k f rq (withFaults fs s)).hub.cells.rxPort e.id) _ = _
    rw [takenIn_rxPort hf']
    rfl
  obtain ⟨-, hdropped⟩ := dropRef_dropped e.id (s := w) (t := t) rfl
  obtain ⟨hshared, hlast⟩ := hdropped _ (takenIn_frame (k := k) (rq := rq) hf')
  refine ⟨q.input.trans hinput, q.slots.trans hslots, ?_, ?_, fun r hr => ?_, fun hm => ?_, fun p hm hp => ?_, fun hr => ?_,
    fun hr => ⟨?_, fun hn => ?_⟩, rfl⟩
  · rw [q.slots.trans hslots]
    exact hfree
  · rw [q.tallyOf, htally, countAt_self]
    rfl
  · rw [q.tallyOf, htally, countAt_ne _ hr]
    simp
    rfl
  · rw [hports, hm]
    rfl
  · rw [hports, hm, hp]
    rfl
  · obtain ⟨hframe, -⟩ := hshared hr
    refine ⟨_, hframe, rfl, fun x hx => ?_⟩
    have := contains_failed f.failed bad x
    rw [List.contains_iff_mem.mpr hx, Bool.or_true] at this
    exact List.contains_iff_mem.mp this
  · obtain ⟨-, hretired, -⟩ := hlast hr
    rw [hretired]
    simp only [contains_failed]
    have : w.hub.cells.retired = s.hub.cells.retired := readFrame_retired
    rw [this]
  · obtain ⟨⟨new, hframes, -, hnew⟩, -⟩ := hlast hr
    rw [hnew (hreport.trans hn), List.append_nil] at hframes
    exact frame?_filter_self hframes

/-- Settles O37: a take that goes on, the takes that are not made, and those that end with no reply (R169 to R172). -/
theorem takeReservesASlot : Obligations.TakeReservesASlot := by
  unfold Obligations.TakeReservesASlot
  refine ⟨fun s fs k rq ht => ?_, fun s k e f he hf hk hlow hw => requestReady_some he hf hk hlow hw,
    fun s fs hnone i hi => ?_, fun s fs k e f rq hready => ?_⟩
  · have h := afterTake_spec ht
    refine ⟨h.input, h.free, h.lowest, afterTake_slot ht, fun j hj => ?_, h.waiting, h.builtOrder, h.tally, afterTake_ports ht,
      afterTake_blocks, (afterTake_kept s fs).1.pending, fun e f he hf => ?_⟩
    · have hval : k.val ≠ j.val := fun e => hj (Fin.ext e.symm)
      rw [h.slots]
      simp [hval]
    · obtain ⟨e', f', hready, hread, hsrc, -⟩ := ht
      obtain ⟨he', hf', -⟩ := requestReady_eq_some hready
      obtain rfl := Option.some.inj (he'.symm.trans he)
      obtain rfl := Option.some.inj (hf'.symm.trans hf)
      have hafter : afterTake s fs = onHub (Hub.dropRef (withFaults fs s).sender e'.id) (takenIn k f' rq (withFaults fs s)) := by
        simp only [afterTake, hready, takeInto_of_reads hread hsrc]
      rw [hafter]
      exact dropRef_dropped e'.id (s := takenIn k f' rq (withFaults fs s)) rfl
  · obtain ⟨rule, hexec⟩ := exec_requestRow hi
    rw [hexec, takeRequest_none (.inl (requestReady_none hnone))]
  · obtain ⟨rule, hexec⟩ := exec_requestRow (rowOf_mem rq fs)
    refine ⟨fun hbad => ⟨_, ?_, takeEnded_ends .memory hready, ?_⟩, fun hread hsrc => ⟨_, ?_, takeEnded_ends .mgmtRefused hready⟩⟩
    · rw [hexec, takeRequest_of_ended hready (rowTest_rowOf rq fs) (takeInto_of_unreadable hbad)]
      rfl
    · refine (dropRef_flagOf _ _ _ (by decide) (by decide) (by decide)).trans ?_
      exact readFrame_flagOf_multi hbad
    · rw [hexec, takeRequest_of_ended hready (rowTest_rowOf rq fs) (takeInto_of_group hread hsrc)]
      rfl

end Sys2Proof.Proofs
end

section
/-! What a built frame holds, and the statement on notices (R26, R175, R177). -/

namespace Sys2Proof.Laws

open Sys2Proof Sys2Proof.Machine Sys2Proof.Safety

/-! ## A built frame -/

/-- The stack names no cell twice, and none in which a stored frame's record stands (`StackOk` of a hub alone). -/
structure HubStackOk (h : Hub) : Prop where
  nodup : h.cells.free.Nodup
  records : ∀ f ∈ h.cells.frames, f.id ∉ h.cells.free

theorem hubStackOk_of (s : State) (h : StackOk s) : HubStackOk s.hub := ⟨h.1, h.2⟩

/-- The record of a frame that has been built (R26). -/
def builtRecord (kind : FrameKind) (bytes : List Byte) (chain : List Nat) : FrameRec :=
  { length := bytes.length + 4, arrival := none, kind := kind, metered := false, chain := chain, refs := 1,
    station := none, failed := [] }

/-- The frame `id` stands in Cell Memory as built: one reference, its own cells off the stack, and its bytes in them. -/
structure BuiltIn (c : CellMemory) (kind : FrameKind) (bytes : List Byte) (id : Nat) (chain : List Nat) : Prop where
  record : c.frame? id = some (builtRecord kind bytes chain)
  off : ∀ x ∈ chain, x ∉ c.free
  room : bytes.length ≤ 256 * chain.length
  bytes : c.data.chainBytes chain bytes.length = bytes

theorem BuiltIn.takes {c : CellMemory} {kind : FrameKind} {bytes : List Byte} {id : Nat} {chain : List Nat}
    (h : BuiltIn c kind bytes id chain) :
    (c.frameBytes (builtRecord kind bytes chain)).take bytes.length = bytes := by
  refine Eq.trans ?_ h.bytes
  simp [CellMemory.frameBytes, builtRecord, Memory.chainBytes, ← List.map_take, List.take_range]

theorem BuiltIn.frame {c : CellMemory} {kind : FrameKind} {bytes : List Byte} {id : Nat} {chain : List Nat}
    (h : BuiltIn c kind bytes id chain) : ∃ g, c.frame? id = some g ∧ g.kind = kind ∧ g.refs = 1 ∧
      g.length = bytes.length + 4 ∧ (c.frameBytes g).take bytes.length = bytes :=
  ⟨_, h.record, rfl, rfl, rfl, h.takes⟩

theorem chainBytes_writeChain_out {m : Memory} {chain other : List Nat} {bs : List Byte} {n : Nat}
    (hd : ∀ x ∈ chain, x ∉ other) (hn : n ≤ 256 * chain.length) :
    (m.writeChain other bs).chainBytes chain n = m.chainBytes chain n := by
  refine List.map_congr_left fun i hi => read_writeChain_out _ _ _ _ ?_
  have hlt : i / 256 < chain.length := by have := List.mem_range.mp hi; omega
  have hcell : (cellBase (chain.getD (i / 256) 0) + i % 256) / 256 = chain.getD (i / 256) 0 := by
    unfold cellBase
    omega
  rw [hcell, List.getD_eq_getElem _ _ hlt]
  exact hd _ (List.getElem_mem hlt)

section
variable {kind : FrameKind} {bytes : List Byte} {h h' : Hub} {id : Nat} {e : Option Nat}

/-- R26: the built frame's cells and bytes, and the stack that is left. -/
theorem build_builtIn (hb : h.build kind bytes = some (id, h', e)) (hok : HubStackOk h) :
    BuiltIn h'.cells kind bytes id (h.cells.free.take (cellsFor (bytes.length + 4))) ∧ HubStackOk h' := by
  obtain ⟨chain, hchain, henough, hid, -, hfree, hframes, hdata, -⟩ := build_spec hb
  rw [← hchain]
  have hsplit : chain ++ h'.cells.free = h.cells.free := by rw [hchain, hfree, List.take_append_drop]
  have hnodup := hok.nodup
  rw [← hsplit, List.nodup_append] at hnodup
  obtain ⟨hc, hf, hdisj⟩ := hnodup
  have hpos : 0 < chain.length := by
    rw [hchain, List.length_take]
    have := @cellsFor_pos bytes.length
    omega
  have hmem : chain.headD 0 ∈ chain := by
    cases hq : chain with
    | nil => simp [hq] at hpos
    | cons x xs => simp
  have hroom : bytes.length ≤ 256 * chain.length := by
    have hlen : chain.length = cellsFor (bytes.length + 4) := by rw [hchain, List.length_take]; omega
    rw [hlen]
    unfold cellsFor
    omega
  have hin : chain.headD 0 ∈ h.cells.free := by rw [← hsplit]; exact List.mem_append_left _ hmem
  refine ⟨⟨?_, fun x hx hxf => hdisj x hx x hxf rfl, hroom, ?_⟩, hf, fun f hf' hff => ?_⟩
  · have hnone : h.cells.frames.find? (fun f => f.id == id) = none := by
      rw [List.find?_eq_none]
      intro f hfm hfe
      refine hok.records f hfm ?_
      rw [beq_iff_eq.mp hfe, hid]
      exact hin
    rw [CellMemory.frame?, hframes, List.find?_append, hnone, hid]
    rw [Option.none_or]
    exact List.find?_cons_of_pos (p := fun f : FrameRec => f.id == chain.headD 0)
      (a := builtRecord kind bytes chain) (beq_self_eq_true (chain.headD 0))
  · rw [hdata]
    exact chainBytes_writeChain _ _ _ hc hroom
  · rw [hframes] at hf'
    rcases List.mem_append.mp hf' with hold | hnew
    · refine hok.records f hold ?_
      rw [← hsplit]
      exact List.mem_append_right _ hff
    · rw [List.mem_singleton.mp hnew] at hff
      exact hdisj _ hmem _ hff rfl

/-- A later build leaves a built frame as it is. -/
theorem BuiltIn.build {kind' : FrameKind} {bytes' : List Byte} {id' : Nat} {chain : List Nat}
    (hold : BuiltIn h.cells kind' bytes' id' chain) (hb : h.build kind bytes = some (id, h', e)) :
    BuiltIn h'.cells kind' bytes' id' chain := by
  obtain ⟨other, hother, -, -, -, hfree, hframes, hdata, -⟩ := build_spec hb
  refine ⟨?_, fun x hx hxf => hold.off x hx ?_, hold.room, ?_⟩
  · rw [CellMemory.frame?, hframes, List.find?_append]
    exact Option.or_of_isSome (by rw [show h.cells.frames.find? _ = _ from hold.record]; rfl) |>.trans hold.record
  · rw [hfree] at hxf
    exact List.mem_of_mem_drop hxf
  · rw [hdata, chainBytes_writeChain_out (fun x hx hxo => hold.off x hx ?_) hold.room]
    · exact hold.bytes
    · rw [hother] at hxo
      exact List.mem_of_mem_take hxo

end

/-! ## Raising a notice -/

/-- The hub with its lost count 0: NOTICES_LOST has been built (R177). -/
def allReported (u : Hub) : Hub :=
  { u with
    mgmt := { u.mgmt with lost := 0 } }

@[simp] theorem allReported_cells (u : Hub) : (allReported u).cells = u.cells := rfl
@[simp] theorem allReported_notices (u : Hub) : (allReported u).mgmt.notices = u.mgmt.notices := rfl

section
variable {sd : Sender} {dst : LinkAddr} {n : Notice} {h : Hub}

theorem raiseCore_of_lost_zero (hr : h.mgmt.reportAddr = some dst) (hl : h.mgmt.lost = 0) :
    h.raiseCore sd n = (h.tryNotice sd dst n).elim (h.loseNotice, none) id := by
  simp only [Hub.raiseCore, hr, Hub.reportLost, hl, if_true, ne_eq, not_true_eq_false, if_false]
  cases h.tryNotice sd dst n <;> rfl

/-- R177: while NOTICES_LOST cannot be built, every notice raised is lost. -/
theorem raiseCore_of_unreported (hr : h.mgmt.reportAddr = some dst) (hl : 0 < h.mgmt.lost)
    (ht : h.tryNotice sd dst (.noticesLost h.mgmt.lost) = none) : h.raiseCore sd n = (h.loseNotice, none) := by
  have hne : h.mgmt.lost ≠ 0 := by omega
  simp only [Hub.raiseCore, hr, Hub.reportLost, hne, if_false, ht, ne_eq, not_false_eq_true, if_true]

/-- R177: NOTICES_LOST goes before the notice raised. -/
theorem raiseCore_of_reported {u : Hub} {e : Option Nat} (hr : h.mgmt.reportAddr = some dst) (hl : 0 < h.mgmt.lost)
    (ht : h.tryNotice sd dst (.noticesLost h.mgmt.lost) = some (u, e)) :
    h.raiseCore sd n = ((allReported u).tryNotice sd dst n).elim
        ((allReported u).loseNotice, e) (fun p => (p.1, e.or p.2)) := by
  have hne : h.mgmt.lost ≠ 0 := by omega
  have hreport : h.reportLost sd = (allReported u, e) := by
    simp only [Hub.reportLost, hr, hne, if_false, ht, allReported]
  have hcleared : (allReported u).mgmt.lost = 0 := rfl
  simp only [Hub.raiseCore, hr, hreport, hcleared, ne_eq, not_true_eq_false, if_false]
  cases (allReported u).tryNotice sd dst n <;> rfl

/-- R177: what the loss of a notice does. -/
theorem loseNotice_spec (h : Hub) : h.loseNotice.mgmt.lost = min (h.mgmt.lost + 1) 65535 ∧
    h.loseNotice.mgmt.notices = h.mgmt.notices ∧ h.loseNotice.cells = h.cells ∧
    h.loseNotice.flagOf .noticesLost = { isSet := true, count := min ((h.flagOf .noticesLost).count + 1) 65535 } :=
  ⟨rfl, rfl, rfl, flagOf_flag_self _ _⟩

end

/-! ## The bytes of notices and of the frames built -/

/-- The segments of the body of ALLOWANCE_SPENT and ALLOWANCE_RENEWED. -/
theorem allowanceNoticeBody_holds (k : Fin 256) (cls : StationClass) (o : Origin) (a : LinkAddr) (cause : Cause)
    (len : Nat) (al : Allowance) (after : Byte) : Holds (allowanceNoticeBody k cls o a cause len al after) 24
      (allowanceNoticeFields k cls o a cause len al after) := by
  refine holds_of_segments [[slotByte k, cls.code], o.bytes, addrBytes a, [cause.code, after], beBytes 2 len,
    beBytes 4 al.base, [BitVec.ofNat 8 al.renewals, 0], beBytes 4 al.overrun.toNat] ?_ ?_ ?_
  · simp [allowanceNoticeBody]
  · simp [allowanceNoticeBody, beBytes_length, origin_bytes_length]
  · simp [allowanceNoticeFields, offsetsFrom, beBytes_length, origin_bytes_length, slotByte]

/-- 11.2: what stands where in the body of every notice. -/
theorem notice_holds (n : Notice) : n.code = (noticeLayout n).1 ∧
    Holds n.body (noticeLayout n).2.1 (noticeLayout n).2.2 := by
  cases n with
  | stationNew k cls st o a =>
    refine ⟨rfl, holds_of_segments [[slotByte k, cls.code, st.code, 0], o.bytes, addrBytes a] ?_ ?_ ?_⟩
    · simp [Notice.body]
    · simp [Notice.body, noticeLayout, origin_bytes_length]
    · simp [noticeLayout, offsetsFrom, origin_bytes_length, slotByte]
  | stationGone k cls o a why r al =>
    refine ⟨rfl, holds_of_segments ([[slotByte k, cls.code], o.bytes, addrBytes a, [why.code, 0]] ++
      counterSegments r ++ allowanceSegments al) ?_ ?_ ?_⟩
    · simp [Notice.body, block_eq_segments, allowanceBlock_eq_segments]
    · simp [Notice.body, noticeLayout, origin_bytes_length, counter_block_length, allowanceBlock_length]
    · rw [offsetsFrom_append, offsetsFrom_append, ← counterFields_eq, ← allowanceFields_eq]
      simp [noticeLayout, offsetsFrom, origin_bytes_length, slotByte, counterSegments, beBytes_length]
  | allowanceSpent k cls o a cause len al after => exact ⟨rfl, allowanceNoticeBody_holds ..⟩
  | allowanceRenewed k cls o a cause len al => exact ⟨rfl, allowanceNoticeBody_holds ..⟩
  | originConflict k o attempt a =>
    refine ⟨rfl, holds_of_segments [[slotByte k, 0], o.bytes, attempt.bytes, addrBytes a] ?_ ?_ ?_⟩
    · simp [Notice.body]
    · simp [Notice.body, noticeLayout, origin_bytes_length]
    · simp [noticeLayout, offsetsFrom, origin_bytes_length, slotByte]
  | tableFull attempt a =>
    refine ⟨rfl, holds_of_segments [attempt.bytes, addrBytes a] ?_ ?_ ?_⟩
    · simp [Notice.body]
    · simp [Notice.body, noticeLayout, origin_bytes_length]
    · simp [noticeLayout, offsetsFrom, origin_bytes_length]
  | memoryError first n kind p =>
    refine ⟨rfl, holds_of_segments [beBytes 2 first, [BitVec.ofNat 8 n, kind.code, BitVec.ofNat 8 (portCode p), 0]]
      ?_ ?_ ?_⟩
    · simp [Notice.body]
    · simp [Notice.body, noticeLayout, beBytes_length]
    · simp [noticeLayout, offsetsFrom, beBytes_length]
  | holdOverrun x act limit =>
    refine ⟨rfl, holds_of_segments [[BitVec.ofNat 8 (portCode (.backbone x)), act.code], beBytes 2 limit] ?_ ?_ ?_⟩
    · simp [Notice.body]
    · simp [Notice.body, noticeLayout, beBytes_length]
    · simp [noticeLayout, offsetsFrom]
  | link p l => exact ⟨rfl, rfl, by simp [noticeLayout, Notice.body]⟩
  | pressure entered held high low =>
    refine ⟨rfl, holds_of_segments [[if entered then 1 else 2, 0], beBytes 2 held, beBytes 2 high, beBytes 2 low]
      ?_ ?_ ?_⟩
    · simp [Notice.body]
    · simp [Notice.body, noticeLayout, beBytes_length]
    · simp [noticeLayout, offsetsFrom, beBytes_length]
  | noticesLost n =>
    refine ⟨rfl, holds_of_segments [beBytes 2 n] ?_ ?_ ?_⟩
    · simp [Notice.body]
    · simp [Notice.body, noticeLayout, beBytes_length]
    · simp [noticeLayout, offsetsFrom]

/-- 11.1 and 11.2: what stands where in a management frame, up to its wire check. -/
theorem mgmtFrame_holds (dst src : LinkAddr) (code status : Byte) (tag : BitVec 16) (carriage : Nat)
    (body : List Byte) : Holds (mgmtFrame dst src code status tag carriage body) (max 60 (22 + body.length))
      [(0, addrBytes dst), (6, addrBytes src), (12, [0x89, 0xF2, code, status]), (16, beBytes 2 tag.toNat),
        (18, [BitVec.ofNat 8 carriage, 0]), (20, beBytes 2 body.length), (22, body),
        (22 + body.length, List.replicate (38 - body.length) 0)] := by
  have htype : beBytes 2 typeMgmt = [0x89, 0xF2] := by decide
  refine holds_of_segments [addrBytes dst, addrBytes src, [0x89, 0xF2, code, status], beBytes 2 tag.toNat,
    [BitVec.ofNat 8 carriage, 0], beBytes 2 body.length, body, List.replicate (38 - body.length) 0] ?_ ?_ ?_
  · simp [mgmtFrame, htype]
  · rw [mgmtFrame_length]
    omega
  · simp [offsetsFrom, beBytes_length]

end Sys2Proof.Laws

namespace Sys2Proof.Proofs

open Sys2Proof Sys2Proof.Machine Sys2Proof.Safety Sys2Proof.Laws

section
variable {sd : Sender} {dst : LinkAddr} {n : Notice} {h : Hub}

/-- The bytes of a notice's frame up to its wire check. -/
def noticeBytes (sd : Sender) (dst : LinkAddr) (n : Notice) : List Byte :=
  mgmtFrame dst sd.identity n.code 0 0 sd.carriage n.body

theorem noticeCells_pos : 0 < noticeCells sd dst n := cellsFor_pos

/-- A notice that has room joins the end of the queue, built (R175). -/
theorem tryNotice_joins (hroom : h.mgmt.notices.length < 12) (hcells : noticeCells sd dst n ≤ h.cells.free.length)
    (hok : HubStackOk h) : ∃ u e id, h.tryNotice sd dst n = some (u, e) ∧ Taken (noticeCells sd dst n) h u e ∧
      u.mgmt = { h.mgmt with
        notices := h.mgmt.notices ++ [id] } ∧
      (∃ chain, BuiltIn u.cells .notice (noticeBytes sd dst n) id chain) ∧ HubStackOk u ∧
      ∀ kind bytes id' chain, BuiltIn h.cells kind bytes id' chain → BuiltIn u.cells kind bytes id' chain := by
  obtain ⟨id, b, e, hb, ht⟩ := (tryNotice_cases sd dst n h).2 hroom hcells
  obtain ⟨hbuilt, hok'⟩ := build_builtIn hb hok
  exact ⟨_, e, id, ht, (build_taken hb).mgmt rfl, rfl, ⟨_, hbuilt⟩, ⟨hok'.nodup, hok'.records⟩,
    fun _ _ _ _ hold => (hold.build (h' := b) hb :)⟩

theorem raise_of_core {u : Hub} {e : Option Nat} (hc : h.raiseCore sd n = (u, e)) : h.raise sd n = u.noteEntered sd e := by
  rw [Hub.raise, hc]

/-- What has been built for a notice brings the entry into PRESSURE after it (R33). -/
theorem Taken.raised {u : Hub} {e : Option Nat} {k : Nat} (ht : Taken k h u e) (hk : 0 < k)
    (hc : h.raiseCore sd n = (u, e)) : EntersAfter sd k h u (h.raise sd n) := by
  rw [raise_of_core hc]
  exact ht.entersAfter hk

theorem raise_of_lost {u : Hub} (hc : h.raiseCore sd n = (u, none)) : h.raise sd n = u := raise_of_core hc

end

/-- Settles O39. -/
theorem noticeIsQueuedOrLost : Obligations.NoticeIsQueuedOrLost := by
  refine ⟨fun sd n h => ?_, notice_holds, ⟨by decide, by decide, by decide⟩, mgmtFrame_holds⟩
  intro t bytesOf cellsOf holds lostOne
  refine ⟨fun hr => raise_none hr, fun dst hr hl => ⟨fun hroom hcells hstack => ?_, fun hlack => ?_⟩,
    fun dst hr hl => ⟨fun hlack => ?_, fun hroom hcells hstack => ?_, fun hroom hcells hstack hlack => ?_⟩⟩
  · obtain ⟨u, e, id, ht, htaken, hmgmt, ⟨chain, hbuilt⟩, -⟩ := tryNotice_joins hroom hcells (hubStackOk_of _ hstack)
    refine ⟨u, id, ?_, hmgmt, hbuilt.frame, htaken.free⟩
    have hcore : h.raiseCore sd n = (u, e) := by rw [raiseCore_of_lost_zero hr hl, ht]; rfl
    exact Taken.raised htaken noticeCells_pos hcore
  · have ht := (tryNotice_cases sd dst n h).1 hlack
    have hcore : h.raiseCore sd n = (h.loseNotice, none) := by rw [raiseCore_of_lost_zero hr hl, ht]; rfl
    obtain ⟨hlost, hqueue, hcells, hflag⟩ := loseNotice_spec h
    rw [show t = h.loseNotice from raise_of_lost hcore]
    exact ⟨by rw [hlost, hl]; rfl, hqueue, hcells, hflag⟩
  · have ht := (tryNotice_cases sd dst (.noticesLost h.mgmt.lost) h).1 hlack
    rw [show t = h.loseNotice from raise_of_lost (raiseCore_of_unreported hr hl ht)]
    exact loseNotice_spec h
  · have hfirst : noticeCells sd dst (.noticesLost h.mgmt.lost) ≤ h.cells.free.length := le_trans (Nat.le_add_right ..) hcells
    obtain ⟨u, e, id, ht, htaken, hmgmt, ⟨chain, hbuilt⟩, hok, -⟩ :=
      tryNotice_joins (by omega) hfirst (hubStackOk_of _ hstack)
    have hcells' : noticeCells sd dst n ≤ u.cells.free.length := by
      rw [htaken.free, List.length_drop]
      exact Nat.le_sub_of_add_le' hcells
    obtain ⟨v, e', id', ht', htaken', hmgmt', ⟨chain', hbuilt'⟩, -, hkeeps⟩ :=
      tryNotice_joins (h := allReported u) (n := n) (sd := sd) (dst := dst)
        (by simp only [allReported_notices, hmgmt, List.length_append, List.length_cons, List.length_nil]; omega) hcells' ⟨hok.nodup, hok.records⟩
    have hboth := (htaken.mgmt (v := allReported u) rfl).trans htaken'
    refine ⟨v, id, id', ?_, ?_, (hkeeps _ _ _ _ hbuilt).frame, hbuilt'.frame, hboth.free⟩
    · have hcore : h.raiseCore sd n = (v, e.or e') := by rw [raiseCore_of_reported hr hl ht, ht']; rfl
      exact Taken.raised hboth (Nat.add_pos_left noticeCells_pos _) hcore
    · rw [hmgmt', allReported, hmgmt]
      simp
  · obtain ⟨u, e, id, ht, htaken, hmgmt, ⟨chain, hbuilt⟩, -⟩ :=
      tryNotice_joins hroom hcells (hubStackOk_of _ hstack)
    have ht' := (tryNotice_cases sd dst n (allReported u)).1 (by
      simp only [allReported_notices, allReported_cells, hmgmt, htaken.free, List.length_append, List.length_cons, List.length_nil, List.length_drop]
      exact hlack.imp (by omega) (by intro hlt; exact Nat.sub_lt_left_of_lt_add hcells hlt))
    have hcore : h.raiseCore sd n = ((allReported u).loseNotice, e) := by rw [raiseCore_of_reported hr hl ht, ht']; rfl
    obtain ⟨hlost, hqueue, hsame, hflag⟩ := loseNotice_spec (allReported u)
    have hflags : (allReported u).flagOf .noticesLost = h.flagOf .noticesLost := by
      simp only [Hub.flagOf, allReported, hmgmt]
    refine ⟨_, id, Taken.raised (htaken.mgmt hsame) noticeCells_pos hcore, ?_, hlost, ?_, ?_, ?_⟩
    · rw [hqueue, allReported_notices, hmgmt]
    · rw [hflag, hflags]
    · exact hbuilt.frame
    · exact htaken.free

end Sys2Proof.Proofs
end

section
/-! What the build of a reply does (chapter 10.2), and the statement on it. -/

namespace Sys2Proof.Laws

open Sys2Proof Sys2Proof.Machine Sys2Proof.Safety

/-! ## Built frames stand through later builds -/

/-- Frames built before stay as they are. -/
def KeepsBuilt (c c' : CellMemory) : Prop :=
  ∀ kind bytes id chain, BuiltIn c kind bytes id chain → BuiltIn c' kind bytes id chain

theorem KeepsBuilt.refl (c : CellMemory) : KeepsBuilt c c := fun _ _ _ _ h => h

theorem KeepsBuilt.trans {a b c : CellMemory} (h : KeepsBuilt a b) (g : KeepsBuilt b c) : KeepsBuilt a c :=
  fun _ _ _ _ q => g _ _ _ _ (h _ _ _ _ q)

theorem tryNotice_keepsBuilt {sd : Sender} {dst : LinkAddr} {n : Notice} {h h' : Hub} {e : Option Nat}
    (ht : h.tryNotice sd dst n = some (h', e)) : KeepsBuilt h.cells h'.cells := by
  intro kind bytes id chain hold
  have hroom : h.mgmt.notices.length < 12 ∧ noticeCells sd dst n ≤ h.cells.free.length := by
    by_contra hc
    rw [not_and_or, Nat.not_lt, Nat.not_le] at hc
    rw [(tryNotice_cases sd dst n h).1 hc] at ht
    cases ht
  obtain ⟨id', b, e', hb, ht'⟩ := (tryNotice_cases sd dst n h).2 hroom.1 hroom.2
  obtain ⟨rfl, -⟩ := by simpa using ht'.symm.trans ht
  exact (hold.build hb :)

theorem reportLost_keepsBuilt (sd : Sender) (h : Hub) : KeepsBuilt h.cells (h.reportLost sd).1.cells := by
  unfold Hub.reportLost
  split
  case h_1 => exact .refl _
  case h_2 =>
    split
    case isTrue => exact .refl _
    case isFalse =>
      split
      case h_1 => exact .refl _
      case h_2 ht => exact fun _ _ _ _ hold => (tryNotice_keepsBuilt ht _ _ _ _ hold :)

theorem raiseCore_keepsBuilt (sd : Sender) (n : Notice) (h : Hub) : KeepsBuilt h.cells (h.raiseCore sd n).1.cells := by
  unfold Hub.raiseCore
  split
  case h_1 => exact .refl _
  case h_2 =>
    refine (reportLost_keepsBuilt sd h).trans ?_
    dsimp only
    split
    case isTrue => exact .refl _
    case isFalse =>
      split
      case h_1 => exact .refl _
      case h_2 ht => exact tryNotice_keepsBuilt ht

theorem noteEntered_keepsBuilt (sd : Sender) (e : Option Nat) (h : Hub) :
    KeepsBuilt h.cells (h.noteEntered sd e).cells := by
  cases e with
  | none => exact .refl _
  | some held => exact raiseCore_keepsBuilt sd _ (h.flag .pressureSeen)

/-! ## What a reply shows of the reply slots -/

theorem map_set_same {α β : Type} {n : Nat} (v : Vector α n) (k : Fin n) (q : α) (f : α → β) (h : f q = f v[k]) :
    (v.set k q).toList.map f = v.toList.map f := by
  have hk : f v[k] = (v.toList.map f)[k.val]'(by simp) := by simp
  rw [Vector.toList_set, List.map_set, h, hk, List.set_getElem_self]

theorem any_set_same {α : Type} {n : Nat} (v : Vector α n) (k : Fin n) (q : α) (f : α → Bool) (h : f q = f v[k]) :
    (v.set k q).toList.any f = v.toList.any f := by
  have hany : ∀ l : List α, l.any f = (l.map f).any id := fun l => by rw [List.any_map, Function.id_comp]
  rw [hany, hany, map_set_same v k q f h]

theorem length_filter_set_same {α : Type} {n : Nat} (v : Vector α n) (k : Fin n) (q : α) (f : α → Bool)
    (h : f q = f v[k]) : ((v.set k q).toList.filter f).length = (v.toList.filter f).length := by
  have hcount : ∀ l : List α, (l.filter f).length = (l.map f).countP id := fun l => by
    rw [← List.countP_eq_length_filter, List.countP_map, Function.id_comp]
  rw [hcount, hcount, map_set_same v k q f h]

/-- What views show of a reply slot. -/
def ReplySlot.shown (q : ReplySlot) : Bool × Bool × Bool × Option Port :=
  (q.isFree, q.isSnapshot, q.isSave, q.builtFor)

/-- The hub with one reply slot changed and the list of waiting replies replaced. -/
def reserve (k : Fin 4) (q : ReplySlot) (ks : List (Fin 4)) (h : Hub) : Hub :=
  { h with
    mgmt := { h.mgmt with slots := h.mgmt.slots.set k q, waiting := ks } }

section
variable {k : Fin 4} {q : ReplySlot} {ks : List (Fin 4)} {s : State}

theorem statusView_reserve (h : ReplySlot.shown q = ReplySlot.shown s.hub.mgmt.slots[k]) :
    statusView { s with
      hub := reserve k q ks s.hub } = statusView s := by
  simp only [ReplySlot.shown, Prod.mk.injEq] at h
  obtain ⟨hfree, hsnapshot, hsave, -⟩ := h
  have hcount := length_filter_set_same s.hub.mgmt.slots k q (fun q => !q.isFree) (by simp only [hfree])
  have hsnap := any_set_same s.hub.mgmt.slots k q ReplySlot.isSnapshot hsnapshot
  have hsaves := any_set_same s.hub.mgmt.slots k q ReplySlot.isSave hsave
  unfold statusView
  dsimp only [reserve, snapshotParked, saveParked]
  rw [hcount, hsnap, hsaves]

theorem portView_reserve (p : Port) (h : ReplySlot.shown q = ReplySlot.shown s.hub.mgmt.slots[k]) :
    portView { s with
      hub := reserve k q ks s.hub } p = portView s p := by
  simp only [ReplySlot.shown, Prod.mk.injEq] at h
  obtain ⟨-, -, -, hbuilt⟩ := h
  have hfor : repliesFor (reserve k q ks s.hub).mgmt p = repliesFor s.hub.mgmt p := by
    refine List.filter_congr fun j _ => ?_
    have hslot : ((reserve k q ks s.hub).mgmt.slots[j]).builtFor = (s.hub.mgmt.slots[j]).builtFor := by
      by_cases hj : j = k
      · subst hj
        exact (congrArg ReplySlot.builtFor (Vector.getElem_set_self j.isLt)).trans hbuilt
      · exact congrArg ReplySlot.builtFor (Vector.getElem_set_ne k.isLt j.isLt (fun he => hj (Fin.ext he.symm)))
    rw [hslot]
  cases p with
  | seat n => simp only [portView, hfor]
  | radio w => rfl
  | backbone x => rfl

/-- The reply of a slot is the same before its contents are fixed and after (R172): the views do not show the contents. -/
theorem renderReply_reserve (c : ReplyContent) (h : (∃ st body, c = .fixed st body) ∨
    ReplySlot.shown q = ReplySlot.shown s.hub.mgmt.slots[k]) :
    renderReply { s with
      hub := reserve k q ks s.hub } c = renderReply s c := by
  cases c with
  | port p =>
    rcases h with ⟨_, _, h⟩ | h
    · cases h
    · simp only [renderReply, portView_reserve p h]
  | status =>
    rcases h with ⟨_, _, h⟩ | h
    · cases h
    · simp only [renderReply, statusView_reserve h]
  | _ => rfl

end

/-! ## The build of a reply -/

/-- The cells of a reply's frame. -/
def replyCells (s : State) (h : ReqHeader) (c : ReplyContent) : Nat := cellsFor ((replyBytes s h c).length + 4)

section
variable {k : Fin 4} {h : ReqHeader} {c : ReplyContent} {s : State}

/-- R172: a reply waits where the stack holds too few cells. -/
theorem buildReply_waits (hlack : s.hub.cells.free.length < replyCells s h c) : buildReply k h c s = none := by
  rw [buildReply, (build_when .reply (replyBytes s h c) s.hub).1 hlack]

/-- R26, R172: a reply with cells enough is built and placed. -/
theorem buildReply_alive (halive : deadSeat s h.port = false) (hcells : replyCells s h c ≤ s.hub.cells.free.length) :
    ∃ id u e, buildReply k h c s = some { s with
        hub := e.placeBuilt k h id } ∧
      EntersAfter s.sender (replyCells s h c) s.hub u e ∧ u.mgmt = s.hub.mgmt ∧
      u.cells.free = s.hub.cells.free.drop (replyCells s h c) ∧ Quiet u e ∧
      (HubStackOk s.hub → BuiltIn e.cells .reply (replyBytes s h c) id (s.hub.cells.free.take (replyCells s h c))) := by
  obtain ⟨id, u, e, hb⟩ := (build_when .reply (replyBytes s h c) s.hub).2 hcells
  obtain ⟨_, _, _, _, hmgmt, hfree, _⟩ := build_spec hb
  refine ⟨id, u, u.noteEntered s.sender e, ?_, build_entersAfter hb, hmgmt, hfree, noteEntered_quiet _ _ _, fun hok =>
    noteEntered_keepsBuilt _ _ _ _ _ _ _ (build_builtIn hb hok).1⟩
  simp only [buildReply, hb, halive, Bool.false_eq_true, if_false]

/-- One more count in the tally on both sides. -/
theorem Quiet.counted {h h' : Hub} (q : Quiet h h') (r : Discard) : Quiet (h.tally r) (h'.tally r) where
  tally := by simp only [Hub.tally, q.tally]
  input := q.input
  slots := q.slots
  waiting := q.waiting
  builtOrder := q.builtOrder
  snapshot := q.snapshot
  store := q.store
  reportAddr := q.reportAddr
  defaultIdle := q.defaultIdle
  high := q.high
  low := q.low
  single := q.single
  multi := q.multi

/-- A reply's drop at its port, among the counts (R173). -/
theorem count_txDrop_txDrops (ps : Ports) (p q : Port) :
    ((ps.count p PortCounters.txDrop).unitOf q).ctr.txDrops =
      (ps.unitOf q).ctr.txDrops + BitVec.ofNat 32 (countAt p 1 q) := by
  rw [unitOf_count]
  by_cases hq : q = p
  · subst hq
    rw [if_pos rfl, countAt_self]
    rfl
  · rw [if_neg hq, countAt_ne 1 hq]
    simp

/-- R2, R173: a reply for a seat port that is DOWN is discarded as it is built. -/
theorem buildReply_dead (hdead : deadSeat s h.port = true) (hcells : replyCells s h c ≤ s.hub.cells.free.length) :
    ∃ t, buildReply k h c s = some t ∧ Quiet ((s.hub.freeSlot k).tally .purge) t.hub ∧
      Counts s t (countAt .purge 1) (countAt h.port 1) ∧ blocks t = blocks s := by
  obtain ⟨id, u, e, hb⟩ := (build_when .reply (replyBytes s h c) s.hub).2 hcells
  have hquiet := (build_quiet hb).trans (noteEntered_quiet s.sender e u)
  have hfreed : Quiet (s.hub.freeSlot k) ((u.noteEntered s.sender e).freeSlot k) :=
    ⟨hquiet.input, congrArg (fun v => v.set k ReplySlot.free) hquiet.slots,
      congrArg (List.filter _) hquiet.waiting, congrArg (List.filter _) hquiet.builtOrder, hquiet.tally, hquiet.snapshot,
      hquiet.store, hquiet.reportAddr, hquiet.defaultIdle, hquiet.high, hquiet.low, hquiet.single, hquiet.multi⟩
  have hdropped := (hfreed.trans (dropRef_quiet s.sender id _)).counted .purge
  have hbuild : buildReply k h c s = some { s with
      hub := Hub.tally .purge (Hub.dropRef s.sender id (Hub.freeSlot k (u.noteEntered s.sender e)))
      ports := s.ports.count h.port PortCounters.txDrop } := by
    simp only [buildReply, hb, hdead, if_true]
  refine ⟨_, hbuild, hdropped, ⟨fun r => ?_, fun q => ?_⟩, rfl⟩
  · exact (hdropped.tallyOf r).trans (tallyOf_tally _ _ _)
  · exact count_txDrop_txDrops s.ports h.port q

end

/-! ## The fixing of a reply -/

section
variable {k : Fin 4} {c : ReplyContent} {b : Bool} {s : State} {h : ReqHeader}

/-- R172: the oldest waiting reply is the one that is built. -/
theorem buildOldest_of_waiting {ks : List (Fin 4)} (hw : s.hub.mgmt.waiting = k :: ks)
    (hk : s.hub.mgmt.slots[k] = .reserved h (some c) b) : buildOldest s = (buildReply k h c s).getD s := by
  simp only [buildOldest, hw, hk]

/-- The part with the contents of a slot's reply fixed, before its build (R172). -/
def fixed (k : Fin 4) (h : ReqHeader) (c : ReplyContent) (b : Bool) (s : State) : State :=
  { s with
    hub := reserve k (.reserved h (some c) b) [k] s.hub }

theorem fixed_slot (k : Fin 4) (h : ReqHeader) (c : ReplyContent) (b : Bool) (s : State) :
    (fixed k h c b s).hub.mgmt.slots[k] = .reserved h (some c) b := Vector.getElem_set_self k.isLt

theorem fixed_slot_ne {j : Fin 4} (hj : j ≠ k) :
    (fixed k h c b s).hub.mgmt.slots[j] = s.hub.mgmt.slots[j] :=
  Vector.getElem_set_ne k.isLt j.isLt (fun he => hj (Fin.ext he.symm))

/-- R172: with no older reply waiting, a reply fixed is built at once where it can be. -/
theorem fixReply_of_idle (hh : (s.hub.mgmt.slots[k]).header? = some h) (hw : s.hub.mgmt.waiting = []) :
    fixReply k c b s = (buildReply k h c (fixed k h c b s)).getD (fixed k h c b s) := by
  have hfixed : fixReply k c b s = buildOldest (fixed k h c b s) := by
    simp only [fixReply, hh, hw, if_true, List.nil_append]
    rfl
  rw [hfixed, buildOldest_of_waiting (ks := []) rfl (fixed_slot ..)]

/-- The bytes of a reply are those of the moment its contents are fixed, where it is built then (R172). -/
theorem replyBytes_fixed (hc : (∃ st body, c = .fixed st body) ∨ ∃ w b', s.hub.mgmt.slots[k] = .reserved h w b') :
    replyBytes (fixed k h c b s) h c = replyBytes s h c := by
  have hrender : renderReply (fixed k h c b s) c = renderReply s c := by
    refine renderReply_reserve c (hc.imp_right ?_)
    rintro ⟨w, b', hw⟩
    rw [hw]
    rfl
  simp only [replyBytes, hrender]
  rfl

/-- What the placing of a built reply leaves of the slots (R171). -/
theorem placeBuilt_slot (e : Hub) (id : Nat) : (e.placeBuilt k h id).mgmt.slots[k] = .built h id :=
  Vector.getElem_set_self k.isLt

theorem placeBuilt_slot_ne (e : Hub) (id : Nat) {j : Fin 4} (hj : j ≠ k) :
    (e.placeBuilt k h id).mgmt.slots[j] = e.mgmt.slots[j] :=
  Vector.getElem_set_ne k.isLt j.isLt (fun he => hj (Fin.ext he.symm))

theorem freeSlot_slot (u : Hub) : (u.freeSlot k).mgmt.slots[k] = .free := Vector.getElem_set_self k.isLt

theorem freeSlot_slot_ne (u : Hub) {j : Fin 4} (hj : j ≠ k) :
    (u.freeSlot k).mgmt.slots[j] = u.mgmt.slots[j] :=
  Vector.getElem_set_ne k.isLt j.isLt (fun he => hj (Fin.ext he.symm))

/-- What the fixing of a reply leaves alone, whether it is built, waits or is discarded (R172). -/
theorem fixReply_frame (hh : (s.hub.mgmt.slots[k]).header? = some h) (hw : s.hub.mgmt.waiting = []) :
    (∀ j : Fin 4, j ≠ k → (fixReply k c b s).hub.mgmt.slots[j] = s.hub.mgmt.slots[j]) ∧
    (fixReply k c b s).hub.mgmt.input = s.hub.mgmt.input ∧ (fixReply k c b s).hub.mgmt.store = s.hub.mgmt.store ∧
    (fixReply k c b s).hub.mgmt.snapshot = s.hub.mgmt.snapshot ∧ blocks (fixReply k c b s) = blocks s ∧
    (deadSeat s h.port = false → (fixReply k c b s).hub.mgmt.tally = s.hub.mgmt.tally ∧
      (fixReply k c b s).ports = s.ports) := by
  rw [fixReply_of_idle hh hw]
  rcases Nat.lt_or_ge s.hub.cells.free.length (replyCells (fixed k h c b s) h c) with hlack | hcells
  · rw [buildReply_waits (s := fixed k h c b s) hlack, Option.getD_none]
    exact ⟨fun j hj => fixed_slot_ne hj, rfl, rfl, rfl, rfl, fun _ => ⟨rfl, rfl⟩⟩
  · cases hd : deadSeat s h.port with
    | false =>
      obtain ⟨id, u, e, hb, -, hmgmt, -, hquiet, -⟩ := buildReply_alive (k := k) (c := c) (s := fixed k h c b s) hd hcells
      rw [hb, Option.getD_some]
      refine ⟨fun j hj => ?_, ?_, ?_, ?_, rfl, fun _ => ⟨?_, rfl⟩⟩
      · refine (placeBuilt_slot_ne e id hj).trans ?_
        rw [hquiet.slots, hmgmt]
        exact fixed_slot_ne hj
      · exact (hquiet.input.trans (congrArg Mgmt.input hmgmt) :)
      · exact (hquiet.store.trans (congrArg Mgmt.store hmgmt) :)
      · exact (hquiet.snapshot.trans (congrArg Mgmt.snapshot hmgmt) :)
      · exact (hquiet.tally.trans (congrArg Mgmt.tally hmgmt) :)
    | true =>
      obtain ⟨t, hb, hquiet, -, hblocks⟩ := buildReply_dead (k := k) (c := c) (s := fixed k h c b s) hd hcells
      rw [hb, Option.getD_some]
      refine ⟨fun j hj => ?_, hquiet.input, hquiet.store, hquiet.snapshot, hblocks, fun h => nomatch h⟩
      rw [hquiet.slots]
      exact (freeSlot_slot_ne _ hj).trans (fixed_slot_ne hj)

end

end Sys2Proof.Laws

namespace Sys2Proof.Proofs

open Sys2Proof Sys2Proof.Machine Sys2Proof.Safety Sys2Proof.Laws

/-- Settles O38. -/
theorem replyIsBuilt : Obligations.ReplyIsBuilt := by
  refine ⟨fun k c b s h hh hw hc => ?_, fun _ _ _ => rfl, by decide, fun k c b s h hh hw => fixReply_frame hh hw,
    fun s k ks h c b hw hk => ?_⟩
  · intro r bytes t
    have ht : t = _ := fixReply_of_idle hh hw
    have hbytes : replyBytes (fixed k h c b s) h c = bytes := replyBytes_fixed hc
    have hn : replyCells (fixed k h c b s) h c = cellsFor (bytes.length + 4) := by rw [replyCells, hbytes]
    refine ⟨fun hd hok hcells => ?_, fun hd hcells => ?_, fun hlack => ?_, ?_, ?_, ?_⟩
    · obtain ⟨id, u, e, hb, henters, hmgmt, hfree, hquiet, hbuilt⟩ :=
        buildReply_alive (k := k) (c := c) (s := fixed k h c b s) hd (hn.trans_le hcells)
      rw [hb, Option.getD_some] at ht
      rw [hn] at henters hfree
      have hframe := hbuilt (hubStackOk_of _ hok)
      rw [hbytes, hn] at hframe
      have hwaiting : e.mgmt.waiting = [k] := hquiet.waiting.trans (congrArg Mgmt.waiting hmgmt)
      have hplaced : e.mgmt.waiting.filter (fun j => decide (j ≠ k)) = [] := by
        rw [hwaiting, List.filter_cons_of_neg (by simp)]
        rfl
      rw [ht]
      refine ⟨⟨id, _, placeBuilt_slot e id, hframe.record, rfl, rfl, rfl, rfl, rfl, rfl, hframe.takes, u, e, henters,
        hmgmt, hfree, ?_⟩, ?_, hplaced⟩
      · simp only [Hub.placeBuilt, hplaced]
      · show e.mgmt.builtOrder ++ [k] = _
        rw [hquiet.builtOrder, hmgmt]
        rfl
    · obtain ⟨v, hb, hquiet, hcounts, -⟩ :=
        buildReply_dead (k := k) (c := c) (s := fixed k h c b s) hd (hn.trans_le hcells)
      rw [hb, Option.getD_some] at ht
      rw [ht]
      refine ⟨?_, ?_, hcounts.tally, hcounts.txDrops⟩
      · rw [hquiet.slots]
        exact freeSlot_slot _
      · rw [hquiet.waiting]
        show [k].filter (fun j => decide (j ≠ k)) = []
        simp
    · rw [buildReply_waits (s := fixed k h c b s) (hn.symm ▸ hlack), Option.getD_none] at ht
      rw [ht]
      exact ⟨fixed_slot .., rfl, rfl⟩
    · rintro st rfl rfl
      rfl
    · rintro body rfl rfl
      rfl
    · rintro rfl
      rfl
  · intro r bytes
    have hbuild : exec .buildWaitingReply s = .next ((buildReply k h c s).getD s) :=
      congrArg Host.Outcome.next (buildOldest_of_waiting hw hk)
    refine ⟨fun hd hcells => ?_, fun hd hcells => ?_, fun hlack => ?_⟩
    · obtain ⟨id, u, e, hb, henters, hmgmt, hfree, hquiet, hbuilt⟩ := buildReply_alive (k := k) (c := c) hd hcells
      rw [hbuild, hb, Option.getD_some]
      refine ⟨_, id, rfl, placeBuilt_slot e id, fun hok => ?_, ⟨u, e, henters, hmgmt, hfree, rfl⟩, ?_, ?_, fun j hj => ?_,
        rfl, rfl⟩
      · have hframe := hbuilt (hubStackOk_of s hok)
        exact ⟨_, hframe.record, rfl, rfl, rfl, rfl, hframe.takes⟩
      · show e.mgmt.builtOrder ++ [k] = _
        rw [hquiet.builtOrder, hmgmt]
      · show e.mgmt.waiting.filter _ = _
        rw [hquiet.waiting, hmgmt, hw, List.filter_cons_of_neg (by simp)]
      · refine (placeBuilt_slot_ne e id hj).trans ?_
        rw [hquiet.slots, hmgmt]
    · obtain ⟨t, hb, hquiet, hcounts, hblocks⟩ := buildReply_dead (k := k) (c := c) hd hcells
      rw [hbuild, hb, Option.getD_some]
      refine ⟨t, rfl, ?_, fun j hj => ?_, ?_, hcounts, hblocks⟩
      · rw [hquiet.slots]
        exact freeSlot_slot s.hub
      · rw [hquiet.slots]
        exact freeSlot_slot_ne s.hub hj
      · rw [hquiet.waiting]
        show s.hub.mgmt.waiting.filter _ = _
        rw [hw, List.filter_cons_of_neg (by simp)]
    · rw [hbuild, buildReply_waits hlack]
      rfl

end Sys2Proof.Proofs
end

section
/-! SUPPORT. The bytes of the views that replies carry (chapter 10 and the tables of 11.2). -/

namespace Sys2Proof.Laws

open Sys2Proof Sys2Proof.Machine Sys2Proof.Safety

/-! ## One entry among many of one length -/

theorem flatMap_split {α : Type} {l : List α} {i : Nat} {x : α} {f : α → List Byte} (h : l[i]? = some x) :
    l.flatMap f = (l.take i).flatMap f ++ (f x ++ (l.drop (i + 1)).flatMap f) := by
  obtain ⟨hi, rfl⟩ := List.getElem?_eq_some_iff.mp h
  calc l.flatMap f = (l.take i ++ l.drop i).flatMap f := by rw [List.take_append_drop]
    _ = _ := by rw [List.flatMap_append, List.drop_eq_getElem_cons hi, List.flatMap_cons]

/-- The fields of entry `i` of a run of entries of `n` bytes each, behind the bytes `pre`. -/
theorem holds_entry {α : Type} {v pre post : List Byte} {l : List α} {f : α → List Byte} {n i N : Nat} {x : α}
    {fields : List (Nat × List Byte)} (segs : List (List Byte)) (hv : v = pre ++ (l.flatMap f ++ post))
    (hN : v.length = N) (hf : ∀ a, (f a).length = n) (hi : l[i]? = some x) (hx : f x = segs.flatten)
    (h : fields ⊆ offsetsFrom (pre.length + n * i) segs) : Holds v N fields := by
  have hlen : ((l.take i).flatMap f).length = n * i := by
    obtain ⟨hlt, -⟩ := List.getElem?_eq_some_iff.mp hi
    rw [length_flatMap_const hf, List.length_take, Nat.min_eq_left hlt.le]
  refine holds_of_segments ([pre, (l.take i).flatMap f] ++ (segs ++ [(l.drop (i + 1)).flatMap f, post])) ?_ hN
    fun p hp => ?_
  · rw [hv, flatMap_split hi, hx]
    simp [List.append_assoc]
  · rw [offsetsFrom_append, offsetsFrom_append]
    refine List.mem_append_right _ (List.mem_append_left _ ?_)
    simpa [hlen] using h hp

/-! ## Numbers of slots -/

theorem toList_eq_map_finRange {α : Type} {n : Nat} (v : Vector α n) : v.toList = (List.finRange n).map (fun k => v[k]) := by
  refine List.ext_getElem (by simp) fun i h1 h2 => ?_
  simp

/-- The slots that are not empty, counted (R180). -/
theorem slotsWhere_true_length (t : StationTable) :
    (t.slotsWhere (fun _ => true)).length = t.slots.toList.countP (·.isSome) := by
  rw [toList_eq_map_finRange, List.countP_map, StationTable.slotsWhere, ← List.countP_eq_length_filter]
  refine List.countP_congr fun k _ => ?_
  show (match t.slots[k] with | some _ => true | none => false) = true ↔ _
  cases h : t.slots[k] <;> simp_all

/-- The reply slots in use, counted (R180). -/
theorem used_slots_length (m : Mgmt) : (m.slots.toList.filter (fun q => !q.isFree)).length =
    m.slots.toList.countP (fun q => decide (q ≠ .free)) := by
  rw [← List.countP_eq_length_filter]
  refine List.countP_congr fun q _ => ?_
  cases q <;> simp [ReplySlot.isFree]

/-! ## The views -/

theorem Holds.mono {v : List Byte} {n : Nat} {fields fields' : List (Nat × List Byte)} (h : Holds v n fields)
    (hsub : fields' ⊆ fields) : Holds v n fields' := ⟨h.1, fun p hp => h.2 p (hsub hp)⟩

/-- The pending shaping in the station view (R60): all 0 where none is pending. -/
def pendingFields : Option Shaping → List (Nat × List Byte)
  | none => [(38, [0, 0, 0]), (42, [0, 0, 0, 0])]
  | some sh => [(38, [BitVec.ofNat 8 sh.weight, sh.mode.code, boolByte sh.cap.isSome]), (42, beBytes 4 (sh.cap.getD 0))]

/-- The epoch number of the last grant in the station view (R60): 0 where there has been none. -/
def grantBytes : Option Count32 → List Byte
  | none => [0, 0, 0, 0]
  | some e => beBytes 4 e.toNat

/-- The segments of the station view before the allowance block (R60). -/
def stationHead (k : Fin 256) (st : Station) : List (List Byte) :=
  [[slotByte k, st.cls.code, BitVec.ofNat 8 st.tier, st.state.code, st.state.beforeCode, BitVec.ofNat 8 st.upq.length],
    st.origin.bytes, addrBytes st.addr]

/-- The segments of the station view between the allowance block and the counter block (R60). -/
def stationMiddle (s : State) (k : Fin 256) (st : Station) : List (List Byte) :=
  [[BitVec.ofNat 8 st.shaping.weight, st.shaping.mode.code, presence st.shaping.cap, presence st.pendingShaping],
    beBytes 4 (st.shaping.cap.getD 0),
    [BitVec.ofNat 8 ((st.pendingShaping.map (·.weight)).getD 0), (st.pendingShaping.map (·.mode.code)).getD 0,
      presence (st.pendingShaping.bind (·.cap))],
    [presence st.lastGrant], beBytes 4 ((st.pendingShaping.bind (·.cap)).getD 0), beBytes 4 st.share,
    beInt32 st.credit, beBytes 4 ((st.lastGrant.map (·.toNat)).getD 0), beBytes 2 st.idle,
    beBytes 2 (secondsSince s.now st.lastFrame),
    [presence (heldPosition s.table.held k), BitVec.ofNat 8 ((heldPosition s.table.held k).getD 0)]]

/-- The segments of the station view, in their order (R60). -/
def stationSegments (s : State) (k : Fin 256) (st : Station) : List (List Byte) :=
  stationHead k st ++ (allowanceSegments st.allowance ++ (stationMiddle s k st ++ counterSegments st.ctr))

theorem stationSegments_offsets (s : State) (k : Fin 256) (st : Station) : offsetsFrom 0 (stationSegments s k st) =
    offsetsFrom 0 (stationHead k st) ++ (offsetsFrom 14 (allowanceSegments st.allowance) ++
      (offsetsFrom 30 (stationMiddle s k st) ++ offsetsFrom 64 (counterSegments st.ctr))) := by
  have hhead : (stationHead k st).flatten.length = 14 := by simp [stationHead, origin_bytes_length]
  have hallow : (allowanceSegments st.allowance).flatten.length = 16 := by
    rw [← allowanceBlock_eq_segments, allowanceBlock_length]
  have hmiddle : (stationMiddle s k st).flatten.length = 34 := by simp [stationMiddle, beBytes_length, beInt32]
  rw [stationSegments, offsetsFrom_append, offsetsFrom_append, offsetsFrom_append, hhead, hallow, hmiddle]

theorem stationView_eq_segments (s : State) (k : Fin 256) (st : Station) :
    stationView s k st = (stationSegments s k st).flatten := by
  simp [stationView, stationSegments, stationHead, stationMiddle, block_eq_segments, allowanceBlock_eq_segments, List.append_assoc]

/-- 11.2: the station view, field by field (R60). -/
theorem stationView_holds (s : State) (k : Fin 256) (st : Station) : Holds (stationView s k st) 100 (
    [(0, [BitVec.ofNat 8 k.val, st.cls.code, BitVec.ofNat 8 st.tier, st.state.code, st.state.beforeCode,
        BitVec.ofNat 8 st.upq.length]), (6, st.origin.bytes), (8, addrBytes st.addr)] ++
      allowanceFields 14 st.allowance ++
    [(30, [BitVec.ofNat 8 st.shaping.weight, st.shaping.mode.code, boolByte st.shaping.cap.isSome,
        boolByte st.pendingShaping.isSome]), (34, beBytes 4 (st.shaping.cap.getD 0)),
      (41, [boolByte st.lastGrant.isSome])] ++ pendingFields st.pendingShaping ++
    [(46, beBytes 4 st.share), (50, beBytes 4 (st.credit % 4294967296).toNat), (54, grantBytes st.lastGrant),
      (58, beBytes 2 st.idle), (60, beBytes 2 (min 65535 ((s.now - st.lastFrame) / 100000))),
      (62, if k ∈ s.table.held then [1, BitVec.ofNat 8 (s.table.held.idxOf k)] else [0, 0])] ++
    counterFields 64 st.ctr) := by
  refine holds_of_segments (stationSegments s k st) (stationView_eq_segments s k st) (stationView_length s k st) ?_
  have hpend : pendingFields st.pendingShaping =
      [(38, [BitVec.ofNat 8 ((st.pendingShaping.map (·.weight)).getD 0), (st.pendingShaping.map (·.mode.code)).getD 0,
        presence (st.pendingShaping.bind (·.cap))]), (42, beBytes 4 ((st.pendingShaping.bind (·.cap)).getD 0))] := by
    cases st.pendingShaping <;> rfl
  have hgrant : grantBytes st.lastGrant = beBytes 4 ((st.lastGrant.map (·.toNat)).getD 0) := by
    cases st.lastGrant <;> rfl
  have hseconds : min 65535 ((s.now - st.lastFrame) / 100000) = secondsSince s.now st.lastFrame := Nat.min_comm _ _
  have hhead : offsetsFrom 0 (stationHead k st) = [(0, [slotByte k, st.cls.code, BitVec.ofNat 8 st.tier,
      st.state.code, st.state.beforeCode, BitVec.ofNat 8 st.upq.length]), (6, st.origin.bytes),
      (8, addrBytes st.addr)] := by
    simp [stationHead, offsetsFrom, origin_bytes_length]
  rw [counterFields_eq, allowanceFields_eq, hpend, hgrant, hseconds, ← heldPosition_bytes, ← beInt32_mod,
    stationSegments_offsets, hhead]
  refine List.append_subset.mpr ⟨List.append_subset.mpr ⟨List.append_subset.mpr ⟨List.append_subset.mpr
    ⟨List.append_subset.mpr ⟨fun p hp => List.mem_append_left _ hp,
      fun p hp => List.mem_append_right _ (List.mem_append_left _ hp)⟩, ?_⟩, ?_⟩, ?_⟩,
    fun p hp => List.mem_append_right _ (List.mem_append_right _ (List.mem_append_right _ hp))⟩
  all_goals
    refine fun p hp => List.mem_append_right _ (List.mem_append_right _ (List.mem_append_left _ ?_))
    revert p
    simp [stationMiddle, offsetsFrom, beBytes_length, beInt32, presence]

/-- The parameters from an offset of the scheduler view (R129). -/
def paramsFields (o : Nat) (q : Params) : List (Nat × List Byte) :=
  [(o, beBytes 4 q.budget), (o + 4, beBytes 2 q.te), (o + 6, [BitVec.ofNat 8 q.t0, BitVec.ofNat 8 q.t1,
    BitVec.ofNat 8 q.t2, BitVec.ofNat 8 q.t3, BitVec.ofNat 8 q.n, BitVec.ofNat 8 q.m])]

/-- The segments of the six parameters. -/
def paramsSegments (q : Params) : List (List Byte) :=
  [beBytes 4 q.budget, beBytes 2 q.te, [BitVec.ofNat 8 q.t0, BitVec.ofNat 8 q.t1, BitVec.ofNat 8 q.t2,
    BitVec.ofNat 8 q.t3, BitVec.ofNat 8 q.n, BitVec.ofNat 8 q.m]]

/-- The pending parameters in the scheduler view (R129): all 0 where none are pending. -/
def pendingParamsFields : Option Params → List (Nat × List Byte)
  | none => [(20, List.replicate 12 0)]
  | some q => paramsFields 20 q

/-- 11.2: the scheduler view, field by field (R129). -/
theorem schedulerView_holds (c : Scheduler) : Holds (schedulerView c) 46 (
    [(0, [if c.running then 2 else 1, boolByte c.pendingParams.isSome]), (2, beBytes 2 c.counter),
      (4, beBytes 4 c.number.toNat)] ++ paramsFields 8 c.params ++ pendingParamsFields c.pendingParams ++
    [(32, beBytes 4 (c.surplus % 4294967296).toNat), (36, beBytes 2 c.active), (38, beBytes 4 c.weight),
      (42, beBytes 4 c.shares)]) := by
  refine holds_of_segments ([[if c.running then 2 else 1, presence c.pendingParams], beBytes 2 c.counter,
    beBytes 4 c.number.toNat] ++ paramsSegments c.params ++
    ((c.pendingParams.map paramsSegments).getD [List.replicate 12 0]) ++
    [beInt32 c.surplus, beBytes 2 c.active, beBytes 4 c.weight, beBytes 4 c.shares]) ?_ (schedulerView_length c) ?_
  · cases h : c.pendingParams <;> simp [schedulerView, Params.bytes, paramsSegments, h]
  · rw [← beInt32_mod]
    cases h : c.pendingParams <;>
      simp [offsetsFrom, beBytes_length, beInt32, paramsSegments, paramsFields, pendingParamsFields, presence]

/-- 11.2: a window's record, field by field (R80, R82). -/
theorem windowView_holds (i : Fin 9) (w : Window) : Holds (windowView i w) 24
    [(0, [BitVec.ofNat 8 i.val, boolByte w.set.enabled, BitVec.ofNat 8 w.set.k, boolByte w.set.metered,
        boolByte w.set.opened, w.set.passenger.code, w.set.crew.code, w.set.operations.code]),
      (8, beBytes 4 w.set.base.toNat), (12, beBytes 4 w.up.toNat), (16, beBytes 4 w.down.toNat),
      (20, beBytes 4 w.refused.toNat)] := by
  refine holds_of_segments [[BitVec.ofNat 8 i.val, boolByte w.set.enabled, BitVec.ofNat 8 w.set.k,
    boolByte w.set.metered, boolByte w.set.opened, w.set.passenger.code, w.set.crew.code, w.set.operations.code],
    beBytes 4 w.set.base.toNat, beBytes 4 w.up.toNat, beBytes 4 w.down.toNat, beBytes 4 w.refused.toNat] ?_
    (windowView_length i w) ?_
  · simp [windowView]
  · simp [offsetsFrom, beBytes_length]

/-- The segments that every port view begins with (R13). -/
def unitSegments (p : Port) (u : PortUnit) : List (List Byte) :=
  [[BitVec.ofNat 8 (portCode p), u.link.code], beBytes 4 u.ctr.rxFrames.toNat, beBytes 6 u.ctr.rxBytes.toNat,
    beBytes 4 u.ctr.rxDiscards.toNat, beBytes 4 u.ctr.txFrames.toNat, beBytes 6 u.ctr.txBytes.toNat,
    beBytes 4 u.ctr.txDrops.toNat]

/-- The fields that every port view begins with (R13). -/
def unitFields (p : Port) (u : PortUnit) : List (Nat × List Byte) :=
  [(0, [BitVec.ofNat 8 (portCode p), u.link.code]), (2, beBytes 4 u.ctr.rxFrames.toNat),
    (6, beBytes 6 u.ctr.rxBytes.toNat), (12, beBytes 4 u.ctr.rxDiscards.toNat), (16, beBytes 4 u.ctr.txFrames.toNat),
    (20, beBytes 6 u.ctr.txBytes.toNat), (26, beBytes 4 u.ctr.txDrops.toNat)]

theorem unitFields_eq (p : Port) (u : PortUnit) : unitFields p u = offsetsFrom 0 (unitSegments p u) := by
  simp [unitFields, unitSegments, offsetsFrom, beBytes_length]

/-- A port view is its common fields and those of its kind of port behind them. -/
theorem holds_portView {v : List Byte} {n : Nat} {p : Port} {u : PortUnit} {own : List (List Byte)}
    {fields : List (Nat × List Byte)} (hv : v = [BitVec.ofNat 8 (portCode p)] ++ u.view ++ own.flatten)
    (hn : own.flatten.length + 30 = n) (hf : fields = offsetsFrom 30 own) : Holds v n (unitFields p u ++ fields) := by
  have hlen : (unitSegments p u).flatten.length = 30 := by simp [unitSegments, beBytes_length]
  refine holds_of_segments (unitSegments p u ++ own) ?_ ?_ ?_
  · simp [hv, PortUnit.view, unitSegments]
  · rw [hv, ← hn]
    simp [PortUnit.view, beBytes_length]
    omega
  · rw [unitFields_eq, hf, offsetsFrom_append, hlen]
    exact fun p hp => hp

theorem seatView_holds (s : State) (n : Fin 32) : Holds (portView s (.seat n)) 34
    (unitFields (.seat n) (s.ports.seats[n]).unit ++ [(30, [(s.ports.seats[n]).designation.code,
      BitVec.ofNat 8 (s.ports.seats[n]).egress.length, BitVec.ofNat 8 (s.table.onSeat n).length,
      BitVec.ofNat 8 (repliesFor s.hub.mgmt (.seat n)).length])]) :=
  holds_portView (own := [[(s.ports.seats[n]).designation.code, BitVec.ofNat 8 (s.ports.seats[n]).egress.length,
    BitVec.ofNat 8 (s.table.onSeat n).length, BitVec.ofNat 8 (repliesFor s.hub.mgmt (.seat n)).length]])
    (by simp [portView, Ports.unitOf]) rfl rfl

theorem radioView_holds (s : State) (w : Fin 4) (q : RadioLink) (hq : s.ports.radios[w] = q) :
    Holds (portView s (.radio w)) 46 (unitFields (.radio w) q.unit ++
      [(30, [BitVec.ofNat 8 q.egress.length, BitVec.ofNat 8 q.orders.length, BitVec.ofNat 8 (s.table.onRadio w).length, 0]),
        (34, beBytes 4 q.noticesTaken.toNat), (38, beBytes 4 q.noticesIgnored.toNat),
        (42, beBytes 4 q.ordersSent.toNat)]) := by
  subst hq
  refine holds_portView (own := [[BitVec.ofNat 8 (s.ports.radios[w]).egress.length,
    BitVec.ofNat 8 (s.ports.radios[w]).orders.length, BitVec.ofNat 8 (s.table.onRadio w).length, 0],
    beBytes 4 (s.ports.radios[w]).noticesTaken.toNat, beBytes 4 (s.ports.radios[w]).noticesIgnored.toNat,
    beBytes 4 (s.ports.radios[w]).ordersSent.toNat]) ?_ ?_ ?_
  · simp [portView, Ports.unitOf]
  · simp [beBytes_length]
  · simp [offsetsFrom, beBytes_length]

theorem endView_holds (s : State) (x : End) (q : BackboneEnd) (hq : s.ports.endOf x = q) :
    Holds (portView s (.backbone x)) 58 (unitFields (.backbone x) q.unit ++
      [(30, [BitVec.ofNat 8 q.transit.length, boolByte q.heldUntil.isSome, boolByte q.overrun, boolByte q.outstanding,
          boolByte q.pendingHold.isSome, 0]), (36, beBytes 2 (q.heldUntil.getD 0 - s.now)),
        (38, beBytes 4 q.holdsSent.toNat), (42, beBytes 4 q.releasesSent.toNat), (46, beBytes 4 q.holdsReceived.toNat),
        (50, beBytes 4 q.releasesReceived.toNat), (54, beBytes 4 q.overruns.toNat)]) := by
  subst hq
  refine holds_portView (own := [[BitVec.ofNat 8 (s.ports.endOf x).transit.length,
    boolByte (s.ports.endOf x).heldUntil.isSome, boolByte (s.ports.endOf x).overrun,
    boolByte (s.ports.endOf x).outstanding, boolByte (s.ports.endOf x).pendingHold.isSome, 0],
    beBytes 2 (timeLeft s.now (s.ports.endOf x)), beBytes 4 (s.ports.endOf x).holdsSent.toNat,
    beBytes 4 (s.ports.endOf x).releasesSent.toNat, beBytes 4 (s.ports.endOf x).holdsReceived.toNat,
    beBytes 4 (s.ports.endOf x).releasesReceived.toNat, beBytes 4 (s.ports.endOf x).overruns.toNat]) ?_ ?_ ?_
  · simp [portView, Ports.unitOf]
  · simp [beBytes_length]
  · simp [offsetsFrom, beBytes_length, timeLeft]

/-! ## Pages -/

/-- The entries of a page of 16 slots. -/
theorem page_entry {α : Type} (v : Vector α 256) {p : Nat} {i : Fin 16} {k : Fin 256} (hk : k.val = 16 * p + i.val) :
    ((v.toList.drop (16 * p)).take 16)[i.val]? = some v[k] := by
  rw [List.getElem?_take_of_lt i.isLt, List.getElem?_drop, ← hk]
  simp

theorem page_length {α : Type} (v : Vector α 256) {p : Nat} (hp : p ≤ 15) :
    ((v.toList.drop (16 * p)).take 16).length = 16 := by
  simp
  omega

theorem listView_length (s : State) {p : Nat} (hp : p ≤ 15) : (listView s p).length = 194 := by
  simp only [listView, List.length_append, List.length_cons, List.length_nil, length_flatMap_const listEntry_length,
    page_length s.table.slots hp]

theorem snapshotView_length (sn : Snapshot) {p : Nat} (hp : p ≤ 15) : (snapshotView sn p).length = 488 := by
  simp only [snapshotView, List.length_append, List.length_cons, List.length_nil, beBytes_length,
    length_flatMap_const snapshotEntryBytes_length, page_length sn.entries hp]

/-- 11.2: a field before the rest of a body. -/
theorem holds_prefix {v rest : List Byte} {n : Nat} {segs : List (List Byte)} (hv : v = segs.flatten ++ rest)
    (hn : v.length = n) : Holds v n (offsetsFrom 0 segs) := by
  refine holds_of_segments (segs ++ [rest]) (by simp [hv]) hn ?_
  rw [offsetsFrom_append]
  exact fun p hp => List.mem_append_left _ hp

theorem listView_head (s : State) {p : Nat} (hp : p ≤ 15) : Holds (listView s p) 194 [(0, [BitVec.ofNat 8 p, 0])] :=
  holds_prefix (segs := [[BitVec.ofNat 8 p, 0]]) rfl (listView_length s hp)

theorem snapshotView_head (sn : Snapshot) {p : Nat} (hp : p ≤ 15) : Holds (snapshotView sn p) 488
    [(0, beBytes 4 sn.number.toNat), (4, [BitVec.ofNat 8 p, 0, 0, 0])] :=
  Holds.mono (holds_prefix (segs := [beBytes 4 sn.number.toNat, [BitVec.ofNat 8 p, 0, 0, 0]])
    (by simp only [snapshotView, List.flatten_cons, List.flatten_nil, List.append_nil]; rfl) (snapshotView_length sn hp))
    (by simp [offsetsFrom, beBytes_length])

/-- 11.2: one entry of a page of the table (R61). -/
theorem listView_entry (s : State) {p : Nat} {i : Fin 16} {k : Fin 256} {fields : List (Nat × List Byte)} (hp : p ≤ 15)
    (hk : k.val = 16 * p + i.val) (segs : List (List Byte)) (hx : listEntry s.table.slots[k] = segs.flatten)
    (h : fields ⊆ offsetsFrom (2 + 12 * i.val) segs) : Holds (listView s p) 194 fields :=
  holds_entry segs (pre := [BitVec.ofNat 8 p, 0]) (post := []) (by simp [listView]) (listView_length s hp)
    listEntry_length (page_entry s.table.slots hk) hx h

/-- 11.2: one entry of a page of the snapshot (R183). -/
theorem snapshotView_entry (sn : Snapshot) {p : Nat} {i : Fin 16} {k : Fin 256} {fields : List (Nat × List Byte)}
    (hp : p ≤ 15) (hk : k.val = 16 * p + i.val) (segs : List (List Byte))
    (hx : snapshotEntryBytes sn.entries[k] = segs.flatten) (h : fields ⊆ offsetsFrom (8 + 30 * i.val) segs) :
    Holds (snapshotView sn p) 488 fields :=
  holds_entry segs (pre := beBytes 4 sn.number.toNat ++ [BitVec.ofNat 8 p, 0, 0, 0]) (post := [])
    (by simp [snapshotView]) (snapshotView_length sn hp) snapshotEntryBytes_length (page_entry sn.entries hk) hx h

end Sys2Proof.Laws
end

section
/-! The statement on the read requests (R13, R60, R61, R82, R129, R180, R183). -/

namespace Sys2Proof.Laws

open Sys2Proof Sys2Proof.Machine Sys2Proof.Safety

/-! ## The status record -/

/-- The segments of the status record behind the tally (R180). -/
def statusTail (s : State) : List (List Byte) :=
  [beBytes 2 s.hub.cells.free.length, beBytes 2 s.hub.cells.held,
    [BitVec.ofNat 8 s.hub.cells.retired.length, s.hub.cells.pressure.code], beBytes 2 s.hub.cells.high,
    beBytes 2 s.hub.cells.low, beBytes 2 (s.table.slotsWhere (fun _ => true)).length,
    [BitVec.ofNat 8 s.up.onboard.length, 0], endStatus s.now s.ports.ba, endStatus s.now s.ports.bb,
    [BitVec.ofNat 8 s.consist.carriage, leadCode s.consist.lead],
    [BitVec.ofNat 8 s.hub.mgmt.input.length,
      BitVec.ofNat 8 (s.hub.mgmt.slots.toList.filter (fun q => !q.isFree)).length,
      BitVec.ofNat 8 s.hub.mgmt.notices.length, 0],
    beBytes 2 s.hub.mgmt.lost, [presence s.hub.mgmt.reportAddr, 0], addrBytes (s.hub.mgmt.reportAddr.getD 0),
    [boolByte (snapshotParked s.hub.mgmt), boolByte (saveParked s.hub.mgmt), presence s.hub.mgmt.snapshot, 0],
    beBytes 4 ((s.hub.mgmt.snapshot.map (·.number.toNat)).getD 0)]

/-- The bytes of the eleven flags in the status record (R180, R193). -/
def flagBytes (s : State) : List Byte := s.hub.mgmt.flags.toList.flatMap StickyFlag.bytes

/-- The bytes of the tally in the status record (R180, R193). -/
def tallyBytes (s : State) : List Byte := s.hub.mgmt.tally.toList.flatMap (fun n => beBytes 4 n.toNat)

theorem statusView_eq (s : State) : statusView s = addrBytes s.identity ++ (flagBytes s ++
    (captureBytes s.hub.cells.singleCapture ++ (captureBytes s.hub.cells.multiCapture ++ (tallyBytes s ++
      (statusTail s).flatten)))) := by
  unfold statusView statusTail flagBytes tallyBytes
  simp only [List.flatten_cons, List.flatten_nil, List.append_assoc, List.append_nil]

theorem flag_bytes_length (f : StickyFlag) : f.bytes.length = 4 := by simp [StickyFlag.bytes, beBytes_length]

theorem flagBytes_length (s : State) : (flagBytes s).length = 44 := by
  rw [flagBytes, length_flatMap_const flag_bytes_length, Vector.length_toList]

theorem tallyBytes_length (s : State) : (tallyBytes s).length = 72 := by
  rw [tallyBytes, length_flatMap_const (fun n => beBytes_length 4 _), Vector.length_toList]

/-- 11.2: a flag in the status record (R180, R193). -/
theorem statusView_flag (s : State) (f : Flag) : Holds (statusView s) 188
    [(6 + 4 * f.index.val, [boolByte (s.hub.flagOf f).isSet, 0] ++ beBytes 2 (s.hub.flagOf f).count)] :=
  holds_entry [(s.hub.flagOf f).bytes] (statusView_eq s) (statusView_length s) flag_bytes_length
    (show s.hub.mgmt.flags.toList[f.index.val]? = some (s.hub.flagOf f) by simp [Hub.flagOf])
    (List.append_nil _).symm (by simp [offsetsFrom, StickyFlag.bytes])

/-- 11.2: a counter of the tally in the status record (R180, R193). -/
theorem statusView_tally (s : State) (r : Discard) : Holds (statusView s) 188
    [(62 + 4 * r.index.val, beBytes 4 (s.hub.tallyOf r).toNat)] := by
  refine holds_entry (f := fun n : Count32 => beBytes 4 n.toNat) [beBytes 4 (s.hub.tallyOf r).toNat]
    (pre := addrBytes s.identity ++ flagBytes s ++ captureBytes s.hub.cells.singleCapture ++
      captureBytes s.hub.cells.multiCapture)
    (l := s.hub.mgmt.tally.toList) (post := (statusTail s).flatten) (i := r.index.val) (x := s.hub.tallyOf r) ?_
    (statusView_length s) (fun n => beBytes_length 4 _) ?_ (List.append_nil _).symm ?_
  · simp [statusView_eq, tallyBytes, List.append_assoc]
  · simp [Hub.tallyOf]
  · simp [offsetsFrom, flagBytes_length, captureBytes_length]

/-- 11.2: the status record but for its flags and tally, segment by segment (R180). -/
theorem statusView_holds (s : State) : Holds (statusView s) 188 ([(0, addrBytes s.identity),
    (50, captureBytes s.hub.cells.singleCapture), (56, captureBytes s.hub.cells.multiCapture)] ++
      offsetsFrom 134 (statusTail s)) := by
  refine holds_of_segments ([addrBytes s.identity, flagBytes s, captureBytes s.hub.cells.singleCapture,
    captureBytes s.hub.cells.multiCapture, tallyBytes s] ++ statusTail s) ?_ (statusView_length s) ?_
  · simp [statusView_eq]
  · rw [offsetsFrom_append]
    have hlen : [addrBytes s.identity, flagBytes s, captureBytes s.hub.cells.singleCapture,
      captureBytes s.hub.cells.multiCapture, tallyBytes s].flatten.length = 134 := by
      simp [flagBytes_length, tallyBytes_length, captureBytes_length]
    rw [hlen]
    refine List.append_subset.mpr ⟨fun p hp => List.mem_append_left _ ?_, fun p hp => List.mem_append_right _ hp⟩
    revert p
    simp [offsetsFrom, flagBytes_length, captureBytes_length]

theorem statusTail_offsets (s : State) : offsetsFrom 134 (statusTail s) =
    [(134, beBytes 2 s.hub.cells.free.length), (136, beBytes 2 s.hub.cells.held),
      (138, [BitVec.ofNat 8 s.hub.cells.retired.length, s.hub.cells.pressure.code]), (140, beBytes 2 s.hub.cells.high),
      (142, beBytes 2 s.hub.cells.low), (144, beBytes 2 (s.table.slotsWhere (fun _ => true)).length),
      (146, [BitVec.ofNat 8 s.up.onboard.length, 0]), (148, endStatus s.now s.ports.ba),
      (156, endStatus s.now s.ports.bb), (164, [BitVec.ofNat 8 s.consist.carriage, leadCode s.consist.lead]),
      (166, [BitVec.ofNat 8 s.hub.mgmt.input.length,
        BitVec.ofNat 8 (s.hub.mgmt.slots.toList.filter (fun q => !q.isFree)).length,
        BitVec.ofNat 8 s.hub.mgmt.notices.length, 0]),
      (170, beBytes 2 s.hub.mgmt.lost), (172, [presence s.hub.mgmt.reportAddr, 0]),
      (174, addrBytes (s.hub.mgmt.reportAddr.getD 0)),
      (180, [boolByte (snapshotParked s.hub.mgmt), boolByte (saveParked s.hub.mgmt), presence s.hub.mgmt.snapshot, 0]),
      (184, beBytes 4 ((s.hub.mgmt.snapshot.map (·.number.toNat)).getD 0))] := by
  simp [statusTail, offsetsFrom, beBytes_length, endStatus_length]

end Sys2Proof.Laws

namespace Sys2Proof.Proofs

open Sys2Proof Sys2Proof.Machine Sys2Proof.Safety Sys2Proof.Laws

theorem portOfCode_portCode (p : Port) : portOfCode (portCode p) = some p := by
  cases p with
  | seat n => simp [portOfCode, portCode]
  | radio w =>
    have : ¬ 32 + w.val < 32 := by omega
    simp [portOfCode, portCode, this]
  | backbone x => cases x <;> rfl

theorem portOfCode_of_large {c : Nat} (h : 37 < c) : portOfCode c = none := by
  unfold portOfCode
  rw [dif_neg (by omega), dif_neg (by omega), if_neg (by omega), if_neg (by omega)]

/-- The snapshot area is not touched by a take (R169). -/
theorem afterTake_snapshot {s : State} {fs : List CellFault} {k : Fin 4} {rq : Request} (ht : Takes s fs k rq) :
    (afterTake s fs).hub.mgmt.snapshot = s.hub.mgmt.snapshot := (afterTake_spec ht).snapshot

/-- What the rows of the read requests answer (R13, R60, R61, R82, R129, R180, R183). -/
theorem reads_answer {s : State} {fs : List CellFault} {k : Fin 4} {rq : Request} (ht : Takes s fs k rq) :
    let t := afterTake s fs
    (rq.code = 0x01 → ∀ j st, s.table.byAddr (rq.addr 0) = some j → s.station? j = some st →
      exec (.readStation fs) s = .next (answerView k (.station (rq.addr 0)) t)) ∧
    (rq.code = 0x02 → exec (.listStations fs) s = .next
      (if rq.num 0 1 ≤ 15 then answerView k (.page (rq.num 0 1)) t else refuse k .badValue t)) ∧
    (rq.code = 0x0C → exec (.readScheduler fs) s = .next (answerView k .scheduler t)) ∧
    (rq.code = 0x0E → (∀ i : Fin 9, rq.num 0 1 = i.val → exec (.readWindow fs) s = .next (answerView k (.window i) t)) ∧
      (8 < rq.num 0 1 → exec (.readWindow fs) s = .next (refuse k .badValue t))) ∧
    (rq.code = 0x10 → (∀ p, rq.num 0 1 = portCode p → exec (.readPort fs) s = .next (answerView k (.port p) t)) ∧
      (37 < rq.num 0 1 → exec (.readPort fs) s = .next (refuse k .badValue t))) ∧
    (rq.code = 0x14 → exec (.readStatus fs) s = .next (answerView k .status t)) ∧
    (rq.code = 0x17 → exec (.readSnapshot fs) s = .next
      (if 15 < rq.num 0 1 then refuse k .badValue t
      else if s.hub.mgmt.snapshot = none then refuse k .noSnapshot t
      else answerView k (.snapshotPage (rq.num 0 1)) t)) := by
  intro t
  have hrow : ∀ {n : Nat} {rule : Fin 4 → Request → State → State}, rq.code = n →
      Host.Outcome.next (takeRequest (isCode n) fs rule s) = (.next (rule k rq t) : Host.Outcome State Fault Refusal) :=
    fun hc => congrArg Host.Outcome.next (takeRequest_of_takes ht (isCode_of_eq hc))
  refine ⟨fun hc j st ha hst => ?_, fun hc => ?_, fun hc => ?_, fun hc => ⟨fun i hi => ?_, fun hi => ?_⟩,
    fun hc => ⟨fun p hp => ?_, fun hp => ?_⟩, fun hc => ?_, fun hc => ?_⟩
  · refine (hrow hc : exec (.readStation fs) s = .next (ruleReadStation k rq t)).trans ?_
    rw [ruleReadStation, takes_onStation ha hst]
  · refine (hrow hc : exec (.listStations fs) s = .next (ruleListStations k rq t)).trans ?_
    rw [ruleListStations]
    by_cases hp : 15 < rq.num 0 1
    · rw [if_pos hp, if_neg (by omega)]
    · rw [if_neg hp, if_pos (by omega)]
  · exact hrow (rule := ruleReadScheduler) hc
  · refine (hrow hc : exec (.readWindow fs) s = .next (ruleReadWindow k rq t)).trans ?_
    rw [ruleReadWindow, dif_pos (by omega)]
    simp only [hi]
  · refine (hrow hc : exec (.readWindow fs) s = .next (ruleReadWindow k rq t)).trans ?_
    rw [ruleReadWindow, dif_neg (by omega)]
  · refine (hrow hc : exec (.readPort fs) s = .next (ruleReadPort k rq t)).trans ?_
    rw [ruleReadPort, hp, portOfCode_portCode]
  · refine (hrow hc : exec (.readPort fs) s = .next (ruleReadPort k rq t)).trans ?_
    rw [ruleReadPort, portOfCode_of_large hp]
  · exact hrow (rule := ruleReadStatus) hc
  · refine (hrow hc : exec (.readSnapshot fs) s = .next (ruleReadSnapshot k rq t)).trans ?_
    simp only [ruleReadSnapshot, Option.isNone_iff_eq_none, show t.hub.mgmt.snapshot = _ from afterTake_snapshot ht]

/-- The flags and the reasons stand in the order of R193. -/
theorem flag_of_index {i : Nat} {f : Flag} (h : [Flag.memorySingle, .memoryMulti, .memoryDegraded, .holdOverrunBA,
    .holdOverrunBB, .noticesLost, .storeDefaulted, .tableFull, .pressureSeen, .originConflict, .mgmtOverflow][i]? =
      some f) : f.index.val = i := by
  obtain ⟨hi, rfl⟩ := List.getElem?_eq_some_iff.mp h
  have hall : ∀ i : Fin 11, ([Flag.memorySingle, .memoryMulti, .memoryDegraded, .holdOverrunBA, .holdOverrunBB,
    .noticesLost, .storeDefaulted, .tableFull, .pressureSeen, .originConflict, .mgmtOverflow][i]).index.val = i.val := by
    decide
  exact hall ⟨i, hi⟩

theorem reason_of_index {i : Nat} {r : Discard} (h : [Discard.wire, .noCells, .unassociated, .origin, .portCrowded,
    .tableFull, .barred, .window, .notAdmitted, .pressure, .shed, .queueFull, .endDown, .memory, .purge, .aborted,
    .mgmtRefused, .mgmtOverflow][i]? = some r) : r.index.val = i := by
  obtain ⟨hi, rfl⟩ := List.getElem?_eq_some_iff.mp h
  have hall : ∀ i : Fin 18, ([Discard.wire, .noCells, .unassociated, .origin, .portCrowded, .tableFull, .barred, .window,
    .notAdmitted, .pressure, .shed, .queueFull, .endDown, .memory, .purge, .aborted, .mgmtRefused,
    .mgmtOverflow][i]).index.val = i.val := by
    decide
  exact hall ⟨i, hi⟩

/-- Settles O41. -/
theorem readsAnswerTheirView : Obligations.ReadsAnswerTheirView := by
  refine ⟨fun s fs k rq ht => reads_answer ht, ?_, fun s => ?_⟩
  · refine ⟨by decide, by decide, fun _ => rfl, fun _ => rfl, by decide, fun st hb => ?_, by decide, by decide, by decide,
      by decide, by decide, by decide, by decide, fun _ => ⟨rfl, rfl⟩, fun _ _ => ⟨rfl, rfl⟩, rfl, rfl, rfl, fun _ => rfl⟩
    cases st with
    | barred b => exact absurd rfl (hb b)
    | _ => rfl
  · intro m c view num signed params unit left
    refine ⟨fun a k st ha hst => ?_, fun a ha => ?_, fun p hp => ⟨?_, fun i k hk => ⟨fun hno => ?_, fun st hst => ?_⟩⟩,
      ?_, fun i => ⟨_, rfl, windowView_holds i _⟩, fun n => ⟨_, rfl, seatView_holds s n⟩,
      fun w => ⟨_, rfl, radioView_holds s w _ rfl⟩, fun x => ⟨_, rfl, endView_holds s x _ rfl⟩, ⟨?_, ?_, ?_⟩, ?_, ?_, ?_,
      fun p sn hsn hp => ⟨?_, fun i k hk => ⟨fun hno => ?_, fun e he => ?_⟩⟩⟩
    · refine ⟨_, renderReply_station ha hst, Holds.mono (stationView_holds s k st) ?_⟩
      cases hp : st.pendingShaping <;> cases hg : st.lastGrant <;> exact fun _ hp => hp
    · simp only [renderReply, ha]
    · exact ⟨_, rfl, listView_head s hp⟩
    · exact ⟨_, rfl, listView_entry s hp hk [List.replicate 12 0] (by
        rw [show s.table.slots[k] = none from hno]; exact (List.append_nil _).symm) (by simp [offsetsFrom])⟩
    · exact ⟨_, rfl, listView_entry s hp hk [[1, st.state.code, st.cls.code, 0], st.origin.bytes, addrBytes st.addr] (by
        rw [show s.table.slots[k] = some st from hst]; simp [listEntry])
        (by simp [offsetsFrom, origin_bytes_length]; omega)⟩
    · exact ⟨_, rfl, Holds.mono (schedulerView_holds s.sched) (by cases s.sched.pendingParams <;> exact fun _ hp => hp)⟩
    · refine ⟨_, rfl, Holds.mono (statusView_holds s) ?_⟩
      have hcapture : ∀ r, captureBytes r = (match r with
        | none => List.replicate 6 0
        | some g => [1, g.kind.code] ++ beBytes 2 g.cell ++ [num (readingCode g.port), 0]) := by
        intro r
        cases r <;> rfl
      have hnumber : beBytes 4 ((m.snapshot.map (·.number.toNat)).getD 0) = (match m.snapshot with
        | none => [0, 0, 0, 0]
        | some sn => beBytes 4 sn.number.toNat) := by
        cases m.snapshot <;> rfl
      rw [statusTail_offsets, slotsWhere_true_length, used_slots_length, hcapture, hcapture, hnumber]
      intro p hp
      exact hp
    · intro i f hf
      rw [← flag_of_index hf]
      exact ⟨_, rfl, statusView_flag s f⟩
    · intro i r hr
      rw [← reason_of_index hr]
      exact ⟨_, rfl, statusView_tally s r⟩
    · refine slots_any_iff.trans (exists_congr fun j => ?_)
      cases m.slots[j] with
      | parked h op => cases op <;> simp [ReplySlot.isSnapshot]
      | _ => simp [ReplySlot.isSnapshot]
    · refine slots_any_iff.trans (exists_congr fun j => ?_)
      cases m.slots[j] with
      | parked h op => cases op <;> simp [ReplySlot.isSave]
      | _ => simp [ReplySlot.isSave]
    · intro p hno
      simp only [renderReply, show s.hub.mgmt.snapshot = none from hno]
    · exact ⟨_, by simp only [renderReply, show s.hub.mgmt.snapshot = some sn from hsn], snapshotView_head sn hp⟩
    · refine ⟨_, by simp only [renderReply, show s.hub.mgmt.snapshot = some sn from hsn],
        snapshotView_entry sn hp hk [List.replicate 30 0] ?_ (by simp [offsetsFrom])⟩
      rw [hno]
      exact (List.append_nil _).symm
    · refine ⟨_, by simp only [renderReply, show s.hub.mgmt.snapshot = some sn from hsn],
        snapshotView_entry sn hp hk [[1, e.state.code, presence e.current, 0], addrBytes e.addr,
          beBytes 4 (e.current.getD 0), beBytes 6 e.upMetered.toNat, beBytes 6 e.downMetered.toNat,
          beBytes 4 e.drops.toNat] ?_ ?_⟩
      · rw [he]
        simp [snapshotEntryBytes]
      · simp [offsetsFrom, beBytes_length, presence, Nat.add_assoc]

end Sys2Proof.Proofs
end

section
/-! The statements on epoch boundaries (chapter 7.4). -/

namespace Sys2Proof.Laws

open Sys2Proof Sys2Proof.Machine Sys2Proof.Safety

/-! ## A record at a boundary -/

section
variable (q : Params) (number : Count32) (total : Nat) (o : Option Station)

/-- What a boundary computes from is what it leaves (R119, R120). -/
theorem slotWeight_atBoundary : slotWeight q number (o.map (Station.atBoundary q number total)) = slotWeight q number o := by
  cases o <;> rfl

theorem slotActive_atBoundary : slotActive number (o.map (Station.atBoundary q number total)) = slotActive number o := by
  cases o <;> rfl

theorem slotShare_atBoundary :
    ((o.map (Station.atBoundary q number total)).map (·.share)).getD 0 = slotShare q number total o := by
  cases o <;> rfl

end

/-- The share of an active record lies in floor (B × e / W), cut to its cap (R121). -/
theorem activeShare_eq (q : Params) (total : Nat) (st : Station) : (st.shaping.cap = none →
      st.activeShare q total = q.budget * st.effectiveWeight q / total) ∧
    ∀ c, st.shaping.cap = some c → st.activeShare q total = min (q.budget * st.effectiveWeight q / total) c := by
  unfold Station.activeShare
  exact ⟨fun h => by simp only [h], fun c h => by simp only [h]⟩

theorem activeShare_le (q : Params) (total : Nat) (st : Station) :
    st.activeShare q total ≤ q.budget * st.effectiveWeight q / total := by
  obtain ⟨hnone, hsome⟩ := activeShare_eq q total st
  cases h : st.shaping.cap with
  | none => exact (hnone h).le
  | some c => exact (hsome c h).trans_le (Nat.min_le_left _ _)

/-- R130: a share that is not its record's cap is the whole floor. -/
theorem activeShare_of_ne_cap {q : Params} {total : Nat} {st : Station}
    (h : st.shaping.cap ≠ some (st.activeShare q total)) :
    st.activeShare q total = q.budget * st.effectiveWeight q / total := by
  obtain ⟨hnone, hsome⟩ := activeShare_eq q total st
  cases hc : st.shaping.cap with
  | none => exact hnone hc
  | some c =>
    have heq := hsome c hc
    have hne : st.activeShare q total ≠ c := fun he => h (hc.trans (congrArg some he.symm))
    rw [heq] at hne ⊢
    omega

/-! ## Sums over the slots -/

theorem sum_toList {α : Type} {n : Nat} (v : Vector α n) (f : α → Nat) : (v.toList.map f).sum = ∑ k : Fin n, f v[k] := by
  rw [toList_eq_map_finRange, List.map_map, Fin.sum_univ_def]
  rfl

/-- Where one active record holds the whole weight, its share is the sum of the shares (R120, R121). -/
theorem totalShares_of_single {q : Params} {number : Count32} {slots : Vector (Option Station) 256} {k : Fin 256}
    {st : Station} (hk : slots[k] = some st) (hactive : st.isActive number = true)
    (hweight : totalWeight q number slots = st.effectiveWeight q) :
    totalShares q number (totalWeight q number slots) slots = st.activeShare q (totalWeight q number slots) := by
  have hwk : slotWeight q number slots[k] = st.effectiveWeight q := by simp [slotWeight, hk, hactive]
  have hothers : ∀ j, j ≠ k → slotWeight q number slots[j] = 0 := by
    have hsum : ∑ j ∈ Finset.univ.erase k, slotWeight q number slots[j] = 0 := by
      have hsplit := Finset.add_sum_erase Finset.univ (fun j : Fin 256 => slotWeight q number slots[j]) (Finset.mem_univ k)
      rw [totalWeight, sum_toList, ← hsplit] at hweight
      simp only [hwk] at hweight
      omega
    exact fun j hj => Finset.sum_eq_zero_iff.mp hsum j (Finset.mem_erase.mpr ⟨hj, Finset.mem_univ j⟩)
  have hshares : ∀ j, j ≠ k → slotShare q number (totalWeight q number slots) slots[j] = 0 := by
    intro j hj
    have hle := slotShare_le q number (totalWeight q number slots) slots[j]
    rw [hothers j hj, Nat.mul_zero, Nat.zero_div] at hle
    exact Nat.le_zero.mp hle
  rw [totalShares, sum_toList, Finset.sum_eq_single k (fun j _ hj => hshares j hj) (fun h => absurd (Finset.mem_univ k) h), hk]
  simp [slotShare, Station.shareAt, hactive]

/-! ## The state after a boundary by time -/

section
variable (s : State)

/-- The sum of the shares of a boundary (R121). -/
def boundaryShares : Nat := totalShares (boundaryParams s) s.sched.number (boundaryWeight s) (boundaryShaped s)

theorem boundaryShares_le : boundaryShares s ≤ (boundaryParams s).budget := totalShares_le _ _ _

/-- What the expiry of the epoch counter makes of the table and the scheduler (R109, R118 to R124). -/
theorem expireEpoch_spec : (expireEpoch s).table = (computeBoundary true s).table ∧
    (expireEpoch s).sched = (computeBoundary true s).sched ∧ (expireEpoch s).up = (computeBoundary true s).up := by
  obtain ⟨htable, hsched, -, -, hup⟩ := boundary_spec true (elapse (s.sched.epochUnits - s.sched.elapsed) s)
  rw [computeBoundary_elapse] at htable hsched hup
  exact ⟨htable, hsched, hup⟩

theorem expireEpoch_sched : (expireEpoch s).sched = { s.sched with
    params := boundaryParams s, pendingParams := none, surplus := ((boundaryParams s).budget : Int) - boundaryShares s,
    active := activeCount s.sched.number (boundaryShaped s), weight := boundaryWeight s, shares := boundaryShares s,
    number := s.sched.number + 1, counter := 0, phase := 0 } := (expireEpoch_spec s).2.1

theorem expireEpoch_slots : (expireEpoch s).table.slots =
    (boundaryShaped s).map (fun o => o.map (Station.atBoundary (boundaryParams s) s.sched.number (boundaryWeight s))) :=
  congrArg StationTable.slots (expireEpoch_spec s).1

theorem expireEpoch_station (k : Fin 256) : (expireEpoch s).station? k = (s.station? k).map
    (fun st => st.shapeAtBoundary.atBoundary (boundaryParams s) s.sched.number (boundaryWeight s)) := by
  rw [State.station?, (expireEpoch_spec s).1]
  exact computeBoundary_station true s k

/-- A record after a boundary, from the record that the pending shaping has made (R118). -/
theorem station_of_expireEpoch {k : Fin 256} {st : Station} (h : (expireEpoch s).station? k = some st) :
    ∃ st0, (boundaryShaped s)[k] = some st0 ∧
      st = st0.atBoundary (boundaryParams s) s.sched.number (boundaryWeight s) := by
  rw [State.station?, StationTable.station?, expireEpoch_slots] at h
  obtain ⟨st0, h0, rfl⟩ := Option.map_eq_some_iff.mp ((Vector.getElem_map _ k.isLt).symm.trans h)
  exact ⟨st0, h0, rfl⟩

theorem expireEpoch_weight :
    (expireEpoch s).sched.weight =
      ((expireEpoch s).table.slots.toList.map (slotWeight (expireEpoch s).sched.params s.sched.number)).sum := by
  rw [expireEpoch_sched, expireEpoch_slots, Vector.toList_map, List.map_map]
  refine congrArg List.sum (List.map_congr_left fun o _ => ?_)
  exact (slotWeight_atBoundary _ _ _ o).symm

theorem expireEpoch_shares : (expireEpoch s).sched.shares =
    ((expireEpoch s).table.slots.toList.map (fun o => (o.map (·.share)).getD 0)).sum := by
  rw [expireEpoch_sched, expireEpoch_slots, Vector.toList_map, List.map_map]
  refine congrArg List.sum (List.map_congr_left fun o _ => ?_)
  exact (slotShare_atBoundary _ _ _ o).symm

theorem expireEpoch_active : (expireEpoch s).sched.active =
    ((expireEpoch s).table.slots.toList.filter (slotActive s.sched.number)).length := by
  rw [expireEpoch_sched, expireEpoch_slots, Vector.toList_map, List.filter_map, List.length_map]
  refine congrArg List.length (List.filter_congr fun o _ => ?_)
  exact (slotActive_atBoundary _ _ _ o).symm

/-- The weight of an active record is part of the weight of all (R120). -/
theorem effectiveWeight_le_boundaryWeight {k : Fin 256} {st : Station} (h : (boundaryShaped s)[k] = some st)
    (ha : st.isActive s.sched.number = true) : st.effectiveWeight (boundaryParams s) ≤ boundaryWeight s := by
  refine List.single_le_sum (fun _ _ => Nat.zero_le _) _ (List.mem_map.mpr ⟨some st, ?_, by simp [slotWeight, ha]⟩)
  rw [← h]
  exact Vector.mem_toList_iff.mpr (Vector.getElem_mem k.isLt)

end

/-! ## The ports at the fixing of a reply -/

section
variable {k : Fin 4} {c : ReplyContent} {s : State}

/-- A reply changes the ports only where it is discarded for a seat port that is DOWN: by one tx drop (R173). -/
theorem buildReply_ports {h : ReqHeader} {t : State} (hb : buildReply k h c s = some t) :
    t.ports = s.ports ∨ deadSeat s h.port = true ∧ t.ports = s.ports.count h.port PortCounters.txDrop := by
  unfold buildReply at hb
  split at hb
  case h_1 => cases hb
  case h_2 =>
    split at hb
    case isTrue hd =>
      obtain rfl := Option.some.inj hb
      exact .inr ⟨hd, rfl⟩
    case isFalse =>
      obtain rfl := Option.some.inj hb
      exact .inl rfl

theorem fixReply_ports (b : Bool) : (fixReply k c b s).ports = s.ports ∨
    ∃ h, s.hub.mgmt.slots[k].header? = some h ∧ deadSeat s h.port = true ∧
      (fixReply k c b s).ports = s.ports.count h.port PortCounters.txDrop := by
  cases hh : s.hub.mgmt.slots[k].header? with
  | none => exact .inl (by simp only [fixReply, hh])
  | some h =>
    by_cases hw : s.hub.mgmt.waiting = []
    · rw [fixReply_of_idle hh hw]
      cases hb : buildReply k h c (fixed k h c b s) with
      | none => exact .inl rfl
      | some t =>
        rcases buildReply_ports hb with hp | ⟨hd, hp⟩
        · exact .inl hp
        · exact .inr ⟨h, rfl, hd, hp⟩
    · exact .inl (by simp only [fixReply, hh, hw, if_false])

/-- A tx drop of a seat port leaves the ports alone but for that port's counters. -/
theorem count_seat_frame {ps : Ports} {p : Port} (hp : ∃ n, p = .seat n) :
    (∀ n : Fin 32, quietSeat (ps.count p PortCounters.txDrop).seats[n] = quietSeat ps.seats[n]) ∧
    (ps.count p PortCounters.txDrop).radios = ps.radios ∧ (ps.count p PortCounters.txDrop).ba = ps.ba ∧
    (ps.count p PortCounters.txDrop).bb = ps.bb := by
  obtain ⟨m, rfl⟩ := hp
  refine ⟨fun n => ?_, rfl, rfl, rfl⟩
  show quietSeat (ps.modSeat m _).seats[n] = _
  rw [modSeat_seat]
  split
  case isTrue h => subst h; rfl
  case isFalse => rfl

end

end Sys2Proof.Laws

namespace Sys2Proof.Proofs

open Sys2Proof Sys2Proof.Machine Sys2Proof.Safety Sys2Proof.Laws

section
variable {s : State}

theorem exec_epochCounterExpiry (h : s.sched.running = true) : exec .epochCounterExpiry s = .next (expireEpoch s) :=
  congrArg Host.Outcome.next (if_pos h)

end

/-- Settles O27. -/
theorem boundaryGivesSharesAndCredit : Obligations.BoundaryGivesSharesAndCredit := by
  refine ⟨fun s hr => ⟨_, exec_epochCounterExpiry hr, ?_⟩, fun s hr => ⟨_, exec_epochCounterExpiry hr, fun k st hst => ?_⟩⟩
  · refine ⟨?_, fun k st hst => ?_, expireEpoch_weight s, expireEpoch_shares s, ?_, expireEpoch_active s, ?_, ?_, ?_⟩
    · rw [expireEpoch_sched, boundaryParams]
    · obtain ⟨st0, -, rfl⟩ := station_of_expireEpoch s hst
      rw [expireEpoch_sched]
      refine ⟨fun ha => ?_, fun ha => ?_⟩
      · exact if_pos (c := st0.isActive s.sched.number = true) ha
      · exact if_neg (c := st0.isActive s.sched.number = true) (fun h => by
          rw [show st0.isActive s.sched.number = false from ha] at h; cases h)
    · rw [expireEpoch_sched]
      exact boundaryShares_le s
    all_goals rw [expireEpoch_sched]
  · refine ⟨_, (expireEpoch_station s k).trans (congrArg _ hst), ?_⟩
    have hleaving : st.shapeAtBoundary.isLeaving = st.isLeaving := by
      exact (shapeAtBoundary_eq st).elim (fun h => by rw [h]) (fun h => by rw [h]; rfl)
    have hcls : st.shapeAtBoundary.cls = st.cls := by
      exact (shapeAtBoundary_eq st).elim (fun h => by rw [h]) (fun h => by rw [h]; rfl)
    have hcredit : st.shapeAtBoundary.credit = st.credit := (shapeAtBoundary_standing st).2.1
    simp only [Station.atBoundary, hleaving, hcls, hcredit, creditAfter]
    refine ⟨fun hp hl hc => ?_, fun hp hl hc => ?_, fun h => ?_⟩
    · rw [if_pos ⟨hp, hl⟩, if_pos hc]
    · rw [if_pos ⟨hp, hl⟩, if_neg (Int.not_lt.mpr hc)]
    · exact if_neg fun ⟨hp, hl⟩ => h.elim (fun h => h hp) (fun h => by rw [hl] at h; cases h)

/-- Settles O28. -/
theorem boundarySetsSurplus : Obligations.BoundarySetsSurplus := by
  refine ⟨fun s hr => ⟨_, exec_epochCounterExpiry hr, ?_⟩, fun s hr => ⟨_, exec_epochCounterExpiry hr, ?_⟩⟩
  · have hle := boundaryShares_le s
    rw [expireEpoch_sched]
    dsimp only
    refine ⟨rfl, by omega, fun hw => ?_, fun hb => by omega, fun k st hst ha hpos hw => ?_⟩
    · have hzero : boundaryShares s = 0 := by
        have hsum := sum_slotShare_le (boundaryParams s) s.sched.number (boundaryWeight s) (boundaryShaped s).toList
        rw [hw, Nat.div_zero] at hsum
        rw [boundaryShares, hw]
        exact Nat.le_zero.mp hsum
      rw [hzero]
      rfl
    · obtain ⟨st0, h0, rfl⟩ := station_of_expireEpoch s hst
      have hw0 : boundaryWeight s = st0.effectiveWeight (boundaryParams s) := hw
      have hshares : boundaryShares s = st0.activeShare (boundaryParams s) (boundaryWeight s) :=
        totalShares_of_single h0 ha hw0
      have hshare : (st0.atBoundary (boundaryParams s) s.sched.number (boundaryWeight s)).share =
          st0.activeShare (boundaryParams s) (boundaryWeight s) := if_pos ha
      have hraw : (boundaryParams s).budget * st0.effectiveWeight (boundaryParams s) / boundaryWeight s =
          (boundaryParams s).budget := by
        rw [hw0]
        exact Nat.mul_div_cancel _ hpos
      obtain ⟨hnone, hsome⟩ := activeShare_eq (boundaryParams s) (boundaryWeight s) st0
      rw [hraw] at hnone hsome
      rw [hshare, hshares]
      refine ⟨fun hc => ?_, fun c hc hcb => ?_⟩
      · rw [hnone hc]
        exact ⟨rfl, Int.sub_self _⟩
      · rw [hsome c hc, Nat.min_eq_right hcb]
        exact ⟨rfl, rfl⟩
  · refine ⟨fun k st hst ha hpos => ?_, (expireEpoch_shares s).symm, by rw [expireEpoch_sched]⟩
    obtain ⟨st0, h0, rfl⟩ := station_of_expireEpoch s hst
    rw [expireEpoch_sched] at hpos ⊢
    dsimp only
    have hshare : (st0.atBoundary (boundaryParams s) s.sched.number (boundaryWeight s)).share =
        st0.activeShare (boundaryParams s) (boundaryWeight s) := if_pos ha
    have htotal : 0 < boundaryWeight s := lt_of_lt_of_le hpos (effectiveWeight_le_boundaryWeight (st := st0) s h0 (show st0.isActive s.sched.number = true from ha))
    have hfloor (hne : st0.shaping.cap ≠ some (st0.activeShare (boundaryParams s) (boundaryWeight s))) :
        (boundaryParams s).budget * st0.effectiveWeight (boundaryParams s) <
          (st0.activeShare (boundaryParams s) (boundaryWeight s) + 1) * boundaryWeight s := by
      rw [activeShare_of_ne_cap hne]
      exact (Nat.div_lt_iff_lt_mul htotal).mp (Nat.lt_succ_self _)
    rw [hshare]
    refine ⟨?_, hfloor, fun hz hc => ?_⟩
    · exact (Nat.mul_le_mul_right _ (activeShare_le _ _ st0)).trans (Nat.div_mul_le_self _ _)
    · have := hfloor (by rw [hz]; exact hc)
      rw [hz, Nat.zero_add, Nat.one_mul] at this
      exact this

section
variable {s : State}

/-- The state in which a boundary by time takes the parked SNAPSHOT (R182). -/
def beforeSnapshot (s : State) : State := { computeBoundary true s with
  now := s.now + (s.sched.epochUnits - s.sched.elapsed) }

theorem expireEpoch_eq (s : State) : expireEpoch s = takeParkedSnapshot (beforeSnapshot s) := by
  rw [expireEpoch, boundary, computeBoundary_elapse]
  rfl

theorem expireEpoch_kept (s : State) : Kept (beforeSnapshot s) (expireEpoch s) := by
  rw [expireEpoch_eq]
  exact (takeParkedSnapshot_kept _).1

theorem deadSeat_seat {p : Port} (h : deadSeat s p = true) : ∃ n, p = .seat n := by
  cases p with
  | seat n => exact ⟨n, rfl⟩
  | _ => cases h

theorem snapshotParked_iff {m : Mgmt} : snapshotParked m = false ↔ parkedSnapshot m = none := by
  have h : snapshotParked m = true ↔ parkedSnapshot m ≠ none := by
    rw [snapshotParked, slots_any_iff]
    simp [parkedSnapshot, List.find?_eq_none]
  rw [← not_iff_not, Bool.not_eq_false, h]

theorem isSnapshot_header {q : ReplySlot} (h : q.isSnapshot = true) : ∃ hd, q = .parked hd .snapshot := by
  cases q with
  | parked hd op => cases op with
    | snapshot => exact ⟨hd, rfl⟩
    | _ => cases h
  | _ => cases h

/-- The ports after a boundary by time: the same, or one tx drop more of a seat port that is DOWN (log entry 15). -/
theorem expireEpoch_ports (s : State) : (expireEpoch s).ports = s.ports ∨
    ∃ (k : Fin 4) (h : ReqHeader), s.hub.mgmt.slots[k] = .parked h .snapshot ∧ deadSeat s h.port = true ∧
      (expireEpoch s).ports = s.ports.count h.port PortCounters.txDrop := by
  rw [expireEpoch_eq]
  cases hp : parkedSnapshot (beforeSnapshot s).hub.mgmt with
  | none => exact .inl (by simp only [takeParkedSnapshot, hp]; rfl)
  | some p =>
    rw [takeParkedSnapshot_eq hp]
    obtain ⟨h, hslot⟩ := isSnapshot_header (parkedSnapshot_eq_some_iff.mp hp).1
    rcases fixReply_ports (k := p) (s := takeSnapshot (beforeSnapshot s)) false with hports | ⟨hd, hh, hdead, hports⟩
    · exact .inl hports
    · have heq : h = hd := by
        rw [show (takeSnapshot (beforeSnapshot s)).hub.mgmt.slots[p] = _ from hslot] at hh
        exact Option.some.inj hh
      subst heq
      exact .inr ⟨p, h, hslot, hdead, hports⟩

end

/-- Settles O29. -/
theorem boundaryFrame : Obligations.BoundaryFrame := by
  refine ⟨fun s hr => ⟨_, exec_epochCounterExpiry hr, fun k => ?_, fun k st hst => ?_, ?_, ?_, ?_, ?_, ?_, fun hrun => ?_,
    fun r st hrun hst => ?_, fun hno => ?_, fun hlive => ?_, ?_⟩, fun s hr => congrArg Host.Outcome.next (if_neg (by simp [hr]))⟩
  · rw [expireEpoch_station]
    cases s.station? k with
    | none => rfl
    | some st =>
      rcases shapeAtBoundary_eq st with h | h <;> simp only [Option.map_some, h] <;> rfl
  · refine ⟨_, (expireEpoch_station s k).trans (congrArg _ hst), fun hl => ?_, fun hl => ?_⟩
    · simp only [Station.shapeAtBoundary, hl, Bool.false_eq_true, if_false]
      exact ⟨rfl, rfl⟩
    · simp only [Station.shapeAtBoundary, hl, if_true]
      exact ⟨rfl, rfl⟩
  · rw [(expireEpoch_spec s).1]
    rfl
  · exact (expireEpoch_kept s).windows
  · exact (expireEpoch_kept s).consist
  · exact (expireEpoch_kept s).hold
  · rw [(expireEpoch_spec s).2.2]
    rfl
  · rw [(expireEpoch_spec s).2.2]
    show runAtBoundary _ s.up.run = none
    rw [hrun]
    rfl
  · have hmode := boundary_run true (elapse (s.sched.epochUnits - s.sched.elapsed) s) r st hrun hst
    refine ⟨fun h => ?_, fun h => ?_⟩
    · exact hmode.trans (if_neg (by simp [h]))
    · exact hmode.trans (if_pos h)
  · have hnone : takeParkedSnapshot (beforeSnapshot s) = beforeSnapshot s := by
      simp only [takeParkedSnapshot, show parkedSnapshot (beforeSnapshot s).hub.mgmt = none from snapshotParked_iff.mp hno]
    rw [expireEpoch_eq, hnone]
    exact ⟨rfl, rfl⟩
  · refine (expireEpoch_ports s).resolve_right ?_
    rintro ⟨k, h, hslot, hdead, -⟩
    rw [hlive k h hslot] at hdead
    cases hdead
  · rcases expireEpoch_ports s with h | ⟨k, h, -, hdead, hports⟩
    · rw [h]
      exact ⟨fun _ => rfl, rfl, rfl, rfl⟩
    · rw [hports]
      exact count_seat_frame (deadSeat_seat hdead)

end Sys2Proof.Proofs
end

section
/-! What an exhaustion does (R99, R101, R102), and the statement on it. -/

namespace Sys2Proof.Laws

open Sys2Proof Sys2Proof.Machine Sys2Proof.Safety

theorem apartFromDrops_moreDrops (n : Nat) (st : Station) : apartFromDrops (moreDrops n st) = apartFromDrops st := rfl

/-- A record with more drops is the record but for its drops. -/
theorem apart_of_moreDrops {o o' : Option Station} {n : Nat} {st : Station} (h : o' = o.map (moreDrops n))
    (ho : o = some st) : ∃ st', o' = some st' ∧ apartFromDrops st' = apartFromDrops st :=
  ⟨moreDrops n st, by rw [h, ho]; rfl, rfl⟩

section
variable {k : Fin 256} {s : State} {st : Station} {al : Allowance}

theorem renews_iff : al.renews = true ↔ al.renew = true ∧ 0 < al.base := by simp [Allowance.renews]

/-- R101: an exhaustion that renews. -/
theorem exhaust_of_renews (cause : Cause) (L : Nat) (hst : s.station? k = some st) (hal : st.allowance = some al)
    (h : al.renews = true) : exhaust k cause L s =
      raiseNotice (.allowanceRenewed k st.cls st.origin st.addr cause L al.reload)
        (onTable (StationTable.modStation k (fun r => { r with allowance := some al.reload })) s) := by
  simp only [exhaust, hst, hal, h, if_true]

/-- What an exhaustion with no renewal makes of the record, before its notice (R102). -/
def spendRecord (k : Fin 256) (st : Station) (s : State) : State :=
  if st.state = .admitted then purgeUpward k (setStationState k st.state.spentBy s)
  else setStationState k st.state.spentBy s

/-- R102: an exhaustion that spends. -/
theorem exhaust_of_spends (cause : Cause) (L : Nat) (hst : s.station? k = some st) (hal : st.allowance = some al)
    (h : al.renews = false) : exhaust k cause L s =
      raiseNotice (.allowanceSpent k st.cls st.origin st.addr cause L al st.state.spentBy) (spendRecord k st s) := by
  simp only [exhaust, hst, hal, h, Bool.false_eq_true, if_false, spendRecord]

/-- R134: an ADMITTED record's upward queue is purged as it is spent. -/
theorem spendRecord_admitted (hst : s.station? k = some st) (h : st.state = .admitted) :
    UpwardPurged k { st with state := .spent } (setStationState k .spent s) (spendRecord k st s) := by
  have hspent : spendRecord k st s = purgeUpward k (setStationState k .spent s) := by
    simp only [spendRecord, h, if_true, StationState.spentBy]
  rw [hspent]
  exact purgeUpward_purged (setStationState_self .spent hst)

theorem spendRecord_other (h : st.state ≠ .admitted) : spendRecord k st s = setStationState k st.state.spentBy s :=
  if_neg h

/-- A record put in the state it is in. -/
theorem setStationState_same {x : StationState} (hst : s.station? k = some st) (h : st.state = x) :
    setStationState k x s = s := by
  subst h
  have hslot : s.table.slots[k] = some st := hst
  rw [setStationState_eq, onTable_modStation_eq _ hst, ← hslot]
  simp

/-- Nothing of the other records but their drops, and no place in the held order, changes at an exhaustion (R102). -/
theorem spendRecord_others (hst : s.station? k = some st) : (spendRecord k st s).table.held = s.table.held ∧
    ∀ j, j ≠ k → ∃ n, (spendRecord k st s).station? j = (s.station? j).map (moreDrops n) := by
  by_cases h : st.state = .admitted
  · have hpurged := spendRecord_admitted hst h
    refine ⟨hpurged.held, fun j hj => ?_⟩
    obtain ⟨n, hn⟩ := hpurged.others j hj
    exact ⟨n, by rw [hn, setStationState_ne .spent hj]⟩
  · rw [spendRecord_other h]
    refine ⟨rfl, fun j hj => ⟨0, ?_⟩⟩
    rw [setStationState_ne _ hj]
    cases s.station? j <;> simp [moreDrops]

end

end Sys2Proof.Laws

namespace Sys2Proof.Proofs

open Sys2Proof Sys2Proof.Machine Sys2Proof.Safety Sys2Proof.Laws

section
variable {k : Fin 256} {s : State} {st : Station} {al : Allowance} {cause : Cause} {L : Nat}

/-- An ADMITTED record that is spent (R102, R134). -/
theorem exhaust_admitted (hst : s.station? k = some st) (hal : st.allowance = some al) (hno : al.renews = false)
    (h : st.state = .admitted) : ∃ u st', (exhaust k cause L s).station? k = some st' ∧
      apartFromDrops st' = apartFromDrops { st with state := .spent, upq := [] } ∧
      exhaust k cause L s = raiseNotice (.allowanceSpent k st.cls st.origin st.addr cause L al .spent) u ∧
      Counts s u (countAt .purge st.upq.length) (fun _ => 0) ∧
      (st.upq.Nodup → (∀ id ∈ st.upq, s.hub.cells.owner id = some k) →
        st'.ctr = (moreDrops st.upq.length st).ctr ∧ ∀ j, j ≠ k → (exhaust k cause L s).station? j = s.station? j) := by
  have hpurged := spendRecord_admitted hst h
  have hexhaust := exhaust_of_spends cause L hst hal hno
  rw [h] at hexhaust
  obtain ⟨n, hown⟩ := hpurged.own
  refine ⟨spendRecord k st s, moreDrops n { st with state := .spent, upq := [] }, by rw [hexhaust]; exact hown, rfl,
    hexhaust, ⟨hpurged.counts.tally, hpurged.counts.txDrops⟩, fun hn ho => ?_⟩
  obtain ⟨hself, hothers⟩ := hpurged.drops hn ho
  refine ⟨?_, fun j hj => ?_⟩
  · exact (congrArg Station.ctr (Option.some.inj (hown.symm.trans hself)) :)
  · rw [hexhaust]
    exact (hothers j hj).trans (setStationState_ne .spent hj)

/-- The frame of an exhaustion (R102). -/
theorem exhaust_frame (hst : s.station? k = some st) (hal : st.allowance = some al) :
    (exhaust k cause L s).table.held = s.table.held ∧
    ∀ j, j ≠ k → ∃ n, (exhaust k cause L s).station? j = (s.station? j).map (moreDrops n) := by
  cases hr : al.renews with
  | true =>
    rw [exhaust_of_renews cause L hst hal hr]
    refine ⟨rfl, fun j hj => ⟨0, ?_⟩⟩
    refine (station?_modStation_ne s.table _ hj).trans ?_
    show s.station? j = _
    cases s.station? j <;> simp [moreDrops]
  | false =>
    rw [exhaust_of_spends cause L hst hal hr]
    exact spendRecord_others hst

end

/-- Settles O26, by whether the allowance renews, and by the state of the record. -/
theorem exhaustionRenewsOrSpends : Obligations.ExhaustionRenewsOrSpends := by
  intro k cause L s st al hst hal hzero t
  obtain ⟨hheld, hothers⟩ := exhaust_frame (cause := cause) (L := L) hst hal
  have hkept := exhaust_kept k cause L s
  have hspent : al.renew = false ∨ al.base = 0 → al.renews = false := by
    rintro (h | h) <;> simp [Allowance.renews, h]
  refine ⟨fun hrenew hbase => ?_, fun hno => ⟨fun h => ?_, fun h => ?_, fun why h => ?_⟩, hkept.sched, hkept.windows,
    hheld, fun j st' hj hst' => ?_⟩
  · exact exhaust_of_renews cause L hst hal (renews_iff.mpr ⟨hrenew, hbase⟩)
  · exact exhaust_admitted hst hal (hspent hno) h
  · refine (exhaust_of_spends cause L hst hal (hspent hno)).trans ?_
    rw [spendRecord_other (by simp [h]), h]
    rfl
  · refine (exhaust_of_spends cause L hst hal (hspent hno)).trans ?_
    rw [spendRecord_other (by simp [h]), h,
      show StationState.spentBy (.leaving why) = .leaving why from rfl, setStationState_same hst h]
    rfl
  · obtain ⟨n, hn⟩ := hothers j hj
    exact apart_of_moreDrops hn hst'

end Sys2Proof.Proofs
end

section
/-! SUPPORT. What a removal leaves alone (R52 to R56): of the ports everything but the queues of the record's own port, of
the other records everything but their drops, and which records have a frame in transmission. -/

namespace Sys2Proof.Laws

open Sys2Proof Sys2Proof.Machine Sys2Proof.Safety

/-! ## Ports whose queues alone change -/

/-- A seat port with its egress queue and the counters of R8 set aside. -/
def seatRest (q : SeatPort) : SeatPort := { quietSeat q with egress := [] }

/-- A radio link with its egress queue, its orders and the counters of R8 set aside. -/
def radioRest (q : RadioLink) : RadioLink := { quietRadio q with egress := [], orders := [] }

/-- From `a` to `b` nothing of the ports changes but counters, and the egress queues and orders of the ports in `free`. -/
structure QueuesOnly (free : Port → Prop) (a b : Ports) : Prop where
  seats : ∀ n : Fin 32, ¬ free (.seat n) → quietSeat b.seats[n] = quietSeat a.seats[n]
  radios : ∀ w : Fin 4, ¬ free (.radio w) → quietRadio b.radios[w] = quietRadio a.radios[w]
  seatRests : ∀ n : Fin 32, seatRest b.seats[n] = seatRest a.seats[n]
  radioRests : ∀ w : Fin 4, radioRest b.radios[w] = radioRest a.radios[w]
  ends : ∀ x, quietEnd (b.endOf x) = quietEnd (a.endOf x)

theorem QueuesOnly.trans {free : Port → Prop} {a b c : Ports} (h : QueuesOnly free a b) (g : QueuesOnly free b c) :
    QueuesOnly free a c :=
  ⟨fun n hn => (g.seats n hn).trans (h.seats n hn), fun w hw => (g.radios w hw).trans (h.radios w hw),
    fun n => (g.seatRests n).trans (h.seatRests n), fun w => (g.radioRests w).trans (h.radioRests w),
    fun x => (g.ends x).trans (h.ends x)⟩

theorem QueuesOnly.mono {free free' : Port → Prop} {a b : Ports} (h : QueuesOnly free a b) (hf : ∀ p, free p → free' p) :
    QueuesOnly free' a b :=
  ⟨fun n hn => h.seats n (mt (hf _) hn), fun w hw => h.radios w (mt (hf _) hw), h.seatRests, h.radioRests, h.ends⟩

theorem SameQueues.only {a b : Ports} (h : SameQueues a b) (free : Port → Prop) : QueuesOnly free a b :=
  ⟨fun n _ => h.seats n, fun w _ => h.radios w,
    fun n => congrArg (fun q : SeatPort => { q with egress := [] }) (h.seats n),
    fun w => congrArg (fun q : RadioLink => { q with egress := [], orders := [] }) (h.radios w), h.ends⟩

theorem QueuesOnly.refl (free : Port → Prop) (a : Ports) : QueuesOnly free a a := (SameQueues.refl a).only free

theorem QueuesOnly.modSeat {free : Port → Prop} {n : Fin 32} (ps : Ports) {g : SeatPort → SeatPort} (hf : free (.seat n))
    (hg : ∀ q, seatRest (g q) = seatRest q) : QueuesOnly free ps (ps.modSeat n g) := by
  refine ⟨fun m hm => ?_, fun _ _ => rfl, fun m => ?_, fun _ => rfl, fun _ => rfl⟩
  · rw [modSeat_seat, if_neg (by rintro rfl; exact hm hf)]
  · rw [modSeat_seat]
    split
    case isTrue h => subst h; exact hg _
    case isFalse => rfl

theorem QueuesOnly.modRadio {free : Port → Prop} {w : Fin 4} (ps : Ports) {g : RadioLink → RadioLink}
    (hf : free (.radio w)) (hg : ∀ q, radioRest (g q) = radioRest q) : QueuesOnly free ps (ps.modRadio w g) := by
  refine ⟨fun _ _ => rfl, fun v hv => ?_, fun _ => rfl, fun v => ?_, fun _ => rfl⟩
  · rw [modRadio_radio, if_neg (by rintro rfl; exact hv hf)]
  · rw [modRadio_radio]
    split
    case isTrue h => subst h; exact hg _
    case isFalse => rfl

/-- Discards change counters alone. -/
theorem QueuesOnly.discards {free : Port → Prop} {a : Ports} (r : Discard) (b : Option Port) (ids : List Nat) (s : State)
    (h : QueuesOnly free a s.ports) : QueuesOnly free a (discardEntries r b ids s).ports :=
  h.trans ((discardEntries_sameQueues r b ids s).only free)

/-- The link, the transmission and the reception of every port stand. -/
theorem QueuesOnly.unit {free : Port → Prop} {a b : Ports} (h : QueuesOnly free a b) (p : Port) :
    withoutCounters (b.unitOf p) = withoutCounters (a.unitOf p) := by
  cases p with
  | seat n => exact congrArg SeatPort.unit (h.seatRests n)
  | radio w => exact congrArg RadioLink.unit (h.radioRests w)
  | backbone x => exact congrArg BackboneEnd.unit (h.ends x)

theorem QueuesOnly.tx {free : Port → Prop} {a b : Ports} (h : QueuesOnly free a b) (p : Port) :
    (b.unitOf p).tx = (a.unitOf p).tx :=
  (congrArg PortUnit.tx (h.unit p) :)

theorem QueuesOnly.link {free : Port → Prop} {a b : Ports} (h : QueuesOnly free a b) (p : Port) :
    (b.unitOf p).link = (a.unitOf p).link :=
  (congrArg PortUnit.link (h.unit p) :)

theorem QueuesOnly.designation {free : Port → Prop} {a b : Ports} (h : QueuesOnly free a b) (n : Fin 32) :
    (b.seats[n]).designation = (a.seats[n]).designation :=
  (congrArg SeatPort.designation (h.seatRests n) :)

/-! ## The parts of a removal -/

section
variable (k : Fin 256) (s : State)

theorem purgeEgress_only (o : Origin) : QueuesOnly (· = o.port) s.ports (purgeEgress k o s).ports := by
  cases o with
  | seat n =>
    simp only [purgeEgress, purgeSeatEgress]
    exact .discards _ _ _ _ (.modSeat (g := fun p => { p with
      egress := (s.ports.seats[n]).egress.filter (fun id => !s.hub.cells.names k id) }) s.ports rfl (fun _ => rfl))
  | radio w i =>
    simp only [purgeEgress, purgeRadioEgress]
    exact .discards _ _ _ _ (.modRadio (g := fun p => { p with
      egress := (s.ports.radios[w]).egress.filter (fun e => !s.hub.cells.names k e.id) }) s.ports rfl (fun _ => rfl))

theorem sendOrder_only (w : Fin 4) (o : Order) : QueuesOnly (· = .radio w) s.ports (sendOrder w o s).ports :=
  .modRadio (g := fun q => { q with orders := placeOrder o q.orders }) s.ports rfl (fun _ => rfl)

theorem beginRemoval_only (st : Station) (why : Reason) :
    QueuesOnly (· = st.origin.port) s.ports (beginRemoval k st why s).ports := by
  have hpurged : QueuesOnly (· = st.origin.port) s.ports (purgeEgress k st.origin (purgeUpward k s)).ports :=
    ((purgeUpward_sameQueues k s).only _).trans (purgeEgress_only k (purgeUpward k s) st.origin)
  unfold beginRemoval
  simp only
  split
  case h_1 w i ho =>
    split
    · rw [ho] at hpurged ⊢
      exact hpurged.trans (sendOrder_only (onTable _ _) w _)
    · exact hpurged
  case h_2 => exact hpurged

theorem freeRecord_sameQueues (why : Reason) : SameQueues s.ports (freeRecord k why s).ports := by
  unfold freeRecord
  split
  case h_1 => exact .refl _
  case h_2 st hst =>
    simp only
    show SameQueues s.ports (emptySlot k _).ports
    split
    · split <;> exact .refl _
    · refine SameQueues.trans ?_ (fixReply_sameQueues ..)
      split <;> exact .refl _

theorem freeRecord_names (why : Reason) : NamesFrom s.hub.cells (freeRecord k why s).hub.cells := by
  unfold freeRecord
  split
  case h_1 => exact .refl _
  case h_2 st hst =>
    simp only
    have htold : NamesFrom s.hub.cells (if why = .released then s
        else raiseNotice (.stationGone k st.cls st.origin st.addr why st.ctr st.allowance) s).hub.cells := by
      split
      · exact .refl _
      · exact (raise_adds _ _ _).names
    refine NamesFrom.trans ?_ (emptySlot_names k _)
    split
    · exact htold
    · exact htold.trans (fixReply_names _ _ _ _)

theorem purgeEgress_names (o : Origin) : NamesFrom s.hub.cells (purgeEgress k o s).hub.cells := by
  cases o with
  | seat n => exact discardEntries_names _ _ _ (onPorts (Ports.modSeat n _) s)
  | radio w i => exact discardEntries_names _ _ _ (onPorts (Ports.modRadio w _) s)

theorem beginRemoval_names (st : Station) (why : Reason) :
    NamesFrom s.hub.cells (beginRemoval k st why s).hub.cells := by
  have hpurged : NamesFrom s.hub.cells (purgeEgress k st.origin (purgeUpward k s)).hub.cells :=
    (purgeUpward_names k s).trans (purgeEgress_names k _ st.origin)
  unfold beginRemoval
  simp only
  split
  · split
    · exact hpurged
    · exact hpurged
  · exact hpurged

/-- The ports at the removal of a record (R52, R53). -/
theorem removeRecord_only (why : Reason) {free : Port → Prop} (hf : ∀ st, s.station? k = some st → free st.origin.port) :
    QueuesOnly free s.ports (removeRecord k why s).ports := by
  unfold removeRecord
  split
  case h_1 => exact .refl _ _
  case h_2 st hst =>
    have hbegun := (beginRemoval_only k s st why).mono (free' := free) (fun p hp => hp ▸ hf st hst)
    split
    · exact .refl _ _
    · split
      · exact hbegun
      · exact hbegun.trans ((freeRecord_sameQueues k _ why).only _)

theorem removeRecord_names (why : Reason) : NamesFrom s.hub.cells (removeRecord k why s).hub.cells := by
  unfold removeRecord
  split
  case h_1 => exact .refl _
  case h_2 st hst =>
    split
    · exact .refl _
    · split
      · exact beginRemoval_names k s st why
      · exact (beginRemoval_names k s st why).trans (freeRecord_names k _ why)

end

/-! ## Records with a frame in transmission -/

/-- What `inFlight` asks (R52). -/
theorem inFlight_iff {s : State} {k : Fin 256} : inFlight s k = true ↔
    ∃ x id, (s.ports.endOf x).unit.tx = some (.frame id) ∧ s.hub.cells.owner id = some k := by
  have hon : ∀ x, (match (s.ports.endOf x).unit.tx with
      | some (.frame id) => decide ((s.hub.cells.frame? id).bind (·.station) = some k)
      | _ => false) = true ↔ ∃ id, (s.ports.endOf x).unit.tx = some (.frame id) ∧ s.hub.cells.owner id = some k := by
    intro x
    split
    case h_1 id h => simp [h, CellMemory.owner]
    case h_2 hno => simp [show ∀ id, (s.ports.endOf x).unit.tx ≠ some (.frame id) from fun id he => hno id he]
  have hends : ∀ P : End → Prop, P .ba ∨ P .bb ↔ ∃ x, P x := fun P =>
    ⟨fun h => h.elim (fun h => ⟨_, h⟩) (fun h => ⟨_, h⟩), fun ⟨x, h⟩ => by cases x; exact .inl h; exact .inr h⟩
  unfold inFlight
  rw [Bool.or_eq_true]
  exact (or_congr (hon .ba) (hon .bb)).trans
    (hends (fun x => ∃ id, (s.ports.endOf x).unit.tx = some (.frame id) ∧ s.hub.cells.owner id = some k))

/-- A record in flight later is one before, where the ends have the same transmissions and no frame has got a new owner. -/
theorem inFlight_before {s u : State} {k : Fin 256}
    (htx : ∀ x id, (u.ports.endOf x).unit.tx = some (.frame id) → (s.ports.endOf x).unit.tx = some (.frame id))
    (hn : NamesFrom s.hub.cells u.hub.cells) (h : inFlight u k = true) : inFlight s k = true := by
  obtain ⟨x, id, ht, ho⟩ := inFlight_iff.mp h
  exact inFlight_iff.mpr ⟨x, id, htx x id ht, hn id k ho⟩

theorem QueuesOnly.inFlight_before {free : Port → Prop} {s u : State} {k : Fin 256} (h : QueuesOnly free s.ports u.ports)
    (hn : NamesFrom s.hub.cells u.hub.cells) (hu : inFlight u k = true) : inFlight s k = true :=
  Laws.inFlight_before (fun x _ ht => (h.tx (.backbone x)).symm.trans ht) hn hu

/-! ## What a removal leaves -/

/-- What the freeing of a record leaves alone (R56). -/
structure FreedFrame (k : Fin 256) (s t : State) : Prop where
  own : t.station? k = none
  others : ∀ j, j ≠ k → t.station? j = s.station? j
  held : t.table.held = s.table.held.filter (fun j => decide (j ≠ k))
  onboard : t.up.onboard = s.up.onboard
  ports : SameQueues s.ports t.ports
  kept : Kept s t

theorem Freed.frame {k : Fin 256} {st : Station} {why : Reason} {s t : State} (h : Freed k st why s t) :
    FreedFrame k s t := by
  obtain ⟨u, hnone, hsome, rfl⟩ := h
  have htold : ∀ told : State, told = (if why = .released then s
      else raiseNotice (.stationGone k st.cls st.origin st.addr why st.ctr st.allowance) s) →
      told.table = s.table ∧ told.up = s.up ∧ told.ports = s.ports ∧ Kept s told := by
    rintro told rfl
    split
    · exact ⟨rfl, rfl, rfl, .refl _⟩
    · exact ⟨rfl, rfl, rfl, raiseNotice_kept _ _⟩
  obtain ⟨htable, hup, hports, hkept⟩ := htold _ rfl
  have hu : u.table = s.table ∧ u.up = s.up ∧ SameQueues s.ports u.ports ∧ Kept s u := by
    cases hp : parkedRelease s.hub.mgmt k with
    | none =>
      rw [hnone hp]
      exact ⟨htable, hup, hports ▸ .refl _, hkept⟩
    | some j =>
      rw [hsome j hp]
      obtain ⟨hk, ht, hp⟩ := fixReply_kept j (.fixed .ok (releaseBody k st)) false (if why = .released then s
        else raiseNotice (.stationGone k st.cls st.origin st.addr why st.ctr st.allowance) s)
      exact ⟨ht.trans htable, hp.trans hup, hports ▸ fixReply_sameQueues .., hkept.trans hk⟩
  obtain ⟨htable, hup, hports, hkept⟩ := hu
  refine ⟨?_, fun j hj => ?_, by rw [htable], by rw [hup], hports, hkept.trans (.ofUpdate rfl)⟩
  · simp [State.station?, StationTable.station?]
  · have hval : k.val ≠ j.val := fun e => hj (Fin.ext e.symm)
    simp [State.station?, StationTable.station?, hval, htable]

/-- What the removal of a record leaves of it and of the others (R52, R53, R56). -/
structure RemovedFrame (k : Fin 256) (st : Station) (why : Reason) (s t : State) : Prop where
  freed : inFlight s k = false → t.station? k = none
  leaving : inFlight s k = true → ∃ st', t.station? k = some st' ∧
    apartFromDrops st' = apartFromDrops { st with state := .leaving why, upq := [] }
  others : ∀ j r, j ≠ k → s.station? j = some r → ∃ r', t.station? j = some r' ∧ apartFromDrops r' = apartFromDrops r
  held : t.table.held = s.table.held.filter (fun j => decide (j ≠ k))
  onboard : t.up.onboard = s.up.onboard
  windows : t.windows = s.windows
  sched : t.sched = s.sched
  consist : t.consist = s.consist
  hold : t.hold = s.hold
  now : t.now = s.now
  orders : ∀ w i, st.origin = .radio w i → (why = .aged ∨ why = .evicted ∨ why = .released) →
    (t.ports.radios[w]).orders = placeOrder { kind := .drop, index := i } (s.ports.radios[w]).orders

theorem Removed.frame {k : Fin 256} {st : Station} {why : Reason} {s t : State} (h : Removed k st why s t) :
    RemovedFrame k st why s t := by
  obtain ⟨u, st', hst', happart, hothers, -, hheld, horders, honboard, -, hwindows, hsched, hconsist, hhold, hnow, hfly,
    hfree⟩ := h
  have horder : ∀ w i, st.origin = .radio w i → (why = .aged ∨ why = .evicted ∨ why = .released) →
      (u.ports.radios[w]).orders = placeOrder { kind := .drop, index := i } (s.ports.radios[w]).orders := by
    intro w i ho hw
    have := horders w
    rw [ho] at this
    exact this.trans (if_pos ⟨rfl, hw⟩)
  cases hf : inFlight s k with
  | true =>
    obtain rfl := hfly hf
    refine ⟨fun h => (by rw [hf] at h; cases h), fun _ => ⟨{ st' with state := .leaving why }, ?_, ?_⟩, fun j r hj hr => ?_, hheld, honboard, hwindows,
      hsched, hconsist, hhold, hnow, horder⟩
    · simp [State.station?, StationTable.station?]
    · exact congrArg (fun r : Station => { r with state := .leaving why }) happart
    · obtain ⟨r', hr', ha⟩ := hothers j r hj hr
      refine ⟨r', Eq.trans ?_ hr', ha⟩
      have hval : k.val ≠ j.val := fun e => hj (Fin.ext e.symm)
      simp [State.station?, StationTable.station?, hval]
  | false =>
    obtain ⟨hown, hsame, hgone, hboard, hports, hkept⟩ := Freed.frame (hfree hf)
    refine ⟨fun _ => hown, fun h => (by rw [hf] at h; cases h), fun j r hj hr => ?_, ?_, hboard.trans honboard, hkept.windows.trans hwindows,
      hkept.sched.trans hsched, hkept.consist.trans hconsist, hkept.hold.trans hhold, hkept.now.trans hnow,
      fun w i ho hw => ?_⟩
    · obtain ⟨r', hr', ha⟩ := hothers j r hj hr
      exact ⟨r', (hsame j hj).trans hr', ha⟩
    · rw [hgone, hheld, List.filter_filter]
      simp
    · exact (congrArg RadioLink.orders (hports.radios w) :).trans (horder w i ho hw)

end Sys2Proof.Laws

namespace Sys2Proof.Proofs

open Sys2Proof Sys2Proof.Machine Sys2Proof.Safety Sys2Proof.Laws

/-- Settles O20: the command moves the time and removes the record (R46, R52). -/
theorem idleRecordIsRemoved : Obligations.IdleRecordIsRemoved := by
  intro k s st hst hidle hleaving due
  have hexpires : (s.station? k).bind Station.expiresAt = some due := by
    rw [hst]
    exact if_neg (fun h => h.elim hidle (fun h => by rw [hleaving] at h; cases h))
  have hmax : s.now + (due - s.now) = max s.now due := by omega
  have hwait : waitUntil due s = { s with
      now := max s.now due, sched := s.sched.pass (due - s.now) } := by
    simp only [waitUntil, elapse, hmax]
  have hexec : exec (.idleTimerExpiry k) s = .next (removeRecord k .aged { s with
      now := max s.now due, sched := s.sched.pass (due - s.now) }) := by
    rw [← hwait]
    simp only [exec, execIdleTimerExpiry, hexpires]
  generalize hu : ({ s with
      now := max s.now due, sched := s.sched.pass (due - s.now) } : State) = u at hexec ⊢
  have hustation : ∀ j, u.station? j = s.station? j := fun j => by rw [← hu]; rfl
  have hufly : inFlight u k = inFlight s k := by rw [← hu]; rfl
  have hremoved := removeRecord_removed .aged ((hustation k).trans hst) hleaving
  have hframe := Removed.frame hremoved
  have hports := removeRecord_only k u .aged (free := (· = st.origin.port)) (fun st' h => by
    rw [hustation, hst] at h
    rw [Option.some.inj h])
  have huports : u.ports = s.ports := by rw [← hu]
  refine ⟨_, hexec, hremoved, ?_, fun hf => hframe.freed (hufly.trans hf), fun hf => ?_, fun j st' hj hst' =>
    hframe.others j st' hj ((hustation j).trans hst'), ?_, fun w i ho => ?_, fun w ho => ?_, ?_, ?_, ?_, ?_⟩
  · rw [hframe.now, ← hu]
  · obtain ⟨st', hst', happart⟩ := hframe.leaving (hufly.trans hf)
    exact ⟨st', hst', (congrArg Station.state happart :), (congrArg Station.upq happart :), (congrArg Station.origin happart :),
      (congrArg Station.addr happart :), (congrArg Station.allowance happart :), (congrArg Station.credit happart :)⟩
  · rw [hframe.held, ← hu]
  · rw [hframe.orders w i ho (.inl rfl), huports]
  · rw [hports.radios w (fun h => ?_), huports]
    cases hor : st.origin with
    | seat n => rw [hor] at h; cases h
    | radio v i =>
      rw [hor] at h ho
      cases h
      simp [Origin.isRadio] at ho
  · rw [hframe.onboard, ← hu]
  · rw [hframe.windows, ← hu]
  · rw [hframe.consist, ← hu]
  · rw [hframe.hold, ← hu]

end Sys2Proof.Proofs
end

section
/-! The statement on completed transmissions (R8, R10, R56, R96). -/

namespace Sys2Proof.Laws

open Sys2Proof Sys2Proof.Machine Sys2Proof.Safety

/-! ## Two changes of a port -/

theorem modSeat_modSeat (ps : Ports) (n : Fin 32) (f g : SeatPort → SeatPort) :
    (ps.modSeat n f).modSeat n g = ps.modSeat n (fun q => g (f q)) := by
  simp [Ports.modSeat]

theorem modEnd_modEnd (ps : Ports) (x : End) (f g : BackboneEnd → BackboneEnd) :
    (ps.modEnd x f).modEnd x g = ps.modEnd x (fun e => g (f e)) := by
  cases x <;> rfl

theorem modUnit_modUnit (ps : Ports) (p : Port) (f g : PortUnit → PortUnit) :
    (ps.modUnit p f).modUnit p g = ps.modUnit p (fun u => g (f u)) := by
  cases p with
  | seat n => exact modSeat_modSeat ps n (fun q => { q with unit := f q.unit }) (fun q => { q with unit := g q.unit })
  | radio w => exact modRadio_modRadio ps w (fun q => { q with unit := f q.unit }) (fun q => { q with unit := g q.unit })
  | backbone x => exact modEnd_modEnd ps x (fun e => { e with unit := f e.unit }) (fun e => { e with unit := g e.unit })

/-! ## A charge and the states of records -/

section
variable {k : Fin 256} {s : State} {st : Station}

/-- An exhaustion makes no record LEAVING, and a LEAVING one stays so (R102). -/
theorem exhaust_leaving (cause : Cause) (L : Nat) (hst : s.station? k = some st) : ∃ st',
    (exhaust k cause L s).station? k = some st' ∧ ∀ why, st'.state = .leaving why ↔ st.state = .leaving why := by
  cases hal : st.allowance with
  | none =>
    refine ⟨st, ?_, fun _ => Iff.rfl⟩
    simp only [exhaust, hst, hal]
  | some al =>
    cases hr : al.renews with
    | true =>
      rw [exhaust_of_renews cause L hst hal hr]
      exact ⟨_, onTable_modStation_station _ hst, fun _ => Iff.rfl⟩
    | false =>
      rw [exhaust_of_spends cause L hst hal hr]
      by_cases h : st.state = .admitted
      · obtain ⟨n, hown⟩ := (spendRecord_admitted hst h).own
        exact ⟨_, hown, fun why => by simp [moreDrops, h]⟩
      · rw [spendRecord_other h]
        refine ⟨_, setStationState_self _ hst, fun why => ?_⟩
        unfold StationState.spentBy
        split <;> simp_all

/-- A charge makes no record LEAVING, and a LEAVING one stays so (R98). -/
theorem charge_leaving (cause : Cause) (L : Nat) (hst : s.station? k = some st) : ∃ st',
    (charge k cause L s).station? k = some st' ∧ ∀ why, st'.state = .leaving why ↔ st.state = .leaving why := by
  cases hal : st.allowance with
  | none =>
    refine ⟨st, ?_, fun _ => Iff.rfl⟩
    simp only [charge, hst, hal]
  | some al =>
    simp only [charge, hst, hal]
    have hcharged := onTable_modStation_station (fun r => { r with allowance := some (al.charge L) }) hst
    split
    · obtain ⟨st', hst', hiff⟩ := exhaust_leaving cause L hcharged
      exact ⟨st', hst', hiff⟩
    · exact ⟨_, hcharged, fun _ => Iff.rfl⟩

theorem charge_of_absent (cause : Cause) (L : Nat) (h : s.station? k = none) : charge k cause L s = s := by
  simp only [charge, h]

/-! ## The freeing of a LEAVING record -/

theorem freeIfLeaving_of_present (h : ∀ st, s.station? k = some st → ∀ why, st.state ≠ .leaving why) :
    freeIfLeaving k s = s := by
  unfold freeIfLeaving
  split
  case h_1 st hst =>
    split
    case h_1 why hs => exact absurd hs (h st hst why)
    case h_2 => rfl
  case h_2 => rfl

theorem freeIfLeaving_of_leaving {why : Reason} (hst : s.station? k = some st) (h : st.state = .leaving why) :
    freeIfLeaving k s = if inFlight s k then s else freeRecord k why s := by
  simp only [freeIfLeaving, hst, h]

theorem freeRecord_gone (why : Reason) (hst : s.station? k = some st) : (freeRecord k why s).station? k = none :=
  (Freed.frame (freeRecord_freed why hst)).own

end

/-! ## The end of a completed transmission -/

theorem endSent_eq (p : Port) (id : Nat) (s : State) : endSent p id s = { s with
    ports := s.ports.modUnit p (fun u => { u with tx := none, ctr := u.ctr.sent (frameLength s id) })
    hub := s.hub.dropRef s.sender id } := by
  have hports : (s.ports.modUnit p (fun u => { u with tx := none })).count p (PortCounters.sent (frameLength s id)) =
      s.ports.modUnit p (fun u => { u with tx := none, ctr := u.ctr.sent (frameLength s id) }) := modUnit_modUnit ..
  rw [← hports]
  rfl

theorem isLeaving_ne {st : Station} (h : st.isLeaving = false) (why : Reason) : st.state ≠ .leaving why := by
  intro hs
  simp [Station.isLeaving, hs] at h

end Sys2Proof.Laws

namespace Sys2Proof.Proofs

open Sys2Proof Sys2Proof.Machine Sys2Proof.Safety Sys2Proof.Laws

theorem exec_transmissionComplete {p : Port} {s : State} {t : Transmission} (h : (s.ports.unitOf p).tx = some t) :
    exec (.transmissionComplete p) s = .next (completeTx p t s) := by
  simp only [exec, execTransmissionComplete, h]

/-- The completion of a frame that is no upward frame of a record (R10). -/
theorem completeFrame_of_no_owner {p : Port} {id : Nat} {s : State} (h : upwardOwner p id s = none) :
    completeFrame p id s = endSent p id s := by
  simp only [completeFrame, h, chargeCompleted, settleOwner]

/-- The completion of an upward frame of a record (R10, R56, R96). -/
theorem completeFrame_of_owner {x : End} {id : Nat} {s : State} {k : Fin 256} (h : s.hub.cells.owner id = some k) :
    completeFrame (.backbone x) id s = freeIfLeaving k
      (if isMetered s id then charge k .up (frameLength s id) (endSent (.backbone x) id s)
        else endSent (.backbone x) id s) := by
  simp only [completeFrame, upwardOwner, h, chargeCompleted, settleOwner]

/-- Settles O32, by the kind of the transmission that completes. -/
theorem completionCounts : Obligations.CompletionCounts := by
  refine ⟨fun p s id htx hno => ?_, fun x s id k htx ho => ?_, fun w s o htx => ?_, fun x s d htx => ?_,
    fun p s id k htx => ?_⟩
  · have howner : upwardOwner p id s = none := by
      cases p with
      | backbone x => exact hno x rfl
      | _ => rfl
    have hframe : completeFrame p id s = _ := (completeFrame_of_no_owner howner).trans (endSent_eq p id s)
    rcases htx with htx | ⟨i, htx⟩ | ⟨dst, htx⟩ <;>
      exact (exec_transmissionComplete htx).trans (congrArg Host.Outcome.next hframe)
  · intro s1 s2
    have hend : endSent (.backbone x) id s = s1 := endSent_eq ..
    have hexec : exec (.transmissionComplete (.backbone x)) s = .next (freeIfLeaving k s2) := by
      refine (exec_transmissionComplete (p := .backbone x) htx).trans (congrArg Host.Outcome.next ?_)
      exact (completeFrame_of_owner ho).trans (by rw [hend])
    have hstate : ∀ st, s.station? k = some st → ∃ st', s2.station? k = some st' ∧
        ∀ why, st'.state = .leaving why ↔ st.state = .leaving why := by
      intro st hst
      have hst1 : s1.station? k = some st := hst
      show ∃ st', (if isMetered s id then charge k .up (frameLength s id) s1 else s1).station? k = some st' ∧ _
      split
      · exact charge_leaving .up _ hst1
      · exact ⟨st, hst1, fun _ => Iff.rfl⟩
    refine ⟨fun hpresent => ?_, fun st why hst hl => ⟨fun hf => ⟨?_, ?_⟩, fun hf => ?_⟩⟩
    · rw [hexec, freeIfLeaving_of_present]
      intro st2 hst2 why hs
      cases hst : s.station? k with
      | none =>
        have hst1 : s1.station? k = none := hst
        have hs2 : s2 = s1 := by
          show (if isMetered s id then charge k .up (frameLength s id) s1 else s1) = s1
          split
          · exact charge_of_absent _ _ hst1
          · rfl
        rw [hs2, hst1] at hst2
        cases hst2
      | some st =>
        obtain ⟨st', hst', hiff⟩ := hstate st hst
        obtain rfl := Option.some.inj (hst'.symm.trans hst2)
        exact isLeaving_ne (hpresent st hst) why ((hiff why).mp hs)
    all_goals obtain ⟨st', hst', hiff⟩ := hstate st hst
    · rw [hexec, freeIfLeaving_of_leaving hst' ((hiff why).mpr hl), hf]
      rfl
    · exact freeRecord_gone why hst'
    · rw [hexec, freeIfLeaving_of_leaving hst' ((hiff why).mpr hl), hf]
      rfl
  · refine (exec_transmissionComplete (p := .radio w) htx).trans (congrArg Host.Outcome.next ?_)
    exact congrArg (fun ps : Ports => { s with
      ports := ps }) (modRadio_modRadio s.ports w (fun q => { q with unit := { q.unit with tx := none } })
        (fun q => { q with ordersSent := q.ordersSent + 1 }))
  · refine (exec_transmissionComplete (p := .backbone x) htx).trans (congrArg Host.Outcome.next ?_)
    refine congrArg (fun ps : Ports => { s with
      ports := ps }) ((modEnd_modEnd s.ports x (fun e => { e with unit := { e.unit with tx := none } })
        (BackboneEnd.countHold d)).trans (congrArg (fun g => s.ports.modEnd x g) (funext fun e => ?_)))
    by_cases hd : d = 0 <;> simp [BackboneEnd.countHold, hd]
  · refine ⟨_, exec_transmissionComplete htx, ?_⟩
    have ht : completeTx p (.reply id k) s = { s with
        ports := s.ports.modUnit p (fun u => { u with tx := none, ctr := u.ctr.sent (frameLength s id) })
        hub := (s.hub.dropRef s.sender id).freeSlot k } := congrArg (onHub (Hub.freeSlot k)) (endSent_eq p id s)
    rw [ht]
    refine ⟨freeSlot_slot _, fun j hj => ?_, rfl, dropRef_dropped id rfl, rfl⟩
    exact (freeSlot_slot_ne _ hj).trans (congrArg (fun v : Vector ReplySlot 4 => v[j]) (dropRef_slots s.sender id s.hub))

end Sys2Proof.Proofs
end

section
/-! The end of a reception (R5, R22, R23): what it leaves alone, and which rule then takes the frame; and the statement
on received hold frames. -/

namespace Sys2Proof.Laws

open Sys2Proof Sys2Proof.Machine Sys2Proof.Safety

/-! ## The ports in a reception -/

theorem modUnit_congr {ps : Ports} {p : Port} {g h : PortUnit → PortUnit} (e : g (ps.unitOf p) = h (ps.unitOf p)) :
    ps.modUnit p g = ps.modUnit p h := by
  cases p with
  | seat n =>
    replace e : g ps.seats[n].unit = h ps.seats[n].unit := e
    simp only [Ports.modUnit, Ports.modSeat, e]
  | radio w =>
    replace e : g ps.radios[w].unit = h ps.radios[w].unit := e
    simp only [Ports.modUnit, Ports.modRadio, e]
  | backbone x =>
    replace e : g (ps.endOf x).unit = h (ps.endOf x).unit := e
    cases x <;> simp only [Ports.modUnit, Ports.modEnd, Ports.endOf] at e ⊢ <;> rw [e]

theorem modUnit_id (ps : Ports) (p : Port) : ps.modUnit p (fun u => u) = ps := by
  cases p with
  | seat n => exact congrArg (fun v => { ps with seats := v }) (Vector.set_getElem_self n.isLt)
  | radio w => exact congrArg (fun v => { ps with radios := v }) (Vector.set_getElem_self w.isLt)
  | backbone x => cases x <;> rfl

/-- From `a` to `b` nothing of the ports changes but the reception and the counters of `p`. -/
def ReceptionOnly (p : Port) (a b : Ports) : Prop := ∃ r c, b = a.modUnit p (fun u => { u with rx := r, ctr := c })

section
variable {p : Port} {a b c : Ports}

theorem receptionOnly_modUnit (p : Port) (a : Ports) (r : Reception → Reception) (g : PortCounters → PortCounters) :
    ReceptionOnly p a (a.modUnit p (fun u => { u with rx := r u.rx, ctr := g u.ctr })) :=
  ⟨r (a.unitOf p).rx, g (a.unitOf p).ctr, modUnit_congr rfl⟩

theorem receptionOnly_count (p : Port) (a : Ports) (g : PortCounters → PortCounters) : ReceptionOnly p a (a.count p g) :=
  receptionOnly_modUnit p a (fun r => r) g

theorem receptionOnly_refl (p : Port) (a : Ports) : ReceptionOnly p a a := by
  have h := receptionOnly_modUnit p a (fun r => r) (fun c => c)
  rwa [show (fun u : PortUnit => { u with rx := u.rx, ctr := u.ctr }) = fun u => u from rfl, modUnit_id] at h

theorem receptionOnly_trans (h : ReceptionOnly p a b) (g : ReceptionOnly p b c) : ReceptionOnly p a c := by
  obtain ⟨r, k, rfl⟩ := h
  obtain ⟨r', k', rfl⟩ := g
  exact ⟨r', k', modUnit_modUnit ..⟩

theorem receptionOnly_egress (h : ReceptionOnly p a b) (n : Fin 32) : (b.seats[n]).egress = (a.seats[n]).egress := by
  obtain ⟨r, k, rfl⟩ := h
  exact modUnit_egress ..

theorem receptionOnly_designation (h : ReceptionOnly p a b) (n : Fin 32) :
    (b.seats[n]).designation = (a.seats[n]).designation := by
  obtain ⟨r, k, rfl⟩ := h
  cases p with
  | seat m =>
    rw [Ports.modUnit, modSeat_seat]
    split
    case isTrue h => rw [h]
    case isFalse => rfl
  | radio w => rfl
  | backbone x => rw [Ports.modUnit, modEnd_seats]

theorem receptionOnly_radio (h : ReceptionOnly p a b) (w : Fin 4) : (b.radios[w]).egress = (a.radios[w]).egress := by
  obtain ⟨r, k, rfl⟩ := h
  exact modUnit_radio ..

/-- The ends in a reception: only the unit of `p` changes, and of it neither link nor transmission. -/
theorem receptionOnly_end (h : ReceptionOnly p a b) (x : End) : ∃ r k, b.endOf x =
    { a.endOf x with unit := { (a.endOf x).unit with rx := r, ctr := k } } := by
  obtain ⟨r, k, rfl⟩ := h
  cases p with
  | seat m => exact ⟨_, _, modSeat_endOf ..⟩
  | radio w => exact ⟨_, _, modRadio_endOf ..⟩
  | backbone y =>
    rw [Ports.modUnit, modEnd_end]
    split
    case isTrue h => exact ⟨r, k, by rw [h]⟩
    case isFalse => exact ⟨_, _, rfl⟩

theorem receptionOnly_transit (h : ReceptionOnly p a b) (x : End) : (b.endOf x).transit = (a.endOf x).transit := by
  obtain ⟨r, k, hx⟩ := receptionOnly_end h x
  rw [hx]

end

theorem setRx_receptionOnly (p : Port) (r : Reception) (s : State) : ReceptionOnly p s.ports (setRx p r s).ports :=
  receptionOnly_modUnit p s.ports (fun _ => r) (fun c => c)

theorem needCell_ports (p : Port) (chain : List Nat) (s : State) : ReceptionOnly p s.ports (needCell p chain s).ports := by
  unfold needCell
  split
  · exact receptionOnly_trans (receptionOnly_count p s.ports PortCounters.rxDiscard)
      (setRx_receptionOnly p .dropping (giveBackCells chain (rxDiscard p (tally .noCells s))))
  · exact receptionOnly_modUnit p s.ports (fun _ => _) (fun c => c)

theorem takeOneCell_ports (p : Port) (s : State) : ReceptionOnly p s.ports (takeOneCell p s).ports := by
  unfold takeOneCell
  split
  · exact needCell_ports p _ s
  · exact needCell_ports p _ s
  · exact receptionOnly_refl p _

theorem takeMissing_ports (p : Port) (n : Nat) (s : State) : ReceptionOnly p s.ports (takeMissing p n s).ports := by
  induction n generalizing s with
  | zero => exact receptionOnly_refl p _
  | succ n ih => exact receptionOnly_trans (takeOneCell_ports p s) (ih _)

theorem endReception_ports (p : Port) (L : Nat) (s : State) :
    ReceptionOnly p s.ports (endReception p L s).2.ports := by
  have htaken := takeMissing_ports p (cellsFor L - ((s.ports.unitOf p).rx.chain).length) s
  rcases endReception_cases p L s with ⟨h, -⟩ | h <;> rw [h] <;>
    exact receptionOnly_trans htaken (setRx_receptionOnly p .idle _)

/-! ## Frames that arrive -/

/-- What the end of a reception leaves alone (R22, R23). -/
structure Ends (p : Port) (s s1 : State) : Prop where
  kept : Kept s s1
  table : s1.table = s.table
  up : s1.up = s.up
  ports : ReceptionOnly p s.ports s1.ports

theorem ends_of_endReception {p : Port} {L : Nat} {s s1 : State} {o : Option (List Nat)}
    (h : endReception p L s = (o, s1)) : Ends p s s1 := by
  obtain ⟨hkept, htable, hup⟩ := endReception_kept p L s
  have hports := endReception_ports p L s
  rw [h] at hkept htable hup hports
  exact ⟨hkept, htable, hup, hports⟩

section
variable {p : Port} {f : List Byte} {ok : Bool} {s s1 : State} {chain : List Nat}

theorem Arrives.ends (h : Arrives p f ok s chain s1) : Ends p s s1 := ends_of_endReception h.2.1

theorem ArrivesBad.ends (h : ArrivesBad p f ok s chain s1) : Ends p s s1 := ends_of_endReception h.2.1

theorem received_of_arrives (h : Arrives p f ok s chain s1) (sort : List Nat → State → State) :
    received p f ok sort s = sort chain s1 := by
  obtain ⟨hcan, hend, hok⟩ := h
  simp only [received, hcan, hend, hok, if_true]

theorem frameOk_of_bad (h : ok = false ∨ f.length < 64 ∨ 1536 < f.length) : frameOk f ok = false := by
  cases hok : frameOk f ok with
  | false => rfl
  | true =>
    simp only [frameOk, Bool.and_eq_true, decide_eq_true_eq] at hok
    rcases h with h | h | h
    · simp [h] at hok
    · omega
    · omega

theorem received_of_bad (h : ArrivesBad p f ok s chain s1) (sort : List Nat → State → State) :
    received p f ok sort s = discardWire p chain s1 := by
  obtain ⟨hcan, hend, hbad⟩ := h
  simp only [received, hcan, hend, frameOk_of_bad hbad, if_true, Bool.false_eq_true, if_false]

end

end Sys2Proof.Laws

namespace Sys2Proof.Proofs

open Sys2Proof Sys2Proof.Machine Sys2Proof.Safety Sys2Proof.Laws

section
variable {x : End} {f : List Byte} {ok : Bool} {s s1 : State} {chain : List Nat}

theorem exec_backboneFrameReceived (h : Arrives (.backbone x) f ok s chain s1) (ht : typeOf f ≠ typeHold) :
    exec (.backboneFrameReceived x f ok) s =
      .next (sortBackbone x (chain.headD 0) f (storeFrame (.backbone x) chain f s1)) := by
  simp only [exec, execBackboneFrameReceived, received_of_arrives h, ht, if_false, firstCell]

theorem exec_backboneFrameReceived_bad (h : ArrivesBad (.backbone x) f ok s chain s1) :
    exec (.backboneFrameReceived x f ok) s = .next (discardWire (.backbone x) chain s1) := by
  simp only [exec, execBackboneFrameReceived, received_of_bad h]

theorem exec_holdFrame (h : Arrives (.backbone x) f ok s chain s1) (ht : typeOf f = typeHold) :
    exec (.holdFrameReceived x f ok) s = .next (takeHoldFrame x chain f s1) ∧
      exec (.backboneFrameReceived x f ok) s = .next (takeHoldFrame x chain f s1) := by
  simp only [exec, execHoldFrameReceived, execBackboneFrameReceived, received_of_arrives h, ht, ne_eq, not_true_eq_false,
    and_false, if_true, if_false, and_self]

end

/-- Settles O35: the frame's cells go back, and the end takes the hold (R16, R23). -/
theorem holdFrameIsTaken : Obligations.HoldFrameIsTaken := by
  intro x f ok s chain s1 h ht d t
  have htaken : takeHoldFrame x chain f s1 = t := by
    simp only [takeHoldFrame, onPorts, (Arrives.ends h).kept.now]
    exact congrArg (fun g => { giveBackCells chain s1 with ports := s1.ports.modEnd x g })
      (funext fun e => rfl)
  rw [← htaken]
  exact exec_holdFrame h ht

end Sys2Proof.Proofs
end

section
/-! What storing and classifying a received frame do (R20, R24, R90), what downward delivery does (R155, R156), and the
statement on it. -/

namespace Sys2Proof.Laws

open Sys2Proof Sys2Proof.Machine Sys2Proof.Safety

/-- The record of a slot that is changed. -/
theorem modStation_own {t : StationTable} {k : Fin 256} {st : Station} (h : t.station? k = some st)
    (g : Station → Station) : (t.modStation k g).station? k = some (g st) := by
  rw [station?_modStation_self, h, Option.map_some]

/-! ## Stored frames -/

/-- The record of a frame that has just been received (R24). -/
def receivedFrame (p : Port) (chain : List Nat) (f : List Byte) : FrameRec :=
  { length := f.length, arrival := some p, kind := kindOfType (typeOf f), metered := false, chain := chain, refs := 0,
    station := none, failed := [] }

section
variable {p : Port} {f : List Byte} {s s1 : State} {chain : List Nat}

theorem storeFrame_ports (p : Port) (chain : List Nat) (f : List Byte) (s : State) :
    ReceptionOnly p s.ports (storeFrame p chain f s).ports :=
  receptionOnly_modUnit p s.ports (fun r => r)
    (fun c => { c with rxFrames := c.rxFrames + 1, rxBytes := c.rxBytes + BitVec.ofNat 48 f.length })

theorem storeFrame_kept (p : Port) (chain : List Nat) (f : List Byte) (s : State) : Kept s (storeFrame p chain f s) :=
  ⟨rfl, rfl, rfl, rfl, rfl, rfl, rfl⟩

/-- The end of a reception with the frame stored (R22, R24). -/
theorem Ends.store (h : Ends p s s1) (chain : List Nat) (f : List Byte) : Ends p s (storeFrame p chain f s1) :=
  ⟨h.kept.trans (storeFrame_kept ..), h.table, h.up, receptionOnly_trans h.ports (storeFrame_ports ..)⟩

theorem Ends.station (h : Ends p s s1) (j : Fin 256) : s1.station? j = s.station? j := by
  simp only [State.station?, h.table]

theorem Ends.egressLength (h : Ends p s s1) (o : Origin) : egressLength s1 o = egressLength s o := by
  cases o with
  | seat n => exact congrArg List.length (receptionOnly_egress h.ports n)
  | radio w i => exact congrArg List.length (receptionOnly_radio h.ports w)

theorem frame?_append_of_fresh {c c' : CellMemory} {g : FrameRec} (hf : c'.frames = c.frames ++ [g])
    (hn : ∀ x ∈ c.frames, x.id ≠ g.id) : c'.frame? g.id = some g := by
  simp only [CellMemory.frame?, hf, List.find?_append]
  rw [List.find?_eq_none.mpr (fun x hx => by simpa using hn x hx)]
  simp

theorem storeFrame_frame (p : Port) (f : List Byte) (hn : ∀ g ∈ s.hub.cells.frames, g.id ≠ chain.headD 0) :
    (storeFrame p chain f s).hub.cells.frame? (chain.headD 0) = some (receivedFrame p chain f) :=
  frame?_append_of_fresh (g := receivedFrame p chain f) rfl hn

/-- A stored frame's record, its place in a queue taken (R24, R25). -/
theorem placeFrame_frame {h : Hub} {id : Nat} {g : FrameRec} (hg : h.cells.frame? id = some g) (k : Option (Fin 256))
    (metered : Bool) : (h.placeFrame id k metered).cells.frame? id = some { g with
      metered := metered, station := k, refs := g.refs + 1 } :=
  frame?_modFrame_self hg (fun _ => rfl)

end

/-! ## Classification -/

theorem countClassified_windows_of_some {up : Bool} {r : Classified} {i : Fin 9} (s : State) (h : r.window = some i) :
    (countClassified up r s).windows[i] = (s.windows[i]).countResult up r.permitted := by
  simp only [countClassified, h]
  simp

theorem countClassified_windows_of_ne {up : Bool} {r : Classified} {i : Fin 9} (s : State) (h : r.window ≠ some i) :
    (countClassified up r s).windows[i] = s.windows[i] := by
  cases hw : r.window with
  | none => simp only [countClassified, hw]
  | some j =>
    have hne : j.val ≠ i.val := fun e => h (by rw [hw, Fin.ext e])
    simp only [countClassified, hw]
    simp [hne]

/-! ## Downward delivery -/

section
variable {k : Fin 256} {x : End} {id L : Nat} {addr : Option NetAddr} {s : State} {st : Station} {r : Classified}

theorem isLeaving_eq_false_iff : st.isLeaving = false ↔ ∀ why, st.state ≠ .leaving why := by
  rw [← Bool.not_eq_true, isLeaving_iff, not_exists]

theorem downward_leaving (hst : s.station? k = some st) (h : st.isLeaving = true) :
    downward k x id L addr s = discardFrame .purge (.backbone x) (some st.origin.port) (some k) id s := by
  obtain ⟨why, hw⟩ := isLeaving_iff.mp h
  simp only [downward, hst, hw]

theorem downward_barred {b : Admission} (hst : s.station? k = some st) (h : st.state = .barred b) :
    downward k x id L addr s = discardFrame .barred (.backbone x) (some st.origin.port) (some k) id s := by
  simp only [downward, hst, h]

/-- A record that is neither LEAVING nor BARRED (R155). -/
theorem downward_discarded {why : Discard} (hst : s.station? k = some st) (hl : st.isLeaving = false)
    (hb : ∀ b, st.state ≠ .barred b) (hr : classify s.windows st false addr = r)
    (hwhy : downwardDiscard (countClassified false r s) st r = some why) : downward k x id L addr s =
      discardFrame why (.backbone x) (some st.origin.port) (some k) id (countClassified false r s) := by
  have hleaving : ∀ why, st.state ≠ .leaving why := (isLeaving_eq_false_iff.mp hl ·)
  subst hr
  unfold downward
  simp only [hst]
  cases hs : st.state with
  | barred b => exact absurd hs (hb b)
  | leaving why => exact absurd hs (hleaving why)
  | held => simp only [hwhy]
  | admitted => simp only [hwhy]
  | spent => simp only [hwhy]

theorem downward_enters (hst : s.station? k = some st) (hl : st.isLeaving = false)
    (hb : ∀ b, st.state ≠ .barred b) (hr : classify s.windows st false addr = r)
    (hno : downwardDiscard (countClassified false r s) st r = none) : downward k x id L addr s =
      if r.metered then charge k .down L (enterDownward k st.origin id L r.metered (countClassified false r s))
      else enterDownward k st.origin id L r.metered (countClassified false r s) := by
  have hleaving : ∀ why, st.state ≠ .leaving why := (isLeaving_eq_false_iff.mp hl ·)
  subst hr
  unfold downward
  simp only [hst]
  cases hs : st.state with
  | barred b => exact absurd hs (hb b)
  | leaving why => exact absurd hs (hleaving why)
  | held => simp only [hno]
  | admitted => simp only [hno]
  | spent => simp only [hno]

theorem downwardDiscard_eq {s t : State} (hq : egressLength t st.origin = egressLength s st.origin)
    (hp : t.hub.cells.pressure = s.hub.cells.pressure) : downwardDiscard t st r = downwardDiscard s st r := by
  unfold downwardDiscard inPressure
  rw [hq, hp]

theorem downwardDiscard_window (h : r.permitted = false) : downwardDiscard s st r = some .window := by
  simp [downwardDiscard, h]

theorem permitted_of_downwardDiscard (h : downwardDiscard s st r = none) : r.permitted = true := by
  simp only [downwardDiscard, check_eq_none] at h
  simpa using h.1

theorem downwardDiscard_notAdmitted (h : r.permitted = true) (hm : r.metered = true) (ha : st.state ≠ .admitted) :
    downwardDiscard s st r = some .notAdmitted := by
  simp [downwardDiscard, h, hm, ha]

theorem downwardDiscard_passes (h : r.permitted = true) (ha : r.metered = true → st.state = .admitted) :
    downwardDiscard s st r =
      if st.cls = .passenger ∧ s.hub.cells.pressure = .pressure then some .pressure
      else if 64 ≤ egressLength s st.origin then some .queueFull else none := by
  have hadmitted : ¬ (r.metered = true ∧ st.state ≠ .admitted) := fun ⟨hm, hs⟩ => hs (ha hm)
  simp only [downwardDiscard, h, inPressure, Bool.not_true, Bool.false_eq_true, if_false, Bool.and_eq_true,
    decide_eq_true_eq, hadmitted, ge_iff_le]

end

/-! ## The charge of a record -/

/-- A charge that is an exhaustion of the allowance of a record (R98, R99). -/
def Exhausts (L : Nat) (st : Station) : Prop :=
  ∃ al, st.allowance = some al ∧ 0 < al.current ∧ al.current ≤ L

/-- A charge is stored; and one that exhausts the allowance goes on from there (R98, R99). -/
theorem charge_cases {k : Fin 256} {s : State} {st : Station} (cause : Cause) (L : Nat) (hst : s.station? k = some st) :
    ∃ u, u = { s with table := u.table } ∧ u.table.held = s.table.held ∧
      u.station? k = some { st with allowance := st.allowance.map (Allowance.charge L) } ∧
      (∀ j, j ≠ k → u.station? j = s.station? j) ∧ (¬ Exhausts L st → charge k cause L s = u) ∧
      (Exhausts L st → charge k cause L s = exhaust k cause L u) := by
  cases hal : st.allowance with
  | none =>
    refine ⟨s, rfl, rfl, by rw [hst, ← hal, show st.allowance.map (Allowance.charge L) = st.allowance by rw [hal]; rfl],
      fun _ _ => rfl, fun _ => by simp only [charge, hst, hal], fun ⟨al, h, _⟩ => ?_⟩
    rw [hal] at h
    cases h
  | some al =>
    refine ⟨{ s with
        table := s.table.modStation k (fun r => { r with allowance := some (al.charge L) }) }, rfl, rfl,
      modStation_own hst _,
      fun j hj => station?_modStation_ne s.table _ hj, fun hno => charge_of_not_exhausting cause hst hal
        (fun ⟨hpos, hle⟩ => hno ⟨al, hal, hpos, hle⟩), fun ⟨al', hal', hpos, hle⟩ => ?_⟩
    obtain rfl := Option.some.inj (hal.symm.trans hal')
    exact charge_of_exhausting cause hst hal hpos hle

/-- The queues of the ports and the held order at an exhaustion (R102). -/
theorem exhaust_ports {k : Fin 256} {s : State} {st : Station} {al : Allowance} (cause : Cause) (L : Nat)
    (hst : s.station? k = some st) (hal : st.allowance = some al) :
    SameQueues s.ports (exhaust k cause L s).ports := by
  cases hr : al.renews with
  | true =>
    rw [exhaust_of_renews cause L hst hal hr]
    exact .refl _
  | false =>
    rw [exhaust_of_spends cause L hst hal hr]
    show SameQueues s.ports (spendRecord k st s).ports
    unfold spendRecord
    split
    · exact purgeUpward_sameQueues k (setStationState k _ s)
    · exact .refl _

end Sys2Proof.Laws

namespace Sys2Proof.Proofs

open Sys2Proof Sys2Proof.Machine Sys2Proof.Safety Sys2Proof.Laws

section
variable {x : End} {f : List Byte} {ok : Bool} {s s1 : State} {chain : List Nat} {k : Fin 256} {st : Station}

/-- A unicast to a station is delivered downward (R153). -/
theorem exec_downward (h : Arrives (.backbone x) f ok s chain s1) (ht : typeOf f ≠ typeHold) (hm : typeOf f ≠ typeMgmt)
    (hd : dstOf f ≠ s.identity) (hg : isGroup (dstOf f) = false) (ha : s.table.byAddr (dstOf f) = some k) :
    exec (.backboneFrameReceived x f ok) s = .next (downward k x (chain.headD 0) f.length (netAddr f false)
      (storeFrame (.backbone x) chain f s1)) := by
  have hends := (Arrives.ends h).store chain f
  rw [exec_backboneFrameReceived h ht]
  simp only [sortBackbone, hm, hd, hg, hends.kept.identity, hends.table, ha, if_false, Bool.false_eq_true]

end

/-- The egress queues behind an entry (R74, R156). -/
theorem enterEgress_egress (o : Origin) (id : Nat) (ps : Ports) :
    (∀ n, o = .seat n → ((ps.enterEgress o id).seats[n]).egress = (ps.seats[n]).egress ++ [id]) ∧
    (∀ w i, o = .radio w i →
      ((ps.enterEgress o id).radios[w]).egress = (ps.radios[w]).egress ++ [{ id := id, index := i }]) ∧
    ∀ y, ((ps.enterEgress o id).endOf y).transit = (ps.endOf y).transit := by
  cases o with
  | seat n =>
    refine ⟨fun m h => ?_, fun w i h => (by cases h), fun y => congrArg _ (modSeat_endOf ps n _ y)⟩
    cases h
    exact congrArg SeatPort.egress (modSeat_self ps n _)
  | radio w i =>
    refine ⟨fun m h => (by cases h), fun v j h => ?_, fun y => congrArg _ (modRadio_endOf ps w _ y)⟩
    cases h
    exact congrArg RadioLink.egress (modRadio_self ps w _)

/-- Where a downward unicast of `st` stands once it is entered and counted (R90, R156): `t` on the state `s` before its
reception. -/
def DownPlaced (st : Station) (id : Nat) (r : Classified) (s t : State) : Prop :=
  (∀ n, st.origin = .seat n → (t.ports.seats[n]).egress = (s.ports.seats[n]).egress ++ [id]) ∧
  (∀ w i, st.origin = .radio w i →
    (t.ports.radios[w]).egress = (s.ports.radios[w]).egress ++ [{ id := id, index := i }]) ∧
  (∀ y, (t.ports.endOf y).transit = (s.ports.endOf y).transit) ∧ t.table.held = s.table.held ∧
  (∀ i, r.window = some i → t.windows[i] = { s.windows[i] with down := (s.windows[i]).down + 1 }) ∧
  (∀ i : Fin 9, r.window ≠ some i → t.windows[i] = s.windows[i]) ∧ t.sched = s.sched

section
variable {p : Port} {id L : Nat} {r : Classified} {k : Fin 256} {s s2 t u : State} {st : Station}

theorem enterDownward_placed (h : Ends p s s2) (hr : r.permitted = true) (k : Fin 256) (L : Nat) :
    DownPlaced st id r s (enterDownward k st.origin id L r.metered (countClassified false r s2)) := by
  obtain ⟨hseat, hradio, htransit⟩ := enterEgress_egress st.origin id s2.ports
  have hwindows := h.kept.windows
  refine ⟨fun n ho => ?_, fun w i ho => ?_, fun y => ?_, (congrArg StationTable.held h.table :), fun i hi => ?_,
    fun i hi => ?_, h.kept.sched⟩
  · rw [← receptionOnly_egress h.ports]
    exact hseat n ho
  · rw [← receptionOnly_radio h.ports]
    exact hradio w i ho
  · exact (htransit y).trans (receptionOnly_transit h.ports y)
  · refine (countClassified_windows_of_some s2 hi).trans ?_
    rw [hr, hwindows]
    rfl
  · exact (countClassified_windows_of_ne s2 hi).trans (by rw [hwindows])

theorem DownPlaced.same (h : DownPlaced st id r s u) (hq : SameQueues u.ports t.ports)
    (hheld : t.table.held = u.table.held) (hkept : Kept u t) : DownPlaced st id r s t := by
  obtain ⟨hseat, hradio, htransit, hheld', hsome, hne, hsched⟩ := h
  exact ⟨fun n ho => (hq.seat n).trans (hseat n ho), fun w i ho => (hq.radio w).trans (hradio w i ho),
    fun y => (hq.transit y).trans (htransit y), hheld.trans hheld', fun i hi => by rw [hkept.windows]; exact hsome i hi,
    fun i hi => by rw [hkept.windows]; exact hne i hi, hkept.sched.trans hsched⟩

end

section
variable {x : End} {f : List Byte} {s s2 : State} {chain : List Nat} {k : Fin 256} {st : Station} {r : Classified}
  {id L : Nat}

/-- The record behind an entry (R39, R156). -/
theorem enterDownward_station (hst : s2.station? k = some st) (o : Origin) (id L : Nat) :
    (enterDownward k o id L r.metered (countClassified false r s2)).station? k = some { st with
      ctr := st.ctr.countDown L r.metered } :=
  modStation_own hst _

/-- A downward unicast that passes its checks is entered, and charged where it is metered (R97, R156). -/
theorem downward_entered (h : Ends (.backbone x) s s2) (hst : s.station? k = some st) (hl : st.isLeaving = false)
    (hb : ∀ b, st.state ≠ .barred b) (hr : classify s.windows st false (netAddr f false) = r)
    (hno : downwardDiscard s2 st r = none) : ∃ u, DownPlaced st id r s u ∧
      u.station? k = some { st with
        ctr := st.ctr.countDown L r.metered
        allowance := if r.metered then st.allowance.map (Allowance.charge L) else st.allowance } ∧
      (∀ j, j ≠ k → u.station? j = s.station? j) ∧ u.hub = s2.hub.placeFrame id (some k) r.metered ∧ u.up = s2.up ∧
      (¬ (r.metered = true ∧ Exhausts L st) → downward k x id L (netAddr f false) s2 = u) ∧
      (r.metered = true ∧ Exhausts L st → downward k x id L (netAddr f false) s2 = exhaust k .down L u ∧
        DownPlaced st id r s (exhaust k .down L u)) := by
  have hst2 : s2.station? k = some st := (h.station k).trans hst
  have hplaced : DownPlaced st id r s _ := enterDownward_placed h (permitted_of_downwardDiscard hno) k L
  have hothers : ∀ j, j ≠ k →
      (enterDownward k st.origin id L r.metered (countClassified false r s2)).station? j = s.station? j :=
    fun j hj => (station?_modStation_ne s2.table _ hj).trans (h.station j)
  have hown := enterDownward_station (r := r) hst2 st.origin id L
  have hdown := downward_enters (x := x) (id := id) (L := L) (addr := netAddr f false) hst2 hl hb (by rw [h.kept.windows]; exact hr)
    (show downwardDiscard (countClassified false r s2) st r = none from hno)
  cases hm : r.metered with
  | false =>
    rw [hm] at hdown hown hothers hplaced
    exact ⟨_, hplaced, hown, hothers, rfl, rfl, fun _ => hdown, fun h => by cases h.1⟩
  | true =>
    rw [hm] at hdown hown hothers hplaced
    obtain ⟨u, hu, hheld, hustation, huothers, hstays, hexhausts⟩ := charge_cases .down L hown
    have huplaced : DownPlaced st id r s u := hplaced.same (by rw [hu]; exact .refl _) hheld (.ofUpdate (by rw [hu]))
    refine ⟨u, huplaced, hustation, fun j hj => (huothers j hj).trans (hothers j hj), by rw [hu]; rfl, by rw [hu]; rfl,
      fun hno => hdown.trans (hstays fun he => hno ⟨rfl, he⟩), fun he => ⟨hdown.trans (hexhausts he.2), ?_⟩⟩
    obtain ⟨al, hal, -, -⟩ := he.2
    have hual : ({ st with
        ctr := st.ctr.countDown L true
        allowance := st.allowance.map (Allowance.charge L) } : Station).allowance = some (al.charge L) := by rw [hal]; rfl
    exact huplaced.same (exhaust_ports .down L hustation hual) (exhaust_frame hustation hual).1 (exhaust_kept ..)

end

/-- Settles O34, by the checks of R155 in their order. -/
theorem downwardIsEnteredAndCharged : Obligations.DownwardIsEnteredAndCharged := by
  intro x f ok s chain s1 k st h ht hm hd hg ha hst id s2 command r exhausts out pressed queued placed
  have hends : Ends (.backbone x) s s1 := Arrives.ends h
  have hstored : Ends (.backbone x) s s2 := hends.store chain f
  have hexec := exec_downward h ht hm hd hg ha
  have hst2 : s2.station? k = some st := (hstored.station k).trans hst
  have hclass : classify s2.windows st false (netAddr f false) = r := by rw [hstored.kept.windows]
  have hqueued : egressLength (countClassified false r s2) st.origin = queued :=
    (hstored.egressLength st.origin).trans (by unfold egressLength; rfl)
  refine ⟨fun hl hb hno hfresh => ?_, fun hl => ?_, fun b hb => ?_, fun hl hb => ⟨fun hp => ?_, fun hp hmet ha => ?_,
    fun hp ha => ?_⟩⟩
  · have hno2 : downwardDiscard s2 st r = none :=
      (downwardDiscard_eq (s := s1) ((hstored.egressLength _).trans (hends.egressLength _).symm) rfl).trans hno
    obtain ⟨u, huplaced, hown, hothers, hhub, hup, hstays, hexhausts⟩ :=
      downward_entered (id := id) (L := f.length) hstored hst hl hb rfl hno2
    refine ⟨u, huplaced, hown, hothers, ?_, by rw [hhub]; rfl, hup.trans hstored.up,
      fun he => hexec.trans (congrArg _ (hstays he)), fun he => ?_⟩
    · rw [hhub]
      exact placeFrame_frame (storeFrame_frame (.backbone x) f hfresh) (some k) r.metered
    · obtain ⟨heq, hplaced⟩ := hexhausts he
      exact ⟨_, hexec.trans (congrArg _ heq), rfl, hplaced⟩
  · exact hexec.trans (congrArg _ (downward_leaving hst2 hl))
  · exact hexec.trans (congrArg _ (downward_barred hst2 hb))
  · exact hexec.trans (congrArg _ (downward_discarded hst2 hl hb hclass (downwardDiscard_window hp)))
  · exact hexec.trans (congrArg _ (downward_discarded hst2 hl hb hclass (downwardDiscard_notAdmitted hp hmet ha)))
  · have hchecks := downwardDiscard_passes (s := countClassified false r s2) hp ha
    rw [hqueued] at hchecks
    refine ⟨fun hpressed => ?_, fun hnot hfull => ?_⟩
    · exact hexec.trans (congrArg _ (downward_discarded hst2 hl hb hclass (hchecks.trans (if_pos hpressed))))
    · exact hexec.trans (congrArg _ (downward_discarded hst2 hl hb hclass
        (hchecks.trans ((if_neg hnot).trans (if_pos hfull)))))

end Sys2Proof.Proofs
end

section
/-! SUPPORT. The attribution and the upward intake of a stored frame (R40, R131 to R133), and the classification by the
window table (R79, R86 to R90), in the terms of the statements. -/

namespace Sys2Proof.Laws

open Sys2Proof Sys2Proof.Machine Sys2Proof.Safety

/-! ## The window applied -/

/-- The first of a rising list that passes a test. -/
theorem find?_first_of_sorted {n : Nat} {l : List (Fin n)} {test : Fin n → Bool} {i : Fin n} (hs : l.Pairwise (· < ·))
    (h : l.find? test = some i) : test i = true ∧ ∀ j ∈ l, j < i → test j = false := by
  obtain ⟨hi, as, bs, rfl, has⟩ := List.find?_eq_some_iff_append.mp h
  refine ⟨hi, fun j hj hlt => ?_⟩
  rcases List.mem_append.mp hj with hj | hj
  · simpa using has j hj
  · obtain ⟨-, hrest, -⟩ := List.pairwise_append.mp hs
    rcases List.mem_cons.mp hj with rfl | hj
    · exact absurd hlt (lt_irrefl _)
    · exact absurd hlt (not_lt_of_gt ((List.pairwise_cons.mp hrest).1 j hj))

theorem windowFor_applies (ws : Vector Window 9) (a : NetAddr) : WindowApplies ws a.toNat (windowFor ws a) := by
  have hnot : ∀ j : Fin 9, (ws[j]).set.contains a = false →
      ¬ ((ws[j]).set.enabled = true ∧ (ws[j]).set.base.toNat = a.toNat / 2 ^ (ws[j]).set.k * 2 ^ (ws[j]).set.k) :=
    fun j h hin => by rw [(contains_iff _ _).mpr hin] at h; cases h
  have hall : ∀ j : Fin 9, j ≠ 8 → j ∈ ([0, 1, 2, 3, 4, 5, 6, 7] : List (Fin 9)) := by decide
  unfold windowFor
  cases hf : ([0, 1, 2, 3, 4, 5, 6, 7] : List (Fin 9)).find? (fun i => (ws[i]).set.contains a) with
  | none =>
    refine ⟨.inl rfl, fun j hj => hnot j ?_⟩
    simpa using List.find?_eq_none.mp hf j (hall j (ne_of_lt hj))
  | some i =>
    obtain ⟨hi, hbefore⟩ := find?_first_of_sorted (by decide) hf
    have hne : ∀ j : Fin 9, j < i → j ≠ 8 := fun j hj h => by omega
    exact ⟨.inr ((contains_iff _ _).mp hi), fun j hj => hnot j (hbefore j (hall j (hne j hj)) hj)⟩

theorem foldl_beNat_lt (bs : List Byte) (n : Nat) :
    bs.foldl (fun n b => n * 256 + b.toNat) n < (n + 1) * 256 ^ bs.length := by
  induction bs generalizing n with
  | nil => simp
  | cons b bs ih =>
    have hb : b.toNat < 256 := b.isLt
    calc (b :: bs).foldl (fun n b => n * 256 + b.toNat) n
        < (n * 256 + b.toNat + 1) * 256 ^ bs.length := ih _
      _ ≤ ((n + 1) * 256) * 256 ^ bs.length := Nat.mul_le_mul_right _ (by omega)
      _ = (n + 1) * 256 ^ (b :: bs).length := by rw [List.length_cons, Nat.pow_succ]; ring

/-- The number in four bytes is that of a network address. -/
theorem netAddr_toNat (f : List Byte) (off : Nat) : (BitVec.ofNat 32 (fieldAt f off 4)).toNat = fieldAt f off 4 := by
  have hlt := foldl_beNat_lt ((f.drop off).take 4) 0
  have hlen : ((f.drop off).take 4).length ≤ 4 := List.length_take_le _ _
  have hpow : 256 ^ ((f.drop off).take 4).length ≤ 256 ^ 4 := Nat.pow_le_pow_right (by omega) hlen
  rw [BitVec.toNat_ofNat, Nat.mod_eq_of_lt]
  unfold fieldAt beNat
  omega

theorem allows_iff (q : Permission) (up : Bool) :
    q.allows up = true ↔ q = .both ∨ q = .up ∧ up = true ∨ q = .down ∧ up = false := by
  cases q <;> cases up <;> simp [Permission.allows]

theorem unadmitted_iff (x : StationState) : x.unadmitted = true ↔ x = .held ∨ x = .spent := by
  cases x <;> simp [StationState.unadmitted]

theorem permits_iff (w : WindowSettings) (st : Station) (up : Bool) : w.permits st up = true ↔ WindowPermits w st up := by
  have hopen : (!(decide (st.cls = .passenger) && st.state.unadmitted && !w.metered) || w.opened) = true ↔
      (st.cls = .passenger → st.state = .held ∨ st.state = .spent → w.metered = false → w.opened = true) := by
    rw [← unadmitted_iff]
    simp only [Bool.or_eq_true, Bool.not_eq_true', Bool.and_eq_false_iff, decide_eq_false_iff_not, Bool.not_eq_false']
    cases w.metered <;> cases st.state.unadmitted <;> simp [imp_iff_not_or]
  unfold WindowSettings.permits WindowPermits
  rw [Bool.and_eq_true, hopen, allows_iff]
  unfold WindowSettings.permission
  exact Iff.rfl

/-! ## Upward intake -/

section
variable {k : Fin 256} {p : Port} {id L : Nat} {addr : Option NetAddr} {s t : State} {st st' : Station} {r : Classified}

theorem upwardIntake_barred {b : Admission} (hst : s.station? k = some st) (h : st.state = .barred b) :
    upwardIntake k p id L addr s = discardFrame .barred p none (some k) id s := by
  simp only [upwardIntake, hst, h]

theorem upwardIntake_discarded {why : Discard} (hst : s.station? k = some st) (hb : ∀ b, st.state ≠ .barred b)
    (hr : classify s.windows st true addr = r) (hwhy : upwardDiscard (countClassified true r s) st r = some why) :
    upwardIntake k p id L addr s = discardFrame why p
      (if why = .shed then s.consist.lead.map Port.backbone else none) (some k) id (countClassified true r s) := by
  subst hr
  unfold upwardIntake
  simp only [hst]
  cases hs : st.state with
  | barred b => exact absurd hs (hb b)
  | leaving => simp only [hwhy]
  | held => simp only [hwhy]
  | admitted => simp only [hwhy]
  | spent => simp only [hwhy]

theorem upwardIntake_enters (hst : s.station? k = some st) (hb : ∀ b, st.state ≠ .barred b)
    (hr : classify s.windows st true addr = r) (hno : upwardDiscard (countClassified true r s) st r = none) :
    upwardIntake k p id L addr s = enterUpward k st id L r.metered (countClassified true r s) := by
  subst hr
  unfold upwardIntake
  simp only [hst]
  cases hs : st.state with
  | barred b => exact absurd hs (hb b)
  | leaving => simp only [hno]
  | held => simp only [hno]
  | admitted => simp only [hno]
  | spent => simp only [hno]

theorem enterUpward_up (k : Fin 256) (st : Station) (id L : Nat) (m : Bool) (s : State) :
    (enterUpward k st id L m s).up = { s.up with
      onboard := if usesOwnQueue st m then s.up.onboard else s.up.onboard ++ [id] } := by
  unfold enterUpward
  split <;> rfl

theorem classify_congr (ws : Vector Window 9) (up : Bool) (addr : Option NetAddr) (hc : st'.cls = st.cls)
    (hs : st'.state = st.state) : classify ws st' up addr = classify ws st up addr := by
  cases addr with
  | none => rfl
  | some a => simp only [classify, WindowSettings.permits, hc, hs]

theorem usesOwnQueue_congr (m : Bool) (hc : st'.cls = st.cls) (hs : st'.state = st.state) :
    usesOwnQueue st' m = usesOwnQueue st m := by
  simp only [usesOwnQueue, hc, hs]

/-- What the checks of R131 read, apart from the record and the classification. -/
structure SameChecks (s t : State) : Prop where
  pressure : t.hub.cells.pressure = s.hub.cells.pressure
  lead : leadShedding t = leadShedding s
  onboard : t.up.onboard = s.up.onboard

theorem upwardDiscard_congr (h : SameChecks s t) (hc : st'.cls = st.cls) (hs : st'.state = st.state)
    (hq : st'.upq = st.upq) : upwardDiscard t st' r = upwardDiscard s st r := by
  unfold upwardDiscard inPressure
  rw [usesOwnQueue_congr _ hc hs, hc, hs, hq, h.pressure, h.lead, h.onboard]

theorem leadShedding_congr (hc : t.consist = s.consist) (hh : t.hold = s.hold)
    (ho : ∀ x, (t.ports.endOf x).overrun = (s.ports.endOf x).overrun) : leadShedding t = leadShedding s := by
  unfold leadShedding shedding
  simp only [hc, hh, ho]

theorem permitted_of_upwardDiscard (h : upwardDiscard s st r = none) : r.permitted = true := by
  simp only [upwardDiscard, check_eq_none] at h
  simpa using h.1

end

/-! ## Attribution -/

section
variable {p : Port} {f : List Byte} {s s1 : State} {chain : List Nat} {k : Fin 256} {st : Station}

theorem store_checks (p : Port) (s1 : State) (chain : List Nat) (f : List Byte) (k : Fin 256) (id : Nat) (r : Classified) :
    SameChecks s1 (countClassified true r (attributeFrame k id (storeFrame p chain f s1))) where
  pressure := rfl
  lead := leadShedding_congr rfl rfl (fun x => by
    obtain ⟨_, _, hx⟩ := receptionOnly_end (storeFrame_ports p chain f s1) x
    exact (congrArg BackboneEnd.overrun hx :))
  onboard := rfl

/-- An attributed frame that passes the checks is in its queue (R40, R133). -/
theorem attributed_placed (h : Ends p s s1) (hst : s.station? k = some st) (hb : ∀ b, st.state ≠ .barred b)
    (hno : upwardDiscard s1 st (classify s.windows st true (netAddr f true)) = none)
    (hfresh : ∀ g ∈ s1.hub.cells.frames, g.id ≠ chain.headD 0) :
    Placed p chain f k st s s1 (upwardIntake k p (chain.headD 0) f.length (netAddr f true)
      (attributeFrame k (chain.headD 0) (storeFrame p chain f s1))) := by
  have hstored : Ends p s (storeFrame p chain f s1) := h.store chain f
  have htouched : (attributeFrame k (chain.headD 0) (storeFrame p chain f s1)).station? k = some (st.touch s.now) := by
    rw [← hstored.kept.now]
    exact modStation_own ((hstored.station k).trans hst) _
  have hclass : classify (attributeFrame k (chain.headD 0) (storeFrame p chain f s1)).windows (st.touch s.now) true
      (netAddr f true) = classify s.windows st true (netAddr f true) :=
    (classify_congr (st := st) _ _ _ rfl rfl).trans (congrArg (classify · st true (netAddr f true)) hstored.kept.windows)
  generalize hr : classify s.windows st true (netAddr f true) = r at hno hclass
  have hentered := upwardIntake_enters (p := p) (id := chain.headD 0) (L := f.length) htouched hb hclass
    ((upwardDiscard_congr (store_checks p s1 chain f k (chain.headD 0) r) rfl rfl rfl).trans hno)
  have hframe : (attributeFrame k (chain.headD 0) (storeFrame p chain f s1)).hub.cells.frame? (chain.headD 0) =
      some { receivedFrame p chain f with station := some k } :=
    frame?_modFrame_self (storeFrame_frame p f hfresh) (fun _ => rfl)
  have hheld : (attributeFrame k (chain.headD 0) (storeFrame p chain f s1)).table.held =
      if st.state = .held then s.table.held.filter (fun j => decide (j ≠ k)) ++ [k] else s.table.held := by
    simp only [attributeFrame, (hstored.station k).trans hst, hstored.table, toHeldEnd]
  have hcount : ∀ g : PortCounters → PortCounters, (s1.ports.count p g).unitOf p =
      { s1.ports.unitOf p with ctr := g (s1.ports.unitOf p).ctr } := fun g => by
    rw [unitOf_count, if_pos rfl]
  have hpermitted := permitted_of_upwardDiscard hno
  have hwindows := hstored.kept.windows
  unfold Placed
  simp only [hr]
  rw [hentered]
  refine ⟨modStation_own htouched _, ?_, ?_, rfl, rfl, rfl, fun j hj => ?_, hheld, ?_, ?_, fun i hi => ?_, fun i hi => ?_,
    hstored.kept.sched⟩
  · have hup : (attributeFrame k (chain.headD 0) (storeFrame p chain f s1)).up = s.up := hstored.up
    rw [enterUpward_up, show (countClassified true r (attributeFrame k (chain.headD 0) (storeFrame p chain f s1))).up =
      s.up from hup]
    rfl
  · exact placeFrame_frame hframe (some k) r.metered
  · exact (station?_modStation_ne _ _ hj).trans ((station?_modStation_ne _ _ hj).trans (hstored.station j))
  · exact (congrArg (fun u : PortUnit => u.ctr.rxFrames) (hcount _) :)
  · exact (congrArg (fun u : PortUnit => u.ctr.rxBytes) (hcount _) :)
  · refine (countClassified_windows_of_some (attributeFrame k (chain.headD 0) (storeFrame p chain f s1)) hi).trans ?_
    rw [hpermitted, show (attributeFrame k (chain.headD 0) (storeFrame p chain f s1)).windows = s.windows from hwindows]
    rfl
  · exact (countClassified_windows_of_ne (attributeFrame k (chain.headD 0) (storeFrame p chain f s1)) hi).trans
      (congrArg (·[i]) hwindows)

end

end Sys2Proof.Laws
end

section
/-! A move of a record to another port (R44, R69), the sorting of seat frames (R40, R44, R45), and the statement on the
frames of known stations. -/

namespace Sys2Proof.Laws

open Sys2Proof Sys2Proof.Machine Sys2Proof.Safety

/-! ## A record that moves -/

/-- The record `st` of slot `k` has become `st'`, and its unicasts have left the egress queue of `o` (R44, R69): `u` is
the state `s` after that. -/
structure Moved (k : Fin 256) (o : Origin) (st' : Station) (s u : State) : Prop where
  own : ∃ n, u.station? k = some (moreDrops n st')
  others : ∀ j, j ≠ k → ∃ n, u.station? j = (s.station? j).map (moreDrops n)
  counts : PurgeCounts k [] o s u
  gone : UnicastsGone k o s u
  held : u.table.held = s.table.held
  up : u.up = s.up
  orders : ∀ w : Fin 4, (u.ports.radios[w]).orders = (s.ports.radios[w]).orders
  ports : QueuesOnly (· = o.port) s.ports u.ports
  kept : Kept s u

theorem purgeEgress_moved {k : Fin 256} {s : State} {st : Station} (o : Origin) (g : Station → Station)
    (hst : s.station? k = some st) (hg : (g st).ctr = st.ctr) :
    Moved k o (g st) s (purgeEgress k o (onTable (StationTable.modStation k g) s)) := by
  have hpurged := purgeEgress_purged k o (onTable (StationTable.modStation k g) s)
  have hown : (onTable (StationTable.modStation k g) s).station? k = some (g st) := modStation_own hst g
  have hothers : ∀ j, j ≠ k → (onTable (StationTable.modStation k g) s).station? j = s.station? j :=
    fun j hj => station?_modStation_ne s.table g hj
  obtain ⟨hcounts, hdrops⟩ := purgeEgress_counts k o (onTable (StationTable.modStation k g) s)
  refine ⟨?_, fun j hj => ?_, ⟨⟨hcounts.tally, hcounts.txDrops⟩, fun hn ho => ?_⟩, ?_, hpurged.held, hpurged.up,
    hpurged.orders, purgeEgress_only k (onTable _ s) o, (onTable_kept _ s).trans (purgeEgress_kept k o _)⟩
  · obtain ⟨n, hn⟩ := hpurged.records k
    exact ⟨n, by rw [hn, hown, Option.map_some]⟩
  · obtain ⟨n, hn⟩ := hpurged.records j
    exact ⟨n, by rw [hn, hothers j hj]⟩
  · obtain ⟨hleft, hctr, hsame⟩ := hdrops hn ho
    refine ⟨hleft, fun st0 st1 h0 h1 => ?_, fun j hj => (hsame j hj).trans (hothers j hj)⟩
    obtain rfl := Option.some.inj (hst.symm.trans h0)
    exact (hctr _ _ hown h1).trans (by simp only [moreDrops, hg]; rfl)
  · exact (purgeEgress_gone k o (onTable (StationTable.modStation k g) s)).before ⟨fun _ => rfl, fun _ => rfl⟩ (.refl _)

/-- The other records at a move. -/
theorem Moved.apart {k : Fin 256} {o : Origin} {st' r : Station} {s u : State} {j : Fin 256}
    (h : Moved k o st' s u) (hj : j ≠ k) (hr : s.station? j = some r) :
    ∃ r', u.station? j = some r' ∧ apartFromDrops r' = apartFromDrops r := by
  obtain ⟨n, hn⟩ := h.others j hj
  exact apart_of_moreDrops hn hr

end Sys2Proof.Laws

namespace Sys2Proof.Proofs

open Sys2Proof Sys2Proof.Machine Sys2Proof.Safety Sys2Proof.Laws

/-! ## Seat frames -/

section
variable {n : Fin 32} {f : List Byte} {ok : Bool} {s s1 : State} {chain : List Nat} {k : Fin 256} {st : Station}

theorem exec_seatFrame (h : Arrives (.seat n) f ok s chain s1) (ht : typeOf f ≠ typeHold) :
    exec (.seatFrameReceived n f ok) s = .next (sortSeat n (chain.headD 0) f (storeFrame (.seat n) chain f s1)) := by
  simp only [exec, execSeatFrameReceived, received_of_arrives h, ht, if_false, firstCell]

/-- A frame that a station sends (R40). -/
theorem exec_seatFrame_known (h : Arrives (.seat n) f ok s chain s1) (ht : typeOf f ≠ typeHold)
    (hm : typeOf f ≠ typeMgmt) (hg : isGroup (srcOf f) = false) (ha : s.table.byAddr (srcOf f) = some k) :
    exec (.seatFrameReceived n f ok) s =
      .next (seatKnown k n (chain.headD 0) f (storeFrame (.seat n) chain f s1)) := by
  have hends := (Arrives.ends h).store chain f
  rw [exec_seatFrame h ht]
  simp only [sortSeat, hm, hg, hends.table, ha, if_false, Bool.false_eq_true]

end

section
variable {k : Fin 256} {n m : Fin 32} {id : Nat} {f : List Byte} {s : State} {st : Station}

theorem seatKnown_leaving (hst : s.station? k = some st) (h : st.isLeaving = true) :
    seatKnown k n id f s = discardFrame .purge (.seat n) none (some k) id s := by
  simp only [seatKnown, hst, h, if_true]

theorem seatKnown_home (hst : s.station? k = some st) (h : st.isLeaving = false) (ho : st.origin = .seat n) :
    seatKnown k n id f s = upwardIntake k (.seat n) id f.length (netAddr f true) (attributeFrame k id s) := by
  simp only [seatKnown, hst, h, ho, if_true, Bool.false_eq_true, if_false]

theorem seatKnown_radio {w : Fin 4} {i : Nat} (hst : s.station? k = some st) (h : st.isLeaving = false)
    (ho : st.origin = .radio w i) : seatKnown k n id f s =
      discardFrame .origin (.seat n) none (some k) id (originConflict k st (.seat n) (srcOf f) s) := by
  simp only [seatKnown, hst, h, ho, Bool.false_eq_true, if_false]

theorem seatKnown_away (hst : s.station? k = some st) (h : st.isLeaving = false) (ho : st.origin = .seat m)
    (hn : m ≠ n) : seatKnown k n id f s =
      if ((s.ports.seats[n]).designation.learns).1 ≠ st.cls then
        discardFrame .origin (.seat n) none (some k) id (originConflict k st (.seat n) (srcOf f) s)
      else if (s.table.onSeat n).length ≥ 2 then discardFrame .portCrowded (.seat n) none (some k) id s
      else upwardIntake k (.seat n) id f.length (netAddr f true) (attributeFrame k id (moveSeat k st n s)) := by
  simp only [seatKnown, hst, h, ho, hn, Bool.false_eq_true, if_false]

/-- A record that moves to another seat port (R44). -/
theorem moveSeat_moved (hst : s.station? k = some st) :
    Moved k st.origin { st with origin := .seat n } s (moveSeat k st n s) :=
  purgeEgress_moved st.origin (fun r => { r with origin := .seat n }) hst rfl

end

/-! ## What the checks of R131 find -/

section
variable {s : State} {st : Station} {r : Classified}

theorem upwardDiscard_window (h : r.permitted = false) : upwardDiscard s st r = some .window := by
  simp [upwardDiscard, h]

theorem upwardDiscard_notAdmitted (h : r.permitted = true) (hm : r.metered = true) (ha : st.state ≠ .admitted) :
    upwardDiscard s st r = some .notAdmitted := by
  simp [upwardDiscard, h, hm, ha]

/-- The lead end is shedding (R18). -/
theorem leadShedding_iff : leadShedding s = true ↔
    ∃ x, s.consist.lead = some x ∧ (s.ports.endOf x).overrun = true ∧ s.hold.action = .shed := by
  unfold leadShedding shedding
  cases s.consist.lead <;> simp

theorem upwardDiscard_passes (h : r.permitted = true) (ha : r.metered = true → st.state = .admitted) :
    upwardDiscard s st r =
      if st.cls = .passenger ∧ s.hub.cells.pressure = .pressure then some .pressure
      else if st.cls = .passenger ∧ leadShedding s = true then some .shed
      else if usesOwnQueue st r.metered = true then (if 24 ≤ st.upq.length then some .queueFull else none)
      else if 128 ≤ s.up.onboard.length then some .queueFull else none := by
  have hadmitted : ¬ (r.metered = true ∧ st.state ≠ .admitted) := fun ⟨hm, hs⟩ => hs (ha hm)
  simp only [upwardDiscard, h, inPressure, Bool.not_true, Bool.false_eq_true, if_false, Bool.and_eq_true,
    decide_eq_true_eq, hadmitted, ge_iff_le]

theorem usesOwnQueue_iff {m : Bool} :
    usesOwnQueue st m = true ↔ st.state = .admitted ∧ (m = true ∨ st.cls ≠ .passenger) := by
  simp [usesOwnQueue]

end

/-- The discards of R131, by the record's state, the classification and the checks in their order. -/
theorem intake_discards (k : Fin 256) (p : Port) (id L : Nat) (addr : Option NetAddr) {s : State} {st : Station}
    {r : Classified} (hst : s.station? k = some st) (hb : ∀ b, st.state ≠ .barred b)
    (hr : classify s.windows st true addr = r) {why : Discard} (bound : Option Port)
    (hwhy : upwardDiscard (countClassified true r s) st r = some why)
    (hbound : (if why = .shed then s.consist.lead.map Port.backbone else none) = bound) :
    upwardIntake k p id L addr s = discardFrame why p bound (some k) id (countClassified true r s) := by
  rw [upwardIntake_discarded hst hb hr hwhy, hbound]

/-- Settles O19: the branches of `seatKnown`, the checks of R131, and the window table. -/
theorem seatFrameIsQueued : Obligations.SeatFrameIsQueued := by
  refine ⟨?queued, ?known, ?discards, ?classification, ?counts⟩
  case queued =>
    intro n f ok s chain s1 k st h ht hm hg ha hst ho hl hb hno hfresh
    refine ⟨_, ?_, attributed_placed (Arrives.ends h) hst hb hno hfresh⟩
    rw [exec_seatFrame_known h ht hm hg ha,
      seatKnown_home ((((Arrives.ends h).store chain f).station k).trans hst) hl ho]
  case known =>
    intro n f ok s chain s1 k st h ht hm hg ha hst id s2 command intake conflict sameClass
    have hends : Ends (.seat n) s s2 := (Arrives.ends h).store chain f
    have hexec := exec_seatFrame_known h ht hm hg ha
    have hst2 : s2.station? k = some st := (hends.station k).trans hst
    have hlearns : (s2.ports.seats[n]).designation = (s.ports.seats[n]).designation :=
      receptionOnly_designation hends.ports n
    have hconflict : discardFrame .origin (.seat n) none (some k) id (originConflict k st (.seat n) (srcOf f) s2) =
        conflict := rfl
    refine ⟨fun hl => ?_, fun hl ho => ?_, fun w i hl ho => ?_, fun m hl ho hn => ?_⟩
    · exact hexec.trans (congrArg _ (seatKnown_leaving hst2 hl))
    · exact hexec.trans (congrArg _ (seatKnown_home hst2 hl ho))
    · exact hexec.trans (congrArg _ (seatKnown_radio hst2 hl ho))
    have haway := seatKnown_away (f := f) (id := id) hst2 hl ho hn
    rw [hlearns, hends.table] at haway
    refine ⟨fun hclass => ?_, fun hclass hfull => ?_, fun hclass hroom => ?_⟩
    · exact hexec.trans (congrArg _ (haway.trans (if_pos hclass)))
    · exact hexec.trans (congrArg _ (haway.trans ((if_neg (not_not.mpr hclass)).trans (if_pos hfull))))
    · have hmoved := moveSeat_moved (n := n) hst2
      obtain ⟨d, hown⟩ := hmoved.own
      rw [ho] at hmoved
      obtain ⟨hsub, hgone, hkept⟩ := hmoved.gone.seat m rfl
      have hegress := receptionOnly_egress hends.ports m
      refine ⟨moveSeat k st n s2, _, hexec.trans (congrArg _ (haway.trans ((if_neg (not_not.mpr hclass)).trans
          (if_neg (Nat.not_le.mpr hroom))))), hown, rfl, hmoved.counts, hegress ▸ hsub, hgone, hegress ▸ hkept,
        fun j r hj hr => Moved.apart hmoved hj ((hends.station j).trans hr), hmoved.held.trans (by rw [hends.table]),
        hmoved.up.trans hends.up, hmoved.kept.windows.trans hends.kept.windows,
        hmoved.kept.sched.trans hends.kept.sched, hmoved.kept.consist.trans hends.kept.consist⟩
  case discards =>
    intro k p id L addr s st hst intake r s' out pressed shed
    refine ⟨fun b hb => upwardIntake_barred hst hb, fun hb => ⟨fun hp => ?_, fun hp hm ha => ?_, fun hp ha => ?_⟩⟩
    · exact intake_discards k p id L addr hst hb rfl none (upwardDiscard_window hp) rfl
    · exact intake_discards k p id L addr hst hb rfl none (upwardDiscard_notAdmitted hp hm ha) rfl
    have hchecks := upwardDiscard_passes (s := s') hp ha
    refine ⟨fun hpressed => ?_, fun x hnot hshed => ?_, fun hnot hno => ?_⟩
    · exact intake_discards k p id L addr hst hb rfl none (hchecks.trans (if_pos hpressed)) rfl
    · obtain ⟨hclass, hlead, hover, haction⟩ := hshed
      exact intake_discards k p id L addr hst hb rfl _ (hchecks.trans ((if_neg hnot).trans
        (if_pos ⟨hclass, leadShedding_iff.mpr ⟨x, hlead, hover, haction⟩⟩))) (by rw [if_pos rfl, hlead]; rfl)
    have hshed : ¬ (st.cls = .passenger ∧ leadShedding s' = true) := fun ⟨hclass, hl⟩ => by
      obtain ⟨x, hlead, hover, haction⟩ := leadShedding_iff.mp hl
      exact hno x ⟨hclass, hlead, hover, haction⟩
    have hqueue := hchecks.trans ((if_neg hnot).trans (if_neg hshed))
    refine ⟨fun hadmitted hown hfull => ?_, fun hother hfull => ?_⟩
    · exact intake_discards k p id L addr hst hb rfl none (hqueue.trans
        ((if_pos (usesOwnQueue_iff.mpr ⟨hadmitted, hown⟩)).trans (if_pos hfull))) rfl
    · have hshared : ¬ usesOwnQueue st r.metered = true := fun h => by
        obtain ⟨hadmitted, hown⟩ := usesOwnQueue_iff.mp h
        rcases hother with hs | ⟨hm, hclass⟩
        · exact hs hadmitted
        · rcases hown with h | h
          · rw [hm] at h; cases h
          · exact h hclass
      exact intake_discards k p id L addr hst hb rfl none (hqueue.trans ((if_neg hshared).trans (if_pos hfull))) rfl
  case classification =>
    intro ws st up f r
    refine ⟨fun ht => ?_, fun ht => ?_⟩
    · simp only [r, netAddr, typeIPv4, ht, if_false, classify]
    · have haddr : netAddr f up = some (if up then netDstOf f else netSrcOf f) := if_pos ht
      have happlies : WindowApplies ws (if up then fieldAt f 30 4 else fieldAt f 26 4)
          (windowFor ws (if up then netDstOf f else netSrcOf f)) := by
        cases up with
        | true => exact netAddr_toNat f 30 ▸ windowFor_applies ws (netDstOf f)
        | false => exact netAddr_toNat f 26 ▸ windowFor_applies ws (netSrcOf f)
      simp only [r, haddr, classify]
      exact ⟨_, rfl, happlies, rfl, permits_iff ..⟩
  case counts =>
    intro up r s t
    refine ⟨rfl, fun i hi => ?_, fun i hi => countClassified_windows_of_ne s hi⟩
    refine (countClassified_windows_of_some s hi).trans ?_
    unfold Window.countResult
    cases up <;> cases r.permitted <;> simp

end Sys2Proof.Proofs
end

section
/-! What arrives on a radio link (R62, R63, R191), and the statement on it. -/

namespace Sys2Proof.Laws

open Sys2Proof Sys2Proof.Machine Sys2Proof.Safety

/-! ## The notice in a NOTICE frame (R191) -/

section
variable {f : List Byte}

theorem readNotice_associated (h : byteAt f 0 = 1) : readNotice f = some (.associated (byteAt f 1) (addrAt f 2)) := by
  simp [readNotice, h]

theorem readNotice_disassociated (h : byteAt f 0 = 2) : readNotice f = some (.disassociated (byteAt f 1)) := by
  simp [readNotice, h]

theorem readNotice_radioStart (h : byteAt f 0 = 3) : readNotice f = some .radioStart := by
  simp [readNotice, h]

theorem beNat_append (bs cs : List Byte) : beNat (bs ++ cs) = cs.foldl (fun n b => n * 256 + b.toNat) (beNat bs) :=
  List.foldl_append ..

/-- The number in the bytes written for it. -/
theorem beNat_beBytes (n v : Nat) : beNat (beBytes n v) = v % 256 ^ n := by
  induction n generalizing v with
  | zero => simp [beBytes, beNat, Nat.mod_one]
  | succ n ih =>
    have hsplit : v % 256 ^ (n + 1) = v % 256 + 256 * (v / 256 % 256 ^ n) := by
      rw [Nat.pow_succ, Nat.mul_comm, Nat.mod_mul]
    rw [beBytes, beNat_append, ih, List.foldl_cons, List.foldl_nil, BitVec.toNat_ofNat, hsplit]
    omega

theorem beNat_addrBytes (a : LinkAddr) : BitVec.ofNat 48 (beNat (addrBytes a)) = a := by
  have hlt : a.toNat < 256 ^ 6 := a.isLt
  rw [addrBytes, beNat_beBytes, Nat.mod_eq_of_lt hlt, BitVec.ofNat_toNat, BitVec.setWidth_eq]

theorem addrAt_associated (code index : Byte) (a : LinkAddr) (check : List Byte) :
    addrAt ([code, index] ++ addrBytes a ++ check) 2 = a := by
  have htake : (([code, index] ++ addrBytes a ++ check).drop 2).take 6 = addrBytes a := by
    rw [List.append_assoc]
    exact List.take_left' (beBytes_length 6 a.toNat)
  rw [addrAt, fieldAt, htake, beNat_addrBytes]

end

/-! ## Frames that are refused -/

section
variable {w : Fin 4} {len : Nat} {s s1 : State} {chain : List Nat} {act : State → State}

theorem NoticeArrives.ends (h : NoticeArrives w len s chain s1) : Ends (.radio w) s s1 := ends_of_endReception h.2

theorem receivedNotice_refused (h : NoticeArrives w len s chain s1) :
    receivedNotice w len false act s = discardWire (.radio w) chain s1 := by
  obtain ⟨hcan, hend⟩ := h
  simp only [receivedNotice, hcan, hend, if_true, Bool.false_eq_true, if_false]

/-- A notice whose wire check fails, or whose length is not its body's with the wire check (R191). -/
theorem receiveNotice_refused {n : RadioNotice} {ok : Bool} (h : NoticeArrives w len s chain s1)
    (hbad : ok = false ∨ len ≠ n.bodyLength + 4) : receiveNotice w n len ok s = discardWire (.radio w) chain s1 := by
  have hgood : (ok && decide (len = n.bodyLength + 4)) = false := by
    rcases hbad with h | h <;> simp [h]
  rw [receiveNotice, hgood, receivedNotice_refused h]

end

end Sys2Proof.Laws

namespace Sys2Proof.Proofs

open Sys2Proof Sys2Proof.Machine Sys2Proof.Safety Sys2Proof.Laws

section
variable {w : Fin 4} {i : Byte} {f : List Byte} {ok : Bool} {s s1 : State} {chain : List Nat} {k : Fin 256} {st : Station}

theorem exec_radioData (h : Arrives (.radio w) f ok s chain s1) (ht : typeOf f ≠ typeHold) :
    exec (.radioDataFrameReceived w 1 i f ok) s =
      .next (sortRadio w i (chain.headD 0) f (storeFrame (.radio w) chain f s1)) := by
  simp only [exec, execRadioDataFrameReceived, received_of_arrives h, ht, if_true, if_false, firstCell]

theorem exec_noticeFrame (w : Fin 4) (i : Byte) (f : List Byte) (ok : Bool) (s : State) :
    exec (.radioDataFrameReceived w 2 i f ok) s = .next (receiveNoticeFrame w f ok s) := by
  simp only [exec, execRadioDataFrameReceived, show ¬ ((2 : Byte) = 1) by decide, if_true, if_false]

/-- A NOTICE frame is taken as by the notice's own row (R191). -/
theorem exec_noticeFrame_of_reads {n : RadioNotice} (w : Fin 4) (i : Byte) (ok : Bool) (s : State)
    (h : readNotice f = some n) :
    exec (.radioDataFrameReceived w 2 i f ok) s = .next (receiveNotice w n f.length ok s) := by
  rw [exec_noticeFrame, receiveNoticeFrame_some h]

theorem exec_noticeFrame_refused {n : RadioNotice} (h : NoticeArrives w f.length s chain s1) (hn : readNotice f = some n)
    (hbad : ok = false ∨ f.length ≠ n.bodyLength + 4) :
    exec (.radioDataFrameReceived w 2 i f ok) s = .next (discardWire (.radio w) chain s1) := by
  rw [exec_noticeFrame_of_reads w i ok s hn, receiveNotice_refused h hbad]

/-- A NOTICE frame of no code of the three (R62). -/
theorem exec_noticeFrame_unknown (h : NoticeArrives w f.length s chain s1) (hn : readNotice f = none) :
    exec (.radioDataFrameReceived w 2 i f ok) s = .next (discardWire (.radio w) chain s1) := by
  rw [exec_noticeFrame, receiveNoticeFrame]
  simp only [hn, receivedNotice_refused h]

end

section
variable {w : Fin 4} {i : Byte} {id : Nat} {f : List Byte} {s : State} {k : Fin 256} {st : Station}

theorem sortRadio_unused (hm : typeOf f ≠ typeMgmt) (hi : 64 ≤ i.toNat ∨ s.table.atRadio w i.toNat = none) :
    sortRadio w i id f s = discardFrame .unassociated (.radio w) none none id s := by
  unfold sortRadio
  rw [if_neg hm]
  split
  case isTrue => rfl
  case isFalse h =>
    rw [hi.resolve_left h]

/-- A frame at an index with a record (R63). -/
theorem sortRadio_record (hm : typeOf f ≠ typeMgmt) (hi : i.toNat < 64) (hat : s.table.atRadio w i.toNat = some k)
    (hst : s.station? k = some st) : sortRadio w i id f s =
      if st.addr ≠ srcOf f then discardFrame .origin (.radio w) none none id s
      else if st.isLeaving then discardFrame .purge (.radio w) none (some k) id s
      else upwardIntake k (.radio w) id f.length (netAddr f true) (attributeFrame k id s) := by
  simp only [sortRadio, hm, hat, hst, if_false, if_neg (Nat.not_le.mpr hi)]

end

/-- Settles O21: the receive checks, the association checks and the notices, each by its branch. -/
theorem radioDataIsChecked : Obligations.RadioDataIsChecked := by
  intro w i f ok s chain s1
  refine ⟨fun h ht hm => ?data, fun h => ⟨fun ht => ?hold, fun hm => ?mgmt⟩, fun h => ?bad, fun kind h1 h2 h => ?kinds,
    fun h => ?notices, fun index a check hcheck => ?rows, fun index a len h => ?own⟩
  case data =>
    intro id s2
    have hends : Ends (.radio w) s s2 := (Arrives.ends h).store chain f
    have hexec := exec_radioData (i := i) h (by exact ht)
    have hat : s2.table.atRadio w i.toNat = s.table.atRadio w i.toNat := by rw [hends.table]
    refine ⟨fun hi => ?_, fun hi hno => ?_, fun k st hi hk hst => ?_⟩
    · exact hexec.trans (congrArg _ (sortRadio_unused hm (.inl hi)))
    · exact hexec.trans (congrArg _ (sortRadio_unused hm (.inr (hat.trans hno))))
    have hsort := sortRadio_record (id := id) hm hi (hat.trans hk) ((hends.station k).trans hst)
    have hintake : st.addr = srcOf f → st.isLeaving = false → exec (.radioDataFrameReceived w 1 i f ok) s =
        .next (upwardIntake k (.radio w) id f.length (netAddr f true) (attributeFrame k id s2)) := fun ha hl => by
      rw [hexec, hsort, if_neg (not_not.mpr ha), hl, if_neg Bool.false_ne_true]
    refine ⟨fun ha => ?_, fun ha hl => ?_, hintake, fun ha hl hb hno hfresh => ?_⟩
    · exact hexec.trans (congrArg _ (hsort.trans (if_pos ha)))
    · exact hexec.trans (congrArg _ (hsort.trans ((if_neg (not_not.mpr ha)).trans (if_pos hl))))
    · exact ⟨_, hintake ha hl, attributed_placed (Arrives.ends h) hst hb hno hfresh⟩
  case hold =>
    simp only [exec, execRadioDataFrameReceived, received_of_arrives h, ht, if_true]
  case mgmt =>
    rw [exec_radioData h (by rw [hm]; decide)]
    simp only [sortRadio, hm, if_true]
  case bad =>
    simp only [exec, execRadioDataFrameReceived, received_of_bad h, if_true]
  case kinds =>
    simp only [exec, execRadioDataFrameReceived, h1, h2, if_false, receivedNotice_refused h]
  case notices =>
    intro refused
    refine ⟨fun hcode => ?_, fun rest hf hbad => ?_, fun rest hf hbad => ?_, fun rest hf hbad => ?_⟩
    · refine exec_noticeFrame_unknown h ((readNotice_none_iff f).mpr ?_)
      rcases hcode with rfl | ⟨code, rest, rfl, hcode⟩
      · decide
      · exact hcode
    · exact exec_noticeFrame_refused h (readNotice_associated (by rw [hf]; rfl)) hbad
    · exact exec_noticeFrame_refused h (readNotice_disassociated (by rw [hf]; rfl)) hbad
    · exact exec_noticeFrame_refused h (readNotice_radioStart (by rw [hf]; rfl)) hbad
  case rows =>
    refine ⟨?_, ?_, ?_⟩
    · have hlen : ([1, index] ++ addrBytes a ++ check).length = 12 := by
        simp [addrBytes, beBytes_length, hcheck]
      rw [exec_noticeFrame_of_reads w i ok s (readNotice_associated rfl), addrAt_associated, hlen]
      rfl
    · have hlen : ([2, index] ++ check).length = 6 := by simp [hcheck]
      rw [exec_noticeFrame_of_reads w i ok s (readNotice_disassociated rfl), hlen]
      rfl
    · have hlen : (3 :: check : List Byte).length = 5 := by simp [hcheck]
      rw [exec_noticeFrame_of_reads w i ok s (readNotice_radioStart rfl), hlen]
      rfl
  case own =>
    refine ⟨fun hbad => ?_, fun hbad => ?_, fun hbad => ?_⟩
    · exact congrArg Host.Outcome.next (receiveNotice_refused (n := .associated index a) h hbad)
    · exact congrArg Host.Outcome.next (receiveNotice_refused (n := .disassociated index) h hbad)
    · exact congrArg Host.Outcome.next (receiveNotice_refused (n := .radioStart) h hbad)

end Sys2Proof.Proofs
end

section
/-! What learning makes (R38, R42, R43): a new record, its first frame at upward intake; and the statement on the frames
of unknown addresses. -/

namespace Sys2Proof.Laws

open Sys2Proof Sys2Proof.Machine Sys2Proof.Safety

/-! ## The settings of the Management Unit in the shared operations -/

/-- The report address and the default idle interval stand. -/
def SameSettings (h h' : Hub) : Prop :=
  h'.mgmt.reportAddr = h.mgmt.reportAddr ∧ h'.mgmt.defaultIdle = h.mgmt.defaultIdle

theorem sameSettings_refl (h : Hub) : SameSettings h h := ⟨rfl, rfl⟩

theorem sameSettings_trans {a b c : Hub} (h : SameSettings a b) (g : SameSettings b c) : SameSettings a c :=
  ⟨g.1.trans h.1, g.2.trans h.2⟩

theorem Quiet.settings {h h' : Hub} (q : Quiet h h') : SameSettings h h' := ⟨q.reportAddr, q.defaultIdle⟩

section
variable (k : Fin 256) (p : Port) (s : State)

theorem buildReply_settings {j : Fin 4} {h : ReqHeader} {c : ReplyContent} {s t : State}
    (hb : buildReply j h c s = some t) : SameSettings s.hub t.hub := by
  unfold buildReply at hb
  split at hb
  case h_1 => cases hb
  case h_2 id h1 e hbuilt =>
    have hq := (build_quiet hbuilt).trans (noteEntered_quiet s.sender e h1)
    split at hb <;> cases hb
    · exact sameSettings_trans hq.settings
        (dropRef_quiet s.sender id (Hub.freeSlot j (h1.noteEntered s.sender e))).settings
    · exact hq.settings

theorem fixReply_settings (j : Fin 4) (c : ReplyContent) (b : Bool) : SameSettings s.hub (fixReply j c b s).hub := by
  unfold fixReply
  split
  case h_1 => exact sameSettings_refl _
  case h_2 h _ =>
    simp only
    split
    case isFalse => exact ⟨rfl, rfl⟩
    case isTrue =>
      rcases buildOldest_cases { s with hub := { s.hub with mgmt := { s.hub.mgmt with
        slots := s.hub.mgmt.slots.set j (.reserved h (some c) b)
        waiting := s.hub.mgmt.waiting ++ [j] } } } with he | ⟨k', h', c', he⟩
      · rw [he]
        exact ⟨rfl, rfl⟩
      · obtain ⟨hr, hi⟩ := buildReply_settings he
        exact ⟨hr, hi⟩

theorem discardEntries_settings (r : Discard) (b : Option Port) (ids : List Nat) :
    SameSettings s.hub (discardEntries r b ids s).hub := by
  induction ids generalizing s with
  | nil => exact sameSettings_refl _
  | cons id ids ih => exact sameSettings_trans (discardEntry_quietHub r b id s).settings (ih _)

theorem purgeEgress_settings (o : Origin) : SameSettings s.hub (purgeEgress k o s).hub := by
  cases o with
  | seat n => exact discardEntries_settings (onPorts (Ports.modSeat n _) s) _ _ _
  | radio w i => exact discardEntries_settings (onPorts (Ports.modRadio w _) s) _ _ _

theorem purgeUpward_settings : SameSettings s.hub (purgeUpward k s).hub := by
  obtain ⟨ids, b, hh, -, hu⟩ := purgeUpward_eq k s
  rw [hu]
  exact hh ▸ discardEntries_settings b _ _ _

theorem beginRemoval_settings (st : Station) (why : Reason) : SameSettings s.hub (beginRemoval k st why s).hub := by
  have h : SameSettings s.hub (purgeEgress k st.origin (purgeUpward k s)).hub :=
    sameSettings_trans (purgeUpward_settings k s) (purgeEgress_settings k _ _)
  unfold beginRemoval
  simp only
  split
  · split <;> exact h
  · exact h

theorem freeRecord_settings (why : Reason) : SameSettings s.hub (freeRecord k why s).hub := by
  unfold freeRecord
  split
  case h_1 => exact sameSettings_refl _
  case h_2 st hst =>
    simp only
    have htold : SameSettings s.hub (if why = .released then s
        else raiseNotice (.stationGone k st.cls st.origin st.addr why st.ctr st.allowance) s).hub := by
      split
      · exact sameSettings_refl _
      · exact (raise_quiet _ _ _).settings
    show SameSettings s.hub (emptySlot k _).hub
    split
    · exact htold
    · exact sameSettings_trans htold (fixReply_settings _ _ _ _)

theorem removeRecord_settings (why : Reason) : SameSettings s.hub (removeRecord k why s).hub := by
  unfold removeRecord
  split
  case h_1 => exact sameSettings_refl _
  case h_2 st hst =>
    split
    · exact sameSettings_refl _
    · split
      · exact beginRemoval_settings k s st why
      · exact sameSettings_trans (beginRemoval_settings k s st why) (freeRecord_settings k _ why)

theorem needCell_settings (chain : List Nat) : SameSettings s.hub (needCell p chain s).hub := by
  unfold needCell
  split
  · exact (giveBack_quiet s.sender [] chain (s.hub.tally .noCells)).settings
  · exact (noteEntered_quiet s.sender _ _).settings

theorem takeOneCell_settings : SameSettings s.hub (takeOneCell p s).hub := by
  unfold takeOneCell
  split
  · exact needCell_settings p s _
  · exact needCell_settings p s _
  · exact sameSettings_refl _

theorem takeMissing_settings (n : Nat) : SameSettings s.hub (takeMissing p n s).hub := by
  induction n generalizing s with
  | zero => exact sameSettings_refl _
  | succ n ih => exact sameSettings_trans (takeOneCell_settings p s) (ih _)

theorem endReception_settings (L : Nat) : SameSettings s.hub (endReception p L s).2.hub := by
  have htaken := takeMissing_settings p s (cellsFor L - ((s.ports.unitOf p).rx.chain).length)
  rcases endReception_cases p L s with ⟨h, -⟩ | h <;> rw [h] <;> exact htaken

end

/-! ## The first frame of a record -/

/-- What upward intake makes of a record that is not BARRED, and what it leaves alone (R132, R133). -/
structure TakenIn (k : Fin 256) (st : Station) (L : Nat) (m : Bool) (s t : State) : Prop where
  own : ∃ st', t.station? k = some st' ∧ { st' with ctr := st.ctr, upq := st.upq } = st ∧
    (st'.ctr = st.ctr.countUp L m ∨ st'.ctr = st.drop.ctr ∧ st'.upq = st.upq)
  others : ∀ j, j ≠ k → t.station? j = s.station? j
  held : t.table.held = s.table.held
  ports : SameQueues s.ports t.ports
  sched : t.sched = s.sched
  consist : t.consist = s.consist
  hold : t.hold = s.hold

theorem discardFrame_takenIn {k : Fin 256} {s : State} {st : Station} (why : Discard) (p : Port) (b : Option Port)
    (id L : Nat) (m : Bool) (hst : s.station? k = some st) :
    TakenIn k st L m s (discardFrame why p b (some k) id s) where
  own := ⟨st.drop, modStation_own hst _, rfl, .inr ⟨rfl, rfl⟩⟩
  others _ hj := station?_modStation_ne _ _ hj
  held := rfl
  ports := (count_sameQueues _ _ _).trans (count?_sameQueues _ _ _)
  sched := rfl
  consist := rfl
  hold := rfl

theorem upwardIntake_takenIn {k : Fin 256} {s : State} {st : Station} (p : Port) (id L : Nat) (addr : Option NetAddr)
    (hst : s.station? k = some st) (hb : ∀ b, st.state ≠ .barred b) :
    TakenIn k st L (classify s.windows st true addr).metered s (upwardIntake k p id L addr s) := by
  cases hw : upwardDiscard (countClassified true (classify s.windows st true addr) s) st
      (classify s.windows st true addr) with
  | some why =>
    rw [upwardIntake_discarded hst hb rfl hw]
    obtain ⟨hown, hothers, hheld, hports, hsched, hconsist, hhold⟩ := discardFrame_takenIn
      (s := countClassified true (classify s.windows st true addr) s) why p
      (if why = .shed then s.consist.lead.map Port.backbone else none) id L (classify s.windows st true addr).metered hst
    exact ⟨hown, hothers, hheld, hports, hsched, hconsist, hhold⟩
  | none =>
    rw [upwardIntake_enters hst hb rfl hw]
    exact ⟨⟨_, modStation_own (show s.table.station? k = some st from hst) _, rfl, .inl rfl⟩,
      fun j hj => station?_modStation_ne _ _ hj, rfl, .refl _, rfl, rfl, rfl⟩

theorem attributeFrame_held {k : Fin 256} {s : State} {st : Station} (id : Nat) (hst : s.station? k = some st) :
    (attributeFrame k id s).table.held = if st.state = .held then toHeldEnd k s.table.held else s.table.held := by
  simp only [attributeFrame, hst]

theorem toHeldEnd_toHeldEnd (k : Fin 256) (l : List (Fin 256)) : toHeldEnd k (toHeldEnd k l) = toHeldEnd k l := by
  simp [toHeldEnd, List.filter_append, List.filter_filter]

/-- What learning makes in a slot (R38, R42), after the first frame. -/
structure LearnedIn (k : Fin 256) (new : Station) (u t : State) : Prop where
  own : ∃ st, t.station? k = some st ∧ { st with ctr := {}, upq := [] } = new ∧ st.ctr.downFrames = 0 ∧
    (st.ctr.upFrames = 1 ∧ st.ctr.drops = 0 ∨ st.ctr.upFrames = 0 ∧ st.ctr.drops = 1 ∧ st.upq = [])
  others : ∀ j, j ≠ k → t.station? j = u.station? j
  held : t.table.held = if new.state = .held then toHeldEnd k u.table.held else u.table.held
  ports : SameQueues u.ports t.ports
  sched : t.sched = u.sched
  consist : t.consist = u.consist
  hold : t.hold = u.hold

theorem fillSlot_station (k : Fin 256) (a : LinkAddr) (c : StationClass) (x : StationState) (o : Origin) (u : State) :
    (fillSlot k a c x o u).station? k = some (newStation a c x o u.hub.mgmt.defaultIdle u.now) :=
  station?_set_self _ _ _ _

theorem fillSlot_station_ne {k j : Fin 256} (a : LinkAddr) (c : StationClass) (x : StationState) (o : Origin) (u : State)
    (hj : j ≠ k) : (fillSlot k a c x o u).station? j = u.station? j := by
  have hval : k.val ≠ j.val := fun e => hj (Fin.ext e.symm)
  simp [fillSlot, State.station?, StationTable.station?, hval]

theorem fillSlot_learned (k : Fin 256) (a : LinkAddr) (c : StationClass) {x : StationState} (o : Origin) (u : State)
    (p : Port) (id L : Nat) (addr : Option NetAddr) (hx : ∀ b, x ≠ .barred b) :
    LearnedIn k (newStation a c x o u.hub.mgmt.defaultIdle u.now) u
      (upwardIntake k p id L addr (attributeFrame k id (fillSlot k a c x o u))) := by
  have hfilled := fillSlot_station k a c x o u
  have htouched : (attributeFrame k id (fillSlot k a c x o u)).station? k =
      some (newStation a c x o u.hub.mgmt.defaultIdle u.now) := modStation_own hfilled _
  have htaken := upwardIntake_takenIn p id L addr htouched hx
  obtain ⟨st', hst', hsame, hctr⟩ := htaken.own
  refine ⟨⟨st', hst', hsame, ?_⟩, fun j hj => ?_, ?_, htaken.ports, htaken.sched, htaken.consist, htaken.hold⟩
  · rcases hctr with h | ⟨h, hq⟩
    · rw [h]
      exact ⟨rfl, .inl ⟨rfl, rfl⟩⟩
    · rw [h]
      exact ⟨rfl, .inr ⟨rfl, rfl, hq⟩⟩
  · rw [htaken.others j hj, ← fillSlot_station_ne a c x o u hj]
    exact station?_modStation_ne _ _ hj
  · rw [htaken.held]
    refine (attributeFrame_held id hfilled).trans ?_
    show (if x = StationState.held then
        toHeldEnd k (if x = StationState.held then toHeldEnd k u.table.held else u.table.held)
      else if x = StationState.held then toHeldEnd k u.table.held else u.table.held) =
        if x = StationState.held then toHeldEnd k u.table.held else u.table.held
    split
    · rw [toHeldEnd_toHeldEnd]
    · rfl

end Sys2Proof.Laws

namespace Sys2Proof.Proofs

open Sys2Proof Sys2Proof.Machine Sys2Proof.Safety Sys2Proof.Laws

theorem learns_not_barred (d : Designation) (b : Admission) : d.learns.2 ≠ .barred b := by
  cases d <;> simp [Designation.learns]

section
variable {n : Fin 32} {f : List Byte} {ok : Bool} {s s1 : State} {chain : List Nat}

/-- A frame from an unknown address (R42). -/
theorem exec_seatFrame_unknown (h : Arrives (.seat n) f ok s chain s1) (ht : typeOf f ≠ typeHold)
    (hm : typeOf f ≠ typeMgmt) (hg : isGroup (srcOf f) = false) (ha : s.table.byAddr (srcOf f) = none) :
    exec (.seatFrameReceived n f ok) s = .next (learn n (chain.headD 0) f (storeFrame (.seat n) chain f s1)) := by
  have hends := (Arrives.ends h).store chain f
  rw [exec_seatFrame h ht]
  simp only [sortSeat, hm, hg, hends.table, ha, if_false, Bool.false_eq_true]

end

section
variable {n : Fin 32} {id : Nat} {f : List Byte} {s : State}

theorem learn_crowded (h : 2 ≤ (s.table.onSeat n).length) :
    learn n id f s = discardFrame .portCrowded (.seat n) none none id s := if_pos h

/-- A record is made (R42, R43). -/
theorem learn_creates {k : Fin 256} {u : State} {d : Designation} (h : (s.table.onSeat n).length < 2)
    (hd : (s.ports.seats[n]).designation = d)
    (hc : createRecord (srcOf f) d.learns.1 d.learns.2 (.seat n) s =
      (some k, fillSlot k (srcOf f) d.learns.1 d.learns.2 (.seat n) u)) : learn n id f s =
      upwardIntake k (.seat n) id f.length (netAddr f true)
        (attributeFrame k id (fillSlot k (srcOf f) d.learns.1 d.learns.2 (.seat n) u)) := by
  subst hd
  unfold learn
  rw [if_neg (Nat.not_le.mpr h)]
  simp only [hc]

theorem learn_fails {d : Designation} (h : (s.table.onSeat n).length < 2) (hd : (s.ports.seats[n]).designation = d)
    (hc : createRecord (srcOf f) d.learns.1 d.learns.2 (.seat n) s = (none, failCreation (srcOf f) (.seat n) s)) :
    learn n id f s = discardFrame .tableFull (.seat n) none none id (failCreation (srcOf f) (.seat n) s) := by
  subst hd
  unfold learn
  rw [if_neg (Nat.not_le.mpr h)]
  simp only [hc]

end

section
variable {a : LinkAddr} {c : StationClass} {x : StationState} {o : Origin} {s : State} {k : Fin 256}

theorem createRecord_empty (h : s.table.emptySlot? = some k) :
    createRecord a c x o s = (some k, fillSlot k a c x o s) := by
  simp only [createRecord, h]

theorem createRecord_evicts (h : s.table.emptySlot? = none) (hv : evictable s = some k) :
    createRecord a c x o s = (some k, fillSlot k a c x o (removeRecord k .evicted s)) := by
  simp only [createRecord, h, hv]

theorem createRecord_fails (h : s.table.emptySlot? = none) (hv : evictable s = none) :
    createRecord a c x o s = (none, failCreation a o s) := by
  simp only [createRecord, h, hv]

end

/-- Settles O18, by where a slot is found, and by the type code of what no record sends. -/
theorem seatFrameIsLearned : Obligations.SeatFrameIsLearned := by
  refine ⟨?learns, ?refuses⟩
  case learns =>
    intro n f ok s chain s1 h ht hm hg ha id s2 command learns new learned made
    have hends : Ends (.seat n) s s2 := (Arrives.ends h).store chain f
    have hexec := exec_seatFrame_unknown h ht hm hg ha
    have hidle : s2.hub.mgmt.defaultIdle = s.hub.mgmt.defaultIdle := by
      have hsettings := endReception_settings (.seat n) s f.length
      rw [h.2.1] at hsettings
      exact hsettings.2
    have hd : (s2.ports.seats[n]).designation = (s.ports.seats[n]).designation :=
      receptionOnly_designation hends.ports n
    have hcount : (s2.table.onSeat n).length = (s.table.onSeat n).length := by rw [hends.table]
    have hfilled : ∀ (k : Fin 256) (u : State), u.hub.mgmt.defaultIdle = s.hub.mgmt.defaultIdle → u.now = s.now →
        upwardIntake k (.seat n) id f.length (netAddr f true)
          (attributeFrame k id (fillSlot k (srcOf f) learns.1 learns.2 (.seat n) u)) = learned k u ∧
        LearnedIn k new u (learned k u) := by
      intro k u hi hn
      have hl := fillSlot_learned k (srcOf f) learns.1 (.seat n) u (.seat n) id f.length (netAddr f true)
        (learns_not_barred (s.ports.seats[n]).designation)
      have he : upwardIntake k (.seat n) id f.length (netAddr f true)
          (attributeFrame k id (fillSlot k (srcOf f) learns.1 learns.2 (.seat n) u)) = learned k u := by
        simp only [fillSlot, hi, hn, learned, new, toHeldEnd]
      rw [hi, hn, he] at hl
      exact ⟨he, hl⟩
    refine ⟨fun k hroom hk => ?_, fun v V hroom hfull hv hV hl => ?_, fun hroom hfull hv => ?_, fun hcrowded => ?_⟩
    · obtain ⟨he, hl⟩ := hfilled k s2 hidle hends.kept.now
      have hcreate := learn_creates (id := id) (f := f) (hcount ▸ hroom) hd (createRecord_empty (hends.table ▸ hk))
      refine ⟨learned k s2, hexec.trans (congrArg _ (hcreate.trans he)), ?_, rfl,
        fun j hj => (hl.others j hj).trans (hends.station j)⟩
      obtain ⟨st, hst, hnew, hdown, hup⟩ := hl.own
      refine ⟨st, hst, hnew, hdown, hup, ?_, hl.sched.trans hends.kept.sched, hl.consist.trans hends.kept.consist,
        hl.hold.trans hends.kept.hold⟩
      rw [hl.held, hends.table, hk, if_neg (show ¬ some k = none from Option.some_ne_none k)]
      rfl
    · have hremoved := removeRecord_removed .evicted ((hends.station v).trans hV) hl
      have hframe := Removed.frame hremoved
      obtain ⟨he, hl⟩ := hfilled v (removeRecord v .evicted s2)
        ((removeRecord_settings v s2 .evicted).2.trans hidle) (hframe.now.trans hends.kept.now)
      have hcreate := learn_creates (id := id) (f := f) (hcount ▸ hroom) hd
        (createRecord_evicts (hends.table ▸ hfull) hv)
      refine ⟨learned v (removeRecord v .evicted s2), hexec.trans (congrArg _ (hcreate.trans he)), ?_,
        ⟨_, hremoved, rfl⟩, fun j st hj hst => ?_, fun w i ho => ?_⟩
      · obtain ⟨st, hst, hnew, hdown, hup⟩ := hl.own
        refine ⟨st, hst, hnew, hdown, hup, ?_, (hl.sched.trans hframe.sched).trans hends.kept.sched,
          (hl.consist.trans hframe.consist).trans hends.kept.consist, (hl.hold.trans hframe.hold).trans hends.kept.hold⟩
        rw [hl.held, hframe.held, hends.table, hfull, if_pos rfl, toHeldEnd, List.filter_filter]
        simp only [Bool.and_self]
        rfl
      · obtain ⟨st', hst', happart⟩ := hframe.others j st hj ((hends.station j).trans hst)
        exact ⟨st', (hl.others j hj).trans hst', happart⟩
      · rw [hl.ports.orders w, hframe.orders w i ho (.inr (.inl rfl))]
        obtain ⟨r, c, hports⟩ := hends.ports
        rw [hports]
        rfl
    · exact hexec.trans (congrArg _ (learn_fails (id := id) (f := f) (hcount ▸ hroom) hd (createRecord_fails (hends.table ▸ hfull) hv)))
    · exact hexec.trans (congrArg _ (learn_crowded (hcount ▸ hcrowded)))
  case refuses =>
    intro n f ok s chain s1 s2 command out
    refine ⟨fun h => ?_, fun h => ⟨fun ht => ?_, fun hm hno => ?_, fun ht hm hg => ?_⟩⟩
    · simp only [command, exec, execSeatFrameReceived, received_of_bad h]
    · simp only [command, exec, execSeatFrameReceived, received_of_arrives h, ht, if_true]
    · have hends : Ends (.seat n) s s2 := (Arrives.ends h).store chain f
      refine (exec_seatFrame h (by rw [hm]; decide)).trans (congrArg _ ?_)
      unfold sortSeat
      rw [if_pos hm, if_neg]
      rintro ⟨hcrew, haddr⟩
      rw [receptionOnly_designation hends.ports] at hcrew
      rw [hends.kept.identity] at haddr
      exact hno.elim (fun h => h hcrew) (fun h => h haddr)
    · refine (exec_seatFrame h ht).trans (congrArg _ ?_)
      simp only [sortSeat, hm, hg, if_true, if_false, s2]

end Sys2Proof.Proofs
end

section
/-! SUPPORT. The removal of several records one after another (R2, R3, R12, R52, R71): which are gone, which are LEAVING
behind their frames, and what the removals leave alone. -/

namespace Sys2Proof.Laws

open Sys2Proof Sys2Proof.Machine Sys2Proof.Safety

/-! ## The slots of a port -/

theorem mem_slotsWhere {t : StationTable} {test : Station → Bool} {k : Fin 256} :
    k ∈ t.slotsWhere test ↔ ∃ st, t.station? k = some st ∧ test st = true := by
  simp only [StationTable.slotsWhere, List.mem_filter, List.mem_finRange, true_and]
  cases h : t.slots[k] <;> simp [StationTable.station?, h]

/-! ## A frame that stays its record's -/

/-- The stored frame `id` is the record's of slot `j` still (R24). -/
def OwnerKept (id : Nat) (j : Fin 256) (c c' : CellMemory) : Prop := c.owner id = some j → c'.owner id = some j

section
variable {id : Nat} {j : Fin 256} {a b c : CellMemory}

theorem ownerKept_refl : OwnerKept id j c c := fun h => h

theorem ownerKept_trans (h : OwnerKept id j a b) (g : OwnerKept id j b c) : OwnerKept id j a c := fun ho => g (h ho)

/-- Frames stored after it do not take its place. -/
theorem ownerKept_append {new : List FrameRec} (h : b.frames = a.frames ++ new) : OwnerKept id j a b := fun ho => by
  obtain ⟨f, hf, hst⟩ := Option.bind_eq_some_iff.mp ho
  refine Option.bind_eq_some_iff.mpr ⟨f, ?_, hst⟩
  rw [CellMemory.frame?, h, List.find?_append, show a.frames.find? (fun f => f.id == id) = some f from hf, Option.some_or]

theorem AddsNotices.ownerKept {h h' : Hub} (n : AddsNotices h h') : OwnerKept id j h.cells h'.cells := by
  obtain ⟨new, hframes, -, -⟩ := n
  exact ownerKept_append hframes

theorem noteEntered_ownerKept (sd : Sender) (e : Option Nat) (h : Hub) :
    OwnerKept id j h.cells (h.noteEntered sd e).cells := by
  cases e with
  | none => exact ownerKept_refl
  | some held => exact ((AddsNotices.sameCells (flag_cells _ _)).trans (raiseCore_adds sd _ _)).ownerKept

/-- A reply that is built takes cells of the stack, and so not those of another frame. -/
theorem buildReply_ownerKept {k : Fin 4} {h : ReqHeader} {r : ReplyContent} {s t : State}
    (hb : buildReply k h r s = some t) (hfree : id ∉ s.hub.cells.free) : OwnerKept id j s.hub.cells t.hub.cells := by
  unfold buildReply at hb
  split at hb
  case h_1 => cases hb
  case h_2 id' h1 e hbuilt =>
    obtain ⟨chain, hchain, henough, hid, -, -, hframes, -⟩ := build_spec hbuilt
    have hkept : OwnerKept id j s.hub.cells (h1.noteEntered s.sender e).cells :=
      ownerKept_trans (ownerKept_append hframes) (noteEntered_ownerKept s.sender e h1)
    have hne : id ≠ id' := by
      rintro rfl
      have hpos : 0 < chain.length := by
        rw [hchain, List.length_take]
        have := @cellsFor_pos (replyBytes s h r).length
        omega
      cases chain with
      | nil => cases hpos
      | cons x xs =>
        have hmem : x ∈ s.hub.cells.free := List.mem_of_mem_take (hchain ▸ List.mem_cons_self)
        rw [List.headD_cons] at hid
        exact hfree (hid ▸ hmem)
    split at hb <;> cases hb
    · exact fun ho => (dropRef_owner_ne s.sender (Hub.freeSlot k (h1.noteEntered s.sender e)) hne).trans (hkept ho)
    · exact hkept

theorem fixReply_ownerKept (k : Fin 4) (r : ReplyContent) (blocking : Bool) {s : State}
    (hfree : id ∉ s.hub.cells.free) : OwnerKept id j s.hub.cells (fixReply k r blocking s).hub.cells := by
  rcases fixReply_cases k r blocking s with h | ⟨m, h | h⟩ <;> rw [h]
  · exact ownerKept_refl
  · exact ownerKept_refl
  · rcases buildOldest_cases { s with hub := { s.hub with mgmt := m } } with h | ⟨k', h', c', hb⟩
    · rw [h]
      exact ownerKept_refl
    · exact fun ho => buildReply_ownerKept hb (by exact hfree) (by exact ho)

theorem discardEntries_ownerKept (r : Discard) (p : Option Port) {ids : List Nat} (s : State) (hid : id ∉ ids) :
    OwnerKept id j s.hub.cells (discardEntries r p ids s).hub.cells :=
  fun ho => (discardEntries_owner_ne r p s hid).trans ho

/-- A stored frame stands in no cell of the stack (R20). -/
theorem not_mem_free_of_owner {R : List Nat} (h : Stocked c R) (ho : c.owner id = some j) : id ∉ c.free := by
  obtain ⟨f, hf, -⟩ := Option.bind_eq_some_iff.mp ho
  obtain ⟨hmem, rfl⟩ := frame?_mem hf
  intro hfree
  have hcell : f.id ∈ frameCells c := by
    obtain ⟨hne, -⟩ := h.chains f hmem
    cases hch : f.chain with
    | nil => exact absurd hch hne
    | cons x xs =>
      refine List.mem_flatMap.mpr ⟨f, hmem, ?_⟩
      rw [FrameRec.id, hch]
      exact List.mem_cons_self
  have hnodup := h.nodup
  rw [List.append_assoc, List.append_assoc, List.nodup_append] at hnodup
  exact hnodup.2.2 _ hfree _ (List.mem_append_left _ hcell) rfl

end

/-! ## A frame on the air, in no queue -/

/-- The egress queues lose entries at most. -/
structure Shrinks (s t : State) : Prop where
  seats : ∀ n : Fin 32, ((t.ports.seats[n]).egress).Sublist (s.ports.seats[n]).egress
  radios : ∀ w : Fin 4, ((t.ports.radios[w]).egress).Sublist (s.ports.radios[w]).egress

theorem Shrinks.trans {a b c : State} (h : Shrinks a b) (g : Shrinks b c) : Shrinks a c :=
  ⟨fun n => (g.seats n).trans (h.seats n), fun w => (g.radios w).trans (h.radios w)⟩

theorem SameEgress.shrinks {s t : State} (h : SameEgress s t) : Shrinks s t :=
  ⟨fun n => by rw [h.seat n], fun w => by rw [h.radio w]⟩

section
variable {k j : Fin 256} {id : Nat} {s : State} {st : Station}

theorem beginRemoval_shrinks (why : Reason) : Shrinks s (beginRemoval k st why s) := by
  have hgone := beginRemoval_gone (s := s) (k := k) (st := st) why
  have honly := beginRemoval_only k s st why
  refine ⟨fun n => ?_, fun w => ?_⟩
  · by_cases ho : st.origin.port = .seat n
    · have hs : st.origin = .seat n := by
        cases hor : st.origin with
        | seat m => rw [hor] at ho; injection ho with h; rw [h]
        | radio v i => rw [hor] at ho; cases ho
      exact (hgone.seat n hs).1
    · exact ((congrArg SeatPort.egress (honly.seats n (fun h => ho h.symm)) :) :
        ((beginRemoval k st why s).ports.seats[n]).egress = _) ▸ List.Sublist.refl _
  · by_cases ho : st.origin.port = .radio w
    · cases hor : st.origin with
      | seat m => rw [hor] at ho; cases ho
      | radio v i =>
        rw [hor] at ho
        injection ho with h
        subst h
        exact (hgone.radio v i hor).1
    · exact ((congrArg RadioLink.egress (honly.radios w (fun h => ho h.symm)) :) :
        ((beginRemoval k st why s).ports.radios[w]).egress = _) ▸ List.Sublist.refl _

theorem removeRecord_shrinks (why : Reason) : Shrinks s (removeRecord k why s) := by
  unfold removeRecord
  split
  case h_1 => exact (SameEgress.ofPorts rfl).shrinks
  case h_2 st hst =>
    split
    · exact (SameEgress.ofPorts rfl).shrinks
    · split
      · exact ⟨(beginRemoval_shrinks why).seats, (beginRemoval_shrinks why).radios⟩
      · exact (beginRemoval_shrinks why).trans (freeRecord_sameQueues k _ why).egress.shrinks

/-- No record comes to be in a removal. -/
theorem removeRecord_absent (why : Reason) (hn : s.station? j = none) : (removeRecord k why s).station? j = none := by
  have hback : ∀ {o : Option Station}, o.map standing = (s.station? j).map standing → o = none := fun h => by
    rwa [hn, Option.map_none, Option.map_eq_none_iff] at h
  unfold removeRecord
  split
  case h_1 => exact hn
  case h_2 st hst =>
    have hjk : j ≠ k := by
      rintro rfl
      rw [hn] at hst
      cases hst
    have hbegun : Unlisted [] k s (beginRemoval k st why s) := beginRemoval_unlisted why hst
    split
    · exact hn
    · split
      · exact (setStationState_ne _ hjk).trans (hback (hbegun.records j))
      · obtain ⟨st', hst', -⟩ := hbegun.station hst
        obtain ⟨v, hv, he⟩ := freeRecord_empties (L := []) why hst'
        simp only
        rw [he, emptySlot_ne hjk]
        exact hback ((hv.records j).trans (hbegun.records j))

/-- The records behind a removal: their origins stand, and their upward queues but for that of the one removed. -/
theorem removeRecord_record (why : Reason) {i : Fin 256} {st' : Station}
    (h : (removeRecord k why s).station? i = some st') : ∃ st, s.station? i = some st ∧ st'.origin = st.origin ∧
      (st'.upq = [] ∨ st'.upq = st.upq) := by
  cases hi : s.station? i with
  | none =>
    rw [removeRecord_absent why hi] at h
    cases h
  | some r =>
    by_cases hl : ∀ st, s.station? k = some st → st.isLeaving = true
    · rw [removeRecord_leaving why hl, hi] at h
      obtain rfl := Option.some.inj h
      exact ⟨r, rfl, rfl, .inr rfl⟩
    · obtain ⟨st, hst, hnot⟩ : ∃ st, s.station? k = some st ∧ ¬ st.isLeaving = true := by simpa using hl
      have hframe := Removed.frame (removeRecord_removed why hst (Bool.not_eq_true _ ▸ hnot))
      by_cases hik : i = k
      · subst hik
        obtain rfl := Option.some.inj (hst.symm.trans hi)
        cases hf : inFlight s i with
        | true =>
          obtain ⟨st'', hst'', happart⟩ := hframe.leaving hf
          obtain rfl := Option.some.inj (h.symm.trans hst'')
          exact ⟨st, rfl, (congrArg Station.origin happart :), .inl (congrArg Station.upq happart :)⟩
        | false =>
          rw [hframe.freed hf] at h
          cases h
      · obtain ⟨r', hr', happart⟩ := hframe.others i r hik hi
        obtain rfl := Option.some.inj (h.symm.trans hr')
        exact ⟨r, rfl, (congrArg Station.origin happart :), .inr (congrArg Station.upq happart :)⟩

/-- Another record, or one LEAVING already, is as it was but for its drops (R52, R55). -/
theorem removeRecord_others (why : Reason) {r : Station} (hr : s.station? j = some r)
    (h : j ≠ k ∨ r.isLeaving = true) :
    ∃ r', (removeRecord k why s).station? j = some r' ∧ apartFromDrops r' = apartFromDrops r := by
  by_cases hl : ∀ st, s.station? k = some st → st.isLeaving = true
  · rw [removeRecord_leaving why hl]
    exact ⟨r, hr, rfl⟩
  · obtain ⟨st, hst, hnot⟩ : ∃ st, s.station? k = some st ∧ ¬ st.isLeaving = true := by simpa using hl
    have hjk : j ≠ k := h.elim id fun hleaving => by
      rintro rfl
      exact hnot (Option.some.inj (hr.symm.trans hst) ▸ hleaving)
    exact (Removed.frame (removeRecord_removed why hst (Bool.not_eq_true _ ▸ hnot))).others j r hjk hr

/-- The frame `id` is the record's of slot `j`, in transmission on a backbone end, and in no queue of a record or of an
attachment port (R52). -/
structure OnAir (id : Nat) (j : Fin 256) (s : State) : Prop where
  air : ∃ x, (s.ports.endOf x).unit.tx = some (.frame id)
  owner : s.hub.cells.owner id = some j
  seats : ∀ n : Fin 32, id ∉ (s.ports.seats[n]).egress
  radios : ∀ w : Fin 4, id ∉ (s.ports.radios[w]).egress.map (·.id)
  upward : ∀ i st, s.station? i = some st → id ∉ st.upq

theorem OnAir.inFlight (h : OnAir id j s) : inFlight s j = true :=
  inFlight_iff.mpr (h.air.imp fun _ hx => ⟨id, hx, h.owner⟩)

theorem purgeEgress_ownerKept (o : Origin) (hseats : ∀ n : Fin 32, id ∉ (s.ports.seats[n]).egress)
    (hradios : ∀ w : Fin 4, id ∉ (s.ports.radios[w]).egress.map (·.id)) :
    OwnerKept id j s.hub.cells (purgeEgress k o s).hub.cells := by
  cases o with
  | seat n => exact discardEntries_ownerKept _ _ (onPorts _ s) (fun h => hseats n (List.mem_filter.mp h).1)
  | radio w i => exact discardEntries_ownerKept _ _ (onPorts _ s) (fun h => hradios w (List.mem_filter.mp h).1)

theorem purgeUpward_ownerKept (hup : ∀ st, s.station? k = some st → id ∉ st.upq) :
    OwnerKept id j s.hub.cells (purgeUpward k s).hub.cells := by
  unfold purgeUpward
  refine discardEntries_ownerKept _ _ { s with
    table := s.table.modStation k (fun st => { st with upq := [] })
    up := { s.up with run := endRun k s.up.run } } ?_
  split
  case h_1 st hst => exact hup st hst
  case h_2 => exact List.not_mem_nil

theorem beginRemoval_ownerKept (why : Reason) (h : OnAir id j s) :
    OwnerKept id j s.hub.cells (beginRemoval k st why s).hub.cells := by
  have hq := purgeUpward_sameQueues k s
  have hpurged : OwnerKept id j s.hub.cells (purgeEgress k st.origin (purgeUpward k s)).hub.cells :=
    ownerKept_trans (purgeUpward_ownerKept (h.upward k)) (purgeEgress_ownerKept st.origin
      (fun n => hq.seat n ▸ h.seats n) (fun w => hq.radio w ▸ h.radios w))
  unfold beginRemoval
  simp only
  split
  · split <;> exact hpurged
  · exact hpurged

theorem disown_ownerKept (onboard : List Nat) (c : CellMemory) (hj : j ≠ k) : OwnerKept id j c (c.disown k onboard) := by
  intro ho
  obtain ⟨f, hf, hst⟩ := Option.bind_eq_some_iff.mp ho
  refine Option.bind_eq_some_iff.mpr ⟨f, ?_, hst⟩
  have hid : ∀ g : FrameRec, (if g.station = some k ∧ g.id ∈ onboard then { g with station := none } else g).id = g.id := by
    intro g
    split <;> rfl
  simp only [CellMemory.disown, CellMemory.frame?, List.find?_map]
  rw [show ((fun f : FrameRec => f.id == id) ∘ fun f : FrameRec =>
      if f.station = some k ∧ f.id ∈ onboard then { f with station := none } else f) = fun f => f.id == id from
    funext fun g => by simp only [Function.comp, hid], show c.frames.find? (fun f => f.id == id) = some f from hf,
    Option.map_some, if_neg]
  rintro ⟨hk, -⟩
  exact hj (Option.some.inj (hst.symm.trans hk))

theorem freeRecord_ownerKept {L : List Nat} (why : Reason) (hc : CellsWith L s) (hj : j ≠ k) :
    OwnerKept id j s.hub.cells (freeRecord k why s).hub.cells := by
  unfold freeRecord
  split
  case h_1 => exact ownerKept_refl
  case h_2 st hst =>
    simp only
    have htold : Calm L L s (if why = .released then s
        else raiseNotice (.stationGone k st.cls st.origin st.addr why st.ctr st.allowance) s) := by
      split
      · exact .refl L s
      · exact raiseNotice_calm s _
    have hkept : OwnerKept id j s.hub.cells (if why = .released then s
        else raiseNotice (.stationGone k st.cls st.origin st.addr why st.ctr st.allowance) s).hub.cells := by
      split
      · exact ownerKept_refl
      · exact (raise_adds _ _ _).ownerKept
    refine ownerKept_trans (b := State.hub _ |>.cells) ?_ (disown_ownerKept _ _ hj)
    split
    · exact hkept
    · exact fun ho => fixReply_ownerKept _ _ _ (not_mem_free_of_owner (htold.cells hc) (hkept ho)) (hkept ho)

/-- A frame on the air stays there, and its record's, at the removal of another record. -/
theorem removeRecord_onAir {L : List Nat} (why : Reason) (h : OnAir id j s) (hc : CellsWith L s) (hj : j ≠ k) :
    OnAir id j (removeRecord k why s) := by
  have howner : OwnerKept id j s.hub.cells (removeRecord k why s).hub.cells := by
    unfold removeRecord
    split
    case h_1 => exact ownerKept_refl
    case h_2 st hst =>
      have hbegun := beginRemoval_ownerKept (k := k) (st := st) why h
      split
      · exact ownerKept_refl
      · split
        · exact hbegun
        · exact ownerKept_trans hbegun (freeRecord_ownerKept why ((beginRemoval_unlisted why hst).cells hc) hj)
  have honly : QueuesOnly (fun _ => True) s.ports (removeRecord k why s).ports :=
    removeRecord_only k s why (fun _ _ => trivial)
  have hshrinks := removeRecord_shrinks (s := s) (k := k) why
  refine ⟨h.air.imp fun x hx => (honly.tx (.backbone x)).trans hx, howner h.owner,
    fun n hn => h.seats n ((hshrinks.seats n).subset hn),
    fun w hw => h.radios w (((hshrinks.radios w).map _).subset hw), fun i st' hst' => ?_⟩
  obtain ⟨st, hst, -, hq⟩ := removeRecord_record why hst'
  rcases hq with hq | hq <;> rw [hq]
  · exact List.not_mem_nil
  · exact h.upward i st hst

end

/-! ## One removal after another -/

section
variable {j k : Fin 256} {ks : List (Fin 256)} {s : State} {r : Station}

theorem isLeaving_of_apart {a b : Station} (h : apartFromDrops a = apartFromDrops b) : a.isLeaving = b.isLeaving :=
  (congrArg Station.isLeaving h :)

theorem removeRecords_cons (why : Reason) (k : Fin 256) (ks : List (Fin 256)) (s : State) :
    removeRecords why (k :: ks) s = removeRecords why ks (removeRecord k why s) := rfl

theorem removeRecords_absent (why : Reason) (ks : List (Fin 256)) (h : s.station? j = none) :
    (removeRecords why ks s).station? j = none := by
  induction ks generalizing s with
  | nil => exact h
  | cons k ks ih => exact ih (removeRecord_absent why h)

/-- A record that is not named, or LEAVING already, is as it was but for its drops. -/
theorem removeRecords_others (why : Reason) (hr : s.station? j = some r) (h : j ∉ ks ∨ r.isLeaving = true) :
    ∃ r', (removeRecords why ks s).station? j = some r' ∧ apartFromDrops r' = apartFromDrops r := by
  induction ks generalizing s r with
  | nil => exact ⟨r, hr, rfl⟩
  | cons k ks ih =>
    obtain ⟨r1, hr1, ha1⟩ := removeRecord_others (k := k) why hr (h.imp_left fun hn he => hn (he ▸ List.mem_cons_self))
    obtain ⟨r2, hr2, ha2⟩ := ih hr1 (h.imp (fun hn hm => hn (List.mem_cons_of_mem k hm))
      (fun hl => (isLeaving_of_apart ha1).trans hl))
    exact ⟨r2, hr2, ha2.trans ha1⟩

/-- A record that is named is gone, or LEAVING. -/
theorem removeRecords_isLeaving (why : Reason) (hj : j ∈ ks) (hr : (removeRecords why ks s).station? j = some r) :
    r.isLeaving = true := by
  induction ks generalizing s with
  | nil => cases hj
  | cons k ks ih =>
    by_cases hin : j ∈ ks
    · exact ih hin hr
    · obtain rfl : j = k := (List.mem_cons.mp hj).resolve_right hin
      cases hs : (removeRecord j why s).station? j with
      | none =>
        rw [removeRecords_cons, removeRecords_absent why ks hs] at hr
        cases hr
      | some r1 =>
        have hl := removeRecord_isLeaving hs
        obtain ⟨r2, hr2, ha⟩ := removeRecords_others why hs (ks := ks) (.inr hl)
        obtain rfl := Option.some.inj (hr2.symm.trans hr)
        exact (isLeaving_of_apart ha).trans hl

theorem removeRecords_names (why : Reason) (ks : List (Fin 256)) (s : State) :
    NamesFrom s.hub.cells (removeRecords why ks s).hub.cells := by
  induction ks generalizing s with
  | nil => exact .refl _
  | cons k ks ih => exact (removeRecord_names k s why).trans (ih _)

/-- The ports at the removal of records of the ports in `free` (R52, R53). -/
theorem removeRecords_only (why : Reason) {free : Port → Prop}
    (hf : ∀ k ∈ ks, ∀ st, s.station? k = some st → free st.origin.port) :
    QueuesOnly free s.ports (removeRecords why ks s).ports := by
  induction ks generalizing s with
  | nil => exact .refl _ _
  | cons k ks ih =>
    refine (removeRecord_only k s why (hf k List.mem_cons_self)).trans (ih fun i hi st' hst' => ?_)
    obtain ⟨st, hst, ho, -⟩ := removeRecord_record why hst'
    exact ho ▸ hf i (List.mem_cons_of_mem k hi) st hst

theorem removeRecord_inFlight_before (why : Reason) (h : inFlight (removeRecord k why s) j = true) :
    inFlight s j = true :=
  (removeRecord_only k s why (free := fun _ => True) (fun _ _ => trivial)).inFlight_before (removeRecord_names k s why) h

theorem removeRecords_inFlight_before (why : Reason) (h : inFlight (removeRecords why ks s) j = true) :
    inFlight s j = true :=
  (removeRecords_only (ks := ks) (s := s) why (free := fun _ => True) (fun _ _ _ _ => trivial)).inFlight_before
    (removeRecords_names why ks s) h

/-- A record that is named, with no frame in transmission, is freed. -/
theorem removeRecords_freed (why : Reason) (hj : j ∈ ks) (hr : s.station? j = some r) (hl : r.isLeaving = false)
    (hf : inFlight s j = false) : (removeRecords why ks s).station? j = none := by
  induction ks generalizing s r with
  | nil => cases hj
  | cons k ks ih =>
    by_cases hk : j = k
    · subst hk
      exact removeRecords_absent why ks ((Removed.frame (removeRecord_removed why hr hl)).freed hf)
    · obtain ⟨r1, hr1, ha⟩ := removeRecord_others (k := k) why hr (.inl hk)
      refine ih ((List.mem_cons.mp hj).resolve_left hk) hr1 ((isLeaving_of_apart ha).trans hl) ?_
      exact Bool.eq_false_iff.mpr fun h => Bool.eq_false_iff.mp hf (removeRecord_inFlight_before why h)

/-- The record that a removal behind a frame in transmission makes (R52). -/
def leavingAs (why : Reason) (st : Station) : Station := { st with state := .leaving why, upq := [] }

theorem leavingAs_apart (why : Reason) {a b : Station} (h : apartFromDrops a = apartFromDrops b) :
    apartFromDrops (leavingAs why a) = apartFromDrops (leavingAs why b) :=
  congrArg (leavingAs why) h

/-- Where `j` is removed with its frame in transmission, it is LEAVING from then on. -/
theorem removeRecords_leaves_head (why : Reason) (ks : List (Fin 256)) (hr : s.station? j = some r)
    (hl : r.isLeaving = false) (hf : inFlight s j = true) :
    ∃ r', (removeRecords why (j :: ks) s).station? j = some r' ∧
      apartFromDrops r' = apartFromDrops (leavingAs why r) := by
  obtain ⟨r1, hr1, ha1⟩ := (Removed.frame (removeRecord_removed why hr hl)).leaving hf
  obtain ⟨r2, hr2, ha2⟩ := removeRecords_others why hr1 (ks := ks) (.inr (isLeaving_of_apart ha1))
  exact ⟨r2, hr2, ha2.trans ha1⟩

/-- A record that is named and still has a frame in transmission at the end is LEAVING. -/
theorem removeRecords_leaving_of_after (why : Reason) (hj : j ∈ ks) (hr : s.station? j = some r)
    (hl : r.isLeaving = false) (hf : inFlight (removeRecords why ks s) j = true) :
    ∃ r', (removeRecords why ks s).station? j = some r' ∧ apartFromDrops r' = apartFromDrops (leavingAs why r) := by
  induction ks generalizing s r with
  | nil => cases hj
  | cons k ks ih =>
    by_cases hk : j = k
    · subst hk
      exact removeRecords_leaves_head why ks hr hl
        (removeRecord_inFlight_before why (removeRecords_inFlight_before why hf))
    · obtain ⟨r1, hr1, ha1⟩ := removeRecord_others (k := k) why hr (.inl hk)
      obtain ⟨r2, hr2, ha2⟩ := ih ((List.mem_cons.mp hj).resolve_left hk) hr1 ((isLeaving_of_apart ha1).trans hl) hf
      exact ⟨r2, hr2, ha2.trans (leavingAs_apart why ha1)⟩

/-- A record that is named and has a frame on the air that stands in no queue is LEAVING. -/
theorem removeRecords_leaving_of_onAir {id : Nat} {L : List Nat} (why : Reason) (hj : j ∈ ks) (hr : s.station? j = some r)
    (hl : r.isLeaving = false) (ha : OnAir id j s) (hc : CellsWith L s) :
    ∃ r', (removeRecords why ks s).station? j = some r' ∧ apartFromDrops r' = apartFromDrops (leavingAs why r) := by
  induction ks generalizing s r with
  | nil => cases hj
  | cons k ks ih =>
    by_cases hk : j = k
    · subst hk
      exact removeRecords_leaves_head why ks hr hl ha.inFlight
    · obtain ⟨r1, hr1, ha1⟩ := removeRecord_others (k := k) why hr (.inl hk)
      obtain ⟨r2, hr2, ha2⟩ := ih ((List.mem_cons.mp hj).resolve_left hk) hr1 ((isLeaving_of_apart ha1).trans hl)
        (removeRecord_onAir why ha hc hk) ((removeRecord_safe k why s).cells hc)
      exact ⟨r2, hr2, ha2.trans (leavingAs_apart why ha1)⟩

theorem removeRecord_onboard (why : Reason) : (removeRecord k why s).up.onboard = s.up.onboard := by
  by_cases hl : ∀ st, s.station? k = some st → st.isLeaving = true
  · rw [removeRecord_leaving why hl]
  · obtain ⟨st, hst, hnot⟩ : ∃ st, s.station? k = some st ∧ ¬ st.isLeaving = true := by simpa using hl
    exact (Removed.frame (removeRecord_removed why hst (Bool.not_eq_true _ ▸ hnot))).onboard

theorem removeRecords_onboard (why : Reason) (ks : List (Fin 256)) (s : State) :
    (removeRecords why ks s).up.onboard = s.up.onboard := by
  induction ks generalizing s with
  | nil => rfl
  | cons k ks ih => exact (ih _).trans (removeRecord_onboard why)

end

end Sys2Proof.Laws
end

section
/-! What DISASSOCIATED and RADIO_START do (R70, R71), and the statement on them. -/

namespace Sys2Proof.Laws

open Sys2Proof Sys2Proof.Machine Sys2Proof.Safety

/-! ## Records in flight at the end of a reception -/

/-- A record in flight before is one later, where the ends have the same transmissions and the frames their owners. -/
theorem inFlight_after {s u : State} {k : Fin 256}
    (htx : ∀ x, (u.ports.endOf x).unit.tx = (s.ports.endOf x).unit.tx)
    (hn : ∀ id, OwnerKept id k s.hub.cells u.hub.cells) (h : inFlight s k = true) : inFlight u k = true := by
  obtain ⟨x, id, ht, ho⟩ := inFlight_iff.mp h
  exact inFlight_iff.mpr ⟨x, id, (htx x).trans ht, hn id ho⟩

theorem inFlight_congr {s u : State} {k : Fin 256}
    (htx : ∀ x, (u.ports.endOf x).unit.tx = (s.ports.endOf x).unit.tx)
    (hn : NamesFrom s.hub.cells u.hub.cells) (hk : ∀ id, OwnerKept id k s.hub.cells u.hub.cells) :
    inFlight u k = inFlight s k :=
  Bool.eq_iff_iff.mpr ⟨inFlight_before (fun x _ h => (htx x).symm.trans h) hn, inFlight_after htx hk⟩

section
variable {p : Port} {s s1 : State} {L : Nat} {chain : List Nat} {id : Nat} {j : Fin 256}

theorem giveBackCells_names (chain : List Nat) (s : State) : NamesFrom s.hub.cells (giveBackCells chain s).hub.cells :=
  fun id _ h => (giveBack_owner s.sender [] chain s.hub id).symm.trans h

theorem giveBackCells_ownerKept (chain : List Nat) (s : State) :
    OwnerKept id j s.hub.cells (giveBackCells chain s).hub.cells :=
  fun h => (giveBack_owner s.sender [] chain s.hub id).trans h

theorem needCell_names (p : Port) (chain : List Nat) (s : State) :
    NamesFrom s.hub.cells (needCell p chain s).hub.cells := by
  unfold needCell CellMemory.pop
  cases s.hub.cells.free with
  | nil => exact giveBackCells_names chain (rxDiscard p (tally .noCells s))
  | cons x rest =>
    refine NamesFrom.trans (.ofFrames ?_) (noteEntered_names s.sender _ _)
    exact (testEnter_same _).1.frames

theorem needCell_ownerKept (p : Port) (chain : List Nat) (s : State) :
    OwnerKept id j s.hub.cells (needCell p chain s).hub.cells := by
  unfold needCell CellMemory.pop
  cases s.hub.cells.free with
  | nil => exact giveBackCells_ownerKept chain (rxDiscard p (tally .noCells s))
  | cons x rest =>
    refine ownerKept_trans (ownerKept_append (new := []) ?_) (noteEntered_ownerKept s.sender _ _)
    exact ((testEnter_same _).1.frames).trans (List.append_nil _).symm

theorem takeOneCell_owners (p : Port) (s : State) : NamesFrom s.hub.cells (takeOneCell p s).hub.cells ∧
    OwnerKept id j s.hub.cells (takeOneCell p s).hub.cells := by
  unfold takeOneCell
  split
  · exact ⟨needCell_names p _ s, needCell_ownerKept p _ s⟩
  · exact ⟨needCell_names p _ s, needCell_ownerKept p _ s⟩
  · exact ⟨.refl _, ownerKept_refl⟩

theorem takeMissing_owners (p : Port) (n : Nat) (s : State) : NamesFrom s.hub.cells (takeMissing p n s).hub.cells ∧
    OwnerKept id j s.hub.cells (takeMissing p n s).hub.cells := by
  induction n generalizing s with
  | zero => exact ⟨.refl _, ownerKept_refl⟩
  | succ n ih =>
    obtain ⟨hn, hk⟩ := takeOneCell_owners (id := id) (j := j) p s
    obtain ⟨hn', hk'⟩ := ih (takeOneCell p s)
    exact ⟨hn.trans hn', ownerKept_trans hk hk'⟩

theorem endReception_owners (p : Port) (L : Nat) (s : State) :
    NamesFrom s.hub.cells (endReception p L s).2.hub.cells ∧
      OwnerKept id j s.hub.cells (endReception p L s).2.hub.cells := by
  have h := takeMissing_owners (id := id) (j := j) p (cellsFor L - ((s.ports.unitOf p).rx.chain).length) s
  rcases endReception_cases p L s with ⟨he, -⟩ | he <;> rw [he] <;> exact h

/-- The records in flight stand at the end of a reception. -/
theorem NoticeArrives.inFlight {w : Fin 4} (h : NoticeArrives w L s chain s1) (k : Fin 256) :
    inFlight (giveBackCells chain s1) k = inFlight s k := by
  have hends : Ends (.radio w) s s1 := NoticeArrives.ends h
  have hown := fun id => endReception_owners (id := id) (j := k) (.radio w) L s
  rw [h.2] at hown
  refine inFlight_congr (fun x => ?_) ((hown 0).1.trans (giveBackCells_names chain s1))
    (fun id => ownerKept_trans (hown id).2 (giveBackCells_ownerKept chain s1))
  obtain ⟨_, _, hx⟩ := receptionOnly_end hends.ports x
  exact (congrArg (fun e : BackboneEnd => e.unit.tx) hx :)

end

/-- A radio link in a reception: only its own unit changes, and of it neither link nor transmission. -/
theorem receptionOnly_radioLink {p : Port} {a b : Ports} (h : ReceptionOnly p a b) (w : Fin 4) :
    ∃ r k, b.radios[w] = { a.radios[w] with unit := { (a.radios[w]).unit with rx := r, ctr := k } } := by
  obtain ⟨r, k, rfl⟩ := h
  cases p with
  | seat m => exact ⟨_, _, rfl⟩
  | radio v =>
    rw [Ports.modUnit, modRadio_radio]
    split
    case isTrue h => exact ⟨r, k, by rw [h]⟩
    case isFalse => exact ⟨_, _, rfl⟩
  | backbone y => exact ⟨_, _, by rw [Ports.modUnit, modEnd_radios]⟩

/-! ## Orders at removals (R52) -/

/-- A removal for another cause than AGED, EVICTED and RELEASED sends no order. -/
theorem Removed.orders_kept {k : Fin 256} {st : Station} {why : Reason} {s t : State} (h : Removed k st why s t)
    (hno : ¬ (why = .aged ∨ why = .evicted ∨ why = .released)) (w : Fin 4) :
    (t.ports.radios[w]).orders = (s.ports.radios[w]).orders := by
  obtain ⟨u, st', -, -, -, -, -, horders, -, -, -, -, -, -, -, hfly, hfree⟩ := h
  have horder : (u.ports.radios[w]).orders = (s.ports.radios[w]).orders := by
    rw [horders w]
    split
    · rw [if_neg fun h => hno h.2]
    · rfl
  cases hf : Machine.inFlight s k with
  | true => exact (hfly hf) ▸ horder
  | false => exact ((Freed.frame (hfree hf)).ports.orders w).trans horder

theorem removeRecord_orders {k : Fin 256} {why : Reason} {s : State}
    (hno : ¬ (why = .aged ∨ why = .evicted ∨ why = .released)) (w : Fin 4) :
    ((removeRecord k why s).ports.radios[w]).orders = (s.ports.radios[w]).orders := by
  by_cases hl : ∀ st, s.station? k = some st → st.isLeaving = true
  · rw [removeRecord_leaving why hl]
  · obtain ⟨st, hst, hnot⟩ : ∃ st, s.station? k = some st ∧ ¬ st.isLeaving = true := by simpa using hl
    exact Removed.orders_kept (removeRecord_removed why hst (Bool.not_eq_true _ ▸ hnot)) hno w

theorem removeRecords_orders {why : Reason} (ks : List (Fin 256)) (s : State)
    (hno : ¬ (why = .aged ∨ why = .evicted ∨ why = .released)) (w : Fin 4) :
    ((removeRecords why ks s).ports.radios[w]).orders = (s.ports.radios[w]).orders := by
  induction ks generalizing s with
  | nil => rfl
  | cons k ks ih => exact (ih _).trans (removeRecord_orders hno w)

theorem removeRecords_origin {j : Fin 256} (why : Reason) {ks : List (Fin 256)} {s : State} {r : Station}
    (h : (removeRecords why ks s).station? j = some r) : ∃ st, s.station? j = some st ∧ r.origin = st.origin := by
  induction ks generalizing s with
  | nil => exact ⟨r, h, rfl⟩
  | cons k ks ih =>
    obtain ⟨r1, hr1, ho1⟩ := ih h
    obtain ⟨st, hst, ho, -⟩ := removeRecord_record why hr1
    exact ⟨st, hst, ho1.trans ho⟩

end Sys2Proof.Laws

namespace Sys2Proof.Proofs

open Sys2Proof Sys2Proof.Machine Sys2Proof.Safety Sys2Proof.Laws

/-! ## Notices that arrive -/

section
variable {w : Fin 4} {i : Byte} {s s1 : State} {chain : List Nat}

/-- The state in which a notice is acted on (R23): its cells have gone back. -/
theorem noticeArrives_ends {len : Nat} (h : NoticeArrives w len s chain s1) :
    Ends (.radio w) s (giveBackCells chain s1) := by
  have hends : Ends (.radio w) s s1 := NoticeArrives.ends h
  exact ⟨hends.kept.trans (onHub_kept _ _), hends.table, hends.up, hends.ports⟩

theorem exec_disassociated (h : NoticeArrives w 6 s chain s1) :
    exec (.disassociated w i 6 true) s = .next (takeDisassociated w i (giveBackCells chain s1)) :=
  congrArg Host.Outcome.next (receiveNotice_of_arrives (n := .disassociated i) h rfl)

theorem exec_radioStart (h : NoticeArrives w 5 s chain s1) :
    exec (.radioStart w 5 true) s = .next (takeRadioStart w (giveBackCells chain s1)) :=
  congrArg Host.Outcome.next (receiveNotice_of_arrives (n := .radioStart) h rfl)

theorem takeDisassociated_none {t : State} (hi : i.toNat < 64) (h : t.table.atRadio w i.toNat = none) :
    takeDisassociated w i t = noticeIgnored w (cancelOrder w i.toNat t) := by
  simp only [takeDisassociated, if_neg (Nat.not_le.mpr hi), h]

theorem takeDisassociated_some {t : State} {k : Fin 256} (hi : i.toNat < 64)
    (h : t.table.atRadio w i.toNat = some k) :
    takeDisassociated w i t = noticeTaken w (removeRecord k .disassociated (cancelOrder w i.toNat t)) := by
  simp only [takeDisassociated, if_neg (Nat.not_le.mpr hi), h]

end

/-- The radio behind a change of one of its figures. -/
theorem radios_modRadio (ps : Ports) (w : Fin 4) (g : RadioLink → RadioLink) : (ps.modRadio w g).radios[w] = g ps.radios[w] :=
  modRadio_self ps w g

/-- Settles O24: the notice is acted on with its cells back, and the removals are those of `removeRecord`. -/
theorem radioStationsLeave : Obligations.RadioStationsLeave := by
  intro w i s chain s1
  refine ⟨fun h hi => ?one, fun h hi => ?ignored, fun h => ?all⟩
  case one =>
    have hends := noticeArrives_ends h
    have hfly : ∀ k, inFlight (cancelOrder w i.toNat (giveBackCells chain s1)) k = inFlight s k :=
      fun k => NoticeArrives.inFlight h k
    have hexec := exec_disassociated (i := i) h
    obtain ⟨_, _, hradio⟩ := receptionOnly_radioLink hends.ports w
    have hcancelled : (cancelOrder w i.toNat (giveBackCells chain s1)).ports.radios[w] =
        { s.ports.radios[w] with
          unit := ((giveBackCells chain s1).ports.radios[w]).unit
          orders := (s.ports.radios[w]).orders.filter (fun o => decide (o.index ≠ i.toNat)) } := by
      refine (radios_modRadio ..).trans ?_
      rw [hradio]
      rfl
    have hat : (giveBackCells chain s1).table.atRadio w i.toNat = s.table.atRadio w i.toNat := by rw [hends.table]
    cases hk : s.table.atRadio w i.toNat with
    | none =>
      rw [takeDisassociated_none hi (hat.trans hk)] at hexec
      have hself := radios_modRadio (cancelOrder w i.toNat (giveBackCells chain s1)).ports w
        (fun q => { q with noticesIgnored := q.noticesIgnored + 1 })
      rw [hcancelled] at hself
      refine ⟨_, hexec, (congrArg RadioLink.orders hself :), fun _ => ⟨hends.table, (congrArg RadioLink.noticesIgnored hself :)⟩,
        fun k st hk' => (by cases hk'), hends.kept.sched, hends.kept.windows, hends.kept.consist⟩
    | some k =>
      rw [takeDisassociated_some hi (hat.trans hk)] at hexec
      generalize hcs : cancelOrder w i.toNat (giveBackCells chain s1) = c at hexec hcancelled hfly
      have hcstation : ∀ j, c.station? j = s.station? j := fun j => by rw [← hcs]; exact hends.station j
      have hckept : Kept s c := by rw [← hcs]; exact hends.kept.trans (onPorts_kept _ _)
      have hself := radios_modRadio (removeRecord k .disassociated c).ports w
        (fun q => { q with noticesTaken := q.noticesTaken + 1 })
      have honly : QueuesOnly (fun _ => True) c.ports (removeRecord k .disassociated c).ports :=
        removeRecord_only k c .disassociated (fun _ _ => trivial)
      have horders : ((removeRecord k .disassociated c).ports.radios[w]).orders =
          (s.ports.radios[w]).orders.filter (fun o => decide (o.index ≠ i.toNat)) :=
        (removeRecord_orders (by simp) w).trans (by rw [hcancelled])
      have htaken : ((removeRecord k .disassociated c).ports.radios[w]).noticesTaken = (s.ports.radios[w]).noticesTaken :=
        (congrArg RadioLink.noticesTaken (honly.radioRests w) :).trans (congrArg RadioLink.noticesTaken hcancelled :)
      have hkept := hckept.trans (removeRecord_kept k .disassociated c)
      refine ⟨_, hexec, ((congrArg RadioLink.orders hself :).trans horders), fun hno => (by cases hno),
        fun k' st hk' hst => ?_, hkept.sched, hkept.windows, hkept.consist⟩
      obtain rfl := Option.some.inj hk'
      have hcst := (hcstation k).trans hst
      refine ⟨(congrArg RadioLink.noticesTaken hself).trans (congrArg (· + 1) htaken), fun hl => ?_, fun hl => ?_,
        fun hl hf => ?_, fun hl hf => ?_, fun j st' hj hst' => ?_⟩
      · rw [removeRecord_leaving .disassociated (fun r hr => Option.some.inj (hcst.symm.trans hr) ▸ hl), ← hcs]
        exact hends.table
      · have hremoved : Removed k st .disassociated (cancelOrder w i.toNat (giveBackCells chain s1))
            (removeRecord k .disassociated c) := by
          rw [hcs]
          exact removeRecord_removed .disassociated hcst hl
        exact ⟨_, hremoved, rfl⟩
      · exact (Removed.frame (removeRecord_removed .disassociated hcst hl)).freed ((hfly k).trans hf)
      · obtain ⟨r, hr, ha⟩ := (Removed.frame (removeRecord_removed .disassociated hcst hl)).leaving ((hfly k).trans hf)
        exact ⟨r, hr, (congrArg Station.state ha :)⟩
      · exact removeRecord_others .disassociated ((hcstation j).trans hst') (.inl hj)
  case ignored =>
    rw [exec_disassociated h, takeDisassociated, if_pos hi]
    rfl
  case all =>
    have hends := noticeArrives_ends h
    have hexec := exec_radioStart h
    rw [takeRadioStart, hends.table] at hexec
    have hfly : ∀ k, inFlight (onPorts (Ports.modRadio w (fun q => { q with orders := [] })) (giveBackCells chain s1)) k =
        inFlight s k := fun k => NoticeArrives.inFlight h k
    obtain ⟨_, _, hradio⟩ := receptionOnly_radioLink hends.ports w
    have hcleared : (onPorts (Ports.modRadio w (fun q => { q with orders := [] }))
        (giveBackCells chain s1)).ports.radios[w] = { s.ports.radios[w] with
          unit := { (s.ports.radios[w]).unit with
            rx := ((giveBackCells chain s1).ports.radios[w]).unit.rx
            ctr := ((giveBackCells chain s1).ports.radios[w]).unit.ctr }
          orders := [] } := by
      refine (radios_modRadio ..).trans ?_
      rw [hradio]
    generalize hcs : onPorts (Ports.modRadio w (fun q => { q with orders := [] })) (giveBackCells chain s1) = c
      at hexec hcleared hfly
    have hcstation : ∀ j, c.station? j = s.station? j := fun j => by rw [← hcs]; exact hends.station j
    have hckept : Kept s c := by rw [← hcs]; exact hends.kept.trans (onPorts_kept _ _)
    have hself := radios_modRadio (removeRecords .radioRestart (s.table.onRadio w) c).ports w
      (fun q => { q with noticesTaken := q.noticesTaken + 1 })
    have honly : QueuesOnly (fun _ => True) c.ports (removeRecords .radioRestart (s.table.onRadio w) c).ports :=
      removeRecords_only .radioRestart (fun _ _ _ _ => trivial)
    have hunit := honly.unit (.radio w)
    have hkept := hckept.trans (removeRecords_kept .radioRestart (s.table.onRadio w) c)
    have hmem : ∀ {k st}, s.station? k = some st → st.origin.isRadio w = true → k ∈ s.table.onRadio w :=
      fun hst ho => mem_slotsWhere.mpr ⟨_, hst, ho⟩
    have hremoved : RemovedAll .radioRestart (s.table.onRadio w)
        (onPorts (Ports.modRadio w (fun q => { q with orders := [] })) (giveBackCells chain s1))
        (removeRecords .radioRestart (s.table.onRadio w) c) := by
      rw [hcs]
      exact removeRecords_removed .radioRestart _ c
    refine ⟨_, hexec, ⟨_, hremoved, rfl⟩, ?_, ?_, ?_, ?_,
      fun k st hst ho => ?_, fun k st hst ho hl => ⟨fun hf => ?_, fun hf => ?_⟩, fun k st hst hother => ?_, hkept.sched,
      hkept.windows, hkept.consist⟩
    · exact (congrArg RadioLink.orders hself :).trans
        ((removeRecords_orders _ c (by simp) w).trans (by rw [hcleared]))
    · exact (congrArg (fun q : RadioLink => q.unit.link) hself :).trans
        ((congrArg PortUnit.link hunit :).trans (congrArg (fun q : RadioLink => q.unit.link) hcleared :))
    · exact (congrArg (fun q : RadioLink => q.unit.tx) hself :).trans
        ((congrArg PortUnit.tx hunit :).trans (congrArg (fun q : RadioLink => q.unit.tx) hcleared :))
    · refine (congrArg RadioLink.noticesTaken hself :).trans (congrArg (· + 1) ?_)
      exact (congrArg RadioLink.noticesTaken (honly.radioRests w) :).trans (congrArg RadioLink.noticesTaken hcleared :)
    · obtain ⟨r, hr, hor⟩ := removeRecords_origin .radioRestart (s := c) (r := st) hst
      exact removeRecords_isLeaving .radioRestart (hmem ((hcstation k).symm.trans hr) (hor ▸ ho)) hst
    · exact removeRecords_freed .radioRestart (hmem hst ho) ((hcstation k).trans hst) hl ((hfly k).trans hf)
    · obtain ⟨r, hr, ha⟩ := removeRecords_leaving_of_after .radioRestart (hmem hst ho) ((hcstation k).trans hst) hl hf
      exact ⟨r, hr, (congrArg Station.state ha :), (congrArg Station.upq ha :), (congrArg Station.origin ha :),
        (congrArg Station.addr ha :)⟩
    · refine removeRecords_others .radioRestart ((hcstation k).trans hst) (hother.imp_left fun ho hin => ?_)
      obtain ⟨r, hr, ho'⟩ := mem_slotsWhere.mp hin
      obtain rfl := Option.some.inj (hst.symm.trans hr)
      rw [ho] at ho'
      cases ho'

end Sys2Proof.Proofs
end

section
/-! SUPPORT. What the loss of a link leaves alone (R2 to R4): the port's unit is DOWN with nothing on it, and of the
ports, the records and the stored frames the rest stands. -/

namespace Sys2Proof.Laws

open Sys2Proof Sys2Proof.Machine Sys2Proof.Safety

/-! ## The ports -/

/-- A port's unit with its link DOWN, nothing in transmission and nothing in reception (R2 to R4). -/
def unitDown (u : PortUnit) : PortUnit := { u with
  link := .down
  tx := none
  rx := .idle }

/-- A change of a port's unit that does not read the counters of R8. -/
def Uncounted (g : PortUnit → PortUnit) : Prop :=
  ∀ u v, withoutCounters u = withoutCounters v → withoutCounters (g u) = withoutCounters (g v)

theorem noTx_uncounted : Uncounted (fun u => { u with tx := none }) := fun _ _ h =>
  congrArg (fun u : PortUnit => { u with tx := none }) h

theorem noRx_uncounted : Uncounted (fun u => { u with rx := .idle }) := fun _ _ h =>
  congrArg (fun u : PortUnit => { u with rx := .idle }) h

theorem SameQueues.modUnit {a b : Ports} (h : SameQueues a b) (p : Port) {g : PortUnit → PortUnit} (hg : Uncounted g) :
    SameQueues (a.modUnit p g) (b.modUnit p g) := by
  cases p with
  | seat n =>
    refine ⟨fun m => ?_, h.radios, h.ends⟩
    rw [Ports.modUnit, Ports.modUnit, modSeat_seat, modSeat_seat]
    split
    case isTrue hm =>
      subst hm
      have hunit := hg _ _ (congrArg SeatPort.unit (h.seats n))
      exact congrArg₂ (fun (q : SeatPort) (u : PortUnit) => { q with unit := u }) (h.seats n) hunit
    case isFalse => exact h.seats m
  | radio w =>
    refine ⟨h.seats, fun v => ?_, h.ends⟩
    rw [Ports.modUnit, Ports.modUnit, modRadio_radio, modRadio_radio]
    split
    case isTrue hv =>
      subst hv
      have hunit := hg _ _ (congrArg RadioLink.unit (h.radios w))
      exact congrArg₂ (fun (q : RadioLink) (u : PortUnit) => { q with unit := u }) (h.radios w) hunit
    case isFalse => exact h.radios v
  | backbone x =>
    refine ⟨fun n => ?_, fun w => ?_, fun y => ?_⟩
    · rw [Ports.modUnit, Ports.modUnit, modEnd_seats, modEnd_seats]
      exact h.seats n
    · rw [Ports.modUnit, Ports.modUnit, modEnd_radios, modEnd_radios]
      exact h.radios w
    rw [Ports.modUnit, Ports.modUnit, modEnd_end, modEnd_end]
    split
    case isTrue hy =>
      subst hy
      have hunit := hg _ _ (congrArg BackboneEnd.unit (h.ends x))
      exact congrArg₂ (fun (q : BackboneEnd) (u : PortUnit) => { q with unit := u }) (h.ends x) hunit
    case isFalse => exact h.ends y

theorem countAborted_ports (p : Port) (id : Nat) (s : State) :
    SameQueues (s.ports.modUnit p (fun u => { u with tx := none })) (countAborted p id s).ports :=
  (count_sameQueues ..).trans (count?_sameQueues ..)

theorem freeIfLeaving_sameQueues (k : Fin 256) (s : State) : SameQueues s.ports (freeIfLeaving k s).ports := by
  unfold freeIfLeaving
  split
  case h_1 =>
    split
    case h_1 why _ =>
      split
      · exact .refl _
      · exact freeRecord_sameQueues k s why
    case h_2 => exact .refl _
  case h_2 => exact .refl _

theorem abortTx_ports (p : Port) (s : State) :
    SameQueues (s.ports.modUnit p (fun u => { u with tx := none })) (abortTx p s).ports := by
  unfold abortTx
  split
  case h_1 h =>
    rw [modUnit_congr (h := fun u => u) (by rw [← h]), modUnit_id]
    exact .refl _
  case h_2 => exact .refl _
  case h_3 => exact .refl _
  case h_4 id k _ => exact countAborted_ports p id s
  case h_5 id _ _ => exact countAborted_ports p id s
  case h_6 id _ _ => exact countAborted_ports p id s
  case h_7 id _ =>
    refine (countAborted_ports p id s).trans ?_
    cases upwardOwner p id s with
    | none => exact .refl _
    | some k => exact freeIfLeaving_sameQueues k (onHub (Hub.dropRef s.sender id) (countAborted p id s))

theorem loseReception_ports (p : Port) (s : State) :
    SameQueues (s.ports.modUnit p (fun u => { u with rx := .idle })) (loseReception p s).ports := by
  unfold loseReception
  split
  case h_1 h =>
    rw [modUnit_congr (h := fun u => u) (by rw [← h]), modUnit_id]
    exact .refl _
  case h_2 => exact .refl _
  case h_3 => exact count_sameQueues ..

/-- The unit of a port whose link is lost (R2 to R4, R10, R22). -/
theorem linkLost_ports (p : Port) (s : State) :
    SameQueues (s.ports.modUnit p unitDown) (loseReception p (abortTx p (setLink p .down s))).ports := by
  have haborted := (abortTx_ports p (setLink p .down s)).modUnit p noRx_uncounted
  have hunit : ((setLink p .down s).ports.modUnit p (fun u => { u with tx := none })).modUnit p
      (fun u => { u with rx := .idle }) = s.ports.modUnit p unitDown := by
    rw [setLink, onPorts, modUnit_modUnit, modUnit_modUnit]
    rfl
  rw [hunit] at haborted
  exact haborted.trans (loseReception_ports p _)

/-! ## The records and the stored frames -/

/-- What the discards of a link's loss leave alone: the records but for their drops, Upward Service, the records that
frames name, and what every operation keeps. -/
structure SameRecords (s u : State) : Prop where
  records : ∀ j, (u.station? j).map apartFromDrops = (s.station? j).map apartFromDrops
  up : u.up = s.up
  kept : Kept s u
  names : NamesFrom s.hub.cells u.hub.cells

theorem sameRecords_refl (s : State) : SameRecords s s := ⟨fun _ => rfl, rfl, .refl s, .refl _⟩

theorem SameRecords.trans {a b c : State} (h : SameRecords a b) (g : SameRecords b c) : SameRecords a c :=
  ⟨fun j => (g.records j).trans (h.records j), g.up.trans h.up, h.kept.trans g.kept, h.names.trans g.names⟩

theorem SameRecords.record {s u : State} (h : SameRecords s u) {j : Fin 256} {r : Station} (hr : s.station? j = some r) :
    ∃ r', u.station? j = some r' ∧ apartFromDrops r' = apartFromDrops r := by
  have hrec := h.records j
  rw [hr] at hrec
  cases hu : u.station? j with
  | none => rw [hu] at hrec; cases hrec
  | some r' => rw [hu] at hrec; exact ⟨r', rfl, Option.some.inj hrec⟩

theorem SameRecords.record_back {s u : State} (h : SameRecords s u) {j : Fin 256} {r : Station}
    (hr : u.station? j = some r) : ∃ r', s.station? j = some r' ∧ apartFromDrops r = apartFromDrops r' := by
  have hrec := h.records j
  rw [hr] at hrec
  cases hs : s.station? j with
  | none => rw [hs] at hrec; cases hrec
  | some r' => rw [hs] at hrec; exact ⟨r', rfl, Option.some.inj hrec⟩

theorem sameRecords_onPorts (g : Ports → Ports) (s : State) : SameRecords s (onPorts g s) :=
  ⟨fun _ => rfl, rfl, onPorts_kept g s, .refl _⟩

theorem discardEntries_sameRecords (r : Discard) (b : Option Port) (ids : List Nat) (s : State) :
    SameRecords s (discardEntries r b ids s) := by
  refine ⟨fun j => ?_, discardEntries_up r b ids s, discardEntries_kept r b ids s, discardEntries_names r b ids s⟩
  obtain ⟨n, hn⟩ := discardEntries_apart r b ids s j
  rw [hn, Option.map_map]
  rfl

/-- An abort on an attachment port, where no record is LEAVING for the frame. -/
theorem abortTx_sameRecords {p : Port} (s : State) (hp : ∀ x, p ≠ .backbone x) : SameRecords s (abortTx p s) := by
  have h := abortTx_aborts p s hp
  refine ⟨fun j => congrArg (fun t : StationTable => (t.station? j).map apartFromDrops) h.table, h.up, ?_, ?_⟩
  · unfold abortTx
    split
    case h_7 id _ =>
      exact (countAborted_kept p id s).trans ((onHub_kept _ _).trans (settleOwner_kept _ _))
    all_goals exact ⟨rfl, rfl, rfl, rfl, rfl, rfl, rfl⟩
  · unfold abortTx
    split
    case h_7 id _ =>
      have ho : upwardOwner p id s = none := by
        cases p with
        | backbone x => exact absurd rfl (hp x)
        | seat n => rfl
        | radio w => rfl
      rw [ho]
      exact dropRef_names s.sender id (countAborted p id s).hub
    case h_4 id k _ => exact dropRef_names s.sender id (countAborted p id s).hub
    case h_5 id _ _ => exact dropRef_names s.sender id (countAborted p id s).hub
    case h_6 id _ _ => exact dropRef_names s.sender id (countAborted p id s).hub
    all_goals exact .refl _

theorem loseReception_kept (p : Port) (s : State) : Kept s (loseReception p s) := by
  unfold loseReception
  split <;> exact ⟨rfl, rfl, rfl, rfl, rfl, rfl, rfl⟩

theorem loseReception_sameRecords (p : Port) (s : State) : SameRecords s (loseReception p s) := by
  have h := loseReception_loses p s
  exact ⟨fun j => congrArg (fun t : StationTable => (t.station? j).map apartFromDrops) h.table, h.up, loseReception_kept p s,
    fun id k hk => (h.owners id).symm.trans hk⟩

/-! ## The replies of a seat port -/

/-- The discarding of a reply is that of an entry, with its slot free; or there is none in the slot. -/
theorem discardReply_cases (p : Port) (k : Fin 4) (s : State) :
    (∃ h id, s.hub.mgmt.slots[k] = .built h id ∧
      discardReply p k s = discardEntries .purge (some p) [id] (onHub (Hub.freeSlot k) s)) ∨
    (s.hub.mgmt.slots[k].builtFor = none ∧ discardReply p k s = s) := by
  unfold discardReply
  cases hk : s.hub.mgmt.slots[k] with
  | built h id => exact .inl ⟨h, id, rfl, rfl⟩
  | _ => exact .inr ⟨rfl, rfl⟩

theorem discardReply_sameRecords (p : Port) (k : Fin 4) (s : State) :
    SameRecords s (discardReply p k s) ∧ SameQueues s.ports (discardReply p k s).ports := by
  rcases discardReply_cases p k s with ⟨h, id, -, he⟩ | ⟨-, he⟩ <;> rw [he]
  · exact ⟨SameRecords.trans (b := onHub (Hub.freeSlot k) s) ⟨fun _ => rfl, rfl, onHub_kept _ s, .refl _⟩
      (discardEntries_sameRecords ..), discardEntries_sameQueues .purge (some p) [id] (onHub (Hub.freeSlot k) s)⟩
  · exact ⟨sameRecords_refl s, .refl _⟩

theorem discardReplies_sameRecords (p : Port) (s : State) :
    SameRecords s (discardReplies p s) ∧ SameQueues s.ports (discardReplies p s).ports := by
  unfold discardReplies
  generalize repliesFor s.hub.mgmt p = ks
  induction ks generalizing s with
  | nil => exact ⟨sameRecords_refl s, .refl _⟩
  | cons k ks ih =>
    obtain ⟨hr, hq⟩ := discardReply_sameRecords p k s
    obtain ⟨hr', hq'⟩ := ih (discardReply p k s)
    exact ⟨hr.trans hr', hq.trans hq'⟩

/-- Slot by slot, the replies after a discard are those before it, but for the one discarded. -/
theorem discardReply_slots (p : Port) (k j : Fin 4) (s : State) :
    (discardReply p k s).hub.mgmt.slots[j].builtFor = none ∧ j = k ∨
      (discardReply p k s).hub.mgmt.slots[j] = s.hub.mgmt.slots[j] ∧ j ≠ k := by
  by_cases hj : j = k
  · subst hj
    refine .inl ⟨?_, rfl⟩
    rcases discardReply_cases p j s with ⟨h, id, -, he⟩ | ⟨hnone, he⟩ <;> rw [he]
    · rw [discardEntries_slots]
      exact congrArg ReplySlot.builtFor (freeSlot_slot s.hub)
    · exact hnone
  · refine .inr ⟨?_, hj⟩
    rcases discardReply_cases p k s with ⟨h, id, -, he⟩ | ⟨hnone, he⟩ <;> rw [he]
    · rw [discardEntries_slots]
      exact freeSlot_slot_ne s.hub hj

theorem discardReply_builtOrder (p : Port) (k : Fin 4) (s : State) :
    ((discardReply p k s).hub.mgmt.builtOrder).Sublist s.hub.mgmt.builtOrder := by
  rcases discardReply_cases p k s with ⟨h, id, -, he⟩ | ⟨-, he⟩ <;> rw [he]
  rw [discardEntries_builtOrder]
  exact List.filter_sublist

/-- No reply for the port is left (R2). -/
theorem discardReplies_none (p : Port) (s : State) : repliesFor (discardReplies p s).hub.mgmt p = [] := by
  have hfold : ∀ (ks : List (Fin 4)) (s : State), (∀ k ∈ repliesFor s.hub.mgmt p, k ∈ ks) →
      repliesFor (ks.foldl (fun s k => discardReply p k s) s).hub.mgmt p = [] := by
    intro ks
    induction ks with
    | nil => exact fun s h => List.eq_nil_iff_forall_not_mem.mpr fun k hk => nomatch h k hk
    | cons k ks ih =>
      refine fun s h => ih (discardReply p k s) fun j hj => ?_
      obtain ⟨hin, hfor⟩ := (mem_repliesFor ..).mp hj
      rcases discardReply_slots p k j s with ⟨hnone, -⟩ | ⟨hsame, hne⟩
      · rw [hnone] at hfor
        cases hfor
      · rw [hsame] at hfor
        exact (List.mem_cons.mp (h j ((mem_repliesFor ..).mpr
          ⟨(discardReply_builtOrder p k s).subset hin, hfor⟩))).resolve_left hne
  exact hfold _ s fun _ hk => hk

section
variable {id : Nat} {j : Fin 256}

theorem discardReplies_ownerKept (p : Port) (s : State) (hno : ∀ (i : Fin 4) h, s.hub.mgmt.slots[i] ≠ .built h id) :
    OwnerKept id j s.hub.cells (discardReplies p s).hub.cells := by
  unfold discardReplies
  generalize repliesFor s.hub.mgmt p = ks
  induction ks generalizing s with
  | nil => exact ownerKept_refl
  | cons k ks ih =>
    have hone : OwnerKept id j s.hub.cells (discardReply p k s).hub.cells := by
      rcases discardReply_cases p k s with ⟨h, id', hk, he⟩ | ⟨-, he⟩ <;> rw [he]
      · refine discardEntries_ownerKept .purge (some p) (onHub (Hub.freeSlot k) s) fun hin => ?_
        exact hno k h ((List.mem_singleton.mp hin) ▸ hk)
      · exact ownerKept_refl
    refine ownerKept_trans hone (ih (discardReply p k s) fun i h hi => ?_)
    rcases discardReply_slots p k i s with ⟨hnone, -⟩ | ⟨hsame, -⟩
    · rw [hi] at hnone
      cases hnone
    · exact hno i h (hsame.symm.trans hi)

end

/-- An abort builds no reply. -/
theorem abortTx_built {p : Port} {s : State} (hp : ∀ x, p ≠ .backbone x) {i : Fin 4} {h : ReqHeader} {id : Nat}
    (hi : (abortTx p s).hub.mgmt.slots[i] = .built h id) : s.hub.mgmt.slots[i] = .built h id := by
  have hdrop : ∀ id', (Hub.dropRef s.sender id' (countAborted p id' s).hub).mgmt.slots = s.hub.mgmt.slots :=
    fun id' => (dropRef_quiet s.sender id' (countAborted p id' s).hub).slots
  unfold abortTx at hi
  split at hi
  case h_4 id' k _ =>
    by_cases hik : i = k
    · subst hik
      rw [show (State.hub _).mgmt.slots[i] = _ from freeSlot_slot (Hub.dropRef s.sender id' (countAborted p id' s).hub)] at hi
      cases hi
    · rw [← hdrop id']
      exact (freeSlot_slot_ne (Hub.dropRef s.sender id' (countAborted p id' s).hub) hik).symm.trans hi
  case h_5 id' _ _ =>
    rw [← hdrop id']
    exact hi
  case h_6 id' _ _ =>
    rw [← hdrop id']
    exact hi
  case h_7 id' _ =>
    have ho : upwardOwner p id' s = none := by
      cases p with
      | backbone x => exact absurd rfl (hp x)
      | seat n => rfl
      | radio w => rfl
    rw [ho] at hi
    rw [← hdrop id']
    exact hi
  all_goals exact hi

end Sys2Proof.Laws
end

section
/-! SUPPORT. The loss of an attachment port's link as a whole (R2, R3), its records' removals and its notice aside; and
that no reply comes to wait for a seat port that is DOWN (R173). -/

namespace Sys2Proof.Laws

open Sys2Proof Sys2Proof.Machine Sys2Proof.Safety

/-! ## A frame that is on the air alone -/

section
variable {id : Nat} {j : Fin 256} {s u : State}

/-- What the frame that keeps a record in flight is in, and what it is not in (R52). -/
theorem onAir_of_onlyOnAir (h : OnlyOnAir s j) : ∃ id, OnAir id j s ∧
    (∀ (i : Fin 4) h, s.hub.mgmt.slots[i] ≠ .built h id) ∧
    (∀ p, (∀ x, p ≠ .backbone x) → (s.ports.unitOf p).tx.bind Transmission.frame? ≠ some id) ∧
    id ∉ s.hub.mgmt.input.map (·.id) := by
  obtain ⟨x, id, f, htx, hf, hst, hentries, hup, hslots, hseats, hradios⟩ := h
  have hnone : ∀ p ∈ allPorts, entriesAt s id p = 0 := by
    have hsum : (allPorts.map (entriesAt s id)).sum = 0 := by
      unfold entriesOf at hentries
      omega
    exact fun p hp => List.sum_eq_zero_iff.mp hsum _ (List.mem_map_of_mem hp)
  refine ⟨id, ⟨⟨x, htx⟩, ?_, fun n => ?_, fun w => ?_, hup⟩, hslots, fun p hp => ?_, ?_⟩
  · rw [CellMemory.owner, hf]
    exact hst
  · exact List.count_eq_zero.mp (hnone (.seat n) (mem_allPorts _))
  · exact List.count_eq_zero.mp (hnone (.radio w) (mem_allPorts _))
  · cases p with
    | seat n => exact hseats n
    | radio w => exact hradios w
    | backbone y => exact absurd rfl (hp y)
  · refine List.count_eq_zero.mp ?_
    unfold entriesOf at hentries
    omega

/-- A frame on the air stays so where the ends transmit on, queues lose entries at most, and it keeps its record. -/
theorem OnAir.shrinks (h : OnAir id j s) (hair : ∀ x, (u.ports.endOf x).unit.tx = (s.ports.endOf x).unit.tx)
    (hown : OwnerKept id j s.hub.cells u.hub.cells) (hq : Shrinks s u) (hsame : SameRecords s u) : OnAir id j u := by
  refine ⟨h.air.imp fun x hx => (hair x).trans hx, hown h.owner, fun n hn => h.seats n ((hq.seats n).subset hn),
    fun w hw => h.radios w (((hq.radios w).map _).subset hw), fun i r hr => ?_⟩
  obtain ⟨r', hr', ha⟩ := hsame.record_back hr
  have hq : r.upq = r'.upq := (congrArg Station.upq ha :)
  exact hq ▸ h.upward i r' hr'

end

/-! ## The loss of a link -/

/-- What the loss of the link of an attachment port leaves alone, from `s` to `u`. -/
structure LinkLost (p : Port) (s u : State) : Prop where
  same : SameRecords s u
  ports : QueuesOnly (· = p) (s.ports.modUnit p unitDown) u.ports
  owned : ∀ {id j}, OnAir id j s → (∀ (i : Fin 4) h, s.hub.mgmt.slots[i] ≠ .built h id) →
    (s.ports.unitOf p).tx.bind Transmission.frame? ≠ some id → OwnerKept id j s.hub.cells u.hub.cells
  seatEmpty : ∀ n, p = .seat n → (u.ports.seats[n]).egress = []
  radioEmpty : ∀ w, p = .radio w → (u.ports.radios[w]).egress = []

section
variable {p : Port} {s u : State}

theorem LinkLost.shrinks (h : LinkLost p s u) : Shrinks s u := by
  refine ⟨fun n => ?_, fun w => ?_⟩
  · by_cases hp : p = .seat n
    · rw [h.seatEmpty n hp]
      exact List.nil_sublist _
    · have hq := congrArg SeatPort.egress (h.ports.seats n (fun he => hp he.symm))
      exact ((hq :).trans (modUnit_egress s.ports p unitDown n)) ▸ List.Sublist.refl _
  · by_cases hp : p = .radio w
    · rw [h.radioEmpty w hp]
      exact List.nil_sublist _
    · have hq := congrArg RadioLink.egress (h.ports.radios w (fun he => hp he.symm))
      exact ((hq :).trans (modUnit_radio s.ports p unitDown w)) ▸ List.Sublist.refl _

theorem LinkLost.endTx (h : LinkLost p s u) (hp : ∀ x, p ≠ .backbone x) (x : End) :
    (u.ports.endOf x).unit.tx = (s.ports.endOf x).unit.tx := by
  have hunit : (s.ports.modUnit p unitDown).unitOf (.backbone x) = s.ports.unitOf (.backbone x) :=
    unitOf_modUnit_ne _ _ (fun he => hp x he.symm)
  exact (h.ports.tx (.backbone x)).trans (congrArg PortUnit.tx hunit)

theorem LinkLost.onAir (h : LinkLost p s u) (hp : ∀ x, p ≠ .backbone x) {j : Fin 256} (ha : OnlyOnAir s j) :
    ∃ id, OnAir id j u := by
  obtain ⟨id, hair, hslots, htx, -⟩ := onAir_of_onlyOnAir ha
  exact ⟨id, hair.shrinks (h.endTx hp) (h.owned hair hslots (htx p hp)) h.shrinks h.same⟩

/-- No record comes to be in flight. -/
theorem LinkLost.inFlight (h : LinkLost p s u) (hp : ∀ x, p ≠ .backbone x) {j : Fin 256} (hf : inFlight s j = false) :
    inFlight u j = false :=
  Bool.eq_false_iff.mpr fun hu => Bool.eq_false_iff.mp hf
    (inFlight_before (fun x _ ht => (h.endTx hp x).symm.trans ht) h.same.names hu)

theorem LinkLost.slotsWhere (h : LinkLost p s u) {test : Station → Bool}
    (ht : ∀ a b, apartFromDrops a = apartFromDrops b → test a = test b) :
    u.table.slotsWhere test = s.table.slotsWhere test := by
  refine List.filter_congr fun k _ => ?_
  have hr := h.same.records k
  rw [State.station?, State.station?, StationTable.station?, StationTable.station?] at hr
  cases hs : s.table.slots[k] with
  | none =>
    cases hu : u.table.slots[k] with
    | none => simp
    | some b => rw [hs, hu] at hr; cases hr
  | some a =>
    cases hu : u.table.slots[k] with
    | none => rw [hs, hu] at hr; cases hr
    | some b =>
      rw [hs, hu] at hr
      simp [ht b a (Option.some.inj hr)]

/-- The transmission and the reception are lost (R2, R3, R10, R22); the queue stands yet. -/
theorem loses_owned (s : State) (hp : ∀ x, p ≠ .backbone x) {id : Nat} {j : Fin 256}
    (hid : (s.ports.unitOf p).tx.bind Transmission.frame? ≠ some id) :
    OwnerKept id j s.hub.cells (loseReception p (abortTx p (setLink p .down s))).hub.cells := by
  intro ho
  have htx : ((setLink p .down s).ports.unitOf p).tx = (s.ports.unitOf p).tx := by
    rw [setLink, onPorts, unitOf_modUnit_self]
  rw [(loseReception_loses p _).owners, (abortTx_aborts p (setLink p .down s) hp).owners id (htx ▸ hid)]
  exact ho

theorem loses_sameRecords (s : State) (hp : ∀ x, p ≠ .backbone x) :
    SameRecords s (loseReception p (abortTx p (setLink p .down s))) :=
  ((sameRecords_onPorts _ s).trans (abortTx_sameRecords (setLink p .down s) hp)).trans (loseReception_sameRecords p _)

end

theorem seat_not_backbone (n : Fin 32) (x : End) : Port.seat n ≠ .backbone x := nofun

theorem radio_not_backbone (w : Fin 4) (x : End) : Port.radio w ≠ .backbone x := nofun

/-- R2: what a seat port's going DOWN leaves, its records and its notice aside. -/
theorem seatLinkLost_lost (n : Fin 32) (s : State) : LinkLost (.seat n) s (seatLinkLost n s) := by
  have hports := linkLost_ports (.seat n) s
  have hsame := loses_sameRecords s (seat_not_backbone n)
  have howned := fun (id : Nat) (j : Fin 256) => loses_owned (p := .seat n) (id := id) (j := j) s (seat_not_backbone n)
  have hslots : ∀ (i : Fin 4) h id,
      (loseReception (.seat n) (abortTx (.seat n) (setLink (.seat n) .down s))).hub.mgmt.slots[i] = .built h id →
        s.hub.mgmt.slots[i] = .built h id := by
    intro i h id hi
    have hlost := (loseReception_loses (.seat n) (abortTx (.seat n) (setLink (.seat n) .down s))).quiet.slots
    have hslots : (loseReception (.seat n) (abortTx (.seat n) (setLink (.seat n) .down s))).hub.mgmt.slots =
        (abortTx (.seat n) (setLink (.seat n) .down s)).hub.mgmt.slots := hlost.trans (by split <;> rfl)
    rw [hslots] at hi
    exact abortTx_built (s := setLink (.seat n) .down s) (seat_not_backbone n) hi
  unfold seatLinkLost
  generalize loseReception (.seat n) (abortTx (.seat n) (setLink (.seat n) .down s)) = a at *
  have hcleared : SameRecords a (clearSeatEgress n a) :=
    (sameRecords_onPorts _ a).trans (discardEntries_sameRecords ..)
  obtain ⟨hreplies, hqueues⟩ := discardReplies_sameRecords (.seat n) (clearSeatEgress n a)
  have hclear : QueuesOnly (· = Port.seat n) (s.ports.modUnit (.seat n) unitDown) (clearSeatEgress n a).ports :=
    (hports.only _).trans (.discards _ _ _ (onPorts _ a)
      (.modSeat (g := fun q => { q with egress := [] }) a.ports rfl (fun _ => rfl)))
  refine ⟨(hsame.trans hcleared).trans hreplies, hclear.trans (hqueues.only _), fun hair hno htx => ?_, fun m hm => ?_,
    fun w hw => nomatch hw⟩
  · refine ownerKept_trans (howned _ _ htx) (ownerKept_trans ?_ (discardReplies_ownerKept _ _ fun i h hi => ?_))
    · refine discardEntries_ownerKept .purge (some (.seat n)) (onPorts _ a) ?_
      rw [hports.seat n, modUnit_egress]
      exact hair.seats n
    · rw [clearSeatEgress, discardEntries_slots] at hi
      exact hno i h (hslots i h _ hi)
  · injection hm with hm
    subst hm
    rw [hqueues.seat, clearSeatEgress, (discardEntries_sameQueues ..).seat]
    exact congrArg SeatPort.egress (modSeat_self a.ports n _)

/-- R2: with no reply waiting for the port. -/
theorem seatLinkLost_replies (n : Fin 32) (s : State) : repliesFor (seatLinkLost n s).hub.mgmt (.seat n) = [] :=
  discardReplies_none (.seat n) _

/-- A radio link as it is lost (R3), its records and its notice aside. -/
def radioLinkLost (w : Fin 4) (s : State) : State :=
  onPorts (Ports.modRadio w (fun q => { q with orders := [] }))
    (clearRadioEgress w (loseReception (.radio w) (abortTx (.radio w) (setLink (.radio w) .down s))))

theorem radioLinkLost_orders (w : Fin 4) (s : State) : ((radioLinkLost w s).ports.radios[w]).orders = [] :=
  congrArg RadioLink.orders (modRadio_self _ w _)

/-- R3: what a radio link's going DOWN leaves, its records and its notice aside. -/
theorem radioLinkLost_lost (w : Fin 4) (s : State) : LinkLost (.radio w) s (radioLinkLost w s) := by
  have hports := linkLost_ports (.radio w) s
  have hsame := loses_sameRecords s (radio_not_backbone w)
  have howned := fun (id : Nat) (j : Fin 256) => loses_owned (p := .radio w) (id := id) (j := j) s (radio_not_backbone w)
  unfold radioLinkLost
  generalize loseReception (.radio w) (abortTx (.radio w) (setLink (.radio w) .down s)) = a at *
  have hcleared : SameRecords a (clearRadioEgress w a) :=
    (sameRecords_onPorts _ a).trans (discardEntries_sameRecords ..)
  have hclear : QueuesOnly (· = Port.radio w) (s.ports.modUnit (.radio w) unitDown) (clearRadioEgress w a).ports :=
    (hports.only _).trans (.discards _ _ _ (onPorts _ a)
      (.modRadio (g := fun q => { q with egress := [] }) a.ports rfl (fun _ => rfl)))
  refine ⟨(hsame.trans hcleared).trans (sameRecords_onPorts _ _),
    hclear.trans (.modRadio (g := fun q => { q with orders := [] }) _ rfl (fun _ => rfl)), fun hair _ htx => ?_,
    fun n hn => (nomatch hn), fun v hv => ?_⟩
  · refine ownerKept_trans (howned _ _ htx) ?_
    refine discardEntries_ownerKept .purge (some (.radio w)) (onPorts _ a) ?_
    rw [hports.radio w, modUnit_radio]
    exact hair.radios w
  · injection hv with hv
    subst hv
    refine (congrArg RadioLink.egress (modRadio_self _ w _)).trans ?_
    rw [clearRadioEgress, (discardEntries_sameQueues ..).radio]
    exact congrArg RadioLink.egress (modRadio_self a.ports w _)

/-! ## No reply for a seat port that is DOWN -/

/-- The seat port is DOWN, and no reply waits for it (R2, R173). -/
structure SeatDead (n : Fin 32) (s : State) : Prop where
  link : (s.ports.seats[n]).unit.link = .down
  replies : repliesFor s.hub.mgmt (.seat n) = []

section
variable {n : Fin 32} {k : Fin 4} {m m' : Mgmt} {s u : State}

/-- A slot set to what is no reply for the port. -/
theorem repliesFor_none_set {p : Port} (h : repliesFor m p = []) (horder : ∀ j ∈ m'.builtOrder, j ≠ k → j ∈ m.builtOrder)
    (hslots : ∀ j : Fin 4, j ≠ k → m'.slots[j] = m.slots[j]) (hk : (m'.slots[k]).builtFor ≠ some p) :
    repliesFor m' p = [] := by
  refine List.eq_nil_iff_forall_not_mem.mpr fun j hj => ?_
  obtain ⟨hin, hfor⟩ := (mem_repliesFor ..).mp hj
  by_cases hjk : j = k
  · exact hk (hjk ▸ hfor)
  · rw [hslots j hjk] at hfor
    exact List.eq_nil_iff_forall_not_mem.mp h j ((mem_repliesFor ..).mpr ⟨horder j hin hjk, hfor⟩)

theorem SeatDead.of (h : SeatDead n s) (hl : (u.ports.unitOf (.seat n)).link = (s.ports.unitOf (.seat n)).link)
    (hr : repliesFor u.hub.mgmt (.seat n) = repliesFor s.hub.mgmt (.seat n)) : SeatDead n u :=
  ⟨hl.trans h.link, hr.trans h.replies⟩

theorem fixReply_seatDead (c : ReplyContent) (b : Bool) (h : SeatDead n s) : SeatDead n (fixReply k c b s) := by
  refine ⟨(((fixReply_sameQueues k c b s).only (fun _ => True)).link (.seat n)).trans h.link, ?_⟩
  cases hh : s.hub.mgmt.slots[k].header? with
  | none =>
    simp only [fixReply, hh]
    exact h.replies
  | some q =>
    have hfixed : repliesFor (fixed k q c b s).hub.mgmt (.seat n) = [] := by
      refine repliesFor_none_set h.replies (fun _ hj _ => hj) (fun j hj => fixed_slot_ne hj) ?_
      rw [fixed_slot]
      exact nofun
    by_cases hw : s.hub.mgmt.waiting = []
    · rw [fixReply_of_idle hh hw]
      rcases Nat.lt_or_ge s.hub.cells.free.length (replyCells (fixed k q c b s) q c) with hlack | hcells
      · rw [buildReply_waits (s := fixed k q c b s) hlack]
        exact hfixed
      · cases hd : deadSeat s q.port with
        | false =>
          obtain ⟨id, u, e, hb, -, hmgmt, -, hquiet, -⟩ :=
            buildReply_alive (k := k) (c := c) (s := fixed k q c b s) hd hcells
          have horder : e.mgmt.builtOrder = (fixed k q c b s).hub.mgmt.builtOrder :=
            hquiet.builtOrder.trans (congrArg Mgmt.builtOrder hmgmt)
          have hslots : e.mgmt.slots = (fixed k q c b s).hub.mgmt.slots :=
            hquiet.slots.trans (congrArg Mgmt.slots hmgmt)
          rw [hb, Option.getD_some]
          refine repliesFor_none_set hfixed (k := k) (fun j hj hjk => ?_) (fun j hj => ?_) ?_
          · have hin : j ∈ e.mgmt.builtOrder ++ [k] := hj
            exact horder ▸ (List.mem_append.mp hin).resolve_right (fun hs => hjk (List.mem_singleton.mp hs))
          · exact (placeBuilt_slot_ne e id hj).trans (by rw [hslots])
          · have hport : q.port ≠ .seat n := by
              intro hp
              have hdead : deadSeat s (.seat n) = true := decide_eq_true h.link
              rw [← hp, hd] at hdead
              cases hdead
            rw [show (State.hub _).mgmt.slots[k] = _ from placeBuilt_slot (k := k) (h := q) e id]
            exact fun he => hport (Option.some.inj he)
        | true =>
          obtain ⟨t, hb, hquiet, -, -⟩ := buildReply_dead (k := k) (c := c) (s := fixed k q c b s) hd hcells
          rw [hb, Option.getD_some]
          refine repliesFor_none_set hfixed (k := k) (fun j hj _ => ?_) (fun j hj => ?_) ?_
          · have hin : j ∈ t.hub.mgmt.builtOrder := hj
            rw [hquiet.builtOrder] at hin
            exact (List.mem_filter.mp hin).1
          · exact (congrArg (fun v : Vector ReplySlot 4 => v[j]) hquiet.slots).trans (freeSlot_slot_ne _ hj)
          · have hfree : t.hub.mgmt.slots[k] = .free :=
              (congrArg (fun v : Vector ReplySlot 4 => v[k]) hquiet.slots).trans (freeSlot_slot _)
            rw [show (State.hub _).mgmt.slots[k] = _ from hfree]
            exact nofun
    · simp only [fixReply, hh, hw, if_false]
      exact hfixed

theorem discardEntries_replies (r : Discard) (b : Option Port) (ids : List Nat) (s : State) (p : Port) :
    repliesFor (discardEntries r b ids s).hub.mgmt p = repliesFor s.hub.mgmt p := by
  unfold repliesFor
  rw [discardEntries_builtOrder, discardEntries_slots]

theorem beginRemoval_replies (k : Fin 256) (st : Station) (why : Reason) (s : State) (p : Port) :
    repliesFor (beginRemoval k st why s).hub.mgmt p = repliesFor s.hub.mgmt p := by
  have hup : repliesFor (purgeUpward k s).hub.mgmt p = repliesFor s.hub.mgmt p := by
    obtain ⟨ids, b, hb, -, hu⟩ := purgeUpward_eq k s
    rw [hu, discardEntries_replies, hb]
  have hboth : repliesFor (purgeEgress k st.origin (purgeUpward k s)).hub.mgmt p = repliesFor s.hub.mgmt p := by
    refine Eq.trans ?_ hup
    cases st.origin with
    | seat n => exact discardEntries_replies _ _ _ (onPorts _ (purgeUpward k s)) p
    | radio w i => exact discardEntries_replies _ _ _ (onPorts _ (purgeUpward k s)) p
  unfold beginRemoval
  simp only
  split
  · split <;> exact hboth
  · exact hboth

theorem freeRecord_seatDead (k : Fin 256) (why : Reason) (h : SeatDead n s) : SeatDead n (freeRecord k why s) := by
  unfold freeRecord
  split
  case h_1 => exact h
  case h_2 st _ =>
    simp only
    have htold : SeatDead n (if why = .released then s
        else raiseNotice (.stationGone k st.cls st.origin st.addr why st.ctr st.allowance) s) := by
      split
      · exact h
      · exact h.of rfl (repliesFor_quiet (raise_quiet _ _ _) _)
    split
    · exact htold.of rfl rfl
    · exact (fixReply_seatDead _ _ htold).of rfl rfl

theorem removeRecord_seatDead (k : Fin 256) (why : Reason) (h : SeatDead n s) : SeatDead n (removeRecord k why s) := by
  unfold removeRecord
  split
  case h_1 => exact h
  case h_2 st _ =>
    have hbegun : SeatDead n (beginRemoval k st why s) :=
      h.of ((beginRemoval_only k s st why).link (.seat n)) (beginRemoval_replies k st why s _)
    split
    · exact h
    · split
      · exact hbegun.of rfl rfl
      · exact freeRecord_seatDead k why hbegun

theorem removeRecords_seatDead (why : Reason) (ks : List (Fin 256)) (h : SeatDead n s) :
    SeatDead n (removeRecords why ks s) := by
  induction ks generalizing s with
  | nil => exact h
  | cons k ks ih => exact ih (removeRecord_seatDead k why h)

end

end Sys2Proof.Laws
end

section
/-! SUPPORT. The records of a port whose link is lost (R2, R3, R12), a record removed with nothing to purge, and the
statement on seat ports and radio links that go DOWN. -/

namespace Sys2Proof.Laws

open Sys2Proof Sys2Proof.Machine Sys2Proof.Safety

/-! ## A change that changes nothing -/

theorem modSeat_fixed {ps : Ports} {n : Fin 32} {g : SeatPort → SeatPort} (h : g ps.seats[n] = ps.seats[n]) :
    ps.modSeat n g = ps := by
  rw [Ports.modSeat, h]
  exact congrArg (fun v => { ps with seats := v }) (Vector.set_getElem_self n.isLt)

theorem modRadio_fixed {ps : Ports} {w : Fin 4} {g : RadioLink → RadioLink} (h : g ps.radios[w] = ps.radios[w]) :
    ps.modRadio w g = ps := by
  rw [Ports.modRadio, h]
  exact congrArg (fun v => { ps with radios := v }) (Vector.set_getElem_self w.isLt)

theorem modStation_fixed {t : StationTable} {k : Fin 256} {g : Station → Station} {st : Station}
    (hst : t.station? k = some st) (h : g st = st) : t.modStation k g = t := by
  rw [modStation_of_station hst, h]
  refine congrArg (fun v => { t with slots := v }) ?_
  exact (congrArg (fun o => t.slots.set k o) hst.symm).trans (Vector.set_getElem_self k.isLt)

theorem endRun_endRun (k : Fin 256) (r : Option Run) : endRun k (endRun k r) = endRun k r := by
  simp [endRun, Option.filter_filter]

section
variable {n : Fin 32} {w : Fin 4} {k : Fin 256} {st : Station} {s : State}

theorem clearSeatEgress_empty (h : (s.ports.seats[n]).egress = []) : clearSeatEgress n s = s := by
  rw [clearSeatEgress, h, onPorts, modSeat_fixed (by rw [← h])]
  rfl

theorem clearRadioEgress_empty (h : (s.ports.radios[w]).egress = []) : clearRadioEgress w s = s := by
  rw [clearRadioEgress, h, onPorts, modRadio_fixed (by rw [← h])]
  rfl

theorem purgeSeatEgress_empty (h : (s.ports.seats[n]).egress = []) : purgeSeatEgress k n s = s := by
  rw [purgeSeatEgress]
  simp only [h, List.filter_nil, onPorts]
  rw [modSeat_fixed (by rw [← h])]
  rfl

theorem purgeRadioEgress_empty (h : (s.ports.radios[w]).egress = []) : purgeRadioEgress k w s = s := by
  rw [purgeRadioEgress]
  simp only [h, List.map_nil, List.filter_nil, onPorts]
  rw [modRadio_fixed (by rw [← h])]
  rfl

theorem abortTx_idle {p : Port} (h : (s.ports.unitOf p).tx = none) : abortTx p s = s := by
  simp only [abortTx, h]

theorem loseReception_idle {p : Port} (h : (s.ports.unitOf p).rx = .idle) : loseReception p s = s := by
  simp only [loseReception, h]

theorem discardReplies_empty {p : Port} (h : repliesFor s.hub.mgmt p = []) : discardReplies p s = s := by
  rw [discardReplies, h]
  rfl

/-- A record with nothing queued, no frame in transmission and no RELEASE parked on it is freed with its STATION_GONE
alone (R52, R56). -/
theorem removeRecord_bare {why : Reason} (hst : s.station? k = some st) (hl : st.isLeaving = false)
    (hf : inFlight s k = false) (hup : st.upq = []) (hq : ∀ u : State, u.ports = s.ports → purgeEgress k st.origin u = u)
    (hparked : parkedRelease s.hub.mgmt k = none) (hwhy : why.sendsDrop = false) :
    removeRecord k why s = emptySlot k (raiseNotice (.stationGone k st.cls st.origin st.addr why st.ctr st.allowance)
      { s with
        table := { s.table with held := s.table.held.filter (fun j => decide (j ≠ k)) } }) := by
  have hpurged : purgeUpward k s = { s with
      up := { s.up with run := endRun k s.up.run } } := by
    have htable : s.table.modStation k (fun st => { st with upq := [] }) = s.table :=
      modStation_fixed hst (by rw [← hup])
    simp only [purgeUpward, hst, hup, htable]
    rfl
  have hbegun : beginRemoval k st why s = { s with
      up := { s.up with run := endRun k s.up.run }
      table := { s.table with held := s.table.held.filter (fun j => decide (j ≠ k)) } } := by
    simp only [beginRemoval, hpurged, hq { s with
      up := { s.up with run := endRun k s.up.run } } rfl, hwhy]
    split <;> rfl
  have hgone : why ≠ .released := by
    rintro rfl
    cases hwhy
  have hremoved : removeRecord k why s = freeRecord k why (beginRemoval k st why s) := by
    simp [removeRecord, hst, hl, hf]
  rw [hremoved, hbegun]
  generalize hb : ({ s with
      up := { s.up with run := endRun k s.up.run }
      table := { s.table with held := s.table.held.filter (fun j => decide (j ≠ k)) } } : State) = b
  have hbst : b.station? k = some st := by rw [← hb]; exact hst
  have hnone : parkedRelease (raiseNotice (.stationGone k st.cls st.origin st.addr why st.ctr st.allowance) b).hub.mgmt k =
      none := by
    rw [← hparked, ← hb]
    exact congrArg (fun v : Vector ReplySlot 4 => parkedRelease { s.hub.mgmt with slots := v } k) (raise_quiet _ _ _).slots
  simp only [freeRecord, hbst, if_neg hgone, hnone]
  rw [← hb]
  simp only [emptySlot, raiseNotice_up, endRun_endRun]
  rfl

end

/-! ## The records of a port whose link is lost -/

section
variable {p : Port} {s u : State} {ks : List (Fin 256)} {k : Fin 256} {st : Station} {why : Reason}

theorem LinkLost.removed_leaving (h : LinkLost p s u) (hks : ∀ j r, s.station? j = some r → r.origin = st.origin → j ∈ ks)
    (hst : (removeRecords why ks u).station? k = some st) : st.isLeaving = true := by
  obtain ⟨r, hr, ho⟩ := removeRecords_origin why hst
  obtain ⟨r', hr', ha⟩ := h.same.record_back hr
  exact removeRecords_isLeaving why (hks k r' hr' ((congrArg Station.origin ha :).symm.trans ho.symm)) hst

theorem LinkLost.removed_others (h : LinkLost p s u) (hst : s.station? k = some st) (hno : k ∉ ks ∨ st.isLeaving = true) :
    ∃ st', (removeRecords why ks u).station? k = some st' ∧ apartFromDrops st' = apartFromDrops st := by
  obtain ⟨r, hr, ha⟩ := h.same.record hst
  obtain ⟨r', hr', ha'⟩ := removeRecords_others why (ks := ks) hr (hno.imp_right (isLeaving_of_apart ha).trans)
  exact ⟨r', hr', ha'.trans ha⟩

theorem LinkLost.removed_freed (h : LinkLost p s u) (hp : ∀ x, p ≠ .backbone x) (hk : k ∈ ks)
    (hst : s.station? k = some st) (hl : st.isLeaving = false) (hf : Machine.inFlight s k = false) :
    (removeRecords why ks u).station? k = none := by
  obtain ⟨r, hr, ha⟩ := h.same.record hst
  exact removeRecords_freed why hk hr ((isLeaving_of_apart ha).trans hl) (h.inFlight hp hf)

theorem LinkLost.removed_onAir (h : LinkLost p s u) (hp : ∀ x, p ≠ .backbone x) (hc : CellsWith [] u) (hk : k ∈ ks)
    (hst : s.station? k = some st) (hl : st.isLeaving = false) (ha : OnlyOnAir s k) :
    ∃ st', (removeRecords why ks u).station? k = some st' ∧
      apartFromDrops st' = apartFromDrops { st with state := .leaving why, upq := [] } := by
  obtain ⟨r, hr, hapart⟩ := h.same.record hst
  obtain ⟨id, hair⟩ := h.onAir hp ha
  obtain ⟨r', hr', ha'⟩ := removeRecords_leaving_of_onAir why hk hr ((isLeaving_of_apart hapart).trans hl) hair hc
  exact ⟨r', hr', ha'.trans (leavingAs_apart why hapart)⟩

/-- The ports at the loss of a link and the removal of records of the port. -/
theorem LinkLost.removed_ports (h : LinkLost p s u) (hks : ∀ j ∈ ks, ∀ r, s.station? j = some r → r.origin.port = p) :
    QueuesOnly (· = p) (s.ports.modUnit p unitDown) (removeRecords why ks u).ports := by
  refine h.ports.trans (removeRecords_only why fun j hj r hr => ?_)
  obtain ⟨r', hr', ha⟩ := h.same.record_back hr
  exact (congrArg (fun r : Station => r.origin.port) ha :).trans (hks j hj r' hr')

theorem LinkLost.seatDead {n : Fin 32} (h : LinkLost (.seat n) s u) (hr : repliesFor u.hub.mgmt (.seat n) = []) :
    SeatDead n u :=
  ⟨(h.ports.link (.seat n)).trans (congrArg PortUnit.link (unitOf_modUnit_self s.ports (.seat n) unitDown)), hr⟩

end

theorem removeRecord_shrunk {s : State} (why : Reason) (ks : List (Fin 256)) : Shrinks s (removeRecords why ks s) := by
  induction ks generalizing s with
  | nil => exact (SameEgress.ofPorts rfl).shrinks
  | cons k ks ih => exact (removeRecord_shrinks why).trans ih

section
variable {n : Fin 32} {w : Fin 4} {k : Fin 256} {st : Station} {s : State}

theorem mem_onSeat : k ∈ s.table.onSeat n ↔ ∃ st, s.station? k = some st ∧ st.origin = .seat n := by
  simp only [StationTable.onSeat, mem_slotsWhere, decide_eq_true_eq]
  rfl

theorem mem_onRadio : k ∈ s.table.onRadio w ↔ ∃ st, s.station? k = some st ∧ st.origin.isRadio w = true :=
  mem_slotsWhere

theorem isRadio_port {o : Origin} (h : o.isRadio w = true) : o.port = .radio w := by
  cases o with
  | seat m => cases h
  | radio v i => exact congrArg Port.radio (of_decide_eq_true h)

end

end Sys2Proof.Laws

namespace Sys2Proof.Proofs

open Sys2Proof Sys2Proof.Machine Sys2Proof.Safety Sys2Proof.Laws

/-! ## SEAT_PORT_DOWN -/

section
variable {n : Fin 32} {w : Fin 4} {s : State}

theorem exec_seatPortDown (h : (s.ports.seats[n]).unit.link = .up) : exec (.seatPortDown n) s = .next (downSeat n s) :=
  congrArg Host.Outcome.next (if_pos h)

theorem exec_radioLinkDown (h : (s.ports.radios[w]).unit.link = .up) :
    exec (.radioLinkDown w) s = .next (downRadio w s) :=
  congrArg Host.Outcome.next (if_pos h)

/-- With nothing on the port, its link alone changes (R2). -/
theorem seatLinkLost_bare (hegress : (s.ports.seats[n]).egress = []) (htx : (s.ports.seats[n]).unit.tx = none)
    (hrx : (s.ports.seats[n]).unit.rx = .idle) (hreplies : repliesFor s.hub.mgmt (.seat n) = []) :
    seatLinkLost n s = setLink (.seat n) .down s := by
  have hself : (setLink (.seat n) .down s).ports.seats[n] = { s.ports.seats[n] with
      unit := { (s.ports.seats[n]).unit with link := .down } } := modSeat_self s.ports n _
  rw [seatLinkLost, abortTx_idle (by rw [Ports.unitOf, hself]; exact htx),
    loseReception_idle (by rw [Ports.unitOf, hself]; exact hrx), clearSeatEgress_empty (by rw [hself]; exact hegress)]
  exact discardReplies_empty hreplies

theorem radioLinkLost_bare (hegress : (s.ports.radios[w]).egress = []) (htx : (s.ports.radios[w]).unit.tx = none)
    (hrx : (s.ports.radios[w]).unit.rx = .idle) : radioLinkLost w s =
      onPorts (Ports.modRadio w (fun q => { q with orders := [] })) (setLink (.radio w) .down s) := by
  have hself : (setLink (.radio w) .down s).ports.radios[w] = { s.ports.radios[w] with
      unit := { (s.ports.radios[w]).unit with link := .down } } := modRadio_self s.ports w _
  rw [radioLinkLost, abortTx_idle (by rw [Ports.unitOf, hself]; exact htx),
    loseReception_idle (by rw [Ports.unitOf, hself]; exact hrx), clearRadioEgress_empty (by rw [hself]; exact hegress)]

/-- R2: a record alone on a port with nothing queued. -/
theorem downSeat_lone {k : Fin 256} {st : Station} (hst : s.station? k = some st) (ho : st.origin = .seat n)
    (hks : s.table.onSeat n = [k]) (hl : st.isLeaving = false) (hf : inFlight s k = false) (hup : st.upq = [])
    (hegress : (s.ports.seats[n]).egress = []) (htx : (s.ports.seats[n]).unit.tx = none)
    (hrx : (s.ports.seats[n]).unit.rx = .idle) (hreplies : repliesFor s.hub.mgmt (.seat n) = [])
    (hparked : parkedRelease s.hub.mgmt k = none) : downSeat n s = raiseNotice (.link (.seat n) .down) (emptySlot k
      (raiseNotice (.stationGone k st.cls st.origin st.addr .link st.ctr st.allowance) { s with
        ports := s.ports.modSeat n (fun q => { q with unit := { q.unit with link := .down } })
        table := { s.table with held := s.table.held.filter (fun j => decide (j ≠ k)) } })) := by
  have hfly : inFlight (setLink (.seat n) .down s) k = false := hf
  have hpurge : ∀ u : State, u.ports = (setLink (.seat n) .down s).ports → purgeEgress k st.origin u = u := by
    intro u hu
    rw [ho]
    refine purgeSeatEgress_empty ?_
    rw [hu, setLink, onPorts, modUnit_egress]
    exact hegress
  rw [downSeat, hks, seatLinkLost_bare hegress htx hrx hreplies]
  exact congrArg _ (removeRecord_bare (s := setLink (.seat n) .down s) hst hl hfly hup hpurge hparked rfl)

/-- R3: a record alone on a radio with nothing queued. -/
theorem downRadio_lone {k : Fin 256} {st : Station} (hst : s.station? k = some st) (ho : st.origin.isRadio w = true)
    (hks : s.table.onRadio w = [k]) (hl : st.isLeaving = false) (hf : inFlight s k = false) (hup : st.upq = [])
    (hegress : (s.ports.radios[w]).egress = []) (htx : (s.ports.radios[w]).unit.tx = none)
    (hrx : (s.ports.radios[w]).unit.rx = .idle)
    (hparked : parkedRelease s.hub.mgmt k = none) : downRadio w s = raiseNotice (.link (.radio w) .down) (emptySlot k
      (raiseNotice (.stationGone k st.cls st.origin st.addr .link st.ctr st.allowance) { s with
        ports := s.ports.modRadio w (fun q => { q with unit := { q.unit with link := .down }, orders := [] })
        table := { s.table with held := s.table.held.filter (fun j => decide (j ≠ k)) } })) := by
  have hdown : downRadio w s = raiseNotice (.link (.radio w) .down)
      (removeRecords .link ((radioLinkLost w s).table.onRadio w) (radioLinkLost w s)) := rfl
  have hports : onPorts (Ports.modRadio w (fun q => { q with orders := [] })) (setLink (.radio w) .down s) = { s with
      ports := s.ports.modRadio w (fun q => { q with unit := { q.unit with link := .down }, orders := [] }) } :=
    congrArg (fun ps => { s with ports := ps }) (modRadio_modRadio s.ports w
      (fun q => { q with unit := { q.unit with link := .down } }) (fun q => { q with orders := [] }))
  rw [hdown, radioLinkLost_bare hegress htx hrx, hports]
  generalize hu : ({ s with
      ports := s.ports.modRadio w (fun q => { q with unit := { q.unit with link := .down }, orders := [] }) } : State) = u
  have hself : u.ports.radios[w] = { s.ports.radios[w] with
      unit := { (s.ports.radios[w]).unit with link := .down }
      orders := [] } := by
    rw [← hu]
    exact modRadio_self s.ports w _
  have hpurge : ∀ v : State, v.ports = u.ports → purgeEgress k st.origin v = v := by
    intro v hv
    cases hor : st.origin with
    | seat m => rw [hor] at ho; cases ho
    | radio v' i =>
      rw [hor] at ho
      obtain rfl : v' = w := of_decide_eq_true ho
      refine purgeRadioEgress_empty ?_
      rw [hv, hself]
      exact hegress
  have hks' : u.table.onRadio w = [k] := by rw [← hu]; exact hks
  rw [hks', removeRecords_cons, removeRecord_bare (s := u) (by rw [← hu]; exact hst) hl (by rw [← hu]; exact hf) hup hpurge
    (by rw [← hu]; exact hparked) rfl, ← hu]
  rfl

end

theorem radioLinkLost_safe (w : Fin 4) (s : State) : Safe [] [] s (radioLinkLost w s) :=
  (((setLink_calm s (.radio w) .down).safe.trans (abortTx_safe _ _)).trans
    ((loseReception_calm _ _).trans (clearRadioEgress_calm _ w)).safe).trans
    (onPorts_calm _ (modRadio_keeps rfl id (fun _ => .nil))).safe

/-- R3: what a radio link's going DOWN counts, its records and its notice aside. -/
theorem radioLinkLost_spec (w : Fin 4) (s : State) : ∃ a, LostWithLink (.radio w) s a ∧ (a.ports.radios[w]).egress = [] ∧
    radioLinkLost w s = onPorts (Ports.modRadio w (fun q => { q with orders := [] }))
      (discardEntries .purge (some (.radio w)) ((s.ports.radios[w]).egress.map (·.id)) a) := by
  have hlink : Counts s (setLink (.radio w) .down s) (fun _ => 0) (fun _ => 0) :=
    counts_onPorts s (fun q => modUnit_ctr _ _ _ (by intro _; rfl))
  have hunit : (setLink (.radio w) .down s).ports.unitOf (.radio w) = { s.ports.unitOf (.radio w) with link := .down } :=
    unitOf_modUnit_self s.ports (.radio w) (fun u => { u with link := .down })
  have haborts := abortTx_aborts (.radio w) (setLink (.radio w) .down s) (radio_not_backbone w)
  have hloses := loseReception_loses (.radio w) (abortTx (.radio w) (setLink (.radio w) .down s))
  have hqueues := linkLost_ports (.radio w) s
  have hrx := haborts.rx
  rw [radioLinkLost]
  generalize abortTx (.radio w) (setLink (.radio w) .down s) = a0 at *
  generalize loseReception (.radio w) a0 = a1 at *
  have hegress : (a1.ports.radios[w]).egress = (s.ports.radios[w]).egress := (hqueues.radio w).trans (modUnit_radio ..)
  have hcleared : Counts a1 (onPorts (Ports.modRadio w (fun q => { q with egress := [] })) a1) (fun _ => 0) (fun _ => 0) :=
    counts_onPorts a1 (fun q => congrArg PortUnit.ctr (modRadio_unit _ _ (by intro _; rfl) _))
  have hsent : inTransmission (setLink (.radio w) .down s) (.radio w) = inTransmission s (.radio w) := by
    unfold inTransmission
    rw [hunit]
  have hreceived : inReception a0 (.radio w) = inReception s (.radio w) := by
    unfold inReception
    rw [hrx, hunit]
  refine ⟨onPorts (Ports.modRadio w (fun q => { q with egress := [] })) a1,
    ⟨?_, hloses.table.trans haborts.table, fun id hid => ?_⟩, congrArg RadioLink.egress (modRadio_self a1.ports w _), ?_⟩
  · refine (((hlink.trans haborts.counts).trans hloses.counts).trans hcleared).congr (fun r => ?_) (fun q => ?_)
    · rw [hsent, hreceived]
      omega
    · rw [hsent]
      omega
  · exact (hloses.owners id).trans (haborts.owners id (by rw [hunit]; exact hid))
  · rw [clearRadioEgress, hegress]

end Sys2Proof.Proofs
end

section
/-! The statement on seat ports and radio links that go DOWN (R2, R3). -/

namespace Sys2Proof.Proofs

open Sys2Proof Sys2Proof.Machine Sys2Proof.Safety Sys2Proof.Laws

theorem mem_onSeat_port {n : Fin 32} {s : State} {k : Fin 256} {st : Station} (hk : k ∈ s.table.onSeat n)
    (hst : s.station? k = some st) : st.origin = .seat n := by
  obtain ⟨r, hr, ho⟩ := mem_onSeat.mp hk
  exact Option.some.inj (hst.symm.trans hr) ▸ ho

theorem mem_onRadio_port {w : Fin 4} {s : State} {k : Fin 256} {st : Station} (hk : k ∈ s.table.onRadio w)
    (hst : s.station? k = some st) : st.origin.isRadio w = true := by
  obtain ⟨r, hr, ho⟩ := mem_onRadio.mp hk
  exact Option.some.inj (hst.symm.trans hr) ▸ ho

/-- Settles O14: the loss of the link, then the removal of the port's records, then the notice (R2, R3). -/
theorem attachmentLinkGoesDown : Obligations.AttachmentLinkGoesDown := by
  refine ⟨fun n s hup => ⟨_, exec_seatPortDown hup, ?seat⟩, fun w s hup => ⟨_, exec_radioLinkDown hup, ?radio⟩⟩
  case seat =>
    have hlost := seatLinkLost_lost n s
    have hlone := fun k st hst ho hks hl hf hq hegress htx hrx hno hparked =>
      (exec_seatPortDown hup).trans (congrArg Host.Outcome.next
        (downSeat_lone (k := k) (st := st) hst ho hks hl hf hq hegress htx hrx hno hparked))
    have hports := hlost.removed_ports (ks := s.table.onSeat n) (why := .link)
      (fun j hj r hr => congrArg Origin.port (mem_onSeat_port hj hr))
    have hreplies := (removeRecords_seatDead .link (s.table.onSeat n)
      (hlost.seatDead (seatLinkLost_replies n s))).replies
    have hegress : ((removeRecords .link (s.table.onSeat n) (seatLinkLost n s)).ports.seats[n]).egress = [] :=
      List.sublist_nil.mp ((hlost.seatEmpty n rfl) ▸ (removeRecord_shrunk .link (s.table.onSeat n)).seats n)
    have hkept := hlost.same.kept.trans (removeRecords_kept .link (s.table.onSeat n) (seatLinkLost n s))
    have honboard := (removeRecords_onboard .link (s.table.onSeat n) (seatLinkLost n s)).trans
      (congrArg UpwardService.onboard hlost.same.up)
    have hcells : CellsOk s → CellsWith [] (seatLinkLost n s) := fun hc => (seatLinkLost_safe n s).cells (cellsOk_iff.mp hc)
    have hleaving := fun k st => hlost.removed_leaving (k := k) (st := st) (ks := s.table.onSeat n) (why := .link)
    have hothers := fun k st => hlost.removed_others (k := k) (st := st) (ks := s.table.onSeat n) (why := .link)
    have hfreed := fun k st => hlost.removed_freed (k := k) (st := st) (ks := s.table.onSeat n) (why := .link)
      (seat_not_backbone n)
    have honAir := fun k st hc => hlost.removed_onAir (k := k) (st := st) (ks := s.table.onSeat n) (why := .link)
      (seat_not_backbone n) (hcells hc)
    obtain ⟨a, hcounted, hcleared, -, hrepliesLost⟩ := seatLinkLost_spec n s
    have hremoved := removeRecords_removed .link (s.table.onSeat n) (seatLinkLost n s)
    rw [downSeat]
    generalize removeRecords .link (s.table.onSeat n) (seatLinkLost n s) = t at *
    have hunit := (hports.unit (.seat n)).trans (congrArg withoutCounters (unitOf_modUnit_self s.ports (.seat n) unitDown))
    refine ⟨(congrArg PortUnit.link hunit :), (congrArg PortUnit.tx hunit :), (congrArg PortUnit.rx hunit :), hegress, ?_,
      (repliesFor_quiet (raise_quiet _ _ _) _).trans hreplies,
      fun k st hst ho => hleaving k st (fun j r hr hro => mem_onSeat.mpr ⟨r, hr, hro.trans ho⟩) hst,
      fun k st hst ho => ⟨fun hl => hothers k st hst (.inr hl), hfreed k st (mem_onSeat.mpr ⟨st, hst, ho⟩) hst,
        fun hc => honAir k st hc (mem_onSeat.mpr ⟨st, hst, ho⟩) hst, hlone k st hst ho⟩,
      fun k st hst ho => hothers k st hst (.inl fun hin => ho (mem_onSeat_port hin hst)), fun m hm => ?_,
      fun w => hports.radios w nofun, fun x => ?_, honboard, hkept.windows, hkept.sched, hkept.consist, hkept.hold,
      hkept.now, a, seatLinkLost n s, t, hcounted, hcleared, hrepliesLost, hremoved, rfl⟩
    · exact (hports.designation n).trans (congrArg SeatPort.designation (modSeat_self s.ports n _) :)
    · refine (hports.seats m (fun he => hm (Port.seat.inj he))).trans ?_
      rw [Ports.modUnit, modSeat_seat, if_neg (Ne.symm hm)]
    · exact (hports.ends x).trans (by cases x <;> rfl)
  case radio =>
    have hlost := radioLinkLost_lost w s
    have hlone := fun k st hst ho hks hl hf hq hegress htx hrx hparked =>
      (exec_radioLinkDown hup).trans (congrArg Host.Outcome.next
        (downRadio_lone (k := k) (st := st) hst ho hks hl hf hq hegress htx hrx hparked))
    have hrecords : (radioLinkLost w s).table.onRadio w = s.table.onRadio w :=
      hlost.slotsWhere fun a b h => (congrArg (fun st : Station => st.origin.isRadio w) h :)
    have hdown : downRadio w s = raiseNotice (.link (.radio w) .down)
        (removeRecords .link (s.table.onRadio w) (radioLinkLost w s)) := by
      rw [← hrecords]
      rfl
    have hports := hlost.removed_ports (ks := s.table.onRadio w) (why := .link)
      (fun j hj r hr => isRadio_port (mem_onRadio_port hj hr))
    have hegress : ((removeRecords .link (s.table.onRadio w) (radioLinkLost w s)).ports.radios[w]).egress = [] :=
      List.sublist_nil.mp ((hlost.radioEmpty w rfl) ▸ (removeRecord_shrunk .link (s.table.onRadio w)).radios w)
    have horders := (removeRecords_orders (why := .link) (s.table.onRadio w) (radioLinkLost w s) (by simp) w).trans
      (radioLinkLost_orders w s)
    have hkept := hlost.same.kept.trans (removeRecords_kept .link (s.table.onRadio w) (radioLinkLost w s))
    have honboard := (removeRecords_onboard .link (s.table.onRadio w) (radioLinkLost w s)).trans
      (congrArg UpwardService.onboard hlost.same.up)
    have hcells : CellsOk s → CellsWith [] (radioLinkLost w s) := fun hc =>
      (radioLinkLost_safe w s).cells (cellsOk_iff.mp hc)
    have hmem : ∀ {k st}, s.station? k = some st → st.origin.isRadio w = true → k ∈ s.table.onRadio w :=
      fun hst ho => mem_onRadio.mpr ⟨_, hst, ho⟩
    have hleaving := fun k st => hlost.removed_leaving (k := k) (st := st) (ks := s.table.onRadio w) (why := .link)
    have hothers := fun k st => hlost.removed_others (k := k) (st := st) (ks := s.table.onRadio w) (why := .link)
    have hfreed := fun k st => hlost.removed_freed (k := k) (st := st) (ks := s.table.onRadio w) (why := .link)
      (radio_not_backbone w)
    have honAir := fun k st hc => hlost.removed_onAir (k := k) (st := st) (ks := s.table.onRadio w) (why := .link)
      (radio_not_backbone w) (hcells hc)
    obtain ⟨a, hcounted, hcleared, hdiscards⟩ := radioLinkLost_spec w s
    have hremoved : RemovedAll .link (s.table.onRadio w) (onPorts (Ports.modRadio w (fun q => { q with orders := [] }))
        (discardEntries .purge (some (.radio w)) ((s.ports.radios[w]).egress.map (·.id)) a))
        (removeRecords .link (s.table.onRadio w) (radioLinkLost w s)) := by
      rw [← hdiscards]
      exact removeRecords_removed .link (s.table.onRadio w) (radioLinkLost w s)
    rw [hdown]
    generalize removeRecords .link (s.table.onRadio w) (radioLinkLost w s) = t at *
    have hunit := (hports.unit (.radio w)).trans (congrArg withoutCounters (unitOf_modUnit_self s.ports (.radio w) unitDown))
    refine ⟨(congrArg PortUnit.link hunit :), (congrArg PortUnit.tx hunit :), (congrArg PortUnit.rx hunit :), hegress,
      horders, fun k st hst ho => hleaving k st (fun j r hr hro => hmem hr (hro ▸ ho)) hst,
      fun k st hst ho => ⟨fun hl => hothers k st hst (.inr hl), hfreed k st (hmem hst ho) hst,
        fun hc => honAir k st hc (hmem hst ho) hst, hlone k st hst ho⟩,
      fun k st hst ho => hothers k st hst (.inl fun hin => ?_), fun m => hports.seats m nofun, fun v hv => ?_,
      fun x => ?_, honboard, hkept.windows, hkept.sched, hkept.consist, hkept.hold, hkept.now, a, t, hcounted, hcleared,
      hremoved, rfl⟩
    · rw [mem_onRadio_port hin hst] at ho
      cases ho
    · refine (hports.radios v (fun he => hv (Port.radio.inj he))).trans ?_
      rw [Ports.modUnit, modRadio_radio, if_neg (Ne.symm hv)]
    · exact (hports.ends x).trans (by cases x <;> rfl)

end Sys2Proof.Proofs
end

section
/-! SUPPORT. What the take of a request leaves of a frame on the air (R52, R169); and the statement on SET_PORT (R12). -/

namespace Sys2Proof.Laws

open Sys2Proof Sys2Proof.Machine Sys2Proof.Safety

/-- A change of a stored frame that keeps the record it names. -/
theorem modFrame_owner {c : CellMemory} {i : Nat} {g : FrameRec → FrameRec} (hid : ∀ f, (g f).id = f.id)
    (hst : ∀ f, (g f).station = f.station) (id : Nat) : (c.modFrame i g).owner id = c.owner id := by
  by_cases hi : id = i
  · subst hi
    cases hf : c.frame? id with
    | some f =>
      rw [CellMemory.owner, frame?_modFrame_self hf hid, CellMemory.owner, hf]
      exact hst f
    | none =>
      have hnone : (c.modFrame id g).frame? id = none := by
        rw [CellMemory.frame?, List.find?_eq_none] at hf ⊢
        intro x hx
        obtain ⟨f, hmem, rfl⟩ := List.mem_map.mp hx
        have hne := hf f hmem
        split
        · exact hid f ▸ hne
        · exact hne
      rw [CellMemory.owner, hnone, CellMemory.owner, hf]
  · rw [CellMemory.owner, frame?_modFrame_ne hid hi, CellMemory.owner]

/-- A reading leaves the records that frames name. -/
theorem readFrame_owner (f : FrameRec) (p : Option Port) (h : Hub) (id : Nat) :
    (h.readFrame f p).2.cells.owner id = h.cells.owner id := by
  simp only [Hub.readFrame, flagN_cells]
  exact modFrame_owner (c := h.cells) (i := f.id) (g := fun g => { g with failed := g.failed ++ _ }) (fun _ => rfl)
    (fun _ => rfl) id

section
variable {s : State} {fs : List CellFault} {k : Fin 4} {rq : Request}

/-- A take drops the reference of the request's frame, and touches no other (R169). -/
theorem afterTake_owners (ht : Takes s fs k rq) : NamesFrom s.hub.cells (afterTake s fs).hub.cells ∧
    ∃ e, s.hub.mgmt.input.head? = some e ∧ ∀ id, id ≠ e.id →
      (afterTake s fs).hub.cells.owner id = s.hub.cells.owner id := by
  obtain ⟨e, f, hready, hread, hsrc, -⟩ := ht
  obtain ⟨hhead, -⟩ := requestReady_eq_some hready
  have hafter : afterTake s fs = onHub (Hub.dropRef (withFaults fs s).sender e.id) (takenIn k f rq (withFaults fs s)) := by
    simp only [afterTake, hready, takeInto_of_reads hread hsrc]
  have htaken : ∀ id, (takenIn k f rq (withFaults fs s)).hub.cells.owner id = s.hub.cells.owner id :=
    fun id => readFrame_owner f none (withFaults fs s).hub id
  rw [hafter]
  refine ⟨fun id j hj => ?_, e, hhead, fun id hid => ?_⟩
  · exact (htaken id).symm.trans
      (dropRef_names (withFaults fs s).sender e.id (takenIn k f rq (withFaults fs s)).hub id j hj)
  · exact (dropRef_owner_ne (withFaults fs s).sender (takenIn k f rq (withFaults fs s)).hub hid).trans (htaken id)

theorem afterTake_sameRecords (ht : Takes s fs k rq) : SameRecords s (afterTake s fs) := by
  obtain ⟨hkept, htable, hup⟩ := afterTake_kept s fs
  exact ⟨fun j => congrArg (fun t : StationTable => (t.station? j).map apartFromDrops) htable, hup, hkept,
    (afterTake_owners ht).1⟩

theorem SameRecords.absent {a b : State} (h : SameRecords a b) {j : Fin 256} (hn : a.station? j = none) :
    b.station? j = none := by
  have hr := h.records j
  rwa [hn, Option.map_none, Option.map_eq_none_iff] at hr

theorem afterTake_cells (ht : Takes s fs k rq) (h : CellsWith [] s) : CellsWith [] (afterTake s fs) := by
  obtain ⟨e, f, hready, -⟩ := ht
  have hcalm : Calm [] [] s (afterTake s fs) := by
    simp only [afterTake, hready]
    exact (withFaults_calm s fs).trans (takeInto_calm _ k e rq (requestReady_frame hready))
  exact hcalm.cells h

theorem afterTake_inFlight (ht : Takes s fs k rq) {j : Fin 256} (hf : inFlight s j = false) :
    inFlight (afterTake s fs) j = false :=
  Bool.eq_false_iff.mpr fun hu => Bool.eq_false_iff.mp hf
    (inFlight_before (fun x _ hx => by rwa [afterTake_ports ht] at hx) (afterTake_owners ht).1 hu)

theorem afterTake_onAir (ht : Takes s fs k rq) {j : Fin 256} (ha : OnlyOnAir s j) : ∃ id, OnAir id j (afterTake s fs) := by
  obtain ⟨id, hair, -, -, hinput⟩ := onAir_of_onlyOnAir ha
  obtain ⟨-, e, hhead, howner⟩ := afterTake_owners ht
  have hports := afterTake_ports ht
  have hne : id ≠ e.id := fun he => hinput (List.mem_map.mpr ⟨e, List.mem_of_mem_head? hhead, he.symm⟩)
  exact ⟨id, hair.shrinks (fun x => by rw [hports]) (fun ho => (howner id hne).trans ho) (SameEgress.ofPorts hports).shrinks
    (afterTake_sameRecords ht)⟩

end

end Sys2Proof.Laws

namespace Sys2Proof.Proofs

open Sys2Proof Sys2Proof.Machine Sys2Proof.Safety Sys2Proof.Laws

section
variable {s : State} {fs : List CellFault} {k : Fin 4} {rq : Request} {n : Fin 32} {d : Designation}

theorem designationOfCode_bad {c : Nat} (h : c = 0 ∨ 5 < c) : designationOfCode c = none := by
  rcases h with rfl | h
  · rfl
  · obtain ⟨m, rfl⟩ := Nat.exists_eq_add_of_lt h
    rw [Nat.add_right_comm, Nat.add_comm]
    rfl

theorem ruleSetPort_bad (h : 31 < rq.num 0 1 ∨ rq.num 1 1 = 0 ∨ 5 < rq.num 1 1) (t : State) :
    ruleSetPort k rq t = refuse k .badValue t := by
  unfold ruleSetPort
  split
  case isTrue hlt => rw [designationOfCode_bad (h.resolve_left (by omega))]
  case isFalse => rfl

theorem ruleSetPort_of (hn : rq.num 0 1 = n.val) (hd : designationOfCode (rq.num 1 1) = some d) (t : State) :
    ruleSetPort k rq t = if (t.ports.seats[n]).designation = d then answer k [d.code, 0] t
      else answer k [d.code, BitVec.ofNat 8 (removedBySetPort t n)] (changeDesignation n d t) := by
  have hlt : rq.num 0 1 < 32 := hn ▸ n.isLt
  have hfin : (⟨rq.num 0 1, hlt⟩ : Fin 32) = n := Fin.ext hn
  simp only [ruleSetPort, hlt, dif_pos, hd, hfin]

theorem exec_setPort (ht : Takes s fs k rq) (hc : rq.code = 0x0F) :
    exec (.setPort fs) s = .next (ruleSetPort k rq (afterTake s fs)) :=
  congrArg Host.Outcome.next (takeRequest_of_takes ht (isCode_of_eq hc))

/-- The port with its records removed, its queue emptied and the designation in force (R12, steps 1 to 3). -/
def redesignated (n : Fin 32) (d : Designation) (s : State) : State :=
  onPorts (Ports.modSeat n (fun q => { q with designation := d }))
    (clearSeatEgress n (removeRecords .portChanged (s.table.onSeat n) s))

theorem changeDesignation_eq (n : Fin 32) (d : Designation) (t : State) : changeDesignation n d t =
    if d = .disabled ∧ ((redesignated n d t).ports.seats[n]).unit.link = .up then
      raiseNotice (.link (.seat n) .down) (seatLinkLost n (redesignated n d t))
    else redesignated n d t := rfl

/-- The ports as a designation comes into force. -/
theorem redesignated_ports (n : Fin 32) (d : Designation) (t : State) :
    withoutCounters ((redesignated n d t).ports.seats[n]).unit = withoutCounters (t.ports.seats[n]).unit ∧
    ((redesignated n d t).ports.seats[n]).designation = d ∧ ((redesignated n d t).ports.seats[n]).egress = [] ∧
    ∀ m : Fin 32, m ≠ n → quietSeat (redesignated n d t).ports.seats[m] = quietSeat t.ports.seats[m] := by
  have hremoved : QueuesOnly (· = Port.seat n) t.ports (removeRecords .portChanged (t.table.onSeat n) t).ports :=
    removeRecords_only .portChanged (fun j hj r hr => congrArg Origin.port (mem_onSeat_port hj hr))
  rw [redesignated]
  generalize removeRecords .portChanged (t.table.onSeat n) t = v at *
  have hcleared : QueuesOnly (· = Port.seat n) t.ports (clearSeatEgress n v).ports :=
    hremoved.trans (.discards _ _ _ (onPorts _ v)
      (.modSeat (g := fun q => { q with egress := [] }) v.ports rfl (fun _ => rfl)))
  have hempty : ((clearSeatEgress n v).ports.seats[n]).egress = [] := by
    rw [clearSeatEgress, (discardEntries_sameQueues ..).seat]
    exact (congrArg SeatPort.egress (modSeat_self v.ports n _) :)
  have hself := modSeat_self (clearSeatEgress n v).ports n (fun q => { q with designation := d })
  refine ⟨?_, (congrArg SeatPort.designation hself :), (congrArg SeatPort.egress hself :).trans hempty, fun m hm => ?_⟩
  · exact (congrArg (fun q : SeatPort => withoutCounters q.unit) hself :).trans (hcleared.unit (.seat n))
  · refine Eq.trans ?_ (hcleared.seats m (fun he => hm (Port.seat.inj he)))
    rw [onPorts, modSeat_seat, if_neg (Ne.symm hm)]

theorem redesignated_sameRecords (n : Fin 32) (d : Designation) (t : State) :
    SameRecords (removeRecords .portChanged (t.table.onSeat n) t) (redesignated n d t) :=
  ((sameRecords_onPorts _ _).trans (discardEntries_sameRecords ..)).trans (sameRecords_onPorts _ _)

theorem raiseNotice_sameRecords (m : Notice) (s : State) : SameRecords s (raiseNotice m s) :=
  ⟨fun _ => rfl, rfl, raiseNotice_kept m s, (raise_adds _ _ _).names⟩

/-- R12: with DISABLED on a port that is UP, its link is lost too. -/
theorem changeDesignation_lost {t : State} (hd : d = .disabled) (hup : (t.ports.seats[n]).unit.link = .up) :
    changeDesignation n d t = raiseNotice (.link (.seat n) .down) (seatLinkLost n (redesignated n d t)) := by
  have hlink : ((redesignated n d t).ports.seats[n]).unit.link = (t.ports.seats[n]).unit.link :=
    (congrArg PortUnit.link (redesignated_ports n d t).1 :)
  rw [changeDesignation_eq, if_pos ⟨hd, hlink.trans hup⟩]

theorem changeDesignation_kept {t : State} (h : d ≠ .disabled ∨ (t.ports.seats[n]).unit.link = .down) :
    changeDesignation n d t = redesignated n d t := by
  have hlink : ((redesignated n d t).ports.seats[n]).unit.link = (t.ports.seats[n]).unit.link :=
    (congrArg PortUnit.link (redesignated_ports n d t).1 :)
  rw [changeDesignation_eq, if_neg]
  rintro ⟨hd, hup⟩
  rcases h with h | h
  · exact h hd
  · rw [hlink, h] at hup
    cases hup

theorem changeDesignation_cases (n : Fin 32) (d : Designation) (t : State) :
    (d ≠ .disabled ∨ (t.ports.seats[n]).unit.link = .down) ∨ d = .disabled ∧ (t.ports.seats[n]).unit.link = .up := by
  cases (t.ports.seats[n]).unit.link with
  | down => exact .inl (.inr rfl)
  | up =>
    by_cases hd : d = .disabled
    · exact .inr ⟨hd, rfl⟩
    · exact .inl (.inl hd)

theorem changeDesignation_sameRecords (n : Fin 32) (d : Designation) (t : State) :
    SameRecords (removeRecords .portChanged (t.table.onSeat n) t) (changeDesignation n d t) := by
  have hsame := redesignated_sameRecords n d t
  rcases changeDesignation_cases n d t with h | ⟨hd, hup⟩
  · rw [changeDesignation_kept h]
    exact hsame
  · rw [changeDesignation_lost hd hup]
    exact (hsame.trans (seatLinkLost_lost n (redesignated n d t)).same).trans (raiseNotice_sameRecords _ _)

/-- The ports behind a change of designation (R12). -/
structure Redesignated (n : Fin 32) (d : Designation) (a b : Ports) : Prop where
  designation : (b.seats[n]).designation = d
  egress : (b.seats[n]).egress = []
  disabled : d = .disabled → (b.seats[n]).unit.link = .down ∧ ((a.seats[n]).unit.link = .up → (b.seats[n]).unit.tx = none)
  enabled : d ≠ .disabled → (b.seats[n]).unit.link = (a.seats[n]).unit.link ∧ (b.seats[n]).unit.tx = (a.seats[n]).unit.tx
  others : ∀ m : Fin 32, m ≠ n → quietSeat b.seats[m] = quietSeat a.seats[m]

theorem changeDesignation_ports (n : Fin 32) (d : Designation) (t : State) :
    Redesignated n d t.ports (changeDesignation n d t).ports := by
  obtain ⟨hunit, hdesignation, hegress, hseats⟩ := redesignated_ports n d t
  rcases changeDesignation_cases n d t with h | ⟨hd, hup⟩
  · rw [changeDesignation_kept h]
    generalize redesignated n d t = c at *
    refine ⟨hdesignation, hegress, fun hd => ?_, fun _ => ⟨(congrArg PortUnit.link hunit :), (congrArg PortUnit.tx hunit :)⟩,
      hseats⟩
    have hdown := h.resolve_left (not_not.mpr hd)
    exact ⟨(congrArg PortUnit.link hunit :).trans hdown, fun hup => by rw [hdown] at hup; cases hup⟩
  · rw [changeDesignation_lost hd hup]
    have hlost := seatLinkLost_lost n (redesignated n d t)
    generalize seatLinkLost n (redesignated n d t) = u at *
    generalize redesignated n d t = c at *
    have hself := (hlost.ports.unit (.seat n)).trans
      (congrArg withoutCounters (unitOf_modUnit_self c.ports (.seat n) unitDown))
    refine ⟨?_, hlost.seatEmpty n rfl, fun _ => ⟨(congrArg PortUnit.link hself :), fun _ => (congrArg PortUnit.tx hself :)⟩,
      fun hne => absurd hd hne, fun m hm => ?_⟩
    · exact ((hlost.ports.designation n).trans (congrArg SeatPort.designation (modSeat_self _ n _) :)).trans hdesignation
    · refine ((hlost.ports.seats m (fun he => hm (Port.seat.inj he))).trans ?_).trans (hseats m hm)
      rw [Ports.modUnit, modSeat_seat, if_neg (Ne.symm hm)]

/-- What the loss of the link counts, with the queue empty already (R2, R12). -/
theorem redesignated_lost (n : Fin 32) (d : Designation) (t : State) : ∃ a,
    LostWithLink (.seat n) (redesignated n d t) a ∧
      RepliesLost (.seat n) (waitingReplies (redesignated n d t) (.seat n)) a (seatLinkLost n (redesignated n d t)) := by
  obtain ⟨a, hcounted, -, -, hreplies⟩ := seatLinkLost_spec n (redesignated n d t)
  rw [(redesignated_ports n d t).2.2.1] at hreplies
  exact ⟨a, hcounted, hreplies⟩

end

/-- Settles O53: the removals, the queue emptied and the designation in force, and with DISABLED the loss of the link
(R12). -/
theorem setPortDesignates : Obligations.SetPortDesignates := by
  intro s fs k rq ht hc t
  have hexec := exec_setPort ht hc
  have hports : t.ports = s.ports := afterTake_ports ht
  have htable : t.table = s.table := afterTake_table
  have hstation : ∀ j, t.station? j = s.station? j := fun j => congrArg (fun t : StationTable => t.station? j) htable
  have hkept : Kept s t := (afterTake_kept s fs).1
  refine ⟨fun hbad => hexec.trans (congrArg _ (ruleSetPort_bad hbad t)), fun n d hn hd => ?_⟩
  rw [hexec, ruleSetPort_of hn hd, show afterTake s fs = t from rfl, hports]
  refine ⟨fun hsame => by rw [if_pos hsame], fun hother => ?_⟩
  have hcount : removedBySetPort t n = (s.table.slotsWhere
      (fun st => decide (st.origin = .seat n) && !st.isLeaving)).length := by rw [removedBySetPort, htable]
  have hpresent := changeDesignation_ports n d t
  have hrecords := changeDesignation_sameRecords n d t
  have hlost := fun hdis hup => changeDesignation_lost (n := n) (d := d) (t := t) hdis hup
  have hsame := fun h => changeDesignation_kept (n := n) (d := d) (t := t) h
  have hlosses := redesignated_lost n d t
  rw [hports] at hpresent hlost hsame
  have hmem : ∀ {j st}, s.station? j = some st → st.origin = .seat n → j ∈ t.table.onSeat n :=
    fun hst ho => mem_onSeat.mpr ⟨_, (hstation _).trans hst, ho⟩
  have hcells : CellsOk s → CellsWith [] t := fun h => afterTake_cells ht (cellsOk_iff.mp h)
  have hallKept := (hkept.trans (removeRecords_kept .portChanged (t.table.onSeat n) t)).trans hrecords.kept
  rw [if_neg hother, hcount]
  refine ⟨_, rfl, hpresent.designation, hpresent.egress, fun j st hst ho => ?_, fun j st hst ho => ⟨fun hl => ?_,
    fun hl hf => ?_, fun hok hl ha => ?_⟩, ⟨removeRecords .portChanged (t.table.onSeat n) t, ?_, hsame, fun hdis hup => ?_⟩,
    fun j st hst ho => ?_, hpresent.disabled, hpresent.enabled, hpresent.others, hallKept.windows, hallKept.sched,
    hallKept.consist, hallKept.hold⟩
  · obtain ⟨r, hr, ha⟩ := hrecords.record_back hst
    obtain ⟨r', hr', hro⟩ := removeRecords_origin .portChanged hr
    have hro' : r'.origin = .seat n := hro.symm.trans ((congrArg Station.origin ha :).symm.trans ho)
    exact (isLeaving_of_apart ha).trans
      (removeRecords_isLeaving .portChanged (hmem ((hstation j).symm.trans hr') hro') hr)
  · obtain ⟨r, hr, ha⟩ := removeRecords_others .portChanged ((hstation j).trans hst) (ks := t.table.onSeat n) (.inr hl)
    obtain ⟨r', hr', ha'⟩ := hrecords.record hr
    exact ⟨r', hr', ha'.trans ha⟩
  · exact hrecords.absent (removeRecords_freed .portChanged (hmem hst ho) ((hstation j).trans hst) hl
      (afterTake_inFlight ht hf))
  · obtain ⟨id, hair⟩ := afterTake_onAir ht ha
    obtain ⟨r, hr, ha⟩ := removeRecords_leaving_of_onAir .portChanged (hmem hst ho) ((hstation j).trans hst) hl hair (hcells hok)
    obtain ⟨r', hr', ha'⟩ := hrecords.record hr
    exact ⟨r', hr', ha'.trans ha⟩
  · rw [← htable]
    exact removeRecords_removed .portChanged (t.table.onSeat n) t
  · obtain ⟨a, hcounted, hreplies⟩ := hlosses
    exact ⟨a, _, hcounted, hreplies, hlost hdis hup⟩
  · obtain ⟨r, hr, ha⟩ := removeRecords_others .portChanged ((hstation j).trans hst) (ks := t.table.onSeat n)
      (.inl fun hin => ho (mem_onSeat_port hin ((hstation j).trans hst)))
    obtain ⟨r', hr', ha'⟩ := hrecords.record hr
    exact ⟨r', hr', ha'.trans ha⟩

end Sys2Proof.Proofs
end

section
/-! SUPPORT. The abort of a transmission on a backbone end (R4, R10, R56) and the end of its transit queue and holds (R14);
and the statement on backbone ends that go DOWN. -/

namespace Sys2Proof.Laws

open Sys2Proof Sys2Proof.Machine Sys2Proof.Safety

theorem modEnd_unit (ps : Ports) (x : End) {g : BackboneEnd → BackboneEnd} (h : ∀ e, (g e).unit = e.unit) (p : Port) :
    (ps.modEnd x g).unitOf p = ps.unitOf p := by
  cases p with
  | seat n => rw [Ports.unitOf, Ports.unitOf, modEnd_seats]
  | radio w => rw [Ports.unitOf, Ports.unitOf, modEnd_radios]
  | backbone y =>
    rw [Ports.unitOf, Ports.unitOf, modEnd_end]
    split
    case isTrue hy => subst hy; exact h _
    case isFalse => rfl

theorem SameQueues.modEnd {a b : Ports} (h : SameQueues a b) (x : End) {g : BackboneEnd → BackboneEnd}
    (hg : ∀ e e', quietEnd e = quietEnd e' → quietEnd (g e) = quietEnd (g e')) :
    SameQueues (a.modEnd x g) (b.modEnd x g) := by
  refine ⟨fun n => ?_, fun w => ?_, fun y => ?_⟩
  · rw [modEnd_seats, modEnd_seats]
    exact h.seats n
  · rw [modEnd_radios, modEnd_radios]
    exact h.radios w
  · rw [modEnd_end, modEnd_end]
    split
    case isTrue hy => subst hy; exact hg _ _ (h.ends _)
    case isFalse => exact h.ends y

theorem other_ne (x : End) : x.other ≠ x := by cases x <;> nofun

/-! ## The abort -/

/-- The abort of the transmission of a backbone end from `s` to `a`, the freeing of a LEAVING record aside (R8, R10). -/
structure EndAborts (x : End) (s a : State) : Prop where
  counts : Counts s a (countAt .aborted (inTransmission s (.backbone x))) (countAt (.backbone x)
    (inTransmission s (.backbone x)))
  table : a.table = s.table
  up : a.up = s.up
  kept : Kept s a
  ports : SameQueues (s.ports.modUnit (.backbone x) (fun u => { u with tx := none })) a.ports
  settled : ∀ id, (s.ports.endOf x).unit.tx = some (.frame id) →
    abortTx (.backbone x) s = settleOwner (s.hub.cells.owner id) a
  unsettled : (∀ id, (s.ports.endOf x).unit.tx ≠ some (.frame id)) → abortTx (.backbone x) s = a

section
variable {x : End} {s : State}

/-- Nothing that counts is in transmission. -/
theorem endAborts_silent (hf : (s.ports.endOf x).unit.tx.bind Transmission.frame? = none)
    (h : abortTx (.backbone x) s = setTx (.backbone x) none s) : EndAborts x s (setTx (.backbone x) none s) := by
  have hcount : inTransmission s (.backbone x) = 0 := by
    rw [inTransmission, Ports.unitOf, hf]
    rfl
  refine ⟨?_, rfl, rfl, onPorts_kept _ s, .refl _, fun id hid => ?_, fun _ => h⟩
  · rw [hcount]
    refine (counts_onPorts s (fun q => modUnit_ctr _ _ _ (by intro _; rfl))).congr (fun r => ?_) (fun q => ?_)
    · rw [countAt_zero]
    · rw [countAt_zero]
  · rw [hid] at hf
    cases hf

/-- A stored frame in transmission is lost and counted (R10). -/
theorem endAborts_stored {id : Nat} {g : Hub → Hub} (hf : (s.ports.endOf x).unit.tx.bind Transmission.frame? = some id)
    (hg : ∀ h r, (g h).tallyOf r = h.tallyOf r)
    (hsettled : ∀ i, (s.ports.endOf x).unit.tx = some (.frame i) →
      abortTx (.backbone x) s = settleOwner (s.hub.cells.owner i) (onHub g (countAborted (.backbone x) id s)))
    (hunsettled : (∀ i, (s.ports.endOf x).unit.tx ≠ some (.frame i)) →
      abortTx (.backbone x) s = onHub g (countAborted (.backbone x) id s)) :
    EndAborts x s (onHub g (countAborted (.backbone x) id s)) := by
  have hcount : inTransmission s (.backbone x) = 1 := by
    rw [inTransmission, Ports.unitOf, hf]
    rfl
  obtain ⟨hcounts, -⟩ := abort_dropped (.backbone x) id g s hg
  exact ⟨hcount ▸ hcounts, rfl, rfl, (countAborted_kept _ id s).trans (onHub_kept _ _),
    countAborted_ports (.backbone x) id s, hsettled, hunsettled⟩

theorem endAborts (x : End) (s : State) : ∃ a, EndAborts x s a := by
  have hdrop : ∀ id h r, (Hub.dropRef s.sender id h).tallyOf r = h.tallyOf r :=
    fun id h r => (dropRef_quiet _ _ _).tallyOf r
  cases htx : (s.ports.endOf x).unit.tx with
  | none =>
    have hsame : setTx (.backbone x) none s = s := by
      rw [setTx, onPorts, modUnit_congr (h := fun u => u) (by rw [Ports.unitOf, ← htx]), modUnit_id]
    refine ⟨_, endAborts_silent (by rw [htx]; rfl) ?_⟩
    rw [hsame, abortTx_idle (p := .backbone x) htx]
  | some tr =>
    cases tr with
    | hold d => exact ⟨_, endAborts_silent (by rw [htx]; rfl) (by simp only [abortTx, Ports.unitOf, htx])⟩
    | order o => exact ⟨_, endAborts_silent (by rw [htx]; rfl) (by simp only [abortTx, Ports.unitOf, htx])⟩
    | frame id =>
      refine ⟨_, endAborts_stored (id := id) (g := Hub.dropRef s.sender id) (by rw [htx]; rfl) (hdrop id)
        (fun i hi => ?_) (fun hno => absurd htx (hno id))⟩
      rw [htx] at hi
      cases hi
      simp only [abortTx, Ports.unitOf, htx]
      rfl
    | radioFrame id i =>
      exact ⟨_, endAborts_stored (id := id) (g := Hub.dropRef s.sender id) (by rw [htx]; rfl) (hdrop id)
        (fun i hi => (by rw [htx] at hi; cases hi)) (fun _ => by simp only [abortTx, Ports.unitOf, htx])⟩
    | notice id d =>
      exact ⟨_, endAborts_stored (id := id) (g := Hub.dropRef s.sender id) (by rw [htx]; rfl) (hdrop id)
        (fun i hi => (by rw [htx] at hi; cases hi)) (fun _ => by simp only [abortTx, Ports.unitOf, htx])⟩
    | reply id k =>
      exact ⟨_, endAborts_stored (id := id) (g := fun h => (Hub.dropRef s.sender id h).freeSlot k) (by rw [htx]; rfl)
        (fun h r => hdrop id h r)
        (fun i hi => (by rw [htx] at hi; cases hi)) (fun _ => by simp only [abortTx, Ports.unitOf, htx])⟩

end

/-- What the freeing of a record that was LEAVING leaves of the others (R56). -/
theorem freeIfLeaving_others {k j : Fin 256} {a : State} {st : Station} (hst : a.station? j = some st)
    (hl : st.isLeaving = false) : (freeIfLeaving k a).station? j = some st := by
  unfold freeIfLeaving
  split
  case h_1 r hr =>
    split
    case h_1 why hs =>
      split
      · exact hst
      · have hjk : j ≠ k := by
          rintro rfl
          obtain rfl := Option.some.inj (hst.symm.trans hr)
          rw [Station.isLeaving, hs] at hl
          cases hl
        exact ((Freed.frame (freeRecord_freed why hr)).others j hjk).trans hst
    case h_2 => exact hst
  case h_2 => exact hst

theorem freeIfLeaving_onboard (k : Fin 256) (a : State) : (freeIfLeaving k a).up.onboard = a.up.onboard := by
  unfold freeIfLeaving
  split
  case h_1 r hr =>
    split
    case h_1 why hs =>
      split
      · rfl
      · exact (Freed.frame (freeRecord_freed why hr)).onboard
    case h_2 => rfl
  case h_2 => rfl

/-- Whether or not a record was LEAVING for the frame of the abort: the records that are not LEAVING stand. -/
theorem EndAborts.rest {x : End} {s a : State} (h : EndAborts x s a) :
    (∀ j st, s.station? j = some st → st.isLeaving = false → (abortTx (.backbone x) s).station? j = some st) ∧
      (abortTx (.backbone x) s).up.onboard = s.up.onboard ∧ Kept s (abortTx (.backbone x) s) := by
  have hstation : ∀ j, a.station? j = s.station? j := fun j => congrArg (fun t : StationTable => t.station? j) h.table
  have honboard : a.up.onboard = s.up.onboard := congrArg UpwardService.onboard h.up
  have hplain : abortTx (.backbone x) s = a → (∀ j st, s.station? j = some st → st.isLeaving = false →
      (abortTx (.backbone x) s).station? j = some st) ∧ (abortTx (.backbone x) s).up.onboard = s.up.onboard ∧
        Kept s (abortTx (.backbone x) s) := fun he => by
    rw [he]
    exact ⟨fun j st hst _ => (hstation j).trans hst, honboard, h.kept⟩
  by_cases hf : ∃ id, (s.ports.endOf x).unit.tx = some (.frame id)
  · obtain ⟨id, hid⟩ := hf
    cases ho : s.hub.cells.owner id with
    | none => exact hplain ((h.settled id hid).trans (by rw [ho]; rfl))
    | some k =>
      rw [h.settled id hid, ho]
      exact ⟨fun j st hst hl => freeIfLeaving_others ((hstation j).trans hst) hl,
        (freeIfLeaving_onboard k a).trans honboard, h.kept.trans (freeIfLeaving_kept k a)⟩
  · exact hplain (h.unsettled (not_exists.mp hf))

/-! ## The transit queue and the holds -/

/-- An end as its link is lost, the counters of R8 set aside (R4, R14). -/
def endDown (e : BackboneEnd) : BackboneEnd := BackboneEnd.clearHolds { e with
  unit := unitDown e.unit
  transit := [] }

/-- An end that has released its hold (R14). -/
def releasing (e : BackboneEnd) : BackboneEnd := { e with
  pendingHold := some 0
  outstanding := false
  repeatAt := none }

section
variable {x : End} {s c : State}

theorem afterFall_unit (y : End) (s : State) (p : Port) : (afterFall y s).ports.unitOf p = s.ports.unitOf p := by
  unfold afterFall
  dsimp only
  split
  · exact modEnd_unit s.ports y.other (g := releasing) (fun _ => rfl) p
  · rfl

theorem afterFall_other (y : End) (s : State) (h : (s.ports.endOf y).transit = []) :
    (afterFall y s).ports.endOf y.other =
      if (s.ports.endOf y.other).outstanding = true then releasing (s.ports.endOf y.other) else s.ports.endOf y.other := by
  have hlt : (s.ports.endOf y).transit.length < 64 := by simp [h]
  simp only [afterFall, hlt, true_and]
  split
  · exact endOf_modEnd_self s.ports y.other releasing
  · rfl

theorem afterFall_self (y : End) (s : State) : (afterFall y s).ports.endOf y = s.ports.endOf y := by
  unfold afterFall
  dsimp only
  split
  · rw [modEnd_end, if_neg (other_ne y)]
  · rfl

theorem afterFall_attachments (y : End) (s : State) :
    (afterFall y s).ports.seats = s.ports.seats ∧ (afterFall y s).ports.radios = s.ports.radios := by
  unfold afterFall
  dsimp only
  split <;> simp

end

end Sys2Proof.Laws

namespace Sys2Proof.Proofs

open Sys2Proof Sys2Proof.Machine Sys2Proof.Safety Sys2Proof.Laws

section
variable {x : End} {s : State}

theorem exec_backboneEndDown (h : (s.ports.endOf x).unit.link = .up) :
    exec (.backboneEndDown x) s = .next (downEnd x s) :=
  congrArg Host.Outcome.next (if_pos h)

/-- The ports of an end whose transit queue and holds end with its link (R4, R14): `c` has the queue emptied. -/
theorem endCleared_ports {c : State} {ids : List Nat}
    (hc : SameQueues ((s.ports.modUnit (.backbone x) unitDown).modEnd x (fun e => { e with transit := [] })) c.ports) :
    let u := discardEntries .purge (some (.backbone x)) ids c
    let ps := (afterFall x u).ports.modEnd x BackboneEnd.clearHolds
    quietEnd (ps.endOf x) = quietEnd (endDown (s.ports.endOf x)) ∧
    quietEnd (ps.endOf x.other) = (if (s.ports.endOf x.other).outstanding = true then
      releasing (quietEnd (s.ports.endOf x.other)) else quietEnd (s.ports.endOf x.other)) ∧
    (∀ m : Fin 32, quietSeat ps.seats[m] = quietSeat s.ports.seats[m]) ∧
    (∀ w : Fin 4, quietRadio ps.radios[w] = quietRadio s.ports.radios[w]) ∧
    (∀ q, (ps.unitOf q).ctr = (u.ports.unitOf q).ctr) := by
  intro u ps
  have hu := hc.trans (discardEntries_sameQueues .purge (some (.backbone x)) ids c)
  have hown : quietEnd (u.ports.endOf x) = quietEnd { s.ports.endOf x with
      unit := unitDown (s.ports.endOf x).unit
      transit := [] } := by
    refine (hu.ends x).trans (congrArg quietEnd ?_)
    rw [modEnd_end, if_pos rfl, Ports.modUnit, modEnd_end, if_pos rfl]
  have hother : quietEnd (u.ports.endOf x.other) = quietEnd (s.ports.endOf x.other) := by
    refine (hu.ends x.other).trans (congrArg quietEnd ?_)
    rw [modEnd_end, if_neg (other_ne x).symm, Ports.modUnit, modEnd_end, if_neg (other_ne x).symm]
  have htransit : (u.ports.endOf x).transit = [] := (congrArg BackboneEnd.transit hown :)
  obtain ⟨hseats, hradios⟩ := afterFall_attachments x u
  refine ⟨?_, ?_, fun m => ?_, fun w => ?_, fun q => ?_⟩
  · rw [show ps.endOf x = BackboneEnd.clearHolds (u.ports.endOf x) by
      rw [modEnd_end, if_pos rfl, afterFall_self]]
    exact (congrArg BackboneEnd.clearHolds hown :)
  · have hout : (u.ports.endOf x.other).outstanding = (s.ports.endOf x.other).outstanding :=
      (congrArg BackboneEnd.outstanding hother :)
    rw [modEnd_end, if_neg (other_ne x).symm, afterFall_other x u htransit, hout]
    split
    · exact (congrArg releasing hother :)
    · exact hother
  · rw [modEnd_seats, hseats]
    refine (hu.seats m).trans ?_
    rw [modEnd_seats, Ports.modUnit, modEnd_seats]
  · rw [modEnd_radios, hradios]
    refine (hu.radios w).trans ?_
    rw [modEnd_radios, Ports.modUnit, modEnd_radios]
  · rw [modEnd_unit (afterFall x u).ports x (g := BackboneEnd.clearHolds) (fun _ => rfl), afterFall_unit]

end

/-- Settles O15: the abort with the freeing of a LEAVING record, the reception, the transit queue, the holds, and the
notice last (R4, R14, R56). -/
theorem backboneEndGoesDown : Obligations.BackboneEndGoesDown := by
  intro x s hup
  have hlink : Counts s (setLink (.backbone x) .down s) (fun _ => 0) (fun _ => 0) :=
    counts_onPorts s (fun q => modUnit_ctr _ _ _ (by intro _; rfl))
  have hunit : (setLink (.backbone x) .down s).ports.unitOf (.backbone x) =
      { s.ports.unitOf (.backbone x) with link := .down } :=
    unitOf_modUnit_self s.ports (.backbone x) (fun u => { u with link := .down })
  have htx : ((setLink (.backbone x) .down s).ports.endOf x).unit.tx = (s.ports.endOf x).unit.tx :=
    (congrArg PortUnit.tx hunit :)
  have hsent : inTransmission (setLink (.backbone x) .down s) (.backbone x) = inTransmission s (.backbone x) := by
    unfold inTransmission
    rw [hunit]
  obtain ⟨a, ha⟩ := endAborts x (setLink (.backbone x) .down s)
  have hsettled := ha.settled
  have hunsettled := ha.unsettled
  rw [htx] at hsettled hunsettled
  have haborted := abortTx_ports (.backbone x) (setLink (.backbone x) .down s)
  obtain ⟨hbrecords, hbonboard, hbkept⟩ := ha.rest
  have hports := linkLost_ports (.backbone x) s
  have hdown : downEnd x s = raiseNotice (.link (.backbone x) .down) (onPorts (Ports.modEnd x BackboneEnd.clearHolds)
      (clearTransit x (loseReception (.backbone x) (abortTx (.backbone x) (setLink (.backbone x) .down s))))) := rfl
  generalize hb : abortTx (.backbone x) (setLink (.backbone x) .down s) = b at *
  have hlost := loseReception_loses (.backbone x) b
  have hlostRecords := loseReception_sameRecords (.backbone x) b
  generalize loseReception (.backbone x) b = d at *
  have hqueue : (d.ports.endOf x).transit = (s.ports.endOf x).transit :=
    (hports.transit x).trans (modUnit_transit s.ports (.backbone x) unitDown x)
  have hc : SameQueues ((s.ports.modUnit (.backbone x) unitDown).modEnd x (fun e => { e with transit := [] }))
      (onPorts (Ports.modEnd x (fun e => { e with transit := [] })) d).ports :=
    hports.modEnd x fun e e' he => (congrArg (fun e : BackboneEnd => { e with transit := [] }) he :)
  have hclear : Counts d (onPorts (Ports.modEnd x (fun e => { e with transit := [] })) d) (fun _ => 0) (fun _ => 0) :=
    counts_onPorts d (fun q => congrArg PortUnit.ctr (modEnd_unit _ _ (by intro _; rfl) q))
  obtain ⟨hown, hother, hseats, hradios, hctr⟩ := endCleared_ports (ids := (s.ports.endOf x).transit) hc
  have hcempty : ((onPorts (Ports.modEnd x (fun e => { e with transit := [] })) d).ports.endOf x).transit = [] := by
    rw [onPorts, modEnd_end, if_pos rfl]
  have hctable : (onPorts (Ports.modEnd x (fun e => { e with transit := [] })) d).table = b.table := hlost.table
  have hcrecords := sameRecords_onPorts (Ports.modEnd x (fun e => { e with transit := [] })) d
  rw [clearTransit, hqueue] at hdown
  generalize onPorts (Ports.modEnd x (fun e => { e with transit := [] })) d = c at *
  have hrecords : SameRecords b (discardEntries .purge (some (.backbone x)) (s.ports.endOf x).transit c) :=
    (hlostRecords.trans hcrecords).trans (discardEntries_sameRecords ..)
  have hkept : Kept s (discardEntries .purge (some (.backbone x)) (s.ports.endOf x).transit c) :=
    ((onPorts_kept _ s).trans hbkept).trans hrecords.kept
  have hreceived : inReception b (.backbone x) = inReception s (.backbone x) := by
    have hrx : (b.ports.unitOf (.backbone x)).rx = (s.ports.unitOf (.backbone x)).rx := by
      have hcut := unitOf_modUnit_self (setLink (.backbone x) .down s).ports (.backbone x) (fun u => { u with tx := none })
      exact ((congrArg PortUnit.rx ((haborted.only (fun _ => True)).unit (.backbone x)) :).trans
        (congrArg PortUnit.rx hcut :)).trans (congrArg PortUnit.rx hunit :)
    unfold inReception
    rw [hrx]
  refine ⟨_, exec_backboneEndDown hup, ?_⟩
  rw [hdown]
  generalize hps : (afterFall x (discardEntries .purge (some (.backbone x)) (s.ports.endOf x).transit c)).ports.modEnd x
    BackboneEnd.clearHolds = ps at *
  have hfinal : onPorts (Ports.modEnd x BackboneEnd.clearHolds)
      (afterFall x (discardEntries .purge (some (.backbone x)) (s.ports.endOf x).transit c)) =
      { discardEntries .purge (some (.backbone x)) (s.ports.endOf x).transit c with ports := ps } := by
    rw [← hps]
    rfl
  rw [hfinal]
  refine ⟨(congrArg (fun e : BackboneEnd => e.unit.link) hown :), (congrArg (fun e : BackboneEnd => e.unit.tx) hown :),
    (congrArg (fun e : BackboneEnd => e.unit.rx) hown :), (congrArg BackboneEnd.transit hown :),
    (congrArg BackboneEnd.heldUntil hown :), (congrArg BackboneEnd.holdStart hown :), (congrArg BackboneEnd.overrun hown :),
    (congrArg BackboneEnd.outstanding hown :), (congrArg BackboneEnd.repeatAt hown :),
    (congrArg BackboneEnd.pendingHold hown :), hother, hseats, hradios, fun k st hst hl => ?_, ?_, hkept.windows,
    hkept.sched, hkept.consist, hkept.hold, hkept.now, a, b, c, ps, ?_, ha.table, ?_, fun k st why hended => ?_,
    fun hno => ?_, ?_, ?_, hcempty, hctr, rfl⟩
  · exact hrecords.record (hbrecords k st hst hl)
  · exact (congrArg UpwardService.onboard hrecords.up).trans hbonboard
  · refine (hlink.trans ha.counts).congr (fun r => ?_) (fun q => ?_)
    · rw [hsent, Nat.zero_add]
    · rw [hsent, Nat.zero_add]
  · have hcut := unitOf_modUnit_self (setLink (.backbone x) .down s).ports (.backbone x) (fun u => { u with tx := none })
    exact (congrArg PortUnit.tx ((ha.ports.only (fun _ => True)).unit (.backbone x)) :).trans (congrArg PortUnit.tx hcut :)
  · obtain ⟨id, hid, howner, hst, hstate, hfly⟩ := hended
    have hast : a.station? k = some st := (congrArg (fun t : StationTable => t.station? k) ha.table).trans hst
    have hfreed : b = freeRecord k why a := by
      rw [hsettled id hid, show (setLink (.backbone x) .down s).hub.cells.owner id = some k from howner, settleOwner,
        freeIfLeaving_of_leaving hast hstate, if_neg (by rw [hfly]; exact nofun)]
    rw [hfreed]
    exact freeRecord_freed why hast
  · by_cases hf : ∃ id, (s.ports.endOf x).unit.tx = some (.frame id)
    · obtain ⟨id, hid⟩ := hf
      rw [hsettled id hid]
      cases ho : s.hub.cells.owner id with
      | none => rw [show (setLink (.backbone x) .down s).hub.cells.owner id = none from ho, settleOwner]
      | some k =>
        rw [show (setLink (.backbone x) .down s).hub.cells.owner id = some k from ho, settleOwner]
        by_cases hleaving : ∃ st why, a.station? k = some st ∧ st.state = .leaving why
        · obtain ⟨st, why, hast, hstate⟩ := hleaving
          have hst : s.station? k = some st := (congrArg (fun t : StationTable => t.station? k) ha.table).symm.trans hast
          have hfly : inFlight a k = true := by
            by_contra hf
            exact hno k st why ⟨id, hid, ho, hst, hstate, Bool.not_eq_true _ ▸ hf⟩
          rw [freeIfLeaving_of_leaving hast hstate, if_pos hfly]
        · exact freeIfLeaving_of_present fun st hast why hstate => hleaving ⟨st, why, hast, hstate⟩
    · exact hunsettled (not_exists.mp hf)
  · refine (hlost.counts.trans hclear).congr (fun r => ?_) (fun _ => rfl)
    rw [hreceived, Nat.add_zero]
  · exact hctable

end Sys2Proof.Proofs
end

section
/-! SUPPORT. The look-ups of the station table after a removal, and the rows of R65. -/

namespace Sys2Proof.Laws

open Sys2Proof Sys2Proof.Machine Sys2Proof.Safety

/-! ## Look-ups -/

theorem slotsWhere_head? {t : StationTable} {test : Station → Bool} {k : Fin 256} :
    (t.slotsWhere test).head? = some k ↔ (∃ st, t.station? k = some st ∧ test st = true) ∧
      ∀ j, j < k → ∀ st, t.station? j = some st → test st = false := by
  rw [StationTable.slotsWhere, List.head?_filter, find?_finRange_eq_some_iff]
  refine and_congr ?_ (forall₂_congr fun j _ => ?_)
  · cases h : t.slots[k] <;> simp [StationTable.station?, h]
  · cases h : t.slots[j] <;> simp [StationTable.station?, h]

theorem atRadio_some {t : StationTable} {w : Fin 4} {i : Nat} {k : Fin 256} {st : Station}
    (h : t.atRadio w i = some k) (hst : t.station? k = some st) : st.origin = .radio w i := by
  obtain ⟨⟨r, hr, ho⟩, -⟩ := slotsWhere_head?.mp h
  obtain rfl := Option.some.inj (hr.symm.trans hst)
  exact of_decide_eq_true ho

/-- The records of `u` have the addresses that they had. -/
def AddressesFrom (s u : State) : Prop := ∀ j st, u.station? j = some st → ∃ r, s.station? j = some r ∧ r.addr = st.addr

theorem AddressesFrom.byAddr_none {s u : State} (h : AddressesFrom s u) {a : LinkAddr} (hn : s.table.byAddr a = none) :
    u.table.byAddr a = none := by
  rw [byAddr_eq_none_iff] at hn ⊢
  intro k st hst
  obtain ⟨r, hr, ha⟩ := h k st hst
  exact ha ▸ hn k r hr

theorem AddressesFrom.byAddr_some {s u : State} (h : AddressesFrom s u) {a : LinkAddr} {k : Fin 256} {st : Station}
    (hk : s.table.byAddr a = some k) (hst : u.station? k = some st) : u.table.byAddr a = some k := by
  obtain ⟨⟨r, hr, ha⟩, hfirst⟩ := slotsWhere_head?.mp hk
  obtain ⟨r', hr', ha'⟩ := h k st hst
  obtain rfl := Option.some.inj (hr.symm.trans hr')
  refine slotsWhere_head?.mpr ⟨⟨st, hst, by rw [← ha']; exact ha⟩, fun j hj x hx => ?_⟩
  obtain ⟨y, hy, hxy⟩ := h j x hx
  rw [← hxy]
  exact hfirst j hj y hy

theorem emptySlot?_eq_some_iff {t : StationTable} {k : Fin 256} :
    t.emptySlot? = some k ↔ t.station? k = none ∧ ∀ j, j < k → t.station? j ≠ none := by
  have hnone : ∀ j : Fin 256, (t.slots[j]).isNone = true ↔ t.station? j = none := fun j => Option.isNone_iff_eq_none
  rw [StationTable.emptySlot?, find?_finRange_eq_some_iff, hnone]
  refine and_congr_right fun _ => forall₂_congr fun j _ => ?_
  rw [← Bool.not_eq_true, hnone]

section
variable {b j : Fin 256} {B : Station} {why : Reason} {s : State}

/-- The records behind the freeing of one are those of the other slots (R52, R56). -/
theorem removeRecord_freed_back {st : Station} (hB : s.station? b = some B) (hl : B.isLeaving = false)
    (hf : inFlight s b = false) (hst : (removeRecord b why s).station? j = some st) :
    j ≠ b ∧ ∃ r, s.station? j = some r ∧ apartFromDrops st = apartFromDrops r := by
  have hframe := Removed.frame (removeRecord_removed why hB hl)
  have hjb : j ≠ b := by
    rintro rfl
    rw [hframe.freed hf] at hst
    cases hst
  cases hr : s.station? j with
  | none =>
    rw [removeRecord_absent why hr] at hst
    cases hst
  | some r =>
    obtain ⟨r', hr', ha⟩ := hframe.others j r hjb hr
    obtain rfl := Option.some.inj (hst.symm.trans hr')
    exact ⟨hjb, r, rfl, ha⟩

theorem removeRecord_addresses (hB : s.station? b = some B) (hl : B.isLeaving = false) (hf : inFlight s b = false) :
    AddressesFrom s (removeRecord b why s) := fun j st hst => by
  obtain ⟨-, r, hr, ha⟩ := removeRecord_freed_back hB hl hf hst
  exact ⟨r, hr, (congrArg Station.addr ha :).symm⟩

/-- The lowest empty slot behind the freeing of a record. -/
theorem removeRecord_emptySlot {k : Fin 256} (hB : s.station? b = some B) (hl : B.isLeaving = false)
    (hf : inFlight s b = false) (hk : s.station? k = none ∨ k = b) (hbefore : ∀ j, j < k → s.station? j ≠ none ∧ j ≠ b) :
    (removeRecord b why s).table.emptySlot? = some k := by
  have hframe := Removed.frame (removeRecord_removed why hB hl)
  refine emptySlot?_eq_some_iff.mpr ⟨?_, fun j hj => ?_⟩
  · rcases hk with hk | rfl
    · exact removeRecord_absent why hk
    · exact hframe.freed hf
  · obtain ⟨hsome, hjb⟩ := hbefore j hj
    obtain ⟨r, hr⟩ := Option.ne_none_iff_exists'.mp hsome
    obtain ⟨r', hr', -⟩ := hframe.others j r hjb hr
    rw [show (removeRecord b why s).table.station? j = some r' from hr']
    exact Option.some_ne_none r'

end

/-! ## The notices and orders of a radio -/

section
variable {w : Fin 4} {i : Nat}

theorem noticeTaken_refuse (s : State) : noticeTaken w (refuseAssociation w i s) = { s with
    ports := s.ports.modRadio w (fun q => { q with
      orders := placeOrder { kind := .refuse, index := i } q.orders, noticesTaken := q.noticesTaken + 1 }) } :=
  congrArg (fun ps : Ports => { s with ports := ps })
    (modRadio_modRadio s.ports w (fun q => { q with orders := placeOrder { kind := .refuse, index := i } q.orders })
      (fun q => { q with noticesTaken := q.noticesTaken + 1 }))

theorem noticeTaken_cancel (s : State) : noticeTaken w (cancelOrder w i s) = { s with
    ports := s.ports.modRadio w (fun q => { q with
      orders := q.orders.filter (fun o => decide (o.index ≠ i)), noticesTaken := q.noticesTaken + 1 }) } :=
  congrArg (fun ps : Ports => { s with ports := ps })
    (modRadio_modRadio s.ports w (fun q => { q with orders := discardOrder i q.orders })
      (fun q => { q with noticesTaken := q.noticesTaken + 1 }))

end

/-! ## The rows of R65 -/

section
variable {w : Fin 4} {i : Nat} {a : LinkAddr} {s : State} {k : Fin 256} {st : Station}

theorem associate_leaving (ha : s.table.byAddr a = some k) (hst : s.station? k = some st) (hl : st.isLeaving = true) :
    associate w i a s = refuseAssociation w i s := by
  simp only [associate, ha, hst, hl, if_true]

theorem associate_seat {n : Fin 32} (ha : s.table.byAddr a = some k) (hst : s.station? k = some st)
    (hl : st.isLeaving = false) (ho : st.origin = .seat n) :
    associate w i a s = refuseAssociation w i (originConflict k st (.radio w i) a s) := by
  simp only [associate, ha, hst, hl, ho, Bool.false_eq_true, if_false]

theorem associate_free (h : s.table.byAddr a = none ∨ (∃ k st v j, s.table.byAddr a = some k ∧ s.station? k = some st ∧
    st.isLeaving = false ∧ st.origin = .radio v j ∧ (v ≠ w ∨ j ≠ i))) : associate w i a s = associateAt w i a s := by
  rcases h with ha | ⟨k, st, v, j, ha, hst, hl, ho, hne⟩
  · simp only [associate, ha]
  · have helse : ¬ (v = w ∧ j = i) := fun ⟨hv, hj⟩ => hne.elim (fun h => h hv) (fun h => h hj)
    simp only [associate, ha, hst, hl, ho, Bool.false_eq_true, if_false, if_neg helse]

theorem associateAt_nobody (h : s.table.atRadio w i = none) : associateAt w i a s = settleAssociation w i a s := by
  simp only [associateAt, h]

theorem associateAt_leaving (h : s.table.atRadio w i = some k) (hst : s.station? k = some st) (hl : st.isLeaving = true) :
    associateAt w i a s = refuseAssociation w i s := by
  simp only [associateAt, h, hst, hl, if_true]

theorem associateAt_stays {st' : Station} (h : s.table.atRadio w i = some k) (hst : s.station? k = some st)
    (hl : st.isLeaving = false) (hstays : (removeRecord k .disassociated s).station? k = some st') :
    associateAt w i a s = refuseAssociation w i (removeRecord k .disassociated s) := by
  simp only [associateAt, h, hst, hl, hstays, Bool.false_eq_true, if_false, Option.isNone_some]

theorem associateAt_freed (h : s.table.atRadio w i = some k) (hst : s.station? k = some st)
    (hl : st.isLeaving = false) (hfreed : (removeRecord k .disassociated s).station? k = none) :
    associateAt w i a s = settleAssociation w i a (removeRecord k .disassociated s) := by
  simp only [associateAt, h, hst, hl, hfreed, Bool.false_eq_true, if_false, Option.isNone_none, if_true]

theorem settleAssociation_known (ha : s.table.byAddr a = some k) (hst : s.station? k = some st) :
    settleAssociation w i a s = roam k st w i s := by
  simp only [settleAssociation, ha, hst]

theorem settleAssociation_unknown (ha : s.table.byAddr a = none) :
    settleAssociation w i a s = radioCreate w i a s := by
  simp only [settleAssociation, ha]

end

end Sys2Proof.Laws

namespace Sys2Proof.Proofs

open Sys2Proof Sys2Proof.Machine Sys2Proof.Safety Sys2Proof.Laws

/-- The record `new` of the address `a` has been created in slot `k` of the state `u`, with its notice, by an ASSOCIATED
of `w` and `i` (R42, R68). -/
def createdIn (w : Fin 4) (i : Nat) (a : LinkAddr) (new : Station) (k : Fin 256) (u : State) : State :=
  { raiseNotice (.stationNew k .passenger .held (.radio w i) a) { u with table :=
      { slots := u.table.slots.set k (some new), held := u.table.held.filter (fun j => decide (j ≠ k)) ++ [k] } } with
    ports := u.ports.modRadio w (fun q => { q with
      orders := q.orders.filter (fun o => decide (o.index ≠ i)), noticesTaken := q.noticesTaken + 1 }) }

section
variable {w : Fin 4} {i : Nat} {a : LinkAddr} {u : State} {k : Fin 256}

theorem noticeTaken_created (k : Fin 256) (u : State) :
    noticeTaken w (cancelOrder w i (fillSlot k a .passenger .held (.radio w i) u)) =
      createdIn w i a (newStation a .passenger .held (.radio w i) u.hub.mgmt.defaultIdle u.now) k u := by
  rw [noticeTaken_cancel]
  rfl

theorem settles_empty (ha : u.table.byAddr a = none) (hk : u.table.emptySlot? = some k) :
    noticeTaken w (settleAssociation w i a u) =
      createdIn w i a (newStation a .passenger .held (.radio w i) u.hub.mgmt.defaultIdle u.now) k u := by
  rw [settleAssociation_unknown ha, ← noticeTaken_created]
  simp only [radioCreate, createRecord_empty hk]

theorem settles_evicts (ha : u.table.byAddr a = none) (hfull : u.table.emptySlot? = none) (hv : evictable u = some k) :
    noticeTaken w (settleAssociation w i a u) = createdIn w i a
      (newStation a .passenger .held (.radio w i) (removeRecord k .evicted u).hub.mgmt.defaultIdle
        (removeRecord k .evicted u).now) k (removeRecord k .evicted u) := by
  rw [settleAssociation_unknown ha, ← noticeTaken_created]
  simp only [radioCreate, createRecord_evicts hfull hv]

theorem settles_fails (ha : u.table.byAddr a = none) (hfull : u.table.emptySlot? = none) (hv : evictable u = none) :
    noticeTaken w (settleAssociation w i a u) =
      noticeTaken w (refuseAssociation w i (failCreation a (.radio w i) u)) := by
  rw [settleAssociation_unknown ha]
  simp only [radioCreate, createRecord_fails hfull hv]
  rfl

theorem createdIn_station (new : Station) : (createdIn w i a new k u).station? k = some new :=
  station?_set_self u.table k (some new) _

theorem createdIn_station_ne (new : Station) {j : Fin 256} (hj : j ≠ k) :
    (createdIn w i a new k u).station? j = u.station? j := by
  have hval : k.val ≠ j.val := fun e => hj (Fin.ext e.symm)
  simp [createdIn, State.station?, StationTable.station?, hval]

theorem createdIn_orders (new : Station) : ((createdIn w i a new k u).ports.radios[w]).orders =
    (u.ports.radios[w]).orders.filter (fun o => decide (o.index ≠ i)) :=
  (congrArg RadioLink.orders (modRadio_self u.ports w _) :)

theorem createdIn_kept (new : Station) : Kept u (createdIn w i a new k u) := ⟨rfl, rfl, rfl, rfl, rfl, rfl, rfl⟩

end

end Sys2Proof.Proofs
end

section
/-! The statement on ASSOCIATED that is no confirmation (R64, R65). -/

namespace Sys2Proof.Proofs

open Sys2Proof Sys2Proof.Machine Sys2Proof.Safety Sys2Proof.Laws

/-- What an ASSOCIATED of `w` leaves as it is: the records of other slots apart from their drops, and the blocks; the
notice counts as taken. -/
def Bystanders (w : Fin 4) (s t : State) (slots : List (Fin 256)) : Prop :=
  (∀ j st, j ∉ slots → s.station? j = some st →
    ∃ st', t.station? j = some st' ∧ apartFromDrops st' = apartFromDrops st) ∧
  (t.ports.radios[w]).noticesTaken = (s.ports.radios[w]).noticesTaken + 1 ∧
  t.up.onboard = s.up.onboard ∧ t.sched = s.sched ∧ t.windows = s.windows ∧ t.consist = s.consist ∧ t.hold = s.hold

/-- The record `st` of slot `k` has roamed to the radio `w` and index `i` from `u` to `t`; `s` is the state before the
notice (R69). -/
def Roamed (w : Fin 4) (i : Nat) (s t : State) (k : Fin 256) (st : Station) (u : State) : Prop :=
  ∃ st', t.station? k = some st' ∧
    apartFromDrops st' = apartFromDrops { st with origin := .radio w i, lastFrame := s.now, idleStart := s.now } ∧
    PurgeCounts k [] st.origin u t ∧
    (t.ports.radios[w]).orders = (s.ports.radios[w]).orders.filter (fun o => decide (o.index ≠ i)) ∧
    ∀ v j, st.origin = .radio v j →
      ((t.ports.radios[v]).egress).Sublist (s.ports.radios[v]).egress ∧
      (∀ e ∈ (t.ports.radios[v]).egress, t.hub.cells.owner e.id ≠ some k) ∧
      (v ≠ w → (t.ports.radios[v]).orders = (s.ports.radios[v]).orders)

/-- A radio whose pending order for the index `i` is gone, with a notice taken (R8, R65). -/
def settledAt (i : Nat) (q : RadioLink) : RadioLink := { q with
  orders := q.orders.filter (fun o => decide (o.index ≠ i))
  noticesTaken := q.noticesTaken + 1 }

/-- A state on the way of an ASSOCIATED, before its row ends: no order has gone out, and no notice has counted. -/
structure Underway (w : Fin 4) (s u : State) : Prop where
  notices : (u.ports.radios[w]).noticesTaken = (s.ports.radios[w]).noticesTaken
  orders : ∀ v : Fin 4, (u.ports.radios[v]).orders = (s.ports.radios[v]).orders
  egress : ∀ v : Fin 4, ((u.ports.radios[v]).egress).Sublist (s.ports.radios[v]).egress
  onboard : u.up.onboard = s.up.onboard
  kept : Kept s u

section
variable {w : Fin 4} {i : Nat} {s s2 u t : State} {k b : Fin 256} {st B : Station} {slots : List (Fin 256)}

theorem ne_of_not_mem {j : Fin 256} (hj : j ∉ slots) (hk : k ∈ slots) : j ≠ k := by
  rintro rfl
  exact hj hk

theorem underway_of_ends (h : Ends (.radio w) s s2) : Underway w s s2 := by
  have hradio := fun v => receptionOnly_radioLink h.ports v
  refine ⟨?_, fun v => ?_, fun v => ?_, congrArg UpwardService.onboard h.up, h.kept⟩
  · obtain ⟨_, _, hw⟩ := hradio w
    rw [hw]
  · obtain ⟨_, _, hv⟩ := hradio v
    rw [hv]
  · obtain ⟨_, _, hv⟩ := hradio v
    rw [hv]

theorem underway_removed (h : Underway w s s2) (b : Fin 256) : Underway w s (removeRecord b .disassociated s2) := by
  have honly : QueuesOnly (fun _ => True) s2.ports (removeRecord b .disassociated s2).ports :=
    removeRecord_only b s2 .disassociated (fun _ _ => trivial)
  exact ⟨(congrArg RadioLink.noticesTaken (honly.radioRests w) :).trans h.notices,
    fun v => (removeRecord_orders (by simp) v).trans (h.orders v),
    fun v => ((removeRecord_shrinks .disassociated).radios v).trans (h.egress v),
    (removeRecord_onboard .disassociated).trans h.onboard, h.kept.trans (removeRecord_kept b .disassociated s2)⟩

theorem bystanders_of {g : RadioLink → RadioLink} (hports : t.ports = u.ports.modRadio w g)
    (hg : ∀ q, (g q).noticesTaken = q.noticesTaken + 1)
    (hnotices : (u.ports.radios[w]).noticesTaken = (s.ports.radios[w]).noticesTaken)
    (honboard : t.up.onboard = s.up.onboard) (hkept : Kept s t)
    (hrecords : ∀ j st, j ∉ slots → s.station? j = some st →
      ∃ st', t.station? j = some st' ∧ apartFromDrops st' = apartFromDrops st) : Bystanders w s t slots := by
  refine ⟨hrecords, ?_, honboard, hkept.sched, hkept.windows, hkept.consist, hkept.hold⟩
  rw [hports, modRadio_self, hg, hnotices]

/-- A record is created in the state `u` (R68). -/
theorem createdIn_bystanders {a : LinkAddr} {new : Station}
    (hnotices : (u.ports.radios[w]).noticesTaken = (s.ports.radios[w]).noticesTaken)
    (honboard : u.up.onboard = s.up.onboard) (hkept : Kept s u) (hk : k ∈ slots)
    (hrecords : ∀ j st, j ∉ slots → s.station? j = some st →
      ∃ st', u.station? j = some st' ∧ apartFromDrops st' = apartFromDrops st) :
    Bystanders w s (createdIn w i a new k u) slots := by
  refine bystanders_of (u := u) (g := settledAt i) rfl (fun _ => rfl) hnotices honboard (hkept.trans (createdIn_kept new)) fun j r hj hr => ?_
  obtain ⟨r', hr', ha⟩ := hrecords j r hj hr
  exact ⟨r', (createdIn_station_ne new (ne_of_not_mem hj hk)).trans hr', ha⟩

/-- R69: a record of a radio elsewhere comes to the index. -/
theorem roam_roamed {r : Station} (h : Underway w s u) (hr : u.station? k = some r) (hor : r.origin = st.origin)
    (ha : apartFromDrops r = apartFromDrops st) : let t := noticeTaken w (roam k r w i u)
      Roamed w i s t k st u ∧ t.table.held = u.table.held ∧ (∀ j, j ≠ k → u.station? j = none → t.station? j = none) ∧
      (∀ slots, k ∈ slots → (∀ j x, j ∉ slots → s.station? j = some x →
        ∃ x', u.station? j = some x' ∧ apartFromDrops x' = apartFromDrops x) → Bystanders w s t slots) := by
  intro t
  have hmoved : Moved k r.origin { r.touch u.now with origin := .radio w i } u (purgeEgress k r.origin
      (onTable (StationTable.modStation k (fun r => { r.touch u.now with origin := .radio w i })) u)) :=
    purgeEgress_moved r.origin (fun r => { r.touch u.now with origin := .radio w i }) hr rfl
  have ht : t = noticeTaken w (cancelOrder w i (purgeEgress k r.origin
      (onTable (StationTable.modStation k (fun r => { r.touch u.now with origin := .radio w i })) u))) := rfl
  rw [noticeTaken_cancel] at ht
  generalize purgeEgress k r.origin
      (onTable (StationTable.modStation k (fun r => { r.touch u.now with origin := .radio w i })) u) = v at hmoved ht
  rw [ht]
  have hself := modRadio_self v.ports w (settledAt i)
  have hqueue : ∀ x : Fin 4, ((v.ports.modRadio w (settledAt i)).radios[x]).egress = (v.ports.radios[x]).egress := fun x => by
    rw [modRadio_radio]
    split
    case isTrue hx => subst hx; rfl
    case isFalse => rfl
  have hcounts : PurgeCounts k [] st.origin u v := hor ▸ hmoved.counts
  refine ⟨?_, hmoved.held, fun j hj hn => ?_, fun slots hk hrecords => ?_⟩
  · obtain ⟨n, hn⟩ := hmoved.own
    refine ⟨_, hn, ?_, PurgeCounts_congr hcounts rfl (fun q => ?_) ?_ (fun _ => rfl), ?_, fun x j ho => ?_⟩
    · rw [← h.kept.now]
      exact congrArg (fun r : Station => { r with origin := .radio w i, lastFrame := u.now, idleStart := u.now }) ha
    · exact congrArg PortUnit.ctr (modRadio_unit v.ports w (g := settledAt i) (fun _ => rfl) q)
    · cases st.origin with
      | seat m => rfl
      | radio x j => exact congrArg List.length (hqueue x)
    · exact (congrArg RadioLink.orders hself :).trans (by rw [settledAt, hmoved.orders w, h.orders w])
    · obtain ⟨hsub, hgone, -⟩ := hmoved.gone.radio x j (hor.trans ho)
      have hleft := hqueue x
      rw [← hleft] at hsub hgone
      refine ⟨hsub.trans (h.egress x), hgone, fun hx => ?_⟩
      rw [modRadio_radio, if_neg (Ne.symm hx), hmoved.orders x, h.orders x]
  · obtain ⟨n, hn'⟩ := hmoved.others j hj
    rw [hn, Option.map_none] at hn'
    exact hn'
  · refine bystanders_of (u := v) (g := settledAt i) rfl (fun _ => rfl) ?_ ((congrArg UpwardService.onboard hmoved.up).trans h.onboard)
      ((h.kept.trans hmoved.kept).trans ⟨rfl, rfl, rfl, rfl, rfl, rfl, rfl⟩) fun j x hj hx => ?_
    · exact (congrArg RadioLink.noticesTaken (hmoved.ports.radioRests w) :).trans h.notices
    · obtain ⟨x', hx', hax⟩ := hrecords j x hj hx
      obtain ⟨x'', hx'', hax'⟩ := Moved.apart hmoved (ne_of_not_mem hj hk) hx'
      exact ⟨x'', hx'', hax'.trans hax⟩

theorem exec_associated {i : Byte} {a : LinkAddr} {chain : List Nat} {s1 : State} (h : NoticeArrives w 12 s chain s1) :
    exec (.associated w i a 12 true) s = .next (takeAssociated w i a (giveBackCells chain s1)) :=
  congrArg Host.Outcome.next (receiveNotice_of_arrives (n := .associated i a) h rfl)

end

/-- Settles O23, row by row of R65. -/
theorem associatedCreates : Obligations.AssociatedCreates := by
  intro w i a s chain s1 h s2 command new refused pendingGone others created roamed
  have hends : Ends (.radio w) s s2 := noticeArrives_ends h
  have hexec : exec command s = .next (takeAssociated w i a s2) := exec_associated h
  refine ⟨fun hi => ?ignored, fun hi hg => ?group, fun hi hg => ?_⟩
  case ignored =>
    rw [hexec, takeAssociated, if_pos hi]
    rfl
  case group =>
    rw [hexec, takeAssociated, if_neg (Nat.not_le.mpr hi), if_pos hg, noticeTaken_refuse]
  rw [takeAssociated_of_station hi hg] at hexec
  have hbyAddr : s2.table.byAddr a = s.table.byAddr a := by rw [hends.table]
  refine ⟨fun k st ha hst => ⟨fun hl => ?_, fun n hl ho => ?_⟩, fun hfree => ?_⟩
  · rw [hexec, associate_leaving (hbyAddr.trans ha) ((hends.station k).trans hst) hl, noticeTaken_refuse]
  · rw [hexec, associate_seat (hbyAddr.trans ha) ((hends.station k).trans hst) hl ho, noticeTaken_refuse]
    simp only [refused, originConflict, ho]
    rfl
  have hunder := underway_of_ends hends
  rw [associate_free (by rw [hbyAddr]; simpa only [hends.station] using hfree)] at hexec
  refine ⟨fun b B hat hB => ?occupant, fun hat => ?nobody⟩
  case occupant =>
    have hat2 : s2.table.atRadio w i.toNat = some b := by rw [hends.table]; exact hat
    have hB2 : s2.station? b = some B := (hends.station b).trans hB
    refine ⟨fun hl => ?leaving, fun hl hf => ?stays, fun hl hf => ?freed⟩
    case leaving => rw [hexec, associateAt_leaving hat2 hB2 hl, noticeTaken_refuse]
    all_goals
      have hremoved := removeRecord_removed .disassociated hB2 hl
      have hframe := Removed.frame hremoved
      have hdis := underway_removed hunder b
      have hheld : (removeRecord b .disassociated s2).table.held = s.table.held.filter (fun j => decide (j ≠ b)) := by
        rw [hframe.held, hends.table]
      have hrecords : ∀ j st, j ≠ b → s.station? j = some st →
          ∃ st', (removeRecord b .disassociated s2).station? j = some st' ∧ apartFromDrops st' = apartFromDrops st :=
        fun j st hj hst => hframe.others j st hj ((hends.station j).trans hst)
    case stays =>
      obtain ⟨B', hB', ha⟩ := hframe.leaving hf
      rw [associateAt_stays hat2 hB2 hl hB', noticeTaken_refuse] at hexec
      refine ⟨_, B', hexec, hB', ⟨_, hremoved, rfl⟩, ha, ?_, hheld, ?_⟩
      · have hself := modRadio_self (removeRecord b .disassociated s2).ports w (fun q => { q with
          orders := placeOrder { kind := .refuse, index := i.toNat } q.orders, noticesTaken := q.noticesTaken + 1 })
        exact (congrArg RadioLink.orders hself :).trans (congrArg (placeOrder _) (hdis.orders w))
      · exact bystanders_of (g := fun q => { q with
          orders := placeOrder { kind := .refuse, index := i.toNat } q.orders
          noticesTaken := q.noticesTaken + 1 }) rfl (fun _ => rfl) hdis.notices hdis.onboard
          (hdis.kept.trans ⟨rfl, rfl, rfl, rfl, rfl, rfl, rfl⟩) fun j st hj hst =>
            hrecords j st (by simpa using hj) hst
    case freed =>
      have haddr := removeRecord_addresses (why := .disassociated) hB2 hl hf
      have hgone := hframe.freed hf
      rw [associateAt_freed hat2 hB2 hl hgone] at hexec
      refine ⟨fun k ha hk hbefore => ?creates, fun k st ha hst => ?roams⟩
      case creates =>
        have hempty : (removeRecord b .disassociated s2).table.emptySlot? = some k := by
          refine removeRecord_emptySlot hB2 hl hf (hk.imp_left (hends.station k).trans) fun j hj => ?_
          rw [hends.station]
          exact hbefore j hj
        have hnew : newStation a .passenger .held (.radio w i.toNat)
            (removeRecord b .disassociated s2).hub.mgmt.defaultIdle (removeRecord b .disassociated s2).now = new := by
          rw [(removeRecord_settings b s2 .disassociated).2, hdis.kept.now]
        rw [settles_empty (haddr.byAddr_none (hbyAddr.trans ha)) hempty, hnew] at hexec
        refine ⟨_, hexec, createdIn_station new, ⟨_, hremoved, rfl⟩,
          fun hkb => (createdIn_station_ne new (Ne.symm hkb)).trans hgone, ?_, ?_, ?_⟩
        · exact congrArg (fun l : List (Fin 256) => l.filter (fun j => decide (j ≠ k)) ++ [k]) hheld
        · exact (createdIn_orders new).trans (by rw [hdis.orders w])
        · exact createdIn_bystanders hdis.notices hdis.onboard hdis.kept (by simp) fun j st hj hst =>
            hrecords j st (fun he => hj (by simp [he])) hst
      case roams =>
        have hkb : k ≠ b := by
          rintro rfl
          obtain rfl := Option.some.inj (hB.symm.trans hst)
          have hhere := atRadio_some hat hB
          rcases hfree with hnone | ⟨k', st', v, j, ha', hst', -, ho, hne⟩
          · rw [ha] at hnone
            cases hnone
          · obtain rfl := Option.some.inj (ha.symm.trans ha')
            obtain rfl := Option.some.inj (hB.symm.trans hst')
            rw [hhere] at ho
            injection ho with hv hj
            exact hne.elim (fun h => h hv.symm) (fun h => h hj.symm)
        obtain ⟨r, hr, hapart⟩ := hrecords k st hkb hst
        have hroam := roam_roamed (w := w) (i := i.toNat) (st := st) hdis hr (congrArg Station.origin hapart :) hapart
        rw [settleAssociation_known (haddr.byAddr_some (hbyAddr.trans ha) hr) hr] at hexec
        obtain ⟨hroamed, hheld', habsent, hby⟩ := hroam
        exact ⟨_, hexec, habsent b (Ne.symm hkb) hgone, ⟨_, hremoved, hroamed⟩, hheld'.trans hheld,
          hby [b, k] (by simp) fun j x hj hx => hrecords j x (fun he => hj (by simp [he])) hx⟩
  case nobody =>
    have hat2 : s2.table.atRadio w i.toNat = none := by rw [hends.table]; exact hat
    have hsame : ∀ j st, s.station? j = some st →
        ∃ st', s2.station? j = some st' ∧ apartFromDrops st' = apartFromDrops st :=
      fun j st hst => ⟨st, (hends.station j).trans hst, rfl⟩
    have hheld : s2.table.held = s.table.held := by rw [hends.table]
    rw [associateAt_nobody hat2] at hexec
    refine ⟨fun k ha hk => ?empties, fun v V ha hfull hv hV hl => ?evicts, fun ha hfull hv => ?fails, fun k st ha hst => ?roams⟩
    case empties =>
      have hnew : newStation a .passenger .held (.radio w i.toNat) s2.hub.mgmt.defaultIdle s2.now = new := by
        rw [hends.kept.now]
      rw [hexec, settles_empty (hbyAddr.trans ha) (by rw [hends.table]; exact hk), hnew]
      simp only [createdIn, hends.table]
      rfl
    case evicts =>
      have hV2 := (hends.station v).trans hV
      have hremoved := removeRecord_removed .evicted hV2 hl
      have hframe := Removed.frame hremoved
      have honly : QueuesOnly (fun _ => True) s2.ports (removeRecord v .evicted s2).ports :=
        removeRecord_only v s2 .evicted (fun _ _ => trivial)
      have hkept := hends.kept.trans (removeRecord_kept v .evicted s2)
      have hnew : newStation a .passenger .held (.radio w i.toNat)
          (removeRecord v .evicted s2).hub.mgmt.defaultIdle (removeRecord v .evicted s2).now = new := by
        rw [(removeRecord_settings v s2 .evicted).2, hkept.now]
      rw [settles_evicts (hbyAddr.trans ha) (by rw [hends.table]; exact hfull) hv, hnew] at hexec
      refine ⟨_, hexec, createdIn_station new, ⟨_, hremoved, rfl⟩, ?_, ?_, fun u j ho => ?_⟩
      · have hheld' : (removeRecord v .evicted s2).table.held = s.table.held.filter (fun j => decide (j ≠ v)) := by
          rw [hframe.held, hheld]
        refine (congrArg (fun l : List (Fin 256) => l.filter (fun j => decide (j ≠ v)) ++ [v]) hheld').trans ?_
        simp only [List.filter_filter, Bool.and_self]
      · refine createdIn_bystanders ((congrArg RadioLink.noticesTaken (honly.radioRests w) :).trans hunder.notices)
          (hframe.onboard.trans hunder.onboard) hkept (by simp) fun j st hj hst => ?_
        exact hframe.others j st (by simpa using hj) ((hends.station j).trans hst)
      · have horders := hframe.orders u j ho (.inr (.inl rfl))
        rw [hunder.orders u] at horders
        have hradio := modRadio_radio (removeRecord v .evicted s2).ports w u (settledAt i.toNat)
        split
        case isTrue hu =>
          subst hu
          rw [if_pos rfl] at hradio
          exact (congrArg RadioLink.orders hradio :).trans (congrArg (List.filter _) horders)
        case isFalse hu =>
          rw [if_neg (Ne.symm hu)] at hradio
          exact (congrArg RadioLink.orders hradio :).trans horders
    case fails =>
      rw [hexec, settles_fails (hbyAddr.trans ha) (by rw [hends.table]; exact hfull) hv, noticeTaken_refuse]
      rfl
    case roams =>
      obtain ⟨hroamed, hheld', -, hby⟩ := roam_roamed (w := w) (i := i.toNat) hunder ((hends.station k).trans hst) rfl rfl
      rw [settleAssociation_known (hbyAddr.trans ha) ((hends.station k).trans hst)] at hexec
      exact ⟨_, hexec, hroamed, hheld'.trans hheld, hby [k] (by simp) fun j x _ hx => hsame j x hx⟩

end Sys2Proof.Proofs
end

section
/-! SUPPORT. The taking of a cell by a reception, with the entry into PRESSURE (R22, R33), and receptions that end with
their frame discarded; and the statement on receptions. -/

namespace Sys2Proof.Laws

open Sys2Proof Sys2Proof.Machine Sys2Proof.Safety

/-- What a reception that can take a cell has taken: nothing, where none has begun (R22). -/
def HasTaken (u : PortUnit) (chain : List Nat) : Prop := u.rx = .taking chain ∨ u.rx = .idle ∧ chain = []

section
variable {p : Port} {s : State} {chain : List Nat}

theorem HasTaken.chain_eq {u : PortUnit} (h : HasTaken u chain) : u.rx.chain = chain := by
  rcases h with h | ⟨h, rfl⟩ <;> rw [h] <;> rfl

theorem takeOneCell_of_taken (h : HasTaken (s.ports.unitOf p) chain) : takeOneCell p s = needCell p chain s := by
  rcases h with h | ⟨h, rfl⟩ <;> simp only [takeOneCell, h]

theorem takeOneCell_dropping (h : (s.ports.unitOf p).rx = .dropping) : takeOneCell p s = s := by
  simp only [takeOneCell, h]

theorem takeMissing_of_dropping (n : Nat) (h : (s.ports.unitOf p).rx = .dropping) : takeMissing p n s = s := by
  induction n with
  | zero => rfl
  | succ n ih => rw [takeMissing, takeOneCell_dropping h, ih]

/-- Cell Memory with the cell `x` off the stack, which counts as written (R21). -/
def cellTaken (x : Nat) (rest : List Nat) (c : CellMemory) : CellMemory :=
  { c with free := rest, faults := c.faults.filter (fun f => decide (f.cell ≠ x)) }

/-- R22, with a cell on the stack. -/
theorem needCell_some {x : Nat} {rest : List Nat} (h : s.hub.cells.free = x :: rest) :
    needCell p chain s = { s with
      ports := s.ports.modUnit p (fun u => { u with rx := .taking (chain ++ [x]) })
      hub := Hub.noteEntered s.sender (cellTaken x rest s.hub.cells).testEnter.2
        { s.hub with cells := (cellTaken x rest s.hub.cells).testEnter.1 } } := by
  simp only [needCell, CellMemory.pop, h]
  rfl

/-- R22, with the stack empty: the frame is lost. -/
theorem needCell_none (h : s.hub.cells.free = []) : needCell p chain s = { s with
    ports := (s.ports.count p PortCounters.rxDiscard).modUnit p (fun u => { u with rx := .dropping })
    hub := Hub.giveBack s.sender [] chain (s.hub.tally .noCells) } := by
  simp only [needCell, CellMemory.pop, h]
  rfl

/-- R33: the taking stays below the high mark, or PRESSURE is in force already. -/
theorem cellTaken_below {sd : Sender} {x : Nat} {rest : List Nat} {h : Hub}
    (hno : h.cells.pressure = .pressure ∨ 3072 - rest.length - h.cells.retired.length < h.cells.high) :
    Hub.noteEntered sd (cellTaken x rest h.cells).testEnter.2
      { h with cells := (cellTaken x rest h.cells).testEnter.1 } = { h with cells := cellTaken x rest h.cells } := by
  have htest : (cellTaken x rest h.cells).testEnter = (cellTaken x rest h.cells, none) := by
    refine if_neg fun ⟨hp, hheld⟩ => ?_
    rcases hno with hno | hno
    · rw [show (cellTaken x rest h.cells).pressure = h.cells.pressure from rfl, hno] at hp
      cases hp
    · exact absurd hheld (Nat.not_le.mpr hno)
  rw [htest]
  rfl

/-- R33: the taking comes to the high mark in NORMAL. -/
theorem cellTaken_enters {sd : Sender} {x : Nat} {rest : List Nat} {h : Hub} (hp : h.cells.pressure = .normal)
    (hheld : h.cells.high ≤ 3072 - rest.length - h.cells.retired.length) :
    Hub.noteEntered sd (cellTaken x rest h.cells).testEnter.2
      { h with cells := (cellTaken x rest h.cells).testEnter.1 } =
    (({ h with cells := { cellTaken x rest h.cells with pressure := .pressure } } : Hub).flag .pressureSeen).raise sd
      (.pressure true (3072 - rest.length - h.cells.retired.length) h.cells.high h.cells.low) := by
  have htest : (cellTaken x rest h.cells).testEnter = ({ cellTaken x rest h.cells with pressure := .pressure },
      some (3072 - rest.length - h.cells.retired.length)) := if_pos ⟨hp, hheld⟩
  rw [htest]
  exact noteEntered_raise sd _ { h with cells := { cellTaken x rest h.cells with pressure := .pressure } } rfl

/-! ## The end of a reception -/

theorem endReception_taken {L : Nat} (h : (s.ports.unitOf p).rx = .taking chain) (hlen : chain.length = cellsFor L) :
    endReception p L s = (some chain, setRx p .idle s) := by
  have hzero : cellsFor L - ((s.ports.unitOf p).rx.chain).length = 0 := by
    rw [h, ← hlen]
    exact Nat.sub_self _
  rw [endReception, hzero]
  simp only [takeMissing, h, Reception.chain]

theorem endReception_dropped (L : Nat) (h : (s.ports.unitOf p).rx = .dropping) :
    endReception p L s = (none, setRx p .idle s) := by
  simp only [endReception, takeMissing_of_dropping _ h, h]

/-- The cells still missing at the end are taken as by TAKE_CELL (log entry 17). -/
theorem endReception_takes {L : Nat} (h : HasTaken (s.ports.unitOf p) chain) (hlen : chain.length < cellsFor L) :
    endReception p L s = endReception p L (takeOneCell p s) := by
  have hmissing : takeMissing p (cellsFor L - ((s.ports.unitOf p).rx.chain).length) s =
      takeMissing p (cellsFor L - (((takeOneCell p s).ports.unitOf p).rx.chain).length) (takeOneCell p s) := by
    obtain ⟨n, hn⟩ := Nat.exists_eq_add_of_lt hlen
    have hleft : cellsFor L - ((s.ports.unitOf p).rx.chain).length = n + 1 := by
      rw [h.chain_eq]
      omega
    rw [hleft, takeMissing]
    rcases takeOneCell_rx p s with hd | hc
    · rw [takeMissing_of_dropping _ hd, takeMissing_of_dropping _ hd]
    · rw [hc, h.chain_eq]
      congr 1
      omega
  simp only [endReception, hmissing]

end

/-! ## Frames lost in reception -/

section
variable {p : Port} {w : Fin 4} {f : List Byte} {ok good : Bool} {len : Nat} {s s1 : State}

theorem received_of_lost (hcan : canEnd p f.length s = true) (hend : endReception p f.length s = (none, s1))
    (sort : List Nat → State → State) : received p f ok sort s = s1 := by
  simp only [received, hcan, hend, if_true]

theorem receivedNotice_of_lost (hcan : canEnd (.radio w) len s = true) (hend : endReception (.radio w) len s = (none, s1))
    (act : State → State) : receivedNotice w len good act s = s1 := by
  simp only [receivedNotice, hcan, hend, if_true]

theorem receiveNoticeFrame_of_lost (hcan : canEnd (.radio w) f.length s = true)
    (hend : endReception (.radio w) f.length s = (none, s1)) : receiveNoticeFrame w f ok s = s1 := by
  unfold receiveNoticeFrame
  split
  · exact receivedNotice_of_lost hcan hend _
  · exact receivedNotice_of_lost hcan hend _

theorem frameOk_iff : frameOk f ok = true ↔ ok = true ∧ 64 ≤ f.length ∧ f.length ≤ 1536 := by
  simp only [frameOk, Bool.and_eq_true, decide_eq_true_eq, and_assoc]

end

end Sys2Proof.Laws

namespace Sys2Proof.Proofs

open Sys2Proof Sys2Proof.Machine Sys2Proof.Safety Sys2Proof.Laws

theorem exec_takeCell {p : Port} {s : State} (h : (s.ports.unitOf p).link = .up) :
    exec (.takeCell p) s = .next (takeOneCell p s) := congrArg Host.Outcome.next (if_pos h)

/-- Settles O16. -/
theorem receptionTakesCells : Obligations.ReceptionTakesCells := by
  refine ⟨fun p s chain hup htaken => ⟨fun x rest hfree => ?takes, fun hfree => ?loses⟩, fun p s hup hdrop => ?drops,
    ?finished, ?lost, fun w index a len ok s s1 hcan hend => ?notices⟩
  case finished =>
    intro p L s finished
    refine ⟨fun chain h hlen => endReception_taken h hlen, fun h => endReception_dropped L h,
      fun chain t hup htaken hlen ht => ?_⟩
    rw [exec_takeCell hup] at ht
    injection ht with ht
    rw [endReception_takes htaken hlen, ht]
  case lost =>
    intro s s1 f ok lost
    refine ⟨?seat, ?radio, ?backbone⟩
    case seat =>
      rintro n ⟨hcan, hend⟩
      simp only [exec, execSeatFrameReceived, received_of_lost hcan hend]
    case radio =>
      rintro w kind i ⟨hcan, hend⟩
      simp only [exec, execRadioDataFrameReceived, received_of_lost hcan hend, receiveNoticeFrame_of_lost hcan hend,
        receivedNotice_of_lost hcan hend, ite_self]
    case backbone =>
      rintro x ⟨hcan, hend⟩
      refine ⟨by simp only [exec, execBackboneFrameReceived, received_of_lost hcan hend], fun hbad => ?_,
        fun hok hmin hmax ht => ?_⟩
      · have helse : ¬ (frameOk f ok = true ∧ typeOf f ≠ typeHold) := by
          rintro ⟨hgood, ht⟩
          obtain ⟨hok, hmin, hmax⟩ := frameOk_iff.mp hgood
          rcases hbad with h | h | h | h
          · rw [hok] at h
            cases h
          · omega
          · omega
          · exact ht h
        simp only [exec, execHoldFrameReceived, if_neg helse, received_of_lost hcan hend]
      · exact congrArg Host.Outcome.next (if_pos ⟨frameOk_iff.mpr ⟨hok, hmin, hmax⟩, ht⟩)
  case takes =>
    have hexec := exec_takeCell hup
    rw [takeOneCell_of_taken htaken, needCell_some hfree] at hexec
    refine ⟨_, hexec, rfl, rfl, fun hno => cellTaken_below hno, ?_⟩
    intro hp hheld held entered
    have hhub := cellTaken_enters (sd := s.sender) (x := x) (rest := rest) (h := s.hub) hp hheld
    obtain ⟨hpressure, hflag⟩ := raise_keeps_pressure s.sender (.pressure true held s.hub.cells.high s.hub.cells.low)
      (h := entered.flag .pressureSeen) rfl
    refine ⟨hhub, ?_, ?_⟩
    · exact (congrArg (fun h : Hub => h.cells.pressure) hhub).trans hpressure
    · exact (congrArg (fun h : Hub => h.flagOf .pressureSeen) hhub).trans (hflag.trans (flagOf_flag_self _ _))
  case loses => rw [exec_takeCell hup, takeOneCell_of_taken htaken, needCell_none hfree]
  case drops => rw [exec_takeCell hup, takeOneCell_dropping hdrop]
  case notices =>
    simp only [exec, execAssociated, execDisassociated, execRadioStart, receiveNotice, receivedNotice_of_lost hcan hend,
      and_self]

end Sys2Proof.Proofs
end

section
/-! SUPPORT. The places of cells through the notices that a return of them raises, the rx discards of ports, and the
return of cells as a whole (R8, R21, R31, R33); and the statement on discards. -/

namespace Sys2Proof.Laws

open Sys2Proof Sys2Proof.Machine Sys2Proof.Safety

/-! ## Notices take their cells from the stack -/

/-- From `h` to `u` notices have been built, with cells off the stack, and no other cell has changed its place. -/
def Told (h u : Hub) : Prop :=
  ∃ new : List FrameRec, u.cells.frames = h.cells.frames ++ new ∧ (∀ g ∈ new, g.kind = .notice ∧ g.refs = 1) ∧
    (u.cells.free ++ new.flatMap (·.chain)).Perm h.cells.free ∧ u.cells.retired = h.cells.retired

theorem Told.sameCells {h u : Hub} (e : u.cells = h.cells) : Told h u :=
  ⟨[], by rw [e, List.append_nil], fun _ hg => absurd hg List.not_mem_nil, by rw [e]; simp, by rw [e]⟩

theorem Told.refl (h : Hub) : Told h h := .sameCells rfl

theorem Told.trans {a b c : Hub} (h : Told a b) (g : Told b c) : Told a c := by
  obtain ⟨n, hframes, hkind, hperm, hretired⟩ := h
  obtain ⟨m, gframes, gkind, gperm, gretired⟩ := g
  refine ⟨n ++ m, by rw [gframes, hframes, List.append_assoc], fun f hf => ?_, ?_, gretired.trans hretired⟩
  · rcases List.mem_append.mp hf with hf | hf
    · exact hkind f hf
    · exact gkind f hf
  · rw [List.flatMap_append]
    calc (c.cells.free ++ (n.flatMap (·.chain) ++ m.flatMap (·.chain))).Perm
          (c.cells.free ++ (m.flatMap (·.chain) ++ n.flatMap (·.chain))) := List.perm_append_comm.append_left _
      _ = (c.cells.free ++ m.flatMap (·.chain)) ++ n.flatMap (·.chain) := (List.append_assoc ..).symm
      _ |>.Perm (b.cells.free ++ n.flatMap (·.chain)) := gperm.append_right _
      _ |>.Perm a.cells.free := hperm

theorem tryNotice_told {sd : Sender} {dst : LinkAddr} {n : Notice} {h h' : Hub} {e : Option Nat}
    (ht : h.tryNotice sd dst n = some (h', e)) : Told h h' := by
  unfold Hub.tryNotice at ht
  split at ht
  case isFalse => cases ht
  case isTrue =>
    split at ht
    case h_1 => cases ht
    case h_2 id h1 e1 hb =>
      obtain ⟨rfl, rfl⟩ := by simpa using ht
      obtain ⟨chain, hchain, -, -, -, hfree, hframes, -, hretired, -⟩ := build_spec hb
      refine ⟨_, hframes, by simp, ?_, hretired⟩
      simp only [hfree, hchain, List.flatMap_cons, List.flatMap_nil, List.append_nil]
      exact List.perm_append_comm.trans (by rw [List.take_append_drop])

theorem reportLost_told (sd : Sender) (h : Hub) : Told h (h.reportLost sd).1 := by
  unfold Hub.reportLost
  split
  case h_1 => exact .refl h
  case h_2 =>
    split
    case isTrue => exact .refl h
    case isFalse =>
      split
      case h_1 => exact .refl h
      case h_2 ht => exact (tryNotice_told ht).trans (.sameCells rfl)

theorem raiseCore_told (sd : Sender) (n : Notice) (h : Hub) : Told h (h.raiseCore sd n).1 := by
  unfold Hub.raiseCore
  split
  case h_1 => exact .refl h
  case h_2 =>
    have hlost := reportLost_told sd h
    dsimp only
    split
    case isTrue => exact hlost.trans (.sameCells rfl)
    case isFalse =>
      split
      case h_1 => exact hlost.trans (.sameCells rfl)
      case h_2 ht => exact hlost.trans (tryNotice_told ht)

theorem noteEntered_told (sd : Sender) (e : Option Nat) (h : Hub) : Told h (h.noteEntered sd e) := by
  cases e with
  | none => exact .refl h
  | some held => exact (Told.sameCells (flag_cells _ _)).trans (raiseCore_told sd _ _)

theorem raise_told (sd : Sender) (n : Notice) (h : Hub) : Told h (h.raise sd n) :=
  (raiseCore_told sd n h).trans (noteEntered_told sd _ _)

theorem noteLeft_told (sd : Sender) (l : Option Nat) (h : Hub) : Told h (h.noteLeft sd l) := by
  cases l with
  | none => exact .refl h
  | some held => exact raise_told sd _ h

theorem noteLeft_none {sd : Sender} {h : Hub} (hr : h.mgmt.reportAddr = none) (l : Option Nat) : h.noteLeft sd l = h := by
  cases l with
  | none => rfl
  | some held => exact raise_none hr

/-! ## The return of cells -/

section
variable (sd : Sender) (failed chain : List Nat) (h : Hub)

/-- The hub with the cells of a chain back and their flag set (R21, R31), before the notice of R33. -/
def cellsBack : Hub :=
  Hub.flagN .memoryDegraded (returnCells failed chain h.cells).2.2 { h with cells := (returnCells failed chain h.cells).1 }

theorem giveBack_eq : h.giveBack sd failed chain =
    (cellsBack failed chain h).noteLeft sd (returnCells failed chain h.cells).2.1 := rfl

@[simp] theorem cellsBack_cells : (cellsBack failed chain h).cells = (returnCells failed chain h.cells).1 :=
  flagN_cells _ _ _

theorem cellsBack_reportAddr : (cellsBack failed chain h).mgmt.reportAddr = h.mgmt.reportAddr :=
  (flagN_quiet _ _ _).reportAddr

theorem SameFrames.eq {c d : CellMemory} (same : SameFrames c d) :
    d = { c with free := d.free, retired := d.retired, pressure := d.pressure } := by
  obtain ⟨hdata, hframes, hfaults, hhigh, hlow, hsingle, hmulti⟩ := same
  cases d
  cases hdata
  cases hframes
  cases hfaults
  cases hhigh
  cases hlow
  cases hsingle
  cases hmulti
  rfl

theorem cellsBack_cells_eq : (cellsBack failed chain h).cells = { h.cells with
    free := (cellsBack failed chain h).cells.free
    retired := h.cells.retired ++ (chain.filter (fun x => failed.contains x)).take (64 - h.cells.retired.length)
    pressure := (cellsBack failed chain h).cells.pressure } := by
  rw [cellsBack_cells, ← returnCells_retired]
  exact (returnCells_perm failed chain h.cells).2.eq

theorem cellsBack_perm : ((cellsBack failed chain h).cells.free ++ (cellsBack failed chain h).cells.retired).Perm
    (chain ++ h.cells.free ++ h.cells.retired) := by
  rw [cellsBack_cells, List.append_assoc]
  exact (returnCells_perm failed chain h.cells).1

theorem cellsBack_mgmt : (cellsBack failed chain h).mgmt =
    { h.mgmt with flags := (cellsBack failed chain h).mgmt.flags } := by
  obtain ⟨flags, hflags⟩ := flagN_mgmt .memoryDegraded (returnCells failed chain h.cells).2.2
    { h with cells := (returnCells failed chain h.cells).1 }
  rw [cellsBack, hflags]

/-- R31: MEMORY_DEGRADED occurs for each failed cell that the retired list has no room for. -/
theorem cellsBack_degraded (beyond : Nat)
    (hbeyond : beyond = (chain.filter (fun x => failed.contains x)).length - (64 - h.cells.retired.length)) :
    (beyond = 0 → (cellsBack failed chain h).flagOf .memoryDegraded = h.flagOf .memoryDegraded) ∧
    (0 < beyond → (cellsBack failed chain h).flagOf .memoryDegraded =
      { isSet := true, count := min ((h.flagOf .memoryDegraded).count + beyond) 65535 }) := by
  rw [cellsBack, returnCells_over, ← hbeyond]
  refine ⟨fun h0 => by rw [h0]; rfl, fun hpos => ?_⟩
  obtain ⟨n, rfl⟩ := Nat.exists_eq_succ_of_ne_zero hpos.ne'
  exact flagOf_flagN_self .memoryDegraded n _

/-- R20, R21: every cell returned is on the stack or retired, or in a notice that the return has brought about. -/
theorem giveBack_places : ∃ new : List FrameRec,
    (h.giveBack sd failed chain).cells.frames = h.cells.frames ++ new ∧ (∀ g ∈ new, g.kind = .notice ∧ g.refs = 1) ∧
    ((h.giveBack sd failed chain).cells.free ++ new.flatMap (·.chain) ++ (h.giveBack sd failed chain).cells.retired).Perm
      (chain ++ h.cells.free ++ h.cells.retired) ∧
    (h.giveBack sd failed chain).cells.retired =
      h.cells.retired ++ (chain.filter (fun x => failed.contains x)).take (64 - h.cells.retired.length) ∧
    (h.mgmt.reportAddr = none → new = [] ∧
      (failed = [] → (h.giveBack sd failed chain).cells.free = chain.reverse ++ h.cells.free)) := by
  obtain ⟨new, hframes, hkind, hperm, hretired⟩ :=
    noteLeft_told sd (returnCells failed chain h.cells).2.1 (cellsBack failed chain h)
  rw [giveBack_eq]
  refine ⟨new, ?_, hkind, ?_, ?_, fun haddr => ⟨?_, fun hgood => ?_⟩⟩
  · rw [hframes, cellsBack_cells_eq]
  · rw [hretired]
    exact (hperm.append_right _).trans (cellsBack_perm failed chain h)
  · rw [hretired, cellsBack_cells, returnCells_retired]
  · rw [noteLeft_none ((cellsBack_reportAddr failed chain h).trans haddr)] at hframes
    exact List.self_eq_append_right.mp hframes
  · rw [noteLeft_none ((cellsBack_reportAddr failed chain h).trans haddr), cellsBack_cells, hgood,
      (returnCells_good chain h.cells).1]

end

/-- R25: the cells of a frame that is freed. -/
theorem freeFrame_eq (sd : Sender) {id : Nat} {h : Hub} {f : FrameRec} (hf : h.cells.frame? id = some f) :
    h.freeFrame sd id = Hub.giveBack sd f.failed f.chain
      { h with cells := { h.cells with frames := h.cells.frames.filter (fun g => decide (g.id ≠ id)) } } := by
  simp only [Hub.freeFrame, hf]

theorem freeFrame_absent (sd : Sender) {id : Nat} {h : Hub} (hf : h.cells.frame? id = none) : h.freeFrame sd id = h := by
  simp only [Hub.freeFrame, hf]

theorem dropRef_last (sd : Sender) {id : Nat} {h : Hub} {f : FrameRec} (hf : h.cells.frame? id = some f)
    (hr : f.refs ≤ 1) : h.dropRef sd id = h.freeFrame sd id := by
  simp only [Hub.dropRef, hf, hr, if_true]

/-! ## The rx discards -/

theorem rxPort_eq_some {s : State} {id : Nat} {q : Port} : s.hub.cells.rxPort id = some q ↔ CountsRx s id q := by
  unfold CountsRx
  cases hf : s.hub.cells.frame? id with
  | none => simp [CellMemory.rxPort, hf]
  | some f => cases hm : s.hub.cells.isMulti f <;> simp [CellMemory.rxPort, hf, hm]

theorem count?_txDrop_rxDiscards (ps : Ports) (b : Option Port) (q : Port) :
    ((ps.count? b PortCounters.txDrop).unitOf q).ctr.rxDiscards = (ps.unitOf q).ctr.rxDiscards := by
  cases b with
  | none => rfl
  | some p =>
    rw [Ports.count?, unitOf_count]
    split
    case isTrue h => rw [h]; rfl
    case isFalse => rfl

theorem count?_rxDiscards (ps : Ports) (b : Option Port) (q : Port) :
    (b = some q → ((ps.count? b PortCounters.rxDiscard).unitOf q).ctr.rxDiscards = (ps.unitOf q).ctr.rxDiscards + 1) ∧
    (b ≠ some q → ((ps.count? b PortCounters.rxDiscard).unitOf q).ctr.rxDiscards = (ps.unitOf q).ctr.rxDiscards) := by
  refine ⟨fun h => ?_, fun h => ?_⟩
  · rw [h, Ports.count?, unitOf_count, if_pos rfl]
    rfl
  · cases b with
    | none => rfl
    | some p => rw [Ports.count?, unitOf_count, if_neg (fun e => h (congrArg some e.symm))]

/-- What the discarding of a stored frame's entry or transmission counts as rx discard (R8, log entry 5). -/
theorem rxCounted (s : State) (id : Nat) (q : Port) {ps : Ports}
    (hps : (ps.unitOf q).ctr.rxDiscards = (s.ports.unitOf q).ctr.rxDiscards) :
    (CountsRx s id q → ((ps.count? (s.hub.cells.rxPort id) PortCounters.rxDiscard).unitOf q).ctr.rxDiscards =
      (s.ports.unitOf q).ctr.rxDiscards + 1) ∧
    (¬ CountsRx s id q → ((ps.count? (s.hub.cells.rxPort id) PortCounters.rxDiscard).unitOf q).ctr.rxDiscards =
      (s.ports.unitOf q).ctr.rxDiscards) := by
  rw [← hps, ← rxPort_eq_some]
  exact count?_rxDiscards ps _ q

theorem countAborted_rx (p : Port) (id : Nat) (s : State) (q : Port) :
    (CountsRx s id q → ((countAborted p id s).ports.unitOf q).ctr.rxDiscards = (s.ports.unitOf q).ctr.rxDiscards + 1) ∧
    (¬ CountsRx s id q → ((countAborted p id s).ports.unitOf q).ctr.rxDiscards = (s.ports.unitOf q).ctr.rxDiscards) :=
  rxCounted s id q ((count?_txDrop_rxDiscards _ (some p) q).trans
    (congrArg PortCounters.rxDiscards (modUnit_ctr s.ports p q (fun _ => rfl))))

theorem SameQueues.unitTx {a b : Ports} (h : SameQueues a b) (p : Port) : (b.unitOf p).tx = (a.unitOf p).tx := by
  cases p with
  | seat n => exact congrArg (fun q => q.unit.tx) (h.seats n)
  | radio w => exact congrArg (fun q => q.unit.tx) (h.radios w)
  | backbone x => exact h.endTx x

theorem countAborted_idle (p : Port) (id : Nat) (s : State) : ((countAborted p id s).ports.unitOf p).tx = none := by
  rw [(countAborted_ports p id s).unitTx, unitOf_modUnit_self]

/-! ## Aborted transmissions -/

section
variable {p : Port} {tx : Transmission} {s : State} {id : Nat}

/-- A hold frame or an order in transmission is lost uncounted (log entry 24). -/
theorem abortTx_uncounted (h : (s.ports.unitOf p).tx = some tx) (hf : tx.frame? = none) :
    abortTx p s = setTx p none s := by
  cases tx with
  | hold d => simp only [abortTx, h]
  | order o => simp only [abortTx, h]
  | frame i => cases hf
  | radioFrame i w => cases hf
  | reply i k => cases hf
  | notice i d => cases hf

/-- A reply in transmission frees its slot (R173). -/
theorem abortTx_reply {k : Fin 4} (h : (s.ports.unitOf p).tx = some tx) (hf : tx.frame? = some id)
    (hk : replySlot? tx = some k) :
    abortTx p s = onHub (fun h => (Hub.dropRef s.sender id h).freeSlot k) (countAborted p id s) := by
  cases tx with
  | reply i j =>
    cases hf
    cases hk
    simp only [abortTx, h]
  | hold d => cases hk
  | order o => cases hk
  | frame i => cases hk
  | radioFrame i w => cases hk
  | notice i d => cases hk

/-- Any other stored frame, where no record is LEAVING for it. -/
theorem abortTx_frame (h : (s.ports.unitOf p).tx = some tx) (hf : tx.frame? = some id) (hk : replySlot? tx = none)
    (hstays : ∀ x k st why, p = .backbone x → s.hub.cells.owner id = some k → s.station? k = some st →
      st.state ≠ .leaving why) :
    abortTx p s = onHub (Hub.dropRef s.sender id) (countAborted p id s) := by
  cases tx with
  | frame i =>
    cases hf
    simp only [abortTx, h]
    cases howner : upwardOwner p id s with
    | none => rfl
    | some k =>
      refine freeIfLeaving_of_present fun st hst why => ?_
      cases p with
      | seat n => cases howner
      | radio w => cases howner
      | backbone x => exact hstays x k st why rfl howner hst
  | radioFrame i w =>
    cases hf
    simp only [abortTx, h]
  | notice i d =>
    cases hf
    simp only [abortTx, h]
  | reply i j => cases hk
  | hold d => cases hf
  | order o => cases hf

end

end Sys2Proof.Laws

namespace Sys2Proof.Proofs

open Sys2Proof Sys2Proof.Machine Sys2Proof.Safety Sys2Proof.Laws

theorem tally_one (r : Discard) {h u : Hub} (q : Quiet (h.tally r) u) :
    u.tallyOf r = h.tallyOf r + 1 ∧ ∀ r', r' ≠ r → u.tallyOf r' = h.tallyOf r' := by
  refine ⟨?_, fun r' hr => ?_⟩
  · rw [q.tallyOf, tallyOf_tally, countAt_self]
    rfl
  · rw [q.tallyOf, tallyOf_tally, countAt_ne 1 hr, BitVec.add_zero]

/-- Settles O17. -/
theorem discardCountsOnce : Obligations.DiscardCountsOnce := by
  refine ⟨?received, ?unstored, ?entry, ?back, fun sd id f h hf => ⟨freeFrame_eq sd hf, dropRef_last sd hf⟩, ?entries,
    ?stopped, ?aborted⟩
  case received =>
    intro r p b o id s t
    obtain ⟨htally, hothers⟩ := tally_one r (freeFrame_quiet s.sender id (s.hub.tally r))
    refine ⟨htally, hothers, ?_, fun q hq => ?_, fun q hq => ?_, fun k st ho hst => ?_, fun k ho => ?_, fun f hf => ?_,
      fun hf => ?_, rfl, rfl, rfl, modStation?_held _ _ _⟩
    · exact (count?_txDrop_rxDiscards _ b p).trans ((count?_rxDiscards s.ports (some p) p).1 rfl)
    · refine (count?_txDrops _ b q).trans ?_
      rw [if_pos hq, show ((s.ports.count p PortCounters.rxDiscard).unitOf q).ctr.txDrops = _ from
        count?_rxDiscard_txDrops s.ports (some p) q]
      rfl
    · refine (count?_txDrops _ b q).trans ?_
      rw [if_neg hq, show ((s.ports.count p PortCounters.rxDiscard).unitOf q).ctr.txDrops = _ from
        count?_rxDiscard_txDrops s.ports (some p) q, BitVec.add_zero]
    · subst ho
      exact (station?_modStation_self _ _ _).trans (by rw [show s.table.station? k = some st from hst]; rfl)
    · cases o with
      | none => rfl
      | some j => exact station?_modStation_ne _ _ (fun e => ho (congrArg some e.symm))
    · have hfree : t.hub = _ := freeFrame_eq s.sender (h := s.hub.tally r) hf
      obtain ⟨new, hframes, hkind, hperm, hretired, haddr⟩ := giveBack_places s.sender f.failed f.chain
        { s.hub.tally r with cells := { (s.hub.tally r).cells with
            frames := (s.hub.tally r).cells.frames.filter (fun g => decide (g.id ≠ id)) } }
      rw [hfree]
      exact ⟨⟨new, hframes, hkind, hperm, fun h => (haddr h).1⟩, hretired, fun hgood h => (haddr h).2 hgood⟩
    · have hkept : t.hub = s.hub.tally r := freeFrame_absent s.sender (h := s.hub.tally r) hf
      rw [hkept]
      rfl
  case unstored =>
    intro p chain s t
    obtain ⟨htally, hothers⟩ := tally_one .wire (giveBack_quiet s.sender [] chain (s.hub.tally .wire))
    obtain ⟨new, hframes, hkind, hperm, hretired, haddr⟩ := giveBack_places s.sender [] chain (s.hub.tally .wire)
    have hkept : t.hub.cells.retired = s.hub.cells.retired := by
      refine hretired.trans ?_
      simp
    refine ⟨htally, hothers, rfl, ⟨new, hframes, hkind, ?_, fun h => ⟨(haddr h).1, (haddr h).2 rfl⟩⟩, hkept,
      (giveBack_quiet s.sender [] chain (s.hub.tally .wire)).input, rfl⟩
    refine (List.perm_append_right_iff t.hub.cells.retired).mp (hperm.trans ?_)
    rw [hkept]
    exact .refl _
  case entry =>
    intro r b id s t
    refine ⟨discardEntry_counts r b id s, fun q => rxCounted s id q (count?_txDrop_rxDiscards _ b q), fun k st hst => ?_,
      fun k hk => ?_, dropRef_dropped id (s := { s with hub := s.hub.tally r }) rfl, rfl, rfl, rfl,
      modStation?_held _ _ _, (discardEntry_quietHub r b id s).slots⟩
    · exact (discardEntry_station r b id s k).trans (by rw [hst]; rfl)
    · exact (discardEntry_station r b id s k).trans (by rw [hk]; rfl)
  case back =>
    intro sd failed chain h t bad room held
    obtain ⟨hnone, hover⟩ := cellsBack_degraded failed chain h (bad.length - room) rfl
    obtain ⟨hleaves, hstays⟩ := returnCells_leave failed chain h.cells
    refine ⟨cellsBack failed chain h, cellsBack_cells_eq failed chain h, cellsBack_perm failed chain h,
      cellsBack_mgmt failed chain h, fun hle => hnone (Nat.sub_eq_zero_of_le hle), fun hlt => hover (Nat.sub_pos_of_lt hlt),
      fun f hf => flagOf_flagN_ne _ _ hf, fun hp hc hheld => ?_, fun hno => ?_⟩
    · obtain ⟨hnormal, hat⟩ := hleaves hp hc hheld
      refine ⟨by rw [cellsBack_cells, hnormal], ?_⟩
      have hmarks := (returnCells_perm failed chain h.cells).2
      change h.giveBack sd failed chain = _
      rw [giveBack_eq, hat, Hub.noteLeft, cellsBack_cells, hmarks.high, hmarks.low]
    · obtain ⟨hsame, hnot⟩ := hstays hno
      refine ⟨by rw [cellsBack_cells, hsame], ?_⟩
      change h.giveBack sd failed chain = _
      rw [giveBack_eq, hnot, Hub.noteLeft]
  case entries =>
    intro r b ids s t
    refine ⟨discardEntries_counts r b ids s, fun hn k st hst => ?_, fun k hk => ?_, discardEntries_up r b ids s,
      ?_, ?_, discardEntries_held r b ids s, discardEntries_slots r b ids s⟩
    · exact (discardEntries_drops r b s hn k).trans (by rw [hst]; rfl)
    · obtain ⟨n, hn⟩ := discardEntries_apart r b ids s k
      exact hn.trans (by rw [hk]; rfl)
    · exact (discardEntries_kept r b ids s).windows
    · exact (discardEntries_kept r b ids s).sched
  case stopped =>
    intro p id s t
    exact ⟨countAborted_idle p id s, countAborted_counts p id s, countAborted_rx p id s, rfl, rfl, rfl⟩
  case aborted =>
    intro p tx s htx t
    refine ⟨fun hf => abortTx_uncounted htx hf, fun id hf hstays => ?_⟩
    have hdropped : ∀ g : Hub → Hub, (∀ h, (g h).cells = (Hub.dropRef s.sender id h).cells) →
        RefDropped id s (onHub g (countAborted p id s)) :=
      fun g hg => dropRef_dropped id (s := countAborted p id s) (hg _)
    cases hk : replySlot? tx with
    | none =>
      have ht : t = _ := abortTx_frame htx hf hk hstays
      rw [ht]
      exact ⟨countAborted_idle p id s,
        (abort_dropped p id (Hub.dropRef s.sender id) s (fun h r => (dropRef_quiet _ _ _).tallyOf r)).1,
        countAborted_rx p id s, hdropped _ (fun _ => rfl), rfl, fun k hk' => absurd hk' (by simp),
        fun _ => dropRef_slots _ _ _⟩
    | some k =>
      have ht : t = _ := abortTx_reply htx hf hk
      rw [ht]
      refine ⟨countAborted_idle p id s,
        (abort_dropped p id (fun h => (Hub.dropRef s.sender id h).freeSlot k) s
          (fun h r => (dropRef_quiet _ _ _).tallyOf r)).1,
        countAborted_rx p id s, hdropped _ (fun _ => rfl), rfl, fun j hj => ?_, fun hno => absurd hno (by simp)⟩
      cases hj
      exact congrArg (fun slots => slots.set k .free) (dropRef_slots s.sender id (s.hub.tally .aborted))

end Sys2Proof.Proofs
end

section
/-! SUPPORT. A frame offered to several queues (R160, R161, R163): the references, the copies not made, and the transit
queue with its hold (R14). -/

namespace Sys2Proof.Laws

open Sys2Proof Sys2Proof.Machine Sys2Proof.Safety

/-! ## References -/

/-- `m` references more on a frame (R25). -/
def moreRefs (id m : Nat) (c : CellMemory) : CellMemory := c.modFrame id (fun f => { f with refs := f.refs + m })

theorem moreRefs_zero (id : Nat) (c : CellMemory) : moreRefs id 0 c = c := by
  have hmap : c.frames.map (fun f => if f.id = id then { f with refs := f.refs + 0 } else f) = c.frames :=
    (List.map_congr_left fun f _ => ite_self _).trans (List.map_id c.frames)
  rw [moreRefs, CellMemory.modFrame, hmap]

theorem moreRefs_add (id m n : Nat) (c : CellMemory) : moreRefs id n (moreRefs id m c) = moreRefs id (m + n) c := by
  have hmap : (c.frames.map (fun f => if f.id = id then { f with refs := f.refs + m } else f)).map
      (fun f => if f.id = id then { f with refs := f.refs + n } else f) =
      c.frames.map (fun f => if f.id = id then { f with refs := f.refs + (m + n) } else f) := by
    rw [List.map_map]
    refine List.map_congr_left fun f _ => ?_
    by_cases h : f.id = id
    · have h' : ({ f with refs := f.refs + m } : FrameRec).id = id := h
      simp only [Function.comp_apply, if_pos h, if_pos h', Nat.add_assoc]
    · simp only [Function.comp_apply, if_neg h]
  simp only [moreRefs, CellMemory.modFrame, hmap]

theorem moreRefs_frame {id m : Nat} {c : CellMemory} {g : FrameRec} (h : c.frame? id = some g) :
    (moreRefs id m c).frame? id = some { g with refs := g.refs + m } :=
  frame?_modFrame_self h (fun _ => rfl)

/-! ## Offers -/

/-- From `s` to `t` the stored frame `id` has been offered to queues: `m` have taken it, and what has not been made counts
as `n` and `d` say. -/
structure Offered (id m : Nat) (n : Discard → Nat) (d : Port → Nat) (s t : State) : Prop where
  cells : t.hub.cells = moreRefs id m s.hub.cells
  counts : Counts s t n d
  rx : ∀ q, (t.ports.unitOf q).ctr.rxDiscards = (s.ports.unitOf q).ctr.rxDiscards
  blocks : blocks t = blocks s
  reportAddr : t.hub.mgmt.reportAddr = s.hub.mgmt.reportAddr

section
variable {id m m' : Nat} {n n' : Discard → Nat} {d d' : Port → Nat} {s t u : State}

theorem Offered.trans (h : Offered id m n d s t) (g : Offered id m' n' d' t u) :
    Offered id (m + m') (fun r => n r + n' r) (fun q => d q + d' q) s u :=
  ⟨by rw [g.cells, h.cells, moreRefs_add], h.counts.trans g.counts, fun q => (g.rx q).trans (h.rx q),
    g.blocks.trans h.blocks, g.reportAddr.trans h.reportAddr⟩

theorem Offered.congr (h : Offered id m n d s t) (hm : m = m') (hn : ∀ r, n r = n' r) (hd : ∀ q, d q = d' q) :
    Offered id m' n' d' s t :=
  ⟨hm ▸ h.cells, h.counts.congr hn hd, h.rx, h.blocks, h.reportAddr⟩

theorem offered_refl (id : Nat) (s : State) : Offered id 0 (fun _ => 0) (fun _ => 0) s s :=
  ⟨(moreRefs_zero id _).symm, .refl s, fun _ => rfl, rfl, rfl⟩

/-- A queue takes the frame: the ports change but for their units. -/
theorem offered_taken {ps : Ports} (id : Nat) (s : State) (h : ∀ q, ps.unitOf q = s.ports.unitOf q) :
    Offered id 1 (fun _ => 0) (fun _ => 0) s { s with
      hub := s.hub.addRef id
      ports := ps } :=
  ⟨rfl, .none (fun _ => rfl) (fun q => by rw [show State.ports _ = ps from rfl, h q]),
    fun q => congrArg (fun u => u.ctr.rxDiscards) (h q), rfl, rfl⟩

/-- A copy that is not made (R161). -/
theorem copyNotMade_offered (id : Nat) (why : Discard) (p : Port) (s : State) :
    Offered id 0 (countAt why 1) (countAt p 1) s (copyNotMade why p s) := by
  refine ⟨(moreRefs_zero id _).symm, ⟨fun r => tallyOf_tally why r s.hub, fun q => ?_⟩,
    count?_txDrop_rxDiscards s.ports (some p), rfl, rfl⟩
  refine (count?_txDrops s.ports (some p) q).trans ?_
  by_cases h : q = p
  · rw [h, if_pos rfl, countAt_self]
  · rw [if_neg (fun e => h (Option.some.inj e).symm), countAt_ne 1 h]

theorem copyNotMade_ports (why : Discard) (p : Port) (s : State) : SameQueues s.ports (copyNotMade why p s).ports :=
  count_sameQueues ..

/-- The input queue takes the frame (R168). -/
theorem enterInput_offered (id : Nat) (level : Level) (p : Port) (s : State) :
    Offered id 1 (fun _ => 0) (fun _ => 0) s (enterInput id level p s) :=
  ⟨rfl, .none (fun _ => rfl) (fun _ => rfl), fun _ => rfl, rfl, rfl⟩

/-- The input queue is full (R168). -/
theorem inputOverflow_offered (id : Nat) (s : State) :
    Offered id 0 (countAt .mgmtOverflow 1) (fun _ => 0) s (inputOverflow s) :=
  ⟨(moreRefs_zero id _).symm, ⟨fun r => tallyOf_tally .mgmtOverflow r s.hub, fun _ => (BitVec.add_zero _).symm⟩,
    fun _ => rfl, rfl, rfl⟩

/-! ## The frame that no queue has taken -/

theorem freeIfUnplaced_placed {g : FrameRec} (p : Port) (hg : t.hub.cells.frame? id = some g) (hr : g.refs ≠ 0) :
    freeIfUnplaced p id t = t := by
  simp only [freeIfUnplaced, hg, if_neg hr]

theorem freeIfUnplaced_unplaced {g : FrameRec} (p : Port) (hg : t.hub.cells.frame? id = some g) (hr : g.refs = 0) :
    freeIfUnplaced p id t = { t with
      hub := t.hub.freeFrame t.sender id
      ports := t.ports.count p PortCounters.rxDiscard } := by
  simp only [freeIfUnplaced, hg, if_pos hr]

/-- What the freeing of a frame that no queue has taken leaves alone. -/
structure Settled (p : Port) (m : Nat) (s t : State) : Prop where
  counts : Counts s t (fun _ => 0) (fun _ => 0)
  rx : (t.ports.unitOf p).ctr.rxDiscards = (s.ports.unitOf p).ctr.rxDiscards + if m = 0 then 1 else 0
  ports : SameQueues s.ports t.ports
  input : t.hub.mgmt.input = s.hub.mgmt.input
  overflow : t.hub.flagOf .mgmtOverflow = s.hub.flagOf .mgmtOverflow
  blocks : blocks t = blocks s

theorem freeFrame_flagOf (sd : Sender) (id : Nat) (h : Hub) {f : Flag} (h1 : f ≠ .noticesLost) (h2 : f ≠ .pressureSeen)
    (h3 : f ≠ .memoryDegraded) : (h.freeFrame sd id).flagOf f = h.flagOf f := by
  cases hf : h.cells.frame? id with
  | none => rw [freeFrame_absent sd hf]
  | some g =>
    rw [freeFrame_eq sd hf]
    exact giveBack_flagOf sd _ _ _ h1 h2 h3

/-- A frame offered to queues stays where one has taken it; else it is freed, with one rx discard (R161, R163). -/
theorem Offered.settled {g : FrameRec} (h : Offered id m n d s t) (p : Port) (hg : s.hub.cells.frame? id = some g)
    (hr : g.refs = 0) : Settled p m t (freeIfUnplaced p id t) ∧
      (0 < m → (freeIfUnplaced p id t).hub = t.hub ∧ t.hub.cells.frame? id = some { g with refs := m }) ∧
      (m = 0 → (freeIfUnplaced p id t).hub = t.hub.freeFrame t.sender id ∧ t.hub.cells = s.hub.cells) := by
  have hframe : t.hub.cells.frame? id = some { g with refs := m } := by
    rw [h.cells, moreRefs_frame hg, hr, Nat.zero_add]
  rcases Nat.eq_zero_or_pos m with hm | hm
  · rw [freeIfUnplaced_unplaced p hframe hm]
    have hq := freeFrame_quiet t.sender id t.hub
    refine ⟨⟨.none hq.tallyOf (count?_rxDiscard_txDrops t.ports (some p)), ?_, count_sameQueues .., hq.input,
      freeFrame_flagOf _ _ _ nofun nofun nofun, rfl⟩, fun h => absurd hm h.ne', fun _ => ⟨rfl, ?_⟩⟩
    · rw [if_pos hm]
      exact (count?_rxDiscards t.ports (some p) p).1 rfl
    · rw [h.cells, hm, moreRefs_zero]
  · rw [freeIfUnplaced_placed p hframe hm.ne']
    exact ⟨⟨.refl t, by rw [if_neg hm.ne']; exact (BitVec.add_zero _).symm, .refl _, rfl, rfl, rfl⟩, fun _ => ⟨rfl, hframe⟩,
      fun h => absurd h hm.ne'⟩

/-- The cells of a frame that no queue has taken (R25). -/
theorem freeFrame_gone {g : FrameRec} (sd : Sender) {h : Hub} (hg : h.cells.frame? id = some g) (hgood : g.failed = [])
    (haddr : h.mgmt.reportAddr = none) : (h.freeFrame sd id).cells.frame? id = none ∧
      (h.freeFrame sd id).cells.free = g.chain.reverse ++ h.cells.free := by
  obtain ⟨⟨new, hframes, -, hnew⟩, -, hfree⟩ := freeFrame_spec sd hg
  refine ⟨?_, hfree hgood haddr⟩
  rw [CellMemory.frame?, hframes, hnew haddr, List.append_nil]
  exact List.find?_eq_none.mpr fun x hx => by simpa using (List.mem_filter.mp hx).2

end

/-! ## Transit (R14, R163) -/

section
variable {x y : End} {id : Nat} {s t : State} {why : Option Discard}

theorem other_other (x : End) : x.other.other = x := by cases x <;> rfl

/-- The checks of R163 in their order. -/
theorem transitRefusal_of_check (h : TransitCheck s y why) : transitRefusal s y = why := by
  unfold transitRefusal shedding
  rcases h with ⟨hdown, rfl⟩ | ⟨hup, hover, hshed, rfl⟩ | ⟨hup, hopen, hfull, rfl⟩ | ⟨hup, hopen, hroom, rfl⟩
  · rw [if_pos hdown]
  · rw [if_neg (by rw [hup]; nofun), hover, hshed]
    rfl
  · have hno : ((s.ports.endOf y).overrun && decide (s.hold.action = .shed)) = false := by
      rcases hopen with h | h <;> simp [h]
    rw [if_neg (by rw [hup]; nofun), hno, if_neg Bool.false_ne_true, if_pos hfull]
  · have hno : ((s.ports.endOf y).overrun && decide (s.hold.action = .shed)) = false := by
      rcases hopen with h | h <;> simp [h]
    rw [if_neg (by rw [hup]; nofun), hno, if_neg Bool.false_ne_true, if_neg (Nat.not_le.mpr hroom)]

theorem transitRefusal_congr (hend : quietEnd (t.ports.endOf y) = quietEnd (s.ports.endOf y)) (hhold : t.hold = s.hold) :
    transitRefusal t y = transitRefusal s y := by
  have hlink : (t.ports.endOf y).unit.link = (s.ports.endOf y).unit.link := (congrArg (fun e => e.unit.link) hend :)
  have hover : (t.ports.endOf y).overrun = (s.ports.endOf y).overrun := (congrArg BackboneEnd.overrun hend :)
  have htransit : (t.ports.endOf y).transit = (s.ports.endOf y).transit := (congrArg BackboneEnd.transit hend :)
  unfold transitRefusal shedding
  rw [hlink, hover, htransit, hhold]

/-- The end that feeds a transit queue after an entry there (R14). -/
def fedFrom (now waiting : Nat) (e : BackboneEnd) : BackboneEnd :=
  if 95 ≤ waiting ∧ e.outstanding = false then
    { e with pendingHold := some 200, outstanding := true, repeatAt := some (now + 100) }
  else e

theorem modEnd_congr {ps : Ports} {x : End} {g h : BackboneEnd → BackboneEnd} (e : g (ps.endOf x) = h (ps.endOf x)) :
    ps.modEnd x g = ps.modEnd x h := by
  cases x with
  | ba => exact congrArg (fun b => { ps with ba := b }) e
  | bb => exact congrArg (fun b => { ps with bb := b }) e

theorem modEnd_id (ps : Ports) (x : End) : ps.modEnd x (fun e => e) = ps := by cases x <;> rfl

theorem enterTransit_eq (x : End) (id : Nat) (s : State) : enterTransit x.other id s = { s with
    hub := s.hub.addRef id
    ports := (s.ports.modEnd x.other (fun e => { e with transit := e.transit ++ [id] })).modEnd x
      (fedFrom s.now (s.ports.endOf x.other).transit.length) } := by
  have hto : ((s.ports.modEnd x.other (fun e => { e with transit := e.transit ++ [id] })).endOf x.other).transit =
      (s.ports.endOf x.other).transit ++ [id] := by rw [modEnd_end, if_pos rfl]
  have hfrom : (s.ports.modEnd x.other (fun e => { e with transit := e.transit ++ [id] })).endOf x = s.ports.endOf x := by
    rw [modEnd_end, if_neg (other_ne x)]
  generalize hps : s.ports.modEnd x.other (fun e => { e with transit := e.transit ++ [id] }) = ps at hto hfrom
  have hiff : 96 ≤ (ps.endOf x.other).transit.length ↔ 95 ≤ (s.ports.endOf x.other).transit.length := by
    rw [hto, List.length_append, List.length_singleton]
    omega
  simp only [enterTransit, afterEnqueue, other_other, hps, hiff]
  by_cases hc : 95 ≤ (s.ports.endOf x.other).transit.length ∧ (ps.endOf x).outstanding = false
  · have hfed : ps.modEnd x (fedFrom s.now (s.ports.endOf x.other).transit.length) = ps.modEnd x (fun e => { e with
        pendingHold := some 200
        outstanding := true
        repeatAt := some (s.now + 100) }) := modEnd_congr (if_pos hc)
    rw [if_pos hc, hfed]
  · have hfed : ps.modEnd x (fedFrom s.now (s.ports.endOf x.other).transit.length) = ps.modEnd x (fun e => e) :=
      modEnd_congr (if_neg hc)
    rw [if_neg hc, hfed, modEnd_id]

theorem enterTransit_to (x : End) (id : Nat) (s : State) : (enterTransit x.other id s).ports.endOf x.other =
    { s.ports.endOf x.other with transit := (s.ports.endOf x.other).transit ++ [id] } := by
  rw [enterTransit_eq]
  cases x <;> rfl

theorem enterTransit_from (x : End) (id : Nat) (s : State) : (enterTransit x.other id s).ports.endOf x =
    fedFrom s.now (s.ports.endOf x.other).transit.length (s.ports.endOf x) := by
  rw [enterTransit_eq]
  cases x <;> rfl

theorem fedFrom_unit (now waiting : Nat) (e : BackboneEnd) : (fedFrom now waiting e).unit = e.unit := by
  unfold fedFrom
  split <;> rfl

theorem fedFrom_transit (now waiting : Nat) (e : BackboneEnd) : (fedFrom now waiting e).transit = e.transit := by
  unfold fedFrom
  split <;> rfl

theorem enterTransit_offered (x : End) (id : Nat) (s : State) :
    Offered id 1 (fun _ => 0) (fun _ => 0) s (enterTransit x.other id s) := by
  rw [enterTransit_eq]
  refine offered_taken id s fun q => ?_
  rw [modEnd_unit _ _ (fun e => fedFrom_unit _ _ e), modEnd_unit _ _ (by intro _; rfl)]

/-- What a copy bound for transit counts where it is not made (R161, R163). -/
theorem transitCopy_offered (hwhy : transitRefusal s x.other = why) :
    Offered id (if why = none then 1 else 0) (fun r => if why = some r then 1 else 0)
      (countAt (.backbone x.other) (if why = none then 0 else 1)) s (transitCopy x id s) := by
  cases why with
  | none =>
    simp only [transitCopy, hwhy]
    exact (enterTransit_offered x id s).congr rfl (fun _ => rfl) (fun q => (countAt_zero _ q).symm)
  | some r =>
    simp only [transitCopy, hwhy]
    refine (copyNotMade_offered id r (.backbone x.other) s).congr rfl (fun r' => ?_) (fun _ => rfl)
    simp only [countAt, Option.some.injEq, eq_comm]

theorem transitCopy_seats (x : End) (id : Nat) (s : State) (n : Fin 32) :
    ((transitCopy x id s).ports.seats[n]).egress = (s.ports.seats[n]).egress := by
  unfold transitCopy
  split
  case h_1 why _ => exact (copyNotMade_ports why _ s).seat n
  case h_2 => rw [enterTransit_eq, modEnd_seats, modEnd_seats]

theorem transitCopy_radios (x : End) (id : Nat) (s : State) (w : Fin 4) :
    ((transitCopy x id s).ports.radios[w]).egress = (s.ports.radios[w]).egress := by
  unfold transitCopy
  split
  case h_1 why _ => exact (copyNotMade_ports why _ s).radio w
  case h_2 => rw [enterTransit_eq, modEnd_radios, modEnd_radios]

theorem transitCopy_part (hwhy : transitRefusal s x.other = why) :
    TransitPart x id (decide (why = none)) s (transitCopy x id s) := by
  cases why with
  | some r =>
    simp only [transitCopy, hwhy]
    have hq := copyNotMade_ports r (.backbone x.other) s
    have hx := hq.ends x
    refine ⟨(hq.transit x.other).trans (List.append_nil _).symm, hq.transit x, ?_⟩
    rw [if_neg (fun h => absurd h.1 (by simp))]
    exact ⟨(congrArg BackboneEnd.pendingHold hx :), (congrArg BackboneEnd.outstanding hx :),
      (congrArg BackboneEnd.repeatAt hx :)⟩
  | none =>
    simp only [transitCopy, hwhy]
    refine ⟨congrArg BackboneEnd.transit (enterTransit_to x id s),
      (congrArg BackboneEnd.transit (enterTransit_from x id s)).trans (fedFrom_transit ..), ?_⟩
    rw [enterTransit_from]
    simp only [decide_true, true_and]
    split
    case isTrue h =>
      rw [fedFrom, if_pos h]
      exact ⟨rfl, rfl, rfl⟩
    case isFalse h =>
      rw [fedFrom, if_neg h]
      exact ⟨rfl, rfl, rfl⟩

/-- What changes no queue and no hold state before and after keeps what is said of the transit queue. -/
theorem transitPart_congr {entered : Bool} {a c : State} (h : TransitPart x id entered a c)
    (hbefore : ∀ z, quietEnd (a.ports.endOf z) = quietEnd (s.ports.endOf z)) (hnow : a.now = s.now)
    (hafter : ∀ z, quietEnd (t.ports.endOf z) = quietEnd (c.ports.endOf z)) : TransitPart x id entered s t := by
  have transit : ∀ {ps qs : Ports}, (∀ z, quietEnd (ps.endOf z) = quietEnd (qs.endOf z)) → ∀ z,
      (ps.endOf z).transit = (qs.endOf z).transit := fun e z => (congrArg BackboneEnd.transit (e z) :)
  have pending : ∀ {ps qs : Ports}, (∀ z, quietEnd (ps.endOf z) = quietEnd (qs.endOf z)) → ∀ z,
      (ps.endOf z).pendingHold = (qs.endOf z).pendingHold := fun e z => (congrArg BackboneEnd.pendingHold (e z) :)
  have outstanding : ∀ {ps qs : Ports}, (∀ z, quietEnd (ps.endOf z) = quietEnd (qs.endOf z)) → ∀ z,
      (ps.endOf z).outstanding = (qs.endOf z).outstanding := fun e z => (congrArg BackboneEnd.outstanding (e z) :)
  have repeats : ∀ {ps qs : Ports}, (∀ z, quietEnd (ps.endOf z) = quietEnd (qs.endOf z)) → ∀ z,
      (ps.endOf z).repeatAt = (qs.endOf z).repeatAt := fun e z => (congrArg BackboneEnd.repeatAt (e z) :)
  unfold TransitPart at h ⊢
  rw [transit hafter, transit hafter, pending hafter, outstanding hafter, repeats hafter, ← transit hbefore,
    ← transit hbefore, ← pending hbefore, ← outstanding hbefore, ← repeats hbefore, ← hnow]
  exact h

end

end Sys2Proof.Laws
end

section
/-! SUPPORT. The copies of a multi-destination frame on the ports of the part (R160, R161), with what each port takes and
what is not made. -/

namespace Sys2Proof.Laws

open Sys2Proof Sys2Proof.Machine Sys2Proof.Safety

/-! ## Lists of ports -/

section
variable {α : Type} {L l : List α} {p : α → Bool}

/-- A list without repeats of those of `L` that pass a test. -/
theorem countP_eq_length (hL : L.Nodup) (hl : l.Nodup) (hmem : ∀ a, a ∈ l ↔ a ∈ L ∧ p a = true) :
    L.countP p = l.length := by
  rw [List.countP_eq_length_filter]
  exact ((List.perm_ext_iff_of_nodup (hL.filter p) hl).mpr fun a => by rw [List.mem_filter, hmem]).length_eq

theorem countP_one [DecidableEq α] (hL : L.Nodup) (hmem : ∀ a, a ∈ l ↔ a ∈ L ∧ p a = true) (a : α) :
    L.countP (fun b => decide (b = a) && p b) = if a ∈ l then 1 else 0 := by
  calc L.countP (fun b => decide (b = a) && p b) = (L.filter p).count a := by
        rw [List.count, List.countP_filter]
        exact List.countP_congr fun b _ => by simp
    _ = if a ∈ L.filter p then 1 else 0 := (hL.filter p).count
    _ = if a ∈ l then 1 else 0 := by simp only [List.mem_filter, hmem]

end

/-! ## One copy -/

/-- Whether the egress queue of an origin has room (R157). -/
def hasRoom (s : State) (o : Origin) : Bool := decide (egressLength s o < 64)

/-- An origin as a multi-destination frame has it: a seat port, or a radio with index 255 (R160). -/
def ForAll (o : Origin) : Prop := ∀ w i, o = .radio w i → i = 255

theorem forAll_ext {o o' : Origin} (h : ForAll o) (h' : ForAll o') (hp : o.port = o'.port) : o = o' := by
  cases o with
  | seat n =>
    cases o' with
    | seat m => cases hp; rfl
    | radio w i => cases hp
  | radio w i =>
    cases o' with
    | seat m => cases hp
    | radio v j =>
      cases hp
      rw [h w i rfl, h' w j rfl]

section
variable {o : Origin} {id : Nat} {s : State}

theorem localCopy_entered (h : hasRoom s o = true) : localCopy o id s = { s with
    hub := s.hub.addRef id
    ports := s.ports.enterEgress o id } :=
  if_neg (Nat.not_le.mpr (of_decide_eq_true h))

theorem localCopy_full (h : hasRoom s o = false) : localCopy o id s = copyNotMade .queueFull o.port s :=
  if_pos (Nat.not_lt.mp (of_decide_eq_false h))

theorem enterEgress_unit (o : Origin) (id : Nat) (ps : Ports) (q : Port) : (ps.enterEgress o id).unitOf q = ps.unitOf q := by
  cases o with
  | seat n => exact modSeat_unit ps n (by intro _; rfl) q
  | radio w i => exact modRadio_unit ps w (by intro _; rfl) q

theorem enterEgress_seat (o : Origin) (id : Nat) (ps : Ports) (n : Fin 32) :
    ((ps.enterEgress o id).seats[n]).egress = (ps.seats[n]).egress ++ if o = .seat n then [id] else [] := by
  cases o with
  | seat m =>
    rw [Ports.enterEgress, modSeat_seat]
    by_cases h : m = n
    · subst h
      rw [if_pos rfl, if_pos rfl]
    · rw [if_neg h, if_neg (fun e => h (Origin.seat.inj e)), List.append_nil]
  | radio w i => exact (List.append_nil _).symm

theorem enterEgress_radio (ho : ForAll o) (id : Nat) (ps : Ports) (w : Fin 4) :
    ((ps.enterEgress o id).radios[w]).egress = (ps.radios[w]).egress ++
      if o = .radio w 255 then [{ id := id, index := 255 }] else [] := by
  cases o with
  | seat m => exact (List.append_nil _).symm
  | radio v i =>
    obtain rfl := ho v i rfl
    rw [Ports.enterEgress, modRadio_radio]
    by_cases h : v = w
    · subst h
      rw [if_pos rfl, if_pos rfl]
    · rw [if_neg h, if_neg (fun e => h (Origin.radio.inj e).1), List.append_nil]

theorem enterEgress_end (o : Origin) (id : Nat) (ps : Ports) (x : End) : (ps.enterEgress o id).endOf x = ps.endOf x := by
  cases o with
  | seat n => exact modSeat_endOf ..
  | radio w i => exact modRadio_endOf ..

theorem localCopy_table (o : Origin) (id : Nat) (s : State) : (localCopy o id s).table = s.table := by
  unfold localCopy
  split <;> rfl

theorem localCopy_seat (o : Origin) (id : Nat) (s : State) (n : Fin 32) : ((localCopy o id s).ports.seats[n]).egress =
    (s.ports.seats[n]).egress ++ if o = .seat n ∧ hasRoom s o = true then [id] else [] := by
  cases h : hasRoom s o with
  | true =>
    rw [localCopy_entered h, enterEgress_seat]
    simp only [and_true]
  | false =>
    rw [localCopy_full h, (copyNotMade_ports .queueFull o.port s).seat n, if_neg (fun e => absurd e.2 (by simp)),
      List.append_nil]

theorem localCopy_radio (ho : ForAll o) (id : Nat) (s : State) (w : Fin 4) :
    ((localCopy o id s).ports.radios[w]).egress = (s.ports.radios[w]).egress ++
      if o = .radio w 255 ∧ hasRoom s o = true then [{ id := id, index := 255 }] else [] := by
  cases h : hasRoom s o with
  | true =>
    rw [localCopy_entered h, enterEgress_radio ho]
    simp only [and_true]
  | false =>
    rw [localCopy_full h, (copyNotMade_ports .queueFull o.port s).radio w, if_neg (fun e => absurd e.2 (by simp)),
      List.append_nil]

theorem localCopy_end (o : Origin) (id : Nat) (s : State) (x : End) :
    quietEnd ((localCopy o id s).ports.endOf x) = quietEnd (s.ports.endOf x) := by
  cases h : hasRoom s o with
  | true => rw [localCopy_entered h, enterEgress_end]
  | false =>
    rw [localCopy_full h]
    exact (copyNotMade_ports .queueFull o.port s).ends x

/-- A copy leaves the queues of the other ports. -/
theorem localCopy_room (ho : ForAll o) {o' : Origin} (ho' : ForAll o') (hne : o' ≠ o) :
    hasRoom (localCopy o id s) o' = hasRoom s o' := by
  have hlen : egressLength (localCopy o id s) o' = egressLength s o' := by
    cases o' with
    | seat n =>
      refine congrArg List.length ((localCopy_seat o id s n).trans ?_)
      rw [if_neg (fun e => hne e.1.symm), List.append_nil]
    | radio w i =>
      obtain rfl := ho' w i rfl
      refine congrArg List.length ((localCopy_radio ho id s w).trans ?_)
      rw [if_neg (fun e => hne e.1.symm), List.append_nil]
  rw [hasRoom, hasRoom, hlen]

theorem localCopy_offered (o : Origin) (id : Nat) (s : State) :
    Offered id (if hasRoom s o then 1 else 0) (countAt .queueFull (if hasRoom s o then 0 else 1))
      (countAt o.port (if hasRoom s o then 0 else 1)) s (localCopy o id s) := by
  cases h : hasRoom s o with
  | true =>
    rw [localCopy_entered h]
    exact (offered_taken id s (enterEgress_unit o id s.ports)).congr rfl (fun _ => (countAt_zero _ _).symm)
      (fun _ => (countAt_zero _ _).symm)
  | false =>
    rw [localCopy_full h]
    exact copyNotMade_offered id .queueFull o.port s

end

/-! ## All local copies -/

/-- The local copies of a frame, one after another. -/
def localCopies (id : Nat) (os : List Origin) (s : State) : State := os.foldl (fun s o => localCopy o id s) s

/-- What the local copies of the frame `id` at `os` do (R160, R161). -/
structure Copied (id : Nat) (os : List Origin) (s t : State) : Prop where
  offered : Offered id (os.countP (hasRoom s)) (countAt .queueFull (os.countP (fun o => !hasRoom s o)))
    (fun q => os.countP (fun o => decide (o.port = q) && !hasRoom s o)) s t
  seat : ∀ n : Fin 32, (t.ports.seats[n]).egress =
    (s.ports.seats[n]).egress ++ if .seat n ∈ os ∧ hasRoom s (.seat n) = true then [id] else []
  radio : ∀ w : Fin 4, (t.ports.radios[w]).egress = (s.ports.radios[w]).egress ++
    if .radio w 255 ∈ os ∧ hasRoom s (.radio w 255) = true then [{ id := id, index := 255 }] else []
  ends : ∀ x, quietEnd (t.ports.endOf x) = quietEnd (s.ports.endOf x)

/-- What a queue takes from one copy and then the others, of which none is for the same origin. -/
theorem append_once {β : Type} {o o' : Origin} {os : List Origin} (hnot : o ∉ os) {first later : Bool}
    (hsame : o' ≠ o → later = first) (e : β) :
    ((if o = o' ∧ first = true then [e] else []) ++ if o' ∈ os ∧ later = true then [e] else []) =
      if o' ∈ o :: os ∧ first = true then [e] else [] := by
  by_cases ho : o' = o
  · subst ho
    rw [if_neg (c := o' ∈ os ∧ later = true) (fun h => hnot h.1), List.append_nil]
    simp
  · rw [hsame ho, if_neg (fun h => ho h.1.symm), List.nil_append]
    simp [ho]

theorem localCopies_copied (id : Nat) {os : List Origin} (s : State) (hn : os.Nodup) (hall : ∀ o ∈ os, ForAll o) :
    Copied id os s (localCopies id os s) := by
  induction os generalizing s with
  | nil =>
    exact ⟨(offered_refl id s).congr rfl (fun _ => (countAt_zero _ _).symm) (fun _ => rfl),
      fun n => by simp [localCopies], fun w => by simp [localCopies], fun _ => rfl⟩
  | cons o os ih =>
    obtain ⟨hnot, hn'⟩ := List.nodup_cons.mp hn
    have ho : ForAll o := hall o List.mem_cons_self
    have hrest : ∀ o' ∈ os, ForAll o' := fun o' h => hall o' (List.mem_cons_of_mem _ h)
    have hroom : ∀ o' ∈ os, hasRoom (localCopy o id s) o' = hasRoom s o' :=
      fun o' h => localCopy_room ho (hrest o' h) (fun e => hnot (e ▸ h))
    obtain ⟨hoffered, hseat, hradio, hends⟩ := ih (localCopy o id s) hn' hrest
    have hcopied : localCopies id (o :: os) s = localCopies id os (localCopy o id s) := rfl
    rw [hcopied]
    refine ⟨((localCopy_offered o id s).trans hoffered).congr ?_ (fun r => ?_) (fun q => ?_), fun n => ?_, fun w => ?_,
      fun x => (hends x).trans (localCopy_end o id s x)⟩
    · rw [List.countP_cons, Nat.add_comm, List.countP_congr fun o' h => by rw [hroom o' h]]
    · rw [countAt_add, List.countP_cons, List.countP_congr fun o' h => by rw [hroom o' h], Nat.add_comm]
      cases hasRoom s o <;> rfl
    · rw [List.countP_cons, List.countP_congr fun o' h => by rw [hroom o' h], Nat.add_comm]
      congr 1
      by_cases hq : o.port = q
      · rw [← hq, countAt_self]
        cases hasRoom s o <;> simp
      · rw [countAt_ne _ (fun e => hq e.symm)]
        simp [hq]
    · rw [hseat n, localCopy_seat, List.append_assoc]
      congr 1
      refine (congrArg (· ++ _) ?_).trans (append_once (o' := .seat n) hnot (first := hasRoom s (.seat n))
        (fun h => localCopy_room ho nofun h) id)
      by_cases h : o = .seat n
      · rw [h]
      · rw [if_neg (fun e => h e.1), if_neg (fun e => h e.1)]
    · rw [hradio w, localCopy_radio ho, List.append_assoc]
      congr 1
      refine (congrArg (· ++ _) ?_).trans (append_once (o' := .radio w 255) hnot (first := hasRoom s (.radio w 255))
        (fun h => localCopy_room ho (fun v i e => (Origin.radio.inj e).2.symm) h) _)
      by_cases h : o = .radio w 255
      · rw [h]
      · rw [if_neg (fun e => h e.1), if_neg (fun e => h e.1)]

/-! ## Where the copies go -/

/-- The seat ports, and the radios, with a live record, in the order of their copies (R160). -/
def liveSeats (s : State) : List (Fin 32) := (List.finRange 32).filter (liveSeat s)
def liveRadios (s : State) : List (Fin 4) := (List.finRange 4).filter (liveRadio s)

def liveOrigins (s : State) : List Origin :=
  (liveSeats s).map Origin.seat ++ (liveRadios s).map (Origin.radio · 255)

theorem foldl_live {α : Type} (live : State → α → Bool) (o : α → Origin) (id : Nat)
    (hlive : ∀ s t : State, t.table = s.table → live t = live s) (l : List α) (s : State) :
    l.foldl (fun s a => if live s a then localCopy (o a) id s else s) s =
      localCopies id ((l.filter (live s)).map o) s := by
  induction l generalizing s with
  | nil => rfl
  | cons a l ih =>
    rw [List.foldl_cons, ih]
    cases h : live s a with
    | true =>
      rw [List.filter_cons_of_pos h, if_pos rfl, hlive s _ (localCopy_table (o a) id s)]
      rfl
    | false =>
      rw [List.filter_cons_of_neg (by simp [h]), if_neg Bool.false_ne_true]

theorem localCopies_table (id : Nat) (os : List Origin) (s : State) : (localCopies id os s).table = s.table := by
  induction os generalizing s with
  | nil => rfl
  | cons o os ih => exact (ih _).trans (localCopy_table o id s)

theorem multiDeliver_eq (x : End) (id : Nat) (s : State) : multiDeliver x id s =
    freeIfUnplaced (.backbone x) id (transitCopy x id (localCopies id (liveOrigins s) s)) := by
  have hseats := foldl_live liveSeat Origin.seat id (fun s t h => by funext n; unfold liveSeat; rw [h]) (List.finRange 32) s
  have hradio : ∀ s t : State, t.table = s.table → liveRadio t = liveRadio s :=
    fun s t h => by funext w; unfold liveRadio; rw [h]
  have hcopies : localCopies id (liveOrigins s) s = localCopies id ((liveRadios s).map (Origin.radio · 255))
      (localCopies id ((liveSeats s).map Origin.seat) s) := List.foldl_append
  have hradios := foldl_live liveRadio (Origin.radio · 255) id hradio (List.finRange 4)
    (localCopies id ((liveSeats s).map Origin.seat) s)
  rw [hradio s _ (localCopies_table ..)] at hradios
  rw [hcopies]
  unfold multiDeliver
  rw [hseats]
  exact congrArg (fun t => freeIfUnplaced (.backbone x) id (transitCopy x id t)) hradios

theorem liveSeats_nodup (s : State) : (liveSeats s).Nodup := (List.nodup_finRange 32).filter _
theorem liveRadios_nodup (s : State) : (liveRadios s).Nodup := (List.nodup_finRange 4).filter _

theorem mem_liveSeats {s : State} {n : Fin 32} : n ∈ liveSeats s ↔ liveSeat s n = true := by
  simp [liveSeats]

theorem mem_liveRadios {s : State} {w : Fin 4} : w ∈ liveRadios s ↔ liveRadio s w = true := by
  simp [liveRadios]

theorem seat_mem_liveOrigins {s : State} {n : Fin 32} : .seat n ∈ liveOrigins s ↔ n ∈ liveSeats s := by
  simp [liveOrigins]

theorem radio_mem_liveOrigins {s : State} {w : Fin 4} : .radio w 255 ∈ liveOrigins s ↔ w ∈ liveRadios s := by
  simp [liveOrigins]

theorem liveOrigins_nodup (s : State) : (liveOrigins s).Nodup := by
  refine List.nodup_append.mpr ⟨(liveSeats_nodup s).map fun _ _ => Origin.seat.inj,
    (liveRadios_nodup s).map fun _ _ h => (Origin.radio.inj h).1, fun a ha b hb e => ?_⟩
  obtain ⟨n, -, rfl⟩ := List.mem_map.mp ha
  obtain ⟨w, -, rfl⟩ := List.mem_map.mp hb
  cases e

theorem liveOrigins_forAll (s : State) : ∀ o ∈ liveOrigins s, ForAll o := by
  intro o ho w i e
  subst e
  rcases List.mem_append.mp ho with h | h
  · obtain ⟨n, -, hn⟩ := List.mem_map.mp h
    cases hn
  · obtain ⟨v, -, hv⟩ := List.mem_map.mp h
    exact (Origin.radio.inj hv).2.symm

/-- The counting over the origins, by seats and radios. -/
theorem countP_liveOrigins (p : Origin → Bool) (s : State) : (liveOrigins s).countP p =
    (liveSeats s).countP (fun n => p (.seat n)) + (liveRadios s).countP (fun w => p (.radio w 255)) := by
  rw [liveOrigins, List.countP_append, List.countP_map, List.countP_map]
  rfl

section
variable (p : Origin → Bool) (s : State)

theorem countP_at_seat (n : Fin 32) : (liveOrigins s).countP (fun o => decide (o.port = .seat n) && p o) =
    (liveSeats s).countP (fun m => decide (m = n) && p (.seat m)) := by
  have hradios : (liveRadios s).countP (fun w => decide ((Origin.radio w 255).port = .seat n) && p (.radio w 255)) = 0 :=
    List.countP_eq_zero.mpr fun w _ => by simp [Origin.port]
  rw [countP_liveOrigins, hradios, Nat.add_zero]
  simp only [Origin.port, Port.seat.injEq]

theorem countP_at_radio (w : Fin 4) : (liveOrigins s).countP (fun o => decide (o.port = .radio w) && p o) =
    (liveRadios s).countP (fun v => decide (v = w) && p (.radio v 255)) := by
  have hseats : (liveSeats s).countP (fun n => decide ((Origin.seat n).port = .radio w) && p (.seat n)) = 0 :=
    List.countP_eq_zero.mpr fun n _ => by simp [Origin.port]
  rw [countP_liveOrigins, hseats, Nat.zero_add]
  simp only [Origin.port, Port.radio.injEq]

theorem countP_at_end (x : End) : (liveOrigins s).countP (fun o => decide (o.port = .backbone x) && p o) = 0 :=
  List.countP_eq_zero.mpr fun o _ => by cases o <;> simp [Origin.port]

end

end Sys2Proof.Laws
end

section
/-! What a backbone frame for nobody here, for many, or for the part does (R153, R160, R161, R163, R168); and the
statement on it. -/

namespace Sys2Proof.Laws

open Sys2Proof Sys2Proof.Machine Sys2Proof.Safety

section
variable {p : Port} {f : List Byte} {ok : Bool} {s s1 : State} {chain : List Nat}

theorem Ends.blocks (h : Ends p s s1) : Safety.blocks s1 = Safety.blocks s := by
  simp only [Safety.blocks, h.kept.now, h.kept.identity, h.table, h.kept.windows, h.kept.sched, h.up, h.kept.consist,
    h.kept.hold]

/-- The transit checks do not read the reception of a port, nor its counters. -/
theorem Ends.transitRefusal (h : Ends p s s1) (y : End) : Machine.transitRefusal s1 y = Machine.transitRefusal s y := by
  obtain ⟨r, c, hend⟩ := receptionOnly_end h.ports y
  unfold Machine.transitRefusal shedding
  rw [hend, h.kept.hold]

theorem Ends.refused {y : End} {why : Option Discard} (h : Ends p s s1) (hc : TransitCheck s y why) :
    Machine.transitRefusal s1 y = why := (h.transitRefusal y).trans (transitRefusal_of_check hc)

/-- The storing of a frame leaves the other end. -/
theorem storeFrame_other (x : End) (chain : List Nat) (f : List Byte) (s : State) :
    (storeFrame (.backbone x) chain f s).ports.endOf x.other = s.ports.endOf x.other := by cases x <;> rfl

/-- The report address stands as it was. -/
theorem Arrives.reportAddr (h : Arrives p f ok s chain s1) : s1.hub.mgmt.reportAddr = s.hub.mgmt.reportAddr := by
  obtain ⟨haddr, -⟩ := endReception_settings p s f.length
  rwa [h.2.1] at haddr

/-- Whether the frame goes to nobody, to many, or to transit alone (R153). -/
theorem sortBackbone_transit {x : End} {id : Nat} (hgroup : isGroup (dstOf f) = false) (hd : dstOf f ≠ s.identity)
    (hwho : typeOf f = typeMgmt ∨ s.table.byAddr (dstOf f) = none) : sortBackbone x id f s = transitUnicast x id s := by
  unfold sortBackbone
  simp only [hd, hgroup, if_false, Bool.false_eq_true]
  rcases hwho with h | h
  · rw [if_pos h]
  · rw [h]
    exact ite_self _

theorem sortBackbone_multi {x : End} {id : Nat} (hm : typeOf f ≠ typeMgmt) (hd : dstOf f ≠ s.identity)
    (hgroup : isGroup (dstOf f) = true) : sortBackbone x id f s = multiDeliver x id s := by
  simp only [sortBackbone, hm, hd, hgroup, if_false, if_true]

theorem sortBackbone_request {x : End} {id : Nat} (hm : typeOf f = typeMgmt) (hd : dstOf f = s.identity) :
    sortBackbone x id f s = offerUnicast id .server (.backbone x) s := by
  simp only [sortBackbone, hm, hd, if_true]

theorem sortBackbone_broadcast {x : End} {id : Nat} (hm : typeOf f = typeMgmt) (hd : dstOf f ≠ s.identity)
    (hgroup : isGroup (dstOf f) = true) : sortBackbone x id f s = offerBroadcast id x s := by
  simp only [sortBackbone, hm, hd, hgroup, if_false, if_true]

theorem sortBackbone_own {x : End} {id : Nat} (hm : typeOf f ≠ typeMgmt) (hd : dstOf f = s.identity) :
    sortBackbone x id f s = discardFrame .wire (.backbone x) none none id s := by
  simp only [sortBackbone, hm, hd, if_false, if_true]

theorem transitUnicast_refused {x : End} {id : Nat} {why : Discard} (h : Machine.transitRefusal s x.other = some why) :
    transitUnicast x id s = discardFrame why (.backbone x) (some (.backbone x.other)) none id s := by
  simp only [transitUnicast, h]

theorem transitUnicast_enters {x : End} {id : Nat} (h : Machine.transitRefusal s x.other = none) :
    transitUnicast x id s = enterTransit x.other id s := by
  simp only [transitUnicast, h]

theorem transitCopy_enters {x : End} {id : Nat} (h : Machine.transitRefusal s x.other = none) :
    transitCopy x id s = enterTransit x.other id s := by
  simp only [transitCopy, h]

theorem typeMgmt_ne_typeHold : typeMgmt ≠ typeHold := by decide

theorem kindOfType_mgmt : kindOfType typeMgmt = .management := by decide

theorem ofNat_ite (c : Prop) [Decidable c] : BitVec.ofNat 32 (if c then 1 else 0) = if c then 1 else 0 := by
  split <;> rfl

theorem ofNat_ite_not (c : Prop) [Decidable c] : BitVec.ofNat 32 (if c then 0 else 1) = if c then 0 else 1 := by
  split <;> rfl

end

/-! ## The input queue -/

section
variable {id : Nat} {level : Level} {p : Port} {s : State}

/-- What the input queue does with a frame that is offered to it (R168). -/
def offerInput (id : Nat) (level : Level) (p : Port) (s : State) : State :=
  if s.hub.mgmt.input.length < 4 then enterInput id level p s else inputOverflow s

theorem offerInput_offered (id : Nat) (level : Level) (p : Port) (s : State) :
    Offered id (if decide (s.hub.mgmt.input.length < 4) then 1 else 0)
      (fun r => if r = .mgmtOverflow ∧ decide (s.hub.mgmt.input.length < 4) = false then 1 else 0) (fun _ => 0) s
      (offerInput id level p s) := by
  unfold offerInput
  by_cases h : s.hub.mgmt.input.length < 4
  · rw [if_pos h]
    exact (enterInput_offered id level p s).congr (by rw [decide_eq_true h]; rfl) (fun r => by simp [h]) (fun _ => rfl)
  · rw [if_neg h]
    exact (inputOverflow_offered id s).congr (by rw [decide_eq_false h]; rfl)
      (fun r => by simp only [countAt, decide_eq_false h, and_true]) (fun _ => rfl)

theorem offerInput_ports (id : Nat) (level : Level) (p : Port) (s : State) : (offerInput id level p s).ports = s.ports := by
  unfold offerInput
  split <;> rfl

theorem offerInput_input (id : Nat) (level : Level) (p : Port) (s : State) : (offerInput id level p s).hub.mgmt.input =
    s.hub.mgmt.input ++ if decide (s.hub.mgmt.input.length < 4) then [{ id := id, level := level, port := p }] else [] := by
  unfold offerInput
  by_cases h : s.hub.mgmt.input.length < 4
  · rw [if_pos h, decide_eq_true h]
    rfl
  · rw [if_neg h, decide_eq_false h]
    exact (List.append_nil _).symm

theorem offerInput_overflow (id : Nat) (level : Level) (p : Port) (s : State) :
    (offerInput id level p s).hub.flagOf .mgmtOverflow =
      if decide (s.hub.mgmt.input.length < 4) then s.hub.flagOf .mgmtOverflow
      else (s.hub.flagOf .mgmtOverflow).occur := by
  unfold offerInput
  by_cases h : s.hub.mgmt.input.length < 4
  · rw [if_pos h, decide_eq_true h]
    rfl
  · rw [if_neg h, decide_eq_false h]
    exact flagOf_flag_self .mgmtOverflow (s.hub.tally .mgmtOverflow)

theorem offerBroadcast_eq (id : Nat) (x : End) (s : State) : offerBroadcast id x s =
    freeIfUnplaced (.backbone x) id (transitCopy x id (offerInput id .server (.backbone x) s)) := rfl

theorem transitCopy_mgmt (x : End) (id : Nat) (s : State) : (transitCopy x id s).hub.mgmt.input = s.hub.mgmt.input ∧
    (transitCopy x id s).hub.flagOf .mgmtOverflow = s.hub.flagOf .mgmtOverflow := by
  unfold transitCopy
  split
  case h_1 => exact ⟨rfl, rfl⟩
  case h_2 =>
    rw [enterTransit_eq]
    exact ⟨rfl, rfl⟩

end

end Sys2Proof.Laws

namespace Sys2Proof.Proofs

open Sys2Proof Sys2Proof.Machine Sys2Proof.Safety Sys2Proof.Laws

section
variable {x : End} {f : List Byte} {ok : Bool} {s s1 : State} {chain : List Nat}

theorem exec_holdFrameReceived_bad (h : ArrivesBad (.backbone x) f ok s chain s1) :
    exec (.holdFrameReceived x f ok) s = .next (discardWire (.backbone x) chain s1) := by
  have hbad : ¬ (frameOk f ok = true ∧ typeOf f ≠ typeHold) := fun hok => by
    rw [frameOk_of_bad h.2.2] at hok
    exact Bool.false_ne_true hok.1
  simp only [exec, execHoldFrameReceived, if_neg hbad, received_of_bad h]

/-- A management frame for the part is offered to the input queue (R7, R168). -/
theorem exec_request {p : Port} {command : Instr} {level : Level}
    (hp : (∃ x, p = .backbone x ∧ command = .backboneFrameReceived x f ok ∧ level = .server) ∨
      (∃ n : Fin 32, p = .seat n ∧ command = .seatFrameReceived n f ok ∧ level = .crew ∧
        (s.ports.seats[n]).designation = .crewMaint))
    (h : Arrives p f ok s chain s1) (hm : typeOf f = typeMgmt) (hd : dstOf f = s.identity) :
    exec command s = .next (offerUnicast (chain.headD 0) level p (storeFrame p chain f s1)) := by
  have hstored := (Arrives.ends h).store chain f
  have hhold : typeOf f ≠ typeHold := by rw [hm]; exact typeMgmt_ne_typeHold
  have hd' : dstOf f = (storeFrame p chain f s1).identity := hd.trans hstored.kept.identity.symm
  rcases hp with ⟨x, rfl, rfl, rfl⟩ | ⟨n, rfl, rfl, rfl, hcrew⟩
  · rw [exec_backboneFrameReceived h hhold, sortBackbone_request hm hd']
  · have hcrew' := (receptionOnly_designation hstored.ports n).trans hcrew
    rw [exec_seatFrame h hhold]
    simp only [sortSeat, hm, hcrew', ← hd', and_self, if_true]

end

/-- Settles O33. -/
theorem transitIsChecked : Obligations.TransitIsChecked := by
  refine ⟨?unicast, ?multi, ?request, ?broadcast, fun x f ok s chain s1 => ⟨fun h =>
    ⟨exec_backboneFrameReceived_bad h, exec_holdFrameReceived_bad h⟩, fun h ht hm hd => ?_⟩⟩
  case unicast =>
    intro x f ok s chain s1 h ht hgroup hd hwho id s2 y out
    have hends : Ends (.backbone x) s s1 := Arrives.ends h
    have hstored : Ends (.backbone x) s s2 := hends.store chain f
    have hexec : exec (.backboneFrameReceived x f ok) s = .next (transitUnicast x id s2) := by
      refine (exec_backboneFrameReceived h ht).trans (congrArg _ (sortBackbone_transit hgroup ?_ ?_))
      · rw [hstored.kept.identity]
        exact hd
      · rw [hstored.table]
        exact hwho
    have refused : ∀ {why : Discard}, TransitCheck s y (some why) → out why :=
      fun hc => hexec.trans (congrArg _ (transitUnicast_refused (hstored.refused hc)))
    refine ⟨fun hdown => refused (.inl ⟨hdown, rfl⟩), fun hup hover hshed => refused (.inr (.inl ⟨hup, hover, hshed, rfl⟩)),
      fun hup hopen hfull => refused (.inr (.inr (.inl ⟨hup, hopen, hfull, rfl⟩))), fun hup hopen hroom hfresh => ?_⟩
    have henters := transitUnicast_enters (id := id) (hstored.refused (.inr (.inr (.inr ⟨hup, hopen, hroom, rfl⟩))))
    obtain ⟨-, -, hhold⟩ := transitCopy_part (id := id) (hstored.refused (.inr (.inr (.inr ⟨hup, hopen, hroom, rfl⟩))))
    have hcopy : transitCopy x id s2 = enterTransit x.other id s2 :=
      transitCopy_enters (hstored.refused (.inr (.inr (.inr ⟨hup, hopen, hroom, rfl⟩))))
    have hoffered := enterTransit_offered x id s2
    obtain ⟨r, c, hx⟩ := receptionOnly_end hstored.ports x
    have hy : (s2.ports.endOf y).transit = (s.ports.endOf y).transit := receptionOnly_transit hstored.ports y
    refine ⟨_, hexec.trans (congrArg _ henters), ?_, ?_, ?_, ?_, hoffered.blocks.trans hstored.blocks⟩
    · refine (enterTransit_to x id s2).trans ?_
      rw [hy, storeFrame_other]
    · rw [hcopy, hx, hy, hstored.kept.now] at hhold
      simpa only [decide_true, true_and] using hhold
    · rw [hoffered.cells, moreRefs_frame (storeFrame_frame (.backbone x) f hfresh)]
      rfl
    · rw [enterTransit_eq]
      rfl
  case multi =>
    intro x f ok s chain s1 why h ht hm hd hgroup hcheck hfresh id s2 live liveAt liveOn seats full radios stuck hseats
      hfull hradios hstuck inSeats inFull inRadios inStuck entries failed
    have hstored : Ends (.backbone x) s s2 := (Arrives.ends h).store chain f
    have hexec : exec (.backboneFrameReceived x f ok) s = .next (multiDeliver x id s2) :=
      (exec_backboneFrameReceived h ht).trans (congrArg _ (sortBackbone_multi hm
        (by rw [hstored.kept.identity]; exact hd) hgroup))
    have hframe := storeFrame_frame (.backbone x) f hfresh
    -- the ports that take a copy, and those that do not
    have seatRoom : ∀ n, hasRoom s2 (.seat n) = decide ((s.ports.seats[n]).egress.length < 64) :=
      fun n => congrArg (fun l : Nat => decide (l < 64)) (hstored.egressLength (.seat n))
    have radioRoom : ∀ w, hasRoom s2 (.radio w 255) = decide ((s.ports.radios[w]).egress.length < 64) :=
      fun w => congrArg (fun l : Nat => decide (l < 64)) (hstored.egressLength (.radio w 255))
    have liveSeat : ∀ n, n ∈ liveSeats s2 ↔ liveAt n := fun n => by
      rw [mem_liveSeats, liveSeat_iff]
      simp only [hstored.station]
      rfl
    have liveRadio : ∀ w, w ∈ liveRadios s2 ↔ liveOn w := fun w => by
      rw [mem_liveRadios, liveRadio_iff]
      simp only [hstored.station]
      rfl
    have memSeats : ∀ n, n ∈ seats ↔ n ∈ liveSeats s2 ∧ hasRoom s2 (.seat n) = true := fun n => by
      rw [inSeats, liveSeat, seatRoom, decide_eq_true_eq]
    have memFull : ∀ n, n ∈ full ↔ n ∈ liveSeats s2 ∧ (!hasRoom s2 (.seat n)) = true := fun n => by
      rw [inFull, liveSeat, seatRoom, Bool.not_eq_true', decide_eq_false_iff_not, Nat.not_lt]
    have memRadios : ∀ w, w ∈ radios ↔ w ∈ liveRadios s2 ∧ hasRoom s2 (.radio w 255) = true := fun w => by
      rw [inRadios, liveRadio, radioRoom, decide_eq_true_eq]
    have memStuck : ∀ w, w ∈ stuck ↔ w ∈ liveRadios s2 ∧ (!hasRoom s2 (.radio w 255)) = true := fun w => by
      rw [inStuck, liveRadio, radioRoom, Bool.not_eq_true', decide_eq_false_iff_not, Nat.not_lt]
    -- the copies, the transit part and the freeing of a frame that nobody took
    have hcopied := localCopies_copied id s2 (liveOrigins_nodup s2) (liveOrigins_forAll s2)
    have heq := multiDeliver_eq x id s2
    generalize localCopies id (liveOrigins s2) s2 = u at hcopied heq
    have hhold : u.hold = s2.hold := congrArg Blocks.hold hcopied.offered.blocks
    have hnow : u.now = s2.now := congrArg Blocks.now hcopied.offered.blocks
    have hwhy : Machine.transitRefusal u x.other = why :=
      (transitRefusal_congr (hcopied.ends x.other) hhold).trans (hstored.refused hcheck)
    have htransit := transitCopy_offered (id := id) hwhy
    have hpart := transitCopy_part (id := id) hwhy
    have hseat := transitCopy_seats x id u
    have hradio := transitCopy_radios x id u
    have hm : (liveOrigins s2).countP (hasRoom s2) + (if why = none then 1 else 0) = entries := by
      rw [countP_liveOrigins, countP_eq_length (liveSeats_nodup s2) hseats memSeats,
        countP_eq_length (liveRadios_nodup s2) hradios memRadios]
    have hlost : (liveOrigins s2).countP (fun o => !hasRoom s2 o) = failed := by
      rw [countP_liveOrigins, countP_eq_length (liveSeats_nodup s2) hfull memFull,
        countP_eq_length (liveRadios_nodup s2) hstuck memStuck]
    have hoffered := (hcopied.offered.trans htransit).congr hm (fun _ => rfl) (fun _ => rfl)
    generalize transitCopy x id u = v at hoffered hpart hseat hradio heq
    obtain ⟨hsettled, hplaced, hunplaced⟩ := hoffered.settled (.backbone x) hframe rfl
    rw [← heq] at hsettled hplaced hunplaced
    have hcounts := hoffered.counts.trans hsettled.counts
    refine ⟨_, hexec, fun n => ?_, fun w => ?_, transitPart_congr hpart hcopied.ends hnow hsettled.ports.ends, fun r => ?_,
      fun n => ?_, fun w => ?_, ?_, ?_, fun hpos => ?_, fun hzero haddr => ?_,
      hsettled.blocks.trans (hoffered.blocks.trans hstored.blocks)⟩
    · rw [hsettled.ports.seat n, hseat n, hcopied.seat n, receptionOnly_egress hstored.ports]
      simp only [seat_mem_liveOrigins, ← memSeats]
    · rw [hsettled.ports.radio w, hradio w, hcopied.radio w, receptionOnly_radio hstored.ports]
      simp only [radio_mem_liveOrigins, ← memRadios]
    · refine (hcounts.tally r).trans ?_
      simp only [countAt, hlost, Nat.add_zero]
    · refine (hcounts.txDrops (.seat n)).trans ?_
      rw [countP_at_seat (fun o => !hasRoom s2 o), countP_one (liveSeats_nodup s2) memFull,
        countAt_ne _ (show Port.seat n ≠ .backbone x.other from nofun),
        Nat.add_zero, ofNat_ite]
      rfl
    · refine (hcounts.txDrops (.radio w)).trans ?_
      rw [countP_at_radio (fun o => !hasRoom s2 o), countP_one (liveRadios_nodup s2) memStuck,
        countAt_ne _ (show Port.radio w ≠ .backbone x.other from nofun),
        Nat.add_zero, ofNat_ite]
      rfl
    · refine (hcounts.txDrops (.backbone x.other)).trans ?_
      rw [countP_at_end (fun o => !hasRoom s2 o), countAt_self, Nat.add_zero, Nat.zero_add, ofNat_ite_not]
      rfl
    · exact hsettled.rx.trans (congrArg (· + _) (hoffered.rx (.backbone x)))
    · obtain ⟨hhub, hf⟩ := hplaced hpos
      rw [hhub]
      exact ⟨hf, (congrArg (fun c : CellMemory => c.free) hoffered.cells :)⟩
    · obtain ⟨hhub, hcells⟩ := hunplaced hzero
      obtain ⟨hgone, hfree⟩ := freeFrame_gone (h := v.hub) v.sender (by rw [hcells]; exact hframe) rfl
        (hoffered.reportAddr.trans ((Arrives.reportAddr h).trans haddr))
      rw [hhub]
      exact ⟨hgone, hfree.trans (congrArg (chain.reverse ++ ·) (congrArg CellMemory.free hcells :))⟩
  case request =>
    intro p command level f ok s chain s1 hp h hm hd hfresh id s2
    have hexec := exec_request hp h hm hd
    have hstored : Ends p s s2 := (Arrives.ends h).store chain f
    have hframe := storeFrame_frame p f hfresh
    refine ⟨fun hroom => ?_, fun hfull => ?_⟩
    · have hkind : kindOfType (typeOf f) = .management := by rw [hm, kindOfType_mgmt]
      refine ⟨_, hexec.trans (congrArg _ (if_pos hroom)), rfl, ?_, rfl, hstored.blocks⟩
      exact (moreRefs_frame (m := 1) hframe).trans (congrArg (fun kind => some { receivedFrame p chain f with
        kind := kind
        refs := 1 }) hkind)
    · refine hexec.trans (congrArg _ ((if_neg (Nat.not_lt.mpr hfull)).trans ?_))
      exact freeIfUnplaced_unplaced (t := inputOverflow s2) p hframe rfl
  case broadcast =>
    intro x f ok s chain s1 why h hm hd hgroup hcheck hfresh id s2 room entries
    have hstored : Ends (.backbone x) s s2 := (Arrives.ends h).store chain f
    have hexec : exec (.backboneFrameReceived x f ok) s = .next (offerBroadcast id x s2) :=
      (exec_backboneFrameReceived h (by rw [hm]; exact typeMgmt_ne_typeHold)).trans
        (congrArg _ (sortBackbone_broadcast hm (by rw [hstored.kept.identity]; exact hd) hgroup))
    have hframe := storeFrame_frame (.backbone x) f hfresh
    have heq := offerBroadcast_eq id x s2
    have hinput := offerInput_offered id .server (.backbone x) s2
    have hports := offerInput_ports id .server (.backbone x) s2
    have hqueue := offerInput_input id .server (.backbone x) s2
    have hflag := offerInput_overflow id .server (.backbone x) s2
    generalize offerInput id .server (.backbone x) s2 = u at hinput hports hqueue hflag heq
    have hhold : u.hold = s2.hold := congrArg Blocks.hold hinput.blocks
    have hnow : u.now = s2.now := congrArg Blocks.now hinput.blocks
    have hends : ∀ z, quietEnd (u.ports.endOf z) = quietEnd (s2.ports.endOf z) := fun z => by rw [hports]
    have hwhy : Machine.transitRefusal u x.other = why :=
      (transitRefusal_congr (hends x.other) hhold).trans (hstored.refused hcheck)
    have htransit := transitCopy_offered (id := id) hwhy
    have hpart := transitCopy_part (id := id) hwhy
    obtain ⟨hcopyInput, hcopyFlag⟩ := transitCopy_mgmt x id u
    have hoffered := hinput.trans htransit
    generalize transitCopy x id u = v at hoffered hpart hcopyInput hcopyFlag heq
    obtain ⟨hsettled, hplaced, hunplaced⟩ := hoffered.settled (.backbone x) hframe rfl
    rw [← heq] at hsettled hplaced hunplaced
    have hcounts := hoffered.counts.trans hsettled.counts
    have hoverflow := hsettled.overflow.trans (hcopyFlag.trans hflag)
    refine ⟨_, hexec, hsettled.input.trans (hcopyInput.trans hqueue), transitPart_congr hpart hends hnow hsettled.ports.ends,
      fun r => hcounts.tally r, fun hno => ?_, fun hyes => ?_, ?_, ?_, fun hpos => ?_, fun hzero haddr => ?_,
      hsettled.blocks.trans (hoffered.blocks.trans hstored.blocks)⟩
    · exact hoverflow.trans (if_neg (fun hyes => Bool.false_ne_true (hno.symm.trans hyes)))
    · exact hoverflow.trans (if_pos hyes)
    · refine (hcounts.txDrops (.backbone x.other)).trans ?_
      rw [countAt_self, Nat.add_zero, Nat.zero_add, ofNat_ite_not]
      rfl
    · exact hsettled.rx.trans (congrArg (· + _) (hoffered.rx (.backbone x)))
    · obtain ⟨hhub, hf⟩ := hplaced hpos
      have hkind : kindOfType (typeOf f) = .management := by rw [hm, kindOfType_mgmt]
      rw [hhub]
      exact hf.trans (congrArg (fun kind => some { receivedFrame (.backbone x) chain f with
        kind := kind
        refs := entries }) hkind)
    · obtain ⟨hhub, hcells⟩ := hunplaced hzero
      rw [hhub]
      exact (freeFrame_gone v.sender (by rw [hcells]; exact hframe) rfl (hoffered.reportAddr.trans ((Arrives.reportAddr h).trans haddr))).1
  · have hstored := (Arrives.ends h).store chain f
    exact (exec_backboneFrameReceived h ht).trans
      (congrArg _ (sortBackbone_own hm (hd.trans hstored.kept.identity.symm)))

end Sys2Proof.Proofs
end

section
/-! SUPPORT. Starts of a transmission (R9, R29), the local arbiter's choice (R137 to R143) and what a grant changes (R139
to R147); and the statement on the arbiters. -/

namespace Sys2Proof.Laws

open Sys2Proof Sys2Proof.Machine Sys2Proof.Safety

/-! ## A start -/

section
variable {p : Port} {fs : List CellFault} {s t : State} {id : Nat} {tx : Transmission}

theorem exec_start (h : CanStart p s) : exec (.transmissionStart p fs) s = .next (startPort p (withFaults fs s)) :=
  congrArg Host.Outcome.next (if_pos h)

/-- A port that tries the frame `id` first and goes on where that start fails (R9, R29). -/
theorem starts_of_tried (hcan : CanStart p s) (hport : startPort p (withFaults fs s) =
      if (tryStart p id tx { t with hub := (withFaults fs s).hub }).1
      then (tryStart p id tx { t with hub := (withFaults fs s).hub }).2
      else goOn p s.hub.cells.frames.length (tryStart p id tx { t with hub := (withFaults fs s).hub }).2) :
    Starts p fs s id tx t := by
  refine ⟨fun ⟨f, hf, hreads⟩ => ?_, fun f bad hf hbad hne => ?_⟩
  · have hstands := tryStart_stands (tx := tx) (s := { t with hub := (withFaults fs s).hub }) hf hreads
    have hafter : afterReading (withFaults fs s) id p = ((withFaults fs s).hub.readFrame f (some p)).2 := by
      simp only [afterReading, hf]
    rw [exec_start hcan, hport, hstands, hafter]
    rfl
  · have hfails := tryStart_fails (tx := tx) (s := { t with hub := (withFaults fs s).hub }) hf hbad hne
    have hafter : afterReading (withFaults fs s) id p = ((withFaults fs s).hub.readFrame f (some p)).2 := by
      have hf0 : (withFaults fs s).hub.cells.frame? id = some f := hf
      simp only [afterReading, hf0]
    rw [exec_start hcan, hport, hfails, hafter]
    rfl

/-- The last source of a backbone end is asked (R145, R147). -/
theorem startEnd_last {x : End} (fuel : Nat) (hreplies : repliesFor s.hub.mgmt (.backbone x) = [])
    (hnotice : noticeFor x s = none) : (chooseLast x s = none → startEnd (fuel + 1) x s = s) ∧
      ∀ id u, chooseLast x s = some (id, u) → startEnd (fuel + 1) x s =
        if (tryStart (.backbone x) id (.frame id) u).1 then (tryStart (.backbone x) id (.frame id) u).2
        else startEnd fuel x (tryStart (.backbone x) id (.frame id) u).2 := by
  rw [startEnd]
  simp only [hreplies, hnotice]
  refine ⟨fun h => by rw [h], fun id u h => by rw [h]⟩

theorem startPort_open {x : End} (hpending : (s.ports.endOf x).pendingHold = none)
    (hheld : (s.ports.endOf x).heldUntil = none) :
    startPort (.backbone x) s = startEnd (s.hub.cells.frames.length + 1) x s := by
  simp only [startPort, hpending, hheld, Option.isSome_none, Bool.false_eq_true, if_false]

theorem starts_last {x : End} (hreach : ReachesLast x s)
    (hchosen : chooseLast x (withFaults fs s) = some (id, { t with hub := (withFaults fs s).hub })) :
    Starts (.backbone x) fs s id (.frame id) t := by
  obtain ⟨hcan, hpending, hheld, hreplies, hnotice⟩ := hreach
  refine starts_of_tried hcan ((startPort_open (s := withFaults fs s) hpending hheld).trans ?_)
  exact (startEnd_last (s := withFaults fs s) s.hub.cells.frames.length hreplies hnotice).2 id _ hchosen

theorem rests_last {x : End} (hreach : ReachesLast x s) (hnone : chooseLast x (withFaults fs s) = none) :
    exec (.transmissionStart (.backbone x) fs) s = .next (withFaults fs s) := by
  obtain ⟨hcan, hpending, hheld, hreplies, hnotice⟩ := hreach
  rw [exec_start hcan, startPort_open (s := withFaults fs s) hpending hheld]
  exact congrArg _ ((startEnd_last (s := withFaults fs s) s.hub.cells.frames.length hreplies hnotice).1 hnone)

end

/-! ## The groups -/

section
variable {s : State} {k : Fin 256}

theorem pickOperations_some (h : FirstAfter s.up.opsPtr k (Waits s (fun st => st.cls = .operations))) :
    pickOperations s = some (.operations k) := by
  rw [pickOperations, rotate_first (mayServe_class s .operations) h, Option.map_some]

theorem pickOperations_none (h : ∀ j, ¬ Waits s (fun st => st.cls = .operations) j) : pickOperations s = none := by
  rw [pickOperations, rotate_none (mayServe_class s .operations) h, Option.map_none]

theorem pickCrew_some (h : FirstAfter s.up.crewPtr k (Waits s (fun st => st.cls = .crew))) :
    pickCrew s = some (.crew k) := by
  rw [pickCrew, rotate_first (mayServe_class s .crew) h, Option.map_some]

theorem pickCrew_none (h : ∀ j, ¬ Waits s (fun st => st.cls = .crew) j) : pickCrew s = none := by
  rw [pickCrew, rotate_none (mayServe_class s .crew) h, Option.map_none]

theorem runHolder_none (h : ∀ j, ¬ RunGoesOn s j) : runHolder s = none :=
  Option.eq_none_iff_forall_ne_some.mpr fun j hj => h j ((runHolder_iff s j).mp hj)

theorem pickCredit_run (h : RunGoesOn s k) : pickCredit s = some (.credit k true) := by
  rw [pickCredit, (runHolder_iff s k).mpr h]

theorem pickCredit_some (hno : ∀ j, ¬ RunGoesOn s j)
    (h : FirstAfter s.up.creditPtr k (Waits s (fun st => st.cls = .passenger ∧ 0 < st.credit))) :
    pickCredit s = some (.credit k false) := by
  rw [pickCredit, runHolder_none hno, rotate_first (mayServe_credit s) h]
  rfl

theorem waits_of_runGoesOn (h : RunGoesOn s k) : Waits s (fun st => st.cls = .passenger ∧ 0 < st.credit) k := by
  obtain ⟨r, -, -, -, st, hst, hadmitted, hupq, hflight, hcls, hcredit, -⟩ := h
  exact ⟨st, hst, hadmitted, hupq, hflight, hcls, hcredit⟩

theorem pickCredit_none (h : ∀ j, ¬ Waits s (fun st => st.cls = .passenger ∧ 0 < st.credit) j) :
    pickCredit s = none := by
  rw [pickCredit, runHolder_none fun j hj => h j (waits_of_runGoesOn hj), rotate_none (mayServe_credit s) h]
  rfl

theorem pickSurplus_some
    (h : FirstAfter s.up.surplusPtr k (Waits s (fun st => st.cls = .passenger ∧ 0 < s.sched.surplus))) :
    pickSurplus s = some (.surplus k) := by
  rw [pickSurplus, rotate_first (mayServe_surplus s) h, Option.map_some]

theorem pickSurplus_none (h : ∀ j, ¬ Waits s (fun st => st.cls = .passenger ∧ 0 < s.sched.surplus) j) :
    pickSurplus s = none := by
  rw [pickSurplus, rotate_none (mayServe_surplus s) h, Option.map_none]

/-- The groups are tried in their order, and the passenger groups first where the guarantee is due (R138). -/
theorem localPick_service {p : Pick} (hfirst : GuaranteeFirst s → pickCredit s = none ∧ pickSurplus s = none)
    (hp : (pickOperations s).or ((pickCrew s).or (pickOnboard s)) = some p) : localPick s = some p := by
  simp only [localPick, hp]
  split
  case isTrue h =>
    obtain ⟨hcredit, hsurplus⟩ := hfirst ((passengersFirst_iff s).mp h)
    rw [hcredit, hsurplus]
    rfl
  case isFalse => rfl

theorem localPick_none (hservice : (pickOperations s).or ((pickCrew s).or (pickOnboard s)) = none)
    (hpassengers : (pickCredit s).or (pickSurplus s) = none) : localPick s = none := by
  simp only [localPick, hservice, hpassengers, ite_self, Option.none_or]

theorem localPick_passengers {p : Pick} (hp : (pickCredit s).or (pickSurplus s) = some p)
    (h : GuaranteeFirst s ∨ (pickOperations s).or ((pickCrew s).or (pickOnboard s)) = none) :
    localPick s = some p := by
  simp only [localPick, hp]
  split
  case isTrue => rfl
  case isFalse hnot =>
    rw [h.resolve_left fun hg => hnot ((passengersFirst_iff s).mpr hg)]
    rfl

/-- A grant of the credit group is made by that group. -/
theorem pickCredit_of_localPick {inRun : Bool} (h : localPick s = some (.credit k inRun)) :
    pickCredit s = some (.credit k inRun) := by
  have hoperations : pickOperations s ≠ some (.credit k inRun) := fun e => by
    obtain ⟨j, -, hj⟩ := Option.map_eq_some_iff.mp e
    cases hj
  have hcrew : pickCrew s ≠ some (.credit k inRun) := fun e => by
    obtain ⟨j, -, hj⟩ := Option.map_eq_some_iff.mp e
    cases hj
  have hsurplus : pickSurplus s ≠ some (.credit k inRun) := fun e => by
    obtain ⟨j, -, hj⟩ := Option.map_eq_some_iff.mp e
    cases hj
  have honboard : pickOnboard s ≠ some (.credit k inRun) := fun e => by
    by_cases hw : OnboardWaits s
    · rw [(pickOnboard_some s).mpr hw] at e
      cases e
    · rw [(pickOnboard_none s).mpr hw] at e
      cases e
  unfold localPick at h
  split at h <;> simp only [Option.or_eq_some_iff] at h <;> tauto

/-- A grant that continues a run goes to its holder (R142). -/
theorem run_of_localPick (h : localPick s = some (.credit k true)) : RunGoesOn s k := by
  have hcredit := pickCredit_of_localPick h
  unfold pickCredit at hcredit
  split at hcredit
  case h_1 j hj =>
    obtain rfl : j = k := by injection hcredit with h; injection h
    exact (runHolder_iff s j).mp hj
  case h_2 =>
    obtain ⟨j, -, hj⟩ := Option.map_eq_some_iff.mp hcredit
    cases hj

end

/-! ## The grant of the lead end -/

section
variable {x : End} {s u : State} {id : Nat} {rest : List Nat} {p : Pick}

/-- Local is chosen (R146): no transit frame waits, or the alternation or the streak is at local. -/
def LocalTurn (x : End) (s : State) : Prop :=
  (s.ports.endOf x).transit = [] ∨ s.sched.params.n = 0 ∧ (s.ports.endOf x).lastTransit = true ∨
    0 < s.sched.params.n ∧ s.sched.params.n ≤ (s.ports.endOf x).streak

theorem transitChosen_iff (n : Nat) (e : BackboneEnd) :
    transitChosen n e = true ↔ n = 0 ∧ e.lastTransit = false ∨ e.streak < n := by
  unfold transitChosen
  split
  case isTrue h => simp [h]
  case isFalse h => simp [h]

theorem chooseLast_local (hlead : s.consist.lead = some x) (hturn : LocalTurn x s) (hpick : localPick s = some p)
    (hgrant : takeGrant p s = some (id, u)) : chooseLast x s = some (id, { u with
      ports := u.ports.modEnd x (fun e => { e with streak := 0, lastTransit := false }) }) := by
  have hlocal : (grantLocal s).map (fun r => (r.1, onPorts (Ports.modEnd x BackboneEnd.afterLocal) r.2)) =
      some (id, onPorts (Ports.modEnd x BackboneEnd.afterLocal) u) := by
    rw [grantLocal, hpick, Option.bind_some, hgrant, Option.map_some]
  refine Eq.trans ?_ hlocal
  rw [chooseLast, if_pos hlead]
  simp only [chooseShared, hpick, Option.isSome_some, Bool.true_and]
  split
  case h_1 j rest htransit =>
    refine if_pos (Bool.not_eq_true' _ ▸ Bool.eq_false_iff.mpr fun hchosen => ?_)
    rcases hturn with h | ⟨hn, hlast⟩ | ⟨hn, hstreak⟩
    · rw [h] at htransit
      cases htransit
    · rcases (transitChosen_iff ..).mp hchosen with ⟨-, h⟩ | h
      · rw [hlast] at h
        cases h
      · omega
    · rcases (transitChosen_iff ..).mp hchosen with ⟨h, -⟩ | h <;> omega
  case h_2 => rfl

theorem takeTransit_ports (x : End) (rest : List Nat) (s : State) : (takeTransit x rest s).ports =
    if rest.length < 64 ∧ (s.ports.endOf x.other).outstanding = true then
      (s.ports.modEnd x (fun e => { e with transit := rest })).modEnd x.other (fun e =>
        { e with pendingHold := some 0, outstanding := false, repeatAt := none })
    else s.ports.modEnd x (fun e => { e with transit := rest }) := by
  cases x <;> rfl

/-- The ports with the head of a transit queue gone, the arbitration state of the end moved, and the release that the
fall brings (R14, R146). -/
def transitTaken (x : End) (rest : List Nat) (streak : Nat) (kind : Bool) (ps : Ports) : Ports :=
  if rest.length < 64 ∧ (ps.endOf x.other).outstanding = true then
    (ps.modEnd x (fun e => { e with transit := rest, streak := streak, lastTransit := kind })).modEnd x.other (fun e =>
      { e with pendingHold := some 0, outstanding := false, repeatAt := none })
  else ps.modEnd x (fun e => { e with transit := rest, streak := streak, lastTransit := kind })

theorem takeTransit_shared (x : End) (rest : List Nat) (localHad : Bool) (s : State) :
    takeTransit x rest (onPorts (Ports.modEnd x (BackboneEnd.afterTransit localHad)) s) = { s with
      ports := transitTaken x rest (if localHad then min ((s.ports.endOf x).streak + 1) 7 else 0) true s.ports } := by
  cases x <;> rfl

theorem takeTransit_alone (x : End) (rest : List Nat) (s : State) : takeTransit x rest s = { s with
    ports := transitTaken x rest (s.ports.endOf x).streak (s.ports.endOf x).lastTransit s.ports } := by
  cases x <;> rfl

theorem chooseLast_transit (hlead : s.consist.lead = some x) (htransit : (s.ports.endOf x).transit = id :: rest)
    (hturn : localPick s = none ∨ transitChosen s.sched.params.n (s.ports.endOf x) = true) :
    chooseLast x s = some (id, { s with
      ports := transitTaken x rest (if (localPick s).isSome then min ((s.ports.endOf x).streak + 1) 7 else 0) true
        s.ports }) := by
  rw [chooseLast, if_pos hlead, ← takeTransit_shared]
  simp only [chooseShared, htransit]
  refine if_neg fun h => ?_
  rcases hturn with hnone | hchosen
  · rw [hnone] at h
    cases h
  · rw [hchosen, Bool.not_true, Bool.and_false] at h
    cases h

theorem chooseLast_alone (hlead : s.consist.lead ≠ some x) (htransit : (s.ports.endOf x).transit = id :: rest) :
    chooseLast x s = some (id, { s with
      ports := transitTaken x rest (s.ports.endOf x).streak (s.ports.endOf x).lastTransit s.ports }) := by
  rw [chooseLast, if_neg hlead, ← takeTransit_alone]
  simp only [htransit]

theorem chooseLast_none (htransit : (s.ports.endOf x).transit = [])
    (hlocal : s.consist.lead = some x → localPick s = none) : chooseLast x s = none := by
  unfold chooseLast
  split
  case isTrue hlead =>
    have hgrant : grantLocal s = none := by rw [grantLocal, hlocal hlead, Option.bind_none]
    simp only [chooseShared, htransit, hgrant, Option.map_none]
  case isFalse => simp only [htransit]

end

/-! ## What a grant changes -/

section
variable {k : Fin 256} {s : State} {st : Station} {id : Nat} {rest : List Nat}

theorem headOf_eq (hst : s.station? k = some st) (hupq : st.upq = id :: rest) : headOf s k = some id := by
  rw [headOf, hst, Option.bind_some, hupq, List.head?_cons]

theorem takeGrant_credit (inRun : Bool) (h : headOf s k = some id) : takeGrant (.credit k inRun) s = some (id, { s with
    table := s.table.modStation k (Station.creditGrant (frameLength s id) s.sched.number)
    up := { s.up with
      creditPtr := if inRun then s.up.creditPtr else k
      run := runAfterCredit s k inRun
      guarantee := 0 } }) := by rw [takeGrant, h, Option.map_some]

theorem takeGrant_surplus (h : headOf s k = some id) : takeGrant (.surplus k) s = some (id, { s with
    table := s.table.modStation k (Station.surplusGrant s.sched.number)
    sched := { s.sched with surplus := s.sched.surplus - frameLength s id }
    up := { s.up with surplusPtr := k, run := none, guarantee := 0 } }) := by rw [takeGrant, h, Option.map_some]

theorem takeGrant_operations (h : headOf s k = some id) : takeGrant (.operations k) s = some (id, { s with
    table := s.table.modStation k Station.popHead
    up := { s.up with opsPtr := k, guarantee := guaranteeAfter s, run := runAfterService s } }) := by
  rw [takeGrant, h, Option.map_some]

theorem takeGrant_crew (h : headOf s k = some id) : takeGrant (.crew k) s = some (id, { s with
    table := s.table.modStation k Station.popHead
    up := { s.up with crewPtr := k, guarantee := guaranteeAfter s, run := runAfterService s } }) := by
  rw [takeGrant, h, Option.map_some]

theorem takeGrant_onboard (h : s.up.onboard = id :: rest) : takeGrant .onboard s = some (id, { s with
    up := { s.up with onboard := rest, guarantee := guaranteeAfter s, run := runAfterService s } }) := by
  rw [takeGrant, h, List.head?_cons, Option.map_some, List.tail_cons]

theorem guaranteeAfter_eq {g : Nat}
    (h : PassengerWaits s ∧ g = min (s.up.guarantee + 1) 15 ∨ ¬ PassengerWaits s ∧ g = 0) : guaranteeAfter s = g := by
  rw [← passengerEligible_iff] at h
  rcases h with ⟨hw, rfl⟩ | ⟨hw, rfl⟩
  · exact if_pos hw
  · exact if_neg hw

theorem runAfterService_eq {r : Option Run}
    (h : GuaranteeFirst s ∧ r = none ∨ ¬ GuaranteeFirst s ∧ r = s.up.run) : runAfterService s = r := by
  rw [← passengersFirst_iff] at h
  rcases h with ⟨hf, rfl⟩ | ⟨hf, rfl⟩
  · exact if_pos hf
  · exact if_neg hf

/-- The run behind a credit grant: it ends with the last entry of its holder's queue (R141, R142). -/
theorem runAfterCredit_eq {inRun : Bool} (hst : s.station? k = some st) (hupq : st.upq = id :: rest)
    (hrun : inRun = true → RunGoesOn s k) : runAfterCredit s k inRun =
      if rest = [] then none
      else if inRun then s.up.run.map (fun r => { r with granted := r.granted + 1 })
      else if st.shaping.mode = .run then some { holder := k, granted := 1 } else none := by
  have htail : st.upq.tail = rest := by rw [hupq, List.tail_cons]
  simp only [runAfterCredit, hst, htail]
  cases rest with
  | cons j rest => rw [runOnQueue_cons, if_neg (List.cons_ne_nil j rest)]
  | nil =>
    rw [runOnQueue_nil, endRun_eq, if_pos rfl]
    cases inRun with
    | true =>
      obtain ⟨r, hr, rfl, -⟩ := hrun rfl
      rw [hr, if_pos rfl]
      exact if_pos rfl
    | false =>
      simp only [Bool.false_eq_true, if_false]
      split <;> simp

end

end Sys2Proof.Laws

namespace Sys2Proof.Proofs

open Sys2Proof Sys2Proof.Machine Sys2Proof.Safety Sys2Proof.Laws

/-- Settles O30. -/
theorem passengerGrantDebits : Obligations.PassengerGrantDebits := by
  refine ⟨?granted, ?service, ?passengers, ?transit, ?nothing⟩
  case granted =>
    intro x fs s id hreach hlead hturn s0 granted popped
    have starts : ∀ {p : Pick} {u : State}, localPick s0 = some p →
        takeGrant p s0 = some (id, { u with hub := s0.hub }) → u.ports = s.ports → granted u :=
      fun {p u} hpick hgrant hports => by
        refine starts_last hreach ((chooseLast_local (x := x) (s := s0) hlead hturn hpick hgrant).trans ?_)
        rw [← hports]
    refine ⟨fun k st rest inRun hpick hst hupq => ?_, fun k st rest hpick hst hupq => ?_, fun g r hg hr =>
      ⟨fun k st rest hpick hst hupq => ?_, fun k st rest hpick hst hupq => ?_, fun rest hpick honboard => ?_⟩⟩
    · have hgrant := takeGrant_credit (s := s0) inRun (headOf_eq hst hupq)
      rw [runAfterCredit_eq (s := s0) hst hupq (fun h => run_of_localPick (h ▸ hpick))] at hgrant
      exact starts hpick hgrant rfl
    · exact starts hpick (takeGrant_surplus (s := s0) (headOf_eq hst hupq)) rfl
    · have hgrant := takeGrant_operations (s := s0) (headOf_eq hst hupq)
      rw [guaranteeAfter_eq (s := s0) hg, runAfterService_eq (s := s0) hr] at hgrant
      exact starts hpick hgrant rfl
    · have hgrant := takeGrant_crew (s := s0) (headOf_eq hst hupq)
      rw [guaranteeAfter_eq (s := s0) hg, runAfterService_eq (s := s0) hr] at hgrant
      exact starts hpick hgrant rfl
    · have hgrant := takeGrant_onboard (s := s0) honboard
      rw [guaranteeAfter_eq (s := s0) hg, runAfterService_eq (s := s0) hr] at hgrant
      exact starts hpick hgrant rfl
  case service =>
    intro s operations crew credit surplus noPassenger noService hfirst
    have hno : GuaranteeFirst s → pickCredit s = none ∧ pickSurplus s = none := fun h =>
      ⟨pickCredit_none fun j => (hfirst h j).1, pickSurplus_none fun j => (hfirst h j).2⟩
    refine ⟨fun k hk => localPick_service hno ?_, fun k hnone hk => localPick_service hno ?_,
      fun hnone honboard => localPick_service hno ?_, fun ⟨hnone, honboard⟩ hpassengers => localPick_none ?_ ?_⟩
    · rw [pickOperations_some hk, Option.some_or]
    · rw [pickOperations_none hnone, pickCrew_some hk, Option.none_or, Option.some_or]
    · rw [pickOperations_none fun j => (hnone j).1, pickCrew_none fun j => (hnone j).2,
        (pickOnboard_some s).mpr honboard, Option.none_or, Option.none_or]
    · rw [pickOperations_none fun j => (hnone j).1, pickCrew_none fun j => (hnone j).2,
        (pickOnboard_none s).mpr honboard, Option.none_or, Option.none_or]
    · rw [pickCredit_none fun j => (hpassengers j).1, pickSurplus_none fun j => (hpassengers j).2, Option.none_or]
  case passengers =>
    intro s credit surplus hfirst
    have hturn : GuaranteeFirst s ∨ (pickOperations s).or ((pickCrew s).or (pickOnboard s)) = none :=
      hfirst.imp_right fun ⟨hservice, honboard⟩ => by
        rw [pickOperations_none fun j ⟨st, hst, ha, hq, hf, hc⟩ => hservice j ⟨st, hst, ha, hq, hf, .inl hc⟩,
          pickCrew_none fun j ⟨st, hst, ha, hq, hf, hc⟩ => hservice j ⟨st, hst, ha, hq, hf, .inr hc⟩,
          (pickOnboard_none s).mpr honboard, Option.none_or, Option.none_or]
    refine ⟨fun k hrun => localPick_passengers ?_ hturn, fun k hno hk => localPick_passengers ?_ hturn,
      fun k hno hk => localPick_passengers ?_ hturn⟩
    · rw [pickCredit_run hrun, Option.some_or]
    · rw [pickCredit_some hno hk, Option.some_or]
    · rw [pickCredit_none hno, pickSurplus_some hk, Option.none_or]
  case transit =>
    intro x fs s id rest hreach htransit s0 left release granted
    refine ⟨fun hlead hnone => ?_, fun hlead hsome hturn => ?_, fun hlead => ?_⟩
    · have h := chooseLast_transit (s := s0) hlead htransit (.inl hnone)
      rw [hnone] at h
      exact starts_last hreach h
    · have h := chooseLast_transit (s := s0) hlead htransit (.inr ((transitChosen_iff ..).mpr hturn))
      rw [Option.isSome_iff_ne_none.mpr hsome] at h
      exact starts_last hreach h
    · exact starts_last hreach (chooseLast_alone (s := s0) hlead htransit)
  case nothing =>
    exact fun x fs s hreach htransit hlocal => rests_last hreach (chooseLast_none (s := withFaults fs s) htransit hlocal)

end Sys2Proof.Proofs
end

section
/-! SUPPORT. The withdrawal of a frame whose start has failed (R29): what leaves each queue, what it counts, and how the
references of the frame fall. -/

namespace Sys2Proof.Laws

open Sys2Proof Sys2Proof.Machine Sys2Proof.Safety

/-! ## References that fall -/

/-- `n` references of the stored frame `id` have been dropped: it is there with the rest, or is gone with the last one. -/
structure RefsFallen (id n : Nat) (s t : State) : Prop where
  left : ∀ g m, s.hub.cells.frame? id = some g → g.refs = n + m → 0 < m →
    t.hub.cells.frame? id = some { g with refs := m }
  gone : ∀ g, s.hub.cells.frame? id = some g → 0 < n → g.refs = n → s.hub.mgmt.reportAddr = none →
    t.hub.cells.frame? id = none
  absent : s.hub.cells.frame? id = none → t.hub.cells.frame? id = none
  addr : t.hub.mgmt.reportAddr = s.hub.mgmt.reportAddr

section
variable {id n m : Nat} {s t u : State}

theorem refsFallen_same (hcells : t.hub.cells = s.hub.cells) (haddr : t.hub.mgmt.reportAddr = s.hub.mgmt.reportAddr) :
    RefsFallen id 0 s t := by
  refine ⟨fun g m hg hr hm => ?_, fun g hg hpos => absurd hpos (Nat.lt_irrefl 0), fun h => by rw [hcells, h], haddr⟩
  rw [hcells, hg, show m = g.refs by omega]

theorem RefsFallen.trans (h : RefsFallen id n s t) (g : RefsFallen id m t u) : RefsFallen id (n + m) s u := by
  refine ⟨fun f k hf hr hk => ?_, fun f hf hpos hr haddr => ?_, fun hn => g.absent (h.absent hn), g.addr.trans h.addr⟩
  · exact g.left { f with refs := m + k } k (h.left f (m + k) hf (by omega) (by omega)) rfl hk
  · rcases Nat.eq_zero_or_pos m with hm | hm
    · exact g.absent (h.gone f hf (by omega) (by omega) haddr)
    · exact g.gone { f with refs := m } (h.left f m hf hr hm) hm rfl (h.addr.trans haddr)

theorem discardEntry_refs (r : Discard) (b : Option Port) (id : Nat) (s : State) :
    RefsFallen id 1 s (discardEntry r b id s) := by
  obtain ⟨hnone, hsome⟩ : RefDropped id s (discardEntry r b id s) :=
    dropRef_dropped id (s := { s with hub := s.hub.tally r }) rfl
  refine ⟨fun g m hg hr hm => ?_, fun g hg _ hr haddr => ?_, fun hn => by rw [hnone hn, hn],
    (discardEntry_quietHub r b id s).reportAddr⟩
  · obtain ⟨hframe, -⟩ := (hsome g hg).1 (by omega)
    rw [hframe, show g.refs - 1 = m by omega]
  · obtain ⟨⟨new, hframes, -, hnew⟩, -⟩ := (hsome g hg).2 (by omega)
    rw [CellMemory.frame?, hframes, hnew haddr, List.append_nil]
    exact List.find?_eq_none.mpr fun x hx => by simpa using (List.mem_filter.mp hx).2

end

/-! ## Entries discarded -/

/-- From `s` to `t` `n` entries of the frame `id` have been discarded (MEMORY), `d q` of them bound for the port `q`. -/
structure Discards (id n : Nat) (d : Port → Nat) (s t : State) : Prop where
  counts : Counts s t (countAt .memory n) d
  refs : RefsFallen id n s t
  kept : Kept s t
  held : t.table.held = s.table.held
  units : ∀ q, withoutCounters (t.ports.unitOf q) = withoutCounters (s.ports.unitOf q)
  slots : t.hub.mgmt.slots = s.hub.mgmt.slots

/-- Every record stands as it was but for its drops. -/
def ApartFromDrops (s t : State) : Prop := ∀ j, ∃ n, t.station? j = (s.station? j).map (moreDrops n)

theorem SameQueues.units {a b : Ports} (h : SameQueues a b) (p : Port) :
    withoutCounters (b.unitOf p) = withoutCounters (a.unitOf p) := by
  cases p with
  | seat n => exact congrArg SeatPort.unit (h.seats n)
  | radio w => exact congrArg RadioLink.unit (h.radios w)
  | backbone x => exact congrArg BackboneEnd.unit (h.ends x)

section
variable {id n m : Nat} {d e : Port → Nat} {s t u : State}

theorem Discards.trans (h : Discards id n d s t) (g : Discards id m e t u) :
    Discards id (n + m) (fun q => d q + e q) s u :=
  ⟨(h.counts.trans g.counts).congr (fun r => countAt_add .memory r n m) (fun _ => rfl), h.refs.trans g.refs,
    h.kept.trans g.kept, g.held.trans h.held, fun q => (g.units q).trans (h.units q), g.slots.trans h.slots⟩

theorem Discards.congr (h : Discards id n d s t) (hn : n = m) (hd : ∀ q, d q = e q) : Discards id m e s t :=
  ⟨hn ▸ h.counts.congr (fun _ => rfl) hd, hn ▸ h.refs, h.kept, h.held, h.units, h.slots⟩

/-- A change that discards nothing: of queues, and of the records' queues. -/
theorem discards_none (hcells : t.hub.cells = s.hub.cells)
    (hmgmt : ∃ input, t.hub.mgmt = { s.hub.mgmt with input := input }) (hkept : Kept s t)
    (hheld : t.table.held = s.table.held) (hunits : ∀ q, t.ports.unitOf q = s.ports.unitOf q) :
    Discards id 0 (fun _ => 0) s t := by
  obtain ⟨input, hm⟩ := hmgmt
  refine ⟨(Counts.none (fun r => ?_) fun q => by rw [hunits]).congr (fun r => (countAt_zero _ r).symm) (fun _ => rfl),
    refsFallen_same hcells (by rw [hm]), hkept, hheld, fun q => by rw [hunits], by rw [hm]⟩
  rw [Hub.tallyOf, hm]
  rfl

theorem discardEntry_discards (b : Option Port) (id : Nat) (s : State) :
    Discards id 1 (fun q => if b = some q then 1 else 0) s (discardEntry .memory b id s) :=
  ⟨discardEntry_counts .memory b id s, discardEntry_refs .memory b id s, discardEntry_kept .memory b id s,
    modStation?_held _ _ _, (discardEntry_sameQueues .memory b id s).units,
    (discardEntry_quietHub .memory b id s).slots⟩

theorem discardEntries_discards (b : Option Port) {ids : List Nat} (s : State) (hids : ∀ j ∈ ids, j = id) :
    Discards id ids.length (fun q => if b = some q then ids.length else 0) s (discardEntries .memory b ids s) := by
  induction ids generalizing s with
  | nil => exact (discards_none rfl ⟨_, rfl⟩ (.refl s) rfl fun _ => rfl).congr rfl fun q => (ite_self 0).symm
  | cons j ids ih =>
    obtain rfl := hids j List.mem_cons_self
    rw [discardEntries_cons]
    refine ((discardEntry_discards b j s).trans (ih _ fun i hi => hids i (List.mem_cons_of_mem _ hi))).congr
      (Nat.add_comm ..) fun q => ?_
    split
    case isTrue => exact Nat.add_comm ..
    case isFalse => rfl

theorem apart_refl (s : State) : ApartFromDrops s s := fun j => ⟨0, by rw [moreDrops_zero]; exact Option.map_id'.symm⟩

theorem apart_trans (h : ApartFromDrops s t) (g : ApartFromDrops t u) : ApartFromDrops s u := fun j => by
  obtain ⟨n, hn⟩ := h j
  obtain ⟨m, hm⟩ := g j
  refine ⟨n + m, ?_⟩
  rw [hm, hn]
  cases s.station? j with
  | none => rfl
  | some st => exact congrArg some (moreDrops_add n m st)

end

/-! ## The queue of one port -/

theorem count_eq_filter_length (id : Nat) (l : List Nat) : (l.filter (fun j => decide (j = id))).length = l.count id := by
  rw [List.count, List.countP_eq_length_filter]
  rfl

theorem all_of_filter (id : Nat) (l : List Nat) : ∀ j ∈ l.filter (fun j => decide (j = id)), j = id :=
  fun _ hj => of_decide_eq_true (List.mem_filter.mp hj).2

theorem count_filter_ne (id : Nat) (l : List Nat) : (l.filter (fun j => decide (j ≠ id))).count id = 0 :=
  List.count_eq_zero.mpr fun h => by simpa using (List.mem_filter.mp h).2

/-- The withdrawal of a frame from the queue of a port (R29). -/
def withdrawAt (id : Nat) (p : Port) (s : State) : State :=
  match p with
  | .seat n => withdrawSeat id n s
  | .radio w => withdrawRadio id w s
  | .backbone x => withdrawTransit id x s

theorem withdraw_eq (id : Nat) (s : State) : withdraw id s =
    withdrawInput id (withdrawUpward id (allPorts.foldl (fun s p => withdrawAt id p s) s)) := by
  simp only [withdraw, allPorts, List.foldl_append, List.foldl_map, List.foldl_cons, List.foldl_nil, withdrawAt]

/-- The ports with the frame out of the queue of one of them, its hold state aside. -/
def Ports.without (id : Nat) (p : Port) (ps : Ports) : Ports :=
  match p with
  | .seat n => ps.modSeat n (fun q => { q with egress := q.egress.filter (fun j => decide (j ≠ id)) })
  | .radio w => ps.modRadio w (fun q => { q with egress := q.egress.filter (fun e => decide (e.id ≠ id)) })
  | .backbone x => ps.modEnd x (fun e => { e with transit := e.transit.filter (fun j => decide (j ≠ id)) })

/-- The entries of a port, by their frames. -/
def entriesOn (s : State) : Port → List Nat
  | .seat n => (s.ports.seats[n]).egress
  | .radio w => (s.ports.radios[w]).egress.map (·.id)
  | .backbone x => (s.ports.endOf x).transit

theorem entriesAt_eq (s : State) (id : Nat) (p : Port) : entriesAt s id p = (entriesOn s p).count id := by
  cases p <;> rfl

theorem without_unit (id : Nat) (p : Port) (ps : Ports) (q : Port) : (Ports.without id p ps).unitOf q = ps.unitOf q := by
  cases p with
  | seat n => exact modSeat_unit ps n (by intro _; rfl) q
  | radio w => exact modRadio_unit ps w (by intro _; rfl) q
  | backbone x => exact modEnd_unit ps x (by intro _; rfl) q

/-- The entries of the frame in one queue are discarded. -/
def withdrawnAt (id : Nat) (p : Port) (s : State) : State :=
  discardEntries .memory (some p) ((entriesOn s p).filter (fun j => decide (j = id)))
    (onPorts (Ports.without id p) s)

theorem withdrawAt_eq (id : Nat) (p : Port) (s : State) : withdrawAt id p s =
    match p with
    | .backbone x =>
      if id ∈ (s.ports.endOf x).transit then afterFall x (withdrawnAt id p s) else withdrawnAt id p s
    | _ => withdrawnAt id p s := by
  cases p with
  | seat n => rfl
  | radio w => rfl
  | backbone x =>
    have hmine : ((s.ports.endOf x).transit.filter (fun j => decide (j = id))).isEmpty = true ↔
        ¬ id ∈ (s.ports.endOf x).transit := by
      rw [List.isEmpty_iff, List.filter_eq_nil_iff]
      exact ⟨fun h hid => h id hid (decide_eq_true rfl), fun h j hj he => h (of_decide_eq_true he ▸ hj)⟩
    have hports : s.ports.modEnd x (fun e => { e with
          transit := (s.ports.endOf x).transit.filter (fun j => decide (j ≠ id)) }) =
        Ports.without id (.backbone x) s.ports := by cases x <;> rfl
    show withdrawTransit id x s = _
    unfold withdrawTransit
    simp only [onPorts, hports]
    by_cases hid : id ∈ (s.ports.endOf x).transit
    · rw [if_pos hid, if_neg (fun h => hmine.mp h hid)]
      rfl
    · rw [if_neg hid, if_pos (hmine.mpr hid)]
      rfl

end Sys2Proof.Laws
end

section
/-! SUPPORT. The withdrawal of a frame from the queues of all ports, from the onboard queue and a record's upward queue,
and from the input queue (R14, R29, R142). -/

namespace Sys2Proof.Laws

open Sys2Proof Sys2Proof.Machine Sys2Proof.Safety

/-! ## The queues of the ports -/

/-- The hold state out of an end (R14). -/
def holdState (e : BackboneEnd) : Option Nat × Bool × Option Nat := (e.pendingHold, e.outstanding, e.repeatAt)

/-- The hold state out of an end once the frame `id` is out of the transit queue that it feeds (R14). -/
def holdAfter (id : Nat) (s : State) (x : End) : Option Nat × Bool × Option Nat :=
  if id ∈ (s.ports.endOf x.other).transit ∧ (s.ports.endOf x).outstanding = true ∧
      ((s.ports.endOf x.other).transit.filter (fun j => decide (j ≠ id))).length < 64 then (some 0, false, none)
  else holdState (s.ports.endOf x)

/-- From `s` to `t` the frame `id` has left the queues of the ports in `L`, and what else stands in the queues stays. -/
structure QueuesLeft (id : Nat) (L : List Port) (s t : State) : Prop where
  seat : ∀ n : Fin 32, (t.ports.seats[n]).egress = if .seat n ∈ L
    then (s.ports.seats[n]).egress.filter (fun j => decide (j ≠ id)) else (s.ports.seats[n]).egress
  radio : ∀ w : Fin 4, (t.ports.radios[w]).egress = if .radio w ∈ L
    then (s.ports.radios[w]).egress.filter (fun e => decide (e.id ≠ id)) else (s.ports.radios[w]).egress
  orders : ∀ w : Fin 4, (t.ports.radios[w]).orders = (s.ports.radios[w]).orders
  transit : ∀ x, (t.ports.endOf x).transit = if .backbone x ∈ L
    then (s.ports.endOf x).transit.filter (fun j => decide (j ≠ id)) else (s.ports.endOf x).transit
  hold : ∀ x, holdState (t.ports.endOf x) = if .backbone x.other ∈ L then holdAfter id s x else holdState (s.ports.endOf x)

section
variable {id : Nat} {p q : Port} {L : List Port} {s t u : State}

theorem holdState_quiet {a b : BackboneEnd} (h : quietEnd b = quietEnd a) : holdState b = holdState a := by
  have hquiet : holdState (quietEnd b) = holdState (quietEnd a) := congrArg holdState h
  exact hquiet

theorem queuesLeft_quiet (hq : SameQueues s.ports t.ports) : QueuesLeft id [] s t := by
  refine ⟨fun n => ?_, fun w => ?_, hq.orders, fun x => ?_, fun x => ?_⟩ <;> rw [if_neg List.not_mem_nil]
  · exact hq.seat n
  · exact hq.radio w
  · exact hq.transit x
  · exact holdState_quiet (hq.ends x)

/-- First the queue of `p`, then those of other ports. -/
theorem QueuesLeft.cons (hnot : p ∉ L) (h : QueuesLeft id [p] s u) (g : QueuesLeft id L u t) :
    QueuesLeft id (p :: L) s t := by
  refine ⟨fun n => ?_, fun w => ?_, fun w => (g.orders w).trans (h.orders w), fun x => ?_, fun x => ?_⟩
  · rw [g.seat n, h.seat n]
    by_cases hp : .seat n = p
    · subst hp
      simp [hnot]
    · simp [hp]
  · rw [g.radio w, h.radio w]
    by_cases hp : .radio w = p
    · subst hp
      simp [hnot]
    · simp [hp]
  · rw [g.transit x, h.transit x]
    by_cases hp : .backbone x = p
    · subst hp
      simp [hnot]
    · simp [hp]
  · have hx := h.hold x
    rw [g.hold x]
    by_cases hp : .backbone x.other = p
    · subst hp
      rw [if_neg hnot, hx, if_pos List.mem_cons_self, if_pos List.mem_cons_self]
    · have htransit := h.transit x.other
      rw [if_neg (by simpa using hp)] at hx htransit
      have hafter : holdAfter id u x = holdAfter id s x := by
        have hout : (u.ports.endOf x).outstanding = (s.ports.endOf x).outstanding := congrArg (fun h => h.2.1) hx
        rw [holdAfter, holdAfter, htransit, hout, hx]
      rw [hafter, hx]
      simp [hp]

theorem without_left (id : Nat) (p : Port) (s : State) (x : End) (hp : p ≠ .backbone x.other) :
    holdState ((Ports.without id p s.ports).endOf x) = holdState (s.ports.endOf x) := by
  cases p with
  | seat n => rw [Ports.without, modSeat_endOf]
  | radio w => rw [Ports.without, modRadio_endOf]
  | backbone y =>
    rw [Ports.without, modEnd_end]
    split
    case isTrue h => rw [h]; rfl
    case isFalse => rfl

/-- The hold state after a fall of the transit queue toward an end (R14). -/
theorem afterFall_holdState (y x : End) (s : State) : holdState ((afterFall y s).ports.endOf x) =
    if x = y.other ∧ (s.ports.endOf y).transit.length < 64 ∧ (s.ports.endOf x).outstanding = true then (some 0, false, none)
    else holdState (s.ports.endOf x) := by
  unfold afterFall
  dsimp only
  by_cases hc : (s.ports.endOf y).transit.length < 64 ∧ (s.ports.endOf y.other).outstanding = true
  · rw [if_pos hc, modEnd_end]
    by_cases hx : y.other = x
    · subst hx
      rw [if_pos rfl, if_pos ⟨rfl, hc⟩]
      rfl
    · rw [if_neg hx, if_neg fun h => hx h.1.symm]
  · rw [if_neg hc, if_neg]
    rintro ⟨rfl, hfall, hout⟩
    exact hc ⟨hfall, hout⟩

theorem afterFall_transit (y x : End) (s : State) :
    ((afterFall y s).ports.endOf x).transit = (s.ports.endOf x).transit := by
  unfold afterFall
  dsimp only
  split
  case isTrue =>
    rw [modEnd_end]
    split
    case isTrue h => rw [h]
    case isFalse => rfl
  case isFalse => rfl

theorem other_eq_iff {x y : End} : x.other = y ↔ x = y.other := by cases x <;> cases y <;> decide

/-- A discard behind the withdrawal of one queue: the other queues, and the hold state, as they were. -/
theorem withdrawnAt_queues (id : Nat) (p : Port) (s : State) :
    (∀ n : Fin 32, ((withdrawnAt id p s).ports.seats[n]).egress = if .seat n ∈ [p]
      then (s.ports.seats[n]).egress.filter (fun j => decide (j ≠ id)) else (s.ports.seats[n]).egress) ∧
    (∀ w : Fin 4, ((withdrawnAt id p s).ports.radios[w]).egress = if .radio w ∈ [p]
      then (s.ports.radios[w]).egress.filter (fun e => decide (e.id ≠ id)) else (s.ports.radios[w]).egress) ∧
    (∀ w : Fin 4, ((withdrawnAt id p s).ports.radios[w]).orders = (s.ports.radios[w]).orders) ∧
    (∀ x, ((withdrawnAt id p s).ports.endOf x).transit = if .backbone x ∈ [p]
      then (s.ports.endOf x).transit.filter (fun j => decide (j ≠ id)) else (s.ports.endOf x).transit) ∧
    ∀ x, holdState ((withdrawnAt id p s).ports.endOf x) = holdState (s.ports.endOf x) := by
  have hq : SameQueues (Ports.without id p s.ports) (withdrawnAt id p s).ports :=
    discardEntries_sameQueues .memory (some p) _ (onPorts (Ports.without id p) s)
  refine ⟨fun n => (hq.seat n).trans ?_, fun w => (hq.radio w).trans ?_, fun w => (hq.orders w).trans ?_,
    fun x => (hq.transit x).trans ?_, fun x => (holdState_quiet (hq.ends x)).trans ?_⟩
  · cases p with
    | seat m =>
      rw [Ports.without, modSeat_seat]
      by_cases h : m = n
      · subst h
        rw [if_pos rfl, if_pos List.mem_cons_self]
      · rw [if_neg h, if_neg (fun hm => h (by simpa using hm : n = m).symm)]
    | radio w => exact (if_neg (by simp)).symm
    | backbone x => rw [Ports.without, modEnd_seats, if_neg (by simp)]
  · cases p with
    | seat m => exact (if_neg (by simp)).symm
    | radio v =>
      rw [Ports.without, modRadio_radio]
      by_cases h : v = w
      · subst h
        rw [if_pos rfl, if_pos List.mem_cons_self]
      · rw [if_neg h, if_neg (fun hm => h (by simpa using hm : w = v).symm)]
    | backbone x => rw [Ports.without, modEnd_radios, if_neg (by simp)]
  · cases p with
    | seat m => rfl
    | radio v =>
      rw [Ports.without, modRadio_radio]
      split
      case isTrue h => rw [h]
      case isFalse => rfl
    | backbone x => rw [Ports.without, modEnd_radios]
  · cases p with
    | seat m => rw [Ports.without, modSeat_endOf, if_neg (by simp)]
    | radio v => rw [Ports.without, modRadio_endOf, if_neg (by simp)]
    | backbone y =>
      rw [Ports.without, modEnd_end]
      by_cases h : y = x
      · subst h
        rw [if_pos rfl, if_pos List.mem_cons_self]
      · rw [if_neg h, if_neg (fun hm => h (by simpa using hm : x = y).symm)]
  · cases p with
    | seat m => rw [Ports.without, modSeat_endOf]
    | radio v => rw [Ports.without, modRadio_endOf]
    | backbone y =>
      rw [Ports.without, modEnd_end]
      split
      case isTrue h => rw [h]; rfl
      case isFalse => rfl

theorem withdrawAt_left (id : Nat) (p : Port) (s : State) : QueuesLeft id [p] s (withdrawAt id p s) := by
  obtain ⟨hseat, hradio, horders, htransit, hhold⟩ := withdrawnAt_queues id p s
  rw [withdrawAt_eq]
  cases p with
  | seat n => exact ⟨hseat, hradio, horders, htransit, fun x => by rw [hhold x, if_neg (by simp)]⟩
  | radio w => exact ⟨hseat, hradio, horders, htransit, fun x => by rw [hhold x, if_neg (by simp)]⟩
  | backbone y =>
    have hy := htransit y
    rw [if_pos List.mem_cons_self] at hy
    by_cases hid : id ∈ (s.ports.endOf y).transit
    · simp only [hid, if_true]
      obtain ⟨hseats, hradios⟩ := afterFall_attachments y (withdrawnAt id (.backbone y) s)
      refine ⟨fun n => by rw [hseats]; exact hseat n, fun w => by rw [hradios]; exact hradio w,
        fun w => by rw [hradios]; exact horders w, fun x => (afterFall_transit y x _).trans (htransit x), fun x => ?_⟩
      have hout : ((withdrawnAt id (.backbone y) s).ports.endOf x).outstanding = (s.ports.endOf x).outstanding :=
        congrArg (fun h => h.2.1) (hhold x)
      rw [afterFall_holdState, hy, hout, hhold x]
      by_cases hx : x = y.other
      · subst hx
        simp only [other_other, true_and, List.mem_singleton, if_true, holdAfter, hid]
        exact if_congr and_comm rfl rfl
      · rw [if_neg fun h => hx h.1, if_neg fun h => hx (other_eq_iff.mp (by simpa using h))]
    · simp only [hid, if_false]
      refine ⟨hseat, hradio, horders, htransit, fun x => ?_⟩
      rw [hhold x]
      split
      case isTrue h =>
        obtain rfl : x.other = y := by simpa using h
        exact (if_neg fun h => hid h.1).symm
      case isFalse => rfl

/-! ## What the withdrawal of one queue counts -/

theorem withdrawAt_discards (id : Nat) (p : Port) (s : State) :
    Discards id (entriesAt s id p) (countAt p (entriesAt s id p)) s (withdrawAt id p s) := by
  have hwithdrawn : Discards id (entriesAt s id p) (countAt p (entriesAt s id p)) s (withdrawnAt id p s) := by
    have hports : Discards id 0 (fun _ => 0) s (onPorts (Ports.without id p) s) :=
      discards_none rfl ⟨_, rfl⟩ (onPorts_kept _ s) rfl (without_unit id p s.ports)
    refine (hports.trans (discardEntries_discards (some p) _ (all_of_filter id (entriesOn s p)))).congr ?_ fun q => ?_
    · rw [count_eq_filter_length, Nat.zero_add, entriesAt_eq]
    · rw [count_eq_filter_length, Nat.zero_add, entriesAt_eq, countAt]
      exact if_congr ⟨fun h => (Option.some.inj h).symm, fun h => congrArg some h.symm⟩ rfl rfl
  have hfalls : ∀ x, Discards id (entriesAt s id p) (countAt p (entriesAt s id p)) s (afterFall x (withdrawnAt id p s)) :=
    fun x => (hwithdrawn.trans (discards_none (t := afterFall x (withdrawnAt id p s)) rfl ⟨_, rfl⟩
      ⟨rfl, rfl, rfl, rfl, rfl, rfl, rfl⟩ rfl (afterFall_unit x (withdrawnAt id p s)))).congr rfl fun _ => rfl
  rw [withdrawAt_eq]
  cases p with
  | seat n => exact hwithdrawn
  | radio w => exact hwithdrawn
  | backbone x =>
    dsimp only
    split
    case isTrue => exact hfalls x
    case isFalse => exact hwithdrawn

/-- Of the queues apart from those of the ports, and of the records but their drops, nothing changes. -/
structure PortsOnly (s t : State) : Prop where
  up : t.up = s.up
  input : t.hub.mgmt.input = s.hub.mgmt.input
  apart : ApartFromDrops s t

theorem portsOnly_refl (s : State) : PortsOnly s s := ⟨rfl, rfl, apart_refl s⟩

theorem portsOnly_trans (h : PortsOnly s t) (g : PortsOnly t u) : PortsOnly s u :=
  ⟨g.up.trans h.up, g.input.trans h.input, apart_trans h.apart g.apart⟩

theorem discardEntries_input (r : Discard) (b : Option Port) (ids : List Nat) (s : State) :
    (discardEntries r b ids s).hub.mgmt.input = s.hub.mgmt.input := by
  induction ids generalizing s with
  | nil => rfl
  | cons id ids ih => exact (ih _).trans (discardEntry_quietHub r b id s).input

theorem discardEntries_portsOnly (r : Discard) (b : Option Port) (ids : List Nat) (s : State) :
    PortsOnly s (discardEntries r b ids s) :=
  ⟨discardEntries_up r b ids s, discardEntries_input r b ids s, discardEntries_apart r b ids s⟩

theorem withdrawAt_only (id : Nat) (p : Port) (s : State) : PortsOnly s (withdrawAt id p s) := by
  have hports : PortsOnly s (onPorts (Ports.without id p) s) := ⟨rfl, rfl, apart_refl s⟩
  have hwithdrawn : PortsOnly s (withdrawnAt id p s) := portsOnly_trans hports (discardEntries_portsOnly ..)
  rw [withdrawAt_eq]
  cases p with
  | seat n => exact hwithdrawn
  | radio w => exact hwithdrawn
  | backbone x =>
    dsimp only
    split
    case isTrue => exact portsOnly_trans hwithdrawn ⟨rfl, rfl, apart_refl _⟩
    case isFalse => exact hwithdrawn

/-! ## All ports -/

theorem QueuesLeft.entries (h : QueuesLeft id L s t) (hq : q ∉ L) : entriesAt t id q = entriesAt s id q := by
  cases q with
  | seat n =>
    have := h.seat n
    rw [if_neg hq] at this
    exact congrArg (List.count id) this
  | radio w =>
    have := h.radio w
    rw [if_neg hq] at this
    exact congrArg (fun l : List RadioEntry => (l.map (·.id)).count id) this
  | backbone x =>
    have := h.transit x
    rw [if_neg hq] at this
    exact congrArg (List.count id) this

theorem withdrawAll (id : Nat) (L : List Port) (s : State) (hn : L.Nodup) :
    let t := L.foldl (fun s p => withdrawAt id p s) s
    QueuesLeft id L s t ∧ Discards id (L.map (entriesAt s id)).sum (fun q => if q ∈ L then entriesAt s id q else 0) s t ∧
      PortsOnly s t := by
  induction L generalizing s with
  | nil =>
    exact ⟨queuesLeft_quiet (.refl _), (discards_none rfl ⟨_, rfl⟩ (.refl s) rfl fun _ => rfl).congr rfl
      fun q => (if_neg List.not_mem_nil).symm, portsOnly_refl s⟩
  | cons p L ih =>
    obtain ⟨hnot, hn'⟩ := List.nodup_cons.mp hn
    obtain ⟨hleft, hdiscards, honly⟩ := ih (withdrawAt id p s) hn'
    have hone := withdrawAt_left id p s
    have hentries : ∀ q ∈ L, entriesAt (withdrawAt id p s) id q = entriesAt s id q :=
      fun q hq => hone.entries fun hp => hnot (by rwa [← List.mem_singleton.mp hp])
    refine ⟨hone.cons hnot hleft, ((withdrawAt_discards id p s).trans hdiscards).congr ?_ fun q => ?_,
      portsOnly_trans (withdrawAt_only id p s) honly⟩
    · rw [List.map_cons, List.sum_cons, List.map_congr_left hentries]
    · by_cases hq : q = p
      · subst hq
        rw [countAt_self, if_neg hnot, if_pos List.mem_cons_self, Nat.add_zero]
      · rw [countAt_ne _ hq, Nat.zero_add]
        by_cases hL : q ∈ L
        · rw [if_pos hL, if_pos (List.mem_cons_of_mem _ hL), hentries q hL]
        · rw [if_neg hL, if_neg (by simp [hq, hL])]

theorem allPorts_nodup : allPorts.Nodup := by
  refine List.nodup_append.mpr ⟨List.nodup_append.mpr ⟨(List.nodup_finRange 32).map fun _ _ => Port.seat.inj,
    (List.nodup_finRange 4).map fun _ _ => Port.radio.inj, fun a ha b hb e => ?_⟩, by decide, fun a ha b hb e => ?_⟩
  · obtain ⟨n, -, rfl⟩ := List.mem_map.mp ha
    obtain ⟨w, -, rfl⟩ := List.mem_map.mp hb
    cases e
  · subst e
    rcases List.mem_append.mp ha with h | h
    · obtain ⟨n, -, rfl⟩ := List.mem_map.mp h
      simp at hb
    · obtain ⟨w, -, rfl⟩ := List.mem_map.mp h
      simp at hb

end

end Sys2Proof.Laws
end

section
/-! SUPPORT. The withdrawal of a frame from the onboard queue, a record's upward queue and the input queue (R29, R142),
and the whole of a failed start. -/

namespace Sys2Proof.Laws

open Sys2Proof Sys2Proof.Machine Sys2Proof.Safety

/-! ## The upward queues -/

/-- A queue of frames without `id`. -/
def without (id : Nat) (l : List Nat) : List Nat := l.filter (fun j => decide (j ≠ id))

/-- The record that the frame `id` names, with its slot, if it is there. -/
def ownerOf (id : Nat) (s : State) : Option (Fin 256 × Station) :=
  (s.hub.cells.owner id).bind (fun k => (s.station? k).map (fun st => (k, st)))

/-- The entries of the frame in the upward queue of the record that it names. -/
def upwardEntries (id : Nat) (s : State) : List Nat :=
  ((ownerOf id s).elim [] (fun r => r.2.upq)).filter (fun j => decide (j = id))

/-- The part with the frame out of the onboard queue and out of the upward queue of the record that it names, whose run
ends where this empties its queue (R142, R144). -/
def upwardLeft (id : Nat) (s : State) : State :=
  { s with
    up := { s.up with
      onboard := without id s.up.onboard
      run := (ownerOf id s).elim s.up.run (fun r => runOnQueue r.1 (without id r.2.upq) s.up.run) }
    table := s.table.modStation? (s.hub.cells.owner id) (fun st => { st with upq := without id st.upq }) }

section
variable {id : Nat} {s t u : State} {k : Fin 256} {st : Station}

theorem withdrawUpward_eq (id : Nat) (s : State) : withdrawUpward id s = discardEntries .memory none
    (s.up.onboard.filter (fun j => decide (j = id)) ++ upwardEntries id s) (upwardLeft id s) := by
  unfold withdrawUpward upwardEntries upwardLeft ownerOf
  cases howner : s.hub.cells.owner id with
  | none => rfl
  | some k => cases hst : s.station? k <;> simp only [Option.bind_some, hst, Option.map_none, Option.map_some] <;> rfl

theorem modStation_absent {t : StationTable} {k : Fin 256} (h : t.station? k = none) (g : Station → Station)
    (j : Fin 256) : (t.modStation k g).station? j = t.station? j := by
  by_cases hj : j = k
  · subst hj
    rw [station?_modStation_self, h, Option.map_none]
  · exact station?_modStation_ne t g hj

theorem upwardLeft_absent (h : ownerOf id s = none) :
    (∀ j, (upwardLeft id s).station? j = s.station? j) ∧ (upwardLeft id s).up.run = s.up.run := by
  refine ⟨fun j => ?_, by simp only [upwardLeft, h, Option.elim]⟩
  unfold ownerOf at h
  show (s.table.modStation? (s.hub.cells.owner id) _).station? j = _
  cases howner : s.hub.cells.owner id with
  | none => rfl
  | some k =>
    rw [howner] at h
    exact modStation_absent (Option.map_eq_none_iff.mp h) _ j

theorem upwardLeft_present (h : ownerOf id s = some (k, st)) : s.station? k = some st ∧
    (upwardLeft id s).station? k = some { st with upq := without id st.upq } ∧
    (∀ j, j ≠ k → (upwardLeft id s).station? j = s.station? j) ∧
    (upwardLeft id s).up.run = runOnQueue k (without id st.upq) s.up.run := by
  have hrun : (upwardLeft id s).up.run = runOnQueue k (without id st.upq) s.up.run := by
    simp only [upwardLeft, h, Option.elim]
  unfold ownerOf at h
  obtain ⟨j, howner, hj⟩ := Option.bind_eq_some_iff.mp h
  obtain ⟨st', hst, he⟩ := Option.map_eq_some_iff.mp hj
  cases he
  have htable : (upwardLeft id s).table = s.table.modStation k (fun st => { st with upq := without id st.upq }) := by
    simp only [upwardLeft, howner, StationTable.modStation?]
  refine ⟨hst, ?_, fun i hi => ?_, hrun⟩
  · rw [State.station?, htable]
    exact modStation_own hst _
  · rw [State.station?, htable]
    exact station?_modStation_ne s.table _ hi

/-- Every record stands as it was but for its drops and its upward queue, which has lost the frame or nothing. -/
structure UpqLeft (id : Nat) (s t : State) : Prop where
  absent : ∀ j, s.station? j = none → t.station? j = none
  present : ∀ j st, s.station? j = some st → ∃ st', t.station? j = some st' ∧
    apartFromDrops { st' with upq := st.upq } = apartFromDrops st ∧
    (st'.upq = st.upq ∨ st'.upq = without id st.upq)

/-- The run behind the withdrawal (R142): it ends where its holder's queue has emptied, and not else. -/
structure RunLeft (s t : State) : Prop where
  none : s.up.run = none → t.up.run = none
  some : ∀ r st st', s.up.run = some r → s.station? r.holder = some st → t.station? r.holder = some st' →
    (st'.upq = [] → st.upq ≠ [] → t.up.run = Option.none) ∧ (st'.upq ≠ [] → t.up.run = Option.some r)

theorem upwardLeft_upq (id : Nat) (s : State) : UpqLeft id s (upwardLeft id s) := by
  cases h : ownerOf id s with
  | none =>
    obtain ⟨hsame, -⟩ := upwardLeft_absent h
    exact ⟨fun j hj => (hsame j).trans hj, fun j st hj => ⟨st, (hsame j).trans hj, rfl, .inl rfl⟩⟩
  | some r =>
    obtain ⟨k, st⟩ := r
    obtain ⟨hst, hown, hothers, -⟩ := upwardLeft_present h
    refine ⟨fun j hj => ?_, fun j r hj => ?_⟩
    · refine (hothers j ?_).trans hj
      rintro rfl
      rw [hst] at hj
      cases hj
    · by_cases hjk : j = k
      · subst hjk
        obtain rfl := Option.some.inj (hst.symm.trans hj)
        exact ⟨_, hown, rfl, .inr rfl⟩
      · exact ⟨r, (hothers j hjk).trans hj, rfl, .inl rfl⟩

theorem upwardLeft_run (id : Nat) (s : State) : RunLeft s (upwardLeft id s) := by
  cases h : ownerOf id s with
  | none =>
    obtain ⟨hsame, hrun⟩ := upwardLeft_absent h
    refine ⟨fun hr => hrun.trans hr, fun r st st' hr hst hst' => ?_⟩
    rw [hsame r.holder, hst] at hst'
    obtain rfl := Option.some.inj hst'
    exact ⟨fun he hne => absurd he hne, fun _ => hrun.trans hr⟩
  | some x =>
    obtain ⟨k, st⟩ := x
    obtain ⟨hst, hown, hothers, hrun⟩ := upwardLeft_present h
    refine ⟨fun hr => ?_, fun r st₁ st' hr hst₁ hst' => ?_⟩
    · rw [hrun, hr]
      unfold runOnQueue
      split <;> rfl
    · by_cases hholder : r.holder = k
      · rw [hholder] at hst₁ hst'
        obtain rfl := Option.some.inj (hst.symm.trans hst₁)
        obtain rfl := Option.some.inj (hown.symm.trans hst')
        refine ⟨fun he _ => ?_, fun hne => ?_⟩
        · replace he : without id st.upq = [] := he
          rw [hrun, hr, he, runOnQueue_nil, endRun_eq, Option.map_some, if_pos (congrArg some hholder)]
        · replace hne : without id st.upq ≠ [] := hne
          obtain ⟨i, rest, hq⟩ := List.exists_cons_of_ne_nil hne
          rw [hrun, hr, hq, runOnQueue_cons]
      · have hkeeps : (upwardLeft id s).up.run = Option.some r := by
          rw [hrun, hr]
          unfold runOnQueue
          split
          · rw [endRun_eq, Option.map_some, if_neg (fun e => hholder (Option.some.inj e))]
          · rfl
        rw [hothers r.holder hholder, hst₁] at hst'
        obtain rfl := Option.some.inj hst'
        exact ⟨fun he hne => absurd he hne, fun _ => hkeeps⟩

theorem upqLeft_of_apart (h : ApartFromDrops s t) : UpqLeft id s t := by
  refine ⟨fun j hj => ?_, fun j st hj => ?_⟩
  · obtain ⟨n, hn⟩ := h j
    rw [hn, hj, Option.map_none]
  · obtain ⟨n, hn⟩ := h j
    exact ⟨moreDrops n st, by rw [hn, hj, Option.map_some], rfl, .inl rfl⟩

/-- Drops before and after the withdrawal. -/
theorem UpqLeft.apart {a b : State} (ha : ApartFromDrops s a) (h : UpqLeft id a b) (hb : ApartFromDrops b t) :
    UpqLeft id s t := by
  refine ⟨fun j hj => ?_, fun j st hj => ?_⟩
  · obtain ⟨n, hn⟩ := ha j
    obtain ⟨m, hm⟩ := hb j
    rw [hm, h.absent j (by rw [hn, hj, Option.map_none]), Option.map_none]
  · obtain ⟨n, hn⟩ := ha j
    obtain ⟨m, hm⟩ := hb j
    obtain ⟨st', hst', hapart, hupq⟩ := h.present j (moreDrops n st) (by rw [hn, hj, Option.map_some])
    exact ⟨moreDrops m st', by rw [hm, hst', Option.map_some], hapart, hupq⟩

theorem RunLeft.apart {a b : State} (ha : ApartFromDrops s a) (hup : a.up = s.up) (h : RunLeft a b)
    (hb : ApartFromDrops b t) (hup' : t.up = b.up) (hback : ∀ j st, a.station? j = Option.some st → ∃ r, b.station? j = Option.some r) :
    RunLeft s t := by
  refine ⟨fun hr => ?_, fun r st st' hr hst hst' => ?_⟩
  · rw [hup']
    exact h.none (by rw [hup, hr])
  · obtain ⟨n, hn⟩ := ha r.holder
    obtain ⟨m, hm⟩ := hb r.holder
    rw [hst, Option.map_some] at hn
    obtain ⟨st₂, hst₂⟩ := hback r.holder _ hn
    rw [hst₂, Option.map_some, hst'] at hm
    obtain rfl := Option.some.inj hm
    rw [hup']
    exact h.some r (moreDrops n st) st₂ (by rw [hup, hr]) hn hst₂

/-! ## The counting of these entries -/

theorem withdrawUpward_discards (id : Nat) (s : State) :
    Discards id (s.up.onboard.count id + (upwardEntries id s).length) (fun _ => 0) s (withdrawUpward id s) := by
  have hleft : Discards id 0 (fun _ => 0) s (upwardLeft id s) :=
    discards_none rfl ⟨_, rfl⟩ ⟨rfl, rfl, rfl, rfl, rfl, rfl, rfl⟩ (modStation?_held _ _ _) (fun _ => rfl)
  have hids : ∀ j ∈ s.up.onboard.filter (fun j => decide (j = id)) ++ upwardEntries id s, j = id := fun j hj =>
    (List.mem_append.mp hj).elim (all_of_filter id _ j) (all_of_filter id _ j)
  rw [withdrawUpward_eq]
  refine (hleft.trans (discardEntries_discards none _ hids)).congr ?_ (fun q => rfl)
  rw [Nat.zero_add, List.length_append, count_eq_filter_length]

theorem upwardEntries_none (h : ∀ j st, s.station? j = some st → id ∉ st.upq) : upwardEntries id s = [] := by
  unfold upwardEntries
  cases howner : ownerOf id s with
  | none => rfl
  | some r =>
    obtain ⟨k, st⟩ := r
    obtain ⟨hst, -⟩ := upwardLeft_present howner
    refine List.filter_eq_nil_iff.mpr fun j hj he => h k st hst ?_
    rwa [← of_decide_eq_true he]

/-- The part with the frame out of the input queue. -/
def inputLeft (id : Nat) (s : State) : State :=
  { s with hub := { s.hub with mgmt := { s.hub.mgmt with
      input := s.hub.mgmt.input.filter (fun e => decide (e.id ≠ id)) } } }

theorem withdrawInput_eq (id : Nat) (s : State) : withdrawInput id s = discardEntries .memory none
    ((s.hub.mgmt.input.map (·.id)).filter (fun j => decide (j = id))) (inputLeft id s) := rfl

theorem withdrawInput_discards (id : Nat) (s : State) :
    Discards id ((s.hub.mgmt.input.map (·.id)).count id) (fun _ => 0) s (withdrawInput id s) := by
  have hleft : Discards id 0 (fun _ => 0) s (inputLeft id s) :=
    discards_none rfl ⟨_, rfl⟩ ⟨rfl, rfl, rfl, rfl, rfl, rfl, rfl⟩ rfl (fun _ => rfl)
  rw [withdrawInput_eq]
  refine (hleft.trans (discardEntries_discards none _ (all_of_filter id _))).congr ?_ (fun q => rfl)
  rw [Nat.zero_add, count_eq_filter_length]

end

/-! ## The whole withdrawal -/

/-- A start of `f` on `p` that has failed, the notice aside (R29): its entry is discarded, and the others of the frame. -/
def startFailed (p : Port) (id : Nat) (s : State) : State := withdraw id (discardEntry .memory (some p) id s)

theorem failStart_eq (p : Port) (f : FrameRec) (bad : List Nat) (s : State) : failStart p f bad s =
    raiseNotice (.memoryError (bad.headD 0) bad.length f.kind p) (startFailed p f.id s) := rfl

/-- What a failed start does (R14, R29, R142). -/
structure StartFailed (p : Port) (id : Nat) (s u : State) : Prop where
  queues : QueuesLeft id allPorts s u
  up : u.up = { s.up with onboard := without id s.up.onboard, run := u.up.run }
  run : RunLeft s u
  input : u.hub.mgmt.input = s.hub.mgmt.input.filter (fun e => decide (e.id ≠ id))
  upq : UpqLeft id s u
  discards : ∃ n, Discards id n (fun q => entriesAt s id q + if q = p then 1 else 0) s u ∧
    ((∀ j st, s.station? j = some st → id ∉ st.upq) → n = 1 + entriesOf s id)

/-- Nothing but counters changes in the queues, after the frame has left them. -/
theorem QueuesLeft.quiet {id : Nat} {L : List Port} {s a b t : State} (hs : SameQueues s.ports a.ports)
    (h : QueuesLeft id L a b) (ht : SameQueues b.ports t.ports) : QueuesLeft id L s t := by
  have hhold : ∀ x, holdState (a.ports.endOf x) = holdState (s.ports.endOf x) := fun x => holdState_quiet (hs.ends x)
  refine ⟨fun n => ?_, fun w => ?_, fun w => (ht.orders w).trans ((h.orders w).trans (hs.orders w)), fun x => ?_,
    fun x => ?_⟩
  · rw [ht.seat n, h.seat n, hs.seat n]
  · rw [ht.radio w, h.radio w, hs.radio w]
  · rw [ht.transit x, h.transit x, hs.transit x]
  · have hout : (a.ports.endOf x).outstanding = (s.ports.endOf x).outstanding := congrArg (fun h => h.2.1) (hhold x)
    rw [holdState_quiet (ht.ends x), h.hold x, holdAfter, holdAfter, hs.transit x.other, hout, hhold x]

theorem startFailed_spec (p : Port) (id : Nat) (s : State) : StartFailed p id s (startFailed p id s) := by
  have hentry := discardEntry_discards (some p) id s
  have hentryOnly : PortsOnly s (discardEntry .memory (some p) id s) :=
    discardEntries_portsOnly .memory (some p) [id] s
  have hentryQueues := discardEntry_sameQueues .memory (some p) id s
  obtain ⟨hleft, hports, honly⟩ := withdrawAll id allPorts (discardEntry .memory (some p) id s) allPorts_nodup
  have heq : startFailed p id s = _ := withdraw_eq id (discardEntry .memory (some p) id s)
  have hentries : ∀ q, entriesAt (discardEntry .memory (some p) id s) id q = entriesAt s id q :=
    fun q => (queuesLeft_quiet (id := id) hentryQueues).entries List.not_mem_nil
  generalize discardEntry .memory (some p) id s = s₁ at *
  generalize allPorts.foldl (fun s p => withdrawAt id p s) s₁ = s₂ at *
  have hbefore := portsOnly_trans hentryOnly honly
  -- the upward queues
  have hupward := withdrawUpward_discards id s₂
  have hupwardEq := withdrawUpward_eq id s₂
  have hupwardQueues : SameQueues s₂.ports (withdrawUpward id s₂).ports := by
    rw [hupwardEq]
    exact discardEntries_sameQueues .memory none _ (upwardLeft id s₂)
  have hupwardOnly : PortsOnly (upwardLeft id s₂) (withdrawUpward id s₂) := by
    rw [hupwardEq]
    exact discardEntries_portsOnly ..
  generalize withdrawUpward id s₂ = s₃ at *
  -- the input queue
  have hinput := withdrawInput_discards id s₃
  have hinputEq := withdrawInput_eq id s₃
  have hinputQueues : SameQueues s₃.ports (withdrawInput id s₃).ports := by
    rw [hinputEq]
    exact discardEntries_sameQueues .memory none _ (inputLeft id s₃)
  have hinputOnly : PortsOnly (inputLeft id s₃) (withdrawInput id s₃) := by
    rw [hinputEq]
    exact discardEntries_portsOnly ..
  rw [heq]
  generalize withdrawInput id s₃ = u at *
  have hafter : ApartFromDrops (upwardLeft id s₂) u := apart_trans hupwardOnly.apart hinputOnly.apart
  have hup : u.up = (upwardLeft id s₂).up := hinputOnly.up.trans hupwardOnly.up
  have hinputs : s₃.hub.mgmt.input = s.hub.mgmt.input := hupwardOnly.input.trans hbefore.input
  refine ⟨hleft.quiet hentryQueues (hupwardQueues.trans hinputQueues), ?_, (upwardLeft_run id s₂).apart hbefore.apart hbefore.up
    hafter hup (fun j st hj => ?_), ?_, (upwardLeft_upq id s₂).apart hbefore.apart hafter,
    ⟨_, (((hentry.trans hports).trans hupward).trans hinput).congr rfl (fun q => ?_), fun hno => ?_⟩⟩
  · rw [hup, ← hbefore.up]
    rfl
  · obtain ⟨st', hst', -⟩ := (upwardLeft_upq id s₂).present j st hj
    exact ⟨st', hst'⟩
  · rw [hinputOnly.input, ← hinputs]
    rfl
  · rw [if_pos (mem_allPorts q), hentries q, Nat.add_zero, Nat.add_comm]
    exact congrArg (entriesAt s id q + ·) (if_congr ⟨fun h => (Option.some.inj h).symm, fun h => congrArg some h.symm⟩ rfl rfl)
  · have hnone : upwardEntries id s₂ = [] := upwardEntries_none fun j st hj => by
      obtain ⟨n, hn⟩ := hbefore.apart j
      rw [hn] at hj
      obtain ⟨st', hst', rfl⟩ := Option.map_eq_some_iff.mp hj
      exact hno j st' hst'
    have hsum : (allPorts.map (entriesAt s₁ id)) = allPorts.map (entriesAt s id) :=
      List.map_congr_left fun q _ => hentries q
    rw [hnone, hsum, hinputs, hbefore.up, entriesOf]
    simp only [List.length_nil, Nat.add_zero, Nat.add_assoc]

end Sys2Proof.Laws
end

section
/-! What a port starts first (R9, R16, R73, R74, R145, R173, R176), what a reading finds (R27 to R29), and a failed start;
and the statement on starts. -/

namespace Sys2Proof.Laws

open Sys2Proof Sys2Proof.Machine Sys2Proof.Safety

/-! ## Readings -/

section
variable {g : Mgmt → Mgmt} {h : Hub}

/-- A change of the Management Unit that neither reads nor writes the flags. -/
def FlagFree (g : Mgmt → Mgmt) : Prop := ∀ m flags, g { m with flags := flags } = { g m with flags := flags }

theorem FlagFree.flags (hg : FlagFree g) (m : Mgmt) : (g m).flags = m.flags := by
  have h := congrArg (fun x : Mgmt => x.flags) (hg m m.flags)
  exact h

theorem flag_comm (hg : FlagFree g) (f : Flag) (h : Hub) :
    Hub.flag f { h with mgmt := g h.mgmt } = { h.flag f with mgmt := g (h.flag f).mgmt } := by
  have hset := congrArg (fun flags : Vector StickyFlag 11 => { g h.mgmt with
    flags := flags.set f.index.val flags[f.index].occur }) (hg.flags h.mgmt)
  exact congrArg (fun m => { h with mgmt := m }) (hset.trans (hg h.mgmt _).symm)

theorem flagN_comm (hg : FlagFree g) (f : Flag) (n : Nat) (h : Hub) :
    Hub.flagN f n { h with mgmt := g h.mgmt } = { Hub.flagN f n h with mgmt := g (Hub.flagN f n h).mgmt } := by
  induction n generalizing h with
  | zero => rfl
  | succ n ih =>
    rw [Hub.flagN, flag_comm hg]
    exact ih (h.flag f)

theorem readFrame_comm (hg : FlagFree g) (f : FrameRec) (port : Option Port) (h : Hub) :
    Hub.readFrame f port { h with mgmt := g h.mgmt } =
      ((h.readFrame f port).1, { (h.readFrame f port).2 with mgmt := g (h.readFrame f port).2.mgmt }) := by
  simp only [Hub.readFrame]
  refine congrArg (Prod.mk _) ?_
  refine Eq.trans (congrArg _ (flagN_comm hg .memorySingle _ { h with cells := _ })) ?_
  exact flagN_comm hg .memoryMulti _ _

theorem flagOf_flagN (f : Flag) (l : List Nat) (h : Hub) : (Hub.flagN f l.length h).flagOf f =
    if l = [] then h.flagOf f else { isSet := true, count := min ((h.flagOf f).count + l.length) 65535 } := by
  cases l with
  | nil => rfl
  | cons x l => rw [if_neg (List.cons_ne_nil x l), List.length_cons, flagOf_flagN_self]

end

/-- Cell Memory after the reading of `f`'s cells (R28, R32). -/
def readCells (f : FrameRec) (port : Option Port) (h : Hub) : CellMemory :=
  let capture (old : Option Capture) (xs : List Nat) : Option Capture :=
    old.or (xs.head?.map (fun x => { cell := x, kind := f.kind, port := port }))
  { h.cells.modFrame f.id (fun g => { g with
      failed := g.failed ++ (h.readFrame f port).1.filter (fun x => !g.failed.contains x) }) with
    singleCapture := capture h.cells.singleCapture (f.chain.filter (fun x => decide (h.cells.test x = some .single)))
    multiCapture := capture h.cells.multiCapture (h.readFrame f port).1 }

theorem or_eq_if {α : Type} (old new : Option α) [Decidable (old = none)] :
    old.or new = if old = none then new else old := by
  cases old with
  | none => rw [if_pos rfl, Option.none_or]
  | some a => rw [if_neg (Option.some_ne_none a), Option.some_or]

theorem readCells_eq (f : FrameRec) (port : Option Port) (h : Hub) :
    let singles := f.chain.filter (fun x => decide (h.cells.test x = some .single))
    let multis := f.chain.filter (fun x => decide (h.cells.test x = some .multi))
    let capture := fun (old : Option Capture) (xs : List Nat) =>
      if old = none then xs.head?.map (fun x => { cell := x, kind := f.kind, port := port }) else old
    readCells f port h = { h.cells with
      singleCapture := capture h.cells.singleCapture singles, multiCapture := capture h.cells.multiCapture multis
      frames := h.cells.frames.map (fun g => if g.id = f.id then
        { g with failed := g.failed ++ multis.filter (fun x => !g.failed.contains x) } else g) } := by
  intro singles multis capture
  simp only [readCells, or_eq_if, CellMemory.modFrame]
  rfl

/-! ## What a port tries first -/

section
variable {s : State} {fuel : Nat}

theorem startSeat_frame {n : Fin 32} {id : Nat} {rest : List Nat} (hreplies : repliesFor s.hub.mgmt (.seat n) = [])
    (hegress : (s.ports.seats[n]).egress = id :: rest) : startSeat (fuel + 1) n s =
      if (tryStart (.seat n) id (.frame id) (onPorts (Ports.modSeat n (fun q => { q with egress := rest })) s)).1
      then (tryStart (.seat n) id (.frame id) (onPorts (Ports.modSeat n (fun q => { q with egress := rest })) s)).2
      else startSeat fuel n
        (tryStart (.seat n) id (.frame id) (onPorts (Ports.modSeat n (fun q => { q with egress := rest })) s)).2 := by
  rw [startSeat]
  simp only [hreplies, hegress]

theorem startRadio_frame {w : Fin 4} {e : RadioEntry} {rest : List RadioEntry} (horders : (s.ports.radios[w]).orders = [])
    (hegress : (s.ports.radios[w]).egress = e :: rest) : startRadio (fuel + 1) w s =
      if (tryStart (.radio w) e.id (.radioFrame e.id e.index)
        (onPorts (Ports.modRadio w (fun q => { q with egress := rest })) s)).1
      then (tryStart (.radio w) e.id (.radioFrame e.id e.index)
        (onPorts (Ports.modRadio w (fun q => { q with egress := rest })) s)).2
      else startRadio fuel w (tryStart (.radio w) e.id (.radioFrame e.id e.index)
        (onPorts (Ports.modRadio w (fun q => { q with egress := rest })) s)).2 := by
  rw [startRadio]
  simp only [horders, hegress]

theorem startRadio_order {w : Fin 4} {o : Order} {rest : List Order} (horders : (s.ports.radios[w]).orders = o :: rest) :
    startRadio (fuel + 1) w s = setTx (.radio w) (some (.order o))
      (onPorts (Ports.modRadio w (fun q => { q with orders := rest })) s) := by
  rw [startRadio]
  simp only [horders]

theorem startPort_reply {p : Port} {k : Fin 4} {ks : List (Fin 4)} (hradio : ∀ w, p ≠ .radio w)
    (hopen : ∀ x, p = .backbone x → (s.ports.endOf x).pendingHold = none ∧ (s.ports.endOf x).heldUntil = none)
    (hreplies : repliesFor s.hub.mgmt p = k :: ks) : startPort p s =
      if (startReply p k s).1 then (startReply p k s).2
      else goOn p s.hub.cells.frames.length (startReply p k s).2 := by
  cases p with
  | seat n =>
    rw [startPort, startSeat]
    simp only [hreplies]
    rfl
  | radio w => exact absurd rfl (hradio w)
  | backbone x =>
    obtain ⟨hpending, hheld⟩ := hopen x rfl
    rw [startPort_open hpending hheld, startEnd]
    simp only [hreplies]
    rfl

theorem startPort_notice {x : End} {id : Nat} {dest : LinkAddr} (hpending : (s.ports.endOf x).pendingHold = none)
    (hheld : (s.ports.endOf x).heldUntil = none) (hreplies : repliesFor s.hub.mgmt (.backbone x) = [])
    (hnotice : noticeFor x s = some (id, dest)) : startPort (.backbone x) s =
      if (startNotice (.backbone x) id dest s).1 then (startNotice (.backbone x) id dest s).2
      else goOn (.backbone x) s.hub.cells.frames.length (startNotice (.backbone x) id dest s).2 := by
  rw [startPort_open hpending hheld, startEnd]
  simp only [hreplies, hnotice]
  rfl

theorem noticeFor_head {x : End} {id : Nat} {rest : List Nat} {dest : LinkAddr} (hlead : s.consist.lead = some x)
    (hnotices : s.hub.mgmt.notices = id :: rest) (haddr : s.hub.mgmt.reportAddr = some dest) :
    noticeFor x s = some (id, dest) := by
  simp only [noticeFor, hlead, hnotices, haddr, if_true]

end

/-! ## Replies -/

section
variable {p : Port} {k : Fin 4} {h : ReqHeader} {id : Nat} {s : State} {f : FrameRec} {bad : List Nat}

/-- The reply of slot `k` leaves the order of the built replies for its transmission (R173). -/
def sendingReply (k : Fin 4) (h : ReqHeader) (id : Nat) (m : Mgmt) : Mgmt :=
  { m with slots := m.slots.set k (.sending h id), builtOrder := m.builtOrder.filter (fun j => decide (j ≠ k)) }

theorem startReply_stands (hslot : s.hub.mgmt.slots[k] = .built h id) (hf : s.hub.cells.frame? id = some f)
    (hreads : (s.hub.readFrame f (some p)).1 = []) : startReply p k s = (true, setTx p (some (.reply id k)) { s with
      hub := { (s.hub.readFrame f (some p)).2 with
        mgmt := sendingReply k h id (s.hub.readFrame f (some p)).2.mgmt } }) := by
  have hcomm := readFrame_comm (g := sendingReply k h id) (fun _ _ => rfl) f (some p) s.hub
  have hstands := tryStart_stands (p := p) (tx := .reply id k) (f := f)
    (s := { s with hub := { s.hub with mgmt := sendingReply k h id s.hub.mgmt } }) hf (by rw [hcomm]; exact hreads)
  simp only [startReply, hslot]
  refine (congrArg (fun r : Bool × State => if r.1 then r else (false, onHub (Hub.freeSlot k) r.2)) hstands).trans ?_
  rw [hcomm]
  rfl

theorem startReply_fails (hslot : s.hub.mgmt.slots[k] = .built h id) (hf : s.hub.cells.frame? id = some f)
    (hbad : (s.hub.readFrame f (some p)).1 = bad) (hne : bad ≠ []) : startReply p k s =
      (false, onHub (Hub.freeSlot k) (failStart p f bad { s with
        hub := { (s.hub.readFrame f (some p)).2 with
          mgmt := sendingReply k h id (s.hub.readFrame f (some p)).2.mgmt } })) := by
  have hcomm := readFrame_comm (g := sendingReply k h id) (fun _ _ => rfl) f (some p) s.hub
  have hfails := tryStart_fails (p := p) (tx := .reply id k) (f := f)
    (s := { s with hub := { s.hub with mgmt := sendingReply k h id s.hub.mgmt } }) hf (by rw [hcomm]; exact hbad) hne
  simp only [startReply, hslot]
  refine (congrArg (fun r : Bool × State => if r.1 then r else (false, onHub (Hub.freeSlot k) r.2)) hfails).trans ?_
  rw [hcomm]
  rfl

theorem failStart_slots (p : Port) (f : FrameRec) (bad : List Nat) (s : State) :
    (failStart p f bad s).hub.mgmt.slots = s.hub.mgmt.slots := by
  obtain ⟨n, hdiscards, -⟩ := (startFailed_spec p f.id s).discards
  rw [failStart_eq]
  generalize startFailed p f.id s = u at *
  exact (raise_quiet u.sender (.memoryError (bad.headD 0) bad.length f.kind p) u.hub).slots.trans hdiscards.slots

end

/-! ## Notices -/

section
variable {x : End} {id : Nat} {dest : LinkAddr} {rest : List Nat} {s : State} {f : FrameRec} {bad : List Nat}

/-- The head notice leaves its queue. -/
def noticeLeft (m : Mgmt) : Mgmt := { m with notices := m.notices.tail }

/-- NOTICES_LOST is tried, with the entry into PRESSURE that it may bring (R33, R177). -/
def reportedLost (sd : Sender) (h : Hub) : Hub := (h.reportLost sd).1.noteEntered sd (h.reportLost sd).2

theorem startNotice_stands {p : Port} (hf : s.hub.cells.frame? id = some f)
    (hreads : (s.hub.readFrame f (some p)).1 = []) : startNotice p id dest s = (true, setTx p (some (.notice id dest)) { s with
      hub := reportedLost s.sender { (s.hub.readFrame f (some p)).2 with
        mgmt := noticeLeft (s.hub.readFrame f (some p)).2.mgmt } }) := by
  have hcomm := readFrame_comm (g := noticeLeft) (fun _ _ => rfl) f (some p) s.hub
  have hstands := tryStart_stands (p := p) (tx := .notice id dest) (f := f)
    (s := { s with hub := { s.hub with mgmt := noticeLeft s.hub.mgmt } }) hf (by rw [hcomm]; exact hreads)
  simp only [startNotice]
  refine (congrArg (fun r : Bool × State => if r.1 then (true, onHub (reportedLost r.2.sender) r.2) else r) hstands).trans ?_
  rw [hcomm]
  rfl

theorem startNotice_fails {p : Port} (hf : s.hub.cells.frame? id = some f)
    (hbad : (s.hub.readFrame f (some p)).1 = bad) (hne : bad ≠ []) : startNotice p id dest s =
      (false, failStart p f bad { s with
        hub := { (s.hub.readFrame f (some p)).2 with
          mgmt := noticeLeft (s.hub.readFrame f (some p)).2.mgmt } }) := by
  have hcomm := readFrame_comm (g := noticeLeft) (fun _ _ => rfl) f (some p) s.hub
  have hfails := tryStart_fails (p := p) (tx := .notice id dest) (f := f)
    (s := { s with hub := { s.hub with mgmt := noticeLeft s.hub.mgmt } }) hf (by rw [hcomm]; exact hbad) hne
  simp only [startNotice]
  refine (congrArg (fun r : Bool × State => if r.1 then (true, onHub (reportedLost r.2.sender) r.2) else r) hfails).trans ?_
  rw [hcomm]
  rfl

theorem reportedLost_nothing {sd : Sender} {h : Hub} (hlost : h.mgmt.lost = 0) : reportedLost sd h = h := by
  have hreport : h.reportLost sd = (h, none) := by
    unfold Hub.reportLost
    split
    · rfl
    · exact if_pos hlost
  rw [reportedLost, hreport]
  rfl

theorem reportedLost_waits {sd : Sender} {h : Hub} (haddr : h.mgmt.reportAddr = some dest) (hlost : 0 < h.mgmt.lost)
    (hlack : 12 ≤ h.mgmt.notices.length ∨ h.cells.free.length < noticeCells sd dest (.noticesLost h.mgmt.lost)) :
    reportedLost sd h = h := by
  have hreport : h.reportLost sd = (h, none) := by
    simp only [Hub.reportLost, haddr, hlost.ne', if_false, (tryNotice_cases sd dest _ h).1 hlack]
  rw [reportedLost, hreport]
  rfl

theorem reportedLost_built {sd : Sender} {h : Hub} (haddr : h.mgmt.reportAddr = some dest) (hlost : 0 < h.mgmt.lost)
    (hroom : h.mgmt.notices.length < 12) (hcells : noticeCells sd dest (.noticesLost h.mgmt.lost) ≤ h.cells.free.length) :
    ∃ u new, EntersAfter sd (noticeCells sd dest (.noticesLost h.mgmt.lost)) h u (reportedLost sd h) ∧
      u.mgmt = { h.mgmt with notices := h.mgmt.notices ++ [new], lost := 0 } ∧
      u.cells.free = h.cells.free.drop (noticeCells sd dest (.noticesLost h.mgmt.lost)) := by
  obtain ⟨new, b, e, hb, ht⟩ := (tryNotice_cases sd dest (.noticesLost h.mgmt.lost) h).2 hroom hcells
  have hreport : h.reportLost sd = ({ b with
      mgmt := { h.mgmt with notices := h.mgmt.notices ++ [new], lost := 0 } }, e) := by
    simp only [Hub.reportLost, haddr, hlost.ne', if_false, ht]
  have htaken := (build_taken hb).mgmt (v := { b with
    mgmt := { h.mgmt with notices := h.mgmt.notices ++ [new], lost := 0 } }) rfl
  refine ⟨_, new, ?_, rfl, htaken.free⟩
  rw [reportedLost, hreport]
  exact htaken.entersAfter cellsFor_pos

end

end Sys2Proof.Laws

namespace Sys2Proof.Proofs

open Sys2Proof Sys2Proof.Machine Sys2Proof.Safety Sys2Proof.Laws

theorem afterReading_of {s : State} {id : Nat} {f : FrameRec} (p : Port) (hf : s.hub.cells.frame? id = some f) :
    afterReading s id p = (s.hub.readFrame f (some p)).2 := by
  simp only [afterReading, hf]

/-- Settles O31: by kind of port and of its first candidate; then the reading of a frame's cells, and the failed start, whose
withdrawal goes through every queue in turn (`startFailed_spec`). -/
theorem egressHeadStarts : Obligations.EgressHeadStarts := by
  refine ⟨?seat, ?radio, ?order, ?hold, ?reply, ?notice, ?reading, ?failed⟩
  case seat =>
    intro n fs s id rest hcan hreplies hegress
    exact starts_of_tried hcan (startSeat_frame (s := withFaults fs s) hreplies hegress)
  case radio =>
    intro w fs s e rest hcan horders hegress
    exact starts_of_tried hcan (startRadio_frame (s := withFaults fs s) horders hegress)
  case order =>
    intro w fs s o rest hcan horders
    refine (exec_start hcan).trans (congrArg _ ((startRadio_order (s := withFaults fs s) horders).trans ?_))
    have hps : Ports.modRadio w (fun q => { q with unit := { q.unit with tx := some (.order o) } })
        (s.ports.modRadio w (fun q => { q with orders := rest })) = s.ports.modRadio w (fun q => { q with
          unit := { q.unit with tx := some (.order o) }
          orders := rest }) := modRadio_modRadio ..
    exact congrArg (fun ps => { withFaults fs s with ports := ps }) hps
  case hold =>
    intro x fs s hcan
    refine ⟨fun d hd => ?_, fun hnone hheld => ?_⟩
    · have hport : startPort (.backbone x) (withFaults fs s) = setTx (.backbone x) (some (.hold d))
          (onPorts (Ports.modEnd x (fun e => { e with pendingHold := none })) (withFaults fs s)) := by
        have hd' : ((withFaults fs s).ports.endOf x).pendingHold = some d := hd
        simp only [startPort, hd']
      refine (exec_start hcan).trans (congrArg _ (hport.trans ?_))
      have hps : Ports.modEnd x (fun q => { q with unit := { q.unit with tx := some (.hold d) } })
          (s.ports.modEnd x (fun q => { q with pendingHold := none })) = s.ports.modEnd x (fun q => { q with
            unit := { q.unit with tx := some (.hold d) }
            pendingHold := none }) := by cases x <;> rfl
      exact congrArg (fun ps => { withFaults fs s with ports := ps }) hps
    · have hport : startPort (.backbone x) (withFaults fs s) = withFaults fs s := by
        have hnone' : ((withFaults fs s).ports.endOf x).pendingHold = none := hnone
        have hheld' : ((withFaults fs s).ports.endOf x).heldUntil.isSome = true :=
          Option.isSome_iff_ne_none.mpr hheld
        simp only [startPort, hnone', hheld', if_true]
      exact (exec_start hcan).trans (congrArg _ hport)
  case reply =>
    intro p fs s k ks h id hcan hradio hopen hreplies hslot s0 a sending
    have hport := startPort_reply (s := s0) hradio hopen hreplies
    have hread : ∀ f, s.hub.cells.frame? id = some f → ({ s0 with
        hub := { (s0.hub.readFrame f (some p)).2 with
          mgmt := sendingReply k h id (s0.hub.readFrame f (some p)).2.mgmt } } : State) = sending := fun f hf => by
      have ha : a = (s0.hub.readFrame f (some p)).2 := afterReading_of p hf
      obtain ⟨flags, hm⟩ := readFrame_mgmt f (some p) s0.hub
      rw [← ha] at hm ⊢
      have hsend : sendingReply k h id a.mgmt = { a.mgmt with
          slots := s.hub.mgmt.slots.set k (.sending h id)
          builtOrder := s.hub.mgmt.builtOrder.filter (fun j => decide (j ≠ k)) } := by
        rw [hm]
        rfl
      exact congrArg (fun m => ({ s0 with hub := { a with mgmt := m } } : State)) hsend
    refine ⟨fun ⟨f, hf, hreads⟩ => ?_, fun f bad hf hbad hne => ?_⟩
    · rw [startReply_stands (s := s0) hslot hf hreads, hread f hf] at hport
      exact (exec_start hcan).trans (congrArg _ hport)
    · rw [startReply_fails (s := s0) hslot hf hbad hne, hread f hf] at hport
      have hslots : (failStart p f bad sending).hub.mgmt.slots = s.hub.mgmt.slots.set k (.sending h id) :=
        failStart_slots p f bad sending
      generalize failStart p f bad sending = v at *
      refine ⟨onHub (Hub.freeSlot k) v, (exec_start hcan).trans (congrArg _ hport),
        freeSlot_slot _, fun j hj => (freeSlot_slot_ne _ hj).trans ?_, rfl, rfl, rfl, rfl⟩
      exact (congrArg (fun v : Vector ReplySlot 4 => v[j]) hslots).trans
        (Vector.getElem_set_ne k.isLt j.isLt (fun he => hj (Fin.ext he.symm)))
  case notice =>
    intro x fs s id rest dest hcan hlead hpending hheld hreplies hnotices haddr s0 a left
    have hport := startPort_notice (s := s0) hpending hheld hreplies (noticeFor_head hlead hnotices haddr)
    have hread : ∀ f, s.hub.cells.frame? id = some f → ({ (s0.hub.readFrame f (some (.backbone x))).2 with
        mgmt := noticeLeft (s0.hub.readFrame f (some (.backbone x))).2.mgmt } : Hub) = left.hub := fun f hf => by
      have ha : a = (s0.hub.readFrame f (some (.backbone x))).2 := afterReading_of _ hf
      obtain ⟨flags, hm⟩ := readFrame_mgmt f (some (.backbone x)) s0.hub
      rw [← ha] at hm ⊢
      have htail : a.mgmt.notices.tail = rest := by
        rw [hm]
        exact congrArg List.tail hnotices
      exact congrArg (fun l => ({ a with mgmt := { a.mgmt with notices := l } } : Hub)) htail
    refine ⟨fun ⟨f, hf, hreads⟩ => ?_, fun f bad hf hbad hne => ?_⟩
    · obtain ⟨flags, hm⟩ := readFrame_mgmt f (some (.backbone x)) s0.hub
      have ha : a = (s0.hub.readFrame f (some (.backbone x))).2 := afterReading_of _ hf
      rw [← ha] at hm
      have hleftLost : left.hub.mgmt.lost = s.hub.mgmt.lost := (congrArg (fun m : Mgmt => m.lost) hm :)
      have hleftAddr : left.hub.mgmt.reportAddr = some dest := (congrArg (fun m : Mgmt => m.reportAddr) hm :).trans haddr
      rw [startNotice_stands (s := s0) hf hreads, hread f hf] at hport
      refine ⟨_, (exec_start hcan).trans (congrArg _ hport), rfl, rfl, fun hlost => ?_, fun hlost hlong => ?_,
        fun hlost hroom => ?_⟩
      · exact reportedLost_nothing (hleftLost.trans hlost)
      · exact reportedLost_waits hleftAddr (hleftLost.symm ▸ hlost) (.inl hlong)
      · have hn : noticeCells s.sender dest (.noticesLost left.hub.mgmt.lost) =
            noticeCells s.sender dest (.noticesLost s.hub.mgmt.lost) := by rw [hleftLost]
        refine ⟨fun hlack => ?_, fun hcells => ?_⟩
        · exact reportedLost_waits hleftAddr (hleftLost.symm ▸ hlost) (.inr (hn.symm ▸ hlack))
        · obtain ⟨u, new, henters, hmgmt, hfree⟩ := reportedLost_built (sd := s.sender) hleftAddr (hleftLost.symm ▸ hlost)
            hroom (hn.symm ▸ hcells)
          rw [hn] at henters hfree
          exact ⟨u, new, henters, hmgmt, hfree⟩
    · rw [startNotice_fails (s := s0) hf hbad hne, hread f hf] at hport
      exact (exec_start hcan).trans (congrArg _ hport)
  case reading =>
    intro f port h singles multis u capture
    have hu : u = Hub.flagN .memoryMulti multis.length (Hub.flagN .memorySingle singles.length { h with
      cells := readCells f port h }) := rfl
    refine ⟨rfl, ?_, ?_, ?_, fun fl hsingle hmulti => ?_, ?_⟩
    · rw [hu, flagOf_flagN_ne _ _ (by decide), flagOf_flagN]
      rfl
    · rw [hu, flagOf_flagN, flagOf_flagN_ne _ _ (by decide)]
      rfl
    · obtain ⟨flags, hm⟩ := readFrame_mgmt f port h
      show (h.readFrame f port).2.mgmt = _
      rw [hm]
    · rw [hu, flagOf_flagN_ne _ _ hmulti, flagOf_flagN_ne _ _ hsingle]
      rfl
    · rw [hu, flagN_cells, flagN_cells]
      exact readCells_eq f port h
  case failed =>
    intro p f bad s id
    obtain ⟨hqueues, hup, hrun, hinput, hupq, n, hdiscards, hn⟩ := startFailed_spec p id s
    refine ⟨startFailed p id s, failStart_eq p f bad s, fun m => ?_, fun w => ⟨?_, hqueues.orders w⟩, fun x => ?_, hup, hrun.none,
      hrun.some, hinput, fun q => ?_, fun x => ?_, hdiscards.kept.sched, hdiscards.kept.windows, hdiscards.kept.consist,
      hdiscards.kept.hold, hdiscards.held, hupq.absent, hupq.present, fun hno => ?_⟩
    · rw [hqueues.seat m, if_pos (mem_allPorts _)]
    · rw [hqueues.radio w, if_pos (mem_allPorts _)]
    · rw [hqueues.transit x, if_pos (mem_allPorts _)]
    · have hq := hdiscards.units q
      exact ⟨(congrArg (fun u : PortUnit => u.tx) hq :), (congrArg (fun u : PortUnit => u.rx) hq :),
        (congrArg (fun u : PortUnit => u.link) hq :)⟩
    · have hx := hqueues.hold x
      rw [if_pos (mem_allPorts _)] at hx
      unfold holdAfter at hx
      split at hx
      case isTrue h =>
        rw [if_pos h]
        exact ⟨congrArg Prod.fst hx, congrArg (fun r => r.2.1) hx, congrArg (fun r => r.2.2) hx⟩
      case isFalse h =>
        rw [if_neg h]
        exact ⟨congrArg Prod.fst hx, congrArg (fun r => r.2.1) hx, congrArg (fun r => r.2.2) hx⟩
    · obtain rfl := hn hno
      obtain ⟨htally, hdrops⟩ := hdiscards.counts
      refine ⟨?_, fun r hr => ?_, hdrops, fun g hg => ⟨fun m hm hpos => ⟨_, hdiscards.refs.left g m hg hm hpos, rfl⟩,
        fun hrefs haddr => hdiscards.refs.gone g hg (by omega) hrefs haddr⟩⟩
      · rw [htally, countAt_self]
      · rw [htally, countAt_ne _ hr]
        exact BitVec.add_zero _

end Sys2Proof.Proofs
end

section
/-! SUPPORT. The sweeps of a warm reset over the ports (R188): transmissions aborted, receptions lost. -/

namespace Sys2Proof.Laws

open Sys2Proof Sys2Proof.Machine Sys2Proof.Safety

/-! ## What a sweep leaves of a port -/

/-- A seat port with its unit set aside. -/
def seatQueue (q : SeatPort) : SeatPort := { q with unit := {} }

/-- A radio link with its unit set aside. -/
def radioQueue (q : RadioLink) : RadioLink := { q with unit := {} }

/-- A backbone end with its unit set aside. -/
def endQueue (e : BackboneEnd) : BackboneEnd := { e with unit := {} }

/-- A port's link, and its counts of whole frames and bytes (R8). -/
def unitFigures (u : PortUnit) : PortUnit :=
  { u with
    rx := .idle
    tx := none
    ctr := { u.ctr with rxDiscards := 0, txDrops := 0 } }

/-- From `a` to `b` nothing of the ports changes but transmissions, receptions, and counts of discards and drops. -/
structure UnitsOnly (a b : Ports) : Prop where
  seats : ∀ n : Fin 32, seatQueue b.seats[n] = seatQueue a.seats[n]
  radios : ∀ w : Fin 4, radioQueue b.radios[w] = radioQueue a.radios[w]
  ends : ∀ x, endQueue (b.endOf x) = endQueue (a.endOf x)
  units : ∀ p, unitFigures (b.unitOf p) = unitFigures (a.unitOf p)

section
variable {a b c ps : Ports} {p q : Port} {g : PortUnit → PortUnit}

theorem UnitsOnly.refl (a : Ports) : UnitsOnly a a := ⟨fun _ => rfl, fun _ => rfl, fun _ => rfl, fun _ => rfl⟩

theorem UnitsOnly.trans (h : UnitsOnly a b) (k : UnitsOnly b c) : UnitsOnly a c :=
  ⟨fun n => (k.seats n).trans (h.seats n), fun w => (k.radios w).trans (h.radios w), fun x => (k.ends x).trans (h.ends x),
    fun p => (k.units p).trans (h.units p)⟩

/-- What a change of one port's unit does not touch stays, in every unit. -/
theorem unitOf_modUnit_of {α : Type} (f : PortUnit → α) (hg : ∀ u, f (g u) = f u) (ps : Ports) (p q : Port) :
    f ((ps.modUnit p g).unitOf q) = f (ps.unitOf q) := by
  by_cases h : q = p
  · rw [h, unitOf_modUnit_self, hg]
  · rw [unitOf_modUnit_ne _ _ h]

theorem unitOf_count?_of {α : Type} (f : PortUnit → α) {g : PortCounters → PortCounters}
    (hg : ∀ u : PortUnit, f { u with ctr := g u.ctr } = f u) (ps : Ports) (p : Option Port) (q : Port) :
    f ((ps.count? p g).unitOf q) = f (ps.unitOf q) := by
  cases p with
  | none => rfl
  | some p => exact unitOf_modUnit_of f hg ps p q

theorem unitsOnly_modUnit (hg : ∀ u, unitFigures (g u) = unitFigures u) (ps : Ports) (p : Port) :
    UnitsOnly ps (ps.modUnit p g) := by
  refine ⟨fun n => ?_, fun w => ?_, fun x => ?_, unitOf_modUnit_of _ hg ps p⟩
  · cases p with
    | seat m =>
      rw [Ports.modUnit, modSeat_seat]
      split
      case isTrue h => subst h; rfl
      case isFalse => rfl
    | radio w => rfl
    | backbone x => rw [Ports.modUnit, modEnd_seats]
  · cases p with
    | seat m => rfl
    | radio v =>
      rw [Ports.modUnit, modRadio_radio]
      split
      case isTrue h => subst h; rfl
      case isFalse => rfl
    | backbone x => rw [Ports.modUnit, modEnd_radios]
  · cases p with
    | seat m => rw [Ports.modUnit, modSeat_endOf]
    | radio w => rw [Ports.modUnit, modRadio_endOf]
    | backbone y =>
      rw [Ports.modUnit, modEnd_end]
      split
      case isTrue h => subst h; rfl
      case isFalse => rfl

theorem unitsOnly_txDrop (ps : Ports) (p : Port) : UnitsOnly ps (ps.count p PortCounters.txDrop) :=
  unitsOnly_modUnit (g := fun u => { u with ctr := u.ctr.txDrop }) (fun _ => rfl) ps p

theorem unitsOnly_rxDiscard (ps : Ports) (p : Port) : UnitsOnly ps (ps.count p PortCounters.rxDiscard) :=
  unitsOnly_modUnit (g := fun u => { u with ctr := u.ctr.rxDiscard }) (fun _ => rfl) ps p

theorem unitsOnly_tx (ps : Ports) (p : Port) (tx : Option Transmission) :
    UnitsOnly ps (ps.modUnit p (fun u => { u with tx := tx })) := unitsOnly_modUnit (by intro _; rfl) ps p

theorem unitsOnly_rx (ps : Ports) (p : Port) (rx : Reception) :
    UnitsOnly ps (ps.modUnit p (fun u => { u with rx := rx })) := unitsOnly_modUnit (by intro _; rfl) ps p

theorem count_tx (ps : Ports) (p q : Port) (g : PortCounters → PortCounters) :
    ((ps.count p g).unitOf q).tx = (ps.unitOf q).tx :=
  unitOf_modUnit_of (g := fun u => { u with ctr := g u.ctr }) (fun u => u.tx) (fun _ => rfl) ps p q

theorem count_rx (ps : Ports) (p q : Port) (g : PortCounters → PortCounters) :
    ((ps.count p g).unitOf q).rx = (ps.unitOf q).rx :=
  unitOf_modUnit_of (g := fun u => { u with ctr := g u.ctr }) (fun u => u.rx) (fun _ => rfl) ps p q

theorem setRx_tx (p q : Port) (r : Reception) (s : State) :
    ((setRx p r s).ports.unitOf q).tx = (s.ports.unitOf q).tx :=
  unitOf_modUnit_of (g := fun u => { u with rx := r }) (fun u => u.tx) (fun _ => rfl) s.ports p q

theorem setTx_rx (p q : Port) (tx : Option Transmission) (s : State) :
    ((setTx p tx s).ports.unitOf q).rx = (s.ports.unitOf q).rx :=
  unitOf_modUnit_of (g := fun u => { u with tx := tx }) (fun u => u.rx) (fun _ => rfl) s.ports p q

theorem unitsOnly_rxDiscard? (ps : Ports) (p : Option Port) : UnitsOnly ps (ps.count? p PortCounters.rxDiscard) := by
  cases p with
  | none => exact .refl ps
  | some p => exact unitsOnly_rxDiscard ps p

end

/-! ## A sweep -/

/-- From `s` to `t` nothing changes but units, and counts in the tally. -/
structure Swept (s t : State) : Prop where
  cells : t.hub.cells = s.hub.cells
  mgmt : t.hub.mgmt = { s.hub.mgmt with tally := t.hub.mgmt.tally }
  ports : UnitsOnly s.ports t.ports
  blocks : blocks t = blocks s

/-- What is counted in the tally from `s` to `t`. -/
def Tallied (s t : State) (n : Discard → Nat) : Prop := ∀ r, t.hub.tallyOf r = s.hub.tallyOf r + BitVec.ofNat 32 (n r)

section
variable {s t u : State} {n m : Discard → Nat} {p q : Port} {L : List Port}

theorem Swept.refl (s : State) : Swept s s := ⟨rfl, rfl, .refl _, rfl⟩

theorem Swept.trans (h : Swept s t) (g : Swept t u) : Swept s u :=
  ⟨g.cells.trans h.cells, by rw [g.mgmt, h.mgmt], h.ports.trans g.ports, g.blocks.trans h.blocks⟩

theorem tallied_none (h : t.hub.mgmt.tally = s.hub.mgmt.tally) : Tallied s t (fun _ => 0) := fun r => by
  rw [Hub.tallyOf, h]
  exact (BitVec.add_zero _).symm

theorem Tallied.trans (h : Tallied s t n) (g : Tallied t u m) : Tallied s u (fun r => n r + m r) := fun r => by
  rw [g r, h r, BitVec.ofNat_add, BitVec.add_assoc]

theorem Tallied.congr (h : Tallied s t n) (hn : ∀ r, n r = m r) : Tallied s t m := fun r => by rw [h r, hn r]

/-! ## Transmissions -/

/-- Whether a stored frame is in transmission at a port (R10). -/
def sendsFrame (u : PortUnit) : Bool := (u.tx.bind Transmission.frame?).isSome

/-- The abort of one port's transmission (R188, step 1). -/
theorem resetTx_spec (p : Port) (s : State) : Swept s (resetTx p s) ∧
    Tallied s (resetTx p s) (countAt .aborted (if sendsFrame (s.ports.unitOf p) = true then 1 else 0)) ∧
    (∀ q, ((resetTx p s).ports.unitOf q).rx = (s.ports.unitOf q).rx) ∧
    (∀ q, ((resetTx p s).ports.unitOf q).tx = if q = p then none else (s.ports.unitOf q).tx) := by
  have hset : ∀ q, ((s.ports.modUnit p (fun u => { u with tx := none })).unitOf q).tx =
      if q = p then none else (s.ports.unitOf q).tx := fun q => by
    split
    case isTrue h => rw [h, unitOf_modUnit_self]
    case isFalse h => rw [unitOf_modUnit_ne _ _ h]
  unfold resetTx
  cases htx : (s.ports.unitOf p).tx with
  | none =>
    have hno : sendsFrame (s.ports.unitOf p) = false := by rw [sendsFrame, htx]; rfl
    refine ⟨.refl s, ?_, fun q => rfl, fun q => ?_⟩
    · exact (tallied_none rfl).congr fun r => by rw [hno]; exact (countAt_zero _ r).symm
    · by_cases h : q = p
      · rw [if_pos h, h, htx]
      · rw [if_neg h]
  | some t =>
    have hsends : sendsFrame (s.ports.unitOf p) = t.frame?.isSome := by rw [sendsFrame, htx]; rfl
    cases hid : t.frame? with
    | none =>
      simp only [hid]
      refine ⟨⟨rfl, rfl, unitsOnly_tx _ p none, rfl⟩, ?_, fun q => setTx_rx p q none s, hset⟩
      exact (tallied_none rfl).congr fun r => by rw [hsends, hid]; exact (countAt_zero _ r).symm
    | some id =>
      simp only [hid]
      have hports : (countAborted p id s).ports = (((s.ports.modUnit p (fun u => { u with tx := none })).count p
          PortCounters.txDrop).count? (s.hub.cells.rxPort id) PortCounters.rxDiscard) := rfl
      refine ⟨⟨rfl, rfl, ?_, rfl⟩, ?_, fun q => ?_, fun q => ?_⟩
      · rw [hports]
        exact ((unitsOnly_tx _ p none).trans (unitsOnly_txDrop _ p)).trans (unitsOnly_rxDiscard? _ _)
      · rw [hsends, hid]
        exact (countAborted_counts p id s).tally
      · rw [hports, unitOf_count?_of (fun u => u.rx) (fun _ => rfl), count_rx]
        exact setTx_rx p q none s
      · rw [hports, unitOf_count?_of (fun u => u.tx) (fun _ => rfl), count_tx]
        exact hset q

/-- The aborts of step 1 (R10, R188). -/
theorem resetTxs_spec (hn : L.Nodup) (s : State) : let t := L.foldl (fun s p => resetTx p s) s
    Swept s t ∧ Tallied s t (countAt .aborted (L.filter (fun p => sendsFrame (s.ports.unitOf p))).length) ∧
      (∀ q, (t.ports.unitOf q).rx = (s.ports.unitOf q).rx) ∧
      ∀ q, (t.ports.unitOf q).tx = if q ∈ L then none else (s.ports.unitOf q).tx := by
  induction L generalizing s with
  | nil => exact ⟨.refl s, (tallied_none rfl).congr fun r => (countAt_zero _ r).symm, fun _ => rfl,
      fun q => (if_neg List.not_mem_nil).symm⟩
  | cons p L ih =>
    obtain ⟨hnot, hn'⟩ := List.nodup_cons.mp hn
    obtain ⟨hswept, htally, hrx, htx⟩ := resetTx_spec p s
    obtain ⟨hswept', htally', hrx', htx'⟩ := ih hn' (resetTx p s)
    have hothers : L.filter (fun q => sendsFrame ((resetTx p s).ports.unitOf q)) =
        L.filter (fun q => sendsFrame (s.ports.unitOf q)) := List.filter_congr fun q hq => by
      have hne : q ≠ p := by rintro rfl; exact hnot hq
      rw [sendsFrame, htx q, if_neg hne, sendsFrame]
    refine ⟨hswept.trans hswept', (htally.trans htally').congr fun r => ?_, fun q => (hrx' q).trans (hrx q), fun q => ?_⟩
    · rw [hothers, countAt_add, List.filter_cons]
      split
      · rw [List.length_cons, Nat.add_comm]
      · rw [Nat.zero_add]
    · refine (htx' q).trans ?_
      rw [htx q]
      by_cases hq : q = p
      · rw [if_pos hq, if_pos (List.mem_cons.mpr (.inl hq)), ite_self]
      · rw [if_neg hq]
        exact if_congr ⟨List.mem_cons_of_mem p, fun h => (List.mem_cons.mp h).resolve_left hq⟩ rfl rfl

/-! ## Receptions -/

/-- Whether a frame is being received, with its cells (R22). -/
def takesFrame (u : PortUnit) : Bool :=
  match u.rx with
  | .taking _ => true
  | _ => false

/-- The loss of one port's reception (R22, R36). -/
theorem resetRx_spec (p : Port) (s : State) : Swept s (resetRx p s) ∧
    Tallied s (resetRx p s) (countAt .wire (if takesFrame (s.ports.unitOf p) = true then 1 else 0)) ∧
    (∀ q, ((resetRx p s).ports.unitOf q).tx = (s.ports.unitOf q).tx) := by
  unfold resetRx takesFrame
  cases hrx : (s.ports.unitOf p).rx with
  | idle => exact ⟨.refl s, (tallied_none rfl).congr fun r => (countAt_zero _ r).symm, fun _ => rfl⟩
  | dropping => exact ⟨⟨rfl, rfl, unitsOnly_rx s.ports p .idle, rfl⟩,
      (tallied_none rfl).congr fun r => (countAt_zero _ r).symm, fun q => setRx_tx p q .idle s⟩
  | taking chain =>
    have hports : (rxDiscard p (tally .wire (setRx p .idle s))).ports =
        (s.ports.modUnit p (fun u => { u with rx := .idle })).count p PortCounters.rxDiscard := rfl
    refine ⟨⟨rfl, rfl, ?_, rfl⟩, fun r => tallyOf_tally .wire r s.hub, fun q => ?_⟩
    · exact (unitsOnly_rx s.ports p .idle).trans (unitsOnly_rxDiscard _ p)
    · exact (count_tx _ p q _).trans (setRx_tx p q .idle s)

/-- The receptions lost at the reset (R36). -/
theorem resetRxs_spec (hn : L.Nodup) (s : State) : let t := L.foldl (fun s p => resetRx p s) s
    Swept s t ∧ Tallied s t (countAt .wire (L.filter (fun p => takesFrame (s.ports.unitOf p))).length) ∧
      ∀ q, (t.ports.unitOf q).tx = (s.ports.unitOf q).tx := by
  induction L generalizing s with
  | nil => exact ⟨.refl s, (tallied_none rfl).congr fun r => (countAt_zero _ r).symm, fun _ => rfl⟩
  | cons p L ih =>
    obtain ⟨hnot, hn'⟩ := List.nodup_cons.mp hn
    obtain ⟨hswept, htally, htx⟩ := resetRx_spec p s
    obtain ⟨hswept', htally', htx'⟩ := ih hn' (resetRx p s)
    have hothers : L.filter (fun q => takesFrame ((resetRx p s).ports.unitOf q)) =
        L.filter (fun q => takesFrame (s.ports.unitOf q)) := List.filter_congr fun q hq => by
      have hne : q ≠ p := by rintro rfl; exact hnot hq
      have hrx := resetRx_idle p q s
      rw [if_neg hne] at hrx
      rw [takesFrame, hrx, takesFrame]
    refine ⟨hswept.trans hswept', (htally.trans htally').congr fun r => ?_, fun q => (htx' q).trans (htx q)⟩
    rw [hothers, countAt_add, List.filter_cons]
    split
    · rw [List.length_cons, Nat.add_comm]
    · rw [Nat.zero_add]

end

end Sys2Proof.Laws
end

section
/-! SUPPORT. What the fixing and the building of replies change of the part, and the ABORTED answers of a warm reset
(R172, R173, R188). -/

namespace Sys2Proof.Laws

open Sys2Proof Sys2Proof.Machine Sys2Proof.Safety

/-! ## Cell Memory and the Management Unit through a reply -/

/-- What replies leave alone of Cell Memory and the Management Unit. -/
structure HubKept (h h' : Hub) : Prop where
  input : h'.mgmt.input = h.mgmt.input
  snapshot : h'.mgmt.snapshot = h.mgmt.snapshot
  store : h'.mgmt.store = h.mgmt.store
  reportAddr : h'.mgmt.reportAddr = h.mgmt.reportAddr
  defaultIdle : h'.mgmt.defaultIdle = h.mgmt.defaultIdle
  high : h'.cells.high = h.cells.high
  low : h'.cells.low = h.cells.low
  single : h'.cells.singleCapture = h.cells.singleCapture
  multi : h'.cells.multiCapture = h.cells.multiCapture

/-- What stands besides where no notice is built (R175): the notice queue, the lost count, and the flags that a return of
cells or an entry into PRESSURE does not set. -/
structure Unreported (h h' : Hub) : Prop where
  notices : h'.mgmt.notices = h.mgmt.notices
  lost : h'.mgmt.lost = h.mgmt.lost
  flagOf : ∀ f, f ≠ .memoryDegraded → f ≠ .pressureSeen → h'.flagOf f = h.flagOf f

/-- Where the stack and the frames are apart, the stored frames stay and frames with no failed cell join them. -/
def Grown (h h' : Hub) : Prop := HubStackOk h → HubStackOk h' ∧ h'.cells.retired = h.cells.retired ∧
  ∃ new : List FrameRec, h'.cells.frames = h.cells.frames ++ new ∧ ∀ g ∈ new, g.failed = []

section
variable {h h' u v : Hub}

theorem HubKept.refl (h : Hub) : HubKept h h := ⟨rfl, rfl, rfl, rfl, rfl, rfl, rfl, rfl, rfl⟩

theorem HubKept.trans (a : HubKept h u) (b : HubKept u v) : HubKept h v :=
  ⟨b.input.trans a.input, b.snapshot.trans a.snapshot, b.store.trans a.store, b.reportAddr.trans a.reportAddr,
    b.defaultIdle.trans a.defaultIdle, b.high.trans a.high, b.low.trans a.low, b.single.trans a.single,
    b.multi.trans a.multi⟩

theorem Quiet.hubKept (q : Quiet h u) : HubKept h u :=
  ⟨q.input, q.snapshot, q.store, q.reportAddr, q.defaultIdle, q.high, q.low, q.single, q.multi⟩

theorem Unreported.refl (h : Hub) : Unreported h h := ⟨rfl, rfl, fun _ _ _ => rfl⟩

theorem Unreported.trans (a : Unreported h u) (b : Unreported u v) : Unreported h v :=
  ⟨b.notices.trans a.notices, b.lost.trans a.lost, fun f hd hp => (b.flagOf f hd hp).trans (a.flagOf f hd hp)⟩

/-- A change of the Management Unit that leaves notices and flags alone. -/
theorem unreported_of_mgmt (hn : u.mgmt.notices = h.mgmt.notices) (hl : u.mgmt.lost = h.mgmt.lost)
    (hf : u.mgmt.flags = h.mgmt.flags) : Unreported h u := ⟨hn, hl, fun f _ _ => by rw [Hub.flagOf, hf, Hub.flagOf]⟩

theorem grown_of_cells (hc : u.cells = h.cells) : Grown h u := by
  refine fun hok => ⟨⟨?_, ?_⟩, by rw [hc], [], by rw [hc, List.append_nil], nofun⟩
  · rw [hc]
    exact hok.nodup
  · rw [hc]
    exact hok.records

theorem Grown.trans (a : Grown h u) (b : Grown u v) : Grown h v := fun hok => by
  obtain ⟨hu, hretired, new, hframes, hnew⟩ := a hok
  obtain ⟨hv, hretired', new', hframes', hnew'⟩ := b hu
  refine ⟨hv, hretired'.trans hretired, new ++ new', by rw [hframes', hframes, List.append_assoc], fun g hg => ?_⟩
  exact (List.mem_append.mp hg).elim (hnew g) (hnew' g)

/-! ## Steps with no report address -/

theorem noteEntered_unreported {sd : Sender} (hr : h.mgmt.reportAddr = none) (e : Option Nat) :
    (h.noteEntered sd e).cells = h.cells ∧ Unreported h (h.noteEntered sd e) := by
  cases e with
  | none => exact ⟨rfl, .refl h⟩
  | some held =>
    have hraise : Hub.noteEntered sd (some held) h = h.flag .pressureSeen := by
      have hr' : (h.flag .pressureSeen).mgmt.reportAddr = none := hr
      simp only [Hub.noteEntered, Hub.raiseCore, hr']
    rw [hraise]
    exact ⟨rfl, rfl, rfl, fun f _ hp => flagOf_flagN_ne 1 h hp⟩

theorem giveBack_unreported {sd : Sender} (hr : h.mgmt.reportAddr = none) (failed chain : List Nat) :
    Unreported h (h.giveBack sd failed chain) := by
  have hback : h.giveBack sd failed chain = cellsBack failed chain h := by
    rw [giveBack_eq]
    exact noteLeft_none (cellsBack_reportAddr failed chain h |>.trans hr) _
  have hmgmt := cellsBack_mgmt failed chain h
  rw [hback]
  refine ⟨(congrArg (fun m : Mgmt => m.notices) hmgmt :), (congrArg (fun m : Mgmt => m.lost) hmgmt :), fun f hd _ => ?_⟩
  exact flagOf_flagN_ne _ _ hd

theorem dropRef_unreported {sd : Sender} (hr : h.mgmt.reportAddr = none) (id : Nat) : Unreported h (h.dropRef sd id) := by
  unfold Hub.dropRef
  split
  case h_1 => exact .refl h
  case h_2 f hf =>
    split
    case isTrue =>
      rw [freeFrame_eq sd hf]
      have hback := giveBack_unreported (sd := sd) (h := { h with
        cells := { h.cells with frames := h.cells.frames.filter (fun g => decide (g.id ≠ id)) } }) hr f.failed f.chain
      exact ⟨hback.notices, hback.lost, hback.flagOf⟩
    case isFalse => exact ⟨rfl, rfl, fun _ _ _ => rfl⟩

end

/-! ## A frame built, and one built and let go -/

section
variable {kind : FrameKind} {bytes : List Byte} {h u : Hub} {id : Nat} {e : Option Nat}

theorem build_grown (hb : h.build kind bytes = some (id, u, e)) : Grown h u := by
  intro hok
  obtain ⟨chain, -, -, -, -, -, hframes, -, hretired, -⟩ := build_spec hb
  refine ⟨(build_builtIn hb hok).2, hretired, _, hframes, fun g hg => ?_⟩
  rw [List.mem_singleton.mp hg]

/-- A frame that is built and let go at once leaves the stored frames as they were (R173). -/
theorem build_dropRef_grown {sd : Sender} {v : Hub} (hb : h.build kind bytes = some (id, u, e)) (hv : v.cells = u.cells)
    (hr : v.mgmt.reportAddr = none) : Grown h (v.dropRef sd id) := by
  intro hok
  obtain ⟨hbuilt, -⟩ := build_builtIn hb hok
  obtain ⟨chain, hchain, henough, hid, -, hfree, hframes, -, hretired, -⟩ := build_spec hb
  rw [← hchain] at hbuilt
  have hrecord : v.cells.frame? id = some (builtRecord kind bytes chain) := hv ▸ hbuilt.record
  have hsplit : chain ++ u.cells.free = h.cells.free := by rw [hchain, hfree, List.take_append_drop]
  have hmem : id ∈ h.cells.free := by
    cases hc : chain with
    | nil =>
      have hlen := congrArg List.length hchain
      rw [hc, List.length_take, Nat.min_eq_left henough, List.length_nil] at hlen
      exact absurd hlen.symm cellsFor_pos.ne'
    | cons x xs =>
      rw [hid, ← hsplit, hc]
      exact List.mem_cons_self
  have hold : v.cells.frames.filter (fun g => decide (g.id ≠ id)) = h.cells.frames := by
    have hthere : h.cells.frames.filter (fun g => decide (g.id ≠ id)) = h.cells.frames :=
      List.filter_eq_self.mpr fun g hg => decide_eq_true fun he => hok.records g hg (he ▸ hmem)
    rw [hv, hframes, List.filter_append, hthere, List.filter_cons_of_neg (by simp [hid, FrameRec.id]), List.filter_nil,
      List.append_nil]
  rw [dropRef_last sd hrecord (Nat.le_refl 1), freeFrame_eq sd hrecord]
  obtain ⟨new, hframes', -, -, hretired', hnone⟩ := giveBack_places sd (builtRecord kind bytes chain).failed
    (builtRecord kind bytes chain).chain { v with
      cells := { v.cells with frames := v.cells.frames.filter (fun g => decide (g.id ≠ id)) } }
  obtain ⟨rfl, hback⟩ := hnone hr
  have hperm : (chain.reverse ++ u.cells.free).Perm h.cells.free := by
    rw [← hsplit]
    exact (List.reverse_perm chain).append_right _
  replace hback := hback rfl
  generalize Hub.giveBack sd (builtRecord kind bytes chain).failed (builtRecord kind bytes chain).chain _ = w at *
  have hstack : w.cells.free = chain.reverse ++ u.cells.free := hback.trans (by rw [hv]; rfl)
  have hall : w.cells.frames = h.cells.frames := by
    rw [hframes', List.append_nil]
    exact hold
  refine ⟨⟨?_, fun f hf => ?_⟩, ?_, [], by rw [hall, List.append_nil], nofun⟩
  · rw [hstack]
    exact hperm.nodup_iff.mpr hok.nodup
  · rw [hstack, hperm.mem_iff]
    exact hok.records f (hall ▸ hf)
  · refine hretired'.trans ?_
    have hgood : chain.filter (fun x => ([] : List Nat).contains x) = [] := List.filter_eq_nil_iff.mpr fun _ _ => by simp
    show v.cells.retired ++ (chain.filter (fun x => ([] : List Nat).contains x)).take _ = _
    rw [hgood, List.take_nil, List.append_nil, hv, hretired]

end

/-! ## The part through a reply -/

/-- What the fixing and the building of replies change of the part: some slots, counts, and cells (R172, R173). -/
structure Replied (s t : State) : Prop where
  hub : HubKept s.hub t.hub
  ports : UnitsOnly s.ports t.ports
  tx : ∀ q, (t.ports.unitOf q).tx = (s.ports.unitOf q).tx
  rx : ∀ q, (t.ports.unitOf q).rx = (s.ports.unitOf q).rx
  blocks : blocks t = blocks s
  tally : ∀ r, r ≠ .purge → t.hub.tallyOf r = s.hub.tallyOf r
  unreported : s.hub.mgmt.reportAddr = none → Unreported s.hub t.hub
  grown : s.hub.mgmt.reportAddr = none → Grown s.hub t.hub

section
variable {s t u : State} {k : Fin 4} {h : ReqHeader} {c : ReplyContent} {b : Bool}

theorem Replied.refl (s : State) : Replied s s :=
  ⟨.refl _, .refl _, fun _ => rfl, fun _ => rfl, rfl, fun _ _ => rfl, fun _ => .refl _, fun _ => grown_of_cells rfl⟩

theorem Replied.trans (a : Replied s t) (b : Replied t u) : Replied s u :=
  ⟨a.hub.trans b.hub, a.ports.trans b.ports, fun q => (b.tx q).trans (a.tx q), fun q => (b.rx q).trans (a.rx q),
    b.blocks.trans a.blocks, fun r hr => (b.tally r hr).trans (a.tally r hr),
    fun hr => (a.unreported hr).trans (b.unreported (a.hub.reportAddr.trans hr)),
    fun hr => (a.grown hr).trans (b.grown (a.hub.reportAddr.trans hr))⟩

/-- A slot and the list of the waiting replies changed. -/
theorem reserve_replied (k : Fin 4) (q : ReplySlot) (ks : List (Fin 4)) (s : State) :
    Replied s { s with hub := reserve k q ks s.hub } :=
  ⟨⟨rfl, rfl, rfl, rfl, rfl, rfl, rfl, rfl, rfl⟩, .refl _, fun _ => rfl, fun _ => rfl, rfl, fun _ _ => rfl,
    fun _ => ⟨rfl, rfl, fun _ _ _ => rfl⟩, fun _ => grown_of_cells rfl⟩

theorem reserve_slot (k : Fin 4) (q : ReplySlot) (ks : List (Fin 4)) (h : Hub) :
    (reserve k q ks h).mgmt.slots[k] = q := Vector.getElem_set_self k.isLt

theorem reserve_slot_ne (q : ReplySlot) (ks : List (Fin 4)) (h : Hub) {j : Fin 4} (hj : j ≠ k) :
    (reserve k q ks h).mgmt.slots[j] = h.mgmt.slots[j] :=
  Vector.getElem_set_ne k.isLt j.isLt (fun he => hj (Fin.ext he.symm))

/-- The build of a reply: placed in its slot, or discarded where its seat port is DOWN (R172, R173). -/
theorem buildReply_replied (hb : buildReply k h c s = some t) : Replied s t ∧
    (∀ j, j ≠ k → t.hub.mgmt.slots[j] = s.hub.mgmt.slots[j]) ∧
    ((∃ id, t.hub.mgmt.slots[k] = .built h id) ∨ deadSeat s h.port = true ∧ t.hub.mgmt.slots[k] = .free) := by
  unfold buildReply at hb
  split at hb
  case h_1 => cases hb
  case h_2 id h1 e hbuild =>
    have hquiet := (build_quiet hbuild).trans (noteEntered_quiet s.sender e h1)
    obtain ⟨chain, -, -, -, hmgmt, -⟩ := build_spec hbuild
    have hnone : s.hub.mgmt.reportAddr = none → (h1.noteEntered s.sender e).cells = h1.cells ∧
        Unreported s.hub (h1.noteEntered s.sender e) := fun hr => by
      obtain ⟨hcells, hun⟩ := noteEntered_unreported (sd := s.sender) (h := h1) (by rw [hmgmt]; exact hr) e
      exact ⟨hcells, (unreported_of_mgmt (by rw [hmgmt]) (by rw [hmgmt]) (by rw [hmgmt])).trans hun⟩
    generalize h1.noteEntered s.sender e = h2 at *
    split at hb
    case isTrue hdead =>
      obtain rfl := Option.some.inj hb
      have hdrop := dropRef_quiet s.sender id (h2.freeSlot k)
      have hfreed : HubKept h2 (h2.freeSlot k) := ⟨rfl, rfl, rfl, rfl, rfl, rfl, rfl, rfl, rfl⟩
      refine ⟨⟨(hquiet.hubKept.trans hfreed).trans ⟨hdrop.input, hdrop.snapshot, hdrop.store, hdrop.reportAddr,
          hdrop.defaultIdle, hdrop.high, hdrop.low, hdrop.single, hdrop.multi⟩, unitsOnly_txDrop _ _,
        fun q => count_tx _ _ q _, fun q => count_rx _ _ q _, rfl, fun r hr => ?_, fun hr => ?_, fun hr => ?_⟩,
        fun j hj => ?_, .inr ⟨hdead, ?_⟩⟩
      · refine (tallyOf_tally .purge r _).trans ?_
        rw [countAt_ne _ hr, hdrop.tallyOf r]
        exact (BitVec.add_zero _).trans (hquiet.tallyOf r)
      · obtain ⟨-, hun⟩ := hnone hr
        have hr' : (h2.freeSlot k).mgmt.reportAddr = none := hquiet.reportAddr.trans hr
        have hdropped := dropRef_unreported (sd := s.sender) hr' id
        exact ⟨hdropped.notices.trans hun.notices, hdropped.lost.trans hun.lost,
          fun f hd hp => (hdropped.flagOf f hd hp).trans (hun.flagOf f hd hp)⟩
      · obtain ⟨hcells, -⟩ := hnone hr
        exact (build_dropRef_grown (v := h2.freeSlot k) hbuild hcells (hquiet.reportAddr.trans hr)).trans
          (grown_of_cells rfl)
      · refine (congrArg (fun v : Vector ReplySlot 4 => v[j]) hdrop.slots).trans ((freeSlot_slot_ne h2 hj).trans ?_)
        exact congrArg (fun v : Vector ReplySlot 4 => v[j]) hquiet.slots
      · exact (congrArg (fun v : Vector ReplySlot 4 => v[k]) hdrop.slots).trans (freeSlot_slot h2)
    case isFalse =>
      obtain rfl := Option.some.inj hb
      refine ⟨⟨⟨hquiet.input, hquiet.snapshot, hquiet.store, hquiet.reportAddr, hquiet.defaultIdle, hquiet.high,
          hquiet.low, hquiet.single, hquiet.multi⟩, .refl _, fun _ => rfl, fun _ => rfl, rfl,
        fun r _ => hquiet.tallyOf r, fun hr => ?_, fun hr => ?_⟩, fun j hj => ?_, .inl ⟨id, placeBuilt_slot h2 id⟩⟩
      · obtain ⟨-, hun⟩ := hnone hr
        exact ⟨hun.notices, hun.lost, hun.flagOf⟩
      · obtain ⟨hcells, -⟩ := hnone hr
        exact (build_grown hbuild).trans (grown_of_cells hcells)
      · exact (placeBuilt_slot_ne h2 id hj).trans (congrArg (fun v : Vector ReplySlot 4 => v[j]) hquiet.slots)

/-! ## Waiting replies built -/

/-- Every slot stands, or it held a reply that waited, which has been built or discarded (R172, R173). -/
def WaitedBuilt (s t : State) : Prop := ∀ j : Fin 4, t.hub.mgmt.slots[j] = s.hub.mgmt.slots[j] ∨
  (∃ h c b, s.hub.mgmt.slots[j] = .reserved h (some c) b) ∧
    (t.hub.mgmt.slots[j] = .free ∨ ∃ h id, t.hub.mgmt.slots[j] = .built h id)

theorem waitedBuilt_refl (s : State) : WaitedBuilt s s := fun _ => .inl rfl

theorem waitedBuilt_trans (a : WaitedBuilt s t) (b : WaitedBuilt t u) : WaitedBuilt s u := fun j => by
  rcases a j with ha | ⟨hwait, ha⟩
  · rcases b j with hb | ⟨hwait, hb⟩
    · exact .inl (hb.trans ha)
    · exact .inr ⟨ha ▸ hwait, hb⟩
  · refine .inr ⟨hwait, ?_⟩
    rcases b j with hb | ⟨-, hb⟩
    · rw [hb]
      exact ha
    · exact hb

theorem buildOldest_replied (s : State) : Replied s (buildOldest s) ∧ WaitedBuilt s (buildOldest s) := by
  unfold buildOldest
  split
  case h_1 => exact ⟨.refl s, waitedBuilt_refl s⟩
  case h_2 k _ _ =>
    split
    case h_1 h c b hslot =>
      cases hb : buildReply k h c s with
      | none => exact ⟨.refl s, waitedBuilt_refl s⟩
      | some t =>
        obtain ⟨hreplied, hothers, hown⟩ := buildReply_replied hb
        refine ⟨hreplied, fun j => ?_⟩
        by_cases hj : j = k
        · subst hj
          exact .inr ⟨⟨h, c, b, hslot⟩, hown.elim (fun ⟨id, hid⟩ => .inr ⟨h, id, hid⟩) (fun hf => .inl hf.2)⟩
        · exact .inl (hothers j hj)
    case h_2 => exact ⟨.refl s, waitedBuilt_refl s⟩

theorem buildWaiting_replied (n : Nat) (s : State) : Replied s (buildWaiting n s) ∧ WaitedBuilt s (buildWaiting n s) := by
  induction n generalizing s with
  | zero => exact ⟨.refl s, waitedBuilt_refl s⟩
  | succ n ih =>
    obtain ⟨hreplied, hwaited⟩ := buildOldest_replied s
    obtain ⟨hreplied', hwaited'⟩ := ih (buildOldest s)
    exact ⟨hreplied.trans hreplied', waitedBuilt_trans hwaited hwaited'⟩

/-! ## The ABORTED answers -/

theorem fixReply_split (hh : (s.hub.mgmt.slots[k]).header? = some h) (c : ReplyContent) (b : Bool) : ∃ ks,
    let v := { s with hub := reserve k (.reserved h (some c) b) ks s.hub }
    fixReply k c b s = v ∨ buildReply k h c v = some (fixReply k c b s) := by
  by_cases hw : s.hub.mgmt.waiting = []
  · refine ⟨[k], ?_⟩
    rw [fixReply_of_idle hh hw]
    cases hb : buildReply k h c (fixed k h c b s) with
    | none => exact .inl rfl
    | some t => exact .inr hb
  · exact ⟨s.hub.mgmt.waiting ++ [k], .inl (by simp only [fixReply, hh, hw, if_false]; rfl)⟩

/-- The answer ABORTED to the operation `op` in the slot that was `q` and is now `q'` (R188). -/
def AbortAnswered (s : State) (q q' : ReplySlot) : Prop :=
  (∀ h op, q = .parked h op → q' = .reserved h (some (.fixed .aborted (abortedBody s op))) false ∨
    (∃ id, q' = .built h id) ∨ deadSeat s h.port = true ∧ q' = .free) ∧
  ((∀ h op, q ≠ .parked h op) → q' = q)

theorem abortParked_spec (k : Fin 4) (s : State) : Replied s (abortParked k s) ∧
    (∀ j, j ≠ k → (abortParked k s).hub.mgmt.slots[j] = s.hub.mgmt.slots[j]) ∧
    AbortAnswered s s.hub.mgmt.slots[k] (abortParked k s).hub.mgmt.slots[k] := by
  unfold abortParked
  split
  case h_1 h op hslot =>
    have hh : (s.hub.mgmt.slots[k]).header? = some h := by rw [hslot]; rfl
    obtain ⟨ks, hsplit⟩ := fixReply_split hh (.fixed .aborted (abortedBody s op)) false
    have hreserve := reserve_replied k (.reserved h (some (.fixed .aborted (abortedBody s op))) false) ks s
    have hown := reserve_slot k (.reserved h (some (.fixed .aborted (abortedBody s op))) false) ks s.hub
    have hothers : ∀ j, j ≠ k → _ := fun j hj =>
      reserve_slot_ne (k := k) (.reserved h (some (.fixed .aborted (abortedBody s op))) false) ks s.hub hj
    have hsplit' := hsplit
    rw [hslot]
    rcases hsplit' with hwaits | hb
    · rw [hwaits]
      exact ⟨hreserve, hothers, fun h' op' he => by cases he; exact .inl hown, fun hno => absurd rfl (hno h op)⟩
    · obtain ⟨hreplied, hothers', hown'⟩ := buildReply_replied hb
      exact ⟨hreserve.trans hreplied, fun j hj => (hothers' j hj).trans (hothers j hj),
        fun h' op' he => by cases he; exact .inr hown', fun hno => absurd rfl (hno h op)⟩
  case h_2 hno =>
    exact ⟨.refl s, fun _ _ => rfl, fun h op he => absurd he (hno h op), fun _ => rfl⟩

theorem abortedBody_congr (htable : t.table = s.table) (op : PendingOp) : abortedBody t op = abortedBody s op := by
  cases op with
  | release j => simp only [abortedBody, State.station?, htable]
  | snapshot => rfl
  | save image m => rfl

theorem deadSeat_congr (h : UnitsOnly s.ports t.ports) (p : Port) : deadSeat t p = deadSeat s p := by
  cases p with
  | seat n =>
    have hlink : (t.ports.seats[n]).unit.link = (s.ports.seats[n]).unit.link :=
      (congrArg (fun u : PortUnit => u.link) (h.units (.seat n)) :)
    simp only [deadSeat, hlink]
  | radio w => rfl
  | backbone x => rfl

theorem AbortAnswered.congr {q q' : ReplySlot} (htable : t.table = s.table) (hports : UnitsOnly s.ports t.ports)
    (h : AbortAnswered t q q') : AbortAnswered s q q' := by
  refine ⟨fun hd op he => ?_, h.2⟩
  rw [← abortedBody_congr htable, ← deadSeat_congr hports]
  exact h.1 hd op he

theorem abortParkeds_spec {L : List (Fin 4)} (hn : L.Nodup) (s : State) :
    let t := L.foldl (fun s k => abortParked k s) s
    Replied s t ∧ (∀ j ∉ L, t.hub.mgmt.slots[j] = s.hub.mgmt.slots[j]) ∧
      ∀ j ∈ L, AbortAnswered s s.hub.mgmt.slots[j] t.hub.mgmt.slots[j] := by
  induction L generalizing s with
  | nil => exact ⟨.refl s, fun _ _ => rfl, nofun⟩
  | cons k L ih =>
    obtain ⟨hnot, hn'⟩ := List.nodup_cons.mp hn
    obtain ⟨hreplied, hothers, hown⟩ := abortParked_spec k s
    obtain ⟨hreplied', hothers', hown'⟩ := ih hn' (abortParked k s)
    have htable : (abortParked k s).table = s.table := (congrArg (fun b : Blocks => b.table) hreplied.blocks :)
    refine ⟨hreplied.trans hreplied', fun j hj => ?_, fun j hj => ?_⟩
    · rw [List.mem_cons, not_or] at hj
      exact (hothers' j hj.2).trans (hothers j hj.1)
    · rcases List.mem_cons.mp hj with rfl | hjL
      · rw [List.foldl_cons, hothers' j hnot]
        exact hown
      · have hne : j ≠ k := by rintro rfl; exact hnot hjL
        have hanswered := (hown' j hjL).congr htable hreplied.ports
        rw [hothers j hne] at hanswered
        exact hanswered

end

end Sys2Proof.Laws
end

section
/-! What a warm reset empties and keeps (R36, R58, R75, R109, R149, R167, R177, R188), and the statement on it. -/

namespace Sys2Proof.Laws

open Sys2Proof Sys2Proof.Machine Sys2Proof.Safety

section
variable {s t u w : State}

/-! ## Steps 1 to 5 -/

/-- Steps 1 to 4 (R188): transmissions aborted, input and notices emptied, the snapshot area absent. -/
structure TrafficReset (s t : State) : Prop where
  cells : t.hub.cells = s.hub.cells
  mgmt : t.hub.mgmt = { s.hub.mgmt with
    input := []
    notices := []
    snapshot := none
    slots := s.hub.mgmt.slots.map ReplySlot.afterAbort
    tally := t.hub.mgmt.tally }
  ports : UnitsOnly s.ports t.ports
  tx : ∀ q, (t.ports.unitOf q).tx = none
  rx : ∀ q, (t.ports.unitOf q).rx = (s.ports.unitOf q).rx
  blocks : blocks t = blocks s
  tallied : Tallied s t (countAt .aborted (allPorts.filter (fun p => sendsFrame (s.ports.unitOf p))).length)

theorem resetTraffic_spec (s : State) : TrafficReset s (resetTraffic s) := by
  obtain ⟨hswept, htally, hrx, htx⟩ := resetTxs_spec allPorts_nodup s
  unfold resetTraffic
  dsimp only
  generalize allPorts.foldl (fun s p => resetTx p s) s = a at *
  refine ⟨hswept.cells, ?_, hswept.ports, fun q => (htx q).trans (if_pos (mem_allPorts q)), hrx, hswept.blocks, htally⟩
  show ({ a.hub.mgmt with
    input := []
    notices := []
    snapshot := none
    slots := a.hub.mgmt.slots.map ReplySlot.afterAbort } : Mgmt) = _
  rw [hswept.mgmt]

theorem TrafficReset.slot (h : TrafficReset s t) (j : Fin 4) :
    t.hub.mgmt.slots[j] = (s.hub.mgmt.slots[j]).afterAbort := by
  rw [h.mgmt]
  exact Vector.getElem_map ReplySlot.afterAbort j.isLt

/-- Step 5 (R188): no notice is built meanwhile, whatever the report address (log entry 21). -/
theorem abortAllParked_spec (s : State) : Replied s (abortAllParked s) ∧ Unreported s.hub (abortAllParked s).hub ∧
    Grown s.hub (abortAllParked s).hub ∧
    ∀ j : Fin 4, AbortAnswered s s.hub.mgmt.slots[j] (abortAllParked s).hub.mgmt.slots[j] := by
  obtain ⟨hreplied, -, hslots⟩ := abortParkeds_spec (List.nodup_finRange 4) (withReport none s)
  have heq : abortAllParked s = withReport s.hub.mgmt.reportAddr
    ((List.finRange 4).foldl (fun s k => abortParked k s) (withReport none s)) := rfl
  rw [heq]
  generalize (List.finRange 4).foldl (fun s k => abortParked k s) (withReport none s) = v at *
  obtain ⟨hin, hsnap, hstore, -, hidle, hhigh, hlow, hsingle, hmulti⟩ := hreplied.hub
  have hun := hreplied.unreported rfl
  have hgrown := hreplied.grown rfl
  have hunreported : Unreported s.hub (withReport s.hub.mgmt.reportAddr v).hub := ⟨hun.notices, hun.lost, hun.flagOf⟩
  have hbefore : Grown s.hub (withReport none s).hub := grown_of_cells rfl
  have hafter : Grown v.hub (withReport s.hub.mgmt.reportAddr v).hub := grown_of_cells rfl
  have hgrown' := hbefore.trans (hgrown.trans hafter)
  exact ⟨⟨⟨hin, hsnap, hstore, rfl, hidle, hhigh, hlow, hsingle, hmulti⟩, hreplied.ports, hreplied.tx, hreplied.rx,
    hreplied.blocks, hreplied.tally, fun _ => hunreported, fun _ => hgrown'⟩, hunreported, hgrown',
    fun j => hslots j (List.mem_finRange j)⟩

/-! ## Step 6 -/

theorem resetQueues_unit (s : State) (q : Port) : (resetQueues s).ports.unitOf q = s.ports.unitOf q := by
  rcases q with n | v | x
  · simp [resetQueues, Ports.unitOf]
  · simp [resetQueues, Ports.unitOf, RadioLink.afterReset]
  · cases x <;> rfl

theorem resetQueues_end (s : State) (x : End) : (resetQueues s).ports.endOf x = (s.ports.endOf x).afterReset := by
  cases x <;> rfl

/-- A backbone end behind step 6: a fall of the other end's transit queue brings its release (R14, R167). -/
def endReset (e : BackboneEnd) : BackboneEnd := if e.outstanding = true then releasing e.afterReset else e.afterReset

/-- The ports with their queues emptied, and the releases that this brings. -/
def resetPorts (s : State) : Ports := (afterFall .bb (afterFall .ba (resetQueues s))).ports

theorem resetPorts_unit (s : State) (q : Port) : (resetPorts s).unitOf q = s.ports.unitOf q := by
  rw [resetPorts, afterFall_unit, afterFall_unit, resetQueues_unit]

theorem resetPorts_end (s : State) (x : End) : (resetPorts s).endOf x = endReset (s.ports.endOf x) := by
  have hba : ((resetQueues s).ports.endOf .ba).transit = [] := rfl
  have hbb : ((afterFall .ba (resetQueues s)).ports.endOf .bb).transit = [] := afterFall_transit .ba .bb _
  have hfirst := afterFall_other .ba (resetQueues s) hba
  have hsecond := afterFall_other .bb (afterFall .ba (resetQueues s)) hbb
  rw [resetPorts]
  cases x with
  | ba =>
    refine hsecond.trans ?_
    rw [show End.other .bb = .ba from rfl, afterFall_self, resetQueues_end]
    rfl
  | bb =>
    rw [afterFall_self]
    refine hfirst.trans ?_
    rw [show End.other .ba = .bb from rfl, resetQueues_end]
    rfl

theorem resetPorts_seat (s : State) (n : Fin 32) : (resetPorts s).seats[n] = { s.ports.seats[n] with egress := [] } := by
  rw [resetPorts, (afterFall_attachments .bb _).1, (afterFall_attachments .ba _).1]
  exact Vector.getElem_map _ n.isLt

theorem resetPorts_radio (s : State) (v : Fin 4) :
    (resetPorts s).radios[v] = (s.ports.radios[v]).afterReset (radioIndices s.table v) := by
  rw [resetPorts, (afterFall_attachments .bb _).2, (afterFall_attachments .ba _).2]
  exact Vector.getElem_ofFn v.isLt

/-- Step 6 (R36, R58, R75, R109, R149, R167). -/
structure BlocksReset (s t : State) : Prop where
  cells : t.hub.cells = (s.hub.cells.rebuild (keptIds s.hub.mgmt)).1
  mgmt : t.hub.mgmt = { s.hub.mgmt with
    tally := t.hub.mgmt.tally
    flags := t.hub.mgmt.flags }
  flagOf : ∀ f, f ≠ .memoryDegraded → t.hub.flagOf f = s.hub.flagOf f
  tallied : Tallied s t (countAt .wire (allPorts.filter (fun p => takesFrame (s.ports.unitOf p))).length)
  blocks : blocks t = { blocks s with
    table := { slots := Vector.replicate 256 none, held := [] }
    sched := { Scheduler.reset with number := s.sched.number, params := s.sched.params }
    up := {} }
  tx : ∀ q, (t.ports.unitOf q).tx = (s.ports.unitOf q).tx
  rx : ∀ q, (t.ports.unitOf q).rx = .idle
  figures : ∀ q, unitFigures (t.ports.unitOf q) = unitFigures (s.ports.unitOf q)
  seat : ∀ n : Fin 32, seatQueue t.ports.seats[n] = { seatQueue s.ports.seats[n] with egress := [] }
  radio : ∀ v : Fin 4, (t.ports.radios[v]).egress = [] ∧ (t.ports.radios[v]).orders =
    if (s.ports.radios[v]).unit.link = .up then (radioIndices s.table v).map (fun i => { kind := .drop, index := i }) else []
  ends : ∀ x, endQueue (t.ports.endOf x) = endQueue (endReset (s.ports.endOf x))

theorem endQueue_endReset {e d : BackboneEnd} (h : endQueue e = endQueue d) :
    endQueue (endReset e) = endQueue (endReset d) := by
  have houtstanding : e.outstanding = d.outstanding := (congrArg (fun b : BackboneEnd => b.outstanding) h :)
  unfold endReset
  rw [houtstanding]
  split
  · exact congrArg (fun b : BackboneEnd => releasing b.afterReset) h
  · exact congrArg (fun b : BackboneEnd => b.afterReset) h

theorem flagOf_congr {a b : Hub} (h : b.mgmt.flags = a.mgmt.flags) (f : Flag) : b.flagOf f = a.flagOf f := by
  rw [Hub.flagOf, h, Hub.flagOf]

theorem resetBlocks_spec (s : State) : BlocksReset s (resetBlocks s) := by
  obtain ⟨hswept, htally, htx⟩ := resetRxs_spec allPorts_nodup s
  have hidle := fun q => resetRxs_idle allPorts q s (.inl (mem_allPorts q))
  have heq : resetBlocks s = rebuildCells (resetTables (afterFall .bb (afterFall .ba (resetQueues
    (allPorts.foldl (fun s p => resetRx p s) s))))) := rfl
  rw [heq]
  generalize allPorts.foldl (fun s p => resetRx p s) s = y at *
  have hports : (rebuildCells (resetTables (afterFall .bb (afterFall .ba (resetQueues y))))).ports = resetPorts y := rfl
  have hkept : keptIds y.hub.mgmt = keptIds s.hub.mgmt := by rw [hswept.mgmt]; rfl
  have hblocks := hswept.blocks
  have hradio : ∀ v : Fin 4, (y.ports.radios[v]).unit.link = (s.ports.radios[v]).unit.link := fun v =>
    (congrArg (fun u : PortUnit => u.link) (hswept.ports.units (.radio v)) :)
  have htable : y.table = s.table := (congrArg (fun b : Blocks => b.table) hblocks :)
  obtain ⟨flags, hflags⟩ := flagN_mgmt .memoryDegraded (y.hub.cells.rebuild (keptIds y.hub.mgmt)).2
    { y.hub with cells := (y.hub.cells.rebuild (keptIds y.hub.mgmt)).1 }
  have hmgmt : (rebuildCells (resetTables (afterFall .bb (afterFall .ba (resetQueues y))))).hub.mgmt =
    { y.hub.mgmt with flags := flags } := hflags
  refine ⟨?_, ?_, fun f hf => ?_, fun r => ?_, ?_, fun q => ?_, fun q => ?_, fun q => ?_, fun n => ?_, fun v => ?_, fun x => ?_⟩
  · rw [← hkept, ← hswept.cells]
    exact flagN_cells _ _ _
  · rw [hmgmt, hswept.mgmt]
  · have hflag := flagOf_flagN_ne (y.hub.cells.rebuild (keptIds y.hub.mgmt)).2
      { y.hub with cells := (y.hub.cells.rebuild (keptIds y.hub.mgmt)).1 } hf
    refine hflag.trans (flagOf_congr ?_ f)
    show y.hub.mgmt.flags = s.hub.mgmt.flags
    rw [hswept.mgmt]
  · rw [← htally r, Hub.tallyOf, hmgmt]
    rfl
  · exact congrArg (fun b : Blocks => { b with
      table := { slots := Vector.replicate 256 none, held := [] }
      sched := { Scheduler.reset with number := b.sched.number, params := b.sched.params }
      up := {} }) hblocks
  · rw [hports, resetPorts_unit]
    exact htx q
  · rw [hports, resetPorts_unit]
    exact hidle q
  · rw [hports, resetPorts_unit]
    exact hswept.ports.units q
  · rw [hports, resetPorts_seat]
    exact congrArg (fun q : SeatPort => { q with egress := [] }) (hswept.ports.seats n)
  · rw [hports, resetPorts_radio, htable, ← hradio v]
    exact ⟨rfl, rfl⟩
  · rw [hports, resetPorts_end]
    exact endQueue_endReset (hswept.ports.ends x)

end

end Sys2Proof.Laws
end

section
/-! The whole of a warm reset, and the statement on RESET (R188). -/

namespace Sys2Proof.Laws

open Sys2Proof Sys2Proof.Machine Sys2Proof.Safety

section
variable {t : State}

/-! ## Steps 1 to 6 together -/

/-- The Management Unit after a warm reset (R167, R177, R188). -/
structure MgmtReset (t w : State) : Prop where
  input : w.hub.mgmt.input = []
  notices : w.hub.mgmt.notices = []
  lost : w.hub.mgmt.lost = t.hub.mgmt.lost
  snapshot : w.hub.mgmt.snapshot = none
  store : w.hub.mgmt.store = t.hub.mgmt.store
  reportAddr : w.hub.mgmt.reportAddr = t.hub.mgmt.reportAddr
  defaultIdle : w.hub.mgmt.defaultIdle = t.hub.mgmt.defaultIdle
  flagOf : ∀ f, f ≠ .memoryDegraded → f ≠ .pressureSeen → w.hub.flagOf f = t.hub.flagOf f

theorem warmReset_mgmt (t : State) : MgmtReset t (warmReset t) := by
  have htraffic := resetTraffic_spec t
  obtain ⟨hreplied, hun, -, -⟩ := abortAllParked_spec (resetTraffic t)
  have hblocks := resetBlocks_spec (abortAllParked (resetTraffic t))
  have hw : warmReset t = resetBlocks (abortAllParked (resetTraffic t)) := rfl
  rw [hw]
  generalize resetTraffic t = a at *
  generalize abortAllParked a = x at *
  generalize resetBlocks x = w at *
  have hx := hblocks.mgmt
  have ha := htraffic.mgmt
  refine ⟨?_, ?_, ?_, ?_, ?_, ?_, ?_, fun f hd hp => ?_⟩
  · rw [hx]
    exact hreplied.hub.input.trans (by rw [ha])
  · rw [hx]
    exact hun.notices.trans (by rw [ha])
  · rw [hx]
    exact hun.lost.trans (by rw [ha])
  · rw [hx]
    exact hreplied.hub.snapshot.trans (by rw [ha])
  · rw [hx]
    exact hreplied.hub.store.trans (by rw [ha])
  · rw [hx]
    exact hreplied.hub.reportAddr.trans (by rw [ha])
  · rw [hx]
    exact hreplied.hub.defaultIdle.trans (by rw [ha])
  · exact (hblocks.flagOf f hd).trans ((hun.flagOf f hd hp).trans (flagOf_congr (by rw [ha]) f))

/-- What each slot holds after a warm reset (R188). -/
theorem warmReset_slot (t : State) (j : Fin 4) :
    AbortAnswered t (t.hub.mgmt.slots[j]).afterAbort (warmReset t).hub.mgmt.slots[j] := by
  have htraffic := resetTraffic_spec t
  obtain ⟨-, -, -, hslots⟩ := abortAllParked_spec (resetTraffic t)
  have hblocks := resetBlocks_spec (abortAllParked (resetTraffic t))
  have hw : warmReset t = resetBlocks (abortAllParked (resetTraffic t)) := rfl
  rw [hw]
  generalize resetTraffic t = a at *
  generalize abortAllParked a = x at *
  generalize resetBlocks x = w at *
  have htable : a.table = t.table := (congrArg (fun b : Blocks => b.table) htraffic.blocks :)
  have hsame : w.hub.mgmt.slots = x.hub.mgmt.slots := (congrArg (fun m : Mgmt => m.slots) hblocks.mgmt :)
  rw [hsame, ← htraffic.slot]
  exact (hslots j).congr htable htraffic.ports

theorem warmReset_tally (t : State) :
    (∀ r, r ≠ .aborted → r ≠ .wire → r ≠ .purge → (warmReset t).hub.tallyOf r = t.hub.tallyOf r) ∧
    (warmReset t).hub.tallyOf .aborted = t.hub.tallyOf .aborted +
      BitVec.ofNat 32 (allPorts.filter (fun p => sendsFrame (t.ports.unitOf p))).length ∧
    (warmReset t).hub.tallyOf .wire = t.hub.tallyOf .wire +
      BitVec.ofNat 32 (allPorts.filter (fun p => takesFrame (t.ports.unitOf p))).length := by
  have htraffic := resetTraffic_spec t
  obtain ⟨hreplied, -⟩ := abortAllParked_spec (resetTraffic t)
  have hblocks := resetBlocks_spec (abortAllParked (resetTraffic t))
  have hw : warmReset t = resetBlocks (abortAllParked (resetTraffic t)) := rfl
  rw [hw]
  generalize resetTraffic t = a at *
  generalize abortAllParked a = x at *
  generalize resetBlocks x = w at *
  have htakes : (fun p => takesFrame (x.ports.unitOf p)) = fun p => takesFrame (t.ports.unitOf p) := funext fun p => by
    rw [takesFrame, hreplied.rx, htraffic.rx, takesFrame]
  have hall : ∀ r, r ≠ .purge → w.hub.tallyOf r = t.hub.tallyOf r +
      BitVec.ofNat 32 (countAt .aborted (allPorts.filter (fun p => sendsFrame (t.ports.unitOf p))).length r) +
      BitVec.ofNat 32 (countAt .wire (allPorts.filter (fun p => takesFrame (t.ports.unitOf p))).length r) := fun r hr => by
    rw [hblocks.tallied r, hreplied.tally r hr, htraffic.tallied r, htakes]
  refine ⟨fun r ha hwire hp => ?_, ?_, ?_⟩
  · rw [hall r hp, countAt_ne _ ha, countAt_ne _ hwire]
    exact (BitVec.add_zero _).trans (BitVec.add_zero _)
  · rw [hall .aborted (by decide), countAt_self, countAt_ne _ (by decide)]
    exact BitVec.add_zero _
  · rw [hall .wire (by decide), countAt_self, countAt_ne _ (by decide)]
    exact congrArg (· + _) (BitVec.add_zero _)

/-- The blocks after a warm reset (R58, R109, R149). -/
theorem warmReset_blocks (t : State) : blocks (warmReset t) = { blocks t with
    table := { slots := Vector.replicate 256 none, held := [] }
    sched := { Scheduler.reset with number := t.sched.number, params := t.sched.params }
    up := {} } := by
  have hblocks := (resetBlocks_spec (abortAllParked (resetTraffic t))).blocks
  have hsame := (abortAllParked_spec (resetTraffic t)).1.blocks.trans (resetTraffic_spec t).blocks
  refine hblocks.trans ?_
  generalize abortAllParked (resetTraffic t) = x at *
  exact congrArg (fun b : Blocks => { b with
      table := { slots := Vector.replicate 256 none, held := [] }
      sched := { Scheduler.reset with number := b.sched.number, params := b.sched.params }
      up := {} }) hsame

/-- The ports after a warm reset (R10, R14, R36, R75, R149, R167). -/
structure PortsReset (t w : State) : Prop where
  tx : ∀ q, (w.ports.unitOf q).tx = none
  rx : ∀ q, (w.ports.unitOf q).rx = .idle
  figures : ∀ q, unitFigures (w.ports.unitOf q) = unitFigures (t.ports.unitOf q)
  seat : ∀ n : Fin 32, seatQueue w.ports.seats[n] = { seatQueue t.ports.seats[n] with egress := [] }
  radio : ∀ v : Fin 4, (w.ports.radios[v]).egress = [] ∧ (w.ports.radios[v]).orders =
    if (t.ports.radios[v]).unit.link = .up then (radioIndices t.table v).map (fun i => { kind := .drop, index := i }) else []
  ends : ∀ x, endQueue (w.ports.endOf x) = endQueue (endReset (t.ports.endOf x))

theorem warmReset_ports (t : State) : PortsReset t (warmReset t) := by
  have htraffic := resetTraffic_spec t
  obtain ⟨hreplied, -⟩ := abortAllParked_spec (resetTraffic t)
  have hblocks := resetBlocks_spec (abortAllParked (resetTraffic t))
  have hw : warmReset t = resetBlocks (abortAllParked (resetTraffic t)) := rfl
  rw [hw]
  generalize resetTraffic t = a at *
  generalize abortAllParked a = x at *
  generalize resetBlocks x = w at *
  have hports := htraffic.ports.trans hreplied.ports
  have htable : x.table = t.table := (congrArg (fun b : Blocks => b.table) (hreplied.blocks.trans htraffic.blocks) :)
  refine ⟨fun q => (hblocks.tx q).trans ((hreplied.tx q).trans (htraffic.tx q)), hblocks.rx,
    fun q => (hblocks.figures q).trans (hports.units q), fun n => (hblocks.seat n).trans ?_, fun v => ?_,
    fun y => (hblocks.ends y).trans (endQueue_endReset (hports.ends y))⟩
  · exact congrArg (fun q : SeatPort => { q with egress := [] }) (hports.seats n)
  · have hlink : (x.ports.radios[v]).unit.link = (t.ports.radios[v]).unit.link :=
      (congrArg (fun u : PortUnit => u.link) (hports.units (.radio v)) :)
    rw [← htable, ← hlink]
    exact hblocks.radio v

/-! ## Cell Memory -/

theorem mem_keptIds {m : Mgmt} {id : Nat} : id ∈ keptIds m ↔ ∃ (j : Fin 4) (h : ReqHeader), m.slots[j] = .built h id := by
  have hbuilt : ∀ q : ReplySlot, (match q with | .built _ i => some i | _ => none) = some id ↔ ∃ h, q = .built h id := by
    intro q
    cases q <;> simp
  unfold keptIds
  rw [List.mem_filterMap]
  constructor
  · rintro ⟨q, hq, hid⟩
    obtain ⟨i, hi, rfl⟩ := List.getElem_of_mem hq
    obtain ⟨h, hh⟩ := (hbuilt _).mp hid
    exact ⟨⟨i, by simpa using hi⟩, h, by simpa using hh⟩
  · rintro ⟨j, h, hj⟩
    exact ⟨_, Vector.mem_toList_iff.mpr (Vector.getElem_mem (xs := m.slots) j.isLt), (hbuilt _).mpr ⟨h, hj⟩⟩

/-- Cell Memory after a warm reset (R36): the rebuild around the frames that the stack's order leaves. -/
theorem warmReset_cells (t : State) : ∃ c : CellMemory,
    (warmReset t).hub.cells = (c.rebuild (keptIds (warmReset t).hub.mgmt)).1 ∧
    c.high = t.hub.cells.high ∧ c.low = t.hub.cells.low ∧ c.singleCapture = t.hub.cells.singleCapture ∧
    c.multiCapture = t.hub.cells.multiCapture ∧
    (StackOk t → c.retired = t.hub.cells.retired ∧
      ∃ new : List FrameRec, c.frames = t.hub.cells.frames ++ new ∧ ∀ g ∈ new, g.failed = []) := by
  have htraffic := resetTraffic_spec t
  obtain ⟨hreplied, -, hgrown, -⟩ := abortAllParked_spec (resetTraffic t)
  have hblocks := resetBlocks_spec (abortAllParked (resetTraffic t))
  have hw : warmReset t = resetBlocks (abortAllParked (resetTraffic t)) := rfl
  rw [hw]
  generalize resetTraffic t = a at *
  generalize abortAllParked a = x at *
  generalize resetBlocks x = w at *
  have hkept : keptIds w.hub.mgmt = keptIds x.hub.mgmt := by
    rw [hblocks.mgmt]
    rfl
  have hcells := htraffic.cells
  obtain ⟨-, -, -, -, -, hhigh, hlow, hsingle, hmulti⟩ := hreplied.hub
  rw [hcells] at hhigh hlow hsingle hmulti
  refine ⟨x.hub.cells, by rw [hkept]; exact hblocks.cells, hhigh, hlow, hsingle, hmulti, fun hok => ?_⟩
  obtain ⟨-, hretired, hframes⟩ := hgrown ⟨by rw [hcells]; exact hok.1, by rw [hcells]; exact hok.2⟩
  rw [hcells] at hretired hframes
  exact ⟨hretired, hframes⟩

theorem rebuild_retired (keep : List Nat) (c : CellMemory) : (c.rebuild keep).1.retired = c.retired ++
    ((List.range 3072).filter (fun x => c.frames.any (fun f => f.failed.contains x && !keep.contains f.id))).take
      (64 - c.retired.length) := by
  have hfailed : failedCells (c.frames.filter (fun f => !keep.contains f.id)) =
      (List.range 3072).filter (fun x => c.frames.any (fun f => f.failed.contains x && !keep.contains f.id)) := by
    refine List.filter_congr fun x _ => ?_
    rw [List.any_filter]
    exact congrArg (fun p => c.frames.any p) (funext fun f => Bool.and_comm ..)
  simp only [CellMemory.rebuild, hfailed]

/-- The rebuild keeps the marks and the captures (R36). -/
theorem rebuild_marks (keep : List Nat) (c : CellMemory) : (c.rebuild keep).1.high = c.high ∧
    (c.rebuild keep).1.low = c.low ∧ (c.rebuild keep).1.singleCapture = c.singleCapture ∧
    (c.rebuild keep).1.multiCapture = c.multiCapture := by
  simp only [CellMemory.rebuild, and_self]

/-- Frames with no failed cell add nothing to what a rebuild retires. -/
theorem any_failed_append {frames new : List FrameRec} (hnew : ∀ g ∈ new, g.failed = []) (keep : List Nat) (x : Nat) :
    (frames ++ new).any (fun f => f.failed.contains x && !keep.contains f.id) =
      frames.any (fun f => f.failed.contains x && !keep.contains f.id) := by
  have hnone : new.any (fun f => f.failed.contains x && !keep.contains f.id) = false :=
    List.any_eq_false.mpr fun g hg => by simp [hnew g hg]
  rw [List.any_append, hnone, Bool.or_false]

theorem retest_quiet (sd : Sender) (h : Hub) : Quiet h (h.retest sd) := by
  have hsame : ∀ c : CellMemory, SameStore h.cells c → Quiet h { h with cells := c } := fun c hc =>
    ⟨rfl, rfl, rfl, rfl, rfl, rfl, rfl, rfl, rfl, hc.high, hc.low, hc.single, hc.multi⟩
  unfold Hub.retest
  split
  · exact (hsame _ (testEnter_same h.cells).1).trans (noteEntered_quiet sd _ _)
  · exact (hsame _ (testLeave_same h.cells).1).trans (noteLeft_quiet sd _ _)

/-- What follows the rebuild changes of the part what replies change, and builds replies that waited (R36, R188). -/
theorem settleReset_spec (w : State) : HubKept w.hub (settleReset w).hub ∧ UnitsOnly w.ports (settleReset w).ports ∧
    (∀ q, ((settleReset w).ports.unitOf q).tx = (w.ports.unitOf q).tx) ∧
    (∀ q, ((settleReset w).ports.unitOf q).rx = (w.ports.unitOf q).rx) ∧
    blocks (settleReset w) = blocks w ∧ WaitedBuilt w (settleReset w) := by
  have hquiet := retest_quiet w.sender w.hub
  obtain ⟨hreplied, hwaited⟩ := buildWaiting_replied 4 (onHub (Hub.retest w.sender) w)
  have hslots : (onHub (Hub.retest w.sender) w).hub.mgmt.slots = w.hub.mgmt.slots := hquiet.slots
  refine ⟨hquiet.hubKept.trans hreplied.hub, hreplied.ports, hreplied.tx, hreplied.rx, hreplied.blocks, fun j => ?_⟩
  have hj := hwaited j
  rw [hslots] at hj
  exact hj

end

end Sys2Proof.Laws
end

section
/-! The statement on RESET (R188). -/

namespace Sys2Proof.Proofs

open Sys2Proof Sys2Proof.Machine Sys2Proof.Safety Sys2Proof.Laws

theorem exec_reset {s : State} {fs : List CellFault} {k : Fin 4} {rq : Request} (ht : Takes s fs k rq)
    (hcode : rq.code = 0x19) : exec (.reset fs) s = .next (answer k
      (resetBody (parkedCount (afterTake s fs).hub.mgmt) (warmReset (afterTake s fs)))
      (settleReset (warmReset (afterTake s fs)))) :=
  congrArg Host.Outcome.next (takeRequest_of_takes (row := isCode 0x19) (rule := ruleReset) ht (decide_eq_true hcode))

/-- The test of the pressure state, and the four turns of the waiting replies (R36, R188). -/
theorem settleReset_turns (w : State) : ∃ h a b c, PressureTested w.sender w.hub h ∧
    exec .buildWaitingReply { w with hub := h } = .next a ∧ exec .buildWaitingReply a = .next b ∧
    exec .buildWaitingReply b = .next c ∧ exec .buildWaitingReply c = .next (settleReset w) :=
  ⟨w.hub.retest w.sender, _, _, _, retest_tested w.sender w.hub, rfl, rfl, rfl, rfl⟩

/-- Settles O60: `w` by the three stages of the warm reset, and `u` by what replies change of the part. -/
theorem resetEmptiesAndKeeps : Obligations.ResetEmptiesAndKeeps := by
  intro s fs k rq ht hcode t w u
  have htake : TakeSpec s k rq t := afterTake_spec ht
  have htports : t.ports = s.ports := afterTake_ports ht
  have htblocks : blocks t = blocks s := afterTake_blocks
  have httable : t.table = s.table := afterTake_table
  have hw : warmReset t = w := rfl
  have hmgmt := warmReset_mgmt t
  have hslots := warmReset_slot t
  obtain ⟨htally, haborted, hwire⟩ := warmReset_tally t
  have hblocks := warmReset_blocks t
  have hports := warmReset_ports t
  obtain ⟨c, hcells, hhigh, hlow, hsingle, hmulti, hstack⟩ := warmReset_cells t
  rw [hw] at hmgmt hslots htally haborted hwire hblocks hports hcells
  obtain ⟨hub, hunits, htx, hrx, hublocks, hwaited⟩ := settleReset_spec w
  have hexec := exec_reset ht hcode
  have hsettled := settleReset_turns w
  have hu : settleReset w = u := rfl
  have hafter : afterTake s fs = t := rfl
  rw [hafter, resetBody, hw, hu] at hexec
  rw [hu] at hsettled
  rw [hu] at hub hunits htx hrx hublocks hwaited
  have hfinal := hublocks.trans hblocks
  clear hw hu hublocks hafter
  clear_value w u
  have hidentity : w.identity = t.identity := (congrArg (fun b : Blocks => b.identity) hblocks :)
  have hconsist : w.consist = t.consist := (congrArg (fun b : Blocks => b.consist) hblocks :)
  have hsender : w.sender = t.sender := by rw [State.sender, hidentity, hconsist, State.sender]
  rw [hsender] at hsettled
  have hstays : ∀ j : Fin 4, (∀ h op, t.hub.mgmt.slots[j] ≠ .parked h op) →
      w.hub.mgmt.slots[j] = (t.hub.mgmt.slots[j]).afterAbort := fun j hno => (hslots j).2 fun h op he => by
    cases hs : t.hub.mgmt.slots[j] <;> rw [hs] at he hno
    case parked h' op' => exact hno h' op' rfl
    all_goals cases he
  have hsettles : ∀ j : Fin 4, (∀ h c b, w.hub.mgmt.slots[j] ≠ .reserved h (some c) b) →
      u.hub.mgmt.slots[j] = w.hub.mgmt.slots[j] := fun j hno =>
    (hwaited j).resolve_right fun ⟨⟨h, c, b, hw⟩, _⟩ => hno h c b hw
  have hbuilt : ∀ (j : Fin 4) h id, t.hub.mgmt.slots[j] = .built h id → w.hub.mgmt.slots[j] = .built h id :=
    fun j h id hj => (hstays j (by rw [hj]; exact nofun)).trans (by rw [hj]; rfl)
  have hfigures : ∀ q, unitFigures (u.ports.unitOf q) = unitFigures (s.ports.unitOf q) := fun q =>
    (hunits.units q).trans (htports ▸ hports.figures q)
  obtain ⟨hkeptHigh, hkeptLow, hkeptSingle, hkeptMulti⟩ := rebuild_marks (keptIds w.hub.mgmt) c
  refine ⟨hexec, hsettled, ?rebuilt, ?frames, ?stack, ?high, ?low, ?single, ?multi, ?builtStays, ?sendingFreed, ?parkedAnswered, ?noneParked,
    hub.input.trans hmgmt.input, hmgmt.notices, hmgmt.lost, hub.snapshot.trans hmgmt.snapshot,
    hub.store.trans hmgmt.store, hub.reportAddr.trans (hmgmt.reportAddr.trans htake.reportAddr),
    hub.defaultIdle.trans (hmgmt.defaultIdle.trans htake.defaultIdle), hmgmt.flagOf, htally, ?aborted, ?wire,
    ?stations, ?held, ?up, ?sched, ?units, ?seats, ?radios, ?ends, ?windows, ?consist, ?hold, ?now, ?identity⟩
  case rebuilt =>
    rw [hcells, rebuild_frames, List.flatMap_map]
    exact rebuild_free _ c
  case frames =>
    intro g hg
    rw [hcells, rebuild_frames] at hg
    obtain ⟨f, hf, rfl⟩ := List.mem_map.mp hg
    exact ⟨rfl, mem_keptIds.mp (List.contains_iff_mem.mp (List.mem_filter.mp hf).2)⟩
  case stack =>
    intro hok
    obtain ⟨hretired, new, hframes, hnew⟩ := hstack hok
    refine ⟨fun j h id f hj hf => ?_, ?_⟩
    · obtain ⟨hmem, hid⟩ := frame?_mem hf
      have hkept : id ∈ keptIds w.hub.mgmt := mem_keptIds.mpr ⟨j, h, hbuilt j h id hj⟩
      rw [hcells, rebuild_frames]
      refine List.mem_map.mpr ⟨f, List.mem_filter.mpr ⟨?_, List.contains_iff_mem.mpr (hid ▸ hkept)⟩, rfl⟩
      rw [hframes]
      exact List.mem_append_left _ hmem
    · rw [show w.hub.cells.retired = _ from congrArg CellMemory.retired hcells, rebuild_retired, hretired, hframes]
      exact congrArg (fun l => t.hub.cells.retired ++ List.take (64 - t.hub.cells.retired.length) l)
        (List.filter_congr fun x _ => any_failed_append hnew _ x)
  case high => rw [hub.high, hcells, hkeptHigh, hhigh, htake.high]
  case low => rw [hub.low, hcells, hkeptLow, hlow, htake.low]
  case single => rw [hub.single, hcells, hkeptSingle, hsingle]
  case multi => rw [hub.multi, hcells, hkeptMulti, hmulti]
  case builtStays =>
    intro j h id hj
    have hw := hbuilt j h id hj
    exact (hsettles j (by rw [hw]; exact nofun)).trans hw
  case sendingFreed =>
    intro j h id hj
    have hw : w.hub.mgmt.slots[j] = .free := (hstays j (by rw [hj]; exact nofun)).trans (by rw [hj]; rfl)
    exact (hsettles j (by rw [hw]; exact nofun)).trans hw
  case parkedAnswered =>
    intro j h op hj
    have hanswer := (hslots j).1 h op (by rw [hj]; rfl)
    rw [abortedBody_congr httable, deadSeat_congr (s := s) (t := t) (by rw [htports]; exact .refl _)] at hanswer
    exact hanswer.imp_right (fun h' => h'.imp_left fun ⟨id, hid⟩ => ⟨id, hid⟩)
  case noneParked =>
    intro j h op hu
    have hw : w.hub.mgmt.slots[j] ≠ .parked h op := fun hw => by
      by_cases hp : ∃ h' op', t.hub.mgmt.slots[j] = .parked h' op'
      · obtain ⟨h', op', hp⟩ := hp
        rcases (hslots j).1 h' op' (by rw [hp]; rfl) with he | ⟨id, he⟩ | ⟨-, he⟩ <;> rw [he] at hw <;> cases hw
      · have hno : ∀ h op, t.hub.mgmt.slots[j] ≠ .parked h op := fun h op he => hp ⟨h, op, he⟩
        rw [hstays j hno] at hw
        cases hs : t.hub.mgmt.slots[j] <;> rw [hs] at hw hno
        case parked h' op' => exact hno h' op' rfl
        all_goals cases hw
    rcases hwaited j with he | ⟨-, he | ⟨h', id, he⟩⟩
    · exact hw (he.symm.trans hu)
    · rw [he] at hu
      cases hu
    · rw [he] at hu
      cases hu
  case aborted =>
    rw [haborted, htports]
    rfl
  case wire =>
    rw [hwire, htports]
    rfl
  case stations =>
    intro j
    have htable : u.table = { slots := Vector.replicate 256 none, held := [] } :=
      (congrArg (fun b : Blocks => b.table) hfinal :)
    rw [State.station?, htable]
    exact Vector.getElem_replicate j.isLt
  case held => exact (congrArg (fun b : Blocks => b.table.held) hfinal :)
  case up => exact (congrArg (fun b : Blocks => b.up) hfinal :)
  case sched =>
    have hsched : t.sched = s.sched := (congrArg (fun b : Blocks => b.sched) htblocks :)
    rw [← hsched]
    exact (congrArg (fun b : Blocks => b.sched) hfinal :)
  case units =>
    intro p
    have hf := hfigures p
    exact ⟨(htx p).trans (hports.tx p), (hrx p).trans (hports.rx p), (congrArg (fun u : PortUnit => u.link) hf :),
      (congrArg (fun u : PortUnit => u.ctr.rxFrames) hf :), (congrArg (fun u : PortUnit => u.ctr.rxBytes) hf :),
      (congrArg (fun u : PortUnit => u.ctr.txFrames) hf :), (congrArg (fun u : PortUnit => u.ctr.txBytes) hf :)⟩
  case seats =>
    intro n
    have hseat := (hunits.seats n).trans (hports.seat n)
    rw [htports] at hseat
    exact ⟨(congrArg (fun q : SeatPort => q.egress) hseat :), (congrArg (fun q : SeatPort => q.designation) hseat :)⟩
  case radios =>
    intro v
    obtain ⟨hegress, horders⟩ := hports.radio v
    rw [htports, httable] at horders
    exact ⟨(congrArg (fun q : RadioLink => q.egress) (hunits.radios v) :).trans hegress,
      (congrArg (fun q : RadioLink => q.orders) (hunits.radios v) :).trans horders⟩
  case ends =>
    intro x
    have hend := (hunits.ends x).trans (hports.ends x)
    rw [htports] at hend
    unfold endReset at hend
    cases hout : (s.ports.endOf x).outstanding with
    | false =>
      rw [hout, if_neg (by decide)] at hend
      exact ⟨(congrArg (fun e : BackboneEnd => e.transit) hend :), (congrArg (fun e : BackboneEnd => e.heldUntil) hend :),
        (congrArg (fun e : BackboneEnd => e.holdStart) hend :), (congrArg (fun e : BackboneEnd => e.overrun) hend :),
        (congrArg (fun e : BackboneEnd => e.streak) hend :), (congrArg (fun e : BackboneEnd => e.lastTransit) hend :),
        nofun, fun _ => (congrArg (fun e : BackboneEnd => e.pendingHold) hend :)⟩
    | true =>
      rw [hout, if_pos rfl] at hend
      exact ⟨(congrArg (fun e : BackboneEnd => e.transit) hend :), (congrArg (fun e : BackboneEnd => e.heldUntil) hend :),
        (congrArg (fun e : BackboneEnd => e.holdStart) hend :), (congrArg (fun e : BackboneEnd => e.overrun) hend :),
        (congrArg (fun e : BackboneEnd => e.streak) hend :), (congrArg (fun e : BackboneEnd => e.lastTransit) hend :),
        fun _ => ⟨(congrArg (fun e : BackboneEnd => e.pendingHold) hend :),
          (congrArg (fun e : BackboneEnd => e.outstanding) hend :)⟩, nofun⟩
  case windows => exact (congrArg (fun b : Blocks => b.windows) (hfinal.trans (by rw [htblocks])) :)
  case consist => exact (congrArg (fun b : Blocks => b.consist) (hfinal.trans (by rw [htblocks])) :)
  case hold => exact (congrArg (fun b : Blocks => b.hold) (hfinal.trans (by rw [htblocks])) :)
  case now => exact (congrArg (fun b : Blocks => b.now) (hfinal.trans (by rw [htblocks])) :)
  case identity => exact (congrArg (fun b : Blocks => b.identity) (hfinal.trans (by rw [htblocks])) :)

end Sys2Proof.Proofs
end
